-- ==== Sys2Proof/Word.lean ====
section
/-! DEFINITION. The word types of the device and sparse tables keyed by a number. -/

set_option Elab.async false

namespace Sys2Proof

/-- A byte of any store (R10: all byte orders are little-endian). -/
abbrev Byte := BitVec 8

/-- The value of a register: 32-bit registers keep their upper half at zero (R12). -/
abbrev RegVal := BitVec 64

/-- A sparse table: keys strictly rising. What a key that is not listed holds is said by each table's reader. -/
abbrev Tab (α : Type) := List (Nat × α)

end Sys2Proof
end

