-- ==== Sys2Proof/Syntax.lean ====
section
/-! DEFINITION. The commands of the block: one constructor for each row of the spec's table of operations and events.
A command whose input lies in the device (an instruction at a program counter, an entry of a queue's ring, a packet in a
port's inbox) names only where it lies; a command whose input comes from outside carries it. -/

set_option Elab.async false

namespace Sys2Proof

/-- Who makes an access to a register (R36, R85, R451, R473): the host with the authority of context 0, a context, or
the management port. -/
inductive Origin where
  | host
  | ctx (n : Nat)
  | mgmt
  deriving DecidableEq, Repr

/-- A disturbance by the environment: the bits that change in the value of a cell (R175, R383). The cells of an array are
numbered 64 × row + column; those of the second array of an ABLK, which forms one or two products, follow from 4096 on. -/
structure Flip where
  index : Nat
  bits : Nat
  deriving DecidableEq, Repr

/-- An error that the device detects on a path or in a store while a command runs (R377, R378): its source code, whether
the code corrected it, the unit and location of its record, whether that location is a cluster (of a path endpoint or an on-chip
store it may be a die), and the address. -/
structure FaultIn where
  source : Nat
  corrected : Bool
  /-- a path whose retry failed 16 times in a row (R377) -/
  retry : Bool
  unit : Nat
  loc : Nat
  cluster : Bool
  addr : Nat
  deriving DecidableEq, Repr

/-- A piece of work that ends: its number, with the errors that its paths and the stores it used show (R377, R378). -/
structure Ending where
  no : Nat
  events : List FaultIn
  deriving DecidableEq, Repr

/-- An ABLK of a cluster, with the disturbances that its array work meets (R175, R218). -/
structure ArrayRun where
  g : Nat
  flips : List Flip
  deriving DecidableEq, Repr

/-- The commands. -/
inductive Instr where
  /-- REGISTER_WRITE (R13): A host or context-0 write to a register field that has no row of its own sets, ignores or clears
  the field according to its access type, or is discarded and counted -/
  | registerWrite (o : Origin) (off size : Nat) (v : Option Nat)
  /-- VIOLCNT_CLR (R86): Writing CLR to a block's VIOLCNT clears COUNT, HOSTSRC and LASTCTX -/
  | violcntClr (o : Origin) (off v : Nat)
  /-- PARTMAP_WRITE (R50): A write to CFG.PARTMAP(p) adds or removes clusters bit by bit, refusing and counting bits that
  would take a cluster from another partition or from a running context -/
  | partmapWrite (o : Origin) (p v : Nat)
  /-- PARTITION_RESET (R52): Writing CFG.PARTCTL(p):RESET ends the partition's running, parking and waking contexts, abandons
  in-flight work, clears on-chip state and rebuilds the partition's pools and audits -/
  | partitionReset (o : Origin) (p v : Nat)
  /-- CONTEXT_ENABLE (R55): Writing CTX.CTL:ENABLE = 1 with an existing PART binds a FREE context to the partition -/
  | contextEnable (o : Origin) (n v : Nat)
  /-- CONTEXT_DISABLE (R55): Writing CTX.CTL:ENABLE = 0 frees a BOUND or COCOONED context, detaches it from shared granules,
  clears its queues' EN and completes unexecuted commands with RESET -/
  | contextDisable (o : Origin) (n v : Nat)
  /-- PREEMPT (R78): Writing CTX.CTL:PREEMPT moves a RUNNING context to PARKING, so that issue continues to the next yield
  point; in any other state the write is discarded -/
  | preempt (o : Origin) (n v : Nat)
  /-- RESUME (R56): Writing CTX.CTL:RESUME makes a COCOONED context runnable, or sets MISMATCH when its saved cluster count
  differs from the partition's count -/
  | resume (o : Origin) (n v : Nat)
  /-- QUANTUM_EXPIRY (R79): The time slice expires with another context runnable, so the running context enters PARKING -/
  | quantumExpiry (p : Nat)
  /-- CONTEXT_SELECT (R79): When the partition's clusters are free, the device selects a runnable context and makes it
  RUNNING, with its LAUNCH checked, or WAKING, with its cocoon read started -/
  | contextSelect (p : Nat)
  /-- PARK_DRAINED (R73): Every cluster of a PARKING context has reached a yield point and drained, so the cocoon write
  starts, or the context returns to BOUND when every stream has halted -/
  | parkDrained (n : Nat)
  /-- COCOON_WRITTEN (R55): The cocoon write completes: the context becomes COCOONED, LASTSTAT is set to PREEMPTED and the
  clusters are released -/
  | cocoonWritten (n : Nat)
  /-- COCOON_READ (R55): The cocoon read completes: the WAKING context becomes RUNNING and issue resumes after the yield point -/
  | cocoonRead (n : Nat)
  /-- QUE_ENABLE (R58): Writing QUE.CTL:EN = 1 enables fetching on the queue unless its context is FREE -/
  | queEnable (o : Origin) (q v : Nat)
  /-- QUE_DISABLE (R59): Clearing QUE.CTL:EN stops fetching, completes fetched but unstarted commands with RESET and zeroes
  the queue pointers -/
  | queDisable (o : Origin) (q v : Nat)
  /-- DOORBELL (R61): A host write of a new TAIL to a queue doorbell is checked, acknowledged and entered in the context's
  fetch schedule, and it wakes a Parked device -/
  | doorbell (off size : Nat) (v : Option Nat)
  /-- NOP (R63): Command NOP completes with OK -/
  | nop (q : Nat)
  /-- LAUNCH (R63): Command LAUNCH starts a KIS stream on every cluster of the partition, or completes with MISMATCH or BUSY
  and runs nothing -/
  | launch (q : Nat)
  /-- DESCW (R63): Command DESCW copies descriptors into the context's descriptor slots -/
  | descw (q : Nat)
  /-- FENCE (R63): Command FENCE starts once every earlier command of the context's eight queues has completed -/
  | fence (q : Nat)
  /-- RESERVED_COMMAND (R63): A reserved command code executes as NOP and is counted in QUE.VIOLCNT -/
  | reservedCommand (q : Nat)
  /-- BRA (R102): A compare either branches or sets a predicate -/
  | bra (g : Nat)
  /-- LOOP (R103): Adds STEP to an index register and branches while the index is below the limit -/
  | loop (g : Nat)
  /-- WAIT (R104): Issue stalls until a tag counter reaches its target -/
  | wait (g : Nat)
  /-- WAIT_SATISFIED (R104): A stalled WAIT's counter reaches its target under the window comparison, and issue resumes -/
  | waitSatisfied (g : Nat)
  /-- SIGNAL (R105): A release is issued that will add INC to a tag counter of one cluster or of every cluster of the partition -/
  | signal (g : Nat)
  /-- SIGNAL_RELEASE (R105): Every earlier instruction of the cluster has completed, so the SIGNAL's additions are applied -/
  | signalRelease (f : Nat)
  /-- YIELD (R106): A yield point naming a live-state map, at which pre-emption and deferred tests may start -/
  | yield (g : Nat)
  /-- BARRIER (R107): A partition BARRIER, released when every cluster of the partition has reached it -/
  | barrier (g : Nat)
  /-- BARRIER_DOMAIN (R357): A domain BARRIER checks its generation and sends BARARRIVE to the manager, or completes at once
  with STALE -/
  | barrierDomain (g : Nat)
  /-- BARRIER_WAVE (R433): A staggered release wave starts and completes the BARRIER on the clusters whose logical index
  falls in the wave -/
  | barrierWave (p : Nat)
  /-- HINT (R434): Informs the governor of a heavy or light phase ahead, and may request a VCORE boost -/
  | hint (g : Nat)
  /-- HALT (R109): Waits until every instruction the cluster has issued has completed, and then ends the stream -/
  | halt (g : Nat)
  /-- STREAM_END (R109): The awaited work of a HALT has completed, so the stream ends on the cluster with its status -/
  | streamEnd (g : Nat)
  /-- RESERVED_OPCODE (R99): A reserved opcode executes as a no-op, counted in SEQ.VIOLCNT, and its TAG counter gains one -/
  | reservedOpcode (g : Nat)
  /-- RESERVED_RUN_HALT (R99): After 4,096 consecutive reserved opcodes the stream ends on the cluster with status INCOMPLETE -/
  | reservedRunHalt (g : Nat)
  /-- INSTRUCTION_COMPLETE (R94): An issued instruction's effects become visible, so its TAG counter gains one, or the
  increment is added to the cocoon while the context is parked -/
  | instructionComplete (f : Ending)
  /-- TLOAD (R113): Loads a tile from a tensor into the tile store -/
  | tload (g : Nat) (events : List FaultIn)
  /-- TLOAD_SCALAR (R113): The scalar mode of TLOAD loads 64-bit words from memory into scalar registers -/
  | tloadScalar (g : Nat) (events : List FaultIn)
  /-- TSTORE (R113): Stores a tile into a tensor within its extents -/
  | tstore (g : Nat) (events : List FaultIn)
  /-- TXFER (R115): Copies tile-store units to another cluster of the partition and adds to a destination tag counter -/
  | txfer (g : Nat) (events : List FaultIn)
  /-- TTRANS (R169): Writes a transposed tile into a half of the transposing buffer -/
  | ttrans (g : Nat) (events : List FaultIn)
  /-- LPARK (R260): Hands pages to the ledger, which places each record by its policy action -/
  | lpark (g : Nat)
  /-- LFETCH (R260): Returns pages to their home addresses, or writes zeros for a page that misses -/
  | lfetch (g : Nat) (flips : List Flip)
  /-- LDROP (R260): Moves page records to GONE and releases their storage -/
  | ldrop (g : Nat)
  /-- LPIN (R260): Pins page records resident in RES, or unpins them -/
  | lpin (g : Nat) (flips : List Flip)
  /-- LEDGER_MOVE_COMPLETE (R261): A placement or move of a page record completes, so the record takes its new state and its
  old storage is released -/
  | ledgerMoveComplete (k : Nat) (r : Ending)
  /-- LEDGER_WAIT_RELEASE (R262): An LPARK, placement or LPIN that was waiting for room, a record or a frame proceeds -/
  | ledgerWaitRelease (k : Nat)
  /-- MMA (R117): Accumulates A·B into an accumulation slot on a matrix engine, and runs the epilogue at LAST -/
  | mma (g : Nat) (flips : List Flip)
  /-- LAMINATION_SPILL (R172): The product count reaches a multiple of the lamination interval, so the FP32 partials are
  spilled into binary64 and the row checks run -/
  | laminationSpill (g e : Nat) (flips : List Flip)
  /-- TRAY_ENTRY (R208): A finished tile that was waiting enters a free tray slot in issue order -/
  | trayEntry (g : Nat)
  /-- TRAY_POP (R209): A popping instruction that was waiting on an empty tray takes the tile that has arrived -/
  | trayPop (g : Nat)
  /-- VCHAIN (R195): Runs a chain program of at most 8 stages over tiles and converts the results to the destination -/
  | vchain (g : Nat)
  /-- VRED (R205): Reduces tiles in the fixed butterfly order -/
  | vred (g : Nat)
  /-- VSHUF (R204): Permutes the lanes of a vector register by a pattern -/
  | vshuf (g : Nat)
  /-- VDWC (R246): Computes one depth-wise convolution output tile -/
  | vdwc (g : Nat)
  /-- ABLK (R219): Performs one block of online softmax attention and, with LAST, normalises and writes the output -/
  | ablk (g : ArrayRun)
  /-- RMASK (R120): Writes a keep mask drawn from the counter-based generator -/
  | rmask (g : Nat)
  /-- UPDATE (R325): Applies the optimiser rule to parameters and state, or is skipped when the step is not committed -/
  | update (g : Nat)
  /-- UPDSPARSE (R329): Applies the optimiser rule to the listed rows only, with per-row step counts -/
  | updsparse (g : Nat)
  /-- NORMSQ (R314): Adds the squares of gradient elements into the binary64 lanes of a slot -/
  | normsq (g : Nat)
  /-- NORMSQ_CLOSE (R315): NORMSQ with zero groups reduces the slot, writes the FP32 sum and clears the slot -/
  | normsqClose (g : Nat)
  /-- FOLD (R312): Adds a per-use gradient into the tied gradient in fixed element order -/
  | fold (g : Nat)
  /-- CRED (R352): Starts one instance of a reduction plan, sending RCOUNT and RPART from its leaf and nodes -/
  | cred (g : Nat)
  /-- CBCAST (R355): Broadcasts the root's elements to every member through BDATA -/
  | cbcast (g : Nat)
  /-- CSEND (R355): Sends data on a channel to a destination device -/
  | csend (g : Nat)
  /-- CRECV (R355): Receives the data paired with a CSEND on a channel -/
  | crecv (g : Nat)
  /-- CVOTE (R360): Casts the worker's step vote, formed from step control's state, to its manager -/
  | cvote (g : Nat)
  /-- SCALEUPD (R152): Updates a tensor's scale record from its amax history and saturation count -/
  | scaleupd (g : Nat)
  /-- HEALTH (R155): Tallies zeros, saturations and non-finite values of a tile into a health slot or the device-wide bin -/
  | health (g : Nat)
  /-- SHADOW_COMPARE (R383): A shadow unit ends, its result is compared bit for bit with the original, and the engines' watch
  states are updated -/
  | shadowCompare (g e : Nat) (flips : List Flip) (events : List FaultIn)
  /-- DRAIN_RESET (R386): When the pending CVOTE completes, or 10 ms after confirmation, the device resets every partition,
  stops heartbeats and clears DRAINING -/
  | drainReset
  /-- PATROL_SCRUB (R378): The patrol scrub of HBM stacks and DDR5 channels writes back the corrected errors it finds -/
  | patrolScrub (events : List FaultIn)
  /-- TEST_DUE (R392): A cluster becomes due for an in-field test INTERVAL minutes after its last pass -/
  | testDue (g : Nat)
  /-- INFIELD_TEST_START (R392): A due cluster's in-field test starts at its first opportunity -/
  | infieldTestStart (g : Nat)
  /-- INFIELD_TEST_DONE (R391): An in-field test ends, recording a pass or confirming the cluster faulty -/
  | infieldTestDone (g : Nat) (pass : Bool)
  /-- TEST_OVERDUE (R393): A test has had no opportunity for 10 minutes, so TEST_OVERDUE is queued and the test is forced at
  the next yield point -/
  | testOverdue (g : Nat)
  /-- SELFTEST (R396): Service command that tests every cluster, base die, link die and MDL port -/
  | selftest (q : Nat)
  /-- CLTEST (R396): Service command that runs the in-field test on one cluster when an opportunity holds -/
  | cltest (q : Nat)
  /-- POOL_ENABLE (R274): Writing LDG.PCTL:EN = 1 enables a pool after checks and clears its statistics -/
  | poolEnable (o : Origin) (k v : Nat)
  /-- POOL_DISABLE (R273): Writing LDG.PCTL:EN = 0 frees every record of the pool when its owner is FREE or BOUND -/
  | poolDisable (o : Origin) (k v : Nat)
  /-- POOLAUD_LATCH (R271): A read of LDG.POOLAUD word 0 latches the pool's state counts from one MCLK cycle -/
  | poolaudLatch (o : Origin) (k : Nat)
  /-- SHRAUD_LATCH (R302): A read of LDG.SHRAUD latches the reference count and map count of the selected shared-table entry -/
  | shraudLatch (o : Origin) (t : Nat)
  /-- SHBASE_WRITE (R302): A write to LDG.SHBASE creates the stack's shared table, and is discarded while any entry is valid -/
  | shbaseWrite (o : Origin) (t v : Nat)
  /-- TLBINV (R284): Service command that discards a context's cached translation entries -/
  | tlbinv (q : Nat)
  /-- SHATTACH (R291): Service command that attaches a context to shared granules and raises their reference counts -/
  | shattach (q : Nat)
  /-- SHDETACH (R291): Service command that detaches a context from shared granules and lowers their reference counts -/
  | shdetach (q : Nat)
  /-- BWSHARE_WRITE (R299): A write to HBM.BWSHARE sets a partition's bandwidth shares field by field, effective within 1 µs -/
  | bwshareWrite (o : Origin) (p v : Nat)
  /-- RECAL_NOW (R300): Writing HBM.RECAL:NOW starts recalibration windows for all four groups of a stack -/
  | recalNow (o : Origin) (t v : Nat)
  /-- RECAL_PERIODIC (R300): The periodic timer starts a recalibration window for the next group of a stack -/
  | recalPeriodic (t : Nat)
  /-- RECAL_DRIFT (R300): A 5 °C temperature drift since a group's last window starts a window for that group -/
  | recalDrift (t group : Nat)
  /-- RECAL_WINDOW_END (R300): A recalibration window ends and the requests waiting on its group proceed -/
  | recalWindowEnd (t : Nat)
  /-- PORT_ENABLE (R342): Writing MDL.PCTL:ENABLE = 1 starts lane training on a DOWN port -/
  | portEnable (o : Origin) (m v : Nat)
  /-- PORT_DISABLE (R342): Writing MDL.PCTL:ENABLE = 0 takes the port DOWN with a link port reset -/
  | portDisable (o : Origin) (m v : Nat)
  /-- STORE_PORT_SELECT (R336): Writing MDL.PCTL:STORE makes the port a store port, and a write that would create a fifth
  store port is discarded -/
  | storePortSelect (o : Origin) (m v : Nat)
  /-- LANE_TRAINING_DONE (R342): Lanes finish training at 8 or 4 lanes, and the port goes UP once a valid init FU has also
  been received -/
  | laneTrainingDone (m lanes : Nat)
  /-- TRAINING_TIMEOUT (R342): A port spends 100 ms in TRAINING without reaching UP and goes DOWN -/
  | trainingTimeout (m : Nat)
  /-- DOWN_RETRY (R342): After 10 ms in DOWN with ENABLE set, training is retried -/
  | downRetry (m : Nat)
  /-- LIVENESS_TIMEOUT (R342): No valid FU arrives for 1 ms, so the port goes DOWN -/
  | livenessTimeout (m : Nat)
  /-- REPLAY_TIMEOUT (R341): 10 µs pass without ACK progress, so the sender retransmits from ACK + 1, or goes DOWN at the
  eighth such retransmission -/
  | replayTimeout (m : Nat)
  /-- DATA_FU (R341): A received data FU is accepted in sequence, or discarded as a duplicate, or discarded and answered by a
  NAK -/
  | dataFu (m : Nat) (fu : List Byte)
  /-- CONTROL_FU (R338): A received control FU applies ACK, NAK replay and credit returns -/
  | controlFu (m : Nat) (fu : List Byte)
  /-- INIT_FU (R338): A received init FU records the partner's device ID and grants, which brings the port UP during training
  or takes it DOWN when it arrives while UP -/
  | initFu (m : Nat) (fu : List Byte)
  /-- PACKET_FORWARD (R345): A packet for another device is forwarded cut-through on the routed port, or is discarded when
  its route entry is invalid -/
  | packetForward (m : Nat)
  /-- JOIN (R348): A received JOIN is forwarded to the root, or checked there and answered with JOINACK -/
  | join (m : Nat)
  /-- JOINACK (R348): A received JOINACK is relayed to the joiner, or sets the joiner's configuration status -/
  | joinack (m : Nat)
  /-- HEARTBEAT (R349): A received HEARTBEAT refreshes the sender's liveness -/
  | heartbeat (m : Nat)
  /-- HEARTBEAT_SEND (R349): Every 100 µs a member and its manager exchange HEARTBEAT -/
  | heartbeatSend
  /-- MEMBER_LOST (R349): No packet has come from a member for 2 ms, so it is marked LOST -/
  | memberLost (r : Nat)
  /-- VOTE (R360): A manager receives a worker's vote, and sends GVOTE once its whole table has voted -/
  | vote (m : Nat)
  /-- VOTE_TIMEOUT (R360): VOTETMO expires at a manager, so it sends GVOTE with its missing members marked LOST -/
  | voteTimeout
  /-- GVOTE (R361): The root receives a manager's combined vote, and decides once every vote of the pair is in -/
  | gvote (m : Nat)
  /-- ANSWER (R362): A received ANSWER is relayed to the table, completes the CVOTE, updates the step counter and round, and
  recomputes the cadence -/
  | answer (m : Nat)
  /-- CVOTE_TIMEOUT (R362): No answer arrives within 3 × VOTETMO, so the CVOTE completes with TIMEOUT -/
  | cvoteTimeout
  /-- BARARRIVE (R357): A manager or the root records a barrier arrival, passing it upward or releasing the generation once
  all have arrived -/
  | bararrive (m : Nat)
  /-- BARRELEASE (R357): A received release is relayed, answered with BARDONE, advances GEN and completes the BARRIER with OK
  or STALE -/
  | barrelease (m : Nat)
  /-- BARDONE (R358): A manager counts a consumed barrier token -/
  | bardone (m : Nat)
  /-- BARRIER_TIMEOUT (R357): A domain BARRIER receives no release within its timeout and completes with TIMEOUT -/
  | barrierTimeout (g : Nat)
  /-- RPART (R352): A node adds a child's FP32 partials in slot order, and sends upward or finishes at the root once all
  children are in -/
  | rpart (m : Nat)
  /-- RCOUNT (R353): A node records a child's contribution count and presence digest -/
  | rcount (m : Nat)
  /-- RRESULT (R354): A result segment is written to the owned elements and relayed down to the children -/
  | rresult (m : Nat)
  /-- RFINAL (R354): The root's count is delivered down the tree and written to CNTADDR, completing the CRED -/
  | rfinal (m : Nat)
  /-- CHILD_TIMEOUT (R354): A node waits CHILDTMO for a child or for its parent, and the CRED completes with TIMEOUT -/
  | childTimeout (c : Nat)
  /-- BDATA (R355): A CBCAST segment is written whole and relayed to the children -/
  | bdata (m : Nat)
  /-- SDATA (R355): CSEND data is written by the paired CRECV and acknowledged with SACK -/
  | sdata (m : Nat)
  /-- SACK (R355): A received SACK completes the CSEND -/
  | sack (m : Nat)
  /-- SWACK (R406): A durable object write is acknowledged, and the manifest header is sent once every SWACK of the epoch is in -/
  | swack (m : Nat)
  /-- SMACK (R405): The manifest is durable, so the slot becomes DRAINED and SNAPDRAIN completes with OK -/
  | smack (m : Nat)
  /-- SRDATA (R412): Restore data arrives from the store, is decrypted, written and digested, or STALE is reported -/
  | srdata (m : Nat)
  /-- SQINFO (R402): The store's valid epochs are written into SNP.STQ and STQUERY completes -/
  | sqinfo (m : Nat)
  /-- STORE_TIMEOUT (R367): STORETMO expires, so the store request is repeated, and after three repeats the transaction
  completes with TIMEOUT -/
  | storeTimeout
  /-- SNAPTAKE (R403): Service command that checks its conditions and starts taking a chrysalis into slot E mod 2 -/
  | snaptake (q : Nat)
  /-- TAKE_COMPLETE (R405): Every object has been copied into the slot, so it becomes HELD, SNP.EPOCH takes E and SNAPTAKE
  completes with OK -/
  | takeComplete
  /-- SNAPDRAIN (R406): Service command that drains a slot to the store, object by object, with the manifest last -/
  | snapdrain (q : Nat)
  /-- RESTORE (R412): Service command that restores the job context's state from the store or from a local slot -/
  | restore (q : Nat)
  /-- RESTORE_COMPLETE (R414): The restore ends, applying the device state block, setting the step counter, barrier state and
  RSTAT, and completing with OK or RNG_REDERIVED -/
  | restoreComplete
  /-- SNPVERIFY (R415): Service command that compares a reference digest with SNP.RDIGEST -/
  | snpverify (q : Nat)
  /-- STQUERY (R402): Service command that sends SQUERY on a store port -/
  | stquery (q : Nat)
  /-- GOVERNOR_EPOCH (R423): At each 1,000-cycle epoch boundary the governor closes the token audit, reads power and
  temperatures, applies pending changes, sets φ and grants tokens -/
  | governorEpoch (power : Nat) (temps : List Nat)
  /-- TOKEN_TAKE (R424): A unit's busy count reaches a multiple of 64, so it takes a token from the pool or holds its work
  until the next grant -/
  | tokenTake (g u : Nat)
  /-- TOKAUD_LATCH (R426): A read of PWR.TOKAUD latches the live epoch's token terms together with PWR.TOKEPOCH -/
  | tokaudLatch (o : Origin)
  /-- OPERATING_POINT_SET (R421): A write of PWR.OPSET:OP requests an operating-point change at the next governor epoch -/
  | operatingPointSet (o : Origin) (v : Nat)
  /-- RAMP_LIMIT_SET (R432): A write of PWR.OPSET:RAMP selects the ramp slope from the next governor epoch -/
  | rampLimitSet (o : Origin) (v : Nat)
  /-- OP_SWITCH_COMPLETE (R421): The voltage and PLL switching sequence of an operating-point change completes, and OPEFF
  takes the new point -/
  | opSwitchComplete
  /-- CAP_WRITE (R428): A write of PWR.CAP sets CAP and FASTCAP, from host, context 0 or I3C -/
  | capWrite (o : Origin) (v : Nat)
  /-- CAPLIM_N (R427): The CAPLIM_N input is asserted or deasserted, which puts FASTCAP in force or removes it -/
  | caplimN (level : Bool)
  /-- THERMAL_TRIP (R430): A junction exceeds 115 °C, so THERMTRIP_N is asserted, every clock except REFCLK stops and the
  trip is recorded -/
  | thermalTrip (die temp : Nat)
  /-- DROOP_TRIP (R431): A droop detector trips and the die's clocks lengthen their cycles by one quarter -/
  | droopTrip (die : Nat)
  /-- STRETCH_END (R431): After at least 32 cycles, and once the voltage has recovered, the clocks return to normal length -/
  | stretchEnd (die cycles : Nat)
  /-- UNIT_INACTIVE (R432): A unit without work for 64 ACLK cycles becomes inactive -/
  | unitInactive (g u : Nat)
  /-- ACTIVATION_GRANT (R432): In each ramp interval the limiter grants activations to waiting units -/
  | activationGrant
  /-- BOOST_START (R434): At the later of the next epoch and 20 µs before the phase, VCORE is raised to the boosted setpoint -/
  | boostStart (p : Nat)
  /-- BOOST_END (R434): A boost ends 100 µs after the phase start, or at the epoch after a light HINT -/
  | boostEnd (p : Nat)
  /-- SETSTATE (R438): Service command that requests the Active, Parked or Dormant power state -/
  | setstate (q : Nat)
  /-- LOW_POWER_ENTERED (R437): Entry to Parked or Dormant completes after state is saved and the dies are powered down -/
  | lowPowerEntered
  /-- SEN_WAKE (R437): The SEN_WAKE input is asserted and starts a wake from Parked or Dormant -/
  | senWake (level : Bool)
  /-- I3C_WAKE (R437): Writing MGT.CTL:WAKE starts a wake from Parked or Dormant -/
  | i3cWake (v : Nat)
  /-- WAKE_COMPLETE (R437): The dies are powered and their state restored, so the device is Active -/
  | wakeComplete
  /-- SENTINEL_TICK (R440): At each tick the sentinel samples every channel and runs the enabled filter slots -/
  | sentinelTick (samples : List Nat)
  /-- SEN_SLOT_ENABLE (R441): Setting SEN.SLOT:EN from 0 to 1 clears f0–f7 and starts the slot running -/
  | senSlotEnable (o : Origin) (r v : Nat)
  /-- SEN_CTL_CAPCLR (R444): Writing SEN.CTL:CAPCLR clears the sentinel cap -/
  | senCtlCapclr (o : Origin) (v : Nat)
  /-- SEN_EVENT_POP (R447): A read of SEN.EVENT pops the oldest sentinel record -/
  | senEventPop (o : Origin)
  /-- CHK_EVENT_POP (R398): A read of CHK.EVENT word 0 pops the oldest fault record and latches word 1 -/
  | chkEventPop (o : Origin)
  /-- CREDAUD_LATCH (R340): A read of MDL.CREDAUD latches the credit terms of one virtual lane -/
  | credaudLatch (o : Origin) (m l : Nat)
  /-- BARAUD_LATCH (R358): A read of STP.BARAUD latches the barrier token terms -/
  | baraudLatch (o : Origin)
  /-- CONTRIB_LATCH (R371): A read of COL.CONTRIB word 0 latches words 0–2 -/
  | contribLatch (o : Origin)
  /-- BLOBAPPLY (R465): Service command that verifies the signed configuration blob, applies its items and takes the RWL lock -/
  | blobapply (q : Nat)
  /-- FWSLOT (R466): Service command that verifies a firmware image and writes it to the flash slot -/
  | fwslot (q : Nat)
  /-- COREUPD (R470): Service command that live-loads a verified image into one service core -/
  | coreupd (q : Nat)
  /-- PUSH_GO (R462): Writing HIF.PUSHCTL:GO starts reading a pushed firmware image from host memory -/
  | pushGo (o : Origin) (v : Nat)
  /-- PUSH_COMPLETE (R462): The pushed image has been read and verified, so boot continues at step 4 or the device enters
  BOOTFAIL -/
  | pushComplete
  /-- BOOT_STEP_COMPLETE (R460): A boot step finishes and PHASE advances to the next step -/
  | bootStepComplete
  /-- HDMWIN_WRITE (R456): A write to HIF.HDMWIN enables the host-managed window after checks, or counts a violation -/
  | hdmwinWrite (o : Origin) (v : Nat)
  /-- HDM_ACCESS (R456): A host CXL.mem request to the host-managed window is served in plaintext -/
  | hdmAccess (write : Bool) (addr size v : Nat)
  /-- I3C_TRANSACTION (R473): An I3C or legacy management transaction reads or writes a permitted register, or is discarded
  and counted in MGT.VIOLCNT -/
  | i3cTransaction (write : Bool) (addr size v : Nat)
  /-- HIF_RESET_COLD (R457): Writing HIF.RESET:COLD causes a cold reset -/
  | hifResetCold (o : Origin) (v : Nat)
  /-- HIF_RESET_WARM (R457): Writing HIF.RESET:WARM causes a warm reset -/
  | hifResetWarm (o : Origin) (v : Nat)
  /-- PWRGOOD_DEASSERT (R488): PWRGOOD deasserts and the device enters cold reset within 1 µs -/
  | pwrgoodDeassert
  /-- PWRGOOD_ASSERT (R488): PWRGOOD asserts, and boot proceeds once every supply is in tolerance -/
  | pwrgoodAssert
  /-- RESET_N_ASSERT (R457): RESET_N asserted for at least 1 µs with PWRGOOD asserted causes a warm reset -/
  | resetNAssert
  /-- RESET_N_DEASSERT (R460): RESET_N deasserts, BOOTSRC is sampled and boot starts -/
  | resetNDeassert (bootsrc : Nat)
  /-- CXL_CONVENTIONAL_RESET (R457): A CXL hot reset, link disable or secondary bus reset causes a warm reset -/
  | cxlConventionalReset
  /-- GET_VERSION (R468): SPDM GET_VERSION request on the DOE mailbox -/
  | getVersion (msg : List Byte)
  /-- GET_CAPABILITIES (R468): SPDM GET_CAPABILITIES request -/
  | getCapabilities (msg : List Byte)
  /-- NEGOTIATE_ALGORITHMS (R468): SPDM NEGOTIATE_ALGORITHMS request -/
  | negotiateAlgorithms (msg : List Byte)
  /-- GET_DIGESTS (R468): SPDM GET_DIGESTS request -/
  | getDigests (msg : List Byte)
  /-- GET_CERTIFICATE (R468): SPDM GET_CERTIFICATE request for slot 0 -/
  | getCertificate (msg : List Byte)
  /-- CHALLENGE (R468): SPDM CHALLENGE request, signed with the identity key -/
  | challenge (msg : List Byte)
  /-- GET_MEASUREMENTS (R469): SPDM GET_MEASUREMENTS request that reports measurement blocks 1–5 -/
  | getMeasurements (msg : List Byte)
  /-- KEY_EXCHANGE (R468): SPDM KEY_EXCHANGE request that opens a secured session -/
  | keyExchange (msg : List Byte)
  /-- FINISH (R468): SPDM FINISH request that completes session establishment -/
  | finish (msg : List Byte)
  /-- KEY_UPDATE (R468): SPDM KEY_UPDATE request -/
  | keyUpdate (msg : List Byte)
  /-- SPDM_HEARTBEAT (R468): SPDM HEARTBEAT request within a session -/
  | spdmHeartbeat (msg : List Byte)
  /-- END_SESSION (R468): SPDM END_SESSION request that closes the session -/
  | endSession (msg : List Byte)
  /-- VENDOR_DEFINED (R468): SPDM VENDOR_DEFINED request that carries IDE_KM key management -/
  | vendorDefined (msg : List Byte)
  /-- REGION_PATH_FAILURE (R271): The DDR5 channel or the host path of a pool's region fails with records on it, so the
  ledger resets the owning partition -/
  | regionPathFailure (k : Nat) (host : Bool)
  /-- SUPPLY_IN_TOLERANCE (R488): While PWRGOOD is asserted, every supply comes into tolerance and boot begins 1 ms later -/
  | supplyInTolerance
  /-- VOLTAGE_WRITE_COMPLETE (R482): A VCORE regulator reports over AVSBus that a setpoint write has settled, so the
  operating-point sequence continues or the boosted slope takes effect -/
  | voltageWriteComplete (die : Nat)
  /-- CONFIGURATION_REQUEST (R460): A host CXL.io configuration request is answered with Configuration Request Retry Status
  until boot step 2, and served afterwards -/
  | configurationRequest (write : Bool) (addr size v : Nat)
  /-- DOE_DISCOVERY (R449): A DOE discovery request on the mailbox is answered -/
  | doeDiscovery (msg : List Byte)
  /-- CDAT_REQUEST (R449): A CDAT read request on the DOE mailbox is answered -/
  | cdatRequest (msg : List Byte)
  /-- BOUNDARY_SCAN (R19): TCK, TMS, TDI and TRST_N drive the IEEE 1149.1 boundary-scan chain through the two port dies -/
  | boundaryScan (tck tms tdi trst : Bool)
  /-- FWSLOT_COMPLETE (R466): The flash write of FWSLOT ends, and the command completes with OK or INCOMPLETE -/
  | fwslotComplete
  /-- COREUPD_COMPLETE (R470): The image load into the service core ends and the core returns to service -/
  | coreupdComplete
  /-- SELFTEST_COMPLETE (R396): SELFTEST finishes testing every cluster, base die, link die and port, and completes,
  confirming any failed unit -/
  | selftestComplete (failed : List FaultIn)
  /-- MALFORMED_PACKET (R344): A received packet with a reserved field, a PROF that does not match its VL, or a LEN that
  disagrees with its FU count is discarded and counted in MDL.VIOLCNT -/
  | malformedPacket (m : Nat)
  /-- RESERVED_FU (R337): A received flow unit of reserved KIND 11b is discarded and counted in MDL.VIOLCNT -/
  | reservedFu (m : Nat) (fu : List Byte)
  /-- CONTROL_FU_SEND (R338): The sender emits a control FU carrying ACK, NAK and credit returns, at least once in every 32
  FU slots while UP and whenever it has no other FU to send -/
  | controlFuSend (m : Nat)
  deriving DecidableEq, Repr

end Sys2Proof
end

