-- ==== Sys2Proof/WellFormed.lean ====
section
/-! DEFINITION. Which commands are well formed: the index ranges of R18 and the widths of the operands. -/

set_option Elab.async false

namespace Sys2Proof

/-- Context IDs have 12 bits. -/
def Origin.wf (o : Origin) : Bool :=
  match o with
  | .host => true
  | .ctx n => decide (n < 4096)
  | .mgmt => true

def Flip.wf (f : Flip) : Bool := decide (f.index < 12288) && decide (f.bits < 2 ^ 64)

/-- A detected error names a source of the paths and stores, and a unit, a location and an address of the widths of its
record (R374, R398). -/
def FaultIn.wf (f : FaultIn) : Bool :=
  decide (2 ≤ f.source) && decide (f.source ≤ 8) && decide (f.unit < 16) && decide (f.loc < 64) && decide (f.addr < 2 ^ 52)

/-- The check of a command. -/
def Instr.wf (i : Instr) : Bool :=
  match i with
  | .registerWrite o off size v => o.wf && decide (off < 2 ^ 32) && decide (size ≤ 64) && v.all fun x => decide (x < 2 ^ 64)
  | .violcntClr o off v => o.wf && decide (off < 2 ^ 32) && decide (v < 2 ^ 64)
  | .partmapWrite o p v => o.wf && decide (p < 64) && decide (v < 2 ^ 64)
  | .partitionReset o p v => o.wf && decide (p < 64) && decide (v < 2 ^ 64)
  | .contextEnable o n v => o.wf && decide (n < 4096) && decide (v < 2 ^ 64)
  | .contextDisable o n v => o.wf && decide (n < 4096) && decide (v < 2 ^ 64)
  | .preempt o n v => o.wf && decide (n < 4096) && decide (v < 2 ^ 64)
  | .resume o n v => o.wf && decide (n < 4096) && decide (v < 2 ^ 64)
  | .quantumExpiry p => decide (p < 64)
  | .contextSelect p => decide (p < 64)
  | .parkDrained n => decide (n < 4096)
  | .cocoonWritten n => decide (n < 4096)
  | .cocoonRead n => decide (n < 4096)
  | .queEnable o q v => o.wf && decide (q < 32768) && decide (v < 2 ^ 64)
  | .queDisable o q v => o.wf && decide (q < 32768) && decide (v < 2 ^ 64)
  | .doorbell off size v => decide (off < 2 ^ 32) && decide (size ≤ 64) && v.all fun x => decide (x < 2 ^ 64)
  | .nop q => decide (q < 32768)
  | .launch q => decide (q < 32768)
  | .descw q => decide (q < 32768)
  | .fence q => decide (q < 32768)
  | .reservedCommand q => decide (q < 32768)
  | .bra g => decide (g < 64)
  | .loop g => decide (g < 64)
  | .wait g => decide (g < 64)
  | .waitSatisfied g => decide (g < 64)
  | .signal g => decide (g < 64)
  | .signalRelease _ => true
  | .yield g => decide (g < 64)
  | .barrier g => decide (g < 64)
  | .barrierDomain g => decide (g < 64)
  | .barrierWave p => decide (p < 64)
  | .hint g => decide (g < 64)
  | .halt g => decide (g < 64)
  | .streamEnd g => decide (g < 64)
  | .reservedOpcode g => decide (g < 64)
  | .reservedRunHalt g => decide (g < 64)
  | .instructionComplete f => f.events.all FaultIn.wf
  | .tload g events => decide (g < 64) && events.all FaultIn.wf
  | .tloadScalar g events => decide (g < 64) && events.all FaultIn.wf
  | .tstore g events => decide (g < 64) && events.all FaultIn.wf
  | .txfer g events => decide (g < 64) && events.all FaultIn.wf
  | .ttrans g events => decide (g < 64) && events.all FaultIn.wf
  | .lpark g => decide (g < 64)
  | .lfetch g flips => decide (g < 64) && flips.all Flip.wf
  | .ldrop g => decide (g < 64)
  | .lpin g flips => decide (g < 64) && flips.all Flip.wf
  | .ledgerMoveComplete k r => decide (k < 1536) && decide (r.no < 2 ^ 21) && r.events.all FaultIn.wf
  | .ledgerWaitRelease k => decide (k < 1536)
  | .mma g flips => decide (g < 64) && flips.all Flip.wf
  | .laminationSpill g e flips => decide (g < 64) && decide (e < 16) && flips.all Flip.wf
  | .trayEntry g => decide (g < 64)
  | .trayPop g => decide (g < 64)
  | .vchain g => decide (g < 64)
  | .vred g => decide (g < 64)
  | .vshuf g => decide (g < 64)
  | .vdwc g => decide (g < 64)
  | .ablk r => decide (r.g < 64) && r.flips.all Flip.wf
  | .rmask g => decide (g < 64)
  | .update g => decide (g < 64)
  | .updsparse g => decide (g < 64)
  | .normsq g => decide (g < 64)
  | .normsqClose g => decide (g < 64)
  | .fold g => decide (g < 64)
  | .cred g => decide (g < 64)
  | .cbcast g => decide (g < 64)
  | .csend g => decide (g < 64)
  | .crecv g => decide (g < 64)
  | .cvote g => decide (g < 64)
  | .scaleupd g => decide (g < 64)
  | .health g => decide (g < 64)
  | .shadowCompare g e flips events => decide (g < 64) && decide (e < 16) && flips.all Flip.wf && events.all FaultIn.wf
  | .drainReset => true
  | .patrolScrub events => events.all FaultIn.wf
  | .testDue g => decide (g < 64)
  | .infieldTestStart g => decide (g < 64)
  | .infieldTestDone g _ => decide (g < 64)
  | .testOverdue g => decide (g < 64)
  | .selftest q => decide (q < 32768)
  | .cltest q => decide (q < 32768)
  | .poolEnable o k v => o.wf && decide (k < 1536) && decide (v < 2 ^ 64)
  | .poolDisable o k v => o.wf && decide (k < 1536) && decide (v < 2 ^ 64)
  | .poolaudLatch o k => o.wf && decide (k < 1536)
  | .shraudLatch o t => o.wf && decide (t < 12)
  | .shbaseWrite o t v => o.wf && decide (t < 12) && decide (v < 2 ^ 64)
  | .tlbinv q => decide (q < 32768)
  | .shattach q => decide (q < 32768)
  | .shdetach q => decide (q < 32768)
  | .bwshareWrite o p v => o.wf && decide (p < 64) && decide (v < 2 ^ 64)
  | .recalNow o t v => o.wf && decide (t < 12) && decide (v < 2 ^ 64)
  | .recalPeriodic t => decide (t < 12)
  | .recalDrift t group => decide (t < 12) && decide (group < 4)
  | .recalWindowEnd t => decide (t < 12)
  | .portEnable o m v => o.wf && decide (m < 32) && decide (v < 2 ^ 64)
  | .portDisable o m v => o.wf && decide (m < 32) && decide (v < 2 ^ 64)
  | .storePortSelect o m v => o.wf && decide (m < 32) && decide (v < 2 ^ 64)
  | .laneTrainingDone m lanes => decide (m < 32) && (lanes == 4 || lanes == 8)
  | .trainingTimeout m => decide (m < 32)
  | .downRetry m => decide (m < 32)
  | .livenessTimeout m => decide (m < 32)
  | .replayTimeout m => decide (m < 32)
  | .dataFu m fu => decide (m < 32) && decide (fu.length = 64)
  | .controlFu m fu => decide (m < 32) && decide (fu.length = 64)
  | .initFu m fu => decide (m < 32) && decide (fu.length = 64)
  | .packetForward m => decide (m < 32)
  | .join m => decide (m < 32)
  | .joinack m => decide (m < 32)
  | .heartbeat m => decide (m < 32)
  | .heartbeatSend => true
  | .memberLost r => decide (r < 128)
  | .vote m => decide (m < 32)
  | .voteTimeout => true
  | .gvote m => decide (m < 32)
  | .answer m => decide (m < 32)
  | .cvoteTimeout => true
  | .bararrive m => decide (m < 32)
  | .barrelease m => decide (m < 32)
  | .bardone m => decide (m < 32)
  | .barrierTimeout g => decide (g < 64)
  | .rpart m => decide (m < 32)
  | .rcount m => decide (m < 32)
  | .rresult m => decide (m < 32)
  | .rfinal m => decide (m < 32)
  | .childTimeout _ => true
  | .bdata m => decide (m < 32)
  | .sdata m => decide (m < 32)
  | .sack m => decide (m < 32)
  | .swack m => decide (m < 32)
  | .smack m => decide (m < 32)
  | .srdata m => decide (m < 32)
  | .sqinfo m => decide (m < 32)
  | .storeTimeout => true
  | .snaptake q => decide (q < 32768)
  | .takeComplete => true
  | .snapdrain q => decide (q < 32768)
  | .restore q => decide (q < 32768)
  | .restoreComplete => true
  | .snpverify q => decide (q < 32768)
  | .stquery q => decide (q < 32768)
  | .governorEpoch power temps => decide (power < 2 ^ 16) && decide (temps.length ≤ 64) && temps.all (fun x => decide (x < 2 ^ 16))
  | .tokenTake g u => decide (g < 64) && decide (u < 17)
  | .tokaudLatch o => o.wf
  | .operatingPointSet o v => o.wf && decide (v < 2 ^ 64)
  | .rampLimitSet o v => o.wf && decide (v < 2 ^ 64)
  | .opSwitchComplete => true
  | .capWrite o v => o.wf && decide (v < 2 ^ 64)
  | .caplimN _ => true
  | .thermalTrip die temp => decide (die < 32) && decide (temp < 2 ^ 16)
  | .droopTrip die => decide (die < 4)
  | .stretchEnd die _ => decide (die < 4)
  | .unitInactive g u => decide (g < 64) && decide (u < 17)
  | .activationGrant => true
  | .boostStart p => decide (p < 64)
  | .boostEnd p => decide (p < 64)
  | .setstate q => decide (q < 32768)
  | .lowPowerEntered => true
  | .senWake _ => true
  | .i3cWake v => decide (v < 2 ^ 64)
  | .wakeComplete => true
  | .sentinelTick samples => decide (samples.length ≤ 64) && samples.all (fun x => decide (x < 2 ^ 32))
  | .senSlotEnable o r v => o.wf && decide (r < 8) && decide (v < 2 ^ 64)
  | .senCtlCapclr o v => o.wf && decide (v < 2 ^ 64)
  | .senEventPop o => o.wf
  | .chkEventPop o => o.wf
  | .credaudLatch o m l => o.wf && decide (m < 32) && decide (l < 4)
  | .baraudLatch o => o.wf
  | .contribLatch o => o.wf
  | .blobapply q => decide (q < 32768)
  | .fwslot q => decide (q < 32768)
  | .coreupd q => decide (q < 32768)
  | .pushGo o v => o.wf && decide (v < 2 ^ 64)
  | .pushComplete => true
  | .bootStepComplete => true
  | .hdmwinWrite o v => o.wf && decide (v < 2 ^ 64)
  | .hdmAccess _ addr size v => decide (addr < 2 ^ 52) && (size == 4 || size == 8) && decide (v < 2 ^ 64)
  | .i3cTransaction _ addr size v => decide (addr < 2 ^ 52) && (size == 4 || size == 8) && decide (v < 2 ^ 64)
  | .hifResetCold o v => o.wf && decide (v < 2 ^ 64)
  | .hifResetWarm o v => o.wf && decide (v < 2 ^ 64)
  | .pwrgoodDeassert => true
  | .pwrgoodAssert => true
  | .resetNAssert => true
  | .resetNDeassert bootsrc => decide (bootsrc < 4)
  | .cxlConventionalReset => true
  | .getVersion msg => decide (msg.length ≤ 4096)
  | .getCapabilities msg => decide (msg.length ≤ 4096)
  | .negotiateAlgorithms msg => decide (msg.length ≤ 4096)
  | .getDigests msg => decide (msg.length ≤ 4096)
  | .getCertificate msg => decide (msg.length ≤ 4096)
  | .challenge msg => decide (msg.length ≤ 4096)
  | .getMeasurements msg => decide (msg.length ≤ 4096)
  | .keyExchange msg => decide (msg.length ≤ 4096)
  | .finish msg => decide (msg.length ≤ 4096)
  | .keyUpdate msg => decide (msg.length ≤ 4096)
  | .spdmHeartbeat msg => decide (msg.length ≤ 4096)
  | .endSession msg => decide (msg.length ≤ 4096)
  | .vendorDefined msg => decide (msg.length ≤ 4096)
  | .regionPathFailure k _ => decide (k < 1536)
  | .supplyInTolerance => true
  | .voltageWriteComplete die => decide (die < 4)
  | .configurationRequest _ addr size v => decide (addr < 2 ^ 52) && decide (size ≤ 64) && decide (v < 2 ^ 64)
  | .doeDiscovery msg => decide (msg.length ≤ 4096)
  | .cdatRequest msg => decide (msg.length ≤ 4096)
  | .boundaryScan _ _ _ _ => true
  | .fwslotComplete => true
  | .coreupdComplete => true
  | .selftestComplete failed => failed.all FaultIn.wf
  | .malformedPacket m => decide (m < 32)
  | .reservedFu m fu => decide (m < 32) && decide (fu.length = 64)
  | .controlFuSend m => decide (m < 32)

/-- A well-formed command. -/
abbrev WellFormed (i : Instr) : Prop := i.wf = true

end Sys2Proof
end

