-- ==== Sys2Proof/Decode.lean ====
section
/-! DEFINITION. The decoder of table words. The spec gives no command of its table any bits: commands reach the block as
register accesses, queue entries, instruction words, packets and pins, which the meanings read where they lie. -/

set_option Elab.async false

namespace Sys2Proof

/-- No row of the table gives a word, so that no word spells a command. -/
def decodeTableWord (_nbits _w : Nat) : Option Instr := none

end Sys2Proof
end

