-- ==== Sys2Proof/Config.lean ====
section
/-! DEFINITION. What the spec leaves open: free values and uninterpreted functions. None has a body, so no proof can
rest on a value of one (log 10 and the logs named at each). -/

set_option Elab.async false

namespace Sys2Proof

/-- The free values: draw number `n` of the run (log 10). -/
opaque Config.free : Nat → Nat

/-- The 64-byte key pair of a key tag (R295, R463), little-endian: derived from a secret that never leaves the device. -/
opaque Config.pageKey : (tag : Nat) → Nat

/-- The byte at `addr` of memory whose contents have been lost since it was written under `stored` (R430, R435). -/
opaque Config.lostByte : (addr stored reading : Nat) → Byte

/-- The byte at `addr` of a stretch that write number `id` of the device filled, before its encryption (R75, R259, R404: the
layout of what is written there is internal to the device). -/
opaque Config.veiled : (id addr : Nat) → Byte

/-- The page that the codec makes of the bytes of the chunks of a copy which it has not written so (R264: the coded form is
internal to the device). -/
opaque Config.decoded : List Byte → List Byte

/-- Which entry a full cache gives up (R283: the replacement policy is not specified). -/
opaque Config.evict : (granules : List Nat) → Nat

/-- Does an ML-DSA-65 signature of a digest verify under a public key (R461, R465; FIPS 204)? -/
opaque Config.verifies : (key digest signature : List Byte) → Bool

/-- A signature by the identity key, which never leaves the security block (R467, R468). -/
opaque Config.sign : List Byte → List Byte

/-- The public identity key, derived from the SRAM PUF's secret (R467). -/
opaque Config.identityKey : List Byte

/-- The digest of the signing key in the boot ROM (R461), and the boot ROM itself (R469). -/
opaque Config.romDigest : List Byte
opaque Config.bootRom : List Byte

/-- The owner-endorsement public key that an image carries; the spec gives no offset for it (R461). -/
opaque Config.endorseKey : (image : List Byte) → List Byte

/-- The secret that an ML-KEM-768 ciphertext shares with the encapsulation key (R464; FIPS 203). -/
opaque Config.decapsulate : List Byte → List Byte

/-- The DIMMs of a channel as a code of the board (R287): what is populated, and the capacity of a module. -/
opaque Config.dimms : Nat → Nat

/-- Bytes of replies whose layout the spec leaves to other standards (R449, R468): by kind and request. -/
opaque Config.reply : (kind : Nat) → (msg : List Byte) → (draw : Nat) → List Byte

/-- The entry of Aphelgrath's vendor registry that names ML-DSA-65 in the extended asymmetric algorithm fields of SPDM (R468):
32 bits. -/
opaque Config.mldsaEntry : BitVec 32

/-- The certificate chain of slot 0: the root, the stepping's intermediate, and the device's certificate for its identity key
(R468). -/
opaque Config.certChain : List Byte

/-- Does the verify data of a FINISH hold for the session that KEY_EXCHANGE opened (R468; SPDM)? -/
opaque Config.finishOk : (msg : List Byte) → (session : Nat) → Bool

/-- What configuration space returns at an address, by the last value written there (R449; PCI Express). -/
opaque Config.configRead : (addr : Nat) → (written : Option Nat) → Nat

/-- What an in-field test leaves in a cluster's stores (R391: it overwrites them): bytes, and 64-bit lanes. -/
opaque Config.testBytes : Nat → List Byte
opaque Config.testLanes : Nat → List (BitVec 64)

end Sys2Proof
end

