-- ==== Sys2Proof/Machine/Crypto.lean ====
section
/-! DEFINITION. The ciphers and hashes that the spec names by their standards: AES-256 (FIPS 197), AES-XTS-256 (IEEE Std 1619;
R295, R407), AES key wrap (RFC 3394; R464), and SHAKE256 and SHA3-384 (FIPS 202; R404, R408, R461, R465, R469). -/

set_option Elab.async false

namespace Sys2Proof

namespace Aes

/-! ### The field of AES -/

/-- Multiplication by x modulo x⁸ + x⁴ + x³ + x + 1. -/
def xtime (a : Byte) : Byte := (a <<< 1) ^^^ (if a.msb then 0x1B else 0)

/-- Product in the field, over the low `n` bits of the second factor. -/
def mulBits (n : Nat) (a b : Byte) : Byte :=
  match n with
  | 0 => 0
  | k + 1 => (if b.getLsbD 0 then a else 0) ^^^ mulBits k (xtime a) (b >>> 1)

def mul (a b : Byte) : Byte := mulBits 8 a b

/-- a²⁵⁴, the inverse of a, with 0 for 0. -/
def inv (a : Byte) : Byte :=
  let a2 := mul a a
  let a3 := mul a2 a
  let a6 := mul a3 a3
  let a12 := mul a6 a6
  let a15 := mul a12 a3
  let a30 := mul a15 a15
  let a60 := mul a30 a30
  let a120 := mul a60 a60
  let a126 := mul a120 a6
  let a127 := mul a126 a
  mul a127 a127

/-! ### The substitution -/

def sub (a : Byte) : Byte :=
  let b := inv a
  b ^^^ b.rotateLeft 1 ^^^ b.rotateLeft 2 ^^^ b.rotateLeft 3 ^^^ b.rotateLeft 4 ^^^ 0x63

def subInv (a : Byte) : Byte := inv (a.rotateLeft 1 ^^^ a.rotateLeft 3 ^^^ a.rotateLeft 6 ^^^ 0x05)

/-! ### The rounds; a block is its 16 bytes in order, column after column -/

def xorBytes (a b : List Byte) : List Byte := List.zipWith (· ^^^ ·) a b

/-- The block whose byte i is byte `p i` of another. -/
def permute (p : Nat → Nat) (b : List Byte) : List Byte := (List.range 16).map fun i => b.getD (p i) 0

def shiftRows (b : List Byte) : List Byte := permute (fun i => (i + 4 * (i % 4)) % 16) b
def shiftRowsInv (b : List Byte) : List Byte := permute (fun i => (i + 12 * (i % 4)) % 16) b

/-- One byte of a mixed column: row `r` of the circulant matrix that begins `m0 m1 m2 m3`. -/
def mixByte (m0 m1 m2 m3 : Byte) (b : List Byte) (i : Nat) : Byte :=
  let c := i / 4 * 4
  let at' := fun k => b.getD (c + (i + k) % 4) 0
  mul (at' 0) m0 ^^^ mul (at' 1) m1 ^^^ mul (at' 2) m2 ^^^ mul (at' 3) m3

def mixColumns (b : List Byte) : List Byte := (List.range 16).map (mixByte 2 3 1 1 b)
def mixColumnsInv (b : List Byte) : List Byte := (List.range 16).map (mixByte 14 11 13 9 b)

/-! ### The key schedule of AES-256 -/

/-- Word i of the schedule from the words before it, the latest first. -/
def nextWord (i : Nat) (ws : List (List Byte)) (rcon : Byte) : List Byte :=
  let prev := ws.getD 0 []
  let t :=
    if i % 8 = 0 then xorBytes ((prev.drop 1 ++ prev.take 1).map sub) [rcon, 0, 0, 0]
    else if i % 8 = 4 then prev.map sub
    else prev
  xorBytes (ws.getD 7 []) t

/-- The words of the schedule, the latest first. -/
def expand (n i : Nat) (ws : List (List Byte)) (rcon : Byte) : List (List Byte) :=
  match n with
  | 0 => ws
  | k + 1 => expand k (i + 1) (nextWord i ws rcon :: ws) (if i % 8 = 0 then xtime rcon else rcon)

/-- The 15 round keys of a 32-byte key. -/
def roundKeys (key : List Byte) : List (List Byte) :=
  let ws := (expand 52 8 ((List.range 8).map fun i => (key.drop (4 * i)).take 4).reverse 1).reverse
  (List.range 15).map fun r => ((ws.drop (4 * r)).take 4).flatten

/-- AES-256 of one block. -/
def encrypt (key block : List Byte) : List Byte :=
  let ks := roundKeys key
  let mid := (List.range 13).foldl (fun b r => xorBytes (mixColumns (shiftRows (b.map sub))) (ks.getD (r + 1) []))
    (xorBytes block (ks.getD 0 []))
  xorBytes (shiftRows (mid.map sub)) (ks.getD 14 [])

/-- Its inverse. -/
def decrypt (key block : List Byte) : List Byte :=
  let ks := roundKeys key
  let mid := (List.range 13).foldl (fun b r => mixColumnsInv (xorBytes ((shiftRowsInv b).map subInv) (ks.getD (13 - r) [])))
    (xorBytes block (ks.getD 14 []))
  xorBytes ((shiftRowsInv mid).map subInv) (ks.getD 0 [])

/-! ### AES-XTS-256 -/

/-- The block's mask times α in the field of 2¹²⁸ elements, little-endian. -/
def alpha (t : List Byte) : List Byte :=
  let v := 2 * leNat t
  leBytes 16 (if v < 2 ^ 128 then v else (v - 2 ^ 128) ^^^ 0x87)

/-- The mask of block `j` of a data unit. -/
def xtsMask (key tweak : List Byte) (j : Nat) : List Byte :=
  (List.range j).foldl (fun t _ => alpha t) (encrypt ((key.drop 32).take 32) tweak)

/-- One block under a mask. -/
def xexEncrypt (key mask block : List Byte) : List Byte := xorBytes (encrypt (key.take 32) (xorBytes block mask)) mask
def xexDecrypt (key mask block : List Byte) : List Byte := xorBytes (decrypt (key.take 32) (xorBytes block mask)) mask

/-- Block `j` of a data unit under a 64-byte key pair and a 16-byte tweak. -/
def xtsEncryptBlock (key tweak : List Byte) (j : Nat) (block : List Byte) : List Byte :=
  xexEncrypt key (xtsMask key tweak j) block
def xtsDecryptBlock (key tweak : List Byte) (j : Nat) (block : List Byte) : List Byte :=
  xexDecrypt key (xtsMask key tweak j) block

/-- The blocks of a data unit from one on, with the mask of the first; a partial last block steals from the one before. -/
def xtsEncryptGo (key : List Byte) (n : Nat) (mask d : List Byte) : List Byte :=
  match n with
  | 0 => d
  | k + 1 =>
    if d.length < 16 then d
    else if 16 < d.length && decide (d.length < 32) then
      let c := xexEncrypt key mask (d.take 16)
      let r := d.length - 16
      xexEncrypt key (alpha mask) (d.drop 16 ++ c.drop r) ++ c.take r
    else xexEncrypt key mask (d.take 16) ++ xtsEncryptGo key k (alpha mask) (d.drop 16)

def xtsDecryptGo (key : List Byte) (n : Nat) (mask d : List Byte) : List Byte :=
  match n with
  | 0 => d
  | k + 1 =>
    if d.length < 16 then d
    else if 16 < d.length && decide (d.length < 32) then
      let p := xexDecrypt key (alpha mask) (d.take 16)
      let r := d.length - 16
      xexDecrypt key mask (d.drop 16 ++ p.drop r) ++ p.take r
    else xexDecrypt key mask (d.take 16) ++ xtsDecryptGo key k (alpha mask) (d.drop 16)

/-- A data unit under a 64-byte key pair and a 16-byte tweak. A unit of less than one block, which XTS does not admit, stays as
it is. -/
def xtsEncrypt (key tweak d : List Byte) : List Byte :=
  xtsEncryptGo key (d.length / 16 + 1) (xtsMask key tweak 0) d
def xtsDecrypt (key tweak d : List Byte) : List Byte :=
  xtsDecryptGo key (d.length / 16 + 1) (xtsMask key tweak 0) d

/-! ### AES key wrap -/

/-- One step of unwrapping: A and the 64-bit blocks R, step t of block i. -/
def unwrapStep (kek : List Byte) (n t : Nat) (x : List Byte × List (List Byte)) : List Byte × List (List Byte) :=
  let i := (t + n - 1) % n
  let a := xorBytes x.1 (leBytes 8 t).reverse
  let b := decrypt kek (a ++ x.2.getD i [])
  (b.take 8, x.2.set i (b.drop 8))

/-- Unwrap under a 32-byte key; none when the check value is not the initial one of RFC 3394. -/
def unwrap (kek c : List Byte) : Option (List Byte) :=
  let n := c.length / 8 - 1
  let r := (List.range (6 * n)).foldl (fun x k => unwrapStep kek n (6 * n - k) x)
    (c.take 8, (List.range n).map fun i => (c.drop (8 + 8 * i)).take 8)
  if n != 0 && r.1 == List.replicate 8 0xA6 then some r.2.flatten else none

end Aes

namespace Keccak

abbrev Lane64 := BitVec 64

/-- Lane (x, y) of the 25. -/
def lane (s : List Lane64) (x y : Nat) : Lane64 := s.getD (x % 5 + 5 * (y % 5)) 0

/-- The 25 lanes of a function of x and y. -/
def build (f : Nat → Nat → Lane64) : List Lane64 := (List.range 25).map fun i => f (i % 5) (i / 5)

def parity (s : List Lane64) (x : Nat) : Lane64 := lane s x 0 ^^^ lane s x 1 ^^^ lane s x 2 ^^^ lane s x 3 ^^^ lane s x 4

def theta (s : List Lane64) : List Lane64 :=
  let c := (List.range 5).map (parity s)
  build fun x y => lane s x y ^^^ c.getD ((x + 4) % 5) 0 ^^^ (c.getD ((x + 1) % 5) 0).rotateLeft 1

/-- Rotation offsets of ρ, at x + 5y. -/
def rhoOffset (i : Nat) : Nat :=
  [0, 1, 62, 28, 27, 36, 44, 6, 55, 20, 3, 10, 43, 25, 39, 41, 45, 15, 21, 8, 18, 2, 61, 56, 14].getD i 0

/-- ρ and π: lane (x, y) comes from (x + 3y, x). -/
def rhoPi (s : List Lane64) : List Lane64 :=
  build fun x y => (lane s (x + 3 * y) x).rotateLeft (rhoOffset ((x + 3 * y) % 5 + 5 * x))

def chi (s : List Lane64) : List Lane64 := build fun x y => lane s x y ^^^ (~~~lane s (x + 1) y &&& lane s (x + 2) y)

/-- Step of the shift register that gives the round constants. -/
def lfsr (r : BitVec 8) : BitVec 8 := (r <<< 1) ^^^ (if r.msb then 0x71 else 0)

/-- A round constant from the register, and the register after it. -/
def roundConst (r : BitVec 8) : Lane64 × BitVec 8 :=
  (List.range 7).foldl (fun (x : Lane64 × BitVec 8) j =>
    (if x.2.getLsbD 0 then x.1 ^^^ (1 <<< (2 ^ j - 1)) else x.1, lfsr x.2)) (0, r)

def round (x : List Lane64 × BitVec 8) : List Lane64 × BitVec 8 :=
  let (rc, r) := roundConst x.2
  let s := chi (rhoPi (theta x.1))
  (s.set 0 (s.getD 0 0 ^^^ rc), r)

/-- Keccak-f[1600]. -/
def permutation (s : List Lane64) : List Lane64 := ((List.range 24).foldl (fun x _ => round x) (s, 1)).1

/-- The lanes of a byte string of 200 bytes, and back. -/
def toLanes (b : List Byte) : List Lane64 := (List.range 25).map fun i => BitVec.ofNat 64 (leAt b (8 * i) 8)
def toBytes (s : List Lane64) : List Byte := s.flatMap fun l => leBytes 8 l.toNat

/-- Absorb the blocks of a padded message of `rate` bytes each. -/
def absorb (rate n : Nat) (m : List Byte) (s : List Lane64) : List Lane64 :=
  match n with
  | 0 => s
  | k + 1 =>
    absorb rate k (m.drop rate)
      (permutation (List.zipWith (· ^^^ ·) s (toLanes (m.take rate ++ List.replicate (200 - rate) 0))))

/-- Pad with the domain's bits and pad10*1. -/
def pad (rate : Nat) (suffix : Byte) (m : List Byte) : List Byte :=
  let q := rate - m.length % rate
  if q = 1 then m ++ [suffix ||| 0x80] else m ++ suffix :: List.replicate (q - 2) 0 ++ [0x80]

/-- The sponge, whose output fits one block. -/
def sponge (rate : Nat) (suffix : Byte) (m : List Byte) (out : Nat) : List Byte :=
  let p := pad rate suffix m
  (toBytes (absorb rate (p.length / rate) p (List.replicate 25 0))).take out

/-- SHAKE256 with an output of at most 136 bytes. -/
def shake256 (m : List Byte) (out : Nat) : List Byte := sponge 136 0x1F m out

/-- SHA3-384. -/
def sha3384 (m : List Byte) : List Byte := sponge 104 0x06 m 48

end Keccak

end Sys2Proof
end

