-- ==== Sys2Proof/Machine/Tab.lean ====
section
/-! DEFINITION. Operations on sparse tables and on byte memories in their canonical form. -/

set_option Elab.async false

namespace Sys2Proof

/-- The entry at `k`, if the table lists one. -/
def Tab.find {α : Type} (t : Tab α) (k : Nat) : Option α :=
  match t with
  | [] => none
  | (a, v) :: rest => if a = k then some v else Tab.find rest k

/-- Write `v` at `k`, keeping the keys in rising order. -/
def Tab.put {α : Type} (t : Tab α) (k : Nat) (v : α) : Tab α :=
  match t with
  | [] => [(k, v)]
  | (a, w) :: rest =>
    if k < a then (k, v) :: (a, w) :: rest
    else if a = k then (k, v) :: rest
    else (a, w) :: Tab.put rest k v

/-- Remove whatever `k` holds. -/
def Tab.erase {α : Type} (t : Tab α) (k : Nat) : Tab α :=
  t.filter fun p => !(p.1 == k)

/-- What `k` holds, `d` standing for a key that is not listed. -/
def Tab.getD {α : Type} (d : α) (t : Tab α) (k : Nat) : α :=
  match Tab.find t k with
  | some v => v
  | none => d

/-- Write `v` at `k` in canonical form: writing what an unlisted key reads as removes the entry. -/
def Tab.setD {α : Type} [DecidableEq α] (d : α) (t : Tab α) (k : Nat) (v : α) : Tab α :=
  if v = d then Tab.erase t k else Tab.put t k v

/-- Keys strictly rising from `lo` on. -/
def Tab.rising {α : Type} (lo : Nat) (t : Tab α) : Bool :=
  match t with
  | [] => true
  | (a, _) :: rest => decide (lo ≤ a) && Tab.rising (a + 1) rest

/-- A byte memory or lane store: addresses rise strictly, and no entry is zero, which is what an unlisted one reads. -/
abbrev Memory (w : Nat) := Tab (BitVec w)

/-- The canonical form of a memory. -/
def Memory.wf {w : Nat} (m : Memory w) : Bool :=
  Tab.rising 0 m && m.all fun p => !(p.2 == 0)

/-- What an address reads as: zero when nothing is listed (log 2). -/
def Memory.read {w : Nat} (m : Memory w) (a : Nat) : BitVec w := Tab.getD 0 m a

/-- Write one cell. -/
def Memory.write {w : Nat} (m : Memory w) (a : Nat) (v : BitVec w) : Memory w := Tab.setD 0 m a v

/-- `n` consecutive cells from `a`. -/
def Memory.readN {w : Nat} (m : Memory w) (a n : Nat) : List (BitVec w) :=
  (List.range n).map fun i => m.read (a + i)

/-- Write consecutive cells from `a`. -/
def Memory.writeN {w : Nat} (m : Memory w) (a : Nat) (vs : List (BitVec w)) : Memory w :=
  match vs with
  | [] => m
  | v :: rest => Memory.writeN (m.write a v) (a + 1) rest

/-- The canonical memory that holds the values of a list from `base` on. -/
def Memory.ofList {w : Nat} (base : Nat) (vs : List (BitVec w)) : Memory w :=
  match vs with
  | [] => []
  | v :: rest => if v = 0 then Memory.ofList (base + 1) rest else (base, v) :: Memory.ofList (base + 1) rest

/-- Keep only the cells whose address satisfies `p`; the others read as zero. -/
def Memory.keep {w : Nat} (m : Memory w) (p : Nat → Bool) : Memory w := m.filter fun c => p c.1

end Sys2Proof
end

