-- ==== Sys2Proof/Machine/FabricTypes.lean ====
section
/-! DEFINITION. The pieces of state of the Mladord Link ports, of the collectives in progress and of step control that
are not registers (12). -/

set_option Elab.async false

namespace Sys2Proof

namespace Machine

/-- A data flow unit: the marks of its header, the partition for which the device sends it (R35), and its 56 bytes of packet
(R337). -/
structure Fu where
  sop : Bool
  eop : Bool
  part : Option Nat
  body : List Byte
  deriving DecidableEq, Repr

/-- A packet that has been received whole: its virtual lane, its flow units and their bytes (R344). -/
structure Parcel where
  vl : Nat
  fus : Nat
  bytes : List Byte
  deriving DecidableEq, Repr

/-- One virtual lane of a port (R340): the partner's grant, credits to spend, flow units first transmitted whose returns
have not arrived, the last RET applied and the returns given; the partitions whose credit pools those in flight were drawn from,
oldest first (R35, log 98); flow units that wait for a credit, and the flow units of the packet in reception. Returns are added
to HELD as they arrive, so RETURNED is zero between commands (log 97). -/
structure Lane where
  issued : Nat
  held : Nat
  inflight : Nat
  lastRet : Nat
  freed : Nat
  spent : List (Option Nat)
  out : List Fu
  asm : List Fu
  deriving DecidableEq, Repr

def Lane.blank : Lane := ⟨0, 0, 0, 0, 0, [], [], []⟩

/-- A port beyond its registers (R341, R342). -/
structure Port where
  /-- lanes have trained, the init FU that the port has sent since, and the grants of the partner's init FU -/
  trained : Bool
  init : List Byte
  grants : Option (List Nat)
  /-- SEQ of the next data FU and of the oldest unacknowledged one; the unacknowledged ones, whole as they were sent -/
  seq : Nat
  acked : Nat
  replay : List (List Byte)
  /-- consecutive retransmissions and the SEQ from which they started -/
  repeats : Nat
  repeatSeq : Nat
  /-- the expected SEQ X, and a NAK that is due -/
  expect : Nat
  nak : Bool
  lanes : Tab Lane
  /-- lane of VL1–3 that is served next -/
  turn : Nat
  /-- packets received and not yet consumed, in order of arrival -/
  inbox : List Parcel
  deriving DecidableEq, Repr

def Port.blank : Port := ⟨false, [], none, 0, 0, [], 0, 0, 0, false, [], 1, []⟩

/-- A hosted node of a reduction plan (R350, R352): its place in the tree, what each child slot has sent, and what has been
relayed downwards. -/
structure Node where
  level : Nat
  root : Bool
  pslot : Nat
  parent : Nat
  kids : List Nat
  /-- count and presence digest by slot -/
  counts : Tab (Nat × Nat)
  /-- FP32 partials by slot, the number of elements each sent, and the slots whose last packet has come -/
  parts : Tab (Memory 32)
  sent : Tab Nat
  ended : List Nat
  /-- its own count and partials have gone up, or its result has been formed -/
  countUp : Bool
  dataUp : Bool
  /-- segments and final count relayed to the children -/
  segs : List Nat
  final : Bool
  deriving DecidableEq, Repr

/-- Kinds of collective operation. -/
inductive CollKind where
  | cred
  | cbcast
  | csend
  | crecv
  deriving DecidableEq, Repr

/-- A collective operation in progress, keyed by the number of its instruction (R351–R356). -/
structure Coll where
  kind : CollKind
  ctx : Nat
  /-- plan and instance; for CSEND and CRECV the channel and the number in the pairing -/
  plan : Nat
  inst : Nat
  /-- the other device of a CSEND or CRECV -/
  peer : Nat
  /-- plan record, descriptor, element offset and element count -/
  record : List Byte
  da : List Byte
  base : Nat
  count : Nat
  kt5 : Bool
  voted : Bool
  step : Nat
  round : Nat
  nodes : List Node
  /-- result segments written here, elements received, and whether the last packet has come -/
  wrote : List Nat
  got : Nat
  ended : Bool
  /-- the final count and digest, once received -/
  final : Option (Nat × Nat)
  /-- a length mismatch has been counted -/
  odd : Bool
  /-- the instruction has its status -/
  done : Bool
  deriving DecidableEq, Repr

/-- A vote as it reached a table: its sender, body and, from a GVOTE, the suspect-present members (R360). -/
structure Ballot where
  src : Nat
  step : Nat
  round : Nat
  flags : Nat
  pcount : Nat
  pdig : Nat
  ids : List Nat
  deriving DecidableEq, Repr

/-- A CVOTE that waits for its answer (R359, R362). -/
structure CVote where
  flight : Nat
  ctx : Nat
  addr : Nat
  step : Nat
  round : Nat
  present : Bool
  pcount : Nat
  deriving DecidableEq, Repr

/-- The outcome of a voted CRED of the pair (R360). -/
structure Voted where
  ok : Bool
  count : Nat
  digest : Nat
  deriving DecidableEq, Repr

/-- Step control beyond its registers (R347–R362). -/
structure Stp where
  /-- the configuration (join) status, and the table index; and a JOIN that has yet to leave (R348) -/
  join : Option (Nat × Nat)
  joinDue : Bool
  /-- devices whose JOINs have gone to the root and are not answered, oldest first -/
  joins : List Nat
  /-- at the root: members with their managers, in order of admission -/
  members : List (Nat × Nat)
  /-- HEARTBEATs are sent -/
  beats : Bool
  /-- presence latch: step, round, and whether the leaf is present -/
  latch : Option (Nat × Nat × Bool)
  /-- outcomes of the voted CREDs of a pair -/
  pair : Nat × Nat
  voted : List Voted
  /-- drop set of the round in force -/
  drops : List Nat
  cvotes : List CVote
  /-- votes of the own table, and GVOTEs of the manager table -/
  ballots : List Ballot
  gballots : List Ballot
  /-- device IDs that have arrived at the pending generation -/
  arrived : List Nat
  /-- contexts whose domain barrier has been reported with BARARRIVE -/
  waiting : List Nat
  /-- generation audited, and its tokens granted and consumed -/
  audGen : Nat
  granted : Nat
  consumed : Nat
  /-- a link port reset discarded a release or a BARDONE: the next vote is answered RESTART -/
  restart : Bool
  /-- the live COL.CONTRIB: plan, instance, count, digest and step (R354, R371) -/
  contrib : Nat × Nat × Nat × Nat × Nat
  deriving DecidableEq, Repr

def Stp.init : Stp := ⟨none, false, [], [], true, none, (0, 0), [], [], [], [], [], [], [], 0, 0, 0, false, (0, 0, 0, 0, 0)⟩

end Machine

end Sys2Proof
end

