-- ==== Sys2Proof/Machine/Float.lean ====
section
/-! DEFINITION. Floating-point values as exact binary numbers, and their rounding (R133, R145, R165, R172, R200). -/

set_option Elab.async false

namespace Sys2Proof

/-- A value: NaN, an infinity, or (-1)^neg × m × 2^e exactly (m = 0 is a signed zero). -/
inductive Fp where
  | nan
  | inf (neg : Bool)
  | fin (neg : Bool) (m : Nat) (e : Int)
  deriving DecidableEq, Repr

/-- A binary format: precision with the hidden bit, exponent of the last place of subnormals, and exponent of the
last place of the largest binade. `ieee` says that a finite overflow gives infinity (binary64) and does not clamp
(R133). -/
structure Fmt where
  prec : Nat
  qmin : Int
  qmax : Int
  ieee : Bool
  deriving DecidableEq, Repr

def Fmt.fp32 : Fmt := ⟨24, -149, 104, false⟩
def Fmt.bf16 : Fmt := ⟨8, -133, 120, false⟩
def Fmt.fp16 : Fmt := ⟨11, -24, 5, false⟩
def Fmt.fp64 : Fmt := ⟨53, -1074, 971, true⟩

/-- The rounding modes of R145 (SR carries the 16 bits of the draw). -/
inductive Rnd where
  | rne
  | sr (u : Nat) (bits : Nat)
  | rtz
  deriving DecidableEq, Repr

/-- What an operation counts (R133, R192): a saturation, a non-finite input. -/
structure Cnt where
  sat : Bool
  nf : Bool
  deriving DecidableEq, Repr

def Cnt.none : Cnt := ⟨false, false⟩
def Cnt.or (a b : Cnt) : Cnt := ⟨a.sat || b.sat, a.nf || b.nf⟩
/-- A saturation as a count of an element: nothing when the element is non-finite (R192). -/
def Cnt.satN (c : Cnt) : Nat := if c.sat && !c.nf then 1 else 0
def Cnt.nfN (c : Cnt) : Nat := if c.nf then 1 else 0

namespace Fp

def zero : Fp := .fin false 0 0
def one : Fp := .fin false 1 0
/-- A non-negative integer. -/
def ofNat (n : Nat) : Fp := .fin false n 0
/-- An integer, exactly. -/
def ofInt (x : Int) : Fp := .fin (decide (x < 0)) x.natAbs 0

def isNan : Fp → Bool
  | .nan => true
  | _ => false

def isFinite : Fp → Bool
  | .fin _ _ _ => true
  | _ => false

def isZero : Fp → Bool
  | .fin _ m _ => m == 0
  | _ => false

/-- The sign bit; NaN carries none. -/
def sign : Fp → Bool
  | .nan => false
  | .inf n => n
  | .fin n _ _ => n

def neg : Fp → Fp
  | .nan => .nan
  | .inf n => .inf (!n)
  | .fin n m e => .fin (!n) m e

def abs : Fp → Fp
  | .nan => .nan
  | .inf _ => .inf false
  | .fin _ m e => .fin false m e

def withSign (n : Bool) : Fp → Fp
  | .nan => .nan
  | .inf _ => .inf n
  | .fin _ m e => .fin n m e

/-- Multiply by 2^k, exactly. -/
def scale2 (x : Fp) (k : Int) : Fp :=
  match x with
  | .fin n m e => .fin n m (e + k)
  | y => y

/-- The two significands on the smaller of the two exponents. -/
def align (m1 : Nat) (e1 : Int) (m2 : Nat) (e2 : Int) : Nat × Nat × Int :=
  if e1 ≤ e2 then (m1, m2 <<< (e2 - e1).toNat, e1) else (m1 <<< (e1 - e2).toNat, m2, e2)

/-- Exact sum of two finite values; a zero sum is negative only when both are. -/
def addFin (n1 : Bool) (m1 : Nat) (e1 : Int) (n2 : Bool) (m2 : Nat) (e2 : Int) : Fp :=
  if m1 = 0 && m2 = 0 then .fin (n1 && n2) 0 0
  else if m1 = 0 then .fin n2 m2 e2
  else if m2 = 0 then .fin n1 m1 e1
  else
    let (a, b, e) := align m1 e1 m2 e2
    if n1 = n2 then .fin n1 (a + b) e
    else if a = b then .fin false 0 0
    else if b < a then .fin n1 (a - b) e
    else .fin n2 (b - a) e

/-- Exact sum; ∞ − ∞ and NaN inputs give NaN (R133). -/
def add : Fp → Fp → Fp
  | .nan, _ => .nan
  | _, .nan => .nan
  | .inf a, .inf b => if a = b then .inf a else .nan
  | .inf a, .fin _ _ _ => .inf a
  | .fin _ _ _, .inf b => .inf b
  | .fin n1 m1 e1, .fin n2 m2 e2 => addFin n1 m1 e1 n2 m2 e2

def sub (a b : Fp) : Fp := add a (neg b)

/-- Exact product; 0 × ∞ gives NaN (R133). -/
def mul : Fp → Fp → Fp
  | .nan, _ => .nan
  | _, .nan => .nan
  | .inf a, .inf b => .inf (a != b)
  | .inf a, .fin n m _ => if m = 0 then .nan else .inf (a != n)
  | .fin n m _, .inf b => if m = 0 then .nan else .inf (n != b)
  | .fin n1 m1 e1, .fin n2 m2 e2 => .fin (n1 != n2) (m1 * m2) (e1 + e2)

/-- Order of two magnitudes. -/
def magLt (m1 : Nat) (e1 : Int) (m2 : Nat) (e2 : Int) : Bool :=
  let (a, b, _) := align m1 e1 m2 e2
  decide (a < b)

/-- a < b as numbers; false with a NaN. -/
def lt : Fp → Fp → Bool
  | .nan, _ => false
  | _, .nan => false
  | .inf a, .inf b => a && !b
  | .inf a, .fin _ _ _ => a
  | .fin _ _ _, .inf b => !b
  | .fin n1 m1 e1, .fin n2 m2 e2 =>
    if m1 = 0 && m2 = 0 then false
    else if m1 = 0 then !n2
    else if m2 = 0 then n1
    else match n1, n2 with
      | false, false => magLt m1 e1 m2 e2
      | true, true => magLt m2 e2 m1 e1
      | true, false => true
      | false, true => false

/-- a = b as numbers (zeros of either sign are equal). -/
def eqv (a b : Fp) : Bool := !a.isNan && !b.isNan && !lt a b && !lt b a

def le (a b : Fp) : Bool := lt a b || eqv a b

/-- The larger value; +0 is larger than −0 (R199). NaN wins. -/
def max (a b : Fp) : Fp :=
  if a.isNan || b.isNan then .nan
  else if lt a b then b else if lt b a then a
  else if a.sign then b else a

/-- The smaller value; −0 is smaller than +0 (R199). NaN wins. -/
def min (a b : Fp) : Fp :=
  if a.isNan || b.isNan then .nan
  else if lt a b then a else if lt b a then b
  else if a.sign then a else b

/-- Round a magnitude m × 2^e (with a positive remainder below 2^e when `sticky`) to a multiple of 2^q. -/
def roundTo (mode : Rnd) (m : Nat) (e : Int) (sticky : Bool) (q : Int) : Nat :=
  if q ≤ e then m <<< (e - q).toNat
  else
    let sh := (q - e).toNat
    let hi := m >>> sh
    let rem := m % 2 ^ sh
    match mode with
    | .rtz => hi
    | .rne =>
      let half := 2 ^ (sh - 1)
      if half < rem || (rem == half && (sticky || hi % 2 == 1)) then hi + 1 else hi
    | .sr u bits =>
      -- R147: the most significant discarded bits, zero-padded on the right
      let f := if sh ≤ bits then rem <<< (bits - sh) else rem >>> (sh - bits)
      if u < f then hi + 1 else hi

/-- The exponent of the last place of a magnitude in a format. -/
def lastPlace (f : Fmt) (m : Nat) (e : Int) : Int :=
  let q := e + (bitLen m : Int) - (f.prec : Int)
  if q < f.qmin then f.qmin else q

/-- Is m × 2^q above the largest finite magnitude of the format? -/
def tooLarge (f : Fmt) (m : Nat) (q : Int) : Bool :=
  magLt (2 ^ f.prec - 1) f.qmax m q

/-- The largest finite magnitude. -/
def largest (f : Fmt) (n : Bool) : Fp := .fin n (2 ^ f.prec - 1) f.qmax

/-- Round a finite value into a format; the flag tells a finite overflow (R133). -/
def roundFin (f : Fmt) (mode : Rnd) (n : Bool) (m : Nat) (e : Int) (sticky : Bool) : Fp × Bool :=
  if m = 0 && !sticky then (.fin n 0 0, false)
  else
    let q := lastPlace f m e
    let r := roundTo mode m e sticky q
    if tooLarge f r q then
      (if f.ieee then .inf n else largest f n, true)
    else (if r = 0 then .fin n 0 0 else .fin n r q, false)

/-- Round an exact value to nearest even; the flag tells a saturation. -/
def rnd (f : Fmt) (x : Fp) : Fp × Bool :=
  match x with
  | .fin n m e => roundFin f .rne n m e false
  | y => (y, false)

def rv (f : Fmt) (x : Fp) : Fp := (rnd f x).1

/-- The quotient of two finite non-zero magnitudes with at least 70 significant bits, and whether it is inexact. -/
def quot (m1 : Nat) (e1 : Int) (m2 : Nat) (e2 : Int) : Nat × Int × Bool :=
  let k := bitLen m2 + 70
  let a := m1 <<< k
  (a / m2, e1 - e2 - (k : Int), a % m2 != 0)

/-- Quotient rounded once; x ÷ 0 gives the largest magnitude with the sign of the limit and a saturation (R200), or
infinity in binary64; 0 ÷ 0 and ∞ ÷ ∞ are invalid. -/
def div (f : Fmt) : Fp → Fp → Fp × Bool
  | .nan, _ => (.nan, false)
  | _, .nan => (.nan, false)
  | .inf _, .inf _ => (.nan, false)
  | .inf a, .fin n _ _ => (.inf (a != n), false)
  | .fin n _ _, .inf b => (.fin (n != b) 0 0, false)
  | .fin n1 m1 e1, .fin n2 m2 e2 =>
    if m2 = 0 then
      if m1 = 0 then (.nan, false)
      else (if f.ieee then .inf (n1 != n2) else largest f (n1 != n2), true)
    else if m1 = 0 then (.fin (n1 != n2) 0 0, false)
    else
      let (qm, qe, st) := quot m1 e1 m2 e2
      roundFin f .rne (n1 != n2) qm qe st

/-- Integer square root, bit by bit. -/
def isqrtGo (n : Nat) : Nat → Nat → Nat
  | 0, r => r
  | k + 1, r =>
    let c := r + 2 ^ k
    isqrtGo n k (if c * c ≤ n then c else r)

def isqrt (n : Nat) : Nat := isqrtGo n ((bitLen n + 1) / 2) 0

/-- Square root rounded once; −x is invalid, ±0 is itself (R200). -/
def sqrt (f : Fmt) : Fp → Fp × Bool
  | .nan => (.nan, false)
  | .inf n => (if n then .nan else .inf false, false)
  | .fin n m e =>
    if m = 0 then (.fin n 0 0, false)
    else if n then (.nan, false)
    else
      let k : Nat := 140 + (if (e - 140) % 2 = 0 then 0 else 1)
      let a := m <<< k
      let r := isqrt a
      roundFin f .rne false r ((e - (k : Int)) / 2) (r * r != a)

/-- 1 ÷ √x rounded once (R200). -/
def rsqrt (f : Fmt) : Fp → Fp × Bool
  | .nan => (.nan, false)
  | .inf n => (if n then .nan else .fin false 0 0, false)
  | .fin n m e =>
    if m = 0 then (largest f n, true)
    else if n then (.nan, false)
    else
      -- 1/x = 2^j / m × 2^(-e-j); j chosen so that -e-j is even
      let j0 : Nat := bitLen m + 160
      let j : Nat := if (e + (j0 : Int)) % 2 = 0 then j0 else j0 + 1
      let a := 2 ^ j / m
      let r := isqrt a
      let exact := r * r * m == 2 ^ j
      roundFin f .rne false r ((-e - (j : Int)) / 2) (!exact)

end Fp

/-- Decode an IEEE-style code with `eb` exponent bits and `mb` mantissa bits. -/
def decodeIeee (eb mb : Nat) (bits : Nat) : Fp :=
  let s := bit bits (eb + mb)
  let e := fld bits (eb + mb - 1) mb
  let m := fld bits (mb - 1) 0
  let bias : Int := 2 ^ (eb - 1) - 1
  if e = 2 ^ eb - 1 then (if m = 0 then .inf s else .nan)
  else if e = 0 then .fin s m (1 - bias - (mb : Int))
  else .fin s (m + 2 ^ mb) ((e : Int) - bias - (mb : Int))

/-- Encode a value that the format represents; NaN becomes the canonical NaN (R133). -/
def encodeIeee (eb mb : Nat) (x : Fp) : Nat :=
  let bias : Int := 2 ^ (eb - 1) - 1
  let qmin : Int := 1 - bias - (mb : Int)
  match x with
  | .nan => (2 ^ eb - 1) * 2 ^ mb + 2 ^ (mb - 1)
  | .inf n => b2n n * 2 ^ (eb + mb) + (2 ^ eb - 1) * 2 ^ mb
  | .fin n m e =>
    let s := b2n n * 2 ^ (eb + mb)
    if m = 0 then s
    else
      -- bring the significand to mb + 1 bits, or to the subnormal exponent
      let q0 := e + (bitLen m : Int) - ((mb : Int) + 1)
      let q := if q0 < qmin then qmin else q0
      let mm := if q ≤ e then m <<< (e - q).toNat else m >>> (q - e).toNat
      if mm < 2 ^ mb then s + mm
      else s + ((q - qmin).toNat + 1) * 2 ^ mb + (mm - 2 ^ mb)

def f32 (b : BitVec 32) : Fp := decodeIeee 8 23 b.toNat
def f64 (b : BitVec 64) : Fp := decodeIeee 11 52 b.toNat
def to32 (x : Fp) : BitVec 32 := BitVec.ofNat 32 (encodeIeee 8 23 x)
def to64 (x : Fp) : BitVec 64 := BitVec.ofNat 64 (encodeIeee 11 52 x)

/-- Round to FP32 and encode. -/
def rnd32 (x : Fp) : BitVec 32 × Bool := let r := Fp.rnd .fp32 x; (to32 r.1, r.2)

/-- Round to binary64 and encode. -/
def rnd64 (x : Fp) : BitVec 64 := to64 (Fp.rv .fp64 x)

/-- p := FP32(p + a·b), the product exact, one rounding (R165); the flag tells a saturation. -/
def fma32 (a b c : Fp) : Fp × Bool := Fp.rnd .fp32 (Fp.add (Fp.mul a b) c)

end Sys2Proof
end

