-- ==== Sys2Proof/Machine/Elem.lean ====
section
/-! DEFINITION. The sixteen number formats: element codes, block units, conversions and their counts (R129–R147, R162). -/

set_option Elab.async false

namespace Sys2Proof

namespace Format

/-- Codes 10h–1Fh are reserved (R129). -/
def reserved (f : Nat) : Bool := decide (16 ≤ f)
/-- The block formats 09h–0Fh. -/
def block (f : Nat) : Bool := decide (9 ≤ f) && decide (f < 16)
/-- The wide formats FP32, BF16 and FP16. -/
def wide (f : Nat) : Bool := decide (f < 3)
/-- The integer formats INT8, UINT8, INT16 and INT32. -/
def integer (f : Nat) : Bool := decide (5 ≤ f) && decide (f ≤ 8)
/-- The formats a matrix engine accepts (R131). -/
def matrix (f : Nat) : Bool := (decide (1 ≤ f) && decide (f ≤ 6)) || block f
/-- The formats to which the tensor exponent applies (R129). -/
def usesExp (f : Nat) : Bool := decide (2 ≤ f) && decide (f ≤ 6)
/-- KT5 emulation excludes codes 0Bh–0Fh (R162). -/
def allowed (kt5 : Bool) (f : Nat) : Bool := decide (f < (if kt5 then 11 else 16))

/-- Bits of one element code. -/
def bits (f : Nat) : Nat :=
  if f = 0 || f = 8 then 32
  else if f = 1 || f = 2 || f = 7 then 16
  else if f = 11 || f = 12 then 6
  else if f = 13 || f = 15 then 4
  else 8

/-- Scale bytes at the head of a block unit (R140, R142). -/
def scaleBytes (f : Nat) : Nat := if f = 15 then 2 else if block f then 1 else 0
/-- Bytes of a block unit (R140); of one element for the other formats. -/
def unitBytes (f : Nat) : Nat := if block f then scaleBytes f + 4 * bits f else bits f / 8
/-- Bytes of one tile row of 64 elements (R141). -/
def pitch (f : Nat) : Nat := 8 * bits f
/-- Data bytes of a tile, where the trailer starts. -/
def dataBytes (f : Nat) : Nat := 64 * pitch f
/-- Trailer bytes of one row. -/
def rowTrailer (f : Nat) : Nat := 2 * scaleBytes f
/-- A tile's footprint in 256-byte units (R112). -/
def footprint (f : Nat) : Nat := ceilDiv (dataBytes f + 64 * rowTrailer f) 256

end Format

/-- A small floating-point element: exponent bits, mantissa bits and its largest magnitude code (R136, R137). -/
structure Mini where
  eb : Nat
  mb : Nat
  top : Nat
  deriving DecidableEq, Repr

namespace Mini

def e4m3 : Mini := ⟨4, 3, 0x7E⟩
def e5m2 : Mini := ⟨5, 2, 0x7B⟩
def e3m2 : Mini := ⟨3, 2, 0x1F⟩
def e2m3 : Mini := ⟨2, 3, 0x1F⟩
def e2m1 : Mini := ⟨2, 1, 7⟩

/-- The element type of a format. -/
def ofFormat (f : Nat) : Mini :=
  if f = 3 || f = 9 then e4m3
  else if f = 4 || f = 10 then e5m2
  else if f = 11 then e3m2
  else if f = 12 then e2m3
  else e2m1

/-- Width of a code. -/
def width (t : Mini) : Nat := 1 + t.eb + t.mb

/-- Exponent of the last place of the subnormals. -/
def qmin (t : Mini) : Int := 2 - 2 ^ (t.eb - 1) - (t.mb : Int)

/-- Magnitude of a code without its sign, as significand and exponent. -/
def mag (t : Mini) (c : Nat) : Nat × Int :=
  let e := c / 2 ^ t.mb
  let m := c % 2 ^ t.mb
  if e = 0 then (m, t.qmin) else (m + 2 ^ t.mb, t.qmin + ((e : Int) - 1))

/-- Read a code; codes above the largest read as the largest magnitude, and the flag tells it (R136). Under KT5 a
subnormal reads as zero (R162). -/
def decode (t : Mini) (kt5 : Bool) (c : Nat) : Fp × Bool :=
  let s := bit c (t.eb + t.mb)
  let u := c % 2 ^ (t.eb + t.mb)
  if kt5 && u < 2 ^ t.mb then (.fin s 0 0, false)
  else
    let (m, e) := t.mag (if t.top < u then t.top else u)
    (.fin s m e, t.top < u)

/-- Round a magnitude onto the element's grid, unbounded above. -/
def grid (t : Mini) (mode : Rnd) (m : Nat) (e : Int) : Nat × Int :=
  let q0 := e + (bitLen m : Int) - ((t.mb : Int) + 1)
  let q := if q0 < t.qmin then t.qmin else q0
  (Fp.roundTo mode m e false q, q)

/-- The code of a magnitude on the grid, not above the largest. -/
def codeOf (t : Mini) (m : Nat) (q : Int) : Nat :=
  if m = 0 then 0
  else
    let q0 := q + (bitLen m : Int) - ((t.mb : Int) + 1)
    let p := if q0 < t.qmin then t.qmin else q0
    let mm := if p ≤ q then m <<< (q - p).toNat else m >>> (p - q).toNat
    if mm < 2 ^ t.mb then mm else ((p - t.qmin).toNat + 1) * 2 ^ t.mb + (mm - 2 ^ t.mb)

/-- Is the magnitude m × 2^q above the element's largest? -/
def above (t : Mini) (m : Nat) (q : Int) : Bool :=
  let (tm, te) := t.mag t.top
  Fp.magLt tm te m q

/-- Write a finite value: the code, and whether it saturated (R146, R147). Under KT5 a result below the smallest
normal becomes zero (R162). -/
def encode (t : Mini) (kt5 : Bool) (mode : Rnd) (n : Bool) (m : Nat) (e : Int) : Nat × Bool :=
  let s := b2n n * 2 ^ (t.eb + t.mb)
  let (r, q) := t.grid mode m e
  if t.above r q then (s + t.top, true)
  else
    let c := t.codeOf r q
    (s + (if kt5 && c < 2 ^ t.mb then 0 else c), false)

end Mini

/-- The range of an integer format: least and largest value (R129). -/
def intRange (f : Nat) : Int × Int :=
  if f = 5 then (-128, 127) else if f = 6 then (0, 255) else if f = 7 then (-32768, 32767)
  else (-2147483648, 2147483647)

/-- The IEEE layout of a wide format: exponent bits and mantissa bits. -/
def wideLayout (f : Nat) : Nat × Nat := if f = 0 then (8, 23) else if f = 1 then (8, 7) else (5, 10)
def wideFmt (f : Nat) : Fmt := if f = 0 then .fp32 else if f = 1 then .bf16 else .fp16

/-- Under KT5 a subnormal value of a floating-point format is a zero of its sign (R162). -/
def flushFp (f : Fmt) (x : Fp) : Fp :=
  match x with
  | .fin n m e => if Fp.magLt m e (2 ^ (f.prec - 1)) f.qmin then .fin n 0 0 else x
  | y => y

def flushIf (kt5 : Bool) (f : Fmt) (x : Fp) : Fp := if kt5 then flushFp f x else x

/-- Read a code of a format that has no block scale; the flag tells a code that counts as non-finite. -/
def decodeElem (kt5 : Bool) (f c : Nat) : Fp × Bool :=
  if f < 3 then
    let (eb, mb) := wideLayout f
    let x := flushIf kt5 (wideFmt f) (decodeIeee eb mb c)
    (x, !x.isFinite)
  else if f < 5 then (Mini.ofFormat f).decode kt5 c
  else if f = 6 then (.ofNat (c % 256), false)
  else (.ofInt (toSigned (Format.bits f) c), false)

/-- A converted element: its code and what it counts. -/
structure Conv where
  code : Nat
  cnt : Cnt
  deriving DecidableEq, Repr

/-- The largest value of a wide or narrow format with a sign, in its own code (R135). -/
def extremeCode (f : Nat) (n : Bool) : Nat :=
  if f < 5 then b2n n * 2 ^ ((Mini.ofFormat f).width - 1) + (Mini.ofFormat f).top
  else ofSigned (Format.bits f) (if n then (intRange f).1 else (intRange f).2)

/-- Round an integer-valued conversion (R146). -/
def encodeInt (f : Nat) (mode : Rnd) (n : Bool) (m : Nat) (e : Int) : Nat × Bool :=
  let (lo, hi) := intRange f
  let r : Int := (Fp.roundTo mode m e false 0 : Nat)
  let v := if n then -r else r
  if f = 6 && n && m != 0 then (0, true)
  else if hi < v then (ofSigned (Format.bits f) hi, true)
  else if v < lo then (ofSigned (Format.bits f) lo, true)
  else (ofSigned (Format.bits f) v, false)

/-- Convert a value to a format without block scales, the tensor exponent already applied (R133, R135, R146). -/
def encodeElem (kt5 : Bool) (f : Nat) (mode : Rnd) (x : Fp) : Conv :=
  if f < 3 then
    let (eb, mb) := wideLayout f
    match x with
    | .fin n m e =>
      let (r, sat) := Fp.roundFin (wideFmt f) mode n m e false
      ⟨encodeIeee eb mb (flushIf kt5 (wideFmt f) r), ⟨sat, false⟩⟩
    | y => ⟨encodeIeee eb mb y, ⟨false, true⟩⟩
  else
    match x with
    | .nan => ⟨0, ⟨false, true⟩⟩
    | .inf n => ⟨extremeCode f n, ⟨false, true⟩⟩
    | .fin n m e =>
      let (c, sat) := if f < 5 then (Mini.ofFormat f).encode kt5 mode n m e else encodeInt f mode n m e
      ⟨c, ⟨sat, false⟩⟩

/-- The value of a shared scale code: its exponent, and whether it is code FFh (R139). -/
def scaleExp (x : Nat) : Int × Bool := if x = 255 then (127, true) else ((x : Int) - 127, false)

/-- The refinement code of element `i` of a KF4 superblock (R142). -/
def kf4Ref (rf i : Nat) : Nat := fld rf (2 * (i / 8) + 1) (2 * (i / 8))

/-- The exact value of element `i` of a block with scale bytes `x` and `rf` and element code `c` (R139, R143). -/
def blockVal (kt5 : Bool) (f x rf i c : Nat) : Fp × Bool :=
  let (sc, _) := scaleExp x
  if f = 14 then (Fp.scale2 (.ofInt (toSigned 8 c)) (sc - 6), false)
  else
    let (v, bad) := (Mini.ofFormat f).decode kt5 c
    if f = 15 then
      match v with
      | .fin n m e => (.fin n (m * (4 + kf4Ref rf i)) (e - 2 + sc), bad)
      | y => (y, bad)
    else (v.scale2 sc, bad)

/-- Element `i` of packed element bytes (R140). -/
def unpackElem (w : Nat) (bytes : List Byte) (i : Nat) : Nat :=
  if w % 8 = 0 then leAt bytes (i * (w / 8)) (w / 8)
  else
    let b := i * w
    (leAt bytes (b / 8) 2 / 2 ^ (b % 8)) % 2 ^ w

/-- Pack element codes from the least significant bit (R140). -/
def packElems (w : Nat) (codes : List Nat) : Nat :=
  match codes with
  | [] => 0
  | c :: rest => c % 2 ^ w + 2 ^ w * packElems w rest

/-- The elements of a block unit as values with their non-finite flags, and the flag of its scale code. -/
def decodeUnit (kt5 : Bool) (f : Nat) (unit : List Byte) : List (Fp × Bool) × Bool :=
  let x := leAt unit 0 1
  let rf := if f = 15 then leAt unit 1 1 else 0
  let body := unit.drop (Format.scaleBytes f)
  ((List.range 32).map fun i => blockVal kt5 f x rf i (unpackElem (Format.bits f) body i), (scaleExp x).2)

/-- One value to be placed in a block, with its rounding mode. -/
structure BlockIn where
  x : Fp
  mode : Rnd
  deriving DecidableEq, Repr

/-- emax of each element type (R139). -/
def emaxOf (f : Nat) : Int :=
  if f = 9 then 8 else if f = 10 then 15 else if f = 11 then 4 else if f = 14 then 0 else 2

/-- The largest finite value of a block format, its scale included (R129). -/
def blockLargest (f : Nat) : Nat × Int :=
  if f = 15 then (2 ^ 24 - 1, 104)
  else if f = 14 then (127, 121)
  else let (m, e) := (Mini.ofFormat f).mag (Mini.ofFormat f).top; (m, e + 127)

/-- The sign and magnitude with which an input enters a block: an infinity becomes the largest value, a NaN +0 (R135,
R144 step 1). -/
def blockMag (f : Nat) (x : Fp) : Bool × Nat × Int :=
  match x with
  | .nan => (false, 0, 0)
  | .inf n => (n, blockLargest f)
  | .fin n m e => (n, m, e)

/-- The larger of two magnitudes. -/
def maxMag (a b : Nat × Int) : Nat × Int := if Fp.magLt a.1 a.2 b.1 b.2 then b else a

/-- The shared exponent X of a block (R139). -/
def sharedExp (f : Nat) (a : Nat × Int) : Int :=
  clampI (-127) 127 (a.2 + (bitLen a.1 : Int) - 1 - emaxOf f)

/-- Twice the E2M1 magnitudes, by code. -/
def e2m1Twice : List Nat := [0, 1, 2, 3, 4, 6, 8, 12]

/-- A magnitude m × 2^e in eighths, as a fraction A ÷ U of natural numbers. -/
def eighths (m : Nat) (e : Int) : Nat × Nat :=
  if 0 ≤ e + 3 then (m <<< (e + 3).toNat, 1) else (m, 2 ^ (-(e + 3)).toNat)

/-- Distance of A ÷ U from candidate value m4 × g ÷ 8, times 8U. -/
def kf4Dist (a u m4 g2 : Nat) : Nat := if a ≤ m4 * g2 * u then m4 * g2 * u - a else a - m4 * g2 * u

/-- The nearest E2M1 code with multiplier m4 ÷ 4; ties go to the code with mantissa bit 0 (R144 step 3). -/
def kf4NearestGo (a u m4 : Nat) : List Nat → Nat → Nat → Nat
  | [], _, best => best
  | c :: rest, bd, best =>
    let d := kf4Dist a u m4 (e2m1Twice.getD c 0)
    if d < bd || (d == bd && c % 2 == 0 && best % 2 == 1) then kf4NearestGo a u m4 rest d c
    else kf4NearestGo a u m4 rest bd best

def kf4Nearest (a u m4 : Nat) : Nat :=
  kf4NearestGo a u m4 [1, 2, 3, 4, 5, 6, 7] (kf4Dist a u m4 0) 0

/-- The largest E2M1 code whose value times the multiplier is not above the magnitude. -/
def kf4Below (a u m4 : Nat) : Nat :=
  [1, 2, 3, 4, 5, 6, 7].foldl (fun acc c => if m4 * e2m1Twice.getD c 0 * u ≤ a then c else acc) 0

/-- (v′ − m × g)² of one element in FP32. -/
def kf4Err (m4 : Nat) (m : Nat) (e : Int) : Fp :=
  let (a, u) := eighths m e
  let g := kf4Nearest a u m4
  let d := Fp.rv .fp32 (Fp.sub (.fin false m e) (.fin false (m4 * e2m1Twice.getD g 0) (-3)))
  Fp.rv .fp32 (Fp.mul d d)

/-- The error of a candidate over a sub-block, summed in index order in FP32. -/
def kf4SumErr (m4 : Nat) (xs : List (Nat × Int)) : Fp :=
  xs.foldl (fun acc p => Fp.rv .fp32 (Fp.add acc (kf4Err m4 p.1 p.2))) .zero

/-- The refinement code of a sub-block: least error, then smallest code (R144 step 4). -/
def kf4Pick (xs : List (Nat × Int)) : Nat :=
  let e0 := kf4SumErr 4 xs
  let (r1, e1) := if Fp.lt (kf4SumErr 5 xs) e0 then (1, kf4SumErr 5 xs) else (0, e0)
  let (r2, e2) := if Fp.lt (kf4SumErr 6 xs) e1 then (2, kf4SumErr 6 xs) else (r1, e1)
  if Fp.lt (kf4SumErr 7 xs) e2 then 3 else r2

/-- Step 5 of R144 for one element: its code and whether it lies above 6m. -/
def kf4Code (mode : Rnd) (m4 : Nat) (n : Bool) (m : Nat) (e : Int) : Nat × Bool :=
  let (a, u) := eighths m e
  let c := match mode with
    | .rne => kf4Nearest a u m4
    | .rtz => kf4Below a u m4
    | .sr d bits =>
      let lo := kf4Below a u m4
      if lo = 7 then 7
      else
        let step := m4 * u * (e2m1Twice.getD (lo + 1) 0 - e2m1Twice.getD lo 0)
        let f := (a - m4 * u * e2m1Twice.getD lo 0) * 2 ^ bits / step
        if d < f then lo + 1 else lo
  (b2n n * 8 + c, decide (m4 * 12 * u < a))

/-- The MXINT8 element of a magnitude (R138). -/
def mxintCode (mode : Rnd) (n : Bool) (m : Nat) (e : Int) : Nat × Bool :=
  let r := Fp.roundTo mode m (e + 6) false 0
  let c := min r 127
  (ofSigned 8 (if n then -(c : Int) else (c : Int)), decide (127 < r))

/-- A block unit made from 32 values: its scale bytes, the element codes and what each element counts (R139, R144). -/
structure BlockOut where
  scales : List Nat
  elems : List Conv
  deriving DecidableEq, Repr

/-- Convert 32 values to a block (R139, R144). -/
def encodeBlock (kt5 : Bool) (f : Nat) (ins : List BlockIn) : BlockOut :=
  let mags := ins.map fun b => (b, blockMag f b.x)
  let amax := mags.foldl (fun acc p => maxMag acc p.2.2) (0, 0)
  let nf := fun (b : BlockIn) => !b.x.isFinite
  if amax.1 = 0 then
    ⟨if f = 15 then [0, 0] else [0], ins.map fun b => ⟨0, ⟨false, nf b⟩⟩⟩
  else
    let x := sharedExp f amax
    let sc := (x + 127).toNat
    if f = 15 then
      let sub := fun j => ((mags.drop (8 * j)).take 8).map fun p => (p.2.2.1, p.2.2.2 - x)
      let rs := [kf4Pick (sub 0), kf4Pick (sub 1), kf4Pick (sub 2), kf4Pick (sub 3)]
      let rf := rs.getD 0 0 + 4 * rs.getD 1 0 + 16 * rs.getD 2 0 + 64 * rs.getD 3 0
      ⟨[sc, rf], mags.zipIdx.map fun (p, i) =>
        let (c, sat) := kf4Code p.1.mode (4 + rs.getD (i / 8) 0) p.2.1 p.2.2.1 (p.2.2.2 - x)
        ⟨c, ⟨sat && !nf p.1, nf p.1⟩⟩⟩
    else
      ⟨[sc], mags.map fun p =>
        let (c, sat) :=
          if f = 14 then mxintCode p.1.mode p.2.1 p.2.2.1 (p.2.2.2 - x)
          else (Mini.ofFormat f).encode kt5 p.1.mode p.2.1 p.2.2.1 (p.2.2.2 - x)
        ⟨c, ⟨sat && !nf p.1, nf p.1⟩⟩⟩

/-- The bytes of a block unit. -/
def BlockOut.bytes (f : Nat) (b : BlockOut) : List Byte :=
  (b.scales.map fun v => BitVec.ofNat 8 v)
    ++ leBytes (4 * Format.bits f) (packElems (Format.bits f) (b.elems.map (·.code)))

end Sys2Proof
end

