-- ==== Sys2Proof/Machine/Rng.lean ====
section
/-! DEFINITION. The counter-based generator (R156–R159), CRC-32C and the parity fold of packets. -/

set_option Elab.async false

namespace Sys2Proof

/-- The four words of a key, a counter or an output; `x0` holds bits [31:0]. -/
structure Quad where
  x0 : BitVec 32
  x1 : BitVec 32
  x2 : BitVec 32
  x3 : BitVec 32
  deriving DecidableEq, Repr

namespace Quad

def zero : Quad := ⟨0, 0, 0, 0⟩

/-- The words of a 128-bit number. -/
def ofNat (n : Nat) : Quad :=
  ⟨BitVec.ofNat 32 n, BitVec.ofNat 32 (n / 2 ^ 32), BitVec.ofNat 32 (n / 2 ^ 64), BitVec.ofNat 32 (n / 2 ^ 96)⟩

def toNat (q : Quad) : Nat :=
  q.x0.toNat + 2 ^ 32 * q.x1.toNat + 2 ^ 64 * q.x2.toNat + 2 ^ 96 * q.x3.toNat

/-- Word `i` modulo 4. -/
def word (q : Quad) (i : Nat) : BitVec 32 :=
  match i % 4 with
  | 0 => q.x0
  | 1 => q.x1
  | 2 => q.x2
  | _ => q.x3

end Quad

namespace Rng

/-- The rotation pair of each round (R158). -/
def rot (rnd : Nat) : Nat × Nat :=
  match rnd with
  | 0 => (5, 17)
  | 1 => (13, 2)
  | 2 => (22, 25)
  | 3 => (7, 12)
  | 4 => (18, 30)
  | 5 => (29, 8)
  | 6 => (11, 20)
  | 7 => (3, 14)
  | 8 => (26, 1)
  | 9 => (16, 27)
  | 10 => (9, 6)
  | _ => (24, 19)

/-- Value `a` of a round, formed from the half that does not change. -/
def roundA (k : Quad) (rnd : Nat) (x2 x3 : BitVec 32) : BitVec 32 :=
  (x2 + k.word rnd).rotateLeft (rot rnd).1 + x3

/-- Value `b` of a round. -/
def roundB (k : Quad) (rnd : Nat) (x2 x3 : BitVec 32) : BitVec 32 :=
  (x3 ^^^ k.word (rnd + 2)).rotateLeft (rot rnd).2 + x2 + BitVec.ofNat 32 (rnd + 1)

/-- One round, the exchange of the halves included. -/
def round (k : Quad) (rnd : Nat) (x : Quad) : Quad :=
  ⟨x.x2, x.x3, x.x0 ^^^ roundA k rnd x.x2 x.x3, x.x1 + roundB k rnd x.x2 x.x3⟩

/-- The inverse of a round. -/
def unround (k : Quad) (rnd : Nat) (y : Quad) : Quad :=
  ⟨y.x2 ^^^ roundA k rnd y.x0 y.x1, y.x3 - roundB k rnd y.x0 y.x1, y.x0, y.x1⟩

/-- The whitening at entry. -/
def whiten (k x : Quad) : Quad := ⟨x.x0 ^^^ k.x0, x.x1 ^^^ k.x1, x.x2 ^^^ k.x2, x.x3 ^^^ k.x3⟩

/-- The first `n` rounds. -/
def rounds (k : Quad) (n : Nat) (x : Quad) : Quad :=
  match n with
  | 0 => x
  | m + 1 => round k m (rounds k m x)

/-- The inverse of the first `n` rounds. -/
def unrounds (k : Quad) (n : Nat) (y : Quad) : Quad :=
  match n with
  | 0 => y
  | m + 1 => unrounds k m (unround k m y)

/-- The keyed permutation of R158. -/
def permute (k x : Quad) : Quad := rounds k 12 (whiten k x)

/-- Its inverse. -/
def unpermute (k y : Quad) : Quad := whiten k (unrounds k 12 y)

/-- The counter of a draw (R156). -/
def counter (tensor step index draw : Nat) : Quad :=
  Quad.ofNat (draw % 2 ^ 16 + 2 ^ 16 * (index % 2 ^ 48) + 2 ^ 64 * (step % 2 ^ 40) + 2 ^ 104 * (tensor % 2 ^ 24))

/-- The 16 most significant output bits of a draw (R120, R147 step 2). -/
def draw16 (k : Quad) (tensor step index draw : Nat) : Nat :=
  (permute k (counter tensor step index draw)).x3.toNat / 2 ^ 16

end Rng

namespace Crc

/-- One bit of CRC-32C (Castagnoli), reflected. -/
def stepBit (c : BitVec 32) : BitVec 32 :=
  if c.getLsbD 0 then (c >>> 1) ^^^ 0x82F63B78#32 else c >>> 1

/-- One byte. -/
def stepByte (c : BitVec 32) (b : Byte) : BitVec 32 :=
  let x := c ^^^ (b.setWidth 32)
  stepBit (stepBit (stepBit (stepBit (stepBit (stepBit (stepBit (stepBit x)))))))

/-- CRC-32C of a byte list: initial value and final inversion all ones. -/
def crc32c (bs : List Byte) : BitVec 32 := (bs.foldl stepByte 0xFFFFFFFF#32) ^^^ 0xFFFFFFFF#32

end Crc

end Sys2Proof
end

