-- ==== Sys2Proof/Machine/Types.lean ====
section
/-! DEFINITION. The pieces of state of clusters, contexts and queues that are not registers (02, 03, 05, 06, 13). -/

set_option Elab.async false

namespace Sys2Proof

namespace Machine

/-- An instruction with its operands as read at issue (R94, R68). `flight` names its entry among the instructions in
flight. -/
structure Job where
  flight : Nat
  g : Nat
  ctx : Nat
  /-- the instruction word -/
  word : Nat
  /-- the scalar registers at issue -/
  sregs : Memory 64
  /-- the descriptor slots DA, DB, DC and the two that a program in DC names (SSLOT or DSTSLOT; BIASSLOT) -/
  da : List Byte
  db : List Byte
  dc : List Byte
  dx : List Byte
  dy : List Byte
  /-- KT5 emulation of the partition (R161) -/
  kt5 : Bool
  /-- the generator key of the launch (R157) -/
  key : Quad
  deriving DecidableEq, Repr

/-- Where an issued instruction waits or runs (R95). -/
inductive Unit where
  | none
  | mover (k : Nat)
  | vector
  | engine (e : Nat)
  | ledger
  | collective
  deriving DecidableEq, Repr

/-- An addition to a tag counter of a cluster of the partition, by logical index, made when an instruction completes
(R105, R115). -/
structure TagAdd where
  idx : Nat
  tag : Nat
  inc : Nat
  deriving DecidableEq, Repr

/-- An instruction in flight: issued and not complete. -/
structure Flight where
  ctx : Nat
  /-- global and logical index of the cluster that issued it -/
  g : Nat
  idx : Nat
  op : Nat
  tag : Nat
  unit : Unit
  /-- matrix engines that hold it beside its unit: of an ABLK, and of a shadow run (R218, R382) -/
  engs : List Nat
  /-- its effects have been applied, so that it may complete -/
  ready : Bool
  /-- it waits for an agent outside the partition -/
  outside : Bool
  /-- scalar registers it writes at completion (R97) -/
  pend : List Nat
  /-- the status register, 0 for none, and the status (R124) -/
  sreg : Nat
  status : Nat
  adds : List TagAdd
  deriving DecidableEq, Repr

/-- Why a sequencer does not issue. Each keeps the TAG of its instruction, which gains one when it completes. -/
inductive Stall where
  | none
  /-- WAIT on counter `tagw` (R104); the address of the map when EXT = 1 names one -/
  | wait (tag tagw target : Nat) (ext : Bool) (map : Option Nat)
  /-- BARRIER of the partition or of the domain, with its status register (R107, R357) -/
  | barrier (domain : Bool) (tag sdst : Nat) (map : Option Nat)
  /-- HALT waiting for the cluster's instructions, with its code (R109) -/
  | halt (tag code : Nat)
  deriving DecidableEq, Repr

/-- A barrier release in progress (R433): its status, and the logical indices of the clusters that still await their wave,
each with the time of its wave after the release instant in nanoseconds. -/
structure Release where
  status : Nat
  domain : Bool
  due : List (Nat × Nat)
  deriving DecidableEq, Repr

/-- The shadow run of a selected unit (R380–R382): its engine, its partials, its binary64 sums, and whether a check of the
run has failed. Its lanes hold what the unit's own hold, since both runs take the same operands. -/
structure Shadow where
  eng : Nat
  part : Memory 32
  sums : Memory 64
  failed : Bool
  deriving DecidableEq, Repr

/-- An accumulation of an engine's WSLOT (R171–R175). Its binary64 sums S lie in the wide accumulation buffer. -/
structure Accum where
  isOpen : Bool
  /-- lamination interval in products -/
  interval : Nat
  /-- MROWS of the opening instruction -/
  mrows : Nat
  products : Nat
  /-- a spill point has been reached and the spill has not run (R172) -/
  spillDue : Bool
  /-- the integer path of R166 is in force -/
  integer : Bool
  /-- the accumulation has used both paths -/
  mixed : Bool
  /-- partials p, FP32 or two's complement, keyed 64m + n -/
  part : Memory 32
  /-- check column: q and Q by row; check row: t and T by column; FP32 bits or 48-bit integers -/
  q : Memory 64
  qa : Memory 64
  t : Memory 64
  ta : Memory 64
  /-- their laminated binary64 values -/
  lq : Memory 64
  lqa : Memory 64
  lt : Memory 64
  lta : Memory 64
  checksFailed : Bool
  shadow : Option Shadow
  deriving DecidableEq, Repr

def Accum.closed : Accum :=
  ⟨false, 0, 0, 0, false, false, false, [], [], [], [], [], [], [], [], [], false, none⟩

/-- A finished tile in an engine's output buffer (R182). -/
structure OutTile where
  flight : Nat
  tile : Memory 32
  deriving DecidableEq, Repr

/-- A matrix engine. -/
structure Engine where
  queue : List Job
  /-- K-tiles of the head instruction consumed -/
  pos : Nat
  acc0 : Accum
  acc1 : Accum
  out0 : Option OutTile
  out1 : Option OutTile
  /-- the ordinal that the unit at the head of the queue has taken while it waits to open (R380, R382) -/
  ord : Option Nat
  deriving DecidableEq, Repr

def Engine.idle : Engine := ⟨[], 0, .closed, .closed, none, none, none⟩

/-- A query row's state of an online softmax (R217). -/
structure RowState where
  valid : Bool
  m : Fp
  l : Fp
  o : List Fp
  deriving DecidableEq, Repr

/-- The operands of one ABLK as its array work takes them (R218): the tiles of queries, keys and values row by row, the
admissible keys of each row, the states before the block, the tensor exponent of the values, and the tolerance exponent. -/
structure BlockArgs where
  job : Job
  q : List (List (List Fp))
  k : List (List (List Fp))
  v : List (List (List Fp))
  adms : List (List Bool)
  states : List RowState
  ev : Int
  tolexp : Nat
  deriving DecidableEq, Repr

/-- What is left of a shadow run when its unit has ended: of an MMA unit the last interval, whose spill and checks end it; of
an ABLK its operands (none where no row was live). -/
inductive ShadowWork where
  | mma (kt5 : Bool) (acc : Accum) (sums : Memory 64) (interval : Nat) (failed : Bool)
  | ablk (args : Option BlockArgs)
  deriving DecidableEq, Repr

/-- A shadow unit that waits for its comparison (R382, R383). -/
structure ShadowUnit where
  /-- engine of the unit and first shadow engine; an ABLK names a pair of engines at each -/
  eng : Nat
  shEng : Nat
  step : Nat
  /-- the unit's result bit for bit, and the engines on which its own checks failed -/
  orig : Memory 64
  origFails : List Nat
  work : ShadowWork
  deriving DecidableEq, Repr

/-- A cluster: what it holds for the running context. -/
structure Cluster where
  /-- context that runs on it, and its logical index -/
  ctx : Option Nat
  idx : Nat
  /-- context whose state its stores hold (R471) -/
  last : Option Nat
  sregs : Memory 64
  /-- p0–p15 as bits; p0 is always 1 -/
  preds : Nat
  vregs : Memory 32
  tags : Memory 16
  /-- consecutive reserved opcodes (R99) -/
  resRun : Nat
  stall : Stall
  /-- parked at a yield point (R73), with the live-state map it named -/
  parked : Bool
  map : Option Nat
  tile : Memory 8
  trans : Memory 8
  wide : Memory 64
  /-- tiles of the tray, oldest first -/
  tray : List (Memory 32)
  /-- LAST instructions to the tray that have not entered, in issue order (R182) -/
  trayOrder : List Nat
  engines : Tab Engine
  /-- the vector engine's queue, the tiles that its head instruction has taken, and the running result of a VRED -/
  vq : List Job
  vpos : Nat
  vacc : List (BitVec 32)
  /-- the ordinal that the ABLK at the head of the vector queue has taken while it waits (R380, R382) -/
  vord : Option Nat
  /-- shadow units since LAUNCH (R380) and those not yet compared -/
  ordinal : Nat
  shadows : List ShadowUnit
  /-- issue-token pool and the busy counts of its 17 units (R424) -/
  pool : Nat
  busy : Tab Nat
  /-- inactive units (R432), and units that hold their work for a token (R424): engines 0–15, vector engine 16 -/
  inactive : List Nat
  held : List Nat
  deriving DecidableEq, Repr

def Cluster.blank : Cluster :=
  ⟨none, 0, none, [], 1, [], [], 0, .none, false, none, [], [], [], [], [], [], [], 0, [], none, 0, [], 0, [], [], []⟩

/-- What a cocoon holds of one cluster (R73, R497): its state and its saved counter registers by offset in the
cluster's window. -/
structure Image where
  cl : Cluster
  regs : Tab RegVal
  halted : Bool
  deriving DecidableEq, Repr

/-- A cocoon (R73, R74): one image per logical index, the 64 KiB of the descriptor-slot table, the HEAD and TAIL of the
context's eight queues, its size in bytes, and whether its write has completed. -/
structure Cocoon where
  images : List Image
  descs : Memory 8
  positions : List (Nat × Nat)
  bytes : Nat
  written : Bool
  deriving DecidableEq, Repr

/-- A fetched command: its queue, the ring pointer of its entry and the 64 bytes (R62). -/
structure Cmd where
  q : Nat
  ptr : Nat
  entry : List Byte
  deriving DecidableEq, Repr

/-- A completion entry that waits for room in its ring (R64). -/
structure Cpl where
  ptr : Nat
  status : Nat
  usertag : Nat
  deriving DecidableEq, Repr

/-- A queue beyond its registers. -/
structure Queue where
  /-- commands that have started and not completed -/
  running : List Cmd
  /-- a LAUNCH that waits at the head (R65) -/
  waiting : Option Cmd
  cpls : List Cpl
  deriving DecidableEq, Repr

def Queue.blank : Queue := ⟨[], none, []⟩

/-- A context beyond its registers. -/
structure Ctx where
  /-- commit mark (R305) -/
  commit : Option Nat
  /-- the LAUNCH that executes -/
  launch : Option Cmd
  /-- queues whose LAUNCH waits at their heads, in order of arrival (R65) -/
  arrivals : List Nat
  /-- queues with accepted entries to fetch (R61) -/
  sched : List Nat
  /-- number in the order in which contexts became runnable (R79) -/
  order : Nat
  runnable : Bool
  /-- how it was cocooned: by QUANTUM expiry; RESUME written since -/
  byQuantum : Bool
  resumed : Bool
  /-- PARKING was caused by a PREEMPT write -/
  byPreempt : Bool
  cocoon : Option Cocoon
  /-- a BARRIER release whose waves are under way -/
  release : Option Release
  key : Quad
  /-- instances of each plan started (R351) -/
  instances : Tab Nat
  deriving DecidableEq, Repr

def Ctx.blank : Ctx :=
  ⟨none, none, [], [], 0, false, false, false, false, none, none, Quad.zero, []⟩

/-- An open pre-emption window (R76): the context that leaves, its partition, and the place in the order of runnable contexts
that the PREEMPT write found free: contexts made runnable no later than the write stand before it. -/
structure Window where
  out : Nat
  part : Nat
  upTo : Nat
  deriving DecidableEq, Repr

/-- A stretch [lo, hi) of memory that the device has filled, under a key tag, with data whose layout the spec does not give
(R75, R259, R404; log 53): the bytes are free values. `id` names the write. -/
structure Veil where
  lo : Nat
  hi : Nat
  id : Nat
  key : Nat
  deriving DecidableEq, Repr

/-- A move of a page record in progress (R261): the tier it goes to, the frame or chunks that it has reserved there, its new
content where an LPARK brings one, with how many chunks it will hold, whether they hold it raw and whether a recipe has been
applied to it, the pin flag that it will take, the LPIN that waits for it, with its context and step and whether its paths flip
a bit, and whether tier pressure caused it. Tiers: 1 RES, 2 PACK, 3 SPILL, 4 HOST. -/
structure PageMove where
  target : Nat
  page : Option (Memory 8)
  slots : List Nat
  held : Nat
  raw : Bool
  applied : Bool
  pin : Option Bool
  flight : Option Nat
  fails : Bool
  by_ : Nat × Nat
  demote : Bool
  deriving DecidableEq, Repr

/-- A page record that holds a key or is being placed (R254, R259). `state`: 0 FREE, 1 RES, 2 PACK, 3 SPILL, 4 HOST, 5 GONE;
`slots` numbers its frame or its chunks in the tier's region, `page` is the page that a copy in a coded tier was made of (a
frame holds its page itself), `raw` tells a copy that no stage has coded, `ids` names the codec's writes of its chunks, `crc` is
the CRC-32C that the copy carries (R266), `applied` tells that a recipe has been applied to it (R264), and `since` orders records by the time they took their state. -/
structure PageRec where
  tid : Nat
  ord : Nat
  state : Nat
  pin : Bool
  slots : List Nat
  page : Memory 8
  raw : Bool
  ids : List Nat
  crc : Nat
  applied : Bool
  since : Nat
  move : Option PageMove
  deriving DecidableEq, Repr

/-- An operation on one page (R260): 0 LPARK, 1 LFETCH, 2 LDROP, 3 LPIN 1, 4 LPIN 0; with the context and step of its
instruction, whether the coded copy it meets fails its CRC, and the policy entry of an LPARK. While it waits it keeps the tier
that its placement has come to, and the records below which have to move down first, each with the tier that its own placement
has come to (R262). -/
structure PageOp where
  flight : Nat
  kind : Nat
  ctx : Nat
  step : Nat
  tid : Nat
  ord : Nat
  home : Nat
  bad : Bool
  entry : Nat
  tier : Option Nat
  path : List (Nat × Nat)
  deriving DecidableEq, Repr

/-- A ledger pool beyond its registers (R253). -/
structure Pool where
  recs : Tab PageRec
  /-- operations that wait, in order of receipt -/
  ops : List PageOp
  clock : Nat
  deriving DecidableEq, Repr

def Pool.blank : Pool := ⟨[], [], 0⟩

end Machine

end Sys2Proof
end

