-- ==== Sys2Proof/Machine/HostTypes.lean ====
section
/-! DEFINITION. The pieces of state of power, the sentinel, boot, security and the host interface that are not registers
(15, 16, 17). -/

set_option Elab.async false

namespace Sys2Proof

namespace Machine

/-! ### Power and the sentinel (15) -/

/-- A boost requested by a partition's HINTs (R434): its dies, the µs from the HINT to the phase, the epochs that have begun
since, whether VCORE has been raised, and whether a HINT of a light phase has come, which ends it at the next epoch. -/
structure Boost where
  part : Nat
  dies : List Nat
  lead : Nat
  age : Nat
  started : Bool
  ending : Bool
  deriving DecidableEq, Repr

/-- A change of operating point under way (R421): where it goes, and the dies whose raised VCORE has not settled. -/
structure OpSwitch where
  target : Nat
  raising : List Nat
  deriving DecidableEq, Repr

/-- Power and clocks beyond their registers (15). -/
structure Pwr where
  /-- VCORE setpoint of each compute die in mV (R421, R422) -/
  vcore : List Nat
  /-- the compute, base and link dies are unpowered (R435) -/
  dark : Bool
  /-- ramp slope in force (R432) -/
  ramp : Nat
  /-- dies on which a boosted setpoint has settled (R434) -/
  settled : List Nat
  boosts : List Boost
  switch : Option OpSwitch
  /-- powers read in the window that is open (R427) -/
  window : List Nat
  /-- epochs in a row at φ = 64, and epochs in a row at φ = 256 with power at least 10 % below the cap (R428) -/
  atFloor : Nat
  atTop : Nat
  /-- dies above THROTTLE that have not fallen 2 °C below it (R429) -/
  hot : List Nat
  /-- number of the live epoch, and its tokens granted and consumed (R426) -/
  epoch : Nat
  granted : Nat
  consumed : Nat
  /-- compute dies whose clocks are lengthened (R431) -/
  stretched : List Nat
  /-- the low-power state being entered or left, 1 Parked or 2 Dormant, the SETSTATE that asked for it, and a wake that came
  while it was entered (R437, R448) -/
  low : Nat
  setstate : Option Cmd
  wake : Bool
  /-- PWR.CAP as it was before a write in a low-power state, which is in force from wake (R436) -/
  capWas : Option Nat
  /-- clusters added to a partition while a context of it runs, which stay Idle until its next LAUNCH or RESUME (R51) -/
  added : List Nat
  deriving DecidableEq, Repr

def Pwr.init : Pwr := ⟨[820, 820, 820, 820], false, 1, [], [], none, [], 0, 0, [], 0, 0, 0, [], 0, none, false, none, []⟩

/-- A record of the SEN event queue (R443, R447). -/
structure SenRec where
  slot : Nat
  decision : Nat
  tag : Nat
  time : Nat
  deriving DecidableEq, Repr

/-- The sentinel beyond its registers (R440–R443): the tick number, f0–f7 of the eight slots keyed 8i + k, and its event
queue, oldest first. -/
structure Sen where
  tick : Nat
  f : Memory 32
  events : List SenRec
  /-- droop trips since the last tick (R440) -/
  droops : Nat
  deriving DecidableEq, Repr

def Sen.init : Sen := ⟨0, [], [], 0⟩

/-! ### Boot and security (16) -/

/-- A COREUPD in progress (R470): its command, the core and the image that it loads. -/
structure CoreUpd where
  cmd : Cmd
  core : Nat
  image : List Byte
  deriving DecidableEq, Repr

/-- An FWSLOT in progress (R466): its command and the image that it writes. -/
structure SlotWrite where
  cmd : Cmd
  image : List Byte
  deriving DecidableEq, Repr

/-- The state of SPDM on the DOE mailbox (R468). `stage`: 0 not started, 1 version, 2 capabilities, 3 algorithms negotiated.
`sealed`: secp384r1 and AES-256-GCM are among them, as a session needs. `session`: 0 none, 1 KEY_EXCHANGE done, 2 open. `keys`
counts the KEY_UPDATEs of the session. -/
structure Spdm where
  stage : Nat
  sealed : Bool
  session : Nat
  sessionId : Nat
  keys : Nat
  deriving DecidableEq, Repr

def Spdm.init : Spdm := ⟨0, false, 0, 0, 0⟩

/-- Boot and security beyond their registers. -/
structure Sec where
  /-- step of R460 in progress, 0 while a reset is held; whether the boot to come starts at the first step (R457) -/
  bootStep : Nat
  cold : Bool
  /-- the image in the flash slot (R459), and the image that runs (R461) -/
  slot : List Byte
  image : List Byte
  /-- boot waits for a push; a push is being read (R462) -/
  waitPush : Bool
  pushing : Bool
  slotWrite : Option SlotWrite
  coreUpd : Option CoreUpd
  /-- service cores that a parity failure has taken out of service (R379) -/
  parity : List Nat
  /-- the PUF has been evaluated and the keys derived (R467) -/
  keys : Bool
  /-- the domain store key of the blob applied (R407, R464), and the blob (R469) -/
  storeKey : List Byte
  blob : List Byte
  spdm : Spdm
  /-- keys of the IDE streams as IDE_KM programmed them, by 256 × stream + key sub-stream, and those in use (R449) -/
  ideKeys : Tab (List Byte)
  ideOn : List Nat
  /-- configuration space: what requests have written, by address (R449, R460) -/
  config : Tab Nat
  deriving DecidableEq, Repr

def Sec.init : Sec := ⟨0, true, [], [], false, false, none, none, [], false, [], [], .init, [], [], []⟩

end Machine

end Sys2Proof
end

