-- ==== Sys2Proof/Machine/RegTable.lean ====
section
/-! DEFINITION. The register map of BAR0: every register of the chapters' register tables, with its fields, access types
and reset values (R12, R13, R16), the offset of each by name, and which block owns an address (R11, R17). -/

set_option Elab.async false

namespace Sys2Proof

/-- The access types of R13. -/
inductive Access where
  | rw
  | ro
  | wo
  | w1c
  | rwl
  deriving DecidableEq, Repr

/-- A field: bits [hi:lo], its access type and its reset value. -/
structure RegField where
  hi : Nat
  lo : Nat
  acc : Access
  reset : Nat
  deriving DecidableEq, Repr

/-- A register or an array of registers: the offset of instance 0, (count, stride) of each dimension with the largest
stride first, the width in bits and the fields. -/
structure RegRow where
  base : Nat
  dims : List (Nat × Nat)
  width : Nat
  fields : List RegField
  deriving DecidableEq, Repr

/-- Does the distance `d` from the base name an instance of the register? -/
def RegRow.hits (dims : List (Nat × Nat)) (d : Nat) : Bool :=
  match dims with
  | [] => d == 0
  | (n, st) :: rest => decide (d / st < n) && RegRow.hits rest (d % st)

/-- The register that starts at an offset. -/
def RegRow.at? (rows : List RegRow) (off : Nat) : Option RegRow :=
  match rows with
  | [] => none
  | r :: rest =>
    if decide (r.base ≤ off) && RegRow.hits r.dims (off - r.base) then some r else RegRow.at? rest off

/-- The reset value of a register. -/
def RegRow.resetVal (r : RegRow) : Nat :=
  r.fields.foldl (fun acc f => acc + f.reset * 2 ^ f.lo) 0

/-- The bits of a register that some field names. -/
def RegRow.usedMask (r : RegRow) : Nat :=
  r.fields.foldl (fun acc f => acc + (2 ^ (f.hi + 1) - 2 ^ f.lo)) 0

/-- The layout of every VIOLCNT (R86). -/
def violFields : List RegField :=
  [⟨31, 31, .wo, 0⟩, ⟨30, 30, .ro, 0⟩, ⟨27, 16, .ro, 0⟩, ⟨15, 0, .ro, 0⟩]

/-- One read-only counter that fills its register. -/
def countField (w : Nat) : List RegField := [⟨w - 1, 0, .ro, 0⟩]

/-- Registers of block CFG. -/
def regsCfg : List RegRow :=
  [
   -- CFG.IDENT (R2)
   ⟨0, [], 32, [⟨31, 16, .ro, 0x7200⟩, ⟨15, 12, .ro, 1⟩, ⟨11, 8, .ro, 0⟩]⟩,
   -- CFG.HLTHBASE (R153)
   ⟨0x100, [], 64, [⟨51, 21, .rw, 0⟩, ⟨0, 0, .rw, 0⟩]⟩,
   -- CFG.VIOLCNT (R86)
   ⟨0xf00, [], 32, violFields⟩,
   -- CFG.PARTMAP (R48)
   ⟨0x1000, [(64, 0x10)], 64, [⟨63, 0, .rw, 0⟩]⟩,
   -- CFG.PARTCTL (R49)
   ⟨0x1008, [(64, 0x10)], 32, [⟨31, 31, .wo, 0⟩, ⟨23, 0, .rw, 0⟩]⟩,
   -- CFG.PARTEMU (R161)
   ⟨0x100c, [(64, 0x10)], 32, [⟨0, 0, .rw, 0⟩]⟩]

/-- Registers of block CTX. -/
def regsCtx : List RegRow :=
  [
   -- CTX.VIOLCNT (R86)
   ⟨0xf04, [], 32, violFields⟩,
   -- CTX.CTL0 (R57)
   ⟨0x100000, [], 32, [⟨31, 31, .ro, 1⟩, ⟨30, 30, .wo, 0⟩, ⟨29, 29, .wo, 0⟩, ⟨21, 16, .ro, 0⟩, ⟨15, 0, .ro, 1⟩]⟩,
   -- CTX.STAT0 (R57)
   ⟨0x100004, [], 32, [⟨31, 24, .ro, 0⟩, ⟨15, 8, .ro, 0⟩, ⟨2, 0, .ro, 1⟩]⟩,
   -- CTX.CTL (R53)
   ⟨0x100000, [(4096, 0x100)], 32, [⟨31, 31, .rw, 0⟩, ⟨30, 30, .wo, 0⟩, ⟨29, 29, .wo, 0⟩, ⟨21, 16, .rw, 0⟩, ⟨15, 0, .rw, 1⟩]⟩,
   -- CTX.STAT (R53)
   ⟨0x100004, [(4096, 0x100)], 32, [⟨31, 24, .ro, 0⟩, ⟨15, 8, .ro, 0⟩, ⟨2, 0, .ro, 0⟩]⟩,
   -- CTX.PTBASE (R53)
   ⟨0x100008, [(4096, 0x100)], 64, [⟨51, 12, .rw, 0⟩]⟩,
   -- CTX.DESCBASE (R53)
   ⟨0x100010, [(4096, 0x100)], 64, [⟨47, 16, .rw, 0⟩]⟩,
   -- CTX.COCOON (R53)
   ⟨0x100018, [(4096, 0x100)], 64, [⟨38, 21, .rw, 0⟩]⟩,
   -- CTX.ETMXE (R53)
   ⟨0x100020, [(4096, 0x100)], 64, countField 64⟩,
   -- CTX.ETVEC (R53)
   ⟨0x100028, [(4096, 0x100)], 64, countField 64⟩,
   -- CTX.ETLDG (R53)
   ⟨0x100030, [(4096, 0x100)], 64, countField 64⟩,
   -- CTX.ETCOL (R53)
   ⟨0x100038, [(4096, 0x100)], 64, countField 64⟩,
   -- CTX.PREEMPTS (R53)
   ⟨0x100040, [(4096, 0x100)], 32, countField 32⟩,
   -- CTX.LASTPRE (R53)
   ⟨0x100044, [(4096, 0x100)], 32, countField 32⟩]

/-- Registers of block QUE. -/
def regsQue : List RegRow :=
  [
   -- QUE.VIOLCNT (R86)
   ⟨0xf08, [], 32, violFields⟩,
   -- QUE.CTL (R58)
   ⟨0x200000, [(32768, 0x40)], 32, [⟨31, 31, .rw, 0⟩, ⟨3, 0, .rw, 4⟩]⟩,
   -- QUE.BASE (R58)
   ⟨0x200008, [(32768, 0x40)], 64, [⟨47, 12, .rw, 0⟩]⟩,
   -- QUE.CPLBASE (R58)
   ⟨0x200010, [(32768, 0x40)], 64, [⟨47, 12, .rw, 0⟩]⟩,
   -- QUE.PTR (R58)
   ⟨0x200018, [(32768, 0x40)], 32, [⟨31, 16, .ro, 0⟩, ⟨15, 0, .ro, 0⟩]⟩,
   -- QUE.CPLPTR (R58)
   ⟨0x20001c, [(32768, 0x40)], 32, [⟨31, 16, .rw, 0⟩, ⟨15, 0, .ro, 0⟩]⟩]

/-- Registers of block CLK. -/
def regsClk : List RegRow :=
  [
   -- CLK.STAT (R445)
   ⟨0x2000, [], 32, [⟨31, 31, .ro, 0⟩, ⟨30, 30, .ro, 0⟩, ⟨29, 29, .ro, 0⟩, ⟨15, 0, .ro, 0x12c0⟩]⟩,
   -- CLK.DROOPCFG (R445)
   ⟨0x2008, [], 32, [⟨7, 0, .rwl, 0x28⟩]⟩,
   -- CLK.DROOPCNT (R445)
   ⟨0x2010, [(4, 0x10)], 32, countField 32⟩,
   -- CLK.STRETCH (R445)
   ⟨0x2018, [(4, 0x10)], 64, countField 64⟩,
   -- CLK.VIOLCNT (R86)
   ⟨0x2ff0, [], 32, violFields⟩]

/-- Registers of block PWR. -/
def regsPwr : List RegRow :=
  [
   -- PWR.OPSET (R446)
   ⟨0x3000, [], 32, [⟨3, 2, .rw, 1⟩, ⟨1, 0, .rw, 0⟩]⟩,
   -- PWR.CAP (R446)
   ⟨0x3004, [], 32, [⟨31, 16, .rw, 0x708⟩, ⟨15, 0, .rw, 0xbb8⟩]⟩,
   -- PWR.STAT (R446)
   ⟨0x3008, [], 32, [⟨31, 29, .ro, 0⟩, ⟨28, 27, .ro, 0⟩, ⟨26, 26, .ro, 0⟩, ⟨25, 25, .ro, 0⟩, ⟨24, 24, .ro, 0⟩, ⟨23, 23, .ro, 0⟩, ⟨15, 0, .ro, 0xbb8⟩]⟩,
   -- PWR.POWER (R446)
   ⟨0x300c, [], 32, [⟨31, 16, .ro, 0⟩, ⟨15, 0, .ro, 0⟩]⟩,
   -- PWR.TOKAUD (R446)
   ⟨0x3010, [], 64, [⟨63, 63, .ro, 0⟩, ⟨59, 40, .ro, 0⟩, ⟨39, 20, .ro, 0⟩, ⟨19, 0, .ro, 0⟩]⟩,
   -- PWR.TOKEPOCH (R446)
   ⟨0x3018, [], 32, countField 32⟩,
   -- PWR.TOKLAST (R446)
   ⟨0x3020, [], 64, [⟨63, 63, .ro, 0⟩, ⟨59, 40, .ro, 0⟩, ⟨39, 20, .ro, 0⟩, ⟨19, 0, .ro, 0⟩]⟩,
   -- PWR.GRANT (R446)
   ⟨0x3030, [], 32, [⟨8, 0, .ro, 0x100⟩]⟩,
   -- PWR.RAMPCYC (R446)
   ⟨0x3038, [], 64, countField 64⟩,
   -- PWR.HINTCNT (R446)
   ⟨0x3040, [], 32, [⟨31, 16, .ro, 0⟩, ⟨15, 0, .ro, 0⟩]⟩,
   -- PWR.GOVTAB0 (R446)
   ⟨0x3100, [], 64, [⟨47, 32, .rwl, 0x690⟩, ⟨31, 16, .rwl, 0x19⟩, ⟨15, 0, .rwl, 0x334⟩]⟩,
   -- PWR.GOVTAB1 (R446)
   ⟨0x3108, [], 64, [⟨47, 32, .rwl, 0x690⟩, ⟨31, 16, .rwl, 0x19⟩, ⟨15, 0, .rwl, 0x2f8⟩]⟩,
   -- PWR.GOVTAB2 (R446)
   ⟨0x3110, [], 64, [⟨47, 32, .rwl, 0x690⟩, ⟨31, 16, .rwl, 0x19⟩, ⟨15, 0, .rwl, 0x2bc⟩]⟩,
   -- PWR.GOVTAB3 (R446)
   ⟨0x3118, [], 64, [⟨47, 32, .rwl, 0x690⟩, ⟨31, 16, .rwl, 0x19⟩, ⟨15, 0, .rwl, 0x299⟩]⟩,
   -- PWR.VIOLCNT (R86)
   ⟨0x3ff0, [], 32, violFields⟩]

/-- Registers of block SEQ. -/
def regsSeq : List RegRow :=
  [
   -- SEQ.PC (R127)
   ⟨0x400000, [(64, 0x10000)], 64, [⟨47, 4, .ro, 0⟩]⟩,
   -- SEQ.CSTAT (R127)
   ⟨0x400008, [(64, 0x10000)], 32, [⟨31, 24, .ro, 0⟩, ⟨23, 16, .ro, 0⟩, ⟨0, 0, .ro, 0⟩]⟩,
   -- SEQ.ISSUED (R127)
   ⟨0x400010, [(64, 0x10000)], 64, countField 64⟩,
   -- SEQ.WAITCYC (R127)
   ⟨0x400018, [(64, 0x10000)], 64, countField 64⟩,
   -- SEQ.VIOLCNT (R86)
   ⟨0x4000f0, [(64, 0x10000)], 32, violFields⟩]

/-- Registers of block MXE. -/
def regsMxe : List RegRow :=
  [
   -- MXE.ESTAT (R186)
   ⟨0x401000, [(64, 0x10000), (16, 0x80)], 32, [⟨31, 31, .ro, 0⟩, ⟨30, 28, .ro, 0⟩, ⟨27, 26, .ro, 0⟩, ⟨25, 24, .ro, 0⟩]⟩,
   -- MXE.SATCNT (R186)
   ⟨0x401008, [(64, 0x10000), (16, 0x80)], 32, countField 32⟩,
   -- MXE.NFCNT (R186)
   ⟨0x40100c, [(64, 0x10000), (16, 0x80)], 32, countField 32⟩,
   -- MXE.MACS (R186)
   ⟨0x401010, [(64, 0x10000), (16, 0x80)], 64, countField 64⟩,
   -- MXE.BUSYCYC (R186)
   ⟨0x401018, [(64, 0x10000), (16, 0x80)], 64, countField 64⟩,
   -- MXE.CHKFAIL (R186)
   ⟨0x401020, [(64, 0x10000), (16, 0x80)], 32, [⟨31, 16, .ro, 0⟩, ⟨15, 0, .ro, 0⟩]⟩,
   -- MXE.CHKCTL (R186)
   ⟨0x401800, [(64, 0x10000)], 32, [⟨4, 0, .rwl, 0xc⟩]⟩,
   -- MXE.CHKLAST (R186)
   ⟨0x401808, [(64, 0x10000)], 64, [⟨63, 63, .w1c, 0⟩, ⟨62, 61, .ro, 0⟩, ⟨60, 57, .ro, 0⟩, ⟨56, 56, .ro, 0⟩, ⟨55, 50, .ro, 0⟩, ⟨47, 0, .ro, 0⟩]⟩,
   -- MXE.TRSAT (R186)
   ⟨0x401810, [(64, 0x10000)], 32, countField 32⟩,
   -- MXE.VIOLCNT (R86)
   ⟨0x401ff0, [(64, 0x10000)], 32, violFields⟩]

/-- Registers of block VEC. -/
def regsVec : List RegRow :=
  [
   -- VEC.ESTAT (R212)
   ⟨0x402000, [(64, 0x10000)], 32, [⟨31, 31, .ro, 0⟩, ⟨30, 28, .ro, 0⟩, ⟨27, 27, .ro, 0⟩]⟩,
   -- VEC.SATCNT (R212)
   ⟨0x402008, [(64, 0x10000)], 32, countField 32⟩,
   -- VEC.NFCNT (R212)
   ⟨0x40200c, [(64, 0x10000)], 32, countField 32⟩,
   -- VEC.STAGEOPS (R212)
   ⟨0x402010, [(64, 0x10000)], 64, countField 64⟩,
   -- VEC.BUSYCYC (R212)
   ⟨0x402018, [(64, 0x10000)], 64, countField 64⟩,
   -- VEC.FROZENCNT (R330)
   ⟨0x402020, [(64, 0x10000)], 32, countField 32⟩,
   -- VEC.UPDSKIP (R330)
   ⟨0x402024, [(64, 0x10000)], 32, countField 32⟩,
   -- VEC.UPDELEMS (R330)
   ⟨0x402028, [(64, 0x10000)], 64, countField 64⟩,
   -- VEC.UPDROWS (R330)
   ⟨0x402030, [(64, 0x10000)], 64, countField 64⟩,
   -- VEC.VIOLCNT (R86)
   ⟨0x402ff0, [(64, 0x10000)], 32, violFields⟩]

/-- Registers of block TRY. -/
def regsTry : List RegRow :=
  [
   -- TRY.STAT (R213)
   ⟨0x403000, [(64, 0x10000)], 32, [⟨23, 16, .ro, 0⟩, ⟨15, 15, .ro, 0⟩, ⟨13, 7, .ro, 0⟩, ⟨6, 0, .ro, 0⟩]⟩,
   -- TRY.PUSHED (R213)
   ⟨0x403008, [(64, 0x10000)], 64, countField 64⟩,
   -- TRY.POPPED (R213)
   ⟨0x403010, [(64, 0x10000)], 64, countField 64⟩,
   -- TRY.FULLCYC (R213)
   ⟨0x403018, [(64, 0x10000)], 64, countField 64⟩,
   -- TRY.EMPTYCYC (R213)
   ⟨0x403020, [(64, 0x10000)], 64, countField 64⟩,
   -- TRY.VIOLCNT (R86)
   ⟨0x403ff0, [(64, 0x10000)], 32, violFields⟩]

/-- Registers of block LDG. -/
def regsLdg : List RegRow :=
  [
   -- LDG.PCTL (R275)
   ⟨0x800000, [(12, 0x10000), (128, 0x40)], 64, [⟨63, 63, .rw, 0⟩, ⟨62, 61, .rw, 1⟩, ⟨60, 60, .rw, 0⟩, ⟨59, 48, .rw, 0⟩, ⟨20, 0, .rw, 0⟩]⟩,
   -- LDG.PFRAME (R275)
   ⟨0x800008, [(12, 0x10000), (128, 0x40)], 64, [⟨51, 21, .rw, 0⟩, ⟨20, 0, .rw, 0⟩]⟩,
   -- LDG.PPACK (R275)
   ⟨0x800010, [(12, 0x10000), (128, 0x40)], 64, [⟨51, 21, .rw, 0⟩, ⟨20, 0, .rw, 0⟩]⟩,
   -- LDG.PSPILL (R275)
   ⟨0x800018, [(12, 0x10000), (128, 0x40)], 64, [⟨51, 21, .rw, 0⟩, ⟨20, 0, .rw, 0⟩]⟩,
   -- LDG.PHOST (R275)
   ⟨0x800020, [(12, 0x10000), (128, 0x40)], 64, [⟨51, 21, .rw, 0⟩, ⟨20, 0, .rw, 0⟩]⟩,
   -- LDG.PPOLICY (R275)
   ⟨0x800028, [(12, 0x10000), (128, 0x40)], 64, [⟨63, 52, .rw, 0⟩, ⟨51, 6, .rw, 0⟩]⟩,
   -- LDG.PDEF (R275)
   ⟨0x800030, [(12, 0x10000), (128, 0x40)], 64, [⟨39, 37, .rw, 0⟩, ⟨36, 29, .rw, 0⟩, ⟨28, 28, .rw, 0⟩]⟩,
   -- LDG.POOLAUD0 (R275)
   ⟨0x802000, [(12, 0x10000), (128, 0x20)], 64, [⟨63, 63, .ro, 0⟩, ⟨52, 32, .ro, 0⟩, ⟨20, 0, .ro, 0⟩]⟩,
   -- LDG.POOLAUD1 (R275)
   ⟨0x802008, [(12, 0x10000), (128, 0x20)], 64, [⟨52, 32, .ro, 0⟩, ⟨20, 0, .ro, 0⟩]⟩,
   -- LDG.POOLAUD2 (R275)
   ⟨0x802010, [(12, 0x10000), (128, 0x20)], 64, [⟨52, 32, .ro, 0⟩, ⟨20, 0, .ro, 0⟩]⟩,
   -- LDG.POOLAUD3 (R275)
   ⟨0x802018, [(12, 0x10000), (128, 0x20)], 64, [⟨52, 32, .ro, 0⟩, ⟨20, 0, .ro, 0⟩]⟩,
   -- LDG.MISS (R275)
   ⟨0x803000, [(12, 0x10000), (128, 0x20)], 32, countField 32⟩,
   -- LDG.STALLCYC (R275)
   ⟨0x803004, [(12, 0x10000), (128, 0x20)], 32, countField 32⟩,
   -- LDG.RAWBYTES (R275)
   ⟨0x803008, [(12, 0x10000), (128, 0x20)], 64, countField 64⟩,
   -- LDG.CODEDBYTES (R275)
   ⟨0x803010, [(12, 0x10000), (128, 0x20)], 64, countField 64⟩,
   -- LDG.DEMOTES (R275)
   ⟨0x803018, [(12, 0x10000), (128, 0x20)], 32, countField 32⟩,
   -- LDG.RCPBASE (R275)
   ⟨0x804000, [(12, 0x10000)], 64, [⟨51, 14, .rw, 0⟩]⟩,
   -- LDG.SHRAUD (R302)
   ⟨0x804100, [(12, 0x10000)], 64, [⟨63, 63, .ro, 0⟩, ⟨62, 62, .ro, 0⟩, ⟨59, 48, .ro, 0⟩, ⟨43, 32, .ro, 0⟩, ⟨13, 0, .rw, 0⟩]⟩,
   -- LDG.SHBASE (R302)
   ⟨0x804108, [(12, 0x10000)], 64, [⟨51, 21, .rw, 0⟩]⟩,
   -- LDG.SHGRAN (R302)
   ⟨0x804110, [(12, 0x10000)], 64, [⟨51, 21, .ro, 0⟩]⟩,
   -- LDG.VIOLCNT (R86)
   ⟨0x804ff0, [(12, 0x10000)], 32, violFields⟩]

/-- Registers of block CDC. -/
def regsCdc : List RegRow :=
  [
   -- CDC.SATCNT (R275)
   ⟨0x808000, [(12, 0x10000)], 32, countField 32⟩,
   -- CDC.NFCNT (R275)
   ⟨0x808004, [(12, 0x10000)], 32, countField 32⟩,
   -- CDC.CRCERR (R275)
   ⟨0x808008, [(12, 0x10000)], 32, countField 32⟩,
   -- CDC.BUSYCYC (R275)
   ⟨0x808010, [(12, 0x10000)], 64, countField 64⟩,
   -- CDC.VIOLCNT (R86)
   ⟨0x808ff0, [(12, 0x10000)], 32, violFields⟩]

/-- Registers of block HBM. -/
def regsHbm : List RegRow :=
  [
   -- HBM.BWSHARE (R301)
   ⟨0x900000, [(64, 8)], 64, [⟨42, 32, .rw, 0⟩, ⟨26, 16, .rw, 0⟩, ⟨10, 0, .rw, 0⟩]⟩,
   -- HBM.VIOLCNT (R86)
   ⟨0x900f00, [], 32, violFields⟩,
   -- HBM.RECAL (R301)
   ⟨0x901000, [(12, 0x40)], 32, [⟨31, 31, .wo, 0⟩, ⟨30, 30, .ro, 0⟩, ⟨29, 29, .rw, 1⟩, ⟨15, 0, .rw, 0x29b⟩]⟩,
   -- HBM.RECALCNT (R301)
   ⟨0x901008, [(12, 0x40)], 32, countField 32⟩]

/-- Registers of block DDR. -/
def regsDdr : List RegRow :=
  [
   -- DDR.CHSTAT (R301)
   ⟨0x902000, [(12, 0x40)], 32, [⟨31, 31, .ro, 0⟩, ⟨30, 30, .ro, 0⟩, ⟨29, 29, .ro, 0⟩, ⟨15, 0, .ro, 0⟩]⟩,
   -- DDR.VIOLCNT (R86)
   ⟨0x902f00, [], 32, violFields⟩]

/-- Registers of block MDL. -/
def regsMdl : List RegRow :=
  [
   -- MDL.PCTL (R370)
   ⟨0xa00000, [(32, 0x100)], 32, [⟨31, 31, .rw, 0⟩, ⟨30, 30, .rwl, 0⟩]⟩,
   -- MDL.PSTAT (R370)
   ⟨0xa00004, [(32, 0x100)], 32, [⟨31, 30, .ro, 0⟩, ⟨29, 29, .ro, 0⟩, ⟨11, 0, .ro, 0⟩]⟩,
   -- MDL.PGRANT (R370)
   ⟨0xa00008, [(32, 0x100)], 64, [⟨55, 42, .rw, 0xf00⟩, ⟨41, 28, .rw, 0x1000⟩, ⟨27, 14, .rw, 0x2000⟩, ⟨13, 0, .rw, 0x100⟩]⟩,
   -- MDL.CREDAUD (R370)
   ⟨0xa00020, [(32, 0x100), (4, 8)], 64, [⟨63, 63, .ro, 0⟩, ⟨55, 42, .ro, 0⟩, ⟨41, 28, .ro, 0⟩, ⟨27, 14, .ro, 0⟩, ⟨13, 0, .ro, 0⟩]⟩,
   -- MDL.PERR (R370)
   ⟨0xa00040, [(32, 0x100)], 64, [⟨63, 48, .ro, 0⟩, ⟨47, 24, .ro, 0⟩, ⟨23, 0, .ro, 0⟩]⟩,
   -- MDL.STORECFG (R370)
   ⟨0xa03000, [], 32, [⟨15, 0, .rw, 0x7d0⟩]⟩,
   -- MDL.VIOLCNT (R86)
   ⟨0xa03f00, [], 32, violFields⟩,
   -- MDL.ROUTE (R370)
   ⟨0xa04000, [(4096, 4)], 32, [⟨31, 31, .rwl, 0⟩, ⟨4, 0, .rwl, 0⟩]⟩]

/-- Registers of block COL. -/
def regsCol : List RegRow :=
  [
   -- COL.CONTRIB0 (R371)
   ⟨0xa08000, [], 64, [⟨63, 52, .ro, 0⟩, ⟨51, 36, .ro, 0⟩, ⟨12, 0, .ro, 0⟩]⟩,
   -- COL.CONTRIB1 (R371)
   ⟨0xa08008, [], 64, countField 64⟩,
   -- COL.CONTRIB2 (R371)
   ⟨0xa08010, [], 64, [⟨47, 0, .ro, 0⟩]⟩,
   -- COL.SATCNT (R371)
   ⟨0xa08020, [], 32, countField 32⟩,
   -- COL.NFCNT (R371)
   ⟨0xa08024, [], 32, countField 32⟩,
   -- COL.VIOLCNT (R86)
   ⟨0xa08f00, [], 32, violFields⟩,
   -- COL.PLANTAB (R371)
   ⟨0xa10000, [(4096, 8)], 64, [⟨47, 12, .rw, 0⟩]⟩]

/-- Registers of block STP. -/
def regsStp : List RegRow :=
  [
   -- STP.ROLE (R372)
   ⟨0xc00000, [], 64, [⟨63, 52, .rwl, 0⟩, ⟨51, 40, .rwl, 0⟩, ⟨39, 38, .rwl, 0⟩, ⟨37, 26, .rwl, 0⟩]⟩,
   -- STP.STEPCNT (R372)
   ⟨0xc00008, [], 64, [⟨55, 48, .ro, 0⟩, ⟨47, 0, .ro, 0⟩]⟩,
   -- STP.VOTECFG (R372)
   ⟨0xc00010, [], 32, [⟨31, 16, .rwl, 0x32⟩, ⟨15, 13, .rwl, 2⟩, ⟨12, 0, .rwl, 1⟩]⟩,
   -- STP.BARCFG (R372)
   ⟨0xc00014, [], 32, [⟨15, 0, .rw, 0x3e8⟩]⟩,
   -- STP.BARGEN (R372)
   ⟨0xc00018, [], 32, [⟨15, 0, .ro, 0⟩]⟩,
   -- STP.MEMBERS (R372)
   ⟨0xc0001c, [], 32, [⟨12, 0, .ro, 0⟩]⟩,
   -- STP.BARAUD (R372)
   ⟨0xc00020, [], 64, [⟨63, 63, .ro, 0⟩, ⟨55, 40, .ro, 0⟩, ⟨20, 14, .ro, 0⟩, ⟨13, 7, .ro, 0⟩, ⟨6, 0, .ro, 0⟩]⟩,
   -- STP.LASTVOTE (R372)
   ⟨0xc00030, [], 64, [⟨63, 56, .ro, 0⟩, ⟨55, 48, .ro, 0⟩, ⟨47, 0, .ro, 0⟩]⟩,
   -- STP.WTAB (R372)
   ⟨0xc00100, [(64, 8)], 64, [⟨63, 63, .ro, 0⟩, ⟨62, 62, .ro, 0⟩, ⟨61, 50, .ro, 0⟩]⟩,
   -- STP.MTAB (R372)
   ⟨0xc00300, [(64, 8)], 64, [⟨63, 63, .ro, 0⟩, ⟨62, 62, .ro, 0⟩, ⟨61, 50, .ro, 0⟩]⟩,
   -- STP.VIOLCNT (R86)
   ⟨0xc00f00, [], 32, violFields⟩]

/-- Registers of block CHK. -/
def regsChk : List RegRow :=
  [
   -- CHK.LEVEL (R398)
   ⟨0xc01000, [(64, 4)], 32, [⟨2, 2, .rw, 0⟩, ⟨1, 0, .rw, 1⟩]⟩,
   -- CHK.STAT (R398)
   ⟨0xc01100, [], 32, [⟨31, 31, .ro, 0⟩, ⟨30, 30, .ro, 0⟩, ⟨15, 0, .ro, 0⟩]⟩,
   -- CHK.WATCH (R398)
   ⟨0xc01104, [], 32, [⟨15, 0, .rwl, 0x40⟩]⟩,
   -- CHK.TESTCFG (R398)
   ⟨0xc01108, [], 32, [⟨15, 0, .rwl, 0xf0⟩]⟩,
   -- CHK.EVENT0 (R398)
   ⟨0xc01110, [], 64, [⟨63, 56, .ro, 0⟩, ⟨55, 52, .ro, 0⟩, ⟨51, 48, .ro, 0⟩, ⟨47, 0, .ro, 0⟩]⟩,
   -- CHK.EVENT1 (R398)
   ⟨0xc01118, [], 64, [⟨63, 58, .ro, 0⟩, ⟨57, 57, .ro, 0⟩, ⟨51, 0, .ro, 0⟩]⟩,
   -- CHK.SHADOWS (R398)
   ⟨0xc01120, [], 64, countField 64⟩,
   -- CHK.SHMISS (R398)
   ⟨0xc01128, [], 32, countField 32⟩,
   -- CHK.MEMERR (R398)
   ⟨0xc01130, [], 64, [⟨63, 48, .ro, 0⟩, ⟨47, 32, .ro, 0⟩, ⟨31, 16, .ro, 0⟩, ⟨15, 0, .ro, 0⟩]⟩,
   -- CHK.SUSPECT (R398)
   ⟨0xc01138, [], 64, [⟨63, 63, .ro, 0⟩, ⟨47, 0, .ro, 0⟩]⟩,
   -- CHK.ENGSTATE (R398)
   ⟨0xc01140, [(64, 4)], 32, countField 32⟩,
   -- CHK.TEST (R398)
   ⟨0xc01240, [(64, 4)], 32, [⟨31, 30, .ro, 1⟩, ⟨15, 0, .ro, 0⟩]⟩,
   -- CHK.VIOLCNT (R86)
   ⟨0xc01f00, [], 32, violFields⟩]

/-- Registers of block SNP. -/
def regsSnp : List RegRow :=
  [
   -- SNP.AREA (R417)
   ⟨0xc02008, [(12, 8)], 64, [⟨51, 21, .rwl, 0⟩, ⟨20, 0, .rwl, 0⟩]⟩,
   -- SNP.EPOCH (R417)
   ⟨0xc02070, [], 64, [⟨63, 63, .ro, 0⟩, ⟨31, 0, .ro, 0⟩]⟩,
   -- SNP.SLOT0 (R417)
   ⟨0xc02080, [(2, 0x10)], 64, [⟨63, 61, .ro, 0⟩, ⟨47, 0, .ro, 0⟩]⟩,
   -- SNP.SLOT1 (R417)
   ⟨0xc02088, [(2, 0x10)], 32, countField 32⟩,
   -- SNP.PROGRESS (R417)
   ⟨0xc020a0, [], 64, countField 64⟩,
   -- SNP.CADENCE (R417)
   ⟨0xc020b0, [], 64, [⟨63, 40, .ro, 0⟩, ⟨39, 16, .ro, 0⟩, ⟨15, 0, .ro, 1⟩]⟩,
   -- SNP.COST (R417)
   ⟨0xc020b8, [], 32, [⟨31, 16, .ro, 0⟩, ⟨15, 0, .ro, 0⟩]⟩,
   -- SNP.RSTAT (R417)
   ⟨0xc020c0, [], 64, [⟨63, 56, .ro, 0⟩, ⟨55, 53, .ro, 0⟩, ⟨52, 52, .ro, 0⟩, ⟨31, 0, .ro, 0⟩]⟩,
   -- SNP.RCURSOR (R417)
   ⟨0xc020c8, [], 64, countField 64⟩,
   -- SNP.RDIGEST (R417)
   ⟨0xc020d0, [(4, 8)], 64, countField 64⟩,
   -- SNP.STQ (R417)
   ⟨0xc020f0, [], 64, [⟨63, 32, .ro, 0⟩, ⟨31, 0, .ro, 0⟩]⟩,
   -- SNP.VIOLCNT (R86)
   ⟨0xc02f00, [], 32, violFields⟩]

/-- Registers of block SEN. -/
def regsSen : List RegRow :=
  [
   -- SEN.CTL (R447)
   ⟨0xd00000, [], 32, [⟨31, 31, .wo, 0⟩]⟩,
   -- SEN.STAT (R447)
   ⟨0xd00004, [], 32, [⟨31, 31, .ro, 0⟩, ⟨27, 16, .ro, 0⟩, ⟨15, 0, .ro, 0⟩]⟩,
   -- SEN.SLOT (R447)
   ⟨0xd00010, [(8, 8)], 32, [⟨31, 31, .rw, 0⟩, ⟨30, 30, .ro, 0⟩, ⟨7, 0, .rw, 1⟩]⟩,
   -- SEN.CH (R447)
   ⟨0xd00100, [(64, 4)], 32, countField 32⟩,
   -- SEN.EVENT (R447)
   ⟨0xd00200, [], 64, [⟨63, 63, .ro, 0⟩, ⟨62, 60, .ro, 0⟩, ⟨59, 56, .ro, 0⟩, ⟨55, 40, .ro, 0⟩, ⟨39, 0, .ro, 0⟩]⟩,
   -- SEN.TRIP (R447)
   ⟨0xd00210, [], 32, [⟨31, 31, .w1c, 0⟩, ⟨28, 24, .ro, 0⟩, ⟨15, 0, .ro, 0⟩]⟩,
   -- SEN.VIOLCNT (R86)
   ⟨0xd00ff0, [], 32, violFields⟩,
   -- SEN.PROG (R447)
   ⟨0xd01000, [(8, 0x100), (64, 4)], 32, [⟨31, 0, .rw, 0⟩]⟩]

/-- Registers of block SEC. -/
def regsSec : List RegRow :=
  [
   -- SEC.IDENT (R474)
   ⟨0xe00000, [(4, 8)], 64, countField 64⟩,
   -- SEC.BLOBSTAT (R474)
   ⟨0xe00020, [], 32, [⟨31, 31, .ro, 0⟩, ⟨23, 16, .ro, 0⟩, ⟨15, 0, .ro, 0⟩]⟩,
   -- SEC.BLOBDIG (R474)
   ⟨0xe00040, [(4, 8)], 64, countField 64⟩,
   -- SEC.VIOLCNT (R86)
   ⟨0xe00f00, [], 32, violFields⟩]

/-- Registers of block HIF. -/
def regsHif : List RegRow :=
  [
   -- HIF.BOOTSTAT (R474)
   ⟨0xe10000, [], 32, [⟨31, 28, .ro, 0⟩, ⟨27, 26, .ro, 0⟩, ⟨25, 25, .ro, 0⟩, ⟨24, 24, .ro, 0⟩]⟩,
   -- HIF.FWVER (R474)
   ⟨0xe10004, [], 32, [⟨23, 0, .ro, 0⟩]⟩,
   -- HIF.PUSHADDR (R474)
   ⟨0xe10020, [], 64, [⟨50, 12, .rw, 0⟩]⟩,
   -- HIF.PUSHCTL (R474)
   ⟨0xe10028, [], 32, [⟨31, 31, .wo, 0⟩, ⟨10, 0, .rw, 0⟩]⟩,
   -- HIF.HDMWIN (R474)
   ⟨0xe10030, [], 64, [⟨63, 63, .rwl, 0⟩, ⟨51, 28, .rwl, 0⟩, ⟨11, 0, .rwl, 0⟩]⟩,
   -- HIF.CACHEWIN0 (R474)
   ⟨0xe10040, [(8, 0x10)], 64, [⟨63, 63, .rw, 0⟩, ⟨50, 12, .rw, 0⟩]⟩,
   -- HIF.CACHEWIN1 (R474)
   ⟨0xe10048, [(8, 0x10)], 64, [⟨38, 0, .rw, 0⟩]⟩,
   -- HIF.IRQCTL (R474)
   ⟨0xe100c0, [], 32, [⟨31, 31, .rw, 0⟩, ⟨30, 30, .rw, 0⟩]⟩,
   -- HIF.RESET (R474)
   ⟨0xe100d0, [], 32, [⟨31, 31, .wo, 0⟩, ⟨30, 30, .wo, 0⟩]⟩,
   -- HIF.COREVER (R474)
   ⟨0xe10100, [(8, 4)], 32, [⟨31, 31, .ro, 0⟩, ⟨30, 30, .ro, 0⟩, ⟨23, 0, .ro, 0⟩]⟩,
   -- HIF.VIOLCNT (R86)
   ⟨0xe10f00, [], 32, violFields⟩]

/-- Registers of block MGT. -/
def regsMgt : List RegRow :=
  [
   -- MGT.CTL (R474)
   ⟨0xe20000, [], 32, [⟨31, 31, .wo, 0⟩, ⟨30, 30, .rw, 0⟩, ⟨6, 0, .rw, 0x32⟩]⟩,
   -- MGT.VIOLCNT (R86)
   ⟨0xe20f00, [], 32, violFields⟩]

namespace Reg

/-- CFG.IDENT -/
def cfgIdent : Nat := 0
/-- CFG.HLTHBASE -/
def cfgHlthbase : Nat := 0x100
/-- CFG.VIOLCNT -/
def cfgViolcnt : Nat := 0xf00
/-- CTX.VIOLCNT -/
def ctxViolcnt : Nat := 0xf04
/-- QUE.VIOLCNT -/
def queViolcnt : Nat := 0xf08
/-- CFG.PARTMAP -/
def cfgPartmap (i : Nat) : Nat := 0x1000 + 0x10 * i
/-- CFG.PARTCTL -/
def cfgPartctl (i : Nat) : Nat := 0x1008 + 0x10 * i
/-- CFG.PARTEMU -/
def cfgPartemu (i : Nat) : Nat := 0x100c + 0x10 * i
/-- CLK.STAT -/
def clkStat : Nat := 0x2000
/-- CLK.DROOPCFG -/
def clkDroopcfg : Nat := 0x2008
/-- CLK.DROOPCNT -/
def clkDroopcnt (i : Nat) : Nat := 0x2010 + 0x10 * i
/-- CLK.STRETCH -/
def clkStretch (i : Nat) : Nat := 0x2018 + 0x10 * i
/-- CLK.VIOLCNT -/
def clkViolcnt : Nat := 0x2ff0
/-- PWR.OPSET -/
def pwrOpset : Nat := 0x3000
/-- PWR.CAP -/
def pwrCap : Nat := 0x3004
/-- PWR.STAT -/
def pwrStat : Nat := 0x3008
/-- PWR.POWER -/
def pwrPower : Nat := 0x300c
/-- PWR.TOKAUD -/
def pwrTokaud : Nat := 0x3010
/-- PWR.TOKEPOCH -/
def pwrTokepoch : Nat := 0x3018
/-- PWR.TOKLAST -/
def pwrToklast : Nat := 0x3020
/-- PWR.GRANT -/
def pwrGrant : Nat := 0x3030
/-- PWR.RAMPCYC -/
def pwrRampcyc : Nat := 0x3038
/-- PWR.HINTCNT -/
def pwrHintcnt : Nat := 0x3040
/-- PWR.VIOLCNT -/
def pwrViolcnt : Nat := 0x3ff0
/-- CTX.CTL -/
def ctxCtl (i : Nat) : Nat := 0x100000 + 0x100 * i
/-- CTX.STAT -/
def ctxStat (i : Nat) : Nat := 0x100004 + 0x100 * i
/-- CTX.PTBASE -/
def ctxPtbase (i : Nat) : Nat := 0x100008 + 0x100 * i
/-- CTX.DESCBASE -/
def ctxDescbase (i : Nat) : Nat := 0x100010 + 0x100 * i
/-- CTX.COCOON -/
def ctxCocoon (i : Nat) : Nat := 0x100018 + 0x100 * i
/-- CTX.ETMXE -/
def ctxEtmxe (i : Nat) : Nat := 0x100020 + 0x100 * i
/-- CTX.ETVEC -/
def ctxEtvec (i : Nat) : Nat := 0x100028 + 0x100 * i
/-- CTX.ETLDG -/
def ctxEtldg (i : Nat) : Nat := 0x100030 + 0x100 * i
/-- CTX.ETCOL -/
def ctxEtcol (i : Nat) : Nat := 0x100038 + 0x100 * i
/-- CTX.PREEMPTS -/
def ctxPreempts (i : Nat) : Nat := 0x100040 + 0x100 * i
/-- CTX.LASTPRE -/
def ctxLastpre (i : Nat) : Nat := 0x100044 + 0x100 * i
/-- QUE.CTL -/
def queCtl (i : Nat) : Nat := 0x200000 + 0x40 * i
/-- QUE.BASE -/
def queBase (i : Nat) : Nat := 0x200008 + 0x40 * i
/-- QUE.CPLBASE -/
def queCplbase (i : Nat) : Nat := 0x200010 + 0x40 * i
/-- QUE.PTR -/
def quePtr (i : Nat) : Nat := 0x200018 + 0x40 * i
/-- QUE.CPLPTR -/
def queCplptr (i : Nat) : Nat := 0x20001c + 0x40 * i
/-- SEQ.PC -/
def seqPc (i : Nat) : Nat := 0x400000 + 0x10000 * i
/-- SEQ.CSTAT -/
def seqCstat (i : Nat) : Nat := 0x400008 + 0x10000 * i
/-- SEQ.ISSUED -/
def seqIssued (i : Nat) : Nat := 0x400010 + 0x10000 * i
/-- SEQ.WAITCYC -/
def seqWaitcyc (i : Nat) : Nat := 0x400018 + 0x10000 * i
/-- SEQ.VIOLCNT -/
def seqViolcnt (i : Nat) : Nat := 0x4000f0 + 0x10000 * i
/-- MXE.ESTAT -/
def mxeEstat (i j : Nat) : Nat := 0x401000 + 0x10000 * i + 0x80 * j
/-- MXE.SATCNT -/
def mxeSatcnt (i j : Nat) : Nat := 0x401008 + 0x10000 * i + 0x80 * j
/-- MXE.NFCNT -/
def mxeNfcnt (i j : Nat) : Nat := 0x40100c + 0x10000 * i + 0x80 * j
/-- MXE.MACS -/
def mxeMacs (i j : Nat) : Nat := 0x401010 + 0x10000 * i + 0x80 * j
/-- MXE.BUSYCYC -/
def mxeBusycyc (i j : Nat) : Nat := 0x401018 + 0x10000 * i + 0x80 * j
/-- MXE.CHKFAIL -/
def mxeChkfail (i j : Nat) : Nat := 0x401020 + 0x10000 * i + 0x80 * j
/-- MXE.CHKCTL -/
def mxeChkctl (i : Nat) : Nat := 0x401800 + 0x10000 * i
/-- MXE.CHKLAST -/
def mxeChklast (i : Nat) : Nat := 0x401808 + 0x10000 * i
/-- MXE.TRSAT -/
def mxeTrsat (i : Nat) : Nat := 0x401810 + 0x10000 * i
/-- MXE.VIOLCNT -/
def mxeViolcnt (i : Nat) : Nat := 0x401ff0 + 0x10000 * i
/-- VEC.ESTAT -/
def vecEstat (i : Nat) : Nat := 0x402000 + 0x10000 * i
/-- VEC.SATCNT -/
def vecSatcnt (i : Nat) : Nat := 0x402008 + 0x10000 * i
/-- VEC.NFCNT -/
def vecNfcnt (i : Nat) : Nat := 0x40200c + 0x10000 * i
/-- VEC.STAGEOPS -/
def vecStageops (i : Nat) : Nat := 0x402010 + 0x10000 * i
/-- VEC.BUSYCYC -/
def vecBusycyc (i : Nat) : Nat := 0x402018 + 0x10000 * i
/-- VEC.FROZENCNT -/
def vecFrozencnt (i : Nat) : Nat := 0x402020 + 0x10000 * i
/-- VEC.UPDSKIP -/
def vecUpdskip (i : Nat) : Nat := 0x402024 + 0x10000 * i
/-- VEC.UPDELEMS -/
def vecUpdelems (i : Nat) : Nat := 0x402028 + 0x10000 * i
/-- VEC.UPDROWS -/
def vecUpdrows (i : Nat) : Nat := 0x402030 + 0x10000 * i
/-- VEC.VIOLCNT -/
def vecViolcnt (i : Nat) : Nat := 0x402ff0 + 0x10000 * i
/-- TRY.STAT -/
def tryStat (i : Nat) : Nat := 0x403000 + 0x10000 * i
/-- TRY.PUSHED -/
def tryPushed (i : Nat) : Nat := 0x403008 + 0x10000 * i
/-- TRY.POPPED -/
def tryPopped (i : Nat) : Nat := 0x403010 + 0x10000 * i
/-- TRY.FULLCYC -/
def tryFullcyc (i : Nat) : Nat := 0x403018 + 0x10000 * i
/-- TRY.EMPTYCYC -/
def tryEmptycyc (i : Nat) : Nat := 0x403020 + 0x10000 * i
/-- TRY.VIOLCNT -/
def tryViolcnt (i : Nat) : Nat := 0x403ff0 + 0x10000 * i
/-- LDG.PCTL -/
def ldgPctl (i j : Nat) : Nat := 0x800000 + 0x10000 * i + 0x40 * j
/-- LDG.PFRAME -/
def ldgPframe (i j : Nat) : Nat := 0x800008 + 0x10000 * i + 0x40 * j
/-- LDG.PPACK -/
def ldgPpack (i j : Nat) : Nat := 0x800010 + 0x10000 * i + 0x40 * j
/-- LDG.PSPILL -/
def ldgPspill (i j : Nat) : Nat := 0x800018 + 0x10000 * i + 0x40 * j
/-- LDG.PHOST -/
def ldgPhost (i j : Nat) : Nat := 0x800020 + 0x10000 * i + 0x40 * j
/-- LDG.PPOLICY -/
def ldgPpolicy (i j : Nat) : Nat := 0x800028 + 0x10000 * i + 0x40 * j
/-- LDG.PDEF -/
def ldgPdef (i j : Nat) : Nat := 0x800030 + 0x10000 * i + 0x40 * j
/-- LDG.POOLAUD0 -/
def ldgPoolaud0 (i j : Nat) : Nat := 0x802000 + 0x10000 * i + 0x20 * j
/-- LDG.POOLAUD1 -/
def ldgPoolaud1 (i j : Nat) : Nat := 0x802008 + 0x10000 * i + 0x20 * j
/-- LDG.POOLAUD2 -/
def ldgPoolaud2 (i j : Nat) : Nat := 0x802010 + 0x10000 * i + 0x20 * j
/-- LDG.POOLAUD3 -/
def ldgPoolaud3 (i j : Nat) : Nat := 0x802018 + 0x10000 * i + 0x20 * j
/-- LDG.MISS -/
def ldgMiss (i j : Nat) : Nat := 0x803000 + 0x10000 * i + 0x20 * j
/-- LDG.STALLCYC -/
def ldgStallcyc (i j : Nat) : Nat := 0x803004 + 0x10000 * i + 0x20 * j
/-- LDG.RAWBYTES -/
def ldgRawbytes (i j : Nat) : Nat := 0x803008 + 0x10000 * i + 0x20 * j
/-- LDG.CODEDBYTES -/
def ldgCodedbytes (i j : Nat) : Nat := 0x803010 + 0x10000 * i + 0x20 * j
/-- LDG.DEMOTES -/
def ldgDemotes (i j : Nat) : Nat := 0x803018 + 0x10000 * i + 0x20 * j
/-- LDG.RCPBASE -/
def ldgRcpbase (i : Nat) : Nat := 0x804000 + 0x10000 * i
/-- LDG.SHRAUD -/
def ldgShraud (i : Nat) : Nat := 0x804100 + 0x10000 * i
/-- LDG.SHBASE -/
def ldgShbase (i : Nat) : Nat := 0x804108 + 0x10000 * i
/-- LDG.SHGRAN -/
def ldgShgran (i : Nat) : Nat := 0x804110 + 0x10000 * i
/-- LDG.VIOLCNT -/
def ldgViolcnt (i : Nat) : Nat := 0x804ff0 + 0x10000 * i
/-- CDC.SATCNT -/
def cdcSatcnt (i : Nat) : Nat := 0x808000 + 0x10000 * i
/-- CDC.NFCNT -/
def cdcNfcnt (i : Nat) : Nat := 0x808004 + 0x10000 * i
/-- CDC.CRCERR -/
def cdcCrcerr (i : Nat) : Nat := 0x808008 + 0x10000 * i
/-- CDC.BUSYCYC -/
def cdcBusycyc (i : Nat) : Nat := 0x808010 + 0x10000 * i
/-- CDC.VIOLCNT -/
def cdcViolcnt (i : Nat) : Nat := 0x808ff0 + 0x10000 * i
/-- HBM.BWSHARE -/
def hbmBwshare (i : Nat) : Nat := 0x900000 + 8 * i
/-- HBM.VIOLCNT -/
def hbmViolcnt : Nat := 0x900f00
/-- HBM.RECAL -/
def hbmRecal (i : Nat) : Nat := 0x901000 + 0x40 * i
/-- HBM.RECALCNT -/
def hbmRecalcnt (i : Nat) : Nat := 0x901008 + 0x40 * i
/-- DDR.CHSTAT -/
def ddrChstat (i : Nat) : Nat := 0x902000 + 0x40 * i
/-- DDR.VIOLCNT -/
def ddrViolcnt : Nat := 0x902f00
/-- MDL.PCTL -/
def mdlPctl (i : Nat) : Nat := 0xa00000 + 0x100 * i
/-- MDL.PSTAT -/
def mdlPstat (i : Nat) : Nat := 0xa00004 + 0x100 * i
/-- MDL.PGRANT -/
def mdlPgrant (i : Nat) : Nat := 0xa00008 + 0x100 * i
/-- MDL.CREDAUD -/
def mdlCredaud (i j : Nat) : Nat := 0xa00020 + 0x100 * i + 8 * j
/-- MDL.PERR -/
def mdlPerr (i : Nat) : Nat := 0xa00040 + 0x100 * i
/-- MDL.STORECFG -/
def mdlStorecfg : Nat := 0xa03000
/-- MDL.VIOLCNT -/
def mdlViolcnt : Nat := 0xa03f00
/-- MDL.ROUTE -/
def mdlRoute (i : Nat) : Nat := 0xa04000 + 4 * i
/-- COL.CONTRIB0 -/
def colContrib0 : Nat := 0xa08000
/-- COL.CONTRIB1 -/
def colContrib1 : Nat := 0xa08008
/-- COL.CONTRIB2 -/
def colContrib2 : Nat := 0xa08010
/-- COL.SATCNT -/
def colSatcnt : Nat := 0xa08020
/-- COL.NFCNT -/
def colNfcnt : Nat := 0xa08024
/-- COL.VIOLCNT -/
def colViolcnt : Nat := 0xa08f00
/-- COL.PLANTAB -/
def colPlantab (i : Nat) : Nat := 0xa10000 + 8 * i
/-- STP.ROLE -/
def stpRole : Nat := 0xc00000
/-- STP.STEPCNT -/
def stpStepcnt : Nat := 0xc00008
/-- STP.VOTECFG -/
def stpVotecfg : Nat := 0xc00010
/-- STP.BARCFG -/
def stpBarcfg : Nat := 0xc00014
/-- STP.BARGEN -/
def stpBargen : Nat := 0xc00018
/-- STP.MEMBERS -/
def stpMembers : Nat := 0xc0001c
/-- STP.BARAUD -/
def stpBaraud : Nat := 0xc00020
/-- STP.LASTVOTE -/
def stpLastvote : Nat := 0xc00030
/-- STP.WTAB -/
def stpWtab (i : Nat) : Nat := 0xc00100 + 8 * i
/-- STP.MTAB -/
def stpMtab (i : Nat) : Nat := 0xc00300 + 8 * i
/-- STP.VIOLCNT -/
def stpViolcnt : Nat := 0xc00f00
/-- CHK.LEVEL -/
def chkLevel (i : Nat) : Nat := 0xc01000 + 4 * i
/-- CHK.STAT -/
def chkStat : Nat := 0xc01100
/-- CHK.WATCH -/
def chkWatch : Nat := 0xc01104
/-- CHK.TESTCFG -/
def chkTestcfg : Nat := 0xc01108
/-- CHK.EVENT0 -/
def chkEvent0 : Nat := 0xc01110
/-- CHK.EVENT1 -/
def chkEvent1 : Nat := 0xc01118
/-- CHK.SHADOWS -/
def chkShadows : Nat := 0xc01120
/-- CHK.SHMISS -/
def chkShmiss : Nat := 0xc01128
/-- CHK.MEMERR -/
def chkMemerr : Nat := 0xc01130
/-- CHK.SUSPECT -/
def chkSuspect : Nat := 0xc01138
/-- CHK.ENGSTATE -/
def chkEngstate (i : Nat) : Nat := 0xc01140 + 4 * i
/-- CHK.TEST -/
def chkTest (i : Nat) : Nat := 0xc01240 + 4 * i
/-- CHK.VIOLCNT -/
def chkViolcnt : Nat := 0xc01f00
/-- SNP.AREA -/
def snpArea (i : Nat) : Nat := 0xc02008 + 8 * i
/-- SNP.EPOCH -/
def snpEpoch : Nat := 0xc02070
/-- SNP.SLOT0 -/
def snpSlot0 (i : Nat) : Nat := 0xc02080 + 0x10 * i
/-- SNP.SLOT1 -/
def snpSlot1 (i : Nat) : Nat := 0xc02088 + 0x10 * i
/-- SNP.PROGRESS -/
def snpProgress : Nat := 0xc020a0
/-- SNP.CADENCE -/
def snpCadence : Nat := 0xc020b0
/-- SNP.COST -/
def snpCost : Nat := 0xc020b8
/-- SNP.RSTAT -/
def snpRstat : Nat := 0xc020c0
/-- SNP.RCURSOR -/
def snpRcursor : Nat := 0xc020c8
/-- SNP.RDIGEST -/
def snpRdigest (i : Nat) : Nat := 0xc020d0 + 8 * i
/-- SNP.STQ -/
def snpStq : Nat := 0xc020f0
/-- SNP.VIOLCNT -/
def snpViolcnt : Nat := 0xc02f00
/-- SEN.CTL -/
def senCtl : Nat := 0xd00000
/-- SEN.STAT -/
def senStat : Nat := 0xd00004
/-- SEN.SLOT -/
def senSlot (i : Nat) : Nat := 0xd00010 + 8 * i
/-- SEN.CH -/
def senCh (i : Nat) : Nat := 0xd00100 + 4 * i
/-- SEN.EVENT -/
def senEvent : Nat := 0xd00200
/-- SEN.TRIP -/
def senTrip : Nat := 0xd00210
/-- SEN.VIOLCNT -/
def senViolcnt : Nat := 0xd00ff0
/-- SEN.PROG -/
def senProg (i j : Nat) : Nat := 0xd01000 + 0x100 * i + 4 * j
/-- SEC.IDENT -/
def secIdent (i : Nat) : Nat := 0xe00000 + 8 * i
/-- SEC.BLOBSTAT -/
def secBlobstat : Nat := 0xe00020
/-- SEC.BLOBDIG -/
def secBlobdig (i : Nat) : Nat := 0xe00040 + 8 * i
/-- SEC.VIOLCNT -/
def secViolcnt : Nat := 0xe00f00
/-- HIF.BOOTSTAT -/
def hifBootstat : Nat := 0xe10000
/-- HIF.FWVER -/
def hifFwver : Nat := 0xe10004
/-- HIF.PUSHADDR -/
def hifPushaddr : Nat := 0xe10020
/-- HIF.PUSHCTL -/
def hifPushctl : Nat := 0xe10028
/-- HIF.HDMWIN -/
def hifHdmwin : Nat := 0xe10030
/-- HIF.CACHEWIN0 -/
def hifCachewin0 (i : Nat) : Nat := 0xe10040 + 0x10 * i
/-- HIF.CACHEWIN1 -/
def hifCachewin1 (i : Nat) : Nat := 0xe10048 + 0x10 * i
/-- HIF.IRQCTL -/
def hifIrqctl : Nat := 0xe100c0
/-- HIF.RESET -/
def hifReset : Nat := 0xe100d0
/-- HIF.COREVER -/
def hifCorever (i : Nat) : Nat := 0xe10100 + 4 * i
/-- HIF.VIOLCNT -/
def hifViolcnt : Nat := 0xe10f00
/-- MGT.CTL -/
def mgtCtl : Nat := 0xe20000
/-- MGT.VIOLCNT -/
def mgtViolcnt : Nat := 0xe20f00
/-- PWR.GOVTAB -/
def pwrGovtab (i : Nat) : Nat := 0x3100 + 8 * i

end Reg

/-- The rows among which an offset is looked up, by the block ranges of the register tables. -/
def regRows (off : Nat) : List RegRow :=
  if off < 0x2000 then regsCfg ++ regsCtx.filter (fun r => r.base == 0xf04) ++ regsQue.filter (fun r => r.base == 0xf08)
  else if off < 0x3000 then regsClk
  else if off < 0x4000 then regsPwr
  else if off < 0x100000 then []
  else if off < 0x200000 then regsCtx
  else if off < 0x400000 then regsQue
  else if off < 0x800000 then
    let o := off % 0x10000
    if o < 0x1000 then regsSeq else if o < 0x2000 then regsMxe else if o < 0x3000 then regsVec
    else if o < 0x4000 then regsTry else []
  else if off < 0x900000 then (if off % 0x10000 < 0x8000 then regsLdg else regsCdc)
  else if off < 0x902000 then regsHbm
  else if off < 0xa00000 then regsDdr
  else if off < 0xa08000 then regsMdl
  else if off < 0xc00000 then regsCol
  else if off < 0xc01000 then regsStp
  else if off < 0xc02000 then regsChk
  else if off < 0xd00000 then regsSnp
  else if off < 0xe00000 then regsSen
  else if off < 0xe10000 then regsSec
  else if off < 0xe20000 then regsHif
  else regsMgt

/-- The register that starts at an offset of BAR0. -/
def regAt (off : Nat) : Option RegRow := RegRow.at? (regRows off) off

/-- The reset value of the register at an offset. -/
def regReset (off : Nat) : Nat :=
  match regAt off with
  | some r => r.resetVal
  | none => 0

/-- Does a cluster's block of `n` bytes from `base` on hold the offset, or is it that of its VIOLCNT (R186, R212, R213)? -/
def inBlock (o base n : Nat) : Bool :=
  (decide (base ≤ o) && decide (o < base + n)) || (decide (base + 0xFF0 ≤ o) && decide (o < base + 0x1000))

/-- The VIOLCNT of the block that owns an address, or none where no block's range holds it (R17, R86, R451). The ranges are
those that the register tables span; in a stack's window (R275) the LDG registers lie below 8000h and the CDC registers from
there on (log 85). -/
def ownerViol (off : Nat) : Option Nat :=
  if 0xF04 ≤ off ∧ off < 0xF08 then some Reg.ctxViolcnt
  else if 0xF08 ≤ off ∧ off < 0xF0C then some Reg.queViolcnt
  else if off < 0x2000 then some Reg.cfgViolcnt
  else if off < 0x3000 then some Reg.clkViolcnt
  else if off < 0x4000 then some Reg.pwrViolcnt
  else if off < 0x100000 then none
  else if off < 0x200000 then some Reg.ctxViolcnt
  else if off < 0x400000 then some Reg.queViolcnt
  else if off < 0x800000 then
    let g := (off - 0x400000) / 0x10000
    let o := off % 0x10000
    if o < 0x100 then some (Reg.seqViolcnt g)
    else if inBlock o 0x1000 0x900 then some (Reg.mxeViolcnt g)
    else if inBlock o 0x2000 0x100 then some (Reg.vecViolcnt g)
    else if inBlock o 0x3000 0x100 then some (Reg.tryViolcnt g)
    else none
  else if off < 0x8c0000 then
    let t := (off - 0x800000) / 0x10000
    let o := off % 0x10000
    if o < 0x8000 then some (Reg.ldgViolcnt t)
    else some (Reg.cdcViolcnt t)
  else if off < 0x900000 then none
  else if off < 0x902000 then some Reg.hbmViolcnt
  else if off < 0x903000 then some Reg.ddrViolcnt
  else if off < 0xa00000 then none
  else if off < 0xa08000 then some Reg.mdlViolcnt
  else if off < 0xa09000 then some Reg.colViolcnt
  else if off < 0xa10000 then none
  else if off < 0xa18000 then some Reg.colViolcnt
  else if off < 0xc00000 then none
  else if off < 0xc01000 then some Reg.stpViolcnt
  else if off < 0xc02000 then some Reg.chkViolcnt
  else if off < 0xc03000 then some Reg.snpViolcnt
  else if off < 0xd00000 then none
  else if off < 0xd02000 then some Reg.senViolcnt
  else if off < 0xe00000 then none
  else if off < 0xe01000 then some Reg.secViolcnt
  else if off < 0xe10000 then none
  else if off < 0xe11000 then some Reg.hifViolcnt
  else if off < 0xe20000 then none
  else if off < 0xe21000 then some Reg.mgtViolcnt
  else none

/-- Is the offset that of a VIOLCNT? -/
def isViol (off : Nat) : Bool :=
  off == Reg.ctxViolcnt || off == Reg.queViolcnt || ownerViol off == some off

end Sys2Proof
end

