-- ==== Sys2Proof/Machine/SnapTypes.lean ====
section
/-! DEFINITION. The pieces of state of the snapshot mover that are not registers (14). -/

set_option Elab.async false

namespace Sys2Proof

namespace Machine

/-- An object of a slot (R399, R408): its number, manifest FLAGS with REFCNT, length, base and plaintext digest. A SHARED
object keeps no bytes. -/
structure SnapObj where
  no : Nat
  flags : Nat
  len : Nat
  base : Nat
  data : Memory 8
  digest : List Byte
  deriving DecidableEq, Repr

/-- A store transaction outstanding, by its XID (R365, R367): its port, the request packet's operation and store header
with its data, how often it has been repeated, and its place in the order in which requests were last sent. -/
structure Txn where
  port : Nat
  op : Nat
  /-- slot that drains, for SWRITE and SMANIFEST -/
  slot : Nat
  request : List Byte
  /-- bytes of data of the object that it writes -/
  size : Nat
  repeats : Nat
  sent : Nat
  deriving DecidableEq, Repr

/-- A drain in progress: its SNAPDRAIN, and the writes that have not been sent (object, offset and bytes). -/
structure Drain where
  cmd : Cmd
  todo : List (Nat × Nat × List Byte)
  /-- 0 objects and the manifest's body; 1 the header has been sent -/
  stage : Nat
  deriving DecidableEq, Repr

/-- A take in progress: its SNAPTAKE, epoch and sample, and the entries of its list (object, base, length, flags). -/
structure Take where
  cmd : Cmd
  epoch : Nat
  sample : Nat
  entries : List (Nat × Nat × Nat × Nat)
  deriving DecidableEq, Repr

/-- A restore in progress (R412): its RESTORE and epoch; the manifest read so far; the record to restore next and the bytes
of its object; the digests of replicated records; the device state block; the health slots, which are written last; and whether
every object is in place. -/
structure Restore where
  cmd : Cmd
  epoch : Nat
  manifest : List Byte
  next : Nat
  buf : List Byte
  digests : List Byte
  block : List Byte
  health : List Byte
  ready : Bool
  deriving DecidableEq, Repr

/-- A request that waits for a store port with room (R367): a query's, or a read of a restore (epoch, object, offset, bytes). -/
inductive StoreAsk where
  | query (cmd : Cmd)
  | read (epoch obj off n : Nat)
  deriving DecidableEq, Repr

/-- The snapshot mover beyond its registers. -/
structure Snp where
  /-- objects by slot -/
  slots : Tab (List SnapObj)
  takes : Tab Take
  drains : Tab Drain
  restore : Option Restore
  /-- STQUERYs by XID -/
  queries : Tab Cmd
  txns : Tab Txn
  /-- requests that wait for a port with room, first in, first out -/
  asks : List StoreAsk
  nextXid : Nat
  /-- mean durations of the last takes and drains in µs, once there was one, and the RESTART answers received (R410) -/
  takeUs : Option Nat
  drainUs : Option Nat
  restarts : Nat
  deriving DecidableEq, Repr

def Snp.init : Snp := ⟨[], [], [], none, [], [], [], 0, none, none, 0⟩

end Machine

end Sys2Proof
end

