-- ==== Sys2Proof/Machine/State.lean ====
section
/-! DEFINITION. The state of the device as plain data, its reset, and the reasons a step could stop. -/

set_option Elab.async false

namespace Sys2Proof

namespace Machine

/-- A shared-table entry in use (R290): the granule's address and its reference count. The attachment map lies in HBM. -/
structure SharedEntry where
  gran : Nat
  count : BitVec 12
  deriving DecidableEq, Repr

/-- A record of the CHK event queue (R374, R398). -/
structure FaultRec where
  status : Nat
  source : Nat
  unit : Nat
  step : Nat
  loc : Nat
  fault : Bool
  addr : Nat
  deriving DecidableEq, Repr

/-- A source unit with one event of sources 2h–7h and the LAUNCH completions left (R385). -/
structure OneEvent where
  source : Nat
  unit : Nat
  loc : Nat
  /-- `loc` names a cluster -/
  cluster : Bool
  /-- partition whose LAUNCH completions count; none: any -/
  part : Option Nat
  left : Nat
  deriving DecidableEq, Repr

/-- Checking and test (13). -/
structure Chk where
  events : List FaultRec
  once : List OneEvent
  /-- watch counts of engines in WATCH, by 16g + e (R384) -/
  watch : Tab Nat
  /-- checking level in force per partition: that of its last step boundary (R380, R40) -/
  levels : Tab Nat
  /-- rotating spare per partition (R394) -/
  spares : Tab Nat
  /-- partitions whose spare was removed, with the removed cluster (R394) -/
  removed : Tab Nat
  /-- spares whose test has passed, so that the spare moves at the next step boundary -/
  spareTested : List Nat
  /-- clusters whose overdue test is forced at the next yield point (R393) -/
  forced : List Nat
  /-- SELFTEST commands in progress, and the CLTEST commands that wait for each cluster's test (R396) -/
  selftest : List Cmd
  cltests : Tab (List Cmd)
  /-- steps held SUSPECT, and FAULT (R375) -/
  suspects : List Nat
  fault : Bool
  /-- step of the job's open window: its latest LAUNCH (R375) -/
  openStep : Option Nat
  deriving DecidableEq, Repr

def Chk.init : Chk := ⟨[], [], [], [], [], [], [], [], [], [], [], false, none⟩

/-- Pins (R480): levels of the inputs, and the outputs as asserted or not. -/
structure Pins where
  pwrgood : Bool
  resetN : Bool
  bootsrc : Nat
  caplimN : Bool
  senWake : Bool
  /-- THERMTRIP_N asserted -/
  thermtrip : Bool
  /-- every supply is in tolerance as the sentinel senses it (R488) -/
  supplies : Bool
  /-- VIO is applied: the device takes notice of its other inputs (R486, log 122) -/
  vio : Bool
  /-- TDO; none while it is high-impedance (R488) -/
  tdo : Option Bool
  /-- level of TCK, and the state of the TAP controller (R480; log 5) -/
  tck : Bool
  tap : Nat
  deriving DecidableEq, Repr

/-- The pins before power-up (log 4): the inputs at the levels of an unpowered board, with CAPLIM_N not asserted; the TAP in
Test-Logic-Reset, where TRST_N's pull-down puts it. -/
def Pins.init : Pins := ⟨false, false, 0, true, false, false, false, false, none, false, 0⟩

/-- An MSI-X table entry (R450): message address, message data, vector control. -/
structure Msix where
  addr : Nat
  data : Nat
  masked : Bool
  deriving DecidableEq, Repr

/-- Recalibration of a stack (R300): the group whose window is open, the windows of a NOW still to open, and the group next in
the rotation. -/
structure Recal where
  group : Option Nat
  left : Nat
  next : Nat
  deriving DecidableEq, Repr

/-- The state of the device. Registers lie in one store keyed by BAR0 offset, which lists those that differ from their
reset value or have been written; the other fields are the state that no register shows. -/
structure State where
  /-- registers by BAR0 offset; an offset not listed holds its reset value (R16) -/
  regs : Tab RegVal
  /-- bytes of device physical space as their writer gave them (R277) -/
  mem : Memory 8
  /-- for each 16-byte block of memory, by its address divided by 16: the key it is under (R295, R296) -/
  memKey : Tab Nat
  /-- stretches that hold bytes of open values (R75, R259, R404) -/
  veils : List Veil
  /-- cached level-2 entries by granule number (R282), of each cache and context: 4096 × cache + context -/
  caches : Tab (Tab Nat)
  /-- how often the contents of HBM and of DDR5 have been lost (R430, R435, R458) -/
  hbmLost : Nat
  ddrLost : Nat
  ctxs : Tab Ctx
  queues : Tab Queue
  cls : Tab Cluster
  /-- instructions in flight by number, and the next number -/
  flights : Tab Flight
  nextFlight : Nat
  /-- boot epoch of the key derivation (R463) -/
  bootEpoch : Nat
  /-- shared table of each stack: entries in use by index (R290) -/
  shared : Tab (Tab SharedEntry)
  /-- ledger pools by ID (R253), and the pages that each ledger instruction in flight still has to do -/
  pools : Tab Pool
  pagesLeft : Tab Nat
  /-- recalibration by stack -/
  recal : Tab Recal
  /-- Mladord Link ports; number 32 stands for the device itself, whose packets to itself arrive there -/
  ports : Tab Port
  /-- collective operations by the number of their instruction, and the pairing counts of CSEND and CRECV by
  4096 × device + channel (R355) -/
  colls : Tab Coll
  sendNo : Tab Nat
  recvNo : Tab Nat
  stp : Stp
  snp : Snp
  sec : Sec
  /-- next place in the order of runnable contexts (R79) -/
  nextOrder : Nat
  /-- open pre-emption windows, oldest first (R76) -/
  windows : List Window
  chk : Chk
  pwr : Pwr
  sen : Sen
  pins : Pins
  /-- MSI-X table and pending bits (R450, R453); an entry not listed is masked -/
  msix : Tab Msix
  msixPending : List Nat
  /-- free values drawn (log 10) -/
  free : Nat
  /-- data that the last command of a reading kind returned (log 9) -/
  resp : List Nat
  /-- commands that wait, first in first out -/
  pending : List Instr
  deriving DecidableEq, Repr

/-- The machine right after cold reset. -/
def State.reset : State :=
  { regs := [], mem := [], memKey := [], veils := [], caches := [], hbmLost := 0, ddrLost := 0, ctxs := [], queues := [], cls := [], flights := [], nextFlight := 0,
    bootEpoch := 0, shared := [], pools := [], pagesLeft := [], recal := [],
    ports := [], colls := [], sendNo := [], recvNo := [], stp := .init, snp := .init, sec := .init,
    nextOrder := 0,
    windows := [], chk := .init, pwr := .init, sen := .init, pins := .init, msix := [], msixPending := [], free := 0, resp := [], pending := [] }

/-- Reasons for a fault. No command of the table raises one: every access the device forbids is discarded and counted
(R17, R85). -/
inductive Fault where
  /-- raised by no command; safe, since it stops -/
  | unreachable
  deriving DecidableEq, Repr

/-- Reasons for a refusal. -/
inductive Refusal where
  /-- answered by `exec` for a command that has no meaning yet; safe, since it stops -/
  | notModelled (mnemonic : String)
  deriving DecidableEq, Repr

end Machine

end Sys2Proof
end

