-- ==== Sys2Proof/Machine/Ops.lean ====
section
/-! DEFINITION. The shared operations: registers and their violation counters, contexts, clusters and queues, physical
and virtual memory, tag counters, and instructions in flight. -/

set_option Elab.async false

namespace Sys2Proof

namespace Machine

/-! ### Registers (R12, R13, R16) -/

/-- The value of the register at a BAR0 offset. -/
def State.reg (s : State) (off : Nat) : Nat :=
  match Tab.find s.regs off with
  | some v => v.toNat
  | none => regReset off

/-- Field [hi:lo] of a register. -/
def State.get (s : State) (off hi lo : Nat) : Nat := fld (s.reg off) hi lo

/-- Set a whole register. -/
def State.setReg (s : State) (off v : Nat) : State := { s with regs := Tab.put s.regs off (BitVec.ofNat 64 v) }

/-- Set field [hi:lo] of a register. -/
def State.set (s : State) (off hi lo v : Nat) : State := s.setReg off (setFld (s.reg off) hi lo v)

/-- Add to a counter field of `hi - lo + 1` bits that saturates. -/
def State.addSat (s : State) (off hi lo n : Nat) : State :=
  s.set off hi lo (satAdd (hi + 1 - lo) (s.get off hi lo) n)

/-- Add to a counter field that wraps. -/
def State.addWrap (s : State) (off hi lo n : Nat) : State := s.set off hi lo (s.get off hi lo + n)

/-- Several registers back to their reset values. -/
def State.clearRegs (s : State) (p : Nat → Bool) : State := { s with regs := s.regs.filter fun r => !p r.1 }

/-- Count `n` discarded accesses in a VIOLCNT with their origin (R86). A host access sets HOSTSRC and leaves LASTCTX;
an access of a context clears HOSTSRC and names the context; the management port counts like neither (log 24). -/
def State.violateN (s : State) (viol : Nat) (o : Origin) (n : Nat) : State :=
  if n = 0 then s
  else
    let t := s.addSat viol 15 0 n
    match o with
    | .host => t.set viol 30 30 1
    | .ctx c => (t.set viol 30 30 0).set viol 27 16 c
    | .mgmt => t.set viol 30 30 0

/-- Count one discarded access. -/
def State.violate (s : State) (viol : Nat) (o : Origin) : State := s.violateN viol o 1

/-- Count one when `b`. -/
def State.violateIf (s : State) (b : Bool) (viol : Nat) (o : Origin) : State :=
  if b then s.violate viol o else s

/-! ### Free values (log 10) -/

/-- Draw a free value. -/
def State.draw (s : State) : Nat × State := (Config.free s.free, { s with free := s.free + 1 })

/-- Add at least `n` cycles to a saturating 64-bit cycle counter: the excess is free (R83). -/
def State.addCycles (s : State) (off n : Nat) : State :=
  let (x, t) := s.draw
  t.addSat off 63 0 (n + x)

/-! ### Contexts, clusters, queues -/

def State.ctx (s : State) (n : Nat) : Ctx := Tab.getD .blank s.ctxs n
def State.setCtx (s : State) (n : Nat) (c : Ctx) : State := { s with ctxs := Tab.put s.ctxs n c }
def State.modCtx (s : State) (n : Nat) (f : Ctx → Ctx) : State := s.setCtx n (f (s.ctx n))

def State.cl (s : State) (g : Nat) : Cluster := Tab.getD .blank s.cls g
def State.setCl (s : State) (g : Nat) (c : Cluster) : State := { s with cls := Tab.put s.cls g c }
def State.modCl (s : State) (g : Nat) (f : Cluster → Cluster) : State := s.setCl g (f (s.cl g))

def State.queue (s : State) (q : Nat) : Queue := Tab.getD .blank s.queues q
def State.setQueue (s : State) (q : Nat) (c : Queue) : State := { s with queues := Tab.put s.queues q c }
def State.modQueue (s : State) (q : Nat) (f : Queue → Queue) : State := s.setQueue q (f (s.queue q))

/-- An engine of a cluster. -/
def Cluster.eng (c : Cluster) (e : Nat) : Engine := Tab.getD .idle c.engines e
def Cluster.setEng (c : Cluster) (e : Nat) (x : Engine) : Cluster := { c with engines := Tab.put c.engines e x }
def State.modEng (s : State) (g e : Nat) (f : Engine → Engine) : State :=
  s.modCl g fun c => c.setEng e (f (c.eng e))

/-- States of a context (R53). -/
def stFree : Nat := 0
def stBound : Nat := 1
def stRunning : Nat := 2
def stParking : Nat := 3
def stCocooned : Nat := 4
def stWaking : Nat := 5

/-- Status codes of R90. -/
def stOk : Nat := 0x00
def stBusy : Nat := 0x01
def stIncomplete : Nat := 0x02
def stMismatch : Nat := 0x03
def stDomainFull : Nat := 0x04
def stRngRederived : Nat := 0x05
def stTestOverdue : Nat := 0x06
def stTimeout : Nat := 0x07
def stPreempted : Nat := 0x08
def stReset : Nat := 0x09
def stCommitted : Nat := 0x0A
def stReplay : Nat := 0x0B
def stDropped : Nat := 0x0C
def stRestart : Nat := 0x0D
def stSuspect : Nat := 0x0E
def stDrained : Nat := 0x0F
def stNoResource : Nat := 0x10
def stAuthFail : Nat := 0x11
def stLinkDown : Nat := 0x12
def stStale : Nat := 0x13

/-- Codes of class Failed (R90). -/
def failedClass (c : Nat) : Bool :=
  c == stIncomplete || c == stTimeout || c == stReset || c == stLinkDown

/-- Codes that R90 does not list. -/
def reservedStatus (c : Nat) : Bool := decide (0x14 ≤ c)

/-- STATE of context `n`. -/
def State.cstate (s : State) (n : Nat) : Nat := s.get (Reg.ctxStat n) 2 0

/-- A transition of context `n`, with the status that LASTSTAT takes: OK where R55 states none (log 25). -/
def State.setCstate (s : State) (n st last : Nat) : State :=
  (s.set (Reg.ctxStat n) 2 0 st).set (Reg.ctxStat n) 31 24 last

/-- The partition to which a context is bound. -/
def State.partOf (s : State) (n : Nat) : Nat := s.get (Reg.ctxCtl n) 21 16

/-- The context's clusters' partition has members: R48. -/
def State.partExists (s : State) (p : Nat) : Bool := s.reg (Reg.cfgPartmap p) != 0

/-- Global clusters of a partition in ascending order. -/
def State.members (s : State) (p : Nat) : List Nat :=
  (List.range 64).filter fun g => bit (s.reg (Reg.cfgPartmap p)) g

/-- The partition that holds a cluster. -/
def State.partOfCl (s : State) (g : Nat) : Option Nat :=
  (List.range 64).find? fun p => bit (s.reg (Reg.cfgPartmap p)) g

/-- A context other than 0 that is bound. -/
def State.boundTo (s : State) (n p : Nat) : Bool := n != 0 && s.cstate n != stFree && s.partOf n == p

/-- Contexts with state of their own, or whose registers have been written: those that can be bound. -/
def State.knownCtxs (s : State) : List Nat :=
  ((s.regs.filter fun r => decide (0x100000 ≤ r.1) && decide (r.1 < 0x200000) && r.1 % 256 == 4).map
    fun r => (r.1 - 0x100000) / 256).filter fun n => n != 0

/-- Contexts bound to a partition, in ascending order. -/
def State.ctxsOf (s : State) (p : Nat) : List Nat := s.knownCtxs.filter fun n => s.boundTo n p

/-- RUNNING, PARKING or WAKING. -/
def liveState (st : Nat) : Bool := st == stRunning || st == stParking || st == stWaking

/-- A context of the partition is RUNNING, PARKING or WAKING. -/
def State.partLive (s : State) (p : Nat) : Bool := (s.ctxsOf p).any fun n => liveState (s.cstate n)

/-- A context of the partition is RUNNING, PARKING, WAKING or COCOONED. -/
def State.partHeld (s : State) (p : Nat) : Bool :=
  (s.ctxsOf p).any fun n => liveState (s.cstate n) || s.cstate n == stCocooned

/-- The context that holds the partition's clusters. -/
def State.holder (s : State) (p : Nat) : Option Nat := (s.ctxsOf p).find? fun n => liveState (s.cstate n)

/-- Clusters on which a context runs, in logical order. -/
def State.clustersOf (s : State) (n : Nat) : List Nat := (List.range 64).filter fun g => (s.cl g).ctx == some n

/-- The cluster of a context at a logical index. -/
def State.clusterAt (s : State) (n idx : Nat) : Option Nat :=
  (List.range 64).find? fun g => (s.cl g).ctx == some n && (s.cl g).idx == idx

/-! ### Power (R430, R435) -/

/-- STATE of the power controller: 0 Active, 1 Parked, 2 Dormant, 3 entering, 4 waking. -/
def State.powerState (s : State) : Nat := s.get Reg.pwrStat 31 29

/-- The clocks of the compute, base and link dies run: Active, no reset is held, and no die has tripped (R430, R435, R488). -/
def State.running (s : State) : Bool := !s.pins.thermtrip && s.sec.bootStep != 0 && s.powerState == 0

/-- An event that the clocks bring about: without them it does not come. -/
def State.whenRunning (s t : State) : State := if s.running then t else s

/-- A unit that waits for an activation or holds its work for a token (R424, R432). -/
def State.unitHeld (s : State) (g u : Nat) : Bool := (s.cl g).inactive.contains u || (s.cl g).held.contains u

/-- The unit that an instruction occupies, as activity units number it. -/
def activityOf (u : Unit) : Option Nat :=
  match u with
  | .engine e => some e
  | .vector => some 16
  | _ => none

/-! ### Device physical memory (R277, R295, R296) -/

/-- The stack that holds an HBM address. -/
def hbmStack (a : Nat) : Option Nat :=
  if a / 0x2000000000 < 12 && a % 0x2000000000 < 0x1DCD600000 then some (a / 0x2000000000) else none

/-- The pseudo-channel index of an HBM address within its stack (R285). -/
def hbmPc (a : Nat) : Nat :=
  let x := a % 0x2000000000
  fld x 15 10 ^^^ fld x 21 16 ^^^ fld x 27 22

/-- The channel and the pseudo-channel that serve an HBM address (R285). -/
def hbmServes (a : Nat) : Nat × Nat := (hbmPc a / 2, hbmPc a % 2)

/-- The DDR5 channel of an address, whatever its capacity. -/
def ddrChannel (a : Nat) : Option Nat :=
  if 0x40000000000 ≤ a && a < 0xA0000000000 then some ((a - 0x40000000000) / 0x8000000000) else none

/-- Host memory. -/
def isHost (a : Nat) : Bool := decide (0x8000000000000 ≤ a) && decide (a < 0x10000000000000)

/-- Installed bytes of a channel in use. -/
def State.ddrBytes (s : State) (c : Nat) : Nat :=
  if s.get (Reg.ddrChstat c) 31 31 = 1 then s.get (Reg.ddrChstat c) 15 0 * 2 ^ 30 else 0

/-- Is the address mapped to memory? -/
def State.mapped (s : State) (a : Nat) : Bool :=
  (hbmStack a).isSome || isHost a ||
  (match ddrChannel a with
   | some c => decide ((a - 0x40000000000) % 0x8000000000 < s.ddrBytes c)
   | none => false)

/-- Does the host-managed window hold the address (R456)? -/
def State.inHdm (s : State) (a : Nat) : Bool :=
  let w := s.reg Reg.hifHdmwin
  let base := fld w 51 28 * 2 ^ 28
  bit w 63 && decide (base ≤ a) && decide (a < base + fld w 11 0 * 2 ^ 28)

/-- Does an enabled cache window hold the host physical address (R454)? -/
def State.inCachewin (s : State) (h : Nat) : Bool :=
  (List.range 8).any fun i =>
    let b := s.reg (Reg.hifCachewin0 i)
    let base := fld b 50 12 * 4096
    bit b 63 && decide (base ≤ h) && decide (h < base + fld (s.reg (Reg.hifCachewin1 i)) 38 0 * 4096)

/-- The boot epoch under which keys are derived (R463): it names the keys of one power cycle. -/
def keyTag (epoch c : Nat) : Nat := 1 + 4096 * epoch + c

/-- The key tag of HBM, which holds plaintext (R295): its upper part counts the losses of what HBM held. -/
def State.hbmKey (s : State) : Nat := 2 ^ 80 * s.hbmLost

/-- The key tag under which a context's access to an address passes (R295, R296): its low 80 bits are 0 for plaintext and
`keyTag` of the context otherwise. Its upper part counts the losses of the memory's contents (R430, R435). -/
def State.accessKey (s : State) (c a : Nat) : Nat :=
  if (hbmStack a).isSome then s.hbmKey
  else if (ddrChannel a).isSome then
    2 ^ 80 * s.ddrLost + (if s.inHdm a then 0 else keyTag s.bootEpoch c)
  else if isHost a then
    (if s.inCachewin (a - 0x8000000000000) || c == 0 then 0 else keyTag s.bootEpoch c)
  else 0

/-- The 64-byte key pair of a key tag (R295, R463). -/
def pageKey (tag : Nat) : List Byte := leBytes 64 (Config.pageKey (tag % 2 ^ 80))

/-- The stored form of a 16-byte block at address `a`, in the data unit of 4,096 bytes that holds it: AES-XTS-256 with the
unit's number as tweak (R295), or the block itself under tag 0. -/
def sealBlock (tag a : Nat) (b : List Byte) : List Byte :=
  if tag % 2 ^ 80 = 0 then b else Aes.xtsEncryptBlock (pageKey tag) (leBytes 16 (a / 4096)) (a % 4096 / 16) b

/-- What a stored block decrypts to. -/
def openBlock (tag a : Nat) (b : List Byte) : List Byte :=
  if tag % 2 ^ 80 = 0 then b else Aes.xtsDecryptBlock (pageKey tag) (leBytes 16 (a / 4096)) (a % 4096 / 16) b

/-- The veil over an address. -/
def State.veilAt (s : State) (a : Nat) : Option Veil := s.veils.find? fun v => decide (v.lo ≤ a) && decide (a < v.hi)

/-- The key tag that an address is under. -/
def State.keyAt (s : State) (a : Nat) : Nat :=
  match s.veilAt a with
  | some v => v.key
  | none => Tab.getD 0 s.memKey (a / 16)

/-- The byte at an address as its writer gave it. -/
def State.given (s : State) (a : Nat) : Byte :=
  match s.veilAt a with
  | some v => Config.veiled v.id a
  | none => s.mem.read a

/-- First address of the 16-byte block of an address, and the bytes of a block as its writer gave them. -/
def blockOf (a : Nat) : Nat := a / 16 * 16
def State.block (s : State) (a : Nat) : List Byte := (List.range 16).map fun i => s.given (blockOf a + i)

/-- Read one byte under a key: as it was written under the same key; under another, the decryption of the stored block
(R296). After a loss of the contents the byte is open (R430, log 51). -/
def State.peek (s : State) (key a : Nat) : Byte :=
  let k := s.keyAt a
  if k = key then s.given a
  else if k / 2 ^ 80 = key / 2 ^ 80 then (openBlock key a (sealBlock k a (s.block a))).getD (a % 16) 0
  else Config.lostByte a k key

/-- What is left of veils outside [lo, hi). -/
def unveil (vs : List Veil) (lo hi : Nat) : List Veil :=
  vs.flatMap fun v => [{ v with hi := min v.hi lo }, { v with lo := max v.lo hi }].filter fun x : Veil => decide (x.lo < x.hi)

/-- Bring the block of an address under a key, as a write of part of it does: the rest of the block keeps the values that
it has under that key. -/
def State.rekey (s : State) (key a : Nat) : State :=
  if s.keyAt a = key && (s.veilAt a).isNone then s
  else
    { s with
      mem := s.mem.writeN (blockOf a) ((List.range 16).map fun i => s.peek key (blockOf a + i))
      memKey := Tab.setD 0 s.memKey (a / 16) key
      veils := unveil s.veils (blockOf a) (blockOf a + 16) }

/-- Write bytes within one block under a key. A whole block needs nothing of what it held. -/
def State.pokes (s : State) (key a : Nat) (vs : List Byte) : State :=
  let t := if a % 16 = 0 && vs.length == 16 then
      { s with memKey := Tab.setD 0 s.memKey (a / 16) key, veils := unveil s.veils a (a + 16) }
    else s.rekey key a
  { t with mem := t.mem.writeN a vs }

/-- Write one byte under a key. -/
def State.poke (s : State) (key a : Nat) (v : Byte) : State := s.pokes key a [v]

/-- The device fills [lo, hi), whose ends are multiples of 16, under a key with data whose layout the spec leaves open
(log 53). -/
def State.veil (s : State) (key lo hi : Nat) : State :=
  if hi ≤ lo then s
  else
    { s with
      mem := s.mem.keep fun a => decide (a < lo) || decide (hi ≤ a)
      veils := ⟨lo, hi, s.free, key⟩ :: unveil s.veils lo hi
      free := s.free + 1 }

/-- A byte of HBM (R295). -/
def State.hbmByte (s : State) (a : Nat) : Byte := s.peek s.hbmKey a

/-- Read bytes as context `c`, untranslated; unmapped bytes read as zero. The flag tells that some part was discarded. -/
def State.readPhys (s : State) (c a n : Nat) : List Byte × Bool :=
  ((List.range n).map fun i => if s.mapped (a + i) then s.peek (s.accessKey c (a + i)) (a + i) else 0,
   (List.range n).any fun i => !s.mapped (a + i))

/-- Write bytes as context `c`, untranslated, block by block; a block is mapped or not as a whole (R277). -/
def State.writeBlocks (fuel : Nat) (s : State) (c a : Nat) (vs : List Byte) : State :=
  match fuel with
  | 0 => s
  | k + 1 =>
    if vs.isEmpty then s
    else
      let m := 16 - a % 16
      State.writeBlocks k (if s.mapped a then s.pokes (s.accessKey c a) a (vs.take m) else s) c (a + m) (vs.drop m)

def State.writePhys (s : State) (c a : Nat) (vs : List Byte) : State := State.writeBlocks (vs.length / 16 + 2) s c a vs

/-- Does a write touch an unmapped address? -/
def State.unmappedIn (s : State) (a n : Nat) : Bool := (List.range n).any fun i => !s.mapped (a + i)

/-- An 8-byte entry in HBM, or none where it lies outside (R279, R281). -/
def State.hbmWord (s : State) (a : Nat) : Option Nat :=
  if (hbmStack a).isSome && (hbmStack (a + 7)).isSome then some (leNat ((List.range 8).map fun i => s.hbmByte (a + i))) else none

/-! ### Shared granules (R290–R294) -/

/-- The shared-table entry of a stack that holds a granule. -/
def State.sharedIndex (s : State) (t gran : Nat) : Option Nat :=
  match (Tab.getD [] s.shared t).find? fun e => e.2.gran == gran with
  | some e => some e.1
  | none => none

/-- Address of the attachment map of an entry. -/
def State.mapAddr (s : State) (t i : Nat) : Nat := fld (s.reg (Reg.ldgShbase t)) 51 21 * 2 ^ 21 + 512 * i

/-- The byte of an attachment map that holds a context's bit; what is not mapped reads as zero (R277). -/
def State.mapByte (s : State) (t i c : Nat) : Nat := leNat (s.readPhys 0 (s.mapAddr t i + c / 8) 1).1

/-- Is a context's bit set in the attachment map of an entry? -/
def State.mapBit (s : State) (t i c : Nat) : Bool := bit (s.mapByte t i c) (c % 8)

/-- Is a context attached to the granule at a device physical address? -/
def State.attached (s : State) (c gran : Nat) : Bool :=
  match hbmStack gran with
  | none => false
  | some t =>
    match s.sharedIndex t gran with
    | none => false
    | some i => s.mapBit t i c

/-! ### Translation (R279–R283) -/

/-- Walk both levels for a granule number; the level-2 entry, when its table is reached. -/
def State.walk (s : State) (c vg : Nat) : Option Nat :=
  match s.hbmWord (fld (s.reg (Reg.ctxPtbase c)) 51 12 * 4096 + 8 * (vg / 16384)) with
  | none => none
  | some l1 =>
    if bit l1 63 then s.hbmWord (fld l1 51 17 * 2 ^ 17 + 8 * (vg % 16384)) else none

/-- The cache of level-2 entries of the unit that counts in a VIOLCNT (R282): clusters 0–63, ledger engines 64–75, the
collective engines 76. Other units access memory without one. -/
def cacheOf (viol : Nat) : Option Nat :=
  if 0x400000 ≤ viol ∧ viol < 0x800000 then some ((viol - 0x400000) / 0x10000)
  else if 0x800000 ≤ viol ∧ viol < 0x8C0000 then some (64 + (viol - 0x800000) / 0x10000)
  else if viol = Reg.colViolcnt then some 76
  else none

/-- Entries that a cache holds of one context at most. -/
def cacheCap (k : Nat) : Nat := if k < 64 then 1024 else 256

/-- The cached entries of a context in the cache of a unit, by granule number. -/
def State.cached (s : State) (viol c : Nat) : Tab Nat :=
  match cacheOf viol with
  | none => []
  | some k => Tab.getD [] s.caches (4096 * k + c)

/-- The level-2 entry in use for a granule: the cached one where the unit holds one, else what a walk reads (R282). -/
def State.entry (s : State) (viol c vg : Nat) : Option Nat :=
  match Tab.find (s.cached viol c) vg with
  | some e => some e
  | none => s.walk c vg

/-- A full cache gives up one entry; which one is not specified (R283). -/
def evict (cap : Nat) (t : Tab Nat) : Tab Nat :=
  if t.length < cap then t else t.eraseIdx (Config.evict (t.map (·.1)) % t.length)

/-- The entry that an access used stays in the unit's cache (R282). Context 0 has no table (R455). -/
def State.remember (s : State) (viol c vg : Nat) : State :=
  match cacheOf viol, s.entry viol c vg with
  | some k, some e =>
    if c = 0 || (Tab.find (s.cached viol c) vg).isSome then s
    else { s with caches := Tab.put s.caches (4096 * k + c) (Tab.put (evict (cacheCap k) (s.cached viol c)) vg e) }
  | _, _ => s

/-- Every cached entry of a context is discarded (R283, R284). -/
def State.dropCaches (s : State) (c : Nat) : State := { s with caches := s.caches.filter fun p => p.1 % 4096 != c }

/-- The granule base that an access of context `c` may use. Context 0 has no table (R455). -/
def State.granule (s : State) (viol c : Nat) (write : Bool) (vg : Nat) : Option Nat :=
  if c = 0 then some (vg * 2 ^ 21)
  else
    match s.entry viol c vg with
    | none => none
    | some e =>
      if !bit e 63 then none
      else if write && (!bit e 62 || bit e 61) then none
      else if bit e 61 && !s.attached c (fld e 51 21 * 2 ^ 21) then none
      else some (fld e 51 21 * 2 ^ 21)

/-- The device physical address of a virtual address, or none where the access is discarded. -/
def State.translate (s : State) (viol c : Nat) (write : Bool) (va : Nat) : Option Nat :=
  match s.granule viol c write (va / 2 ^ 21) with
  | none => none
  | some b => if s.mapped (b + va % 2 ^ 21) then some (b + va % 2 ^ 21) else none

/-- The pieces of [va, va + n) that lie in one granule each. -/
def pieces (fuel va n : Nat) : List (Nat × Nat) :=
  match fuel with
  | 0 => []
  | k + 1 =>
    if n = 0 then []
    else
      let m := min n (2 ^ 21 - va % 2 ^ 21)
      (va, m) :: pieces k (va + m) (n - m)

/-- Virtual addresses are 48 bits wide (R279). Context 0 uses device physical addresses of 52 bits (R455). -/
def vaWidth (c : Nat) : Nat := if c = 0 then 52 else 48

/-- The granule number of a piece. -/
def pieceGran (c : Nat) (p : Nat × Nat) : Nat := p.1 % 2 ^ vaWidth c / 2 ^ 21

/-- Read one piece: its bytes, and whether some part of it was discarded. -/
def State.readPiece (s : State) (viol c : Nat) (p : Nat × Nat) : List Byte × Bool :=
  match s.granule viol c false (pieceGran c p) with
  | none => (List.replicate p.2 0, true)
  | some b => s.readPhys c (b + p.1 % 2 ^ 21) p.2

/-- Where the pieces of a write land, each with its bytes; a piece with no granule is left out. -/
def State.landing (s : State) (viol c : Nat) (ps : List (Nat × Nat)) (vs : List Byte) : List (Nat × List Byte) :=
  match ps with
  | [] => []
  | p :: rest =>
    (match s.granule viol c true (pieceGran c p) with
     | none => []
     | some b => [(b + p.1 % 2 ^ 21, vs.take p.2)]) ++ s.landing viol c rest (vs.drop p.2)

/-- Write bytes where they land. -/
def State.writeLanded (s : State) (c : Nat) (ls : List (Nat × List Byte)) : State :=
  ls.foldl (fun t l => t.writePhys c l.1 l.2) s

/-- Would some part of a write piece be discarded? -/
def State.badPiece (s : State) (viol c : Nat) (p : Nat × Nat) : Bool :=
  match s.granule viol c true (pieceGran c p) with
  | none => true
  | some b => s.unmappedIn (b + p.1 % 2 ^ 21) p.2

/-- The pieces of an access. -/
def piecesOf (va n : Nat) : List (Nat × Nat) := pieces (n / 2 ^ 21 + 2) va n

/-- Read `n` bytes at a virtual address for the unit that counts in `viol` (R281); the flag tells that some part was
discarded. -/
def State.readVa (s : State) (viol c va n : Nat) : List Byte × Bool :=
  let rs := (piecesOf va n).map (s.readPiece viol c)
  (rs.flatMap (·.1), rs.any (·.2))

/-- Where a write of bytes at a virtual address lands. -/
def State.landsAt (s : State) (viol c va : Nat) (vs : List Byte) : List (Nat × List Byte) :=
  s.landing viol c (piecesOf va vs.length) vs

/-- Write bytes at a virtual address (R281). The whole write is translated before its first byte is written. -/
def State.writeVa (s : State) (viol c va : Nat) (vs : List Byte) : State := s.writeLanded c (s.landsAt viol c va vs)

/-- Would some part of a write be discarded? -/
def State.badWrite (s : State) (viol c va n : Nat) : Bool := (piecesOf va n).any (s.badPiece viol c)

/-- The entries that accesses used stay cached. -/
def State.rememberAll (s : State) (viol c : Nat) (runs : List (Nat × Nat)) : State :=
  (runs.flatMap fun r => piecesOf r.1 r.2).foldl (fun t p => t.remember viol c (pieceGran c p)) s

/-- A read that counts once in the issuing unit's VIOLCNT when some part is discarded (R281). -/
def State.load (s : State) (viol c va n : Nat) : List Byte × State :=
  let (bs, bad) := s.readVa viol c va n
  (bs, (s.rememberAll viol c [(va, n)]).violateIf bad viol (.ctx c))

/-- Several reads as one access: counted at most once. -/
def State.loadRuns (s : State) (viol c : Nat) (runs : List (Nat × Nat)) : List (List Byte) × State :=
  let rs := runs.map fun r => s.readVa viol c r.1 r.2
  (rs.map (·.1), (s.rememberAll viol c runs).violateIf (rs.any (·.2)) viol (.ctx c))

/-- Several writes as one access: counted at most once. -/
def State.storeRuns (s : State) (viol c : Nat) (runs : List (Nat × List Byte)) : State :=
  let spans := runs.map fun r => (r.1, r.2.length)
  ((s.rememberAll viol c spans).writeLanded c (runs.flatMap fun r => s.landsAt viol c r.1 r.2)).violateIf
    (spans.any fun r => s.badWrite viol c r.1 r.2) viol (.ctx c)

/-- A write that counts once likewise. -/
def State.store (s : State) (viol c va : Nat) (vs : List Byte) : State := s.storeRuns viol c [(va, vs)]

/-! ### Tag counters (R69, R73, R128) -/

/-- Add to a tag counter: of the cluster that runs the context at the logical index, or of its image in the cocoon. -/
def Cluster.addTag (c : Cluster) (t n : Nat) : Cluster :=
  if t = 0 then c else { c with tags := c.tags.write t (c.tags.read t + BitVec.ofNat 16 n) }

/-- Has the counter reached the target (R69)? -/
def tagReached (c : Cluster) (t target : Nat) : Bool := reached16 (c.tags.read t).toNat target

/-- Add to the counter held in a cocoon. -/
def Cocoon.addTag (k : Cocoon) (idx t n : Nat) : Cocoon :=
  { k with images := k.images.mapIdx fun i im => if i = idx then { im with cl := im.cl.addTag t n } else im }

/-- R73, R128: while the context has a cocoon, additions go to the counters held there. -/
def State.addTag (s : State) (n idx t k : Nat) : State :=
  match (s.ctx n).cocoon with
  | some co => s.modCtx n fun x => { x with cocoon := some (co.addTag idx t k) }
  | none =>
    match s.clusterAt n idx with
    | some g => s.modCl g fun c => c.addTag t k
    | none => s

/-! ### Scalar registers, tile store -/

/-- Scalar register `i` of a register file. -/
def sreg (r : Memory 64) (i : Nat) : Nat := (r.read i).toNat

/-- A scalar operand of the data form: field value 0 stands for zero (R110). -/
def sregZ (r : Memory 64) (i : Nat) : Nat := if i = 0 then 0 else sreg r i

/-- Write a scalar register of a cluster. -/
def State.setSreg (s : State) (g i v : Nat) : State :=
  s.modCl g fun c => { c with sregs := c.sregs.write i (BitVec.ofNat 64 v) }

/-- Bytes of the tile store (16 MiB). -/
def tileBytes : Nat := 2 ^ 24

/-- Read tile-store bytes; those beyond the end read as zero (R111). -/
def Cluster.tileRead (c : Cluster) (a n : Nat) : List Byte :=
  (List.range n).map fun i => if a + i < tileBytes then c.tile.read (a + i) else 0

/-- Write tile-store bytes; those beyond the end are discarded (R111). -/
def Cluster.tileWrite (c : Cluster) (a : Nat) (vs : List Byte) : Cluster :=
  { c with tile := c.tile.writeN a (vs.take (tileBytes - a)) }

/-- Does an access reach beyond the tile store? -/
def tileOver (a n : Nat) : Bool := n != 0 && decide (tileBytes < a + n)

/-- Bytes of the two halves of the transposing buffer. -/
def halfBytes : Nat := 2 ^ 19

/-- Read from a half of the transposing buffer (R111). -/
def Cluster.halfRead (c : Cluster) (h a n : Nat) : List Byte :=
  (List.range n).map fun i => if a + i < halfBytes then c.trans.read (h * halfBytes + a + i) else 0

/-- Write to a half. -/
def Cluster.halfWrite (c : Cluster) (h a : Nat) (vs : List Byte) : Cluster :=
  { c with trans := c.trans.writeN (h * halfBytes + a) (vs.take (halfBytes - a)) }

def halfOver (a n : Nat) : Bool := n != 0 && decide (halfBytes < a + n)

/-! ### Instructions in flight (R94, R95) -/

/-- Put an instruction in flight; its number. -/
def State.launchFlight (s : State) (f : Flight) : Nat × State :=
  (s.nextFlight, { s with flights := Tab.put s.flights s.nextFlight f, nextFlight := s.nextFlight + 1 })

def State.modFlight (s : State) (i : Nat) (f : Flight → Flight) : State :=
  match Tab.find s.flights i with
  | none => s
  | some x => { s with flights := Tab.put s.flights i (f x) }

/-- The instruction's effects have been applied. -/
def State.markReady (s : State) (i : Nat) : State := s.modFlight i fun f => { f with ready := true }

/-- Give a flight its status and mark it ready (R124). -/
def State.finishFlight (s : State) (i st : Nat) : State :=
  s.modFlight i fun f => { f with ready := true, status := st }

/-- Instructions in flight of a context at a logical index. -/
def State.flightsOf (s : State) (n idx : Nat) : List (Nat × Flight) :=
  s.flights.filter fun p => p.2.ctx == n && p.2.idx == idx

/-- Does a unit of its cluster hold the instruction? An ABLK stands in the vector engine's queue and in those of its two
matrix engines (R218), a shadowed instruction also in its shadow engine's (R382). -/
def Flight.holds (f : Flight) (u : Unit) : Bool :=
  decide (f.unit = u) || (match u with
    | .engine e => f.engs.contains e
    | _ => false)

/-- The shadow engines of a unit: one, or for an ABLK two. -/
def ShadowUnit.engs (u : ShadowUnit) : List Nat :=
  match u.work with
  | .mma _ _ _ _ _ => [u.shEng]
  | .ablk _ => [u.shEng, u.shEng + 1]

/-- Has a unit taken an entry of its queue whose effects are not visible yet? -/
def State.unitBusy (s : State) (g : Nat) (u : Unit) : Bool :=
  s.flights.any fun f => f.2.g == g && !f.2.outside && f.2.holds u && f.2.ready

/-- Does an engine's array hold a K-tile step or an epilogue? An instruction whose operands are being consumed, one that has
been consumed and whose results are not visible, ABLK array work or a shadow run; not one that waits at the head of the
queue, or whose tile waits for the tray (R177, R182, R218, R382, R424, log 35). -/
def State.arrayHolds (s : State) (g e : Nat) : Bool :=
  let c := s.cl g
  let x := c.eng e
  s.unitBusy g (.engine e) || x.pos != 0 || x.acc0.spillDue || x.acc1.spillDue || c.shadows.any fun u => u.engs.contains e

/-- BUSY of a unit of a cluster (0–15 the matrix engines, 16 the vector engine), as MXE.ESTAT and VEC.ESTAT show it. An
instruction that waits at the head of the vector engine's queue does not occupy it (R206, R209, log 35). -/
def State.unitActive (s : State) (g u : Nat) : Bool := if u = 16 then s.unitBusy g .vector else s.arrayHolds g u

/-- Has a unit work: an instruction that it holds, or what its array has to do yet, a shadow run among it (R432)? -/
def State.unitWorks (s : State) (g u : Nat) : Bool :=
  (s.flights.any fun f => f.2.g == g && !f.2.outside && f.2.holds (if u = 16 then .vector else .engine u)) || s.unitActive g u

/-- Instructions that a unit of the cluster holds: issued to it and not complete. -/
def State.unitLoad (s : State) (n idx : Nat) (u : Unit) : Nat := (s.flightsOf n idx).countP fun p => p.2.holds u

/-- The mover that takes a movement instruction: the one that holds fewer (log 26). -/
def State.place (s : State) (n idx : Nat) (u : Unit) : Unit :=
  match u with
  | .mover _ => .mover (if s.unitLoad n idx (.mover 1) < s.unitLoad n idx (.mover 0) then 1 else 0)
  | u => u

/-- Capacity of a unit's queue (R95). -/
def unitCap (u : Unit) : Nat :=
  match u with
  | .none => 1000000
  | .mover _ => 4
  | .vector => 4
  | .engine _ => 4
  | .ledger => 16
  | .collective => 16

/-- Can the unit and the matrix engines that an instruction needs accept it (R95)? -/
def State.hasRoom (s : State) (n idx : Nat) (u : Unit) (engs : List Nat) : Bool :=
  decide (s.unitLoad n idx (s.place n idx u) < unitCap u) &&
    engs.all fun e => decide (s.unitLoad n idx (.engine e) < 4)

/-- Scalar registers of a cluster that an instruction in flight will write, its status register among them (R97, R124). -/
def State.pendingRegs (s : State) (n idx : Nat) : List Nat :=
  (s.flightsOf n idx).flatMap fun p => p.2.pend ++ (if p.2.sreg = 0 then [] else [p.2.sreg])

end Machine

end Sys2Proof
end

