-- ==== Sys2Proof/Machine/Operands.lean ====
section
/-! DEFINITION. The operand forms: fields of an instruction word, tensor descriptors, tiles in the tile store and
tensors in memory, element by element and in block units, and the scale record of a tensor (R92, R110–R112, R66, R495,
R496, R140, R141, R149–R151). -/

set_option Elab.async false

namespace Sys2Proof

namespace Machine

/-! ### Fields of the instruction word (R92, R110) -/

def wOp (w : Nat) : Nat := fld w 127 120
def wPsense (w : Nat) : Bool := bit w 119
def wPidx (w : Nat) : Nat := fld w 118 115
def wTag (w : Nat) : Nat := fld w 114 108
def wDA (w : Nat) : Nat := fld w 107 98
def wDB (w : Nat) : Nat := fld w 97 88
def wDC (w : Nat) : Nat := fld w 87 78
def wSA (w : Nat) : Nat := fld w 77 72
def wSB (w : Nat) : Nat := fld w 71 66
def wSC (w : Nat) : Nat := fld w 65 60
def wTA (w : Nat) : Nat := fld w 59 44
def wTB (w : Nat) : Nat := fld w 43 28
def wFN (w : Nat) : Nat := fld w 27 12
def wXT (w : Nat) : Nat := fld w 11 0

/-- Scalar operands of the data form, as read at issue. -/
def Job.sa (j : Job) : Nat := sregZ j.sregs (wSA j.word)
def Job.sb (j : Job) : Nat := sregZ j.sregs (wSB j.word)
def Job.sc (j : Job) : Nat := sregZ j.sregs (wSC j.word)
/-- The step number in s3 (R96). -/
def Job.step (j : Job) : Nat := sreg j.sregs 3
def Job.fn (j : Job) : Nat := wFN j.word
def Job.xt (j : Job) : Nat := wXT j.word

/-! ### Tensor descriptors (R66, R67) -/

namespace Desc

def base (d : List Byte) : Nat := leAt d 0 8 % 2 ^ 48
def scaleptr (d : List Byte) : Nat := leAt d 8 8 % 2 ^ 48
def tensorid (d : List Byte) : Nat := leAt d 0x15 3
def fmt (d : List Byte) : Nat := fld (leAt d 0x10 8) 39 35
def frozen (d : List Byte) : Bool := bit (leAt d 0x10 8) 31
/-- TRAINABLE reads as 0 when FROZEN is 1. -/
def trainable (d : List Byte) : Bool := bit (leAt d 0x10 8) 30 && !frozen d
def ledger (d : List Byte) : Bool := bit (leAt d 0x10 8) 29
def shared (d : List Byte) : Bool := bit (leAt d 0x10 8) 28
/-- SIZE of B, T, H, W, C, G for i = 0 to 5. -/
def size (d : List Byte) (i : Nat) : Nat := leAt d (0x18 + 3 * i) 3
def sizeC (d : List Byte) : Nat := size d 4
def sizeG (d : List Byte) : Nat := size d 5
/-- STRIDE of B, T, H, W, G for i = 0 to 4. -/
def stride (d : List Byte) (i : Nat) : Nat := leAt d (0x2A + 4 * i) 4
def strideG (d : List Byte) : Nat := stride d 4
/-- A descriptor with any SIZE of zero is empty (R67). -/
def empty (d : List Byte) : Bool := (List.range 6).any fun i => size d i == 0
/-- Extent of a row dimension: codes 0–3 are B, T, H, W and 4 is G. -/
def rowSize (d : List Byte) (dim : Nat) : Nat := if dim = 4 then sizeG d else size d dim
/-- The extents faster than a dimension, multiplied, in the order B, T, H, W, G, C (R120, R181). -/
def faster (d : List Byte) (dim : Nat) : Nat :=
  let c := sizeC d
  let g := sizeG d * c
  let w := size d 3 * g
  let h := size d 2 * w
  let t := size d 1 * h
  match dim with
  | 0 => t
  | 1 => h
  | 2 => w
  | 3 => g
  | _ => c
/-- Elements of the tensor. -/
def elems (d : List Byte) : Nat := size d 0 * faster d 0

/-- Element offset of a logical element: its index counts C fastest, then G, W, H, T and B (R66, R120). -/
def logicalOff (d : List Byte) (e : Nat) : Nat :=
  e % sizeC d + e / faster d 4 % sizeG d * strideG d + e / faster d 3 % size d 3 * stride d 3
    + e / faster d 2 % size d 2 * stride d 2 + e / faster d 1 % size d 1 * stride d 1 + e / faster d 0 * stride d 0

/-- The offset of a logical element within the extents. -/
def logical (d : List Byte) (e : Nat) : Option Nat := if e < elems d then some (logicalOff d e) else none

/-- Element offset of row r and column j from the access origin (R495). -/
def elemOff (d : List Byte) (dim o r j : Nat) : Nat :=
  if dim = 4 then o + r * strideG d + j
  else o + r * stride d dim + (j / sizeC d) * strideG d + j % sizeC d

/-- Does the element lie within the extents (R495)? -/
def inside (d : List Byte) (dim r j : Nat) : Bool :=
  !empty d && decide (r < rowSize d dim) &&
    decide (j < (if dim = 4 then sizeC d else sizeG d * sizeC d))

/-- Address of the element at an offset: of the element itself, or of the block unit that holds it (R140). -/
def elemAddr (d : List Byte) (e : Nat) : Nat :=
  let f := fmt d
  (if Format.block f then base d + e / 32 * Format.unitBytes f else base d + e * Format.unitBytes f) % 2 ^ 48

end Desc

/-- Element index of a draw in a tensor for a row and column from an origin (R120, R181, R193). -/
def drawIndex (d : List Byte) (dim origin row col : Nat) : Nat :=
  (origin + row * Desc.faster d dim + col) % 2 ^ 48

/-! ### Lists of addresses as segments -/

/-- Consecutive cells of `size` bytes whose addresses follow each other, merged: (address or none, cells). -/
def segments (size : Nat) (cells : List (Option Nat)) : List (Option Nat × Nat) :=
  match cells with
  | [] => []
  | c :: rest =>
    match segments size rest, c with
    | (none, n) :: more, none => (none, n + 1) :: more
    | (some a, n) :: more, some b => if b + size = a then (some b, n + 1) :: more else (some b, 1) :: (some a, n) :: more
    | more, x => (x, 1) :: more

/-- The runs of addresses among segments. -/
def scatterSpans (size : Nat) (segs : List (Option Nat × Nat)) : List (Nat × Nat) :=
  segs.filterMap fun g => g.1.map fun a => (a, g.2 * size)

/-- Read cells of `size` bytes as one access; cells with no address read as zero. -/
def State.gather (s : State) (viol c size : Nat) (cells : List (Option Nat)) : List Byte × State :=
  let rs := (segments size cells).map fun g =>
    match g.1 with
    | none => (List.replicate (g.2 * size) (0 : Byte), false)
    | some a => s.readVa viol c a (g.2 * size)
  (rs.flatMap (·.1), (s.rememberAll viol c (scatterSpans size (segments size cells))).violateIf (rs.any (·.2)) viol (.ctx c))

/-- The runs of bytes that a write of cells makes. -/
def scatterRuns (size : Nat) (segs : List (Option Nat × Nat)) (bs : List Byte) : List (Nat × List Byte) :=
  match segs with
  | [] => []
  | (none, n) :: rest => scatterRuns size rest (bs.drop (n * size))
  | (some a, n) :: rest => (a, bs.take (n * size)) :: scatterRuns size rest (bs.drop (n * size))

/-- Write cells of `size` bytes as one access; cells with no address are not written. -/
def State.scatter (s : State) (viol c size : Nat) (cells : List (Option Nat)) (bs : List Byte) : State :=
  s.storeRuns viol c (scatterRuns size (segments size cells) bs)

/-! ### Elements of a tensor by value -/

/-- Elements decoded from their bytes or block units, in order; `offs` gives each element's offset, or none outside the
extents, where it reads as zero (R191, R496). -/
def decodeCells (kt5 : Bool) (f : Nat) (offs : List (Option Nat)) (raw : List Byte) : List (Fp × Bool) :=
  let n := Format.unitBytes f
  offs.mapIdx fun i o =>
    match o with
    | none => (.zero, false)
    | some e =>
      let u := (raw.drop (i * n)).take n
      if Format.block f then
        let rf := if f = 15 then leAt u 1 1 else 0
        let c := unpackElem (Format.bits f) (u.drop (Format.scaleBytes f)) (e % 32)
        blockVal kt5 f (leAt u 0 1) rf (e % 32) c
      else decodeElem kt5 f (leAt u 0 n)

/-- Units among the cells whose scale code reads FFh, each counted once (R139). -/
def scaleNfCells (f : Nat) (offs : List (Option Nat)) (raw : List Byte) : Nat :=
  if Format.block f then
    let n := Format.unitBytes f
    let us := offs.zipIdx.filterMap fun p =>
      match p.1 with
      | some e => if leAt (raw.drop (p.2 * n)) 0 1 = 255 then some (e / 32) else none
      | none => none
    (us.eraseDups).length
  else 0

/-- Elements read by value: with their non-finite flags, the scale codes FFh among their units, and the state. -/
structure ElemsIn where
  vals : List (Fp × Bool)
  scaleNf : Nat
  st : State
  deriving DecidableEq, Repr

/-- Read elements of a tensor at the offsets given, one access, before any tensor exponent. -/
def State.readElems (s : State) (viol c : Nat) (kt5 : Bool) (d : List Byte) (offs : List (Option Nat)) : ElemsIn :=
  let f := Desc.fmt d
  let (raw, t) := s.gather viol c (Format.unitBytes f) (offs.map fun o => o.map (Desc.elemAddr d))
  ⟨decodeCells kt5 f offs raw, scaleNfCells f offs raw, t⟩

/-! ### The tensor exponent and the scale record (R149–R151) -/

/-- The tensor exponent E that a descriptor's record gives, clamped; a clamp counts in VEC.VIOLCNT of the cluster. -/
def State.tensorExp (s : State) (g c : Nat) (d : List Byte) : Int × State :=
  if Format.usesExp (Desc.fmt d) && Desc.scaleptr d != 0 then
    let (bs, t) := s.load (Reg.vecViolcnt g) c (Desc.scaleptr d) 2
    let e := toSigned 16 (leNat bs)
    (clampI (-64) 64 e, t.violateIf (decide (e < -64) || decide (64 < e)) (Reg.vecViolcnt g) (.ctx c))
  else (0, s)

/-- What a set of conversions adds to the destination's scale record. -/
structure Tally where
  sat : Nat
  amax : Nat
  deriving DecidableEq, Repr

/-- FP32 bits of the magnitude of a finite value; zero for any other. Magnitudes order as their bits do. -/
def amaxBits (x : Fp) : Nat :=
  match x with
  | .fin _ m e => (rnd32 (.fin false m e)).1.toNat
  | _ => 0

/-- The largest finite magnitude of a list. -/
def amaxOf (xs : List Fp) : Nat := xs.foldl (fun a x => max a (amaxBits x)) 0

/-- R151: AMAXSTEP takes the maximum and SATSTEP the saturating sum. -/
def State.tallyScale (s : State) (viol c : Nat) (d : List Byte) (t : Tally) : State :=
  if Desc.scaleptr d = 0 then s
  else
    let (bs, s1) := s.load viol c (Desc.scaleptr d + 4) 8
    s1.store viol c (Desc.scaleptr d + 4)
      (leBytes 4 (satAdd 32 (leAt bs 0 4) t.sat) ++ leBytes 4 (max (leAt bs 4 4) t.amax))

/-! ### Tiles (R112, R141) -/

/-- Where a tile lies: the tile store or a half of the transposing buffer. -/
inductive Store where
  | tile
  | half (h : Nat)
  deriving DecidableEq, Repr

def Cluster.storeRead (c : Cluster) (w : Store) (a n : Nat) : List Byte :=
  match w with
  | .tile => c.tileRead a n
  | .half h => c.halfRead h a n

def Cluster.storeWrite (c : Cluster) (w : Store) (a : Nat) (vs : List Byte) : Cluster :=
  match w with
  | .tile => c.tileWrite a vs
  | .half h => c.halfWrite h a vs

def storeOver (w : Store) (a n : Nat) : Bool :=
  match w with
  | .tile => tileOver a n
  | .half _ => halfOver a n

/-- The bytes of a tile with its trailer, from 256-byte unit `u`; an access beyond the region counts once in
SEQ.VIOLCNT (R111). -/
def State.readTile (s : State) (g c : Nat) (w : Store) (u n : Nat) : List Byte × State :=
  ((s.cl g).storeRead w (256 * u) n, s.violateIf (storeOver w (256 * u) n) (Reg.seqViolcnt g) (.ctx c))

/-- Write runs of bytes at byte addresses of a store, as one access. -/
def State.writeTileRuns (s : State) (g c : Nat) (w : Store) (runs : List (Nat × List Byte)) : State :=
  (s.modCl g fun k => runs.foldl (fun x r => x.storeWrite w r.1 r.2) k).violateIf
    (runs.any fun r => storeOver w r.1 r.2.length) (Reg.seqViolcnt g) (.ctx c)

/-- A decoded tile row: the elements with their non-finite flags, and how many of its scale codes read FFh. -/
structure TileRow where
  vals : List (Fp × Bool)
  scaleNf : Nat
  deriving DecidableEq, Repr

/-- Row `r` of a tile's bytes. -/
def tileRow (kt5 : Bool) (f : Nat) (bytes : List Byte) (r : Nat) : TileRow :=
  let row := (bytes.drop (r * Format.pitch f)).take (Format.pitch f)
  if Format.block f then
    let tr := bytes.drop (Format.dataBytes f + r * Format.rowTrailer f)
    let sb := Format.scaleBytes f
    let blk := fun h i =>
      let rf := if f = 15 then leAt tr (h * sb + 1) 1 else 0
      blockVal kt5 f (leAt tr (h * sb) 1) rf i (unpackElem (Format.bits f) row (32 * h + i))
    ⟨(List.range 32).map (blk 0) ++ (List.range 32).map (blk 1),
     b2n (leAt tr 0 1 == 255) + b2n (leAt tr sb 1 == 255)⟩
  else
    let n := Format.unitBytes f
    ⟨(List.range 64).map fun i => decodeElem kt5 f (leAt row (i * n) n), 0⟩

/-- A converted row: its data bytes, its trailer bytes and what each element counts. -/
structure RowOut where
  data : List Byte
  trailer : List Byte
  cnts : List Cnt
  deriving DecidableEq, Repr

/-- Convert a row of 64 values to a format, the tensor exponent already applied where the format takes it. -/
def encodeRow (kt5 : Bool) (f : Nat) (ins : List BlockIn) : RowOut :=
  if Format.block f then
    let b0 := encodeBlock kt5 f (ins.take 32)
    let b1 := encodeBlock kt5 f (ins.drop 32)
    let w := Format.bits f
    ⟨leBytes (4 * w) (packElems w (b0.elems.map (·.code))) ++ leBytes (4 * w) (packElems w (b1.elems.map (·.code))),
     (b0.scales ++ b1.scales).map fun v => BitVec.ofNat 8 v,
     (b0.elems ++ b1.elems).map (·.cnt)⟩
  else
    let cs := ins.map fun b => encodeElem kt5 f b.mode b.x
    ⟨cs.flatMap fun c => leBytes (Format.unitBytes f) c.code, [], cs.map (·.cnt)⟩

/-- The runs that write row `r` of a tile at unit `u`. -/
def rowRuns (f u r : Nat) (o : RowOut) : List (Nat × List Byte) :=
  [(256 * u + r * Format.pitch f, o.data),
   (256 * u + Format.dataBytes f + r * Format.rowTrailer f, o.trailer)]

/-! ### Rows of a tensor as cells -/

/-- Offsets of the 64 columns of row r from origin o, or none outside the extents (R495). -/
def rowOffs (d : List Byte) (dim o r : Nat) : List (Option Nat) :=
  (List.range 64).map fun j => if Desc.inside d dim r j then some (Desc.elemOff d dim o r j) else none

/-! ### Counting of the vector and matrix units -/

/-- Elements that saturated and elements that were non-finite (R192). -/
def satTotal (cs : List Cnt) : Nat := cs.foldl (fun n c => n + c.satN) 0
def nfTotal (cs : List Cnt) : Nat := cs.foldl (fun n c => n + c.nfN) 0

/-- Add to VEC.SATCNT and VEC.NFCNT of a cluster. -/
def State.vecCount (s : State) (g sat nf : Nat) : State :=
  (s.addSat (Reg.vecSatcnt g) 31 0 sat).addSat (Reg.vecNfcnt g) 31 0 nf

/-- Add to MXE.SATCNT and MXE.NFCNT of an engine. -/
def State.mxeCount (s : State) (g e sat nf : Nat) : State :=
  (s.addSat (Reg.mxeSatcnt g e) 31 0 sat).addSat (Reg.mxeNfcnt g e) 31 0 nf

/-- The rounding of a converting write for one element: SR draws at the step, the tensor and the element's index (R145,
R147, R159). -/
def rndAt (j : Job) (mode stream tensor step index : Nat) : Rnd :=
  if mode = 1 then
    let u := Rng.draw16 j.key tensor step index (0x8000 + stream)
    if j.kt5 then .sr (u / 256) 8 else .sr u 16
  else if mode = 2 then .rtz
  else .rne

/-- A stochastic rounding mode reads the step in s3 (R97, R159). -/
def stepReg (mode : Nat) : List Nat := if mode = 1 then [3] else []

/-- The same at the step in s3. -/
def rndOf (j : Job) (mode stream tensor index : Nat) : Rnd := rndAt j mode stream tensor j.step index

/-! ### Converting writes into a tensor in memory (R146, R496) -/

/-- An element to be written: its offset, its value with the tensor exponent applied, and its rounding. -/
structure ElemOut where
  off : Nat
  inp : BlockIn
  deriving DecidableEq, Repr

/-- The block units that a list of elements touches, each once, in order of first touch. -/
def unitsOf (es : List ElemOut) : List Nat :=
  es.foldl (fun acc e => if acc.contains (e.off / 32) then acc else acc ++ [e.off / 32]) []

/-- The 32 values of a unit: the new ones, and the stored ones for the others, which are re-rounded with RNE; the flag tells
a stored code that reads as non-finite (R136). -/
def unitInputs (u : Nat) (es : List ElemOut) (old : List (Fp × Bool)) : List (BlockIn × Bool) :=
  (List.range 32).map fun i =>
    match es.reverse.find? fun e => e.off == 32 * u + i with
    | some e => (e.inp, false)
    | none => (⟨(old.getD i (.zero, false)).1, .rne⟩, (old.getD i (.zero, false)).2)

/-- A unit formed again: its bytes, and what its elements and the scale code read with the stored ones count (R139, R142,
R192). Stored elements enter with their exact values, beyond the range of FP32 too (DESIGN CHOICE, log 113). -/
def reformUnit (kt5 : Bool) (f u : Nat) (es : List ElemOut) (stored : List Byte) : List Byte × List Cnt :=
  let (old, badScale) := decodeUnit kt5 f stored
  let ins := unitInputs u es old
  let out := encodeBlock kt5 f (ins.map (·.1))
  let others := (List.range 32).any fun i => !(es.any fun e => e.off == 32 * u + i)
  (BlockOut.bytes f out, ⟨false, others && badScale⟩ :: (out.elems.zip ins).map fun x => x.1.cnt.or ⟨false, x.2.2⟩)

/-- Write elements of a tensor by value; what each written element and each re-rounded element counts. -/
def State.writeElems (s : State) (viol c : Nat) (kt5 : Bool) (d : List Byte) (es : List ElemOut) :
    List Cnt × State :=
  let f := Desc.fmt d
  let n := Format.unitBytes f
  if Format.block f then
    let us := unitsOf es
    let cells := us.map fun u => some (Desc.elemAddr d (32 * u))
    let (raw, s1) := s.gather viol c n cells
    let outs := us.mapIdx fun i u => reformUnit kt5 f u es ((raw.drop (i * n)).take n)
    (outs.flatMap (·.2), s1.scatter viol c n cells (outs.flatMap (·.1)))
  else
    let cs := es.map fun e => encodeElem kt5 f e.inp.mode e.inp.x
    (cs.map (·.cnt),
     s.scatter viol c n (es.map fun e => some (Desc.elemAddr d e.off)) (cs.flatMap fun x => leBytes n x.code))

end Machine

end Sys2Proof
end

