-- ==== Sys2Proof/Machine/Flags.lean ====
section
/-! DEFINITION. The flags of the instruction set: the predicates p0–p15, the compare that sets them, and the guard of an
instruction (R93, R101, R102). -/

set_option Elab.async false

namespace Sys2Proof

namespace Machine

/-- The value of a predicate; p0 always reads 1 (R93). -/
def pred (preds i : Nat) : Bool := i == 0 || bit preds i

/-- Write a predicate. A write to p0 is discarded. -/
def setPred (preds i : Nat) (v : Bool) : Nat := if i = 0 then preds else setFld preds i i (b2n v)

/-- Does the guard of an instruction let it execute (R92)? -/
def guard (preds w : Nat) : Bool := pred preds (wPidx w) != wPsense w

/-- Signed order of 64-bit values. -/
def slt64 (a b : Nat) : Bool := decide (toSigned 64 a < toSigned 64 b)

/-- The comparison CMP of BRA (R101, R102); none for the reserved code. -/
def braCmp (cmp a b : Nat) : Option Bool :=
  match cmp with
  | 0 => some true
  | 1 => some (a == b)
  | 2 => some (a != b)
  | 3 => some (slt64 a b)
  | 4 => some (!slt64 a b)
  | 5 => some (decide (a < b))
  | 6 => some (decide (b ≤ a))
  | _ => none

/-- Sign-extend a `w`-bit field to 64 bits. -/
def sext64 (w v : Nat) : Nat := ofSigned 64 (toSigned w v)

/-- A branch target: PC + 16 × OFFSET, within the 48-bit address space. -/
def branchTo (pc w off : Nat) : Nat := ofSigned 48 ((pc : Int) + 16 * toSigned w off)

end Machine

end Sys2Proof
end

