-- ==== Sys2Proof/Machine/Issue.lean ====
section
/-! DEFINITION. Fetching and issuing one instruction of a KIS stream: guard, hazards, queue capacity, reserved bits, and
the entry among the instructions in flight (R92–R100). -/

set_option Elab.async false

namespace Sys2Proof

namespace Machine

/-- The context whose stream the cluster's sequencer may issue from now: RUNNING, or PARKING and not yet parked; not
stalled, not halted, and not at the end of a run of reserved opcodes (R73, R99). -/
def State.issuing (s : State) (g : Nat) : Option Nat :=
  match (s.cl g).ctx with
  | none => none
  | some n =>
    if s.running && (s.cstate n == stRunning || s.cstate n == stParking) && decide ((s.cl g).stall = .none) && !(s.cl g).parked
        && (s.ctx n).cocoon.isNone
        && s.get (Reg.seqCstat g) 0 0 == 0 && decide ((s.cl g).resRun < 4096) then some n
    else none

/-- An instruction that has been fetched, and the state with the fetch's own effects. -/
structure Fetch where
  n : Nat
  idx : Nat
  pc : Nat
  word : Nat
  st : State
  deriving DecidableEq, Repr

/-- Fetch the instruction at SEQ.PC (R92, R127, R281, R282). -/
def State.fetchInstr (s : State) (g : Nat) : Option Fetch :=
  match s.issuing g with
  | none => none
  | some n =>
    let pc := s.get (Reg.seqPc g) 47 0
    let (bs, t) := s.load (Reg.seqViolcnt g) n pc 16
    some ⟨n, (s.cl g).idx, pc, leNat bs, t⟩

/-- Issue the instruction: PC moves on and ISSUED gains one (R127). -/
def State.advance (s : State) (g pc : Nat) : State :=
  (s.set (Reg.seqPc g) 47 0 (pc + 16)).addWrap (Reg.seqIssued g) 63 0 1

/-- An assigned opcode ends a run of reserved ones (R99). -/
def State.endRun (s : State) (g : Nat) : State := s.modCl g fun c => { c with resRun := 0 }

/-- Mask of bits [hi:lo]. -/
def bitsOf (hi lo : Nat) : Nat := 2 ^ (hi + 1) - 2 ^ lo

/-- Operand bits outside `used` that are not zero count once in SEQ.VIOLCNT, and the instruction executes (R100). -/
def State.countReserved (s : State) (g n w used : Nat) : State :=
  s.violateIf (w % 2 ^ 108 != w % 2 ^ 108 &&& used) (Reg.seqViolcnt g) (.ctx n)

/-- Cycles of a stall at WAIT, at BARRIER or on a full queue: SEQ.WAITCYC gains one at least (R127). -/
def State.waitCycles (s : State) (g : Nat) : State := s.addCycles (Reg.seqWaitcyc g) 1

/-- A pre-emption window has ended: LASTPRE of the context that left takes its length (R76). -/
def State.recordWindow (s : State) (w : Window) : State :=
  let (x, t) := s.draw
  t.set (Reg.ctxLastpre (w.out % 4096)) 31 0 (min x (2 ^ 32 - 1))

/-- The windows that `p` tells end. -/
def State.closeWindows (s : State) (p : Window → Bool) : State :=
  (s.windows.filter p).foldl State.recordWindow { s with windows := s.windows.filter fun w => !p w }

/-- A context that was made runnable no later than the PREEMPT write, and is not the one that leaves (R76). -/
def State.comesIn (s : State) (w : Window) (n : Nat) : Bool := n != w.out && decide ((s.ctx n).order < w.upTo)

/-- An instruction issues: the first one of the incoming context ends the pre-emption windows that wait for it (R76). -/
def State.endsWindow (s : State) (n : Nat) : State :=
  s.closeWindows fun w => w.part == s.partOf n && s.comesIn w n

/-- The fetched instruction issues. -/
def Fetch.begin (f : Fetch) (g : Nat) : State := (f.st.advance g f.pc).endsWindow f.n

/-- The matrix engines whose queues an instruction enters beside its unit's: those of an ABLK (R218). -/
def enginesOf (w : Nat) : List Nat := if wOp w = 0x50 then [fld (wXT w) 11 8, fld (wXT w) 11 8 + 1] else []

/-- Issue one instruction of the cluster's stream: `accept` tells the words of the row, `regs` the scalar registers that
the word reads or writes, `unit` the unit that takes it, `used` the operand bits it uses. A word that is not the row's,
or a pending register (R97), leaves the state as it is: the step has not come about. At a full unit (R95) issue stalls, and
the stall is counted. -/
def State.issue (s : State) (g : Nat) (accept : Nat → Bool) (regs : Fetch → List Nat) (unit : Nat → Unit)
    (used : Nat → Nat) (body : Fetch → State → State) : State :=
  match s.fetchInstr g with
  | none => s
  | some f =>
    if !accept f.word then s
    else if !guard (s.cl g).preds f.word then
      (((f.begin g).endRun g).addTag f.n f.idx (wTag f.word) 1)
    else if (regs f).any fun r => (s.pendingRegs f.n f.idx).contains r then s
    else if !s.hasRoom f.n f.idx (unit f.word) (enginesOf f.word) then s.waitCycles g
    else body f (((f.begin g).endRun g).countReserved g f.n f.word (used f.word))

/-- A control instruction completes at issue: its TAG counter gains one (R94). -/
def State.tagNow (s : State) (f : Fetch) : State := s.addTag f.n f.idx (wTag f.word) 1

/-- A reserved code in an operand field: a no-op counted once, with TAG + 1 at issue (R100). -/
def State.reservedCode (s : State) (g : Nat) (f : Fetch) : State :=
  (s.violate (Reg.seqViolcnt g) (.ctx f.n)).tagNow f

/-- Address of a descriptor slot (R66). -/
def State.slotAddr (s : State) (n slot : Nat) : Nat := fld (s.reg (Reg.ctxDescbase n)) 47 16 * 2 ^ 16 + 64 * slot

/-- Read a descriptor slot in full (R68). -/
def State.readDesc (s : State) (g n slot : Nat) : List Byte × State :=
  s.load (Reg.seqViolcnt g) n (s.slotAddr n slot) 64

/-- Which of the slots DA, DB, DC an opcode names (R113, R116, R118–R123). -/
def descUse (w : Nat) : Bool × Bool × Bool :=
  let op := wOp w
  if op = 0x12 || op = 0x42 then (false, false, false)
  else if op = 0x30 then (true, true, true)
  else if op = 0x40 then (true, true, true)
  else if op = 0x43 || op = 0x50 || op = 0x63 then (true, true, false)
  else if op = 0x60 || op = 0x61 then (true, true, true)
  else if op = 0x74 then (false, false, false)
  else if op = 0x10 && bit w 11 then (false, false, false)
  else (true, false, false)

/-- Read a slot when the opcode names it. -/
def State.descIf (s : State) (b : Bool) (g n slot : Nat) : List Byte × State :=
  if b then s.readDesc g n slot else ([], s)

/-- The slots that the program in DC names: for MMA with LAST its DSTSLOT and BIASSLOT (R178), for VCHAIN its SSLOT
(R195). -/
def programSlots (w : Nat) (dc : List Byte) : Option Nat × Option Nat :=
  if wOp w = 0x30 then
    let kind := fld (leAt dc 0 8) 63 62
    (if bit w (12 + 10) && kind == 0 then some (fld (leAt dc 0 8) 31 22) else none,
     if bit w (12 + 10) && kind != 2 && bit (leAt dc 8 8) 21 then some (fld (leAt dc 8 8) 31 22) else none)
  else if wOp w = 0x40 then (some (fld (leAt dc 0 8) 9 0), none)
  else (none, none)

def State.descOpt (s : State) (o : Option Nat) (g n : Nat) : List Byte × State :=
  match o with
  | some k => s.readDesc g n k
  | none => ([], s)

/-- KT5 emulation is on in the partition of a context (R161). -/
def State.kt5Of (s : State) (n : Nat) : Bool := s.get (Reg.cfgPartemu (s.partOf n)) 0 0 == 1

/-- Resolve a data-form instruction at issue: its descriptors and scalar operands (R68, R94). -/
def State.makeJob (s : State) (g : Nat) (f : Fetch) (flight : Nat) : Job × State :=
  let (ua, ub, uc) := descUse f.word
  let (da, s1) := s.descIf ua g f.n (wDA f.word)
  let (db, s2) := s1.descIf ub g f.n (wDB f.word)
  let (dc, s3) := s2.descIf uc g f.n (wDC f.word)
  let (px, py) := programSlots f.word dc
  let (dx, s4) := s3.descOpt px g f.n
  let (dy, s5) := s4.descOpt py g f.n
  (⟨flight, g, f.n, f.word, (s.cl g).sregs, da, db, dc, dx, dy, s.kt5Of f.n, (s.ctx f.n).key⟩, s5)

/-- The entry of an issued instruction among those in flight. Ledger and collective engines are agents outside the
partition (R73, R272). -/
def newFlight (g : Nat) (f : Fetch) (u : Unit) : Flight :=
  ⟨f.n, g, f.idx, wOp f.word, wTag f.word, u, enginesOf f.word, false, decide (u = .ledger) || decide (u = .collective), [], 0, 0, []⟩

/-- Put the instruction in flight, resolve its operands and hand it to `body`. -/
def State.dispatch (s : State) (g : Nat) (f : Fetch) (u : Unit) (body : Job → State → State) : State :=
  let (id, s1) := s.launchFlight (newFlight g f (s.place f.n f.idx u))
  let (j, s2) := s1.makeJob g f id
  body j s2

/-- Drop an instruction whose operands hold a reserved code: no-op, counted once, TAG + 1 at issue (R100). -/
def State.dropReserved (s : State) (j : Job) : State :=
  match Tab.find s.flights j.flight with
  | none => s
  | some f =>
    (({ s with flights := Tab.erase s.flights j.flight }).violate (Reg.seqViolcnt j.g) (.ctx j.ctx)).addTag
      j.ctx f.idx f.tag 1

/-- An excluded format: the instruction writes nothing and counts once; its TAG counter gains one as at completion
(R130). It enters no queue. -/
def State.dropFormat (s : State) (j : Job) : State :=
  ((s.violate (Reg.seqViolcnt j.g) (.ctx j.ctx)).modFlight j.flight fun f => { f with unit := .none, engs := [] }).markReady j.flight

/-- Issue a data-form instruction to a unit. -/
def State.issueData (s : State) (g : Nat) (accept : Nat → Bool) (regs : Fetch → List Nat) (unit : Nat → Unit)
    (used : Nat → Nat) (body : Job → State → State) : State :=
  s.issue g accept regs unit used fun f t => t.dispatch g f (unit f.word) body

/-- The scalar registers that fields SA, SB and SC name, where a row uses them; field value 0 names none (R110). -/
def dataRegs (a b c : Bool) (w : Nat) : List Nat :=
  ((if a then [wSA w] else []) ++ (if b then [wSB w] else []) ++ (if c then [wSC w] else [])).filter (· != 0)

/-- Masks of the fields of the data form. -/
def mDA : Nat := bitsOf 107 98
def mDB : Nat := bitsOf 97 88
def mDC : Nat := bitsOf 87 78
def mSA : Nat := bitsOf 77 72
def mSB : Nat := bitsOf 71 66
def mSC : Nat := bitsOf 65 60
def mTA : Nat := bitsOf 59 44
def mTB : Nat := bitsOf 43 28
def mFN (hi lo : Nat) : Nat := bitsOf (12 + hi) (12 + lo)
def mXT (hi lo : Nat) : Nat := bitsOf hi lo

/-- An opcode that the map of R98 assigns. -/
def assignedOp (op : Nat) : Bool :=
  (decide (1 ≤ op) && decide (op ≤ 8)) || (decide (0x10 ≤ op) && decide (op ≤ 0x13)) ||
  (decide (0x20 ≤ op) && decide (op ≤ 0x23)) || op == 0x30 || (decide (0x40 ≤ op) && decide (op ≤ 0x43)) ||
  op == 0x50 || op == 0x58 || (decide (0x60 ≤ op) && decide (op ≤ 0x63)) ||
  (decide (0x70 ≤ op) && decide (op ≤ 0x74)) || op == 0x80 || op == 0x81

/-- Write a scalar register of a context at a logical index: in the cluster that runs it, or in its cocoon, where the
outcome of work outside the partition waits for the resume (R73, R128). -/
def State.setSregOf (s : State) (n idx i v : Nat) : State :=
  match (s.ctx n).cocoon with
  | some co => s.modCtx n fun x => { x with cocoon := some { co with
      images := co.images.mapIdx fun k im =>
        if k = idx then { im with cl := { im.cl with sregs := im.cl.sregs.write i (BitVec.ofNat 64 v) } } else im } }
  | none =>
    match s.clusterAt n idx with
    | some g => s.setSreg g i v
    | none => s

/-- Record the first status of class Failed in SEQ.CSTAT (R124, R127). -/
def State.recordFail (s : State) (n idx op st : Nat) : State :=
  if !failedClass st then s
  else
    match (s.ctx n).cocoon with
    | some co => s.modCtx n fun x => { x with cocoon := some { co with
        images := co.images.mapIdx fun k im =>
          let old := (Tab.getD 0 im.regs 8).toNat
          if k = idx && fld old 31 24 == 0 then
            { im with regs := Tab.put im.regs 8 (BitVec.ofNat 64 (setFld (setFld old 31 24 st) 23 16 op)) }
          else im } }
    | none =>
      match s.clusterAt n idx with
      | some g =>
        if s.get (Reg.seqCstat g) 31 24 = 0 then
          (s.set (Reg.seqCstat g) 31 24 st).set (Reg.seqCstat g) 23 16 op
        else s
      | none => s

/-- What a completing instruction owes: its status register, its additions to other counters and its own TAG (R94, R105,
R115, R124). -/
def State.settle (s : State) (f : Flight) : State :=
  let s1 := if f.sreg = 0 then s else s.setSregOf f.ctx f.idx f.sreg f.status
  let s2 := s1.recordFail f.ctx f.idx f.op f.status
  let s3 := f.adds.foldl (fun t a => t.addTag f.ctx a.idx a.tag a.inc) s2
  s3.addTag f.ctx f.idx f.tag 1

end Machine

end Sys2Proof
end

