-- ==== Sys2Proof/Machine/Check.lean ====
section
/-! DEFINITION. Fault events, their class, the watch states of engines and the confirmation of a unit (R374–R379, R384–
R387), and the interrupt of a queued record (R453). -/

set_option Elab.async false

namespace Sys2Proof

namespace Machine

/-! ### MSI-X (R450, R453) -/

/-- Signal a vector: a masked one is left pending; otherwise the message is a memory write at the host. -/
def State.signal (s : State) (v : Nat) : State :=
  let e := Tab.getD (⟨0, 0, true⟩ : Msix) s.msix v
  if e.masked then { s with msixPending := if s.msixPending.contains v then s.msixPending else s.msixPending ++ [v] }
  else s.writePhys 0 (0x8000000000000 + e.addr % 2 ^ 51) (leBytes 4 e.data)

/-- A record entered the CHK or SEN event queue. -/
def State.signalEvent (s : State) : State := if s.get Reg.hifIrqctl 31 31 = 1 then s.signal 0 else s

/-! ### Events -/

/-- The job context of step control (R372); 0 names none, since context 0 runs on no cluster. -/
def State.jobCtx (s : State) : Nat := s.get Reg.stpRole 37 26

/-- The signed configuration blob is applied, so RWL fields are locked (R15). -/
def State.locked (s : State) : Bool := s.get Reg.secBlobstat 31 31 == 1

/-- The role: 0 worker, 1 manager, 2 root. Nothing but the blob sets it, so before one is applied the device is a worker
whatever STP.ROLE holds (R31, log 107). -/
def State.role (s : State) : Nat := if s.locked then s.get Reg.stpRole 39 38 else 0

/-- An event: its source, source unit (`cluster`: its location is a cluster) and address; the cluster's context and step when a cluster carries it; and
whether a link's retry was exhausted (R374, R377). -/
structure Event where
  source : Nat
  unit : Nat
  loc : Nat
  cluster : Bool
  addr : Nat
  carrier : Option (Nat × Nat)
  retry : Bool
  deriving DecidableEq, Repr

/-- Enabled pools by ID, in ascending order (R253). -/
def State.enabledPools (s : State) : List Nat :=
  (s.regs.filter fun r => decide (0x800000 ≤ r.1) && decide (r.1 < 0x8C0000) && decide (r.1 % 0x10000 < 0x2000)
      && r.1 % 0x40 == 0 && r.2.getLsbD 63).map
    fun r => 128 * ((r.1 - 0x800000) / 0x10000) + r.1 % 0x10000 / 0x40

/-- A region register holds an address. -/
def regionHas (v a : Nat) : Bool :=
  decide (fld v 51 21 * 2 ^ 21 ≤ a) && decide (a < (fld v 51 21 + fld v 20 0) * 2 ^ 21)

/-- Does a ledger region hold the address (R253, R375)? -/
def State.inLedgerRegion (s : State) (a : Nat) : Bool :=
  s.enabledPools.any fun k =>
    regionHas (s.reg (Reg.ldgPframe (k / 128) (k % 128))) a || regionHas (s.reg (Reg.ldgPpack (k / 128) (k % 128))) a ||
    regionHas (s.reg (Reg.ldgPspill (k / 128) (k % 128))) a || regionHas (s.reg (Reg.ldgPhost (k / 128) (k % 128))) a

/-- Step of an event: s3 of the cluster, or step control's current step, which is its last committed step + 1 (R375,
R362). -/
def State.eventStep (s : State) (e : Event) : Nat :=
  match e.carrier with
  | some (_, st) => st % 2 ^ 48
  | none => (s.get Reg.stpStepcnt 47 0 + 1) % 2 ^ 48

/-- Does the event concern the job (R375, R376)? -/
def State.concernsJob (s : State) (e : Event) : Bool :=
  s.jobCtx != 0 && (match e.carrier with
    | some (n, _) => n == s.jobCtx
    | none => true)

/-- The event falls in the open window of its step (R375). -/
def State.inOpenWindow (s : State) (e : Event) : Bool :=
  s.chk.openStep == some (s.eventStep e) && (s.ctx s.jobCtx).commit != some (s.eventStep e)

/-- SUSPECT rather than FAULT (R375). -/
def State.isSuspect (s : State) (e : Event) : Bool :=
  s.inOpenWindow e && !e.retry && (!(e.source == 4 || e.source == 5) || s.inLedgerRegion e.addr)

/-- The queue holds 64 records; when it is full the newest is discarded and EVLOST gains one (R397, R398). -/
def State.queueFault (s : State) (r : FaultRec) : State :=
  if s.chk.events.length < 64 then
    ({ s with chk := { s.chk with events := s.chk.events ++ [r] } }).signalEvent
  else s.addSat Reg.chkStat 15 0 1

/-- Hold SUSPECT for a step. -/
def State.holdSuspect (s : State) (st : Nat) : State :=
  (({ s with chk := { s.chk with suspects := if s.chk.suspects.contains st then s.chk.suspects
      else s.chk.suspects ++ [st] } }).set Reg.chkSuspect 63 63 1).set Reg.chkSuspect 47 0 st

/-- Set FAULT for every later vote. -/
def State.setFault (s : State) : State := { s with chk := { s.chk with fault := true } }

/-- Confirmation of a unit: FLAGGED and DRAINING, a record of source Ah, FAULT in every later vote (R386). -/
def State.confirm (s : State) (unit loc step : Nat) : State :=
  (((s.set Reg.chkStat 31 31 1).set Reg.chkStat 30 30 1).queueFault
    ⟨stDrained, 10, unit, step, loc, true, 0⟩).setFault

/-- Do two events come from one source unit (R374, R385)? Sources 4h and 6h both name a stack; a stack or a channel is its
LOC, a service core its UNIT, and a path endpoint, cluster or die both. -/
def sameUnit (s1 u1 l1 : Nat) (c1 : Bool) (s2 u2 l2 : Nat) (c2 : Bool) : Bool :=
  let kind := fun x => if x = 6 then 4 else x
  kind s1 == kind s2 &&
    (if kind s1 = 4 || kind s1 = 5 then l1 == l2 else if s1 = 7 then u1 == u2 else u1 == u2 && l1 == l2 && c1 == c2)

/-- The partition whose LAUNCH completions count for an event's source unit: that of the cluster which its location names; none
for a unit that has no partition (R385). -/
def State.unitPart (s : State) (e : Event) : Option Nat := if e.cluster then s.partOfCl e.loc else none

/-- A second event of sources 2h to 7h from one source unit confirms it; a first is remembered for WATCHSTEPS LAUNCH
completions (R385). While a restore runs, the first confirms (R416). -/
def State.countOnce (s : State) (e : Event) : State :=
  let same := fun (o : OneEvent) => sameUnit o.source o.unit o.loc o.cluster e.source e.unit e.loc e.cluster
  if e.source < 2 || 7 < e.source then s
  else if s.get Reg.snpRstat 55 53 = 1 then s.confirm e.unit e.loc (s.eventStep e)
  else if s.chk.once.any same then
    ({ s with chk := { s.chk with once := s.chk.once.filter fun o => !same o } }).confirm e.unit e.loc (s.eventStep e)
  else { s with chk := { s.chk with once := s.chk.once ++
      [⟨e.source, e.unit, e.loc, e.cluster, s.unitPart e, s.get Reg.chkWatch 15 0⟩] } }

/-- Record a fault event of sources 0h to 8h and place it (R374–R376, R385). -/
def State.raiseEvent (s : State) (e : Event) : State :=
  let st := s.eventStep e
  let job := s.concernsJob e
  let sus := s.isSuspect e
  let s1 := s.queueFault ⟨stSuspect, e.source, e.unit, st, e.loc, job && !sus,
    if 3 ≤ e.source && e.source ≤ 6 then e.addr else 0⟩
  let s2 := if !job then s1 else if sus then s1.holdSuspect st else s1.setFault
  s2.countOnce e

/-- The event's carrier for a cluster: its context and s3. -/
def State.carrier (s : State) (g : Nat) : Option (Nat × Nat) :=
  match (s.cl g).ctx with
  | some n => some (n, sreg (s.cl g).sregs 3)
  | none => none

/-! ### Engine states (R384) -/

/-- State of an engine: 0 NORMAL, 1 WATCH, 2 CONFIRMED. -/
def State.engState (s : State) (g e : Nat) : Nat := s.get (Reg.chkEngstate g) (2 * e + 1) (2 * e)

def State.setEngState (s : State) (g e v : Nat) : State := s.set (Reg.chkEngstate g) (2 * e + 1) (2 * e) v

/-- Begin to watch an engine. -/
def State.watchEngine (s : State) (g e : Nat) : State :=
  ({ s with chk := { s.chk with watch := Tab.put s.chk.watch (16 * g + e) (s.get Reg.chkWatch 15 0) } }).setEngState g e 1

/-- Confirm an engine faulty. -/
def State.confirmEngine (s : State) (g e step : Nat) : State :=
  if s.engState g e = 2 then s else (s.setEngState g e 2).confirm e g step

/-- A check failure (0h) on an engine: the event, and NORMAL to WATCH or WATCH to CONFIRMED. -/
def State.checkFailure (s : State) (g e : Nat) : State :=
  let ev : Event := ⟨0, e, g, true, 0, s.carrier g, false⟩
  let s1 := s.raiseEvent ev
  if s.engState g e = 0 then s1.watchEngine g e
  else if s.engState g e = 1 then s1.confirmEngine g e (s.eventStep ev)
  else s1

/-- A mismatch (1h) with this engine in the pair: `own` and `other` tell whether its run and the other run failed their
checks, `first` that its own run raised its failures as events (0h). Such a failure has put a NORMAL engine in WATCH, and the
mismatch is evaluated with it as one (R397 row 1). -/
def State.mismatchOn (s : State) (g e step : Nat) (own other first : Bool) : State :=
  if s.engState g e = 1 then if first && own && other then s else s.confirmEngine g e step
  else if s.engState g e = 0 then
    if own && !other then s.confirmEngine g e step
    else if !own && !other then s.watchEngine g e
    else s
  else s

/-- Watched engines of a completed LAUNCH's partition count down, and so do single events (R384, R385). -/
def State.countLaunch (s : State) (p : Nat) : State :=
  let ws := s.chk.watch.filter fun w => bit (s.reg (Reg.cfgPartmap p)) (w.1 / 16)
  let s1 := ws.foldl (fun t w =>
    if w.2 ≤ 1 then
      ({ t with chk := { t.chk with watch := Tab.erase t.chk.watch w.1 } }).setEngState (w.1 / 16) (w.1 % 16)
        (if t.engState (w.1 / 16) (w.1 % 16) = 1 then 0 else t.engState (w.1 / 16) (w.1 % 16))
    else { t with chk := { t.chk with watch := Tab.put t.chk.watch w.1 (w.2 - 1) } }) s
  { s1 with chk := { s1.chk with once := (s1.chk.once.map fun o =>
      if o.part.isNone || o.part == some p then { o with left := o.left - 1 } else o).filter fun o => o.left != 0 } }

/-- Errors detected while a command runs (R377–R379): corrected ones are counted, the others raise events. A parity failure
on a service core takes the core out of service; `corrected` tells that the repeat on another core succeeded. -/
def State.detect (s : State) (carrier : Option (Nat × Nat)) (es : List FaultIn) : State :=
  es.foldl (fun t e =>
    if e.source = 7 then
      let c := e.unit % 8
      let t1 := { t with sec := { t.sec with parity := if t.sec.parity.contains c then t.sec.parity else t.sec.parity ++ [c] } }
      let t2 := t1.set (Reg.hifCorever c) 31 31 0
      if e.corrected then t2 else t2.raiseEvent ⟨7, c, e.loc, false, 0, carrier, false⟩
    else if e.corrected then
      if e.source = 3 then t.addSat Reg.chkMemerr 63 48 1
      else if e.source = 4 then t.addSat Reg.chkMemerr 47 32 1
      else if e.source = 5 then t.addSat Reg.chkMemerr 31 16 1
      else t
    else if e.source < 2 || 5 < e.source then t
    else (if 3 ≤ e.source then t.addSat Reg.chkMemerr 15 0 1 else t).raiseEvent
      ⟨e.source, e.unit, e.loc, e.cluster && decide (e.source < 4), e.addr, carrier, e.retry && e.source == 2⟩) s

end Machine

end Sys2Proof
end

