-- ==== Sys2Proof/Machine/Queue.lean ====
section
/-! DEFINITION. Queues: fetching a command entry from its ring, completion entries, disabling a queue, the doorbell and
the commands NOP, DESCW, FENCE and the reserved codes (R58–R65). -/

set_option Elab.async false

namespace Sys2Proof

namespace Machine

/-! ### Ring pointers (R58, R59) -/

def State.queOn (s : State) (q : Nat) : Bool := s.get (Reg.queCtl q) 31 31 == 1
def State.ringSize (s : State) (q : Nat) : Nat := 2 ^ s.get (Reg.queCtl q) 3 0
def State.qTail (s : State) (q : Nat) : Nat := s.get (Reg.quePtr q) 31 16
def State.qHead (s : State) (q : Nat) : Nat := s.get (Reg.quePtr q) 15 0
def State.cplHead (s : State) (q : Nat) : Nat := s.get (Reg.queCplptr q) 31 16
def State.cplTail (s : State) (q : Nat) : Nat := s.get (Reg.queCplptr q) 15 0

/-- The completion ring has room (R64). -/
def State.cplRoom (s : State) (q : Nat) : Bool :=
  (s.cplTail q + 65536 - s.cplHead q) % 65536 != s.ringSize q

/-! ### Command entries (R62) -/

def Cmd.code (c : Cmd) : Nat := leAt c.entry 0 1
def Cmd.cpl (c : Cmd) : Bool := bit (leAt c.entry 0 8) 8
def Cmd.ordered (c : Cmd) : Bool := bit (leAt c.entry 0 8) 9
def Cmd.usertag (c : Cmd) : Nat := leAt c.entry 4 4
def Cmd.arg0 (c : Cmd) : Nat := leAt c.entry 8 8
def Cmd.arg1 (c : Cmd) : Nat := leAt c.entry 16 8
def Cmd.arg2 (c : Cmd) : Nat := leAt c.entry 24 8

/-! ### Completion entries (R64) -/

/-- Write one completion entry at CPLTAIL. DEVTIME is the REFCLK count, a free value (R83). -/
def State.writeCpl (s : State) (q : Nat) (c : Cpl) : State :=
  let n := s.ringSize q
  let t := s.cplTail q
  let (time, s1) := s.draw
  let w := c.status * 2 ^ 24 + (1 - t / n % 2) * 2 ^ 23 + q % 8 * 2 ^ 16 + c.ptr
  let a := fld (s.reg (Reg.queCplbase q)) 47 12 * 4096 + 16 * (t % n)
  let s2 := s1.store Reg.queViolcnt (q / 8) a (leBytes 4 w ++ leBytes 4 c.usertag ++ leBytes 8 (time % 2 ^ 64))
  let s3 := s2.set (Reg.queCplptr q) 15 0 (t + 1)
  if s3.get Reg.hifIrqctl 30 30 = 1 then s3.signal (1 + q % 255) else s3

/-- Post an entry, or keep it until the ring has room. -/
def State.postCpl (s : State) (q : Nat) (c : Cpl) : State :=
  if (s.queue q).cpls.isEmpty && s.cplRoom q then s.writeCpl q c
  else s.modQueue q fun x => { x with cpls := x.cpls ++ [c] }

/-- Write waiting entries while the ring has room. -/
def State.drainCpls (s : State) (q : Nat) (cs : List Cpl) : State :=
  match cs with
  | [] => s.modQueue q fun x => { x with cpls := [] }
  | c :: rest =>
    if s.cplRoom q then (s.writeCpl q c).drainCpls q rest
    else s.modQueue q fun x => { x with cpls := c :: rest }

/-- Complete a command that has started. A command whose queue was disabled meanwhile gets no entry (R59 step 2). -/
def State.completeCmd (s : State) (c : Cmd) (st : Nat) : State :=
  if (s.queue c.q).running.contains c then
    let s1 := s.modQueue c.q fun x => { x with running := x.running.filter (· != c) }
    if c.cpl then s1.postCpl c.q ⟨c.ptr, st, c.usertag⟩ else s1
  else s

/-! ### Fetching (R58, R64, R65) -/

/-- May the queue fetch? -/
def State.canFetch (s : State) (q : Nat) : Bool :=
  s.queOn q && s.cstate (q / 8) != stFree && s.qHead q != s.qTail q && s.cplRoom q && (s.queue q).cpls.isEmpty
    && (s.queue q).waiting.isNone

/-- The entry at HEAD. -/
def State.headEntry (s : State) (q : Nat) : Cmd × State :=
  let a := fld (s.reg (Reg.queBase q)) 47 12 * 4096 + 64 * (s.qHead q % s.ringSize q)
  let (bs, t) := s.load Reg.queViolcnt (q / 8) a 64
  (⟨q, s.qHead q, bs⟩, t)

/-- An ORDERED command starts only after the previous command of its queue completes (R62). -/
def State.orderOk (s : State) (c : Cmd) : Bool :=
  !c.ordered || !((s.queue c.q).running.any fun r => r.ptr == (c.ptr + 65535) % 65536)

/-- Fetch the entry at HEAD when its code is the row's and it may start; it then counts as running. -/
def State.fetchAny (s : State) (q : Nat) (accept : Nat → Bool) : Option (Cmd × State) :=
  if s.canFetch q then
    let (c, t) := s.headEntry q
    if accept c.code && s.orderOk c then
      let t1 := t.set (Reg.quePtr q) 15 0 (s.qHead q + 1)
      let t2 := if t1.qHead q = t1.qTail q then
          t1.modCtx (q / 8) fun x => { x with sched := x.sched.filter (· != q) } else t1
      some (c, t2.modQueue q fun x => { x with running := x.running ++ [c] })
    else none
  else none

/-- Commands are fetched in the Active state only (R435). -/
def State.fetchCmd (s : State) (q : Nat) (accept : Nat → Bool) : Option (Cmd × State) :=
  if s.running then s.fetchAny q accept else none

/-- Start a command of a row: nothing happens when no such command stands at the head of the queue. -/
def State.command (s : State) (q : Nat) (accept : Nat → Bool) (body : Cmd → State → State) : State :=
  match s.fetchCmd q accept with
  | none => s
  | some (c, t) => body c t

/-- A service command of a code on a queue of context 0 (R57, R63, R402). -/
def State.service (s : State) (q code : Nat) (body : Cmd → State → State) : State :=
  if q / 8 = 0 then s.command q (fun c => c == code) body else s

/-! ### NOP, DESCW, FENCE and reserved codes (R63) -/

/-- Codes that the chapters assign to service commands. -/
def serviceCodes : List Nat :=
  [0x90, 0x91, 0x92, 0xA0, 0xA1, 0xB0, 0xB1, 0xB2, 0xB3, 0xB4, 0xC0, 0xD0, 0xD1, 0xD2]

/-- A reserved command code for a context (R57, R63). -/
def reservedCmd (n code : Nat) : Bool :=
  if n = 0 then code == 1 || code == 2 || (decide (4 ≤ code) && !serviceCodes.contains code)
  else decide (4 ≤ code)

/-- NOP completes with OK. -/
def execNop (q : Nat) (s : State) : Host.Outcome State Fault Refusal :=
  .next (s.command q (· == 0) fun c t => t.completeCmd c stOk)

/-- A reserved code executes as NOP and is counted in QUE.VIOLCNT. -/
def execReservedCommand (q : Nat) (s : State) : Host.Outcome State Fault Refusal :=
  .next (s.command q (reservedCmd (q / 8)) fun c t =>
    (t.violate Reg.queViolcnt (.ctx (q / 8))).completeCmd c stOk)

/-- Copy descriptors into slots one by one; slots beyond 1,023 are discarded. -/
def State.copyDescs (s : State) (n src slot count : Nat) : State :=
  match count with
  | 0 => s
  | k + 1 =>
    if slot < 1024 then
      let (bs, t) := s.load Reg.queViolcnt n src 64
      (t.store Reg.queViolcnt n (t.slotAddr n slot) bs).copyDescs n (src + 64) (slot + 1) k
    else s

/-- DESCW copies the descriptors at ARG0 into the slots from ARG1[9:0] on. The source address is taken at a multiple of
64. -/
def State.descw (s : State) (c : Cmd) : State :=
  let n := c.q / 8
  let count := fld c.arg1 20 10
  let slot := fld c.arg1 9 0
  if count = 0 then s.violate Reg.queViolcnt (.ctx n)
  else (s.copyDescs n (fld c.arg0 47 6 * 64) slot count).violateIf (decide (1024 < slot + count)) Reg.queViolcnt (.ctx n)

/-- DESCW; on a queue of context 0 its code is reserved (R57). -/
def execDescw (q : Nat) (s : State) : Host.Outcome State Fault Refusal :=
  .next (if q / 8 = 0 then s else s.command q (· == 2) fun c t => (t.descw c).completeCmd c stOk)

/-- No earlier command of the context's eight queues is incomplete: none has started without completing and no LAUNCH
waits at a head (log 27). -/
def State.allComplete (s : State) (n : Nat) : Bool :=
  (List.range 8).all fun i =>
    (s.queue (8 * n + i)).running.isEmpty && (s.queue (8 * n + i)).waiting.isNone

/-- FENCE starts, and completes, once every earlier command of the eight queues has completed. -/
def execFence (q : Nat) (s : State) : Host.Outcome State Fault Refusal :=
  .next (if s.allComplete (q / 8) then s.command q (· == 3) fun c t => t.completeCmd c stOk else s)

/-! ### Clearing EN (R59) -/

/-- A LAUNCH completion of the job context ends what SNP.RSTAT shows (R415). -/
def State.endRestored (s : State) (n : Nat) : State :=
  if n = s.jobCtx && n != 0 && s.get Reg.snpRstat 55 53 != 1 then s.set Reg.snpRstat 55 53 0 else s

/-- Complete a fetched command that has not started, a LAUNCH, with RESET; its entry is posted while the ring has room. -/
def State.resetWaiting (s : State) (q : Nat) : State :=
  match (s.queue q).waiting with
  | none => s
  | some c => (if c.cpl && s.cplRoom q then s.writeCpl q ⟨c.ptr, stReset, c.usertag⟩ else s).endRestored (q / 8)

/-- Without a LAUNCH at a head a BOUND context is not runnable (R79). -/
def Ctx.dropQueue (x : Ctx) (q : Nat) (bound : Bool) : Ctx :=
  let as := x.arrivals.filter (· != q)
  { x with arrivals := as, sched := x.sched.filter (· != q), runnable := x.runnable && !(bound && as.isEmpty) }

/-- Clear EN and proceed as R59 orders. Entries of completed commands that still wait for room in the ring are not written
(log 23). -/
def State.disableQueue (s : State) (q : Nat) : State :=
  let n := q / 8
  let s1 := (s.resetWaiting q).setQueue q .blank
  let s2 := (s1.set (Reg.queCtl q) 31 31 0).modCtx n fun x => x.dropQueue q (s.cstate n == stBound)
  (s2.setReg (Reg.quePtr q) 0).setReg (Reg.queCplptr q) 0

/-- Clear EN of every queue of a context. -/
def State.disableQueues (s : State) (n : Nat) : State :=
  (List.range 8).foldl (fun t i => if t.queOn (8 * n + i) then t.disableQueue (8 * n + i) else t) s

/-! ### The doorbell (R60, R61, R452) -/

/-- Does R60 discard a doorbell write? -/
def State.doorbellBad (s : State) (q v : Nat) : Bool :=
  let tail := v % 65536
  !s.queOn q || v / 65536 != 0
    || decide (s.ringSize q < (tail + 65536 - s.qHead q) % 65536)
    || decide (s.ringSize q < (tail + 65536 - s.qTail q) % 65536)

/-- A wake event (R437): the wake starts in each low-power state that the event leaves, given by the highest; while a state
is being entered it is kept until entry completes (R448). -/
def State.wakeEvent (s : State) (highest : Nat) : State :=
  let st := s.powerState
  if s.pins.thermtrip then s
  else if (st = 1 || st = 2) && decide (st ≤ highest) then s.set Reg.pwrStat 31 29 4
  else if st = 3 && decide (s.pwr.low ≤ highest) then { s with pwr := { s.pwr with wake := true } }
  else s

/-- A valid doorbell, which wakes a Parked device (R435, R437): TAIL reads the new value and the queue enters its context's
fetch schedule. -/
def State.ringDoorbell (s : State) (q v : Nat) : State :=
  if s.doorbellBad q v then s.violate Reg.queViolcnt .host
  else
    let t := (s.set (Reg.quePtr q) 31 16 (v % 65536)).wakeEvent 1
    if t.qHead q = t.qTail q then t
    else t.modCtx (q / 8) fun x => { x with sched := if x.sched.contains q then x.sched else x.sched ++ [q] }

end Machine

end Sys2Proof
end

