-- ==== Sys2Proof/Machine/Context.lean ====
section
/-! DEFINITION. Contexts: binding, selection and launch, pre-emption into a cocoon and its restoration, the end of a
launch, and the rotating spare (R48–R57, R63, R65, R71–R79, R96, R157, R394, R395, R471, R497). -/

set_option Elab.async false

namespace Sys2Proof

namespace Machine

/-! ### Runnable contexts (R79) -/

/-- A context becomes runnable and takes its place in the order. -/
def State.makeRunnable (s : State) (n : Nat) : State :=
  if (s.ctx n).runnable then s
  else ({ s with nextOrder := s.nextOrder + 1 }).modCtx n fun x => { x with runnable := true, order := s.nextOrder }

def State.stopRunnable (s : State) (n : Nat) : State := s.modCtx n fun x => { x with runnable := false }

/-- Runnable contexts of a partition. -/
def State.runnables (s : State) (p : Nat) : List Nat := (s.ctxsOf p).filter fun n => (s.ctx n).runnable

/-- The first in the order in which they became runnable, the lower context ID first among equals. -/
def State.firstRunnable (s : State) (ns : List Nat) : Option Nat :=
  ns.foldl (fun acc n =>
    match acc with
    | none => some n
    | some m => if (s.ctx n).order < (s.ctx m).order then some n else some m) none

def State.share (s : State) (n : Nat) : Nat := s.get (Reg.ctxCtl n) 15 0
def State.quantum (s : State) (p : Nat) : Nat := s.get (Reg.cfgPartctl p) 23 0

/-- The context selected when the partition's clusters are free: by order when QUANTUM is 0; otherwise any runnable
context with a share, and any at all when none has one. That choice is a free value (log 28). -/
def State.pick (s : State) (p : Nat) : Option Nat × State :=
  let ns := s.runnables p
  if s.quantum p = 0 then (s.firstRunnable ns, s)
  else
    let ws := ns.filter fun n => s.share n != 0
    let cs := if ws.isEmpty then ns else ws
    if cs.isEmpty then (none, s)
    else
      let (x, t) := s.draw
      (cs[x % cs.length]?, t)

/-! ### The rotating spare (R394) -/

def State.rotOn (s : State) (p : Nat) : Bool := s.get (Reg.chkLevel p) 2 2 == 1

/-- The next member in descending order after `g`, wrapping. -/
def nextDown (ms : List Nat) (g : Nat) : Option Nat :=
  match (ms.filter (· < g)).getLast? with
  | some x => some x
  | none => ms.getLast?

/-- A cluster becomes the spare of a partition; it has not been tested in that place (R394). -/
def State.putSpare (s : State) (p g : Nat) : State :=
  { s with chk := { s.chk with spares := Tab.put s.chk.spares p g, spareTested := s.chk.spareTested.filter (· != g) } }

/-- At the first LAUNCH the spare is the partition's highest cluster. -/
def State.ensureSpare (s : State) (p : Nat) : State :=
  if s.rotOn p && (Tab.find s.chk.spares p).isNone && (Tab.find s.chk.removed p).isNone then
    match (s.members p).getLast? with
    | some g => s.putSpare p g
    | none => s
  else s

/-- The clusters that a LAUNCH uses, in logical order. -/
def State.scheduled (s : State) (p : Nat) : List Nat :=
  if s.rotOn p then
    match Tab.find s.chk.spares p with
    | some g => (s.members p).filter (· != g)
    | none => s.members p
  else s.members p

/-- At a step boundary the spare moves once its test has passed; a removed spare is replaced from the removed cluster
(R394). -/
def State.rotateSpare (s : State) (p : Nat) : State :=
  if !s.rotOn p then s
  else
    match Tab.find s.chk.removed p with
    | some g =>
      match nextDown (s.members p) g with
      | some h =>
        let t := s.putSpare p h
        { t with chk := { t.chk with removed := Tab.erase t.chk.removed p } }
      | none => s
    | none =>
      match Tab.find s.chk.spares p with
      | some g =>
        if s.chk.spareTested.contains g then
          match nextDown (s.members p) g with
          | some h => s.putSpare p h
          | none => s
        else s
      | none => s

/-! ### LAUNCH (R63, R96, R210) -/

/-- Counter and status registers of cluster `g` that a LAUNCH clears and a cocoon saves: all of its window but the
VIOLCNTs, MXE.CHKCTL and MXE.CHKLAST (R74, R127, R186, R210, R330). -/
def clusterReg (g off : Nat) : Bool :=
  decide (off / 0x10000 = 0x40 + g) && off % 0x10000 != 0xF0 && off % 0x1000 != 0xFF0 && off % 0x10000 != 0x1800
    && off % 0x10000 != 0x1808

/-- The registers at LAUNCH: s0 to s3 set, all others zero (R96). -/
def launchRegs (arg idx n step : Nat) : Memory 64 :=
  Memory.write (Memory.write (Memory.write (Memory.write [] 0 (BitVec.ofNat 64 arg)) 1 (BitVec.ofNat 64 idx)) 2
    (BitVec.ofNat 64 n)) 3 (BitVec.ofNat 64 step)

/-- The state of a cluster as a launched stream finds it. Stores that held another context are zeroed (R471). -/
def launchCluster (c : Cluster) (n idx cnt : Nat) (cmd : Cmd) : Cluster :=
  let same := c.last == some n
  { Cluster.blank with
    ctx := some n, idx := idx, last := some n,
    sregs := launchRegs (fld cmd.arg1 47 0) idx cnt (fld cmd.arg2 47 0),
    tile := if same then c.tile else [], trans := if same then c.trans else [], wide := if same then c.wide else [],
    pool := c.pool, busy := c.busy, inactive := c.inactive, held := c.held }

/-- Start the stream on one cluster; tiles left in the tray are discarded and counted (R210). -/
def State.launchOn (s : State) (n cnt : Nat) (cmd : Cmd) (gi : Nat × Nat) : State :=
  let g := gi.1
  let left := (s.cl g).tray.length
  let s1 := ((s.clearRegs (clusterReg g)).violateN (Reg.tryViolcnt g) (.ctx n) left).setCl g
    (launchCluster (s.cl g) n gi.2 cnt cmd)
  s1.set (Reg.seqPc g) 47 4 (fld cmd.arg0 47 4)

/-- The tray of a cluster is empty and so are its counters (R213). -/
def State.emptyTray (s : State) (g : Nat) : State :=
  (s.clearRegs fun r => r == Reg.tryPushed g || r == Reg.tryPopped g).modCl g fun c => { c with tray := [], trayOrder := [] }

/-- The stores of a cluster are zeroed as it passes to context `n` (R471). -/
def State.zeroStores (s : State) (n g : Nat) : State :=
  (s.emptyTray g).modCl g fun c => { c with last := some n, vregs := [], tile := [], trans := [], wide := [], shadows := [] }

/-- The clusters of the partition that take no stream pass to the incoming context too: all of them at a RESUME, and at a LAUNCH
those that held another context (R471, log 109). -/
def State.zeroRest (s : State) (n p : Nat) (gs : List Nat) (resume : Bool) : State :=
  ((s.members p).filter fun g => !gs.contains g && (resume || (s.cl g).last != some n)).foldl (fun t g => t.zeroStores n g) s

/-- The generator key from the argument block (R157). -/
def State.readKey (s : State) (n arg : Nat) : State :=
  let (bs, t) := s.load Reg.ctxViolcnt n arg 16
  t.modCtx n fun x => { x with key := Quad.ofNat (leNat bs) }

/-- Does a context that was made runnable no later than the PREEMPT write still stand to come in (R76)? -/
def State.someComesIn (s : State) (p : Nat) (w : Window) : Bool :=
  (s.ctxsOf p).any fun n => s.comesIn w n && ((s.ctx n).runnable || liveState (s.cstate n))

/-- When no such context exists a window ends as the clusters are released (R76). -/
def State.closeUnless (s : State) (p : Nat) : State :=
  s.closeWindows fun w => w.part == p && !(s.someComesIn p w || s.cstate w.out == stParking)

/-- The checking level of partition `p` takes effect (R40, R380). -/
def State.takeLevel (s : State) (p : Nat) : State :=
  { s with chk := { s.chk with levels := Tab.put s.chk.levels p (s.get (Reg.chkLevel p) 1 0) } }

/-- A LAUNCH or RESUME on the partition: clusters that were added while a context ran are Idle no more (R51). -/
def State.endAdded (s : State) (p : Nat) : State :=
  { s with pwr := { s.pwr with added := s.pwr.added.filter fun g => !(s.members p).contains g } }

/-- The checked LAUNCH starts on every scheduled cluster. Where no other stream of the partition is held the partition is
at a step boundary, and its checking level takes effect (R40). -/
def State.startLaunch (s : State) (n p : Nat) (c : Cmd) : State :=
  let gs := s.scheduled p
  let s0 := (if s.partHeld p then s else s.takeLevel p).endAdded p
  let s1 := gs.zipIdx.foldl (fun t gi => t.launchOn n gs.length c gi) (s0.zeroRest n p gs false)
  let s2 := (s1.readKey n (fld c.arg1 47 0)).modCtx n fun x => { x with launch := some c, instances := [] }
  let s3 := { s2 with chk := { s2.chk with
    openStep := if n = s2.jobCtx then some (fld c.arg2 47 0) else s2.chk.openStep } }
  s3.setCstate n stRunning stOk

/-- Take the waiting LAUNCH that reached its head first (R65). -/
def State.takeArrival (s : State) (n : Nat) : Option (Cmd × State) :=
  match (s.ctx n).arrivals with
  | [] => none
  | q :: rest =>
    match (s.queue q).waiting with
    | none => none
    | some c =>
      some (c, (s.modCtx n fun x => { x with arrivals := rest }).modQueue q fun x =>
        { x with waiting := none, running := x.running ++ [c] })

/-- After a LAUNCH has been taken, the context stays runnable only for a further one that waits. -/
def State.refreshRunnable (s : State) (n : Nat) : State :=
  let t := s.stopRunnable n
  if t.cstate n = stBound && !(t.ctx n).arrivals.isEmpty then t.makeRunnable n else t

/-- Does the LAUNCH complete with MISMATCH (R63, R395)? -/
def State.launchMismatch (s : State) (p : Nat) (c : Cmd) : Bool :=
  fld c.arg2 55 48 != (s.members p).length || (s.rotOn p && (s.members p).length == 1)

/-- A LAUNCH completes and runs nothing. -/
def State.refuseLaunch (s : State) (c : Cmd) (st : Nat) : State := (s.completeCmd c st).endRestored (c.q / 8)

/-- The selected BOUND context's LAUNCH is checked and starts, or completes with MISMATCH, or with BUSY on a flagged
device (R386). -/
def State.selectBound (s : State) (n p : Nat) : State :=
  match s.takeArrival n with
  | none => s.stopRunnable n
  | some (c, t) =>
    if t.get Reg.chkStat 31 31 = 1 then ((t.refuseLaunch c stBusy).refreshRunnable n).closeUnless p
    else if t.launchMismatch p c then ((t.refuseLaunch c stMismatch).refreshRunnable n).closeUnless p
    else ((t.ensureSpare p).startLaunch n p c).stopRunnable n

/-- The selected COCOONED context enters WAKING, or stays with MISMATCH (R55, R56). Its streams take as many clusters as the
cocoon has images: one that was added while the context ran has none, and is without a stream, Idle no more (R51, log 91). -/
def State.selectCocooned (s : State) (n p : Nat) : State :=
  let t := s.stopRunnable n
  if t.get (Reg.ctxStat n) 15 8 != (t.members p).length % 256 then (t.set (Reg.ctxStat n) 31 24 stMismatch).closeUnless p
  else
    let t1 := t.ensureSpare p
    let cnt := match (t1.ctx n).cocoon with
      | some co => co.images.length
      | none => 0
    let gs := (t1.scheduled p).take cnt
    let t2 := gs.zipIdx.foldl (fun u gi => (u.clearRegs (clusterReg gi.1)).modCl gi.1 fun c =>
      { Cluster.blank with ctx := some n, idx := gi.2, last := c.last, pool := c.pool, busy := c.busy,
                           inactive := c.inactive, held := c.held }) ((t1.endAdded p).zeroRest n p gs true)
    t2.setCstate n stWaking stOk

/-- A cluster of the partition is under test or due, so that the test comes before any incoming context, and it is not the
partition's rotating spare (R392–R394, R397). -/
def State.testHolds (s : State) (p : Nat) : Bool :=
  (s.members p).any fun g =>
    (s.get (Reg.chkTest g) 31 30 == 1 || s.get (Reg.chkTest g) 31 30 == 2 || s.chk.forced.contains g) && Tab.find s.chk.spares p != some g

/-- Select a runnable context when the partition's clusters are free (R79). The partition's next LAUNCH waits for the tests that
have their opportunity then (R392). -/
def State.select (s : State) (p : Nat) : State :=
  if (s.holder p).isSome || s.testHolds p || !s.partExists p then s
  else
    match s.pick p with
    | (none, t) => t
    | (some n, t) => if t.cstate n = stBound then t.selectBound n p else t.selectCocooned n p

/-- CONTEXT_SELECT. -/
def execContextSelect (p : Nat) (s : State) : Host.Outcome State Fault Refusal := .next (s.whenRunning <| s.select p)

/-- A LAUNCH reaches the head of its queue: BUSY on a flagged device (R386); otherwise it waits at the head, and the
context is selected at once when the clusters are free and no other LAUNCH of the context executes (R65, R79). -/
def State.launchCmd (s : State) (c : Cmd) : State :=
  let n := c.q / 8
  if s.get Reg.chkStat 31 31 = 1 then s.refuseLaunch c stBusy
  else
    let s1 := (s.modQueue c.q fun x => { x with running := x.running.filter (· != c), waiting := some c }).modCtx n
      fun x => { x with arrivals := x.arrivals ++ [c.q] }
    if s1.cstate n = stBound then (s1.makeRunnable n).select (s1.partOf n) else s1

/-- LAUNCH; on a queue of context 0 its code is reserved (R57). -/
def execLaunch (q : Nat) (s : State) : Host.Outcome State Fault Refusal :=
  .next (if q / 8 = 0 then s else s.command q (· == 1) fun c t => t.launchCmd c)

/-! ### The end of a launch (R55, R109) -/

/-- Status with which a halted cluster's stream ended (R109). -/
def State.haltStatus (s : State) (g : Nat) : Nat :=
  let f := s.get (Reg.seqCstat g) 31 24
  if f != 0 then f
  else match (s.cl g).stall with
    | .halt _ code => code
    | _ => 0

/-- The LAUNCH's status: OK, or that of the lowest logical index that is not OK. -/
def State.launchStatus (s : State) (gs : List Nat) : Nat :=
  match gs with
  | [] => stOk
  | g :: rest => if s.haltStatus g = stOk then s.launchStatus rest else s.haltStatus g

/-- Release a cluster: its stores keep what they hold (R471). -/
def Cluster.release (c : Cluster) : Cluster := { c with ctx := none, stall := .none, parked := false, map := none }

/-- Release every cluster of a context. -/
def State.releaseClusters (s : State) (n : Nat) : State :=
  (s.clustersOf n).foldl (fun t g => t.modCl g Cluster.release) s

/-- A step boundary: watch counts, the spare moves, and a new checking level takes effect (R40, R384, R385, R392, R394). -/
def State.stepBoundary (s : State) (p : Nat) : State := ((s.countLaunch p).rotateSpare p).takeLevel p

/-- The executing LAUNCH completes: its entry is posted, the clusters are released and the context is BOUND. The windows of a
context that was PARKING end with the release (R55, R76). -/
def State.endLaunch (s : State) (n : Nat) : State :=
  let p := s.partOf n
  let s1 := match (s.ctx n).launch with
    | some c => s.completeCmd c (s.launchStatus (s.clustersOf n))
    | none => s
  let s2 := (s1.modCtx n fun x => { x with launch := none, byQuantum := false, byPreempt := false }).releaseClusters n
  let s3 := s2.setCstate n stBound stOk
  let s4 := if s.cstate n = stParking then s3.closeWindows (·.out == n) else s3
  ((s4.endRestored n).stepBoundary p).refreshRunnable n

/-- Every launched stream of the context has ended. -/
def State.allHalted (s : State) (n : Nat) : Bool :=
  (s.clustersOf n).all fun g => s.get (Reg.seqCstat g) 0 0 == 1

/-- End the stream on a cluster; the last cluster completes the LAUNCH (R109). -/
def State.endStream (s : State) (g n : Nat) : State :=
  let t := s.set (Reg.seqCstat g) 0 0 1
  if t.allHalted n then t.endLaunch n else t

/-! ### Pre-emption (R73, R76, R79, R497) -/

/-- The cluster stands at a yield point (R71), or its stream has ended. A WAIT whose target is reached completes (R128). -/
def State.atYield (s : State) (g : Nat) : Bool :=
  (s.cl g).parked || s.get (Reg.seqCstat g) 0 0 == 1 ||
  (match (s.cl g).stall with
   | .none => false
   | .wait _ t target ext _ => ext && !tagReached (s.cl g) t target
   | .barrier _ _ _ _ => true
   | .halt _ _ => true)

/-- The live-state map that the yield point names (R497). -/
def yieldMap (c : Cluster) : Option Nat :=
  match c.stall with
  | .wait _ _ _ _ m => m
  | .barrier _ _ _ m => m
  | _ => if c.parked then c.map else none

/-- Enter PARKING. A PREEMPT write opens the pre-emption window (R76, R78). -/
def State.park (s : State) (n : Nat) (byPreempt : Bool) : State :=
  let t := (s.setCstate n stParking stOk).modCtx n fun x =>
    { x with byPreempt := byPreempt, byQuantum := !byPreempt, resumed := false }
  if byPreempt then { t with windows := t.windows ++ [⟨n, t.partOf n, t.nextOrder⟩] } else t

/-- QUANTUM_EXPIRY: the slice ends with another context runnable (R55, R79). -/
def execQuantumExpiry (p : Nat) (s : State) : Host.Outcome State Fault Refusal :=
  .next (s.whenRunning <| match s.holder p with
    | some n =>
      if s.cstate n = stRunning && s.quantum p != 0 && (s.runnables p).any (· != n) then s.park n false else s
    | none => s)

/-- Bit k of a live-state map. -/
def mapMarks (m : List Byte) (k : Nat) : Bool := bit (leAt m (k / 8) 1) (k % 8)

/-- The on-chip state that a map keeps: marked units and slots (R497). -/
def keepMarked (m : List Byte) (c : Cluster) : Cluster :=
  { c with tile := c.tile.keep fun a => mapMarks m (a / 16384),
           wide := c.wide.keep fun a => mapMarks m (1024 + a / 4096) }

/-- A halted cluster contributes no on-chip state but the tray and the transposing buffer, which are always saved (R210,
R497). -/
def noStores (c : Cluster) : Cluster := { c with tile := [], wide := [], engines := [], vq := [], trayOrder := [] }

/-! ### The cocoon's size and place (R74, R75, R497; log 53) -/

/-- Accumulations that a cluster holds open: 16 KiB of partials and 8 KiB of check lanes each, of 0.75 MiB in all. -/
def Cluster.openAccums (c : Cluster) : Nat :=
  c.engines.foldl (fun n e => n + b2n e.2.acc0.isOpen + b2n e.2.acc1.isOpen) 0

/-- Bytes of the tray and the transposing buffer, each saved whole when it is not empty. -/
def Cluster.alwaysBytes (c : Cluster) : Nat :=
  (if c.tray.isEmpty then 0 else 2 ^ 21) + (if c.trans.isEmpty then 0 else 2 ^ 20)

/-- Bytes of on-chip state that a cluster contributes: nothing more when halted, what the map marks, or everything. -/
def Cluster.chipBytes (c : Cluster) (halted : Bool) (map : Option (List Byte)) : Nat :=
  if halted then c.alwaysBytes
  else
    match map with
    | none => 20 * 2 ^ 20 + 3 * 2 ^ 18
    | some m => ((List.range 1024).filter (mapMarks m)).length * 2 ^ 14
        + ((List.range 32).filter fun w => mapMarks m (1024 + w)).length * 2 ^ 15 + c.openAccums * 24576 + c.alwaysBytes

/-- Channels in use, in ascending order: those that a cocoon is striped over. -/
def State.cocoonChannels (s : State) : List Nat := (List.range 12).filter fun c => s.ddrBytes c != 0

/-- First address of the cocoon area in a channel. -/
def State.cocoonBase (s : State) (n c : Nat) : Nat :=
  0x40000000000 + 0x8000000000 * c + fld (s.reg (Reg.ctxCocoon n)) 38 21 * 2 ^ 21

/-- Bytes of the area in each of `k` channels: what R74 requires of `m` clusters, divided and rounded up to granules (R75). -/
def cocoonArea (m k : Nat) : Nat := ceilDiv (ceilDiv (m * 21 * 2 ^ 20 + 2 ^ 16) k) (2 ^ 21) * 2 ^ 21

/-- Address of 4 KiB unit `u` of a cocoon: successive units lie in successive channels (R75). -/
def State.cocoonUnit (s : State) (n u : Nat) : Option Nat :=
  let cs := s.cocoonChannels
  cs[u % cs.length]?.map fun c => s.cocoonBase n c + u / cs.length * 4096

/-- The cocoon's bytes enter its area, encrypted under the context's key (R74, R296): in each channel the units that fall to
it, as far as the channel reaches. What would lie above is discarded, and counts once a channel in the context's CTX.VIOLCNT
(R277). -/
def State.writeCocoon (s : State) (n bytes : Nat) : State :=
  let cs := s.cocoonChannels
  let units := ceilDiv bytes 4096
  cs.zipIdx.foldl (fun t c =>
    let lo := t.cocoonBase n c.1
    let top := 0x40000000000 + 0x8000000000 * c.1 + t.ddrBytes c.1
    let hi := lo + (units + cs.length - 1 - c.2) / cs.length * 4096
    (t.veil (t.accessKey n lo) lo (min top hi)).violateIf (decide (top < hi)) Reg.ctxViolcnt (.ctx n)) s

/-- Saved registers of a cluster, by offset in its window. -/
def State.savedRegs (s : State) (g : Nat) : Tab RegVal :=
  (s.regs.filter fun r => clusterReg g r.1).map fun r => (r.1 % 0x10000, r.2)

/-- The map that a live-state map's address names: 256 bytes, at a multiple of 256 (log 92). Reserved bits that are set
count once in SEQ.VIOLCNT (R100, R497). -/
def State.readMap (s : State) (g n a : Nat) : List Byte × State :=
  let (m, t) := s.load (Reg.seqViolcnt g) n (a / 256 * 256) 256
  (m, t.violateIf ((m.drop 132).any (· != 0)) (Reg.seqViolcnt g) (.ctx n))

/-- The image of one cluster, and the bytes that it takes in the cocoon (R74, R497). A cluster that waits at a HALT for work
outside its partition names no map and has not halted: it gives all its on-chip state, and is restored at the HALT (DESIGN
CHOICE, log 119). -/
def State.imageOf (s : State) (n g : Nat) : Image × Nat × State :=
  let c := s.cl g
  let regBytes := 68 * 2 ^ 10
  if s.get (Reg.seqCstat g) 0 0 = 1 then (⟨noStores c, s.savedRegs g, true⟩, regBytes + c.chipBytes true none, s)
  else
    match yieldMap c with
    | none => (⟨c, s.savedRegs g, false⟩, regBytes + c.chipBytes false none, s)
    | some a =>
      let (m, t) := s.readMap g n a
      (⟨keepMarked m c, s.savedRegs g, false⟩, regBytes + c.chipBytes false (some m), t)

/-- Images of all clusters in logical order, and their bytes. -/
def State.imagesOf (s : State) (n : Nat) (gs : List Nat) : List Image × Nat × State :=
  match gs with
  | [] => ([], 0, s)
  | g :: rest =>
    let (im, b, t) := s.imageOf n g
    let (ims, bs, u) := t.imagesOf n rest
    (im :: ims, b + bs, u)

/-- The cocoon of a context: the images, the descriptor-slot table and the queue positions (R73). -/
def State.formCocoon (s : State) (n : Nat) (gs : List Nat) : Cocoon × State :=
  let (ims, b, t) := s.imagesOf n gs
  let (d, u) := t.load Reg.ctxViolcnt n (t.slotAddr n 0) (2 ^ 16)
  (⟨ims, Memory.ofList 0 d, (List.range 8).map fun i => (u.qHead (8 * n + i), u.qTail (8 * n + i)), b + 2 ^ 16, false⟩, u)

/-- Instructions of the context that run within the partition. -/
def State.inPartition (s : State) (n : Nat) : Bool := s.flights.any fun f => f.2.ctx == n && !f.2.outside

/-- Shadow units not yet compared: shadow work drains with the partition (R397). -/
def State.shadowsLeft (s : State) (n : Nat) : Bool := (s.clustersOf n).any fun g => !(s.cl g).shadows.isEmpty

/-- Clusters of a context by logical index. -/
def State.byIndex (s : State) (n : Nat) : List Nat :=
  (List.range (s.clustersOf n).length).filterMap fun i => s.clusterAt n i

/-- PARK_DRAINED: the cocoon write starts once every cluster has reached a yield point and drained, or the context
returns to BOUND when every stream has ended (R55, R73). -/
def execParkDrained (n : Nat) (s : State) : Host.Outcome State Fault Refusal :=
  .next (s.whenRunning <|
    if s.cstate n = stParking && (s.ctx n).cocoon.isNone && (s.clustersOf n).all s.atYield && !s.inPartition n
        && !s.shadowsLeft n then
      if s.allHalted n then s.endLaunch n
      else
        let (co, t) := s.formCocoon n (s.byIndex n)
        t.modCtx n fun x => { x with cocoon := some co }
    else s)

/-- COCOON_WRITTEN: the bytes are in the cocoon area; COCOONED with PREEMPTED, the clusters released; a context cocooned by
QUANTUM expiry is runnable at once, as is one parked for a forced test (R55, R79, R393). -/
def execCocoonWritten (n : Nat) (s : State) : Host.Outcome State Fault Refusal :=
  .next (s.whenRunning <|
    match (s.ctx n).cocoon with
    | none => s
    | some co =>
      if s.cstate n != stParking || co.written then s
      else
        let p := s.partOf n
        let s1 := ((s.writeCocoon n co.bytes).modCtx n fun x =>
          { x with cocoon := some { co with written := true } }).releaseClusters n
        let s2 := ((s1.setCstate n stCocooned stPreempted).set (Reg.ctxStat n) 15 8 (s1.members p).length).addWrap
          (Reg.ctxPreempts n) 31 0 1
        (if (s2.ctx n).byQuantum then s2.makeRunnable n else s2).closeUnless p)

/-- Restore one image to its cluster: registers and state; the cluster keeps its power state (R497). -/
def State.restoreImage (s : State) (n : Nat) (g idx : Nat) (im : Image) : State :=
  let s1 := s.clearRegs (clusterReg g)
  let s2 := im.regs.foldl (fun t r => t.setReg (0x400000 + 0x10000 * g + r.1) r.2.toNat) s1
  s2.modCl g fun c => { im.cl with ctx := some n, idx := idx, last := some n, parked := false, map := none,
                                   pool := c.pool, busy := c.busy, inactive := c.inactive, held := c.held }

/-- Addresses of jobs and flights follow the cluster that now carries the logical index. -/
def State.rehome (s : State) (n : Nat) : State :=
  { s with flights := s.flights.map fun f =>
      if f.2.ctx == n then (f.1, { f.2 with g := (s.clusterAt n f.2.idx).getD f.2.g }) else f }

/-- A test that became overdue while the context was WAKING runs at its next yield point (R393). -/
def State.parkForced (s : State) (n : Nat) : State :=
  if (s.clustersOf n).any fun g => s.chk.forced.contains g then s.park n false else s

/-- COCOON_READ: issue resumes after the yield point; the key is read again and cached entries go (R55, R157, R283). The
descriptor-slot table in memory and the queues stand as they are, with what was done to them meanwhile (log 53). -/
def execCocoonRead (n : Nat) (s : State) : Host.Outcome State Fault Refusal :=
  .next (s.whenRunning <|
    match (s.ctx n).cocoon with
    | none => s
    | some co =>
      if s.cstate n != stWaking then s
      else
        let s1 := ((s.byIndex n).zip co.images).zipIdx.foldl (fun t x => t.restoreImage n x.1.1 x.2 x.1.2) s
        let s2 := (s1.modCtx n fun x => { x with cocoon := none, resumed := false, byQuantum := false,
                                                 byPreempt := false }).dropCaches n
        let arg := match (s2.ctx n).launch with
          | some c => fld c.arg1 47 0
          | none => match co.images with
            | im :: _ => sreg im.cl.sregs 0
            | [] => 0
        let s3 := ((s2.readKey n arg).rehome n).set (Reg.ctxStat n) 15 8 0
        (s3.setCstate n stRunning stOk).parkForced n)

end Machine

end Sys2Proof
end

