-- ==== Sys2Proof/Machine/Control.lean ====
section
/-! DEFINITION. The control instructions and completion (R94, R99, R101–R109, R433). -/

set_option Elab.async false

namespace Sys2Proof

namespace Machine

/-- Rows accept a word by its opcode. -/
def opIs (op w : Nat) : Bool := wOp w == op

/-- Issue a control instruction. -/
def State.control (s : State) (g op used : Nat) (regs : Nat → List Nat) (body : Fetch → State → State) : State :=
  s.issue g (opIs op) (fun f => regs f.word) (fun _ => .none) (fun _ => used) body

/-! ### BRA and LOOP -/

def braUsed : Nat := bitsOf 107 87 + bitsOf 63 0

/-- Scalar registers that a BRA reads. -/
def braRegs (w : Nat) : List Nat := fld w 107 102 :: (if bit w 95 then [] else [fld w 101 96])

/-- The effect of a BRA: a branch, or a predicate (R102). A write to p0 is discarded and counted (R93). -/
def State.bra (s : State) (g : Nat) (f : Fetch) : State :=
  let r := (s.cl g).sregs
  let w := f.word
  let b := if bit w 95 then sext64 32 (fld w 63 32) else sreg r (fld w 101 96)
  match braCmp (fld w 94 92) (sreg r (fld w 107 102)) b with
  | none => s.reservedCode g f
  | some c =>
    if bit w 91 then
      let t := (s.modCl g fun k => { k with preds := setPred k.preds (fld w 90 87) c }).violateIf
        (fld w 90 87 == 0) (Reg.seqViolcnt g) (.ctx f.n)
      t.tagNow f
    else (if c then s.set (Reg.seqPc g) 47 0 (branchTo f.pc 32 (fld w 31 0)) else s).tagNow f

def execBra (g : Nat) (s : State) : Host.Outcome State Fault Refusal :=
  .next (s.control g 0x01 braUsed braRegs fun f t => t.bra g f)

def loopUsed : Nat := bitsOf 107 95 + bitsOf 63 0

def loopRegs (w : Nat) : List Nat := fld w 107 102 :: (if bit w 95 then [] else [fld w 101 96])

/-- The effect of a LOOP (R103): the limit is read before the addition. -/
def State.loop (s : State) (g : Nat) (f : Fetch) : State :=
  let r := (s.cl g).sregs
  let w := f.word
  let i := fld w 107 102
  let lim := if bit w 95 then sext64 24 (fld w 47 24) else sreg r (fld w 101 96)
  let v := ofSigned 64 ((sreg r i : Int) + toSigned 16 (fld w 63 48))
  let t := s.setSreg g i v
  (if fld w 23 0 != 0 && slt64 v lim then t.set (Reg.seqPc g) 47 0 (branchTo f.pc 24 (fld w 23 0)) else t).tagNow f

def execLoop (g : Nat) (s : State) : Host.Outcome State Fault Refusal :=
  .next (s.control g 0x02 loopUsed loopRegs fun f t => t.loop g f)

/-! ### WAIT -/

def waitUsed : Nat := bitsOf 107 71

def waitRegs (w : Nat) : List Nat :=
  (if bit w 100 then [fld w 99 94] else []) ++ (if bit w 77 && fld w 76 71 != 0 then [fld w 76 71] else [])

/-- The effect of a WAIT: it completes, or issue stalls (R104). -/
def State.waitOn (s : State) (g : Nat) (f : Fetch) : State :=
  let r := (s.cl g).sregs
  let w := f.word
  let t := fld w 107 101
  let target := (fld w 93 78 + (if bit w 100 then sreg r (fld w 99 94) % 65536 else 0)) % 65536
  let map := if bit w 77 && fld w 76 71 != 0 then some (sreg r (fld w 76 71) % 2 ^ 48) else none
  if t = 0 then s.reservedCode g f
  else if tagReached (s.cl g) t target then s.tagNow f
  else s.modCl g fun c => { c with stall := .wait (wTag w) t target (bit w 77) map }

def execWait (g : Nat) (s : State) : Host.Outcome State Fault Refusal :=
  .next (s.control g 0x03 waitUsed waitRegs fun f t => t.waitOn g f)

/-- The cluster's sequencer is running the context: not parked into a cocoon. -/
def State.activeOn (s : State) (g : Nat) : Option Nat :=
  match (s.cl g).ctx with
  | none => none
  | some n =>
    if s.running && (s.cstate n == stRunning || s.cstate n == stParking) && (s.ctx n).cocoon.isNone then some n
    else none

/-- WAIT_SATISFIED: the stalled WAIT completes and issue resumes (R104, R128). -/
def execWaitSatisfied (g : Nat) (s : State) : Host.Outcome State Fault Refusal :=
  .next (
    match s.activeOn g, (s.cl g).stall with
    | some n, .wait tag t target _ _ =>
      if tagReached (s.cl g) t target then
        ((s.modCl g fun c => { c with stall := .none }).addTag n (s.cl g).idx tag 1).waitCycles g
      else s
    | _, _ => s)

/-! ### SIGNAL -/

def signalUsed : Nat := bitsOf 107 86

/-- The additions of a SIGNAL: to one cluster or to all of the partition. -/
def signalAdds (w n : Nat) : List TagAdd :=
  if bit w 100 then (List.range n).map fun i => ⟨i, fld w 107 101, fld w 93 86⟩
  else [⟨fld w 99 94, fld w 107 101, fld w 93 86⟩]

/-- Cluster count of the launch, as s2 held it at LAUNCH. -/
def State.launchCount (s : State) (n : Nat) : Nat := (s.clustersOf n).length

/-- The effect of a SIGNAL: a release is issued (R105), and issue goes on past it while it waits (log 93). A DEST beyond the
partition adds nothing and is counted. -/
def State.signalIssue (s : State) (g : Nat) (f : Fetch) : State :=
  let w := f.word
  let n := s.launchCount f.n
  if fld w 107 101 = 0 || fld w 93 86 = 0 then s.reservedCode g f
  else
    let bad := !bit w 100 && decide (n ≤ fld w 99 94)
    ((s.violateIf bad (Reg.seqViolcnt g) (.ctx f.n)).launchFlight
      { newFlight g f .none with adds := if bad then [] else signalAdds w n }).2

def execSignal (g : Nat) (s : State) : Host.Outcome State Fault Refusal :=
  .next (s.control g 0x04 signalUsed (fun _ => []) fun f t => t.signalIssue g f)

/-- Every instruction that the cluster issued before number `i` has completed. -/
def State.earlierDone (s : State) (f : Flight) (i : Nat) : Bool :=
  !(s.flights.any fun p => p.2.ctx == f.ctx && p.2.idx == f.idx && decide (p.1 < i))

/-- An instruction completes: it leaves the instructions in flight and what it owes is applied. -/
def State.complete (s : State) (i : Nat) (f : Flight) : State :=
  ({ s with flights := Tab.erase s.flights i }).settle f

/-- SIGNAL_RELEASE: the additions are applied (R105). -/
def execSignalRelease (i : Nat) (s : State) : Host.Outcome State Fault Refusal :=
  .next (s.whenRunning <|
    match Tab.find s.flights i with
    | none => s
    | some f => if f.op = 0x04 && s.earlierDone f i then s.complete i f else s)

/-- The activity units that hold an instruction (R424, R432). -/
def Flight.units (f : Flight) : List Nat := (activityOf f.unit).toList ++ f.engs

/-- A unit that holds its work keeps its instructions from completing (R424, R432). -/
def State.flightHeld (s : State) (f : Flight) : Bool := f.units.any fun u => s.unitHeld f.g u

/-- Every earlier instruction in the queues of the engines that hold an instruction beside its unit has run: entries are
served in queue order (R95, R187, R218, R382). -/
def State.queueTurn (s : State) (i : Nat) (f : Flight) : Bool :=
  !(s.flights.any fun p => decide (p.1 < i) && p.2.ctx == f.ctx && p.2.idx == f.idx && !p.2.ready
      && f.engs.any fun e => p.2.holds (.engine e))

/-! ### YIELD and BARRIER -/

def yieldUsed : Nat := bitsOf 107 102

/-- The map that a register field names. -/
def mapOf (r : Memory 64) (i : Nat) : Option Nat := if i = 0 then none else some (sreg r i % 2 ^ 48)

/-- The effect of a YIELD: a PARKING context parks here (R73, R106). -/
def State.yieldAt (s : State) (g : Nat) (f : Fetch) : State :=
  let t := s.tagNow f
  if t.cstate f.n = stParking then
    t.modCl g fun c => { c with parked := true, map := mapOf c.sregs (fld f.word 107 102) }
  else t

def execYield (g : Nat) (s : State) : Host.Outcome State Fault Refusal :=
  .next (s.control g 0x05 yieldUsed (fun w => if fld w 107 102 = 0 then [] else [fld w 107 102])
    fun f t => t.yieldAt g f)

def barrierUsed : Nat := bitsOf 107 72

def barScope (w : Nat) : Nat := fld w 107 106

/-- Registers that a BARRIER reads or writes. -/
def barrierRegs (w : Nat) : List Nat := [fld w 105 100, fld w 99 94, fld w 77 72].filter (· != 0)

/-- The release of a context's BARRIER is under way and the cluster at a logical index still awaits its wave (R433). -/
def State.awaitsWave (s : State) (n idx : Nat) : Bool :=
  match (s.ctx n).release with
  | some r => r.due.any (·.1 == idx)
  | none => false

/-- The cluster stands at a BARRIER of the partition, or of the domain, whose release has not begun. -/
def State.reached (s : State) (n : Nat) (domain : Bool) (g : Nat) : Bool :=
  match (s.cl g).stall with
  | .barrier d _ _ _ => d == domain && !s.awaitsWave n (s.cl g).idx
  | _ => false

/-- Every cluster of the context has reached the BARRIER (R107). -/
def State.allAtBarrier (s : State) (n : Nat) (domain : Bool) : Bool := (s.clustersOf n).all (s.reached n domain)

/-- Waves W of a slope, and its interval D in nanoseconds (R432). -/
def slopeWaves (ramp : Nat) : Nat := if ramp = 0 then 16 else if ramp = 1 then 8 else 4
def slopeNs (ramp : Nat) : Nat := if ramp = 0 then 500 else if ramp = 1 then 250 else 125

/-- The slope in force on a die: while a boosted setpoint has settled there, the next steeper one (R434). -/
def State.slopeOn (s : State) (die : Nat) : Nat :=
  if s.pwr.settled.contains die then min 2 (s.pwr.ramp + 1) else s.pwr.ramp

/-- The time of a cluster's wave after the release instant: k × D, where its logical index mod W is k; W and D are those of the
slope in force on its die at this instant (R433). -/
def State.waveNs (s : State) (g : Nat) : Nat :=
  let r := s.slopeOn (g / 16)
  (s.cl g).idx % slopeWaves r * slopeNs r

/-- Start the release of a barrier: each cluster that has reached it awaits its wave (R433). -/
def State.beginRelease (s : State) (n st : Nat) (domain : Bool) : State :=
  let due := ((s.clustersOf n).filter (s.reached n domain)).map fun g => ((s.cl g).idx, s.waveNs g)
  s.modCtx n fun x => { x with release := some ⟨st, domain, due⟩ }

/-- The effect of a partition BARRIER: the cluster waits; the last one to reach it releases it (R107). -/
def State.barrierAt (s : State) (g : Nat) (f : Fetch) : State :=
  let t := s.modCl g fun c =>
    { c with stall := .barrier false (wTag f.word) (fld f.word 99 94) (mapOf c.sregs (fld f.word 77 72)) }
  if t.allAtBarrier f.n false then t.beginRelease f.n stOk false else t

/-- BARRIER with SCOPE = 00b, or a reserved code of SCOPE (R100). -/
def execBarrier (g : Nat) (s : State) : Host.Outcome State Fault Refusal :=
  .next (s.issue g (fun w => opIs 0x06 w && barScope w != 1) (fun f => barrierRegs f.word) (fun _ => .none)
    (fun _ => barrierUsed) fun f t => if barScope f.word = 0 then t.barrierAt g f else t.reservedCode g f)

/-- The BARRIER of one cluster completes at its wave, with its status register (R107, R124, R433). A PARKING context stops
there, since a BARRIER is a yield point (R71, R73). -/
def State.releaseOne (s : State) (n st : Nat) (g : Nat) : State :=
  match (s.cl g).stall with
  | .barrier _ tag sdst map =>
    let parking := s.cstate n == stParking
    let s1 := s.modCl g fun c => { c with stall := .none, parked := parking, map := if parking then map else none }
    let s2 := if sdst = 0 then s1 else s1.setSreg g sdst st
    ((s2.recordFail n (s.cl g).idx 0x06 st).addTag n (s.cl g).idx tag 1).waitCycles g
  | _ => s

/-- A worker consumes its barrier token when its BARRIER completes (R358). -/
def State.consumeToken (s : State) : State :=
  if s.role = 0 then { s with stp := { s.stp with consumed := s.stp.granted } } else s

/-- The clusters whose wave comes first, and those that await later ones (R433). -/
def Release.next (r : Release) : List Nat × List (Nat × Nat) :=
  let now := (r.due.map (·.2)).foldl min ((r.due.headD (0, 0)).2)
  ((r.due.filter (·.2 == now)).map (·.1), r.due.filter (·.2 != now))

/-- BARRIER_WAVE: the clusters of the next wave complete the BARRIER; waves of dies with unlike D come in the order of their
times (R433). -/
def execBarrierWave (p : Nat) (s : State) : Host.Outcome State Fault Refusal :=
  .next (s.whenRunning <|
    match s.holder p with
    | none => s
    | some n =>
      match (s.ctx n).release with
      | none => s
      | some r =>
        if (s.ctx n).cocoon.isSome then s
        else
          let (now, later) := r.next
          let s1 := ((s.clustersOf n).filter fun g => now.contains (s.cl g).idx).foldl (fun t g => t.releaseOne n r.status g) s
          let s2 := s1.modCtx n fun x => { x with release := if later.isEmpty then none else some { r with due := later } }
          if r.domain && later.isEmpty then s2.consumeToken else s2)

/-! ### HALT and reserved opcodes -/

def haltUsed : Nat := bitsOf 107 93

/-- The stream ends once the cluster has nothing in flight (R109) and its shadow units are compared (R383, log 110). -/
def State.tryEnd (s : State) (g n : Nat) : State :=
  match (s.cl g).stall with
  | .halt tag _ =>
    if (s.flightsOf n (s.cl g).idx).isEmpty && (s.cl g).shadows.isEmpty then (s.addTag n (s.cl g).idx tag 1).endStream g n else s
  | _ => s

/-- The effect of a HALT: a reserved status code is taken as OK and counted (R109). -/
def State.haltAt (s : State) (g : Nat) (f : Fetch) : State :=
  let w := f.word
  let code := if bit w 99 then sreg (s.cl g).sregs (fld w 98 93) % 256 else fld w 107 100
  let t := s.violateIf (reservedStatus code) (Reg.seqViolcnt g) (.ctx f.n)
  (t.modCl g fun c => { c with stall := .halt (wTag w) (if reservedStatus code then stOk else code) }).tryEnd g f.n

def execHalt (g : Nat) (s : State) : Host.Outcome State Fault Refusal :=
  .next (s.control g 0x08 haltUsed (fun w => if bit w 99 then [fld w 98 93] else []) fun f t => t.haltAt g f)

/-- STREAM_END: the awaited work of a HALT has completed (R109). -/
def execStreamEnd (g : Nat) (s : State) : Host.Outcome State Fault Refusal :=
  .next (
    match s.activeOn g with
    | some n => if s.get (Reg.seqCstat g) 0 0 = 0 then s.tryEnd g n else s
    | none => s)

/-- The effect of a reserved opcode: counted unless predicated off, TAG + 1, one more in the run (R99). -/
def State.reservedOp (s : State) (g : Nat) (f : Fetch) : State :=
  let t := (f.begin g).violateIf (guard (s.cl g).preds f.word) (Reg.seqViolcnt g) (.ctx f.n)
  (t.modCl g fun c => { c with resRun := c.resRun + 1 }).addTag f.n f.idx (wTag f.word) 1

def execReservedOpcode (g : Nat) (s : State) : Host.Outcome State Fault Refusal :=
  .next (
    match s.fetchInstr g with
    | none => s
    | some f => if assignedOp (wOp f.word) then s else s.reservedOp g f)

/-- RESERVED_RUN_HALT: after 4,096 consecutive reserved opcodes the stream ends as HALT does, with INCOMPLETE (R99). The
status is the stream's; no instruction set it, and SEQ.CSTAT:FAILCODE stays as it was (log 94). -/
def execReservedRunHalt (g : Nat) (s : State) : Host.Outcome State Fault Refusal :=
  .next (
    match s.activeOn g with
    | some n =>
      if 4096 ≤ (s.cl g).resRun && decide ((s.cl g).stall = .none) && s.get (Reg.seqCstat g) 0 0 == 0 then
        (s.modCl g fun c => { c with stall := .halt 0 stIncomplete }).tryEnd g n
      else s
    | none => s)

end Machine

end Sys2Proof
end

