-- ==== Sys2Proof/Machine/Link.lean ====
section
/-! DEFINITION. Mladord Link ports: flow units, credits, sequencing and replay, packets and routes (R336–R346). -/

set_option Elab.async false

namespace Sys2Proof

namespace Machine

/-! ### Ports -/

def State.port (s : State) (m : Nat) : Port := Tab.getD .blank s.ports m
def State.setPort (s : State) (m : Nat) (p : Port) : State := { s with ports := Tab.put s.ports m p }
def State.modPort (s : State) (m : Nat) (f : Port → Port) : State := s.setPort m (f (s.port m))
def Port.lane (p : Port) (v : Nat) : Lane := Tab.getD .blank p.lanes v
def Port.setLane (p : Port) (v : Nat) (l : Lane) : Port := { p with lanes := Tab.put p.lanes v l }

/-- MDL.PSTAT:STATE: 0 DOWN, 1 TRAINING, 2 UP (R342, R370). -/
def State.linkState (s : State) (m : Nat) : Nat := s.get (Reg.mdlPstat m) 31 30
def State.linkUp (s : State) (m : Nat) : Bool := !s.pins.thermtrip && s.linkState m == 2
def State.setLink (s : State) (m st : Nat) : State := s.set (Reg.mdlPstat m) 31 30 st
def State.portOn (s : State) (m : Nat) : Bool := s.get (Reg.mdlPctl m) 31 31 == 1
def State.isStore (s : State) (m : Nat) : Bool := s.get (Reg.mdlPctl m) 30 30 == 1

/-- The inbox of the device's packets to itself. -/
def selfPort : Nat := 32

/-- Grants of an MDL.PGRANT value by virtual lane (R370). -/
def grantsOf (v : Nat) : List Nat := [fld v 13 0, fld v 27 14, fld v 41 28, fld v 55 42]

def seqMod : Nat := 2 ^ 24
/-- (a − b) mod 2^24. -/
def seqSub (a b : Nat) : Nat := (a + seqMod - b % seqMod) % seqMod
def retMod : Nat := 2 ^ 32

/-- The device's own ID (R347). -/
def State.devid (s : State) : Nat := s.get Reg.stpRole 63 52
def State.mgrid (s : State) : Nat := s.get Reg.stpRole 51 40

/-! ### Flow units (R337, R338) -/

def fuHead (fu : List Byte) : Nat := leAt fu 0 4
def fuKind (fu : List Byte) : Nat := fld (fuHead fu) 27 26
def fuVl (fu : List Byte) : Nat := fld (fuHead fu) 25 24
def fuSeq (fu : List Byte) : Nat := fld (fuHead fu) 23 0
/-- 64 bytes whose CRC holds. -/
def fuValid (fu : List Byte) : Bool := fu.length == 64 && leAt fu 60 4 == (Crc.crc32c (fu.take 60)).toNat

/-- A flow unit with its CRC, from its header and its 56 bytes. -/
def makeFu (head : Nat) (body : List Byte) : List Byte :=
  let b := leBytes 4 head ++ (body ++ List.replicate (56 - body.length) 0).take 56
  b ++ leBytes 4 (Crc.crc32c b).toNat

/-- The control FU that a port sends: ACK, NAK and the credit returns. -/
def Port.controlFu (p : Port) : List Byte :=
  makeFu (1 * 2 ^ 26) (leBytes 3 (seqSub p.expect 1) ++ leBytes 1 (b2n p.nak) ++
    (List.range 4).flatMap fun v => leBytes 4 ((p.lane v).freed % retMod))

/-- The data FU that a port sends on a lane under a sequence number (R337). -/
def Fu.bytes (f : Fu) (v seq : Nat) : List Byte :=
  makeFu (b2n f.eop * 2 ^ 29 + b2n f.sop * 2 ^ 28 + v * 2 ^ 24 + seq) f.body

/-- The init FU that a port sends while it trains: the device's ID and what the port grants its partner (R338, R340). -/
def State.initFu (s : State) (m : Nat) : List Byte :=
  makeFu (2 * 2 ^ 26) (leBytes 4 s.devid ++ leBytes 8 (s.reg (Reg.mdlPgrant m)))

/-! ### Packets (R344, R346) -/

/-- A packet: its header and its data. -/
structure Packet where
  dst : Nat
  src : Nat
  prof : Nat
  op : Nat
  last : Bool
  arg : Nat
  data : List Byte
  deriving DecidableEq, Repr

/-- The bytes of a packet, filled to whole flow units. -/
def Packet.bytes (p : Packet) : List Byte :=
  let b := leBytes 2 p.dst ++ leBytes 2 (p.src + p.prof * 2 ^ 12) ++ leBytes 1 p.op ++ leBytes 1 (b2n p.last) ++
    leBytes 2 p.data.length ++ leBytes 8 p.arg ++ p.data
  b ++ List.replicate (roundUp b.length 56 - b.length) 0

def Parcel.dst (p : Parcel) : Nat := fld (leAt p.bytes 0 2) 11 0
def Parcel.op (p : Parcel) : Nat := leAt p.bytes 4 1
def Parcel.prof (p : Parcel) : Nat := fld (leAt p.bytes 2 2) 13 12
def Parcel.len (p : Parcel) : Nat := fld (leAt p.bytes 6 2) 12 0

/-- Read a packet. -/
def Parcel.packet (p : Parcel) : Packet :=
  ⟨p.dst, fld (leAt p.bytes 2 2) 11 0, p.prof, p.op, bit (leAt p.bytes 5 1) 0, leAt p.bytes 8 8, (p.bytes.drop 16).take p.len⟩

/-- ARG bits that an operation uses, and none for a reserved code (R346). -/
def opArgMask (op : Nat) : Option Nat :=
  match op with
  | 0x01 => some (2 ^ 13 - 1)
  | 0x02 => some (2 ^ 14 - 1)
  | 0x03 => some (2 ^ 48 - 1)
  | 0x04 => some 0
  | 0x05 => some 0
  | 0x06 => some (2 ^ 64 - 1)
  | 0x08 => some (2 ^ 16 - 1)
  | 0x09 => some (2 ^ 24 - 1)
  | 0x0A => some (2 ^ 16 - 1)
  | 0x10 => some (2 ^ 64 - 1 - 2 ^ 32)
  | 0x11 => some (2 ^ 64 - 2 ^ 33)
  | 0x12 => some (2 ^ 64 - 2 ^ 36 + 2 ^ 32 - 1)
  | 0x13 => some (2 ^ 64 - 2 ^ 33)
  | 0x14 => some (2 ^ 64 - 2 ^ 36 + 2 ^ 32 - 1)
  | 0x15 => some (2 ^ 64 - 2 ^ 36 + 2 ^ 32 - 1)
  | 0x16 => some (2 ^ 64 - 2 ^ 36)
  | _ => if 0x20 ≤ op && op ≤ 0x27 then some (2 ^ 32 - 1) else none

/-- Profile of an operation. -/
def opProf (op : Nat) : Nat := if op < 0x10 then 1 else if op < 0x20 then 0 else 2

/-- Profile of a virtual lane (R339). -/
def vlProf (v : Nat) : Nat := if v = 0 then 1 else if v = 3 then 2 else 0

/-- Lane on which the device sends an operation (R339). -/
def opVl (op : Nat) : Nat :=
  if op < 0x10 then 0 else if op < 0x15 then 1 else if op < 0x20 then 2 else 3

/-- The status field of a packet holds a code that R90 does not list (R91): in ARG of JOINACK, ANSWER and BARRELEASE, and in the
store header of a reply. -/
def Parcel.badStatus (p : Parcel) : Bool :=
  let arg := leAt p.bytes 8 8
  match p.op with
  | 0x02 => reservedStatus (fld arg 7 0)
  | 0x06 => reservedStatus (fld arg 63 56)
  | 0x09 => reservedStatus (fld arg 23 16)
  | _ => [0x21, 0x23, 0x25, 0x27].contains p.op && reservedStatus (leAt p.bytes (16 + 0x11) 1)

/-- A packet that R344 discards; `store` tells the kind of the port (R336). -/
def Parcel.malformed (p : Parcel) (store : Bool) : Bool :=
  let arg := leAt p.bytes 8 8
  leAt p.bytes 0 2 / 2 ^ 12 != 0 || leAt p.bytes 2 2 / 2 ^ 14 != 0 || leAt p.bytes 5 1 / 2 != 0
    || leAt p.bytes 6 2 / 2 ^ 13 != 0 || decide (4096 < p.len) || p.prof == 3 || p.prof != vlProf p.vl
    || (store != (p.vl == 3))
    || (match opArgMask p.op with
        | none => true
        | some m => arg &&& m != arg)
    || opProf p.op != p.prof || p.badStatus
    || p.fus != ceilDiv (16 + p.len) 56

/-- Is a received packet for this device? On a store port DST is not routed (R345, R364). -/
def State.mine (s : State) (m : Nat) (p : Parcel) : Bool := m == selfPort || s.isStore m || p.dst == s.devid

/-- Give back the credits of a consumed packet (R340). -/
def Port.free (p : Port) (x : Parcel) : Port :=
  p.setLane x.vl { p.lane x.vl with freed := (p.lane x.vl).freed + x.fus }

/-- Remove the first packet that satisfies a test, and free its buffers. -/
def State.takeParcel (s : State) (m : Nat) (f : Parcel → Bool) : Option (Parcel × State) :=
  match (s.port m).inbox.find? fun x => !s.pins.thermtrip && f x with
  | none => none
  | some x => some (x, s.modPort m fun p => { p.free x with inbox := p.inbox.erase x })

/-- Count a discarded packet or flow unit in MDL.VIOLCNT. It comes from neither the host nor a context. -/
def State.mdlViolate (s : State) : State := s.violate Reg.mdlViolcnt .mgmt

/-- Handle the first received packet of an operation that is well-formed, for this device and wanted now. -/
def State.onPacket (s : State) (m op : Nat) (want : State → Packet → Bool) (body : Packet → State → State) : State :=
  match s.takeParcel m fun x => x.op == op && s.mine m x && !x.malformed (s.isStore m) && want s x.packet with
  | none => s
  | some (x, t) => body x.packet t

/-- A packet that is always wanted. -/
def anyPacket (_ : State) (_ : Packet) : Bool := true

/-! ### Transmission (R339–R341) -/

/-- May the lane transmit its next flow unit? -/
def Port.canSend (p : Port) (v : Nat) : Bool := !(p.lane v).out.isEmpty && (p.lane v).held != 0

/-- The lane served next: VL0 first, then round robin among VL1–VL3. -/
def Port.pick (p : Port) : Option Nat :=
  if p.canSend 0 then some 0
  else [p.turn, p.turn % 3 + 1, (p.turn + 1) % 3 + 1].find? fun v => p.canSend v

/-- Transmit one flow unit of a lane for the first time: one credit is spent, of the pool of its partition (R35), and the flow
unit is kept until it is acknowledged. -/
def Port.sendOne (p : Port) (v : Nat) : Port :=
  match (p.lane v).out with
  | [] => p
  | f :: rest =>
    let l := p.lane v
    let q := p.setLane v { l with
      out := rest, held := l.held - 1, inflight := l.inflight + 1, spent := l.spent ++ [f.part] }
    { q with seq := (q.seq + 1) % seqMod, replay := q.replay ++ [f.bytes v q.seq], turn := if v = 0 then q.turn else v % 3 + 1 }

/-- Transmit while credits and the replay buffer of 8,192 flow units allow. -/
def Port.pump (p : Port) : Nat → Port
  | 0 => p
  | k + 1 =>
    if p.replay.length < 8192 then
      match p.pick with
      | some v => (p.sendOne v).pump k
      | none => p
    else p

/-- Flow units that wait on a port. -/
def Port.waiting (p : Port) : Nat := ((List.range 4).map fun v => (p.lane v).out.length).sum

/-- Transmit on a port that is UP. -/
def State.pump (s : State) (m : Nat) : State :=
  if s.linkUp m then s.modPort m fun p => p.pump p.waiting else s

/-- The flow units of a packet that the device sends for a partition, or for none. -/
def packetFus (part : Option Nat) (bytes : List Byte) : List Fu :=
  let n := ceilDiv bytes.length 56
  (List.range n).map fun i => ⟨i == 0, i + 1 == n, part, (bytes.drop (56 * i)).take 56⟩

/-- Queue a packet on a lane of a port; false when the port is not UP, and the packet is lost. -/
def State.sendOn (s : State) (m v : Nat) (part : Option Nat) (bytes : List Byte) : State × Bool :=
  if s.linkUp m then
    ((s.modPort m fun p => p.setLane v { p.lane v with out := (p.lane v).out ++ packetFus part bytes }).pump m, true)
  else (s, false)

/-- The routed port toward a device, when its entry is valid and names a fabric port (R345, R370). -/
def State.route (s : State) (d : Nat) : Option Nat :=
  let r := s.reg (Reg.mdlRoute d)
  if bit r 31 && !s.isStore (fld r 4 0) then some (fld r 4 0) else none

/-- The device sends a packet of its own: to itself, or on the routed port. A packet with no route is discarded and
counted. False tells that the port is not UP. -/
def State.send (s : State) (part : Option Nat) (p : Packet) : State × Bool :=
  if p.dst = s.devid then
    (s.modPort selfPort fun q => { q with inbox := q.inbox ++ [⟨opVl p.op, p.bytes.length / 56, p.bytes⟩] }, true)
  else
    match s.route p.dst with
    | none => (s.mdlViolate, true)
    | some m => s.sendOn m (opVl p.op) part p.bytes

/-- Send a fabric message from this device for a partition, or for none; false tells that its port is not UP. -/
def State.messageFor (s : State) (part : Option Nat) (dst op arg : Nat) (last : Bool) (data : List Byte) : State × Bool :=
  s.send part ⟨dst, s.devid, opProf op, op, last, arg, data⟩

/-- A message of the device itself. -/
def State.message (s : State) (dst op arg : Nat) (last : Bool) (data : List Byte) : State × Bool :=
  s.messageFor none dst op arg last data

/-- A message to a device leaves: to itself, or on a routed port that is UP. -/
def State.reaches (s : State) (d : Nat) : Bool :=
  d == s.devid || (match s.route d with
    | some m => s.linkUp m
    | none => false)

/-- Send where a loss has no consequence of its own. -/
def State.tell (s : State) (dst op arg : Nat) (data : List Byte) : State := (s.message dst op arg false data).1

/-- Does the path to a device use the port? -/
def State.pathUses (s : State) (d m : Nat) : Bool := d != s.devid && s.route d == some m

/-! ### Reception (R341, R344) -/

/-- Add a flow unit accepted in sequence to its lane's packet. The flag tells a flow unit out of place: one that starts a
packet before the last one ended, that starts none, or that exceeds 74 flow units. -/
def Port.assemble (p : Port) (v : Nat) (f : Fu) : Port × Bool :=
  let l := p.lane v
  let lost := if f.sop then l.asm.length else 0
  let bad := if f.sop then !l.asm.isEmpty else l.asm.isEmpty || decide (74 ≤ l.asm.length)
  let drop := !f.sop && bad
  let asm := if drop then [] else (if f.sop then [] else l.asm) ++ [f]
  let freed := l.freed + lost + (if drop then l.asm.length + 1 else 0)
  let q := p.setLane v { l with asm := if f.eop then [] else asm, freed := freed }
  if f.eop && !drop then
    ({ q with inbox := q.inbox ++ [⟨v, asm.length, asm.flatMap (·.body)⟩] }, bad)
  else (q, bad)

/-- A data FU arrives on an UP port. A duplicate goes without count, whether or not its CRC holds (R341). -/
def State.receiveData (s : State) (m : Nat) (fu : List Byte) : State :=
  let p := s.port m
  if fuValid fu && fuSeq fu == p.expect then
    let f : Fu := ⟨bit (fuHead fu) 28, bit (fuHead fu) 29, none, (fu.drop 4).take 56⟩
    let (q, bad) := { p with expect := (p.expect + 1) % seqMod }.assemble (fuVl fu) f
    let t := s.setPort m q
    if bad then t.mdlViolate else t
  else
    let d := seqSub p.expect (fuSeq fu)
    if 1 ≤ d && d ≤ 2 ^ 23 then s
    else
      let t := s.modPort m fun p => { p with nak := true }
      if fuValid fu then t else t.addSat (Reg.mdlPerr m) 23 0 1

/-- DATA_FU. A flow unit whose CRC holds and whose KIND is not data belongs to another row. -/
def execDataFu (m : Nat) (fu : List Byte) (s : State) : Host.Outcome State Fault Refusal :=
  .next (if s.linkUp m && decide (m < 32) && (!fuValid fu || fuKind fu == 0) then s.receiveData m fu else s)

/-- RESERVED_FU: discarded and counted (R337). -/
def execReservedFu (m : Nat) (fu : List Byte) (s : State) : Host.Outcome State Fault Refusal :=
  .next (if s.linkUp m && decide (m < 32) && fuValid fu && fuKind fu == 3 then s.mdlViolate else s)

/-- MALFORMED_PACKET: discarded and counted (R344). -/
def execMalformedPacket (m : Nat) (s : State) : Host.Outcome State Fault Refusal :=
  .next (match s.takeParcel m fun x => x.malformed (s.isStore m) with
    | none => s
    | some (_, t) => t.mdlViolate)

/-- PACKET_FORWARD: on the routed port and the same lane, or discarded (R345). A packet for a port that is not UP is lost
with it (R343). -/
def execPacketForward (m : Nat) (s : State) : Host.Outcome State Fault Refusal :=
  .next (match s.takeParcel m fun x => !s.mine m x && !x.malformed (s.isStore m) with
    | none => s
    | some (x, t) =>
      match t.route x.dst with
      | none => t.mdlViolate
      | some k => (t.sendOn k x.vl none x.bytes).1)

/-- CONTROL_FU_SEND: the flow unit sent is the command's answer (R338). -/
def execControlFuSend (m : Nat) (s : State) : Host.Outcome State Fault Refusal :=
  .next (if s.linkUp m then { s.modPort m fun p => { p with nak := false } with resp := (s.port m).controlFu.map (·.toNat) }
    else s)

/-! ### Coming up and going down (R342, R343) -/

/-- TRAINING to UP once lanes have trained and a valid init FU has come. -/
def State.tryUp (s : State) (m : Nat) : State :=
  if s.linkState m != 1 || !(s.port m).trained then s
  else
    match (s.port m).grants with
    | none => s
    | some gs =>
      (s.setPort m { Port.blank with
        trained := true, init := (s.port m).init, grants := some gs,
        lanes := (List.range 4).map fun v => (v, { Lane.blank with issued := gs.getD v 0, held := gs.getD v 0 }) }).setLink m 2

/-- Lane training starts. -/
def State.startTraining (s : State) (m : Nat) : State := (s.setPort m .blank).setLink m 1

/-- LANE_TRAINING_DONE at 8 or 4 lanes: the port sends its init FU, which is the command's answer (R338). -/
def execLaneTrainingDone (m lanes : Nat) (s : State) : Host.Outcome State Fault Refusal :=
  .next (if s.running && s.linkState m == 1 && (lanes == 8 || lanes == 4) then
      ({ s.modPort m fun p => { p with trained := true, init := s.initFu m } with resp := (s.initFu m).map fun b : Byte => b.toNat }.set (Reg.mdlPstat m) 29 29 (b2n (lanes == 4))).tryUp m
    else s)

/-- TRAINING_TIMEOUT. -/
def execTrainingTimeout (m : Nat) (s : State) : Host.Outcome State Fault Refusal :=
  .next (if s.running && s.linkState m == 1 then ((s.setPort m .blank).setLink m 0).addSat (Reg.mdlPerr m) 63 48 1 else s)

/-- DOWN_RETRY: 10 ms in DOWN with ENABLE set. -/
def execDownRetry (m : Nat) (s : State) : Host.Outcome State Fault Refusal :=
  .next (if m < 32 && s.running && s.linkState m == 0 && s.portOn m then s.startTraining m else s)

/-- The port's buffers, credits and sequence numbers are cleared, and it is DOWN (R343). -/
def State.clearPort (s : State) (m : Nat) : State := (s.setPort m .blank).setLink m 0

/-- Operation codes of the packets that a port holds partly sent or received. -/
def Port.heldOps (p : Port) : List Nat :=
  let fus := (List.range 4).flatMap fun v => (p.lane v).out ++ (p.lane v).asm
  (p.replay.filter fun b => bit (fuHead b) 28).map (fun b => leAt b 8 1)
    ++ (fus.filter (·.sop)).map (fun f => leAt f.body 4 1) ++ p.inbox.map Parcel.op

/-! ### Credit pools (R35, R46; log 98) -/

/-- Credits of a lane that are out of a partition's pool: flow units sent for it whose returns have not arrived. -/
def Lane.pool (l : Lane) (p : Nat) : Nat := l.spent.countP (· == some p)

/-- A flow unit, or a credit, that is a partition's no more. -/
def disown (p : Nat) (x : Option Nat) : Option Nat := if x = some p then none else x

/-- A partition's credit pools are built again: nothing that is under way counts against them any more (R46). The port's own
identity of R340 is untouched. -/
def Lane.rebuild (l : Lane) (p : Nat) : Lane :=
  { l with spent := l.spent.map (disown p), out := l.out.map fun f => { f with part := disown p f.part } }

def State.rebuildCredits (s : State) (p : Nat) : State :=
  { s with ports := s.ports.map fun x => (x.1, { x.2 with lanes := x.2.lanes.map fun l => (l.1, l.2.rebuild p) }) }

/-- MDL.CREDAUD of one virtual lane (R340, R370): CONS, ISSUED, HELD, INFLIGHT, RETURNED. A return is added to HELD in the step
in which it arrives, so RETURNED reads 0 (log 97). -/
def State.creditAudit (s : State) (m v : Nat) : Nat :=
  if s.linkUp m then
    let l := (s.port m).lane v
    b2n (l.issued == l.held + l.inflight) * 2 ^ 63 + l.issued % 2 ^ 14 * 2 ^ 42 + l.held % 2 ^ 14 * 2 ^ 28
      + l.inflight % 2 ^ 14 * 2 ^ 14
  else 2 ^ 63

end Machine

end Sys2Proof
end

