-- ==== Sys2Proof/Machine/Movement.lean ====
section
/-! DEFINITION. The movement instructions TLOAD, TSTORE, TXFER and TTRANS (R111–R115, R169, R495, R496). -/

set_option Elab.async false

namespace Sys2Proof

namespace Machine

/-- The shape that FN gives a movement: rows, columns and row dimension (R113). -/
def fnRows (fn : Nat) : Nat := fld fn 15 10 + 1
def fnCols (fn : Nat) : Nat := fld fn 9 4 + 1
def fnDim (fn : Nat) : Nat := fld fn 3 1

/-- A row dimension above 100b is a reserved code (R113). -/
def badDim (dim : Nat) : Bool := decide (4 < dim)

/-- An instruction runs only with a format that the table of R129 gives the unit (R130, R162). -/
def fmtOk (kt5 : Bool) (f : Nat) : Bool := !Format.reserved f && Format.allowed kt5 f

/-- Bytes of a tile that the first `rows` rows reach, trailers included (R112, R141). -/
def Format.span (f rows : Nat) : Nat :=
  if rows = 0 then 0
  else if Format.block f then Format.dataBytes f + rows * Format.rowTrailer f
  else rows * Format.pitch f

/-- Errors met on the way of an instruction's data (R377, R378). -/
def State.meet (s : State) (g : Nat) (es : List FaultIn) : State := s.detect (s.carrier g) es

/-! ### Cells of a tensor and of a tile (R495, R496) -/

/-- Offsets of row r: none outside the extents or beyond ROWS and COLS. -/
def cellRow (d : List Byte) (dim o rows cols r : Nat) : List (Option Nat) :=
  (List.range 64).map fun j =>
    if r < rows && j < cols && Desc.inside d dim r j then some (Desc.elemOff d dim o r j) else none

/-- The two block units of row r (R496): none where the half lies outside. COLS is rounded up to 32. -/
def unitRow (d : List Byte) (dim o rows cols r : Nat) : List (Option Nat) :=
  [0, 1].map fun h =>
    if r < rows && 32 * h < roundUp cols 32 && Desc.inside d dim r (32 * h) then some (Desc.elemOff d dim o r (32 * h))
    else none

/-- Addresses of the cells of the first `n` rows, in order: elements, or block units. -/
def moveCells (d : List Byte) (dim o rows cols n : Nat) : List (Option Nat) :=
  ((List.range n).flatMap fun r =>
    if Format.block (Desc.fmt d) then unitRow d dim o rows cols r else cellRow d dim o rows cols r).map
      fun x => x.map (Desc.elemAddr d)

/-- Block units in order turned into tile bytes: the elements of all rows, then their scales (R141). -/
def unitsToTile (f : Nat) (raw : List Byte) : List Byte :=
  let n := Format.unitBytes f
  let sb := Format.scaleBytes f
  ((List.range 128).flatMap fun i => ((raw.drop (i * n)).take n).drop sb) ++
    (List.range 128).flatMap fun i => (raw.drop (i * n)).take sb

/-- The block units of the first `rows` rows of a tile. -/
def tileToUnits (f rows : Nat) (bytes : List Byte) : List Byte :=
  let sb := Format.scaleBytes f
  let eb := 4 * Format.bits f
  (List.range (2 * rows)).flatMap fun i =>
    ((bytes.drop (Format.dataBytes f + i * sb)).take sb) ++ ((bytes.drop (i * eb)).take eb)

/-! ### TLOAD -/

/-- The offset of a block-format TLOAD or TSTORE is a multiple of 32 (R496). -/
def offsetBad (d : List Byte) (o : Nat) : Bool := Format.block (Desc.fmt d) && o % 32 != 0

/-- Load a tile: every element of the tile is written, those outside the extents as zero (R113, R114). -/
def State.tload (s : State) (j : Job) : State :=
  let d := j.da
  let f := Desc.fmt d
  let o := j.sa
  if badDim (fnDim j.fn) then s.dropReserved j
  else if !fmtOk j.kt5 f then s.dropFormat j
  else if offsetBad d o then s.dropReserved j
  else
    let (raw, s1) := s.gather (Reg.seqViolcnt j.g) j.ctx (Format.unitBytes f)
      (moveCells d (fnDim j.fn) o (fnRows j.fn) (fnCols j.fn) 64)
    let bytes := if Format.block f then unitsToTile f raw else raw
    (s1.writeTileRuns j.g j.ctx .tile [(256 * wTA j.word, bytes)]).markReady j.flight

def tloadUsed : Nat := mDA + mSA + mTA + mFN 15 1 + mXT 11 2

def execTload (g : Nat) (events : List FaultIn) (s : State) : Host.Outcome State Fault Refusal :=
  .next (s.issueData g (fun w => wOp w == 0x10 && !bit w 11) (fun f => dataRegs true false false f.word)
    (fun _ => .mover 0) (fun _ => tloadUsed) fun j t => (t.tload j).meet g events)

/-- Registers that a scalar TLOAD writes: the words that land at s63 or below. -/
def scalarDst (w : Nat) : List Nat :=
  ((List.range (fld w 10 8 + 1)).map fun i => fld w 7 2 + i).filter (· < 64)

/-- Scalar mode (R113): the registers stay pending until the instruction completes (R97). -/
def State.tloadScalar (s : State) (j : Job) : State :=
  let n := fld j.xt 10 8 + 1
  let d := fld j.xt 7 2
  if d = 0 then s.dropReserved j
  else
    let (bs, s1) := s.load (Reg.seqViolcnt j.g) j.ctx j.sa (8 * n)
    let s2 := (scalarDst j.word).foldl (fun t r => t.setSreg j.g r (leAt bs (8 * (r - d)) 8)) s1
    (s2.violateIf (decide (64 < d + n)) (Reg.seqViolcnt j.g) (.ctx j.ctx)).modFlight j.flight fun f =>
      { f with ready := true, pend := scalarDst j.word }

/-- In scalar mode DA, TA and FN are ignored. -/
def tloadScalarUsed : Nat := mDA + mSA + mTA + mFN 15 0 + mXT 11 2

def execTloadScalar (g : Nat) (events : List FaultIn) (s : State) : Host.Outcome State Fault Refusal :=
  .next (s.issueData g (fun w => wOp w == 0x10 && bit w 11)
    (fun f => dataRegs true false false f.word ++ (if fld f.word 7 2 = 0 then [] else scalarDst f.word))
    (fun _ => .mover 0) (fun _ => tloadScalarUsed) fun j t => (t.tloadScalar j).meet g events)

/-! ### TSTORE -/

/-- Store a tile; a frozen destination is written nowhere and counted (R114). -/
def State.tstore (s : State) (j : Job) : State :=
  let d := j.da
  let f := Desc.fmt d
  let o := j.sa
  let rows := fnRows j.fn
  if badDim (fnDim j.fn) then s.dropReserved j
  else if !fmtOk j.kt5 f then s.dropFormat j
  else if offsetBad d o then s.dropReserved j
  else if Desc.frozen d then (s.violate (Reg.seqViolcnt j.g) (.ctx j.ctx)).markReady j.flight
  else
    let (bytes, s1) := s.readTile j.g j.ctx .tile (wTA j.word) (Format.span f rows)
    let cells := moveCells d (fnDim j.fn) o rows (fnCols j.fn) rows
    (s1.scatter (Reg.seqViolcnt j.g) j.ctx (Format.unitBytes f) cells
      (if Format.block f then tileToUnits f rows bytes else bytes)).markReady j.flight

def tstoreUsed : Nat := mDA + mSA + mTA + mFN 15 1

def execTstore (g : Nat) (events : List FaultIn) (s : State) : Host.Outcome State Fault Refusal :=
  .next (s.issueData g (fun w => wOp w == 0x11) (fun f => dataRegs true false false f.word) (fun _ => .mover 0)
    (fun _ => tstoreUsed) fun j t => (t.tstore j).meet g events)

/-! ### TXFER -/

/-- Copy units to a cluster of the partition; DTAG gains one there when the bytes are visible (R113, R115). A write beyond
the destination's tile store counts in the issuing cluster, like every access of an instruction (R111, log 95). -/
def State.txfer (s : State) (j : Job) : State :=
  let len := fld j.fn 9 0
  let dest := fld j.fn 15 10
  match s.clusterAt j.ctx dest with
  | none => s.dropReserved j
  | some h =>
    if len = 0 then s.dropReserved j
    else
      let n := 256 * len
      let (bytes, s1) := s.readTile j.g j.ctx .tile (wTA j.word) n
      ((s1.modCl h fun c => c.tileWrite (256 * wTB j.word) bytes).violateIf (tileOver (256 * wTB j.word) n)
        (Reg.seqViolcnt j.g) (.ctx j.ctx)).modFlight j.flight fun f =>
          { f with ready := true, adds := if fld j.xt 6 0 = 0 then [] else [⟨dest, fld j.xt 6 0, 1⟩] }

def txferUsed : Nat := mTA + mTB + mFN 15 0 + mXT 6 0

def execTxfer (g : Nat) (events : List FaultIn) (s : State) : Host.Outcome State Fault Refusal :=
  .next (s.issueData g (fun w => wOp w == 0x12) (fun _ => []) (fun _ => .mover 0) (fun _ => txferUsed)
    fun j t => (t.txfer j).meet g events)

/-! ### TTRANS -/

/-- Codes of a tile transposed unchanged: element (i, j) is element (j, i) of the source within ROWS and COLS. -/
def transCodes (n rows cols : Nat) (bytes : List Byte) : List Byte :=
  (List.range 64).flatMap fun i => (List.range 64).flatMap fun k =>
    if k < rows && i < cols then (bytes.drop ((64 * k + i) * n)).take n else List.replicate n 0

/-- Values of a tile transposed and re-encoded along the new rows; how many elements were clamped (R169). -/
def transBlocks (kt5 : Bool) (f rows cols : Nat) (val : Nat → Nat → Fp) : List Byte × Nat :=
  let outs := (List.range 64).map fun i => encodeRow kt5 f
    ((List.range 64).map fun k => ⟨if k < rows && i < cols then val k i else .zero, .rne⟩)
  (outs.flatMap (·.data) ++ outs.flatMap (·.trailer), (outs.map fun o => satTotal o.cnts).foldl (· + ·) 0)

/-- Where TTRANS finds its source: rows of codes, or rows of values for a block format. -/
def State.transSource (s : State) (j : Job) : (List Byte × (Nat → Nat → Fp)) × State :=
  let d := j.da
  let f := Desc.fmt d
  let rows := fnRows j.fn
  let cols := fnCols j.fn
  if bit j.xt 1 then
    let (bytes, s1) := s.readTile j.g j.ctx .tile (wTA j.word) (Format.span f rows)
    let vals := (List.range 64).map fun r => (tileRow j.kt5 f bytes r).vals
    ((bytes, fun r c => ((vals.getD r []).getD c (.zero, false)).1), s1)
  else if Format.block f then
    let offs := (List.range 64).flatMap (cellRow d (fnDim j.fn) j.sa rows cols)
    let e := s.readElems (Reg.seqViolcnt j.g) j.ctx j.kt5 d offs
    (([], fun r c => (e.vals.getD (64 * r + c) (.zero, false)).1), e.st)
  else
    let (raw, s1) := s.gather (Reg.seqViolcnt j.g) j.ctx (Format.unitBytes f)
      (moveCells d (fnDim j.fn) j.sa rows cols 64)
    ((raw, fun _ _ => .zero), s1)

/-- Write a transposed tile into a half of the transposing buffer (R113, R169). Clamped elements count in MXE.TRSAT. -/
def State.ttrans (s : State) (j : Job) : State :=
  let f := Desc.fmt j.da
  let rows := fnRows j.fn
  let cols := fnCols j.fn
  if 0x800 ≤ wTB j.word || (!bit j.xt 1 && badDim (fnDim j.fn)) then s.dropReserved j
  else if !fmtOk j.kt5 f then s.dropFormat j
  else
    let ((bytes, val), s1) := s.transSource j
    let (out, sat) :=
      if Format.block f then transBlocks j.kt5 f rows cols val else (transCodes (Format.unitBytes f) rows cols bytes, 0)
    ((s1.writeTileRuns j.g j.ctx (.half (b2n (bit j.xt 0))) [(256 * wTB j.word, out)]).addSat
      (Reg.mxeTrsat j.g) 31 0 sat).markReady j.flight

def ttransUsed : Nat := mDA + mSA + mTA + mTB + mFN 15 1 + mXT 1 0

def execTtrans (g : Nat) (events : List FaultIn) (s : State) : Host.Outcome State Fault Refusal :=
  .next (s.issueData g (fun w => wOp w == 0x13) (fun f => dataRegs (!bit f.word 1) false false f.word)
    (fun _ => .mover 0) (fun _ => ttransUsed) fun j t => (t.ttrans j).meet g events)

end Machine

end Sys2Proof
end

