-- ==== Sys2Proof/Machine/Collective.lean ====
section
/-! DEFINITION. Collectives: reduction plans, CRED, CBCAST, CSEND and CRECV, and the packets that carry them (R350–R356). -/

set_option Elab.async false

namespace Sys2Proof

namespace Machine

/-! ### Plan records (R350) -/

namespace Plan

def depth (r : List Byte) : Nat := fld (leAt r 0 1) 3 0
def voted (r : List Byte) : Bool := bit (leAt r 0 1) 4
def fmt (r : List Byte) : Nat := fld (leAt r 1 1) 4 0
def leafDst (r : List Byte) : Nat := fld (leAt r 4 2) 11 0
def leafSlot (r : List Byte) : Nat := fld (leAt r 6 1) 2 0
def leafEn (r : List Byte) : Bool := bit (leAt r 6 1) 7
def nnode (r : List Byte) : Nat := fld (leAt r 7 1) 3 0
def cntAddr (r : List Byte) : Nat := fld (leAt r 8 8) 47 0
def olo (r : List Byte) : Nat := leAt r 0x10 4
def ohi (r : List Byte) : Nat := leAt r 0x14 4

/-- Hosted node i. -/
def node (r : List Byte) (i : Nat) : Node :=
  let b := r.drop (0x20 + 0x1C * i)
  { level := fld (leAt b 0 1) 3 0, root := bit (leAt b 0 1) 7, pslot := fld (leAt b 1 1) 2 0,
    parent := fld (leAt b 2 2) 11 0,
    kids := (List.range (fld (leAt b 0 1) 6 4 + 1)).map fun k => fld (leAt b (4 + 2 * k) 2) 11 0,
    counts := [], parts := [], sent := [], ended := [], countUp := false, dataUp := false, segs := [], final := false }

def nodes (r : List Byte) : List Node := (List.range (nnode r)).map (node r)

/-- A record with a reserved value: DEPTH, FMT, NNODE or a LEVEL out of range, or two hosted nodes at one level. -/
def bad (r : List Byte) : Bool :=
  let ls := (nodes r).map (·.level)
  depth r == 0 || decide (8 < depth r) || decide (1 < fmt r) || decide (8 < nnode r)
    || ls.any (fun l => l == 0 || decide (depth r < l)) || ls.eraseDups.length != ls.length

/-- Bytes of an element of the bucket format. -/
def size (r : List Byte) : Nat := if fmt r = 0 then 4 else 2

end Plan

/-- Elements of a segment (R346). -/
def segElems : Nat := 1024

/-- Segments of `n` elements; an empty message has one packet with no data. -/
def segCount (n : Nat) : Nat := max 1 (ceilDiv n segElems)

/-- Read the record of a plan. -/
def State.planRecord (s : State) (n plan : Nat) : List Byte × State :=
  s.load Reg.colViolcnt n (fld (s.reg (Reg.colPlantab n)) 47 12 * 4096 + 256 * plan) 256

/-! ### Operations in progress -/

def State.setColl (s : State) (i : Nat) (c : Coll) : State := { s with colls := Tab.put s.colls i c }
def State.dropColl (s : State) (i : Nat) : State := { s with colls := Tab.erase s.colls i }

/-- The oldest operation of a kind and number. -/
def State.collFor (s : State) (k : CollKind) (plan inst : Nat) (peer : Option Nat) : Option (Nat × Coll) :=
  s.colls.find? fun x => decide (x.2.kind = k) && x.2.plan == plan && x.2.inst == inst &&
    (match peer with
     | none => true
     | some p => x.2.peer == p)

/-- Has the count `k` of an operation gone past the number `i`, modulo 2^16? -/
def passed (k i : Nat) : Bool :=
  let d := (k + 65536 - i % 65536) % 65536
  decide (1 ≤ d) && decide (d ≤ 32768)

/-- Some context has started the plan's instance already. -/
def State.pastInstance (s : State) (plan inst : Nat) : Bool :=
  s.ctxs.any fun x => passed (Tab.getD 0 x.2.instances plan) inst

/-- Record the outcome of a voted CRED of the pair in force (R360), and COL.CONTRIB (R354). -/
def State.recordVoted (s : State) (c : Coll) (ok : Bool) : State :=
  if !c.voted then s
  else
    let (n, d) := c.final.getD (0, 0)
    let s1 := if s.stp.pair = (c.step, c.round) then
      { s with stp := { s.stp with voted := s.stp.voted ++ [⟨ok, n, d⟩] } } else s
    if ok then { s1 with stp := { s1.stp with contrib := (c.plan, c.inst, n, d, c.step) } } else s1

/-- Every node has relayed what it owes its children. -/
def Coll.relayed (c : Coll) : Bool :=
  c.nodes.all fun n => if n.root then n.dataUp || decide (c.kind = .cbcast)
    else n.final && (decide (c.kind = .cbcast) || decide (segCount c.count ≤ n.segs.length))

/-- Give the instruction its status. An operation that ended well stays while its nodes still owe packets. -/
def State.endColl (s : State) (i st : Nat) : State :=
  match Tab.find s.colls i with
  | none => s
  | some c =>
    if c.done then s.dropColl i
    else
      let s1 := (s.recordVoted c (st == stOk)).finishFlight i st
      if st = stOk && !c.relayed then s1.setColl i { c with done := true } else s1.dropColl i

/-- Remove a finished operation whose nodes owe nothing more. -/
def State.tidyColl (s : State) (i : Nat) : State :=
  match Tab.find s.colls i with
  | none => s
  | some c => if c.done && c.relayed then s.dropColl i else s

/-- A collective packet of a context, on credits of its partition. CTX.ETCOL counts its data bytes (R80); it saturates (log
99). -/
def State.collSend (s : State) (c dst op arg : Nat) (last : Bool) (data : List Byte) : State × Bool :=
  (s.addSat (Reg.ctxEtcol c) 63 0 data.length).messageFor (some (s.partOf c)) dst op arg last data

/-- Send the packets of one message; false tells that the port was not UP. -/
def State.sendSegs (s : State) (c dst op argHi : Nat) (segs : List (List Byte)) : State × Bool :=
  segs.zipIdx.foldl (fun a x =>
    let r := a.1.collSend c dst op (argHi + x.2) (x.2 + 1 == segs.length) x.1
    (r.1, a.2 && r.2)) (s, true)

/-- The same message to several devices. -/
def State.sendAll (s : State) (c : Nat) (dsts : List Nat) (op arg : Nat) (last : Bool) (data : List Byte) : State × Bool :=
  dsts.foldl (fun a d => let r := a.1.collSend c d op arg last data; (r.1, a.2 && r.2)) (s, true)

/-- ARG of the reduction packets. -/
def planArg (plan inst slot : Nat) : Nat := plan * 2 ^ 52 + inst * 2 ^ 36 + slot * 2 ^ 33
def argPlan (a : Nat) : Nat := fld a 63 52
def argInst (a : Nat) : Nat := fld a 51 36
def argSlot (a : Nat) : Nat := fld a 35 33
def argSeg (a : Nat) : Nat := fld a 31 0

/-- Cut bytes into packets of one segment each. -/
def cutSegs (per n : Nat) (bs : List Byte) : List (List Byte) :=
  (List.range (segCount n)).map fun j => (bs.drop (j * per)).take per

/-- Data of RCOUNT and RFINAL. -/
def countData (n d : Nat) : List Byte := leBytes 8 n ++ leBytes 8 d

/-- mix(ID) (R353). -/
def mixId (d : Nat) : Nat := (Rng.permute .zero (Quad.ofNat d)).toNat % 2 ^ 64

/-! ### The arithmetic of a node (R352, R185) -/

/-- One addition at a node; the flags tell a saturation and a non-finite input. -/
def nodeAdd (kt5 : Bool) (acc x : Fp) : Fp × Cnt :=
  let nf := !acc.isFinite || !x.isFinite
  if kt5 then
    let r := Fp.rnd .fp32 (Fp.add (flushIf true .fp32 acc) (flushIf true .fp32 x))
    (flushIf true .fp32 r.1, ⟨r.2, nf⟩)
  else (Fp.rv .fp64 (Fp.add acc x), ⟨false, nf⟩)

/-- The sum of one element over the children in slot order, with its counts of saturations and non-finite inputs. -/
def nodeSum (kt5 : Bool) (xs : List Fp) : Fp × Nat × Nat :=
  xs.foldl (fun a x =>
    let r := nodeAdd kt5 a.1 x
    (r.1, a.2.1 + b2n r.2.sat, a.2.2 + b2n r.2.nf)) (.zero, 0, 0)

/-- The children's values of element e: +0 for a child that is absent, has count 0 or sent fewer elements. -/
def Node.inputs (n : Node) (e : Nat) : List Fp :=
  (List.range n.kids.length).map fun k =>
    if (Tab.getD (0, 0) n.counts k).1 = 0 || Tab.getD 0 n.sent k ≤ e then Fp.zero
    else f32 (Memory.read (Tab.getD [] n.parts k) e)

/-- Sum of the counts and exclusive OR of the digests (R353). -/
def Node.count (n : Node) : Nat × Nat :=
  n.counts.foldl (fun a c => (a.1 + c.2.1, a.2 ^^^ c.2.2)) (0, 0)

def Node.allCounted (n : Node) : Bool := (List.range n.kids.length).all fun k => (Tab.find n.counts k).isSome

/-- Every present child has sent its last packet. -/
def Node.allIn (n : Node) : Bool :=
  n.allCounted && (List.range n.kids.length).all fun k => (Tab.getD (0, 0) n.counts k).1 == 0 || n.ended.contains k

/-- A present child sent a number of elements other than the node's. -/
def Node.odd (n : Node) (cnt : Nat) : Bool :=
  (List.range n.kids.length).any fun k => (Tab.getD (0, 0) n.counts k).1 != 0 && Tab.getD 0 n.sent k != cnt

/-- The sums of a node's elements. -/
def Node.sums (n : Node) (kt5 : Bool) (cnt : Nat) : List (Fp × Nat × Nat) :=
  (List.range cnt).map fun e => nodeSum kt5 (n.inputs e)

/-- Results rounded to FP32 (0) or BF16 (1), with the saturations of the rounding. -/
def roundResults (fmt : Nat) (xs : List (Fp × Nat × Nat)) : List Byte × Nat :=
  let rs := xs.map fun x => Fp.rnd (if fmt = 0 then .fp32 else .bf16) x.1
  (rs.flatMap fun r => if fmt = 0 then leBytes 4 (to32 r.1).toNat else leBytes 2 (encodeIeee 8 7 r.1),
   (rs.filter (·.2)).length)

/-! ### Results at a member (R354, R356) -/

/-- Segments that hold an element that the device owns. -/
def Coll.owned (c : Coll) : List Nat :=
  (List.range (segCount c.count)).filter fun j =>
    decide (max (Plan.olo c.record) (segElems * j) < min (min (Plan.ohi c.record) c.count) (segElems * (j + 1)))

/-- Addresses of elements of the bucket. -/
def Coll.bucketCells (c : Coll) (lo n : Nat) : List (Option Nat) :=
  (List.range n).map fun i =>
    (Desc.logical c.da (c.base + lo + i)).map fun e => (Desc.base c.da + e * Plan.size c.record) % 2 ^ 48

/-- Write the owned elements of a result segment. -/
def State.writeOwned (s : State) (c : Coll) (j : Nat) (bs : List Byte) : State :=
  let sz := Plan.size c.record
  let lo := max (Plan.olo c.record) (segElems * j)
  let hi := min (min (Plan.ohi c.record) c.count) (segElems * j + bs.length / sz)
  if Desc.frozen c.da || hi ≤ lo then s
  else s.scatter Reg.colViolcnt c.ctx sz (c.bucketCells lo (hi - lo)) ((bs.drop (sz * (lo - segElems * j))).take (sz * (hi - lo)))

/-- A CRED has all that it waits for: its owned segments, and the count where one is due. -/
def Coll.complete (c : Coll) : Bool :=
  c.owned.all (c.wrote.contains ·) && (c.final.isSome || (Plan.cntAddr c.record == 0 && !c.voted))

/-- Complete a CRED with OK once it has all: the count is written (R354). -/
def State.checkCred (s : State) (i : Nat) : State :=
  match Tab.find s.colls i with
  | none => s
  | some c =>
    if c.done then s.tidyColl i
    else if decide (c.kind = .cred) && c.complete then
      let a := Plan.cntAddr c.record
      let s1 := if a = 0 then s else s.store Reg.colViolcnt c.ctx a (leBytes 4 (c.final.getD (0, 0)).1)
      s1.endColl i stOk
    else s

/-- A result segment reaches the device. -/
def State.takeResult (s : State) (i : Nat) (c : Coll) (j : Nat) (bs : List Byte) : Coll × State :=
  if c.wrote.contains j then (c, s)
  else
    let c1 := { c with wrote := c.wrote ++ [j] }
    (c1, (s.writeOwned c j bs).setColl i c1)

/-- Replace a hosted node. -/
def Coll.setNode (c : Coll) (k : Nat) (n : Node) : Coll := { c with nodes := c.nodes.set k n }

/-! ### Progress of the nodes (R352–R354) -/

/-- Send a node's count to its parent once every child has been counted. -/
def State.countUp (s : State) (i : Nat) (c : Coll) (k : Nat) (n : Node) : Coll × State × Bool :=
  if n.countUp || !n.allCounted then (c, s, true)
  else
    let c1 := c.setNode k { n with countUp := true }
    let s1 := s.setColl i c1
    if n.root then (c1, s1, true)
    else
      let (a, d) := n.count
      let r := s1.collSend c.ctx n.parent 0x11 (planArg c.plan c.inst n.pslot) false (countData a d)
      (c1, r.1, r.2)

/-- Deliver the results that the root has formed: to its children and to the device itself. -/
def State.rootResults (s : State) (i : Nat) (c : Coll) (n : Node) (bs : List Byte) : State × Bool :=
  let segs := cutSegs (segElems * Plan.size c.record) c.count bs
  let (a, d) := n.count
  let r := n.kids.foldl (fun x k => let y := x.1.sendSegs c.ctx k 0x12 (planArg c.plan c.inst 0) segs; (y.1, x.2 && y.2)) (s, true)
  let r2 := r.1.sendAll c.ctx n.kids 0x13 (planArg c.plan c.inst 0) false (countData a d)
  let w := segs.zipIdx.foldl (fun x y => x.2.takeResult i x.1 y.2 y.1) (c, r2.1)
  let c2 := { w.1 with final := some (a, d) }
  (w.2.setColl i c2, r.2 && r2.2)

/-- Form a node's sums once every present child has sent its last packet, and send them upward or finish at the root. -/
def State.dataUp (s : State) (i : Nat) (c : Coll) (k : Nat) (n : Node) : Coll × State × Bool :=
  if n.dataUp || !n.countUp || !n.allIn then (c, s, true)
  else
    let xs := n.sums c.kt5 c.count
    let (bs, sat) := roundResults (if n.root then Plan.fmt c.record else 0) xs
    let satAll := sat + (xs.map fun x => x.2.1).sum
    let odd := n.odd c.count && !c.odd
    let c1 := { c.setNode k { n with dataUp := true } with odd := c.odd || n.odd c.count }
    let s1 := ((s.addSat Reg.colSatcnt 31 0 satAll).addSat Reg.colNfcnt 31 0 ((xs.map fun x => x.2.2).sum)).violateIf odd
      Reg.colViolcnt (.ctx c.ctx)
    let s2 := s1.setColl i c1
    if n.root then
      let r := s2.rootResults i c1 n bs
      ((Tab.find r.1.colls i).getD c1, r.1, r.2)
    else if n.count.1 = 0 then (c1, s2, true)
    else
      let r := s2.sendSegs c.ctx n.parent 0x10 (planArg c.plan c.inst n.pslot) (cutSegs (4 * segElems) c.count bs)
      (c1, r.1, r.2)

/-- Let every hosted node go as far as it can; a packet lost to a port that is not UP ends the CRED with LINK_DOWN. -/
def State.advanceCred (s : State) (i : Nat) : State :=
  match Tab.find s.colls i with
  | none => s
  | some c =>
    let r := (List.range c.nodes.length).foldl (fun (x : Coll × State × Bool) k =>
      match x.1.nodes[k]? with
      | none => x
      | some n =>
        let y := x.2.1.countUp i x.1 k n
        match y.1.nodes[k]? with
        | none => y
        | some m => let z := y.2.1.dataUp i y.1 k m; (z.1, z.2.1, x.2.2 && y.2.2 && z.2.2)) (c, s, true)
    if r.2.2 then r.2.1.checkCred i else r.2.1.endColl i stLinkDown

/-! ### CRED and CBCAST (R351–R356) -/

/-- Presence of the leaf for the pair: that of the latch, or none held yet (R353). -/
def State.presentNow (s : State) (step round : Nat) : Bool :=
  match s.stp.latch with
  | some (a, b, p) => if a = step && b = round then p else !s.chk.suspects.contains step && !s.stp.drops.contains s.devid
  | none => !s.chk.suspects.contains step && !s.stp.drops.contains s.devid

/-- A voted CRED starts: presence is latched at the first of each pair. -/
def State.latchPresence (s : State) (step round : Nat) : State :=
  let p := s.presentNow step round
  let v := if s.stp.pair = (step, round) then s.stp.voted else []
  { s with stp := { s.stp with latch := some (step, round, p), pair := (step, round), voted := v } }

/-- Count one more instance of a plan (R351). -/
def State.nextInstance (s : State) (n plan : Nat) : State :=
  s.modCtx n fun x => { x with instances := Tab.put x.instances plan ((Tab.getD 0 x.instances plan + 1) % 65536) }

/-- The operation of an instruction. -/
def newColl (j : Job) (k : CollKind) (plan inst : Nat) : Coll :=
  { kind := k, ctx := j.ctx, plan := plan, inst := inst, peer := 0, record := [], da := j.da, base := j.sa, count := j.sb,
    kt5 := j.kt5, voted := false, step := j.step % 2 ^ 48, round := 0, nodes := [], wrote := [], got := 0, ended := false,
    final := none, odd := false, done := false }

/-- The leaf sends its count and, when present, its elements widened to FP32. -/
def State.sendLeaf (s : State) (c : Coll) (present : Bool) : State × Bool :=
  if !Plan.leafEn c.record then (s, true)
  else
    let arg := planArg c.plan c.inst (Plan.leafSlot c.record)
    let dst := Plan.leafDst c.record
    let r := s.collSend c.ctx dst 0x11 arg false (if present then countData 1 (mixId s.devid) else countData 0 0)
    if !present then r
    else
      let sz := Plan.size c.record
      let (raw, t) := r.1.gather Reg.colViolcnt c.ctx sz (c.bucketCells 0 c.count)
      let bs := (List.range c.count).flatMap fun e =>
        let v := leAt raw (sz * e) sz
        leBytes 4 (if sz = 4 then v else v * 2 ^ 16)
      let q := t.sendSegs c.ctx dst 0x10 arg (cutSegs (4 * segElems) c.count bs)
      (q.1, r.2 && q.2)

/-- CRED (R350–R356). -/
def State.cred (s : State) (j : Job) : State :=
  let plan := fld j.fn 15 4
  let inst := Tab.getD 0 (s.ctx j.ctx).instances plan
  let (r, s0) := s.planRecord j.ctx plan
  let s1 := s0.nextInstance j.ctx plan
  if Plan.bad r then s1.dropReserved j
  else if !fmtOk j.kt5 (Desc.fmt j.da) then s1.dropFormat j
  else
    let voted := Plan.voted r && j.ctx == s1.jobCtx
    let round := s1.get Reg.stpStepcnt 55 48
    let c0 := newColl j .cred plan inst
    let c := { c0 with record := r, voted := voted, round := round, nodes := Plan.nodes r }
    let s2 := if voted then s1.latchPresence c.step round else s1
    let present := !voted || s2.presentNow c.step round
    let s3 := ((s2.violateIf (Desc.frozen j.da) Reg.colViolcnt (.ctx j.ctx)).modFlight j.flight fun f =>
      { f with sreg := wSC j.word }).setColl j.flight c
    let q := s3.sendLeaf c present
    if q.2 then q.1.checkCred j.flight else q.1.endColl j.flight stLinkDown

def collUsed : Nat := mDA + mSA + mSB + mSC

/-- Registers that a CRED reads or writes: SA, SB, SC, and s3 for a voted plan (R97, R351). -/
def credRegs (f : Fetch) : List Nat :=
  dataRegs true true true f.word ++
    (if Plan.voted (f.st.planRecord f.n (fld (wFN f.word) 15 4)).1 then [3] else [])

def execCred (g : Nat) (s : State) : Host.Outcome State Fault Refusal :=
  .next (s.issueData g (fun w => wOp w == 0x70) credRegs (fun _ => .collective)
    (fun _ => collUsed + mFN 15 4) fun j t => t.cred j)

/-- Addresses of the elements, or block units, of `n` elements from `o` on; the data goes whole and unconverted. -/
def unitCells (d : List Byte) (o n : Nat) : List (Option Nat) :=
  if Format.block (Desc.fmt d) then
    (List.range (ceilDiv n 32)).map fun i => (Desc.logical d (o + 32 * i)).map (Desc.elemAddr d)
  else (List.range n).map fun i => (Desc.logical d (o + i)).map (Desc.elemAddr d)

/-- Bytes of a full segment in a format. -/
def segBytes (f : Nat) : Nat := if Format.block f then segElems / 32 * Format.unitBytes f else segElems * Format.unitBytes f

/-- Elements that some bytes of a format hold. -/
def elemsIn (f n : Nat) : Nat := if Format.block f then 32 * (n / Format.unitBytes f) else n / Format.unitBytes f

/-- Write the elements of a segment that fall within the count. -/
def State.writeSegment (s : State) (c : Coll) (j : Nat) (bs : List Byte) : State :=
  let f := Desc.fmt c.da
  let n := min (elemsIn f bs.length) (c.count - segElems * j)
  if Desc.frozen c.da || n = 0 then s
  else s.scatter Reg.colViolcnt c.ctx (Format.unitBytes f) (unitCells c.da (c.base + segElems * j) n) bs

/-- All the data of an instruction, in packets. -/
def State.readSegments (s : State) (c : Coll) : List (List Byte) × State :=
  let f := Desc.fmt c.da
  let (raw, t) := s.gather Reg.colViolcnt c.ctx (Format.unitBytes f) (unitCells c.da c.base c.count)
  (cutSegs (segBytes f) c.count raw, t)

/-- A broadcast at a device that hosts its root sends what it has to the root's children; at another it waits. -/
def State.cbcastFrom (s : State) (j : Job) (c : Coll) (arg : Nat) : State :=
  match c.nodes.find? (·.root) with
  | none => s
  | some n =>
    let (segs, t0) := s.readSegments c
    let t := t0.setColl j.flight { c with wrote := List.range segs.length }
    let q := n.kids.foldl (fun a k => let y := a.1.sendSegs c.ctx k 0x14 arg segs; (y.1, a.2 && y.2)) (t, true)
    q.1.endColl j.flight (if q.2 then stOk else stLinkDown)

/-- CBCAST (R355): the device that hosts the root sends its elements and is done; the others wait for BDATA. Its own DA holds
every segment, so that the BDATA of further nodes which it hosts pass on and write nothing. -/
def State.cbcast (s : State) (j : Job) : State :=
  let plan := fld j.fn 15 4
  let inst := Tab.getD 0 (s.ctx j.ctx).instances plan
  let (r, s0) := s.planRecord j.ctx plan
  let s1 := s0.nextInstance j.ctx plan
  if Plan.bad r then s1.dropReserved j
  else if !fmtOk j.kt5 (Desc.fmt j.da) then s1.dropFormat j
  else
    let c0 := newColl j .cbcast plan inst
    let c := { c0 with record := r, nodes := Plan.nodes r }
    (((s1.violateIf (Desc.frozen j.da) Reg.colViolcnt (.ctx j.ctx)).modFlight j.flight fun f =>
      { f with sreg := wSC j.word }).setColl j.flight c).cbcastFrom j c (planArg plan inst 0)

def execCbcast (g : Nat) (s : State) : Host.Outcome State Fault Refusal :=
  .next (s.issueData g (fun w => wOp w == 0x71) (fun f => dataRegs true true true f.word) (fun _ => .collective)
    (fun _ => collUsed + mFN 15 4) fun j t => t.cbcast j)

/-! ### CSEND and CRECV (R355) -/

def chanKey (d c : Nat) : Nat := 4096 * d + c

/-- ARG of SDATA and SACK. -/
def chanArg (c k : Nat) : Nat := c * 2 ^ 52 + k * 2 ^ 36

def State.csend (s : State) (j : Job) : State :=
  let d := fld j.fn 11 0
  let ch := j.xt
  let k := Tab.getD 0 s.sendNo (chanKey d ch)
  if !fmtOk j.kt5 (Desc.fmt j.da) then s.dropFormat j
  else
    let c := { newColl j .csend ch k with peer := d }
    let s1 := ({ s with sendNo := Tab.put s.sendNo (chanKey d ch) ((k + 1) % 65536) }.modFlight j.flight fun f =>
      { f with sreg := wSC j.word }).setColl j.flight c
    let (segs, t) := s1.readSegments c
    let q := t.sendSegs c.ctx d 0x15 (chanArg ch k) segs
    if q.2 then q.1 else q.1.endColl j.flight stLinkDown

def execCsend (g : Nat) (s : State) : Host.Outcome State Fault Refusal :=
  .next (s.issueData g (fun w => wOp w == 0x72) (fun f => dataRegs true true true f.word) (fun _ => .collective)
    (fun _ => collUsed + mFN 11 0 + mXT 11 0) fun j t => t.csend j)

/-- A CRECV whose source lies behind a port that is not UP completes with LINK_DOWN. -/
def State.pathDown (s : State) (d : Nat) : Bool :=
  d != s.devid && (match s.route d with
    | some m => !s.linkUp m
    | none => false)

def State.crecv (s : State) (j : Job) : State :=
  let d := fld j.fn 11 0
  let ch := j.xt
  let k := Tab.getD 0 s.recvNo (chanKey d ch)
  if !fmtOk j.kt5 (Desc.fmt j.da) then s.dropFormat j
  else
    let c := { newColl j .crecv ch k with peer := d }
    let s1 := (({ s with recvNo := Tab.put s.recvNo (chanKey d ch) ((k + 1) % 65536) }.violateIf (Desc.frozen j.da)
      Reg.colViolcnt (.ctx j.ctx)).modFlight j.flight fun f => { f with sreg := wSC j.word }).setColl j.flight c
    if s1.pathDown d then s1.endColl j.flight stLinkDown else s1

def execCrecv (g : Nat) (s : State) : Host.Outcome State Fault Refusal :=
  .next (s.issueData g (fun w => wOp w == 0x73) (fun f => dataRegs true true true f.word) (fun _ => .collective)
    (fun _ => collUsed + mFN 11 0 + mXT 11 0) fun j t => t.crecv j)

/-- SDATA: the paired CRECV writes the elements that it expects; the last packet is acknowledged. -/
def State.sdata (s : State) (p : Packet) : State :=
  match s.collFor .crecv (argPlan p.arg) (argInst p.arg) (some p.src) with
  | none => s
  | some (i, c) =>
    let s1 := s.writeSegment c (argSeg p.arg) p.data
    let got := c.got + elemsIn (Desc.fmt c.da) p.data.length
    if !p.last then s1.setColl i { c with got := got }
    else
      let full := if Format.block (Desc.fmt c.da) then roundUp c.count 32 else c.count
      let s2 := s1.violateIf (got != full) Reg.colViolcnt (.ctx c.ctx)
      (((s2.endColl i stOk).messageFor (some (s.partOf c.ctx)) p.src 0x16 (chanArg c.plan c.inst) false [])).1

/-- An SDATA is wanted once its CRECV has issued; one of a CRECV that has ended is consumed. -/
def wantSdata (s : State) (p : Packet) : Bool :=
  (s.collFor .crecv (argPlan p.arg) (argInst p.arg) (some p.src)).isSome ||
    passed (Tab.getD 0 s.recvNo (chanKey p.src (argPlan p.arg))) (argInst p.arg)

def execSdata (m : Nat) (s : State) : Host.Outcome State Fault Refusal :=
  .next (s.onPacket m 0x15 wantSdata fun p t => t.sdata p)

/-- SACK completes the CSEND. -/
def execSack (m : Nat) (s : State) : Host.Outcome State Fault Refusal :=
  .next (s.onPacket m 0x16 anyPacket fun p t =>
    match t.collFor .csend (argPlan p.arg) (argInst p.arg) (some p.src) with
    | none => t
    | some (i, _) => t.endColl i stOk)

/-! ### Packets of a plan -/

/-- A packet of a plan is wanted once its instance has started; one of an instance that has ended is consumed. -/
def wantPlan (k : CollKind) (s : State) (p : Packet) : Bool :=
  (s.collFor k (argPlan p.arg) (argInst p.arg) none).isSome || s.pastInstance (argPlan p.arg) (argInst p.arg)

/-- Index of the hosted node that satisfies a test and has the lowest, or the highest, level. -/
def Coll.findNode (c : Coll) (lowest : Bool) (f : Node → Bool) : Option (Nat × Node) :=
  c.nodes.zipIdx.foldl (fun acc x =>
    if !f x.1 then acc
    else
      match acc with
      | none => some (x.2, x.1)
      | some y => if decide (x.1.level < y.2.level) == lowest then some (x.2, x.1) else acc) none

/-- RCOUNT: packets name no level, so the lowest node with the sender in the slot that has no count yet takes it. -/
def State.rcount (s : State) (p : Packet) : State :=
  match s.collFor .cred (argPlan p.arg) (argInst p.arg) none with
  | none => s
  | some (i, c) =>
    let k := argSlot p.arg
    match c.findNode true fun n => n.kids[k]? == some p.src && (Tab.find n.counts k).isNone with
    | none => s
    | some (x, n) =>
      (s.setColl i (c.setNode x { n with counts := Tab.put n.counts k (fld (leAt p.data 0 8) 12 0, leAt p.data 8 8) })).advanceCred i

def execRcount (m : Nat) (s : State) : Host.Outcome State Fault Refusal :=
  .next (s.onPacket m 0x11 (wantPlan .cred) fun p t => t.rcount p)

/-- The hosted node that an RPART is for: the lowest with the sender in the slot whose RCOUNT it has and whose partials
have not ended. -/
def Coll.partNode (c : Coll) (p : Packet) : Option (Nat × Node) :=
  c.findNode true fun n => n.kids[argSlot p.arg]? == some p.src && (Tab.find n.counts (argSlot p.arg)).isSome
    && !n.ended.contains (argSlot p.arg)

/-- An RPART is wanted like any packet of a plan, and waits for the RCOUNT that was sent before it (R353). -/
def wantRpart (s : State) (p : Packet) : Bool :=
  match s.collFor .cred (argPlan p.arg) (argInst p.arg) none with
  | none => s.pastInstance (argPlan p.arg) (argInst p.arg)
  | some (_, c) => (c.partNode p).isSome || !(c.nodes.any fun n =>
      n.kids[argSlot p.arg]? == some p.src && (Tab.find n.counts (argSlot p.arg)).isNone)

/-- RPART: the partials of one segment of a child. -/
def State.rpart (s : State) (p : Packet) : State :=
  match s.collFor .cred (argPlan p.arg) (argInst p.arg) none with
  | none => s
  | some (i, c) =>
    let k := argSlot p.arg
    match c.partNode p with
    | none => s
    | some (x, n) =>
      let cnt := p.data.length / 4
      let vs := (List.range cnt).map fun e => BitVec.ofNat 32 (leAt p.data (4 * e) 4)
      let mem := Memory.writeN (Tab.getD [] n.parts k) (segElems * argSeg p.arg) vs
      let n1 := { n with parts := Tab.put n.parts k mem,
                         sent := Tab.put n.sent k (max (Tab.getD 0 n.sent k) (segElems * argSeg p.arg + cnt)),
                         ended := if p.last then n.ended ++ [k] else n.ended }
      (s.setColl i (c.setNode x n1)).advanceCred i

def execRpart (m : Nat) (s : State) : Host.Outcome State Fault Refusal :=
  .next (s.onPacket m 0x10 wantRpart fun p t => t.rpart p)

/-- The hosted node, other than the root, that takes a packet from its parent: the highest that has not had it. -/
def Coll.downNode (c : Coll) (src : Nat) (had : Node → Bool) : Option (Nat × Node) :=
  c.findNode false fun n => !n.root && n.parent == src && !had n

/-- RRESULT: written to the owned elements and relayed by the node that it is for. -/
def State.rresult (s : State) (p : Packet) : State :=
  match s.collFor .cred (argPlan p.arg) (argInst p.arg) none with
  | none => s
  | some (i, c) =>
    let j := argSeg p.arg
    let (c1, s1) := s.takeResult i c j p.data
    match c1.downNode p.src fun n => n.segs.contains j with
    | none => s1.checkCred i
    | some (x, n) =>
      let s2 := s1.setColl i (c1.setNode x { n with segs := n.segs ++ [j] })
      let r := s2.sendAll c.ctx n.kids 0x12 (planArg c.plan c.inst 0 + j) p.last p.data
      if r.2 then r.1.checkCred i else r.1.endColl i stLinkDown

def execRresult (m : Nat) (s : State) : Host.Outcome State Fault Refusal :=
  .next (s.onPacket m 0x12 (wantPlan .cred) fun p t => t.rresult p)

/-- RFINAL: the count and digest of the whole plan. -/
def State.rfinal (s : State) (p : Packet) : State :=
  match s.collFor .cred (argPlan p.arg) (argInst p.arg) none with
  | none => s
  | some (i, c) =>
    let c1 := { c with final := some (fld (leAt p.data 0 8) 12 0, leAt p.data 8 8) }
    let s1 := s.setColl i c1
    match c1.downNode p.src fun n => n.final with
    | none => s1.checkCred i
    | some (x, n) =>
      let s2 := s1.setColl i (c1.setNode x { n with final := true })
      let r := s2.sendAll c.ctx n.kids 0x13 (planArg c.plan c.inst 0) p.last p.data
      if r.2 then r.1.checkCred i else r.1.endColl i stLinkDown

def execRfinal (m : Nat) (s : State) : Host.Outcome State Fault Refusal :=
  .next (s.onPacket m 0x13 (wantPlan .cred) fun p t => t.rfinal p)

/-- BDATA: written whole and relayed; the last segment completes the CBCAST. -/
def State.bdata (s : State) (p : Packet) : State :=
  match s.collFor .cbcast (argPlan p.arg) (argInst p.arg) none with
  | none => s
  | some (i, c) =>
    let j := argSeg p.arg
    let fresh := !c.wrote.contains j
    let s1 := if fresh then s.writeSegment c j p.data else s
    let c1 := { c with wrote := if fresh then c.wrote ++ [j] else c.wrote }
    let r : Coll × State × Bool := match c1.downNode p.src fun n => n.segs.contains j with
      | none => (c1, s1, true)
      | some (x, n) =>
        let y := s1.sendAll c.ctx n.kids 0x14 (planArg c.plan c.inst 0 + j) p.last p.data
        (c1.setNode x { n with segs := n.segs ++ [j], final := n.final || p.last }, y.1, y.2)
    let s3 := r.2.1.setColl i r.1
    if !r.2.2 then s3.endColl i stLinkDown
    else if p.last && !c.done then s3.endColl i stOk
    else s3.tidyColl i

def execBdata (m : Nat) (s : State) : Host.Outcome State Fault Refusal :=
  .next (s.onPacket m 0x14 (wantPlan .cbcast) fun p t => t.bdata p)

/-- CHILD_TIMEOUT: the wait of an operation has ended (R354). -/
def execChildTimeout (c : Nat) (s : State) : Host.Outcome State Fault Refusal := .next (s.whenRunning <| s.endColl c stTimeout)

/-! ### Link port resets and partition resets (R343, R354, R126) -/

/-- Devices with which an operation exchanges packets. -/
def Coll.devices (c : Coll) : List Nat :=
  match c.kind with
  | .csend => [c.peer]
  | .crecv => [c.peer]
  | _ => (if Plan.leafEn c.record then [Plan.leafDst c.record] else []) ++
      c.nodes.flatMap fun n => n.kids ++ (if n.root then [] else [n.parent])

/-- Operations whose path uses a port that went down complete with LINK_DOWN. -/
def State.collLinkDown (s : State) (m : Nat) : State :=
  (s.colls.filter fun x => x.2.devices.any fun d => s.pathUses d m).foldl (fun t x => t.endColl x.1 stLinkDown) s

/-- A partition reset abandons the operations of its contexts; a voted CRED among them counts as a fault in the vote. -/
def State.abandonColls (s : State) (n : Nat) : State :=
  (s.colls.filter fun x => x.2.ctx == n).foldl (fun t x =>
    (if x.2.done then t else t.recordVoted x.2 false).dropColl x.1) s

/-- CONTRIB_LATCH: words 0 to 2 of COL.CONTRIB take one state (R371). -/
def State.latchContrib (s : State) : State :=
  let (p, i, n, d, st) := s.stp.contrib
  ((s.setReg Reg.colContrib0 (p * 2 ^ 52 + i * 2 ^ 36 + n % 2 ^ 13)).setReg Reg.colContrib1 d).setReg Reg.colContrib2 st

end Machine

end Sys2Proof
end

