-- ==== Sys2Proof/Machine/Domain.lean ====
section
/-! DEFINITION. Step control: membership, domain barriers and the step vote (R347–R349, R357–R363, R305, R410). -/

set_option Elab.async false

namespace Sys2Proof

namespace Machine

/-! ### Tables (R347, R372) -/

def State.modStp (s : State) (f : Stp → Stp) : State := { s with stp := f s.stp }
def State.stpViolate (s : State) : State := s.violate Reg.stpViolcnt .mgmt

def entValid (v : Nat) : Bool := bit v 63
def entLost (v : Nat) : Bool := bit v 62
def entDev (v : Nat) : Nat := fld v 61 50
def entMake (d : Nat) : Nat := 2 ^ 63 + d % 4096 * 2 ^ 50

/-- Entries in use of a table: device and LOST. -/
def State.tableOf (s : State) (f : Nat → Nat) : List (Nat × Bool) :=
  ((List.range 64).map fun i => s.reg (f i)).filterMap fun v => if entValid v then some (entDev v, entLost v) else none

def State.wtab (s : State) : List (Nat × Bool) := s.tableOf Reg.stpWtab
/-- The other managers, at the root. -/
def State.mtab (s : State) : List (Nat × Bool) := (s.tableOf Reg.stpMtab).filter fun e => e.1 != s.devid

/-- The device acts as a manager or root, and has not been drained (R386). -/
def State.manages (s : State) : Bool := s.role != 0 && s.stp.beats

def inTable (t : List (Nat × Bool)) (d : Nat) : Bool := t.any fun e => e.1 == d

/-- A device of the tables that is LOST. -/
def State.anyLost (s : State) : Bool := s.wtab.any (·.2) || (s.role == 2 && s.mtab.any (·.2))

/-- Step control's current pair: the last committed step + 1 and the round (R362). -/
def State.curStep (s : State) : Nat := (s.get Reg.stpStepcnt 47 0 + 1) % 2 ^ 48
def State.curRound (s : State) : Nat := s.get Reg.stpStepcnt 55 48

/-! ### Joining (R348) -/

/-- Send the device's own JOIN; it stays due while it cannot leave (log 36). -/
def State.sendJoin (s : State) : State :=
  if s.role = 2 then s
  else
    let t := s.tell s.mgrid 0x01 (s.devid + (if s.role = 1 then 4096 else 0)) []
    if s.reaches s.mgrid then t.modStp fun x => { x with joinDue := false, joins := x.joins ++ [s.devid] }
    else t.modStp fun x => { x with joinDue := true }

/-- The tables after configuration: a manager's entry 0 is itself, and so is the root's manager table's. -/
def State.formTables (s : State) : State :=
  let s1 := if s.role = 0 then s else s.setReg (Reg.stpWtab 0) (entMake s.devid)
  if s.role = 2 then
    ((s1.setReg (Reg.stpMtab 0) (entMake s.devid)).set Reg.stpMembers 12 0 1).modStp fun x =>
      { x with members := [(s.devid, s.devid)] }
  else s1

/-- A free entry of a table. -/
def State.freeEntry (s : State) (f : Nat → Nat) : Option Nat := (List.range 64).find? fun i => !entValid (s.reg (f i))

/-- The first condition of R348 that holds for a joiner, at the root: the status and table index. -/
def State.joinVerdict (s : State) (id mgr : Nat) (asMgr : Bool) : Nat × Nat :=
  if s.get Reg.stpMembers 12 0 = 4096 then (stDomainFull, 0)
  else if s.stp.members.any (·.1 == id) then (stMismatch, 0)
  else if asMgr then
    match s.freeEntry Reg.stpMtab with
    | none => (stNoResource, 0)
    | some i => (stOk, i)
  else
    let n := (s.stp.members.filter fun m => m.2 == mgr && m.1 != mgr).length
    if 63 ≤ n then (stNoResource, 0) else (stOk, n + 1)

/-- The root checks a JOIN and answers it; a refused join changes no table. -/
def State.rootJoin (s : State) (p : Packet) : State :=
  let id := fld p.arg 11 0
  let asMgr := bit p.arg 12
  let mgr := if asMgr || p.src == id then s.devid else p.src
  let (st, i) := s.joinVerdict id mgr asMgr
  let s1 := if st != stOk then s
    else
      let t := (s.addSat Reg.stpMembers 12 0 1).modStp fun x => { x with members := x.members ++ [(id, if asMgr then id else mgr)] }
      if asMgr then t.setReg (Reg.stpMtab i) (entMake id)
      else if mgr = s.devid then t.setReg (Reg.stpWtab i) (entMake id) else t
  s1.tell p.src 0x02 (st + i * 2 ^ 8) []

/-- JOIN: forwarded to the root, or checked there. One that cannot leave is lost, and no JOINACK answers it. -/
def State.join (s : State) (p : Packet) : State :=
  if s.role = 0 then s.stpViolate
  else if !s.manages then s
  else if s.role = 1 then
    let t := s.tell s.mgrid 0x01 p.arg []
    if s.reaches s.mgrid then t.modStp fun x => { x with joins := x.joins ++ [fld p.arg 11 0] } else t
  else s.rootJoin p

def execJoin (m : Nat) (s : State) : Host.Outcome State Fault Refusal :=
  .next (s.onPacket m 0x01 anyPacket fun p t => t.join p)

/-- JOINACK: the answer to the oldest JOIN outstanding, the device's own or one that it forwarded. -/
def State.joinAck (s : State) (p : Packet) : State :=
  let st := fld p.arg 7 0
  let i := fld p.arg 13 8
  match s.stp.joins with
  | [] => s.stpViolate
  | id :: rest =>
    let s1 := s.modStp fun x => { x with joins := rest }
    if id = s.devid then s1.modStp fun x => { x with join := some (st, i) }
    else
      let s2 := if st = stOk then s1.setReg (Reg.stpWtab i) (entMake id) else s1
      s2.tell id 0x02 p.arg []

def execJoinack (m : Nat) (s : State) : Host.Outcome State Fault Refusal :=
  .next (s.onPacket m 0x02 anyPacket fun p t => t.joinAck p)

/-! ### Barriers (R357, R358) -/

def State.gen (s : State) : Nat := s.get Reg.stpBargen 15 0

/-- The generation `a` is behind `g`. -/
def behind (g a : Nat) : Bool := passed g a

/-- Send a release of a generation with a status to devices; those lost to a port that is not UP break the identity of
R358. -/
def State.releaseTo (s : State) (ds : List Nat) (g st : Nat) : State :=
  let s1 := s.modStp fun x => { x with
    arrived := [], audGen := if st = stOk then g else x.audGen,
    granted := if st = stOk then ds.length else x.granted, consumed := if st = stOk then 0 else x.consumed }
  ds.foldl (fun t d =>
    let r := t.message d 0x09 (g + st * 2 ^ 16) false []
    if r.2 || st != stOk then r.1 else r.1.modStp fun x => { x with restart := true }) s1

/-- Devices to which this one sends releases: its table, and at the root the other managers, itself once. -/
def State.releaseDests (s : State) : List Nat :=
  s.wtab.map (·.1) ++ (if s.role = 2 then s.mtab.map (·.1) else [])

/-- A member is LOST: the pending generation completes with TIMEOUT to the whole domain. A manager that is not the root
tells its table and, with a release of that status, the root (log 37). -/
def State.barrierLost (s : State) : State :=
  if s.stp.arrived.isEmpty then s
  else
    let g := s.gen
    s.releaseTo (s.releaseDests ++ (if s.role = 1 then [s.mgrid] else [])) g stTimeout

/-- An arrival may complete the table. -/
def State.checkArrived (s : State) : State :=
  let all := s.releaseDests.all (s.stp.arrived.contains ·)
  if s.anyLost then s.barrierLost
  else if !all then s
  else if s.role = 1 then s.tell s.mgrid 0x08 s.gen []
  else s.releaseTo s.releaseDests s.gen stOk

/-- BARARRIVE at a manager or the root. -/
def State.barArrive (s : State) (p : Packet) : State :=
  let a := fld p.arg 15 0
  if s.role = 0 then s.stpViolate
  else if !s.manages then s
  else if behind s.gen a then s.stpViolate
  else if a != s.gen then s.tell p.src 0x09 (a + stStale * 2 ^ 16) []
  else if !s.releaseDests.contains p.src then s.stpViolate
  else if s.stp.arrived.contains p.src then s
  else (s.modStp fun x => { x with arrived := x.arrived ++ [p.src] }).checkArrived

def execBararrive (m : Nat) (s : State) : Host.Outcome State Fault Refusal :=
  .next (s.onPacket m 0x08 anyPacket fun p t => t.barArrive p)

/-- The BARRIERs that wait complete with a status, in the waves of R433. -/
def State.releaseWaiting (s : State) (st : Nat) : State :=
  s.stp.waiting.foldl (fun t n => t.beginRelease n st true) (s.modStp fun x => { x with waiting := [] })

/-- The device's own part of a release: BARDONE, the next generation, and its BARRIER. -/
def State.takeRelease (s : State) (src g st : Nat) : State :=
  if st != stOk then s.releaseWaiting st
  else
    let r := s.message src 0x0A g false []
    let s1 := (if r.2 then r.1 else r.1.modStp fun x => { x with restart := true }).set Reg.stpBargen 15 0 ((g + 1) % 65536)
    let s2 := if s.role = 0 then s1.modStp fun x =>
      { x with audGen := g, granted := 1, consumed := if x.waiting.isEmpty then 1 else 0 } else s1
    s2.releaseWaiting stOk

/-- BARRELEASE: relayed by a manager that has it from the root; the device's own table entry takes it as a member. -/
def State.barRelease (s : State) (p : Packet) : State :=
  let a := fld p.arg 15 0
  let st := fld p.arg 23 16
  if a != s.gen then s.stpViolate
  else if s.role = 1 && p.src == s.mgrid && s.mgrid != s.devid then
    if !s.manages then s
    else
      let s1 := if st = stOk then s.tell p.src 0x0A a [] else s
      s1.releaseTo s1.releaseDests a st
  else if s.role = 2 && p.src != s.devid then
    if s.manages && st == stTimeout && inTable s.mtab p.src then s.releaseTo s.releaseDests a stTimeout else s.stpViolate
  else s.takeRelease p.src a st

def execBarrelease (m : Nat) (s : State) : Host.Outcome State Fault Refusal :=
  .next (s.onPacket m 0x09 anyPacket fun p t => t.barRelease p)

/-- BARDONE: a consumed token of the generation audited. -/
def State.barDone (s : State) (p : Packet) : State :=
  if s.role = 0 then s.stpViolate
  else if fld p.arg 15 0 = s.stp.audGen && s.stp.consumed < s.stp.granted then
    s.modStp fun x => { x with consumed := x.consumed + 1 }
  else s

def execBardone (m : Nat) (s : State) : Host.Outcome State Fault Refusal :=
  .next (s.onPacket m 0x0A anyPacket fun p t => t.barDone p)

/-- BARAUD_LATCH (R358, R372). -/
def State.latchBaraud (s : State) : State :=
  let x := s.stp
  s.setReg Reg.stpBaraud (2 ^ 63 + x.audGen % 65536 * 2 ^ 40 + x.granted % 128 * 2 ^ 14 + x.consumed % 128 * 2 ^ 7
    + (x.granted - x.consumed) % 128)

/-- The manager to which the device itself sends its arrivals and votes: a manager is a worker of its own table (R31, R32). -/
def State.ownMgr (s : State) : Nat := if s.role = 0 then s.mgrid else s.devid

/-- The domain BARRIER of one cluster: STALE at once, or it waits; the last cluster makes the device arrive. Step control serves
the job context alone (R347): another context's BARRIER sends nothing and waits for its timeout (log 100). -/
def State.domainBarrierAt (s : State) (g : Nat) (f : Fetch) : State :=
  let w := f.word
  let r := (s.cl g).sregs
  let e := if fld w 105 100 = 0 then s.gen else sreg r (fld w 105 100) % 65536
  if e != s.gen then
    let s1 := if fld w 99 94 = 0 then s else s.setSreg g (fld w 99 94) stStale
    s1.tagNow f
  else
    let t := s.modCl g fun c => { c with stall := .barrier true (wTag w) (fld w 99 94) (mapOf c.sregs (fld w 77 72)) }
    if t.allAtBarrier f.n true && f.n == s.jobCtx then
      let a := t.modStp fun x => { x with waiting := x.waiting ++ [f.n] }
      let q := a.message t.ownMgr 0x08 t.gen false []
      if q.2 then q.1 else q.1.releaseWaiting stLinkDown
    else t

/-- BARRIER_DOMAIN. -/
def execBarrierDomain (g : Nat) (s : State) : Host.Outcome State Fault Refusal :=
  .next (s.issue g (fun w => opIs 0x06 w && barScope w == 1) (fun f => barrierRegs f.word) (fun _ => .none)
    (fun _ => barrierUsed) fun f t => t.domainBarrierAt g f)

/-- BARRIER_TIMEOUT: the cluster's BARRIER completes with TIMEOUT, unless its release is under way (R373). -/
def execBarrierTimeout (g : Nat) (s : State) : Host.Outcome State Fault Refusal :=
  .next (s.whenRunning <|
    match s.activeOn g, (s.cl g).stall with
    | some n, .barrier true _ _ _ =>
      if s.awaitsWave n (s.cl g).idx then s
      else (s.releaseOne n stTimeout g).modStp fun x =>
        { x with waiting := if ((s.clustersOf n).filter (· != g)).any (fun h => match (s.cl h).stall with
            | .barrier true _ _ _ => true
            | _ => false) then x.waiting else x.waiting.filter (· != n) }
    | _, _ => s)

/-! ### The vote (R359–R363) -/

def fSuspect : Nat := 0
def fPresent : Nat := 1
def fConsist : Nat := 2
def fRestart : Nat := 3
def fFault : Nat := 4
def fLost : Nat := 5

/-- Bytes of a vote body. -/
def Ballot.bytes (b : Ballot) : List Byte :=
  leBytes 6 b.step ++ leBytes 1 b.round ++ leBytes 1 b.flags ++ leBytes 2 b.pcount ++ leBytes 6 0 ++ leBytes 8 b.pdig ++
    leBytes 8 0

/-- Read a vote body and the IDs behind it. -/
def Ballot.ofBytes (src : Nat) (d : List Byte) : Ballot :=
  { src := src, step := leAt d 0 6, round := leAt d 6 1, flags := leAt d 7 1, pcount := leAt d 8 2 % 2 ^ 13,
    pdig := leAt d 0x10 8, ids := (List.range (min 64 ((d.length - 32) / 2))).map fun i => leAt d (32 + 2 * i) 2 % 4096 }

/-- Step control forms the body for a pair (R360). -/
def State.voteBody (s : State) (step round : Nat) (restartReq : Bool) : Ballot :=
  let vs := if s.stp.pair = (step, round) then s.stp.voted else []
  let oks := vs.filter (·.ok)
  let first := oks.headD ⟨false, 0, 0⟩
  let consist := !oks.isEmpty && oks.all fun v => v.count == first.count && v.digest == first.digest
  let fault := s.chk.fault || s.stp.restart || vs.any fun v => !v.ok
  { src := s.devid, step := step, round := round,
    flags := b2n (s.chk.suspects.contains step) + 2 * b2n (s.presentNow step round) + 4 * b2n consist
      + 8 * b2n restartReq + 16 * b2n fault,
    pcount := first.count % 2 ^ 13, pdig := first.digest, ids := [] }

/-- Complete a CVOTE: the record, STP.LASTVOTE and the commit mark (R359, R362, R305). PCOUNT is written with the
committed count; without a commit it is a free value. -/
def State.endCvote (s : State) (v : CVote) (st : Nat) : State :=
  let commit := st == stCommitted || st == stDropped
  let (x, s0) := if commit then (v.pcount, s) else s.draw
  let s1 := s0.store Reg.colViolcnt v.ctx (v.addr + 8)
    (leBytes 1 st ++ leBytes 1 s0.curRound ++ leBytes 2 (x % 2 ^ 13))
  let s2 := s1.setReg Reg.stpLastvote (st * 2 ^ 56 + v.round * 2 ^ 48 + v.step)
  let s3 := if commit then s2.modCtx v.ctx fun c => { c with commit := some v.step } else s2
  (s3.modStp fun q => { q with cvotes := q.cvotes.filter (·.flight != v.flight) }).finishFlight v.flight st

/-- Complete every CVOTE that a test selects. -/
def State.endCvotes (s : State) (p : CVote → Bool) (st : CVote → Nat) : State :=
  (s.stp.cvotes.filter p).foldl (fun t v => t.endCvote v (st v)) s

/-- CVOTE (R359, R360). That of a context other than the job context casts no vote and waits for its timeout (R347, log 100). -/
def State.cvote (s : State) (j : Job) : State :=
  let step := j.sb % 2 ^ 48
  let round := s.curRound
  let (r, t) := s.load Reg.colViolcnt j.ctx j.sa 64
  let b := t.voteBody step round (bit (leAt r 0 1) 0)
  let v : CVote := ⟨j.flight, j.ctx, j.sa, step, round, bit b.flags fPresent, b.pcount⟩
  let s1 := (t.modFlight j.flight fun f => { f with sreg := wSC j.word }).modStp fun x => { x with cvotes := x.cvotes ++ [v] }
  if j.ctx != s1.jobCtx then s1
  else
    let q := s1.message s1.ownMgr 0x04 0 false b.bytes
    if q.2 then q.1 else q.1.endCvote v stLinkDown

def execCvote (g : Nat) (s : State) : Host.Outcome State Fault Refusal :=
  .next (s.issueData g (fun w => wOp w == 0x74) (fun f => dataRegs true true true f.word) (fun _ => .collective)
    (fun _ => mSA + mSB + mSC) fun j t => t.cvote j)

/-- CVOTE_TIMEOUT: the CVOTEs that wait complete with TIMEOUT. -/
def execCvoteTimeout (s : State) : Host.Outcome State Fault Refusal :=
  .next (s.whenRunning <| s.endCvotes (fun _ => true) fun _ => stTimeout)

/-! ### Cadence (R410) -/

/-- A saturating field value. -/
def clampBits (w v : Nat) : Nat := min v (2 ^ w - 1)

/-- Recompute SNP.CADENCE and SNP.COST. The times that the device has measured are free values, in µs; τ is formed from m before
m is rounded. -/
def State.recadence (s : State) : State :=
  let (tm, s1) := s.draw
  let (nr, s2) := s1.draw
  let (iv, s3) := s2.draw
  let t := min 604800 tm
  let n := nr % (s.snp.restarts + 1)
  let c := s.snp.takeUs.getD 50000
  let d := s.snp.drainUs.getD 100000
  let tau := max (Fp.isqrt (2 * c * 1000000 * (t + 14400) / (n + 1))) d
  let steps := max 1 (tau / (iv + 1))
  (s3.setReg Reg.snpCadence (clampBits 24 ((t + 14400) / (n + 1)) * 2 ^ 40 + clampBits 24 (tau / 1000) * 2 ^ 16 + clampBits 16 steps)).setReg Reg.snpCost
    (clampBits 16 (c / 1000) * 2 ^ 16 + clampBits 16 (d / 1000))

/-! ### Answers (R362) -/

/-- Device IDs of a drop set. -/
def dropIds (d : List Byte) : List Nat := (List.range 4096).filter fun i => bit (leAt d (i / 8) 1) (i % 8)

def dropBytes (ids : List Nat) : List Byte := (List.range 512).map fun i =>
  BitVec.ofNat 8 (((List.range 8).map fun b => if ids.contains (8 * i + b) then 2 ^ b else 0).sum)

/-- The answer at a worker: its effect, and the CVOTEs of the pair complete. Every RESTART received counts for the cadence, one
for a pair that has no CVOTE here too (R410). -/
def State.applyAnswer (s0 : State) (step round st : Nat) (drops : List Nat) : State :=
  let s : State := if st = stRestart then { s0 with snp := { s0.snp with restarts := s0.snp.restarts + 1 } } else s0
  let mine (v : CVote) : Bool := v.ctx == s.jobCtx && v.step == step && v.round == round
  if !s.stp.cvotes.any mine then s
  else if st = stCommitted then
    let s1 := (s.setReg Reg.stpStepcnt step).modStp fun x => { x with drops := [] }
    let s2 := { s1 with chk := { s1.chk with suspects := s1.chk.suspects.filter (· != step) } }
    (s2.endCvotes mine fun v => if v.present then stCommitted else stDropped).recadence
  else if st = stReplay then
    ((s.set Reg.stpStepcnt 55 48 (round + 1)).modStp fun x => { x with drops := drops }).endCvotes mine fun _ => stReplay
  else if st = stRestart then
    (s.modStp fun x => { x with restart := false }).endCvotes mine fun _ => stRestart
  else if st = stStale then s.endCvotes mine fun _ => stStale
  else s.stpViolate

/-- Send an answer. -/
def State.sendAnswer (s : State) (ds : List Nat) (step round st : Nat) (data : List Byte) : State :=
  ds.foldl (fun t d => t.tell d 0x06 (step + round * 2 ^ 48 + st * 2 ^ 56) data) s

/-- ANSWER: relayed by a manager that has it from the root; otherwise applied. -/
def State.answer (s : State) (p : Packet) : State :=
  let step := fld p.arg 47 0
  let round := fld p.arg 55 48
  let st := fld p.arg 63 56
  if s.role = 1 && p.src != s.devid then
    if s.manages then
      (s.modStp fun x => { x with ballots := x.ballots.filter fun b => !(b.step == step && b.round == round) }).sendAnswer
        (s.wtab.map (·.1)) step round st p.data
    else s
  else s.applyAnswer step round st (dropIds p.data)

def execAnswer (m : Nat) (s : State) : Host.Outcome State Fault Refusal :=
  .next (s.onPacket m 0x06 anyPacket fun p t => t.answer p)

/-! ### Collecting and deciding (R360, R361) -/

/-- Members of a table that a set of votes misses. -/
def missing (t : List (Nat × Bool)) (bs : List Ballot) : Bool := t.any fun e => e.2 || !bs.any fun b => b.src == e.1

/-- Every member that is not LOST has voted. -/
def allVoted (t : List (Nat × Bool)) (bs : List Ballot) : Bool := t.all fun e => e.2 || bs.any fun b => b.src == e.1

/-- PCOUNT and PDIG are equal in all votes. -/
def agree (bs : List Ballot) : Bool :=
  match bs with
  | [] => true
  | b :: rest => rest.all fun c => c.pcount == b.pcount && c.pdig == b.pdig

/-- IDs of a vote's members that are SUSPECT and PRESENT. -/
def Ballot.dropped (b : Ballot) (own : Bool) : List Nat :=
  if own then (if bit b.flags fSuspect && bit b.flags fPresent then [b.src] else []) else b.ids

/-- A table's votes combined into one (R360). -/
def combine (self : Nat) (t : List (Nat × Bool)) (bs : List Ballot) (step round : Nat) : Ballot :=
  let ors := bs.foldl (fun a b => a ||| b.flags) 0
  let ors1 := if agree bs then ors else setFld ors fConsist fConsist 0
  let first := bs.headD ⟨0, 0, 0, 0, 0, 0, []⟩
  { src := self, step := step, round := round, flags := if missing t bs then setFld ors1 fLost fLost 1 else ors1,
    pcount := first.pcount, pdig := first.pdig, ids := (bs.flatMap fun b => b.dropped true).take 64 }

/-- The answer to the votes of a domain (R361): its status and drop set. `own` tells that each vote is one device's. -/
def decideVotes (bs : List Ballot) (own lost : Bool) (round maxRound minContrib : Nat) : Nat × List Nat :=
  let drops := bs.flatMap fun b => b.dropped own
  if lost || bs.any fun b => bit b.flags fLost || bit b.flags fFault || bit b.flags fRestart then (stRestart, [])
  else if !agree bs || bs.any (fun b => !bit b.flags fConsist) || !drops.isEmpty then
    (if round < maxRound then (stReplay, drops) else (stRestart, []))
  else if (bs.headD ⟨0, 0, 0, 0, 0, 0, []⟩).pcount < minContrib then (stRestart, [])
  else (stCommitted, [])

/-- The root answers: in a one-level domain from its table's votes; otherwise from its combined vote and the GVOTEs. -/
def State.rootAnswer (s : State) : State :=
  let (step, round) := (s.curStep, s.curRound)
  let one := s.mtab.isEmpty
  let bs := if one then s.stp.ballots else combine s.devid s.wtab s.stp.ballots step round :: s.stp.gballots
  let lost := s.stp.restart || (one && missing s.wtab s.stp.ballots) || (!one && missing s.mtab s.stp.gballots)
  let (st, drops) := decideVotes bs one lost round (s.get Reg.stpVotecfg 15 13) (s.get Reg.stpVotecfg 12 0)
  (s.modStp fun x => { x with ballots := [], gballots := [], restart := x.restart && st != stRestart }).sendAnswer s.releaseDests
    step round st (if st = stReplay then dropBytes drops else [])

/-- A manager sends its GVOTE. -/
def State.sendGvote (s : State) : State :=
  let b := combine s.devid s.wtab s.stp.ballots s.curStep s.curRound
  (s.modStp fun x => { x with ballots := [] }).tell s.mgrid 0x05 0 (b.bytes ++ b.ids.flatMap (leBytes 2))

/-- Act once every vote that can come is in. -/
def State.checkVotes (s : State) : State :=
  if !s.manages || s.stp.ballots.isEmpty || !allVoted s.wtab s.stp.ballots then s
  else if s.role = 1 then s.sendGvote
  else if allVoted s.mtab s.stp.gballots then s.rootAnswer
  else s

/-- Replace the vote of one sender. -/
def putBallot (bs : List Ballot) (b : Ballot) : List Ballot := bs.filter (·.src != b.src) ++ [b]

/-- The ANSWERs that the device has relayed to itself take effect (R373: a relay completes before a vote counts). -/
def State.selfAnswers (s : State) : Nat → State
  | 0 => s
  | k + 1 =>
    match s.takeParcel selfPort fun x => x.op == 0x06 && s.mine selfPort x && !x.malformed (s.isStore selfPort) with
    | none => s
    | some (x, t) => (t.answer x.packet).selfAnswers k

/-- A vote reaches a table: one for another pair than the current one is answered STALE. -/
def State.takeVote (s0 : State) (p : Packet) (fromMgr : Bool) : State :=
  let s := s0.selfAnswers (s0.port selfPort).inbox.length
  let b := Ballot.ofBytes p.src p.data
  let t := if fromMgr then s.mtab else s.wtab
  if s.role = 0 || (fromMgr && s.role != 2) || !inTable t p.src then s.stpViolate
  else if !s.manages then s
  else if (b.step, b.round) != (s.curStep, s.curRound) then s.sendAnswer [p.src] b.step b.round stStale []
  else if fromMgr then (s.modStp fun x => { x with gballots := putBallot x.gballots b }).checkVotes
  else (s.modStp fun x => { x with ballots := putBallot x.ballots { b with ids := [] } }).checkVotes

def execVote (m : Nat) (s : State) : Host.Outcome State Fault Refusal :=
  .next (s.onPacket m 0x04 anyPacket fun p t => t.takeVote p false)

def execGvote (m : Nat) (s : State) : Host.Outcome State Fault Refusal :=
  .next (s.onPacket m 0x05 anyPacket fun p t => t.takeVote p true)

/-- VOTE_TIMEOUT: VOTETMO has passed since the first vote of the pair. -/
def execVoteTimeout (s : State) : Host.Outcome State Fault Refusal :=
  .next (s.whenRunning <| if !s.manages || (s.stp.ballots.isEmpty && s.stp.gballots.isEmpty) then s
    else if s.role = 1 then s.sendGvote else s.rootAnswer)

/-! ### Liveness (R349) -/

/-- HEARTBEAT: the sender is alive. -/
def execHeartbeat (m : Nat) (s : State) : Host.Outcome State Fault Refusal :=
  .next (s.onPacket m 0x03 anyPacket fun _ t => t)

/-- HEARTBEAT_SEND: the device and its members, and its manager once it has joined; a JOIN that is due goes too. -/
def execHeartbeatSend (s : State) : Host.Outcome State Fault Refusal :=
  .next (s.whenRunning <|
    if !s.stp.beats then s
    else
      let up := if s.role != 2 && (s.stp.join.map (·.1)) == some stOk then [s.mgrid] else []
      let down := if s.role = 0 then [] else s.releaseDests.filter (· != s.devid)
      let s1 := (up ++ down).foldl (fun t d => t.tell d 0x03 (s.get Reg.stpStepcnt 47 0) []) s
      if s.stp.joinDue then s1.sendJoin else s1)

/-- MEMBER_LOST: entry `i` of WTAB, or `i − 64` of MTAB, is marked LOST; the pending generation completes with TIMEOUT. -/
def execMemberLost (i : Nat) (s : State) : Host.Outcome State Fault Refusal :=
  .next (s.whenRunning <|
    let r := if i < 64 then Reg.stpWtab i else Reg.stpMtab (i - 64)
    if i < 128 && i % 64 != 0 && s.manages && entValid (s.reg r) && !entLost (s.reg r) then
      ((s.set r 62 62 1).barrierLost).checkVotes
    else s)

/-! ### Link port resets (R343, R358, R362) -/

/-- What a link port reset that discarded packets of the operations `ops` does to step control. -/
def State.domainLinkDown (s : State) (m : Nat) (ops : List Nat) : State :=
  let up := s.role != 2 && s.pathUses s.mgrid m
  let tokens := ops.contains 0x09 || ops.contains 0x0A ||
    (s.role != 0 && decide (s.stp.consumed < s.stp.granted) && s.releaseDests.any fun d => s.pathUses d m)
  let s1 := s.modStp fun x => { x with
    restart := x.restart || tokens,
    ballots := x.ballots.filter fun b => !s.pathUses b.src m,
    gballots := x.gballots.filter fun b => !s.pathUses b.src m,
    joinDue := x.joinDue || (up && x.joins.contains s.devid),
    joins := if up then [] else x.joins }
  if up then (s1.endCvotes (fun v => v.ctx == s1.jobCtx) fun _ => stLinkDown).releaseWaiting stLinkDown else s1

end Machine

end Sys2Proof
end

