-- ==== Sys2Proof/Machine/Ledger.lean ====
section
/-! DEFINITION. The activation ledger: pools and page records, parking policy, tier pressure, the codec's BOUND, misses and
the audit, and the instructions LPARK, LFETCH, LDROP and LPIN (09, R113, R114, R231, R294). -/

set_option Elab.async false

namespace Sys2Proof

namespace Machine

def pageBytes : Nat := 262144

/-! ### Registers of a pool (R275) -/

def poolStack (k : Nat) : Nat := k / 128
def poolReg (f : Nat → Nat → Nat) (k : Nat) : Nat := f (k / 128) (k % 128)

def State.pctl (s : State) (k : Nat) : Nat := s.reg (poolReg Reg.ldgPctl k)
def State.poolOwner (s : State) (k : Nat) : Nat := fld (s.pctl k) 59 48
def State.poolSize (s : State) (k : Nat) : Nat := fld (s.pctl k) 20 0
def State.poolCodec (s : State) (k : Nat) : Nat := fld (s.pctl k) 62 61
def State.poolKv (s : State) (k : Nat) : Bool := bit (s.pctl k) 60

def State.pool (s : State) (k : Nat) : Pool := Tab.getD .blank s.pools k
def State.setPool (s : State) (k : Nat) (p : Pool) : State := { s with pools := Tab.setD .blank s.pools k p }
def State.modPool (s : State) (k : Nat) (f : Pool → Pool) : State := s.setPool k (f (s.pool k))

/-- The region register of a tier. -/
def regionReg (t : Nat) : Nat → Nat → Nat :=
  if t = 1 then Reg.ldgPframe else if t = 2 then Reg.ldgPpack else if t = 3 then Reg.ldgPspill else Reg.ldgPhost

/-- What a tier holds: frames, or chunks. -/
def State.tierSize (s : State) (k t : Nat) : Nat :=
  (if t = 1 then 8 else 512) * s.get (poolReg (regionReg t) k) 20 0

/-- What a placement in a tier reserves. -/
def reserve (t : Nat) : Nat := if t = 1 then 1 else 64

/-- Frames or chunks of a tier that records hold or moves have reserved. -/
def Pool.taken (p : Pool) (t : Nat) : List Nat :=
  p.recs.flatMap fun r =>
    (if r.2.state = t then r.2.slots else []) ++ (match r.2.move with
      | some m => if m.target = t then m.slots else []
      | none => [])

/-- room(t) of R262, for tiers of the sizes given. -/
def Pool.room (p : Pool) (size : Nat → Nat) (t : Nat) : Bool := decide ((p.taken t).length + reserve t ≤ size t)

/-- What a placement reserves: the lowest free frames or chunks of the tier (log 47). -/
def Pool.freeSlots (p : Pool) (t : Nat) : List Nat :=
  ((List.range ((p.taken t).length + reserve t)).filter fun i => !(p.taken t).contains i).take (reserve t)

/-- The enabled pool that serves a page (R254). -/
def State.servingPool (s : State) (c tid ord : Nat) : Option Nat :=
  let ps := s.enabledPools.filter fun k => s.poolOwner k == c
  ps[(tid + ord) % ps.length]?

/-! ### Parking policy (R257, R258) -/

def polTensor (e : Nat) : Nat := fld e 63 40
def polAction (e : Nat) : Nat := fld e 39 37
def polRecipe (e : Nat) : Nat := fld e 36 29
def polPin (e : Nat) : Bool := bit e 28

/-- A read of one of the ledger's tables, as context 0 reads it: what is not mapped reads as zero and counts once in
LDG.VIOLCNT of the stack (R277). -/
def State.tableRead (s : State) (k c a n : Nat) : List Byte × State :=
  let (bs, bad) := s.readPhys 0 a n
  (bs, s.violateIf bad (Reg.ldgViolcnt (poolStack k)) (.ctx c))

/-- The search of R257: the first index not below `t`. -/
def State.policyGo (s : State) (k c base t : Nat) : Nat → Nat → Nat → Nat × State
  | 0, lo, _ => (lo, s)
  | fuel + 1, lo, hi =>
    if lo < hi then
      let mid := (lo + hi) / 2
      let (bs, u) := s.tableRead k c (base + 8 * mid) 8
      if polTensor (leNat bs) < t then u.policyGo k c base t fuel (mid + 1) hi else u.policyGo k c base t fuel lo mid
    else (lo, s)

/-- The policy entry of pool `k` for a tensor, as an LPARK of context `c` finds it. -/
def State.policy (s : State) (k c t : Nat) : Nat × State :=
  let r := s.reg (poolReg Reg.ldgPpolicy k)
  let n := fld r 63 52
  let base := fld r 51 6 * 64
  let (lo, s1) := s.policyGo k c base t 13 0 n
  let dflt := s.reg (poolReg Reg.ldgPdef k)
  if n ≤ lo then (dflt, s1)
  else
    let (bs, s2) := s1.tableRead k c (base + 8 * lo) 8
    (if polTensor (leNat bs) = t then leNat bs else dflt, s2)

/-! ### Recipes (R264, R265) -/

structure Recipe where
  op : Nat
  fmt : Nat
  param : Nat
  deriving DecidableEq, Repr

/-- The stages before the first END. -/
def recipeStages (r : List Byte) : List Recipe :=
  (((List.range 8).map fun i => let v := leAt r (8 * i) 8; (⟨fld v 63 60, fld v 59 55, fld v 54 48⟩ : Recipe)).takeWhile
    fun x => x.op != 0)

def recipeBad (x : Recipe) : Bool :=
  decide (6 < x.op) || Format.reserved x.fmt || (x.op == 2 && (decide (x.param < 1) || decide (8 < x.param)))
    || (x.op == 3 && decide (x.param < 1))

/-- Address of a recipe of a pool's stack. -/
def State.recipeAt (s : State) (k r : Nat) : Nat := s.get (Reg.ldgRcpbase (poolStack k)) 51 14 * 2 ^ 14 + 64 * r

/-- The stages in force of a recipe's bytes: none when a checked one is bad; the flag tells so. -/
def recipe (bs : List Byte) : List Recipe × Bool :=
  let st := recipeStages bs
  if st.any recipeBad then ([], true) else (st, false)

/-- Do stages code a page, beyond bounding it? -/
def codes (st : List Recipe) : Bool := st.any fun x => decide (2 ≤ x.op)

/-- A code of a wide format with its magnitude rounded to c mantissa bits (R265), and what it counts. -/
def boundFloat (w mw k v : Nat) : Nat × Cnt :=
  let sign := 2 ^ (w - 1)
  let inf := (2 ^ (w - 1 - mw) - 1) * 2 ^ mw
  let mag := v % sign
  if inf ≤ mag then (v, ⟨false, true⟩)
  else
    let sh := mw - min k mw
    let r := Fp.roundTo .rne mag 0 false sh * 2 ^ sh
    if inf ≤ r then (v / sign * sign + (inf - 1), ⟨true, false⟩) else (v / sign * sign + r, .none)

/-- An integer rounded to a multiple of 2^k and clamped. -/
def boundInt (w k v : Nat) : Nat × Cnt :=
  let x := toSigned w v
  let sh := min k (w - 1)
  let m := Fp.roundTo .rne x.natAbs 0 false sh * 2 ^ sh
  let r : Int := if x < 0 then -(m : Int) else m
  let c := clampI (-(2 ^ (w - 1) : Int)) (2 ^ (w - 1) - 1) r
  (ofSigned w c, ⟨c != r, false⟩)

/-- One element under BOUND. -/
def boundElem (f k v : Nat) : Nat × Cnt :=
  if f = 0 then boundFloat 32 23 k v
  else if f = 1 then boundFloat 16 7 k v
  else if f = 2 then boundFloat 16 10 k v
  else if f = 7 then boundInt 16 k v
  else if f = 8 then boundInt 32 k v
  else (v, .none)

/-- The elements of `n` bytes of a page. -/
def chunksOf (n : Nat) : List Byte → Nat → List Nat
  | _, 0 => []
  | bs, m + 1 => leNat (bs.take n) :: chunksOf n (bs.drop n) m

/-- A page under one BOUND stage, and what its elements count. -/
def boundPage (f k : Nat) (bs : List Byte) : List Byte × List Cnt :=
  if f = 0 || f = 1 || f = 2 || f = 7 || f = 8 then
    let n := Format.bits f / 8
    let rs := (chunksOf n bs (bs.length / n)).map (boundElem f k)
    (rs.flatMap fun r => leBytes n r.1, rs.map (·.2))
  else (bs, [])

/-- All BOUND stages of a recipe, in order. -/
def boundAll (st : List Recipe) (bs : List Byte) : List Byte × List Cnt :=
  (st.filter fun x => x.op == 1).foldl (fun a x => let r := boundPage x.fmt x.param a.1; (r.1, a.2 ++ r.2)) (bs, [])

/-! ### The regions (R253, R259; log 47) -/

/-- Address of a frame or a chunk in the region of a tier. -/
def State.slotAt (s : State) (k t i : Nat) : Nat :=
  s.get (poolReg (regionReg t) k) 51 21 * 2 ^ 21 + (if t = 1 then pageBytes else 4096) * i

/-- A page held raw, as its frame holds it. -/
def State.frame (s : State) (k : Nat) (slots : List Nat) : List Byte :=
  match slots with
  | [] => List.replicate pageBytes 0
  | i :: _ => (s.readPhys (s.poolOwner k) (s.slotAt k 1 i) pageBytes).1

/-- Write a page into its frame. -/
def State.writeFrame (s : State) (k : Nat) (slots : List Nat) (page : Memory 8) : State :=
  match slots with
  | [] => s
  | i :: _ => s.writePhys (s.poolOwner k) (s.slotAt k 1 i) (page.readN 0 pageBytes)

/-- Write a copy into its chunks under the owner's key (R295, R296): the page's bytes where the copy is raw, else the codec's
internal form, whose bytes are open (R264). The codec's writes take the numbers from `free` on, one a chunk. -/
def State.writeChunks (s : State) (k t : Nat) (slots : List Nat) (raw : Bool) (page : Memory 8) : State :=
  slots.zipIdx.foldl (fun u x =>
    let a := u.slotAt k t x.1
    if raw then u.writePhys (u.poolOwner k) a (page.readN (4096 * x.2) 4096)
    else u.veil (u.accessKey (u.poolOwner k) a) a (a + 4096)) s

/-- Write a page where a placement has put it. -/
def State.writeCopy (s : State) (k t : Nat) (slots : List Nat) (raw : Bool) (page : Memory 8) : State :=
  if t = 1 then s.writeFrame k slots page else s.writeChunks k t slots raw page

/-- What the chunks of a coded tier hold, as the pool's owner reads them. -/
def State.chunkBytes (s : State) (k t : Nat) (slots : List Nat) : List Byte :=
  slots.flatMap fun i => (s.readPhys (s.poolOwner k) (s.slotAt k t i) 4096).1

/-- Do the chunks of a coded copy hold what the codec has written there? -/
def State.intact (s : State) (k : Nat) (r : PageRec) : Bool :=
  r.ids.length == r.slots.length && (r.slots.zip r.ids).all fun x =>
    let a := s.slotAt k r.state x.1
    s.veilAt a == some ⟨a, a + 4096, x.2, s.accessKey (s.poolOwner k) a⟩

/-- The page that a coded copy decodes to, from what its chunks hold (R267): a copy without chunks is a page of zeros, a raw
one holds the page as it is, and the codec's own writes give the page that they were made of. What else a store has put there
decodes to an open value (log 47). -/
def State.copyBytes (s : State) (k : Nat) (r : PageRec) : List Byte :=
  if r.slots.isEmpty then List.replicate pageBytes 0
  else if r.raw then s.chunkBytes k r.state r.slots
  else if s.intact k r then r.page.readN 0 pageBytes
  else (Config.decoded (s.chunkBytes k r.state r.slots) ++ List.replicate pageBytes 0).take pageBytes

/-- The page of a record: what its frame holds, or what its coded copy decodes to. -/
def State.pageBytesOf (s : State) (k : Nat) (r : PageRec) : List Byte :=
  if r.state = 1 then s.frame k r.slots else s.copyBytes k r

/-- Does the decode of a record's copy pass its CRC (R267)? -/
def State.crcOk (s : State) (k : Nat) (r : PageRec) : Bool := (Crc.crc32c (s.copyBytes k r)).toNat == r.crc

/-! ### Placement (R262) -/

/-- The record of a tier that pressure moves: unpinned, not moving, held longest, and not the one that is placed. -/
def Pool.victim (p : Pool) (t : Nat) (self : Option Nat) : Option (Nat × PageRec) :=
  (p.recs.filter fun r => r.2.state == t && !r.2.pin && r.2.move.isNone && some r.1 != self).foldl
    (fun b r => match b with
      | none => some r
      | some x => if r.2.since < x.2.since then some r else some x) none

def Pool.setRec (p : Pool) (i : Nat) (r : PageRec) : Pool := { p with recs := Tab.put p.recs i r }

/-- What a coded tier will hold of a page: how many chunks, and whether raw. -/
structure Coding where
  held : Nat
  raw : Bool
  deriving DecidableEq, Repr

/-- Chunks of a page (R266): none when it is all zero, 64 raw ones when nothing codes it or its coded form would take more, and
else what the codec's internal form takes. -/
def Coding.of (page : Memory 8) (coded : Bool) (drawn : Nat) : Coding :=
  if page.isEmpty then ⟨0, true⟩ else if coded && decide (drawn % 66 ≤ 64) then ⟨drawn % 66, false⟩ else ⟨64, true⟩

/-- The stages that code a page of a pool under recipe `n`. A recipe that acts as END only counts once for a page to which it
is applied (R264). -/
def State.applyRecipe (s : State) (k c n : Nat) (counted : Bool) : List Recipe × State :=
  let (bs, s1) := s.tableRead k c (s.recipeAt k n) 64
  let (st, bad) := recipe bs
  (st, s1.violateIf (bad && !counted) (Reg.cdcViolcnt (poolStack k)) (.ctx c))

/-- How a page that leaves its frame is stored in a coded tier, under the recipe of the policy that the pool has now (R260,
log 47). -/
def State.coding (s : State) (k : Nat) (r : PageRec) (page : Memory 8) : Coding × State :=
  if s.poolCodec k = 0 then (Coding.of page false 0, s)
  else
    let (e, s1) := s.policy k (s.poolOwner k) r.tid
    let (st, s2) := s1.applyRecipe k (s.poolOwner k) (polRecipe e) r.applied
    let (d, s3) := s2.draw
    (Coding.of page (codes st) d, s3)

/-- The demotion of record `i` to a tier with room begins. -/
def Pool.demote (p : Pool) (i : Nat) (r : PageRec) (t : Nat) : Pool :=
  p.setRec i { r with move := some ⟨t, none, p.freeSlots t, 0, true, false, none, none, false, (0, 0), true⟩ }

/-- Where a placement has come to: the pool, whether its tier has room, the tier, and the records that have to move down
first. -/
structure Placing where
  pool : Pool
  room : Bool
  tier : Nat
  path : List (Nat × Nat)
  deriving DecidableEq, Repr

/-- place(rec, t) of R262 for record `self`, taken up again at tier `t` with the records in `path` under way: it goes on as far
as there is room, begins the demotion that it needs, and otherwise waits. `lower` allows a lower tier. -/
def Pool.place (size : Nat → Nat) :
    Nat → Bool → Pool → Option Nat → Nat → List (Nat × Nat) → Placing
  | 0, _, p, _, t, path => ⟨p, false, t, path⟩
  | fuel + 1, lower, p, self, t, path =>
    let below := fun (i : Nat) (r : PageRec) (u : Nat) (rest : List (Nat × Nat)) =>
      let q := Pool.place size fuel true p (some i) u rest
      if q.room then (⟨q.pool.demote i r q.tier, false, t, [(i, q.tier)]⟩ : Placing)
      else ⟨q.pool, false, t, (i, q.tier) :: q.path⟩
    match path with
    | (i, u) :: rest =>
      match Tab.find p.recs i with
      | some r =>
        if r.state = t && r.move.isSome then ⟨p, false, t, path⟩
        else if r.state = t && !r.pin then below i r u rest
        else Pool.place size fuel lower p self t []
      | none => Pool.place size fuel lower p self t []
    | [] =>
      if p.room size t then ⟨p, true, t, []⟩
      else if t = 4 then ⟨p, false, t, []⟩
      else
        match p.victim t self with
        | some (i, r) => below i r (t + 1) []
        | none => if lower then Pool.place size fuel lower p self (t + 1) [] else ⟨p, false, t, []⟩

/-- Place a record of an operation from tier `t`, or from where it has come to: the tier with room, or the operation with what
it has to keep while it waits. Four tiers, of which each is entered once and taken up again once. -/
def State.placeFor (s : State) (k : Nat) (o : PageOp) (self : Option Nat) (t : Nat) (lower : Bool) :
    Option Nat × PageOp × State :=
  let r := Pool.place (s.tierSize k) 10 lower (s.pool k) self (o.tier.getD t) o.path
  (if r.room then some r.tier else none, { o with tier := some r.tier, path := r.path }, s.setPool k r.pool)

/-! ### Records -/

def Pool.findKey (p : Pool) (tid ord : Nat) : Option (Nat × PageRec) :=
  p.recs.find? fun r => r.2.tid == tid && r.2.ord == ord

/-- The lowest record number not in use. -/
def Pool.fresh (p : Pool) : Nat := ((List.range (p.recs.length + 1)).find? fun i => (Tab.find p.recs i).isNone).getD 0

/-- The record GONE longest. -/
def Pool.oldestGone (p : Pool) : Option (Nat × PageRec) :=
  (p.recs.filter fun r => r.2.state == 5 && r.2.move.isNone).foldl
    (fun b r => match b with
      | none => some r
      | some x => if r.2.since < x.2.since then some r else some x) none

/-- A record for an LPARK: the key's own, a FREE one, or the one GONE longest (R262); none while it waits. -/
def Pool.takeRec (p : Pool) (size tid ord : Nat) : Option (Nat × PageRec × Pool) :=
  let new : PageRec := ⟨tid, ord, 0, false, [], [], false, [], 0, false, 0, none⟩
  match p.findKey tid ord with
  | some (i, r) => some (i, r, p)
  | none =>
    if p.recs.length < size then some (p.fresh, new, p)
    else match p.oldestGone with
      | some (i, _) => some (i, new, { p with recs := Tab.erase p.recs i })
      | none => none

/-- A record becomes GONE: storage released, pin cleared, a move abandoned. -/
def PageRec.drop (r : PageRec) (now : Nat) : PageRec :=
  ⟨r.tid, r.ord, 5, false, [], [], false, [], 0, false, now, none⟩

/-- A page of an instruction is done; the last one makes the instruction ready. -/
def State.pageDone (s : State) (f : Nat) : State :=
  match Tab.find s.pagesLeft f with
  | none => s
  | some n =>
    if n ≤ 1 then ({ s with pagesLeft := Tab.erase s.pagesLeft f }).markReady f
    else { s with pagesLeft := Tab.put s.pagesLeft f (n - 1) }

/-! ### Operations on one page (R260). Each answers none while it has to wait. -/

/-- CTX.ETLDG gains a page; it saturates (R80, log 99). -/
def State.etLedger (s : State) (c : Nat) : State := s.addSat (Reg.ctxEtldg c) 63 0 pageBytes

/-- The codec is busy with one page (R268). -/
def State.codecBusy (s : State) (k : Nat) : State := s.addCycles (Reg.cdcBusycyc (poolStack k)) 512

/-- A coded copy failed its CRC (R267); `c` is the context and step of the instruction that met it. -/
def State.crcFail (s : State) (k : Nat) (c : Nat × Nat) : State :=
  let (a, s1) := s.draw
  ((s1.addSat (Reg.cdcCrcerr (poolStack k)) 31 0 1).addSat (poolReg Reg.ldgMiss k) 31 0 1).raiseEvent
    ⟨6, 0, poolStack k, false, a % 2 ^ 52, some c, false⟩

/-- Is a recipe applied to a page as an LPARK places it in tier `t` (R263)? A bounded pool bounds it whatever the tier; a
lossless one codes it in a coded tier. -/
def State.recipeUsed (s : State) (k t : Nat) : Bool := s.poolCodec k == 2 || (s.poolCodec k == 1 && t != 1)

/-- Read the page of an LPARK from its home and apply the pool's policy to it (R263): the page, and whether a coded tier codes
it. -/
def State.parkPage (s : State) (k : Nat) (o : PageOp) (t : Nat) : Memory 8 × Bool × State :=
  let st := poolStack k
  let (bs, s1) := s.load (Reg.ldgViolcnt st) o.ctx o.home pageBytes
  let s2 := s1.etLedger o.ctx
  if !s2.recipeUsed k t then (Memory.ofList 0 bs, false, s2)
  else
    let (rs, s3) := s2.applyRecipe k o.ctx (polRecipe o.entry) false
    let (bs1, cs) := if s2.poolCodec k = 2 then boundAll rs bs else (bs, [])
    (Memory.ofList 0 bs1, codes rs,
     (s3.addSat (Reg.cdcSatcnt st) 31 0 (satTotal cs)).addSat (Reg.cdcNfcnt st) 31 0 (nfTotal cs))

/-- The placement of an LPARK begins in a tier with room: its source bytes are consumed. The bytes of its home stay as they are
until an LFETCH; R234 leaves what they hold to no stream (DESIGN CHOICE, log 117). -/
def State.parkIn (s : State) (k : Nat) (o : PageOp) (i : Nat) (r : PageRec) (t : Nat) : State :=
  let (page, coded, s1) := s.parkPage k o t
  let (d, s2) := s1.draw
  let c := if t = 1 then ⟨1, true⟩ else Coding.of page coded d
  let m : PageMove := ⟨t, some page, (s2.pool k).freeSlots t, c.held, c.raw, s.recipeUsed k t, some (polPin o.entry), none, false,
    (o.ctx, o.step), false⟩
  (if t = 1 then s2 else s2.codecBusy k).modPool k fun p => p.setRec i { r with move := some m }

/-- What became of an operation: the state, and the operation where it has to wait. -/
structure Tried where
  st : State
  waits : Option PageOp
  deriving DecidableEq, Repr

/-- LPARK of one page. The record that it takes is its own from then on, and FREE until the placement completes. -/
def State.parkOne (s : State) (k : Nat) (o : PageOp) : Tried :=
  let act := polAction o.entry
  if 5 ≤ act || (act == 4 && s.poolKv k) then ⟨s.violate (Reg.ldgViolcnt (poolStack k)) (.ctx o.ctx), none⟩
  else
    match (s.pool k).takeRec (s.poolSize k) o.tid o.ord with
    | none => ⟨s, some o⟩
    | some (i, r, p) =>
      if r.move.isSome then ⟨s, some o⟩
      else if act = 4 then
        let s1 := ((s.load (Reg.ldgViolcnt (poolStack k)) o.ctx o.home pageBytes).2.etLedger o.ctx)
        ⟨s1.setPool k { p.setRec i (r.drop p.clock) with clock := p.clock + 1 }, none⟩
      else
        match (s.setPool k (p.setRec i r)).placeFor k o (some i) (act + 1) true with
        | (some t, _, s1) => ⟨s1.parkIn k o i r t, none⟩
        | (none, o1, s1) => ⟨s1, some o1⟩

/-- LFETCH of one page: the content of the latest LPARK, from the source copy of a moving record. -/
def State.fetchOne (s : State) (k : Nat) (o : PageOp) : State :=
  let st := poolStack k
  let viol := Reg.ldgViolcnt st
  let zeros := List.replicate pageBytes (0 : Byte)
  let put := fun (t : State) (bs : List Byte) => (t.store viol o.ctx o.home bs).etLedger o.ctx
  let miss := put ((s.addSat (poolReg Reg.ldgMiss k) 31 0 1).violate viol (.ctx o.ctx)) zeros
  match (s.pool k).findKey o.tid o.ord with
  | none => miss
  | some (_, r) =>
    match r.move.bind (·.page) with
    | some pg => put s (pg.readN 0 pageBytes)
    | none =>
      if r.state = 0 || r.state = 5 then miss
      else if r.state = 1 then put s (s.frame k r.slots)
      else if o.bad || !s.crcOk k r then put ((s.crcFail k (o.ctx, o.step)).codecBusy k) zeros
      else put (s.codecBusy k) (s.copyBytes k r)

/-- LDROP of one page: a record that moves drops both copies, one GONE whose new placement is under way among them (R276). -/
def State.dropOne (s : State) (k : Nat) (o : PageOp) : State :=
  let p := s.pool k
  match p.findKey o.tid o.ord with
  | none => s
  | some (i, r) =>
    if r.state = 5 && r.move.isNone then s
    else
      let t := s.setPool k { p.setRec i (r.drop p.clock) with clock := p.clock + 1 }
      -- an LPIN whose move is abandoned has nothing more to wait for
      match r.move.bind (·.flight) with
      | some f => t.pageDone f
      | none => t

/-- LPIN of one page. A record that moves is waited for. A coded page takes a frame and is decoded into it; where the decode
fails its CRC the move ends by giving the frame back (R260, R267). -/
def State.pinOne (s : State) (k : Nat) (o : PageOp) : Tried :=
  let p := s.pool k
  let unlisted := s.violate (Reg.ldgViolcnt (poolStack k)) (.ctx o.ctx)
  match p.findKey o.tid o.ord with
  | none => ⟨unlisted, none⟩
  | some (i, r) =>
    if r.move.isSome then ⟨s, some o⟩
    else if r.state = 0 || r.state = 5 then ⟨unlisted, none⟩
    else if o.kind = 4 then ⟨s.setPool k (p.setRec i { r with pin := false }), none⟩
    else if r.state = 1 then ⟨s.setPool k (p.setRec i { r with pin := true }), none⟩
    else
      match s.placeFor k o (some i) 1 false with
      | (none, o1, s1) => ⟨s1, some o1⟩
      | (some _, _, s1) =>
        let m : PageMove := ⟨1, none, (s1.pool k).freeSlots 1, 1, true, false, some true, some o.flight, o.bad,
          (o.ctx, o.step), false⟩
        ⟨(s1.modPool k fun q => q.setRec i { r with move := some m }).codecBusy k, none⟩

/-- A page of an instruction is done, unless it is an LPIN whose move has begun: that ends it. -/
def State.pageOver (s : State) (k : Nat) (o : PageOp) : State :=
  match (((s.pool k).findKey o.tid o.ord).bind fun r => r.2.move).bind (·.flight) with
  | some f => if f = o.flight then s else s.pageDone o.flight
  | none => s.pageDone o.flight

/-- One page of an instruction. -/
def State.pageOp (s : State) (k : Nat) (o : PageOp) : Tried :=
  let r := match o.kind with
    | 0 => s.parkOne k o
    | 1 => ⟨s.fetchOne k o, none⟩
    | 2 => ⟨s.dropOne k o, none⟩
    | _ => s.pinOne k o
  match r.waits with
  | some o1 => ⟨r.st, some o1⟩
  | none => ⟨r.st.pageOver k o, none⟩

/-- An earlier operation on the key waits (R261). -/
def keyWaits (ops : List PageOp) (o : PageOp) : Bool := ops.any fun x => x.tid == o.tid && x.ord == o.ord

/-- Take up an operation; one that cannot go on joins those that wait. -/
def State.takeOp (s : State) (k : Nat) (o : PageOp) : State :=
  let wait := fun (t : State) (x : PageOp) => t.modPool k fun p => { p with ops := p.ops ++ [x] }
  if keyWaits (s.pool k).ops o then wait s o
  else
    let r := s.pageOp k o
    match r.waits with
    | some x => wait r.st x
    | none => r.st

/-- Take up operations in order of receipt: those of the pool that wait, then new ones. The wait counts in STALLCYC (R262). -/
def State.runOps (s : State) (k : Nat) (new : List PageOp) : State :=
  let ops := (s.pool k).ops
  let s1 := if ops.isEmpty then s else
    let (x, t) := s.draw
    (t.addSat (poolReg Reg.ldgStallcyc k) 31 0 x).modPool k fun p => { p with ops := [] }
  (ops ++ new).foldl (fun t o => t.takeOp k o) s1

/-- LEDGER_WAIT_RELEASE: the operations that wait in a pool are tried again in order of receipt. -/
def execLedgerWaitRelease (k : Nat) (s : State) : Host.Outcome State Fault Refusal := .next (s.whenRunning <| s.runOps k [])

/-- What a move puts into its tier: the new content of an LPARK, a page that its frame gives up and the codec codes now, a
copy that goes down as its chunks hold it, or a page decoded into a frame (R260): the page, its coding, and whether bytes are
written as they are rather than in the codec's form. -/
structure Moved where
  page : Memory 8
  coding : Coding
  plain : Bool
  applied : Bool
  crc : Nat
  deriving DecidableEq, Repr

def crcOf (page : Memory 8) : Nat := (Crc.crc32c (page.readN 0 pageBytes)).toNat

def State.moved (s : State) (k : Nat) (r : PageRec) (m : PageMove) : Moved × State :=
  match m.page with
  | some pg => (⟨pg, ⟨m.held, m.raw⟩, m.raw, m.applied, crcOf pg⟩, s)
  | none =>
    if m.target = 1 then (⟨Memory.ofList 0 (s.pageBytesOf k r), ⟨1, true⟩, true, r.applied, 0⟩, s)
    else if r.state = 1 then
      let pg := Memory.ofList 0 (s.pageBytesOf k r)
      let (c, s1) := s.coding k r pg
      (⟨pg, c, c.raw, r.applied || s.poolCodec k != 0, crcOf pg⟩, s1)
    else if r.raw || s.intact k r then (⟨Memory.ofList 0 (s.copyBytes k r), ⟨r.slots.length, r.raw⟩, r.raw, r.applied, r.crc⟩, s)
    -- chunks that a store has changed go down as they are
    else (⟨Memory.ofList 0 (s.chunkBytes k r.state r.slots), ⟨r.slots.length, false⟩, true, r.applied, r.crc⟩, s)

/-- A record takes its new state: the copy is written, its old storage and the unused chunks are released (R260–R262). -/
def State.settleMove (s : State) (k i : Nat) (r : PageRec) (m : PageMove) : State :=
  let (x, s0) := s.moved k r m
  let slots := m.slots.take x.coding.held
  let now := (s.pool k).clock
  let r1 : PageRec := { r with
    state := m.target, slots := slots, page := if m.target = 1 then [] else x.page, raw := x.coding.raw,
    ids := if x.plain then [] else (List.range slots.length).map (s0.free + ·), crc := x.crc,
    applied := x.applied, pin := m.pin.getD r.pin, since := now, move := none }
  let s1 := (s0.writeCopy k m.target slots x.plain x.page).modPool k fun p => { p.setRec i r1 with clock := now + 1 }
  let s2 := if m.page.isSome && m.target != 1 then
      (s1.addWrap (poolReg Reg.ldgRawbytes k) 63 0 pageBytes).addWrap (poolReg Reg.ldgCodedbytes k) 63 0 (4096 * m.held)
    else s1
  let s3 := if m.demote then s2.addSat (poolReg Reg.ldgDemotes k) 31 0 1 else s2
  if m.demote && r.state == 1 then s3.codecBusy k else s3

/-- A move ends: the record takes its new state, or a failed decode of an LPIN gives the frame back and pins the record where it
is (R267). -/
def State.moveComplete (s : State) (k i : Nat) : State :=
  match (Tab.find (s.pool k).recs i).bind fun r => r.move.map fun m => (r, m) with
  | none => s
  | some (r, m) =>
    let t := if m.flight.isSome && (m.fails || !s.crcOk k r) then
        (s.modPool k fun p => p.setRec i { r with pin := true, move := none }).crcFail k m.by_
      else s.settleMove k i r m
    match m.flight with
    | some f => t.pageDone f
    | none => t

/-- The context and step of an event of a ledger move: the pool's owner, and step control's current step, since no cluster
carries it (R375, R376). -/
def State.moveCarrier (s : State) (k : Nat) : Nat × Nat := (s.poolOwner k, (s.get Reg.stpStepcnt 47 0 + 1) % 2 ^ 48)

/-- LEDGER_MOVE_COMPLETE, with the errors that the move's paths and stores show (R377, R378). -/
def execLedgerMoveComplete (k : Nat) (e : Ending) (s : State) : Host.Outcome State Fault Refusal :=
  .next (s.whenRunning <| (s.detect (some (s.moveCarrier k)) e.events).moveComplete k e.no)

/-! ### The instructions (R113, R114, R231, R254–R256, R294) -/

/-- Page i of an instruction: its ordinal and home. -/
def pageOrd (j : Job) (i : Nat) : Nat := j.sa + i
def pageHome (j : Job) (ord : Nat) : Nat := (Desc.base j.da / pageBytes * pageBytes + pageBytes * ord) % 2 ^ 48

/-- The stack whose LDG.VIOLCNT counts for an instruction as a whole: that of the pool which serves its first page, or stack 0
where the context has no pool (log 96). -/
def State.countStack (s : State) (j : Job) : Nat :=
  ((s.servingPool j.ctx (Desc.tensorid j.da) (j.sa % 2 ^ 32)).map poolStack).getD 0

/-- A BASE that is no multiple of 256 KiB is taken rounded down, and counts once (R255). -/
def State.roundedBase (s : State) (j : Job) : State :=
  s.violateIf (Desc.base j.da % pageBytes != 0) (Reg.ldgViolcnt (s.countStack j)) (.ctx j.ctx)

/-- The pages of an instruction served by the ledger. -/
def State.ledgerPages (s : State) (j : Job) (kind : Nat) (flips : List Flip) : State :=
  let tid := Desc.tensorid j.da
  let n := j.fn
  let s1 := s.roundedBase j
  let s2 := { s1 with pagesLeft := Tab.put s1.pagesLeft j.flight n }
  (List.range n).foldl (fun t i =>
    let o := pageOrd j i
    match t.servingPool j.ctx tid o with
    | none => t.pageDone j.flight
    | some k =>
      if 2 ^ 32 ≤ o then (t.violate (Reg.ldgViolcnt (poolStack k)) (.ctx j.ctx)).pageDone j.flight
      else
        let bad := flips.any fun f => f.index == i && f.bits != 0
        let (e, u) := if kind = 0 then t.policy k j.ctx tid else (0, t)
        u.runOps k [⟨j.flight, kind, j.ctx, j.step, tid, o, pageHome j o, bad, e, none, []⟩]) s2

/-- Zeros to every home page: an LFETCH of a context without pools (R255, R256). -/
def State.zeroHomes (s : State) (j : Job) : State :=
  let viol := Reg.ldgViolcnt (s.countStack j)
  (List.range j.fn).foldl (fun t i =>
    if 2 ^ 32 ≤ pageOrd j i then t.violate viol (.ctx j.ctx)
    else (t.store viol j.ctx (pageHome j (pageOrd j i)) (List.replicate pageBytes (0 : Byte))).etLedger j.ctx)
    (s.roundedBase j)

/-- A ledger instruction; kinds as in `PageOp`. -/
def State.ledger (s : State) (j : Job) (kind : Nat) (flips : List Flip) : State :=
  let d := j.da
  let viol := Reg.seqViolcnt j.g
  if j.fn = 0 then s.dropReserved j
  else if !fmtOk j.kt5 (Desc.fmt d) then s.dropFormat j
  else if !Desc.ledger d || (Desc.shared d && (kind == 0 || kind == 2)) || (kind == 1 && Desc.frozen d && !Desc.shared d) then
    (s.violate viol (.ctx j.ctx)).markReady j.flight
  else if Desc.shared d then s.markReady j.flight
  else if (s.servingPool j.ctx (Desc.tensorid d) j.sa).isNone then
    let s1 := s.violate viol (.ctx j.ctx)
    (if kind = 1 then s1.zeroHomes j else s1).markReady j.flight
  else s.ledgerPages j kind flips

def State.ledgerCmd (s : State) (g op used : Nat) (kind : Job → Nat) (flips : List Flip) : State :=
  s.issueData g (fun w => wOp w == op) (fun f => dataRegs true false false f.word) (fun _ => .ledger) (fun _ => used)
    fun j t => t.ledger j (kind j) flips

def ledgerUsed : Nat := mDA + mSA + mFN 15 0

def execLpark (g : Nat) (s : State) : Host.Outcome State Fault Refusal :=
  .next (s.ledgerCmd g 0x20 ledgerUsed (fun _ => 0) [])

def execLfetch (g : Nat) (flips : List Flip) (s : State) : Host.Outcome State Fault Refusal :=
  .next (s.ledgerCmd g 0x21 ledgerUsed (fun _ => 1) flips)

def execLdrop (g : Nat) (s : State) : Host.Outcome State Fault Refusal :=
  .next (s.ledgerCmd g 0x22 ledgerUsed (fun _ => 2) [])

def execLpin (g : Nat) (flips : List Flip) (s : State) : Host.Outcome State Fault Refusal :=
  .next (s.ledgerCmd g 0x23 (ledgerUsed + mXT 0 0) (fun j => if bit j.xt 0 then 3 else 4) flips)

/-! ### Audit (R271) -/

/-- Records of a pool in a state. -/
def Pool.count (p : Pool) (st : Nat) : Nat := (p.recs.filter fun r => r.2.state == st).length

def Pool.moving (p : Pool) : Nat := (p.recs.filter fun r => r.2.move.isSome).length

/-- FREE records: those that hold no key, and those whose first placement is under way. -/
def State.freeRecs (s : State) (k : Nat) : Nat :=
  s.poolSize k - ((s.pool k).recs.length - (s.pool k).count 0)

/-- The four words of an audit. -/
def State.poolAudit (s : State) (k : Nat) : List Nat :=
  let p := s.pool k
  let sum := s.freeRecs k + p.count 1 + p.count 2 + p.count 3 + p.count 4 + p.count 5
  [b2n (sum == s.poolSize k) * 2 ^ 63 + s.poolSize k * 2 ^ 32 + s.freeRecs k, p.count 2 * 2 ^ 32 + p.count 1,
   p.count 4 * 2 ^ 32 + p.count 3, p.moving * 2 ^ 32 + p.count 5]

/-- Latch the audit of a pool. -/
def State.latchPool (s : State) (k : Nat) : State :=
  let a := s.poolAudit k
  (((s.setReg (poolReg Reg.ldgPoolaud0 k) (a.getD 0 0)).setReg (poolReg Reg.ldgPoolaud1 k) (a.getD 1 0)).setReg
    (poolReg Reg.ldgPoolaud2 k) (a.getD 2 0)).setReg (poolReg Reg.ldgPoolaud3 k) (a.getD 3 0)

/-! ### Resets and the pool's control register (R273, R274) -/

/-- Every record of a pool becomes FREE, its storage is released and its waiting operations are abandoned. -/
def State.clearPool (s : State) (k : Nat) : State := s.setPool k .blank

/-- The pools of a partition: those whose owners are bound to it. -/
def State.poolsOf (s : State) (p : Nat) : List Nat := s.enabledPools.filter fun k => s.boundTo (s.poolOwner k) p

/-- Where a tier's region has to lie. -/
def State.regionOk (s : State) (k t : Nat) : Bool :=
  let r := s.reg (poolReg (regionReg t) k)
  let base := fld r 51 21 * 2 ^ 21
  let n := fld r 20 0 * 2 ^ 21
  let st := poolStack k
  n == 0 ||
    (if t ≤ 2 then hbmStack base == some st && hbmStack (base + n - 1) == some st
     else if t = 3 then ddrChannel base == some st && ddrChannel (base + n - 1) == some st
       && decide ((base - 0x40000000000) % 0x8000000000 + n ≤ s.ddrBytes st)
     else isHost base && isHost (base + n - 1))

/-- Statistics of a pool back to zero (R275). -/
def State.clearStats (s : State) (k : Nat) : State :=
  ((((s.setReg (poolReg Reg.ldgMiss k) 0).setReg (poolReg Reg.ldgStallcyc k) 0).setReg (poolReg Reg.ldgRawbytes k) 0).setReg
    (poolReg Reg.ldgCodedbytes k) 0).setReg (poolReg Reg.ldgDemotes k) 0

/-- Fields of LDG.PCTL. -/
structure Pctl where
  en : Nat
  codec : Nat
  kv : Nat
  owner : Nat
  size : Nat
  deriving DecidableEq, Repr

def Pctl.of (v : Nat) : Pctl := ⟨fld v 63 63, fld v 62 61, fld v 60 60, fld v 59 48, fld v 20 0⟩
def Pctl.word (c : Pctl) : Nat := c.en * 2 ^ 63 + c.codec * 2 ^ 61 + c.kv * 2 ^ 60 + c.owner * 2 ^ 48 + c.size

/-- The fields that a write with the bits of `mask` leads to, where nothing is refused. -/
def Pctl.merge (mask old v : Nat) : Pctl :=
  let pick := fun hi lo => if mask.testBit lo then fld v hi lo else fld old hi lo
  ⟨pick 63 63, pick 62 61, pick 60 60, pick 59 48, pick 20 0⟩

/-- The owner is RUNNING, PARKING, WAKING or COCOONED: CODEC writes are discarded (R263). -/
def State.codecShut (s : State) (owner : Nat) : Bool := liveState (s.cstate owner) || s.cstate owner == stCocooned

/-- A write that sets EN: discarded as a whole where R274 says so; a change of CODEC is discarded alone while the owner is
COCOONED (R263). -/
def State.enablePool (s : State) (o : Origin) (k : Nat) (old c : Pctl) : State :=
  let viol := Reg.ldgViolcnt (poolStack k)
  if c.size == 0 || decide (1048576 < c.size) || c.codec == 3 || c.owner == 0 || liveState (s.cstate c.owner)
      || !((List.range 4).all fun t => s.regionOk k (t + 1)) then s.violate viol o
  else
    let shut := c.codec != old.codec && s.codecShut c.owner
    (((s.setReg (poolReg Reg.ldgPctl k) { c with codec := if shut then old.codec else c.codec }.word).clearStats k).setPool k
      .blank).violateIf shut viol o

/-- A write that clears EN (R274): OWNER and SIZE are discarded, since EN was 1. -/
def State.disablePool (s : State) (o : Origin) (k : Nat) (old c : Pctl) : State :=
  let viol := Reg.ldgViolcnt (poolStack k)
  if s.cstate old.owner == stFree || s.cstate old.owner == stBound then
    let bad := c.owner != old.owner || c.size != old.size || c.codec == 3
    ((s.setReg (poolReg Reg.ldgPctl k)
      (⟨0, if c.codec = 3 then old.codec else c.codec, c.kv, old.owner, old.size⟩ : Pctl).word).clearPool k).violateIf bad viol o
  else s.violate viol o

/-- A write that leaves EN as it is; EN written 1 again clears the statistics (R275). -/
def State.keepPool (s : State) (o : Origin) (k : Nat) (enWritten : Bool) (old c : Pctl) : State :=
  let badc := c.codec != old.codec && (c.codec == 3 || s.codecShut old.owner)
  let badw := c.en == 1 && (c.owner != old.owner || c.size != old.size)
  let n : Pctl := { c with codec := if badc then old.codec else c.codec
                           owner := if c.en = 1 then old.owner else c.owner
                           size := if c.en = 1 then old.size else c.size }
  let t := s.setReg (poolReg Reg.ldgPctl k) n.word
  (if enWritten && c.en == 1 then t.clearStats k else t).violateIf (badc || badw) (Reg.ldgViolcnt (poolStack k)) o

/-- A write of LDG.PCTL(k) with the bits of `mask` (R263, R274, R275). Fields that are refused keep their values; each refusal
of the write counts once. The code 0 of OWNER is reserved: where the write covers OWNER it is discarded and counted (R17). -/
def State.writePctl (s : State) (o : Origin) (k mask v : Nat) : State :=
  let old := Pctl.of (s.pctl k)
  let c0 := Pctl.merge mask (s.pctl k) v
  let noOwner := mask.testBit 48 && c0.owner == 0
  let c : Pctl := if noOwner then { c0 with owner := old.owner } else c0
  let s1 := s.violateIf noOwner (Reg.ldgViolcnt (poolStack k)) o
  if old.en = 0 && c.en == 1 then s1.enablePool o k old c
  else if old.en = 1 && c.en == 0 then s1.disablePool o k old c
  else s1.keepPool o k (mask.testBit 63) old c

end Machine

end Sys2Proof
end

