-- ==== Sys2Proof/Machine/MemService.lean ====
section
/-! DEFINITION. The memory system's service commands, shared granules and their audit, bandwidth shares and the recalibration of
the HBM PHYs (R281–R284, R290–R303). -/

set_option Elab.async false

namespace Sys2Proof

namespace Machine

/-! ### TLBINV (R283, R284) -/

def execTlbinv (q : Nat) (s : State) : Host.Outcome State Fault Refusal :=
  .next (s.service q 0x90 fun c t => (t.dropCaches (fld c.arg0 11 0)).completeCmd c stOk)

/-! ### Shared granules (R290–R293) -/

def granBytes : Nat := 2 ^ 21
def sharedEntries : Nat := 16384

/-- Granules of a command: `n` from the one at ARG1. -/
def cmdGrans (c : Cmd) : List Nat := (List.range (fld c.arg2 15 0)).map fun i => fld c.arg1 51 21 * granBytes + i * granBytes

/-- The lowest free index of a stack's shared table. -/
def State.freeShared (s : State) (t : Nat) : Nat :=
  ((List.range sharedEntries).find? fun i => (Tab.find (Tab.getD [] s.shared t) i).isNone).getD 0

def State.modShared (s : State) (t : Nat) (f : Tab SharedEntry → Tab SharedEntry) : State :=
  { s with shared := Tab.setD [] s.shared t (f (Tab.getD [] s.shared t)) }

/-- Write bytes of the attachment map of an entry, from byte `o` on; a write that is not mapped is discarded and counts once
in LDG.VIOLCNT of the stack (R277). -/
def State.writeMap (s : State) (t i o : Nat) (vs : List Byte) : State :=
  (s.writePhys 0 (s.mapAddr t i + o) vs).violateIf (s.unmappedIn (s.mapAddr t i + o) vs.length) (Reg.ldgViolcnt t) (.ctx 0)

/-- Count the reads of attachment maps that find a context's bits for granules: one that is not mapped reads as zero and counts
once in LDG.VIOLCNT of its stack (R277). -/
def State.countMapReads (s : State) (c : Nat) (gs : List Nat) : State :=
  gs.foldl (fun u g =>
    match hbmStack g with
    | none => u
    | some t =>
      match u.sharedIndex t g with
      | none => u
      | some i => u.violateIf (u.unmappedIn (u.mapAddr t i + c / 8) 1) (Reg.ldgViolcnt t) (.ctx 0)) s

/-- Set or clear a context's bit in an attachment map. -/
def State.writeMapBit (s : State) (t i c : Nat) (v : Bool) : State :=
  s.writeMap t i (c / 8) [BitVec.ofNat 8 (setFld (s.mapByte t i c) (c % 8) (c % 8) (b2n v))]

/-- Attach a context to one granule of stack t. A new entry begins with an empty map. -/
def State.attach (s : State) (t c gran : Nat) : State :=
  match s.sharedIndex t gran with
  | some i =>
    (s.writeMapBit t i c true).modShared t fun e => e.map fun x => if x.1 = i then (i, { x.2 with count := x.2.count + 1 }) else x
  | none =>
    let i := s.freeShared t
    ((s.writeMap t i 0 (List.replicate 512 0)).writeMapBit t i c true).modShared t fun e => Tab.put e i ⟨gran, 1⟩

/-- Detach a context from one granule; an entry whose count reaches 0 is freed. -/
def State.detach (s : State) (t c gran : Nat) : State :=
  match s.sharedIndex t gran with
  | none => s
  | some i =>
    (s.writeMapBit t i c false).modShared t fun e =>
      (e.map fun x => if x.1 = i then (i, { x.2 with count := x.2.count - 1 }) else x).filter fun x => !(x.1 == i && x.2.count == 0)

/-- The command names a context, a count or a granule that R291 refuses first. -/
def State.shareMismatch (s : State) (c : Cmd) : Bool :=
  let n := fld c.arg0 11 0
  let cnt := fld c.arg2 15 0
  let first := fld c.arg1 51 21 * granBytes
  n == 0 || s.cstate n == stFree || cnt == 0 || decide (16384 < cnt) || (hbmStack first).isNone
    || (cmdGrans c).any fun g => hbmStack g != hbmStack first || hbmStack (g + granBytes - 1) != hbmStack first

def cmdStack (c : Cmd) : Nat := (hbmStack (fld c.arg1 51 21 * granBytes)).getD 0

/-- Has the table of a stack free entries for those of the granules that it does not hold? -/
def State.tableRoom (s : State) (t : Nat) (gs : List Nat) : Bool :=
  decide ((Tab.getD [] s.shared t).length + (gs.filter fun g => (s.sharedIndex t g).isNone).length ≤ sharedEntries)

/-- Status of SHATTACH (R291). -/
def State.attachStatus (s : State) (c : Cmd) : Nat :=
  let n := fld c.arg0 11 0
  let t := cmdStack c
  if s.shareMismatch c then stMismatch
  else if (cmdGrans c).any fun g => s.attached n g then stMismatch
  else if s.get (Reg.ldgShbase t) 51 21 = 0 || !s.tableRoom t (cmdGrans c) then stNoResource
  else stOk

/-- Status of SHDETACH (R291). -/
def State.detachStatus (s : State) (c : Cmd) : Nat :=
  let n := fld c.arg0 11 0
  if s.shareMismatch c then stMismatch
  else if (cmdGrans c).any fun g => !s.attached n g then stMismatch
  else if liveState (s.cstate n) then stBusy
  else stOk

/-- The map reads of a command that come to its second condition count (R277, R291). -/
def State.shareReads (s : State) (c : Cmd) : State :=
  if s.shareMismatch c then s else s.countMapReads (fld c.arg0 11 0) (cmdGrans c)

/-- SHATTACH applies to all its granules or to none. -/
def execShattach (q : Nat) (s : State) : Host.Outcome State Fault Refusal :=
  .next (s.service q 0x91 fun c t =>
    let st := t.attachStatus c
    let t1 := if st = stOk then (cmdGrans c).foldl (fun u g => u.attach (cmdStack c) (fld c.arg0 11 0) g) (t.shareReads c) else t.shareReads c
    t1.completeCmd c st)

/-- SHDETACH. -/
def execShdetach (q : Nat) (s : State) : Host.Outcome State Fault Refusal :=
  .next (s.service q 0x92 fun c t =>
    let st := t.detachStatus c
    let t1 := if st = stOk then (cmdGrans c).foldl (fun u g => u.detach (cmdStack c) (fld c.arg0 11 0) g) (t.shareReads c) else t.shareReads c
    t1.completeCmd c st)

/-- Detach a context from every granule (R292). -/
def State.detachAll (s : State) (c : Nat) : State :=
  (List.range 12).foldl (fun u t =>
    let w := u.countMapReads c ((Tab.getD [] u.shared t).map (·.2.gran))
    ((Tab.getD [] w.shared t).filter fun e => w.mapBit t e.1 c).foldl (fun v e => v.detach t c e.2.gran) w) s

/-- Bits set in an attachment map. -/
def State.mapCount (s : State) (t i : Nat) : Nat := (List.range 4096).countP fun c => s.mapBit t i c

/-- A read of a whole attachment map counts once where it is not mapped (R277). -/
def State.countMap (s : State) (t i : Nat) : State :=
  s.violateIf (s.unmappedIn (s.mapAddr t i) 512) (Reg.ldgViolcnt t) (.ctx 0)

/-- After a partition reset the counts of the entries that the partition's contexts hold are recomputed (R293). -/
def State.recountShared (s : State) (p : Nat) : State :=
  let cs := s.ctxsOf p
  (List.range 12).foldl (fun u t =>
    let w := (Tab.getD [] u.shared t).foldl (fun v e => v.countMap t e.1) u
    w.modShared t fun es => es.map fun e =>
      if cs.any fun c => w.mapBit t e.1 c then (e.1, { e.2 with count := BitVec.ofNat 12 (w.mapCount t e.1) }) else e) s

/-- Latch the audit of the entry that INDEX selects (R302). -/
def State.latchShared (s : State) (t : Nat) : State :=
  let i := s.get (Reg.ldgShraud t) 13 0
  match Tab.find (Tab.getD [] s.shared t) i with
  | none => (s.setReg (Reg.ldgShraud t) (2 ^ 63 + i)).setReg (Reg.ldgShgran t) 0
  | some e =>
    let m := s.mapCount t i % 4096
    let u := s.countMap t i
    (u.setReg (Reg.ldgShraud t) (b2n (e.count.toNat == m) * 2 ^ 63 + 2 ^ 62 + e.count.toNat * 2 ^ 48 + m * 2 ^ 32 + i)).setReg
      (Reg.ldgShgran t) e.gran

/-- A write of LDG.SHBASE(t) (R302). -/
def State.writeShbase (s : State) (o : Origin) (t mask v : Nat) : State :=
  if (Tab.getD [] s.shared t).isEmpty then s.setReg (Reg.ldgShbase t) (((s.reg (Reg.ldgShbase t)) &&& (2 ^ 64 - 1 - mask)) ||| (v &&& mask &&& bitsOf 51 21))
  else s.violate (Reg.ldgViolcnt t) o

/-! ### Bandwidth shares (R299) -/

/-- One share field. -/
def State.writeShare (s : State) (o : Origin) (p mask v hi lo : Nat) : State :=
  if !mask.testBit lo then s
  else if 0x400 < fld v hi lo then s.violate Reg.hbmViolcnt o
  else s.set (Reg.hbmBwshare p) hi lo (fld v hi lo)

/-- A write of HBM.BWSHARE(p): each field by itself. -/
def State.writeBwshare (s : State) (o : Origin) (p mask v : Nat) : State :=
  ((s.writeShare o p mask v 42 32).writeShare o p mask v 26 16).writeShare o p mask v 10 0

/-! ### Recalibration (R300, R301) -/

def Recal.idle : Recal := ⟨none, 0, 0⟩

def State.recalOf (s : State) (t : Nat) : Recal := Tab.getD .idle s.recal t

/-- Open a window for a group; `left` further windows follow, and `next` is the next group of the rotation. -/
def State.openWindow (s : State) (t group left next : Nat) : State :=
  ({ s with recal := Tab.put s.recal t ⟨some group, left, next⟩ }).set (Reg.hbmRecal t) 30 30 1

/-- Open a window for the next group of the rotation, which moves on. -/
def State.rotateWindow (s : State) (t left : Nat) : State :=
  s.openWindow t (s.recalOf t).next left (((s.recalOf t).next + 1) % 4)

/-- NOW: all four groups in turn; discarded while a window is open. -/
def State.recalNow (s : State) (o : Origin) (t : Nat) : State :=
  if s.get (Reg.hbmRecal t) 30 30 = 1 then s.violate Reg.hbmViolcnt o else s.rotateWindow t 3

/-- A write of HBM.RECAL(t). -/
def State.writeRecal (s : State) (o : Origin) (t v : Nat) : State :=
  let per := fld v 15 0
  let bad := decide (1 ≤ per) && decide (per ≤ 0x63)
  let s1 := (s.set (Reg.hbmRecal t) 29 29 (fld v 29 29)).violateIf bad Reg.hbmViolcnt o
  let s2 := if bad then s1 else s1.set (Reg.hbmRecal t) 15 0 per
  if bit v 31 then s2.recalNow o t else s2

/-- RECAL_PERIODIC: a window for the next group of the rotation, unless one is open or PERIOD is 0. -/
def execRecalPeriodic (t : Nat) (s : State) : Host.Outcome State Fault Refusal :=
  .next (s.whenRunning <| if s.get (Reg.hbmRecal t) 30 30 = 0 && s.get (Reg.hbmRecal t) 15 0 != 0 then s.rotateWindow t 0 else s)

/-- RECAL_DRIFT: the temperature has drifted by 5 °C since the group's last window, with DRIFT = 1. The
rotation of the periodic windows stands (R300). -/
def execRecalDrift (t group : Nat) (s : State) : Host.Outcome State Fault Refusal :=
  .next (s.whenRunning <| if s.get (Reg.hbmRecal t) 30 30 = 0 && s.get (Reg.hbmRecal t) 29 29 = 1 then s.openWindow t group 0 (s.recalOf t).next else s)

/-- RECAL_WINDOW_END: RECALCNT gains one; the next window of a NOW opens. -/
def execRecalWindowEnd (t : Nat) (s : State) : Host.Outcome State Fault Refusal :=
  .next (s.whenRunning <|
    match (s.recalOf t).group with
    | none => s
    | some _ =>
      let r := s.recalOf t
      let s1 := s.addWrap (Reg.hbmRecalcnt t) 31 0 1
      if r.left = 0 then ({ s1 with recal := Tab.put s1.recal t { r with group := none } }).set (Reg.hbmRecal t) 30 30 0
      else s1.rotateWindow t (r.left - 1))

end Machine

end Sys2Proof
end

