-- ==== Sys2Proof/Machine/Matrix.lean ====
section
/-! DEFINITION. The matrix engines: the accumulation of MMA, lamination, the checksum lanes, the epilogue and the entry of
finished tiles into the tray (05, R116, R117, R207, R208, R380–R383). -/

set_option Elab.async false

namespace Sys2Proof

namespace Machine

/-! ### Fields of MMA and of the epilogue descriptor (R116, R178) -/

def mmaAsrc (w : Nat) : Nat := fld (wFN w) 15 14
def mmaBsrc (w : Nat) : Nat := fld (wFN w) 13 12
def mmaAcc (w : Nat) : Bool := bit (wFN w) 11
def mmaLast (w : Nat) : Bool := bit (wFN w) 10
def mmaSlot (w : Nat) : Nat := fld (wFN w) 9 9
def mmaRows (w : Nat) : Nat := fld (wFN w) 8 3 + 1
def mmaEng (w : Nat) : Nat := fld (wXT w) 11 8
def mmaKt (w : Nat) : Nat := if fld (wXT w) 7 0 = 0 then 256 else fld (wXT w) 7 0

namespace Epi

def kind (d : List Byte) : Nat := fld (leAt d 0 8) 63 62
def rnd (d : List Byte) : Nat := fld (leAt d 0 8) 61 60
def act (d : List Byte) : Nat := fld (leAt d 0 8) 59 56
def lamint (d : List Byte) : Nat := fld (leAt d 0 8) 55 48
def taddr (d : List Byte) : Nat := fld (leAt d 0 8) 47 32
def orgreg (d : List Byte) : Nat := fld (leAt d 0 8) 21 16
def stream (d : List Byte) : Nat := fld (leAt d 0 8) 14 0
def alpha (d : List Byte) : Nat := fld (leAt d 8 8) 63 32
def biasen (d : List Byte) : Bool := bit (leAt d 8 8) 21
def biasreg (d : List Byte) : Nat := fld (leAt d 8 8) 20 15
def mergen (d : List Byte) : Nat := fld (leAt d 8 8) 14 12
def mergeaddr (d : List Byte) : Nat := fld (leAt d 16 8) 63 48
def clamplo (d : List Byte) : Nat := fld (leAt d 16 8) 47 32
def clamphi (d : List Byte) : Nat := fld (leAt d 16 8) 31 16
def leakexp (d : List Byte) : Nat := fld (leAt d 16 8) 15 11
def rowdim (d : List Byte) : Nat := fld (leAt d 16 8) 10 8

/-- The lamination interval in products; none for a reserved code (R171). -/
def interval (d : List Byte) : Option Nat :=
  let v := lamint d
  if v = 0 then some 2048 else if 8 ≤ v && v ≤ 0x80 then some (64 * v) else none

/-- Reserved codes in the fields that an MMA with LAST uses: all but ROWDIM, which DKIND 00b alone uses (R178), and RND, which
DKIND 01b ignores (R145, R179, R181). -/
def badLast (d : List Byte) : Bool :=
  kind d == 3 || decide (4 < act d) || (act d == 2 && leakexp d == 0)
    || (kind d != 1 && rnd d == 3) || (kind d == 0 && badDim (rowdim d))

end Epi

/-- An operand address in a transposing-buffer half above 7FFh is a reserved code (R111). -/
def badSource (src unit : Nat) : Bool := src == 3 || (src != 0 && decide (0x800 ≤ unit))

/-- Reserved codes of an MMA as seen at issue (R100, R116, R171, R178). Under KT5 emulation LAMINT is ignored (R185). -/
def mmaReserved (j : Job) : Bool :=
  let w := j.word
  badSource (mmaAsrc w) (wTA w) || badSource (mmaBsrc w) (wTB w)
    || (!mmaAcc w && !j.kt5 && (Epi.interval j.dc).isNone) || (mmaLast w && Epi.badLast j.dc)

/-- Formats that R130, R131 or R162 exclude. -/
def mmaFormatBad (j : Job) : Bool :=
  let bad := fun d => !Format.matrix (Desc.fmt d) || !fmtOk j.kt5 (Desc.fmt d)
  bad j.da || bad j.db
    || (mmaLast j.word && Epi.kind j.dc == 0 && !fmtOk j.kt5 (Desc.fmt j.dx))
    || (mmaLast j.word && Epi.kind j.dc != 2 && Epi.biasen j.dc && !fmtOk j.kt5 (Desc.fmt j.dy))

/-! ### Arithmetic of one K-tile (R164–R166, R175, R185) -/

/-- An FP32 result, flushed under KT5 emulation (R162); the flag tells a saturation. -/
def fp32Out (kt5 : Bool) (x : Fp) : Fp × Bool :=
  let r := Fp.rnd .fp32 x
  (flushIf kt5 .fp32 r.1, r.2)

/-- The value an array takes for an element: a non-finite one is zero (R134). -/
def arrayVal (v : Fp × Bool) : Fp := if v.1.isFinite then v.1 else .zero

/-- p + Σ a·b, one rounding per product, ascending (R165). -/
def chain (p : Fp) (ps : List (Fp × Fp)) : Fp × Nat :=
  ps.foldl (fun acc ab => let r := fma32 ab.1 ab.2 acc.1; (r.1, acc.2 + b2n r.2)) (p, 0)

/-- Sums of adjacent pairs in FP32 (R162). -/
def pairUp : List Fp → List Fp × Nat
  | a :: b :: rest =>
    let r := fp32Out true (Fp.add a b)
    let (xs, n) := pairUp rest
    (r.1 :: xs, n + b2n r.2)
  | xs => (xs, 0)

/-- A pairwise tree over 32 values. -/
def tree32 (xs : List Fp) : Fp × Nat :=
  let (a, n1) := pairUp xs
  let (b, n2) := pairUp a
  let (c, n3) := pairUp b
  let (d, n4) := pairUp c
  let (e, n5) := pairUp d
  (e.headD .zero, n1 + n2 + n3 + n4 + n5)

/-- The KT5 order: two groups of 32 products, each added to the accumulator (R162, R185). -/
def chainKt5 (p : Fp) (ps : List (Fp × Fp)) : Fp × Nat :=
  let prods := ps.map fun ab => Fp.mul ab.1 ab.2
  let (g0, n0) := tree32 (prods.take 32)
  let (g1, n1) := tree32 (prods.drop 32)
  let r0 := fp32Out true (Fp.add p g0)
  let r1 := fp32Out true (Fp.add r0.1 g1)
  (r1.1, n0 + n1 + b2n r0.2 + b2n r1.2)

/-- The value of an integer element. -/
def intOf (x : Fp) : Int :=
  match x with
  | .fin n m e => let v : Int := if 0 ≤ e then (m <<< e.toNat : Nat) else (m >>> (-e).toNat : Nat); if n then -v else v
  | _ => 0

/-- Σ a·b exactly. -/
def dotInt (as bs : List Fp) : Int := (as.zip bs).foldl (fun acc ab => acc + intOf ab.1 * intOf ab.2) 0

/-- The new partials of the first rows, in order, and the saturations among them. -/
def cells (kt5 int : Bool) (part : Memory 32) (a b : List (List Fp)) : List (BitVec 32 × Nat) :=
  a.zipIdx.flatMap fun (am, m) => b.zipIdx.map fun (bn, n) =>
    let p := part.read (64 * m + n)
    if int then (BitVec.ofInt 32 (p.toInt + dotInt am bn), 0)
    else
      let r := if kt5 then chainKt5 (f32 p) (am.zip bn) else chain (f32 p) (am.zip bn)
      (to32 r.1, r.2)

/-- Replace the partials of the first `rows` rows. -/
def newPart (rows : Nat) (part : Memory 32) (vs : List (BitVec 32)) : Memory 32 :=
  Memory.ofList 0 vs ++ part.keep fun i => decide (64 * rows ≤ i)

/-- A lane sum in FP32, ascending. -/
def sum32 (xs : List Fp) : Fp := xs.foldl (fun acc x => Fp.rv .fp32 (Fp.add acc x)) .zero

/-- A 48-bit lane value. -/
def lane48 (v : BitVec 64) : Int := toSigned 48 v.toNat

/-- One lane value: Σ a·b added to what it holds, as one ascending FP32 chain under KT5 emulation too (log 111). -/
def laneAdd (int : Bool) (old : BitVec 64) (ps : List (Fp × Fp)) : BitVec 64 :=
  if int then BitVec.ofNat 64 (ofSigned 48 (lane48 old + dotInt (ps.map (·.1)) (ps.map (·.2))))
  else (to32 (chain (f32 (old.setWidth 32)) ps).1).setWidth 64

/-- A sum that a lane forms over one index: exact integers, or FP32. -/
def laneSum (int : Bool) (xs : List Fp) : Fp :=
  if int then .ofInt (xs.foldl (fun acc x => acc + intOf x) 0) else sum32 xs

/-- The check lanes after a K-tile (R175). The sums σ and σ⁺ are formed as β and β⁺ are: in FP32, in ascending order (log 111). -/
def Accum.lanes (x : Accum) (a b : List (List Fp)) : Accum :=
  let beta := (List.range 64).map fun k => laneSum x.integer (b.map fun r => r.getD k .zero)
  let betaA := (List.range 64).map fun k => laneSum x.integer (b.map fun r => (r.getD k .zero).abs)
  let sigma := (List.range 64).map fun k => laneSum x.integer (a.map fun r => r.getD k .zero)
  let sigmaA := (List.range 64).map fun k => laneSum x.integer (a.map fun r => (r.getD k .zero).abs)
  let rows := a.length
  let rowLane := fun (old : Memory 64) (f : List Fp → List (Fp × Fp)) =>
    Memory.ofList 0 (a.mapIdx fun m r => laneAdd x.integer (old.read m) (f r)) ++ old.keep fun i => decide (rows ≤ i)
  let colLane := fun (old : Memory 64) (f : List Fp → List (Fp × Fp)) =>
    Memory.ofList 0 (b.mapIdx fun n r => laneAdd x.integer (old.read n) (f r))
  { x with
    q := rowLane x.q fun r => r.zip beta
    qa := rowLane x.qa fun r => (r.map Fp.abs).zip betaA
    t := colLane x.t fun r => sigma.zip r
    ta := colLane x.ta fun r => sigmaA.zip (r.map Fp.abs) }

/-! ### Operand tiles -/

/-- Where ASRC or BSRC places a tile. -/
def srcStore (src : Nat) : Store := if src = 0 then .tile else .half (src - 1)

/-- Rows of an operand tile, what they count as non-finite, and whether the access left its region (R111, R134). -/
structure OperandIn where
  rows : List (List Fp)
  nf : Nat
  past : Nat
  deriving DecidableEq, Repr

def Cluster.operand (c : Cluster) (kt5 : Bool) (src unit f rows : Nat) : OperandIn :=
  let n := Format.span f rows
  let bytes := c.storeRead (srcStore src) (256 * unit) n
  let rs := (List.range rows).map (tileRow kt5 f bytes)
  ⟨rs.map fun r => r.vals.map arrayVal,
   (rs.map fun r => r.scaleNf + (r.vals.filter (·.2)).length).foldl (· + ·) 0,
   b2n (storeOver (srcStore src) (256 * unit) n)⟩

/-- What K-tiles count while an accumulation runs. -/
structure KOut where
  acc : Accum
  sat : Nat
  nf : Nat
  past : Nat
  deriving DecidableEq, Repr

/-- K-tile `i` of an instruction (R116, R164). The shadow of a selected unit takes the same operands (R381). -/
def Cluster.ktile (c : Cluster) (j : Job) (i : Nat) (k : KOut) : KOut :=
  let w := j.word
  let fa := Desc.fmt j.da
  let fb := Desc.fmt j.db
  let a := c.operand j.kt5 (mmaAsrc w) (wTA w + i * Format.footprint fa) fa (mmaRows w)
  let b := c.operand j.kt5 (mmaBsrc w) (wTB w + i * Format.footprint fb) fb 64
  let x := k.acc
  let vs := cells j.kt5 x.integer x.part a.rows b.rows
  let sh := x.shadow.map fun h =>
    { h with part := newPart (mmaRows w) h.part ((cells j.kt5 x.integer h.part a.rows b.rows).map (·.1)) }
  ⟨{ (x.lanes a.rows b.rows) with
      part := newPart (mmaRows w) x.part (vs.map (·.1)), shadow := sh, products := x.products + 64 },
   k.sat + (vs.map (·.2)).foldl (· + ·) 0, k.nf + a.nf + b.nf, k.past + a.past + b.past⟩

/-! ### Spills and checks (R172, R175–R177) -/

/-- The value of a partial. -/
def partVal (int : Bool) (v : BitVec 32) : Fp := if int then .ofInt v.toInt else f32 v

/-- The value of a lane. -/
def laneVal (int : Bool) (v : BitVec 64) : Fp := if int then .ofInt (lane48 v) else f32 (v.setWidth 32)

/-- S := binary64(S + p) for every element from `base` on. Under KT5 emulation the FP32 accumulator is widened exactly
(R185). -/
def spillInto (kt5 int : Bool) (base : Nat) (sums : Memory 64) (part : Memory 32) : Memory 64 :=
  part.foldl (fun m p => m.write (base + p.1)
    (if kt5 then to64 (f32 p.2) else rnd64 (Fp.add (f64 (m.read (base + p.1))) (partVal int p.2)))) sums

/-- Laminate a lane. -/
def laminate (int : Bool) (l x : Memory 64) : Memory 64 :=
  x.foldl (fun m p => m.write p.1 (rnd64 (Fp.add (f64 (m.read p.1)) (laneVal int p.2)))) l

/-- The accumulation after a spill: partials and lanes at zero. The shadow's run spills with it. -/
def Accum.afterSpill (x : Accum) (kt5 shFailed : Bool) : Accum :=
  { x with
    part := [], q := [], qa := [], t := [], ta := [], spillDue := false
    lq := laminate x.integer x.lq x.q, lqa := laminate x.integer x.lqa x.qa
    lt := laminate x.integer x.lt x.t, lta := laminate x.integer x.lta x.ta
    shadow := x.shadow.map fun h =>
      { h with part := [], sums := spillInto kt5 x.integer 0 h.sums h.part, failed := h.failed || shFailed } }

/-- Ascending sum in binary64. -/
def sum64 (xs : List Fp) : Fp := xs.foldl (fun acc x => Fp.rv .fp64 (Fp.add acc x)) .zero

/-- 2^(−τ) with τ = min(TOLEXP, 21 − log₂ L) (R176). -/
def tolerance (tolexp interval : Nat) : Fp :=
  if interval * 2 ^ tolexp ≤ 2 ^ 21 then .fin false 1 (-(tolexp : Int)) else .fin false interval (-21)

/-- Does a check fail? An exact one has tolerance zero. -/
def checkBad (exact : Bool) (tol a b bound : Fp) : Bool :=
  let d := Fp.abs (Fp.rv .fp64 (Fp.sub a b))
  if exact then !d.isZero
  else Fp.lt (Fp.rv .fp64 (Fp.add (Fp.rv .fp64 (Fp.mul tol bound)) (.fin false 1 (-120)))) d

/-- Rows whose check fails at a spill. -/
def Accum.rowFails (x : Accum) (tol : Fp) : List Nat :=
  (List.range 64).filter fun m =>
    checkBad x.integer tol (sum64 ((List.range 64).map fun n => partVal x.integer (x.part.read (64 * m + n))))
      (laneVal x.integer (x.q.read m)) (laneVal x.integer (x.qa.read m))

/-- Do the row checks of the shadow's run fail at a spill (R381, R383)? -/
def Accum.shadowFails (x : Accum) (tol : Fp) : Bool :=
  match x.shadow with
  | some h => !({ x with part := h.part }.rowFails tol).isEmpty
  | none => false

/-- Columns whose check fails at LAST, from the sums of the slot. -/
def Accum.colFails (x : Accum) (tol : Fp) (s : Nat → Fp) : List Nat :=
  (List.range 64).filter fun n =>
    checkBad (x.integer && !x.mixed) tol (sum64 ((List.range 64).map fun m => s (64 * m + n)))
      (f64 (x.lt.read n)) (f64 (x.lta.read n))

/-- Does the corner check fail? -/
def Accum.cornerFails (x : Accum) (tol : Fp) : Bool :=
  checkBad (x.integer && !x.mixed) tol (sum64 ((List.range 64).map fun m => f64 (x.lq.read m)))
    (sum64 ((List.range 64).map fun n => f64 (x.lt.read n)))
    (sum64 ((List.range 64).map fun n => f64 (x.lta.read n)))

/-- Record a failed check: kind 0 row, 1 column, 2 corner (R177, R186, R384). -/
def State.failCheck (s : State) (g e w kind index : Nat) : State :=
  let r := Reg.mxeChklast g
  let s1 := if kind = 0 then s.addSat (Reg.mxeChkfail g e) 15 0 1 else s.addSat (Reg.mxeChkfail g e) 31 16 1
  let s2 := s1.setReg r (2 ^ 63 + kind * 2 ^ 61 + e * 2 ^ 57 + w * 2 ^ 56 + index * 2 ^ 50
    + sreg (s.cl g).sregs 3 % 2 ^ 48)
  s2.checkFailure g e

def State.failChecks (s : State) (g e w kind : Nat) (is : List Nat) : State :=
  is.foldl (fun t i => t.failCheck g e w kind i) s

/-- The accumulation of a WSLOT. -/
def Engine.accum (x : Engine) (w : Nat) : Accum := if w = 0 then x.acc0 else x.acc1
def Engine.setAccum (x : Engine) (w : Nat) (a : Accum) : Engine := if w = 0 then { x with acc0 := a } else { x with acc1 := a }
def Engine.out (x : Engine) (w : Nat) : Option OutTile := if w = 0 then x.out0 else x.out1
def Engine.setOut (x : Engine) (w : Nat) (o : Option OutTile) : Engine :=
  if w = 0 then { x with out0 := o } else { x with out1 := o }

def State.accum (s : State) (g e w : Nat) : Accum := ((s.cl g).eng e).accum w
def State.setAccum (s : State) (g e w : Nat) (a : Accum) : State := s.modEng g e fun x => x.setAccum w a

/-- First cell of a wide-accumulation slot; MMA on engine e with WSLOT w uses slot 2e + w (R173). -/
def slotBase (slot : Nat) : Nat := 4096 * slot
def mmaSlotBase (e w : Nat) : Nat := slotBase (2 * e + w)

def State.tolOf (s : State) (g interval : Nat) : Fp := tolerance (s.get (Reg.mxeChkctl g) 4 0) interval

/-- One spill: the row checks run on the partials, which then pass into S (R172, R176). -/
def State.spill (s : State) (g e w : Nat) (kt5 : Bool) (interval : Nat) : State :=
  let x := s.accum g e w
  let tol := s.tolOf g interval
  let fails := x.rowFails tol
  let s1 := s.modCl g fun c => { c with wide := spillInto kt5 x.integer (mmaSlotBase e w) c.wide x.part }
  (s1.setAccum g e w { x.afterSpill kt5 (x.shadowFails tol) with checksFailed := x.checksFailed || !fails.isEmpty }).failChecks
    g e w 0 fails

/-- A faulty cell changes partials (R383). -/
def flipParts (part : Memory 32) (fs : List Flip) : Memory 32 :=
  fs.foldl (fun m f => m.write f.index (m.read f.index ^^^ BitVec.ofNat 32 f.bits)) part

def State.disturb (s : State) (g e w : Nat) (fs : List Flip) : State :=
  if fs.isEmpty then s
  else
    let x := s.accum g e w
    s.setAccum g e w { x with part := flipParts x.part (fs.filter fun f => f.index < 4096) }

/-! ### Shadow selection (R380, R381) -/

/-- Checking level in force in the partition that runs on a cluster. -/
def State.levelOf (s : State) (n : Nat) : Nat :=
  let p := s.partOf n
  Tab.getD (s.get (Reg.chkLevel p) 1 0) s.chk.levels p

def levelMod (k : Nat) : Nat := if k = 1 then 64 else if k = 2 then 16 else 4

/-- Is the unit with ordinal a selected? -/
def State.selected (s : State) (g n e a step : Nat) : Bool :=
  let k := s.levelOf n
  (k != 0 && (a + 7 * (step % 2 ^ 48) + 13 * (s.cl g).idx) % levelMod k == 0) || s.engState g e == 1

/-- The shadow engine of an MMA unit, and the first engine of the shadow pair of an ABLK. -/
def shadowEng (e step : Nat) : Nat := (e + 1 + step % 2 ^ 48 % 15) % 16
def shadowPair (e step : Nat) : Nat := (e + 2 + 2 * (step % 2 ^ 48 % 7)) % 16

/-- With ρ = 1 + (step mod 63) the shadow places row m and column n of its operands in row (m + ρ) mod 64 and column
(n + ρ) mod 64 of its array (R381): the element that cell `i` of the array computes. -/
def shadowRho (step : Nat) : Nat := 1 + step % 2 ^ 48 % 63
def cellElem (step i : Nat) : Nat :=
  let r := shadowRho step
  64 * ((i / 64 % 64 + 64 - r) % 64) + (i % 64 + 64 - r) % 64

/-- Does an engine's shadow buffer hold a unit (R382)? -/
def Cluster.shadowBusy (c : Cluster) (e : Nat) : Bool :=
  (c.shadows.any fun u => u.engs.contains e) ||
  c.engines.any fun x => [x.2.acc0, x.2.acc1].any fun a =>
    match a.shadow with
    | some h => h.eng == e
    | none => false

/-! ### Opening a unit (R117, R171, R174, R182) -/

/-- Does the instruction open an accumulation? -/
def State.opens (s : State) (g e : Nat) (j : Job) : Bool :=
  !mmaAcc j.word || !(s.accum g e (mmaSlot j.word)).isOpen

/-- Is one of the pair integer formats: the path of R166; under KT5 emulation every pair takes the groups of R162. -/
def intPair (j : Job) : Bool :=
  let i := fun d => Desc.fmt d == 5 || Desc.fmt d == 6
  !j.kt5 && i j.da && i j.db

/-- The unit at the head of an engine's queue takes its ordinal, once (R380). -/
def State.takeOrdinal (s : State) (g e : Nat) : State :=
  match ((s.cl g).eng e).ord with
  | some _ => s
  | none => s.modCl g fun c => { c.setEng e { c.eng e with ord := some c.ordinal } with ordinal := c.ordinal + 1 }

/-- Open the accumulation of an instruction whose ordinal is taken; none while the engine's queue stalls: on an output that
waits in the slot (R182), or on a shadow buffer in use or a full queue of the shadow engine (R382). -/
def State.openUnit (s : State) (g e : Nat) (j : Job) : Option State :=
  let w := mmaSlot j.word
  let c := s.cl g
  if ((c.eng e).out w).isSome then none
  else
    let sel := s.selected g j.ctx e ((c.eng e).ord.getD c.ordinal) j.step
    let se := shadowEng e j.step
    if sel && (c.shadowBusy se || decide (4 ≤ s.unitLoad j.ctx c.idx (.engine se))) then none
    else
      let s1 := s.modCl g fun c =>
        { c.setEng e { c.eng e with ord := none } with wide := c.wide.keep fun a => a / 4096 != 2 * e + w }
      some (s1.setAccum g e w { Accum.closed with
        isOpen := true, interval := (Epi.interval j.dc).getD 2048, mrows := mmaRows j.word, integer := intPair j,
        shadow := if sel then some ⟨se, [], [], false⟩ else none })

/-- A shadowed instruction enters the shadow engine's queue too (R382); none while that is full. -/
def State.enterShadow (s : State) (g e : Nat) (j : Job) : Option State :=
  match (s.accum g e (mmaSlot j.word)).shadow, Tab.find s.flights j.flight with
  | some h, some f =>
    if f.engs.contains h.eng then some s
    else if 4 ≤ s.unitLoad j.ctx f.idx (.engine h.eng) then none
    else some (s.modFlight j.flight fun f => { f with engs := [h.eng] })
  | _, _ => some s

/-- A change between the integer path and R165 spills the path being left (R166). -/
def State.switchPath (s : State) (g e : Nat) (j : Job) : State :=
  let w := mmaSlot j.word
  let x := s.accum g e w
  if x.integer = intPair j then s
  else
    let t := s.spill g e w j.kt5 x.interval
    t.setAccum g e w { t.accum g e w with integer := intPair j, mixed := true }

/-! ### The tray (R182, R207, R208) -/

def trayDepth : Nat := 128

/-- The engine output that holds the tile of an instruction. -/
def Cluster.findOut (c : Cluster) (flight : Nat) : Option (Nat × Nat × OutTile) :=
  c.engines.findSome? fun x =>
    match x.2.out0, x.2.out1 with
    | some o, p => if o.flight = flight then some (x.1, 0, o) else
        match p with
        | some o1 => if o1.flight = flight then some (x.1, 1, o1) else none
        | none => none
    | none, some o1 => if o1.flight = flight then some (x.1, 1, o1) else none
    | none, none => none

/-- The earliest-issued finished tile enters when its predecessors have entered and a slot is free. -/
def State.trayEnter (s : State) (g : Nat) : State :=
  let c := s.cl g
  match c.trayOrder with
  | [] => s
  | f :: rest =>
    if trayDepth ≤ c.tray.length then s
    else
      match c.findOut f with
      | none => s
      | some (e, w, o) =>
        ((s.setCl g { (c.setEng e ((c.eng e).setOut w none)) with tray := c.tray ++ [o.tile], trayOrder := rest }).addWrap
          (Reg.tryPushed g) 63 0 1).markReady f

/-! ### The epilogue (R179–R181, R183, R185) -/

/-- An element in the epilogue: its value and what it counts. -/
structure EpiVal where
  v : Fp
  sat : Nat
  nf : Nat
  deriving DecidableEq, Repr

/-- An FP32 operation on an element: `ins` are its inputs besides the element. -/
def EpiVal.op (kt5 : Bool) (x : EpiVal) (ins : List Fp) (r : Fp) : EpiVal :=
  let (v, sat) := fp32Out kt5 r
  let nf := !x.v.isFinite || ins.any fun i => !i.isFinite
  ⟨v, x.sat + b2n (sat && !nf), x.nf + b2n nf⟩

/-- A further addition to an element. -/
def EpiVal.thenAdd (kt5 : Bool) (x : EpiVal) (y : Fp) : EpiVal := x.op kt5 [y] (Fp.add x.v y)

/-- A BF16 clamp. -/
def bf16 (kt5 : Bool) (c : Nat) : Fp := flushIf kt5 .bf16 (decodeIeee 8 7 c)

/-- ACT (R179). -/
def Epi.apply (kt5 : Bool) (d : List Byte) (x : EpiVal) : EpiVal :=
  let lo := bf16 kt5 (Epi.clamplo d)
  let hi := bf16 kt5 (Epi.clamphi d)
  match Epi.act d with
  | 1 => x.op kt5 [] (Fp.max x.v .zero)
  | 2 => x.op kt5 [] (if Fp.lt x.v .zero then x.v.scale2 (-(Epi.leakexp d : Int)) else x.v)
  | 3 => x.op kt5 [lo, hi] (Fp.min (Fp.max x.v lo) hi)
  | 4 => x.op kt5 [hi] (Fp.min (Fp.max x.v .zero) hi)
  | _ => x

/-- Step 1: the slot's sum with the merged partials added in order (R183); under KT5 emulation in FP32, each partial rounded as
it is read, where a rounding may saturate and a sum may meet a non-finite partial (R133, R185). -/
def merged (kt5 : Bool) (s : Fp) (ps : List Fp) : EpiVal :=
  ps.foldl (fun x p =>
    if kt5 then
      let q := fp32Out true p
      EpiVal.op true { x with sat := x.sat + b2n q.2 } [q.1] (Fp.add x.v q.1)
    else { x with v := Fp.rv .fp64 (Fp.add x.v p) }) ⟨s, 0, 0⟩

/-- Steps 2 to 5 for one element. -/
def Epi.element (kt5 : Bool) (d : List Byte) (ex : Int) (bias : Option Fp) (v : EpiVal) : EpiVal :=
  let alpha := flushIf kt5 .fp32 (decodeIeee 8 23 (Epi.alpha d))
  let x0 : EpiVal := { v with v := v.v.scale2 ex }
  let x1 := x0.op kt5 [alpha] (Fp.mul x0.v alpha)
  let x2 := match bias with
    | none => x1
    | some b => x1.op kt5 [b] (Fp.add x1.v b)
  Epi.apply kt5 d x2

/-- The bias row: the elements of BIASSLOT by their logical index (R156), the tensor exponent removed, and what their codes
count. -/
def State.biasRow (s : State) (g e : Nat) (j : Job) : List Fp × State :=
  let d := j.dy
  let b0 := if Epi.biasreg j.dc = 0 then 0 else sreg j.sregs (Epi.biasreg j.dc)
  let offs := (List.range 64).map fun n => Desc.logical d (b0 + n)
  let r := s.readElems (Reg.mxeViolcnt g) j.ctx j.kt5 d offs
  let (ex, s1) := r.st.tensorExp g j.ctx d
  let nf := if Format.wide (Desc.fmt d) then 0 else (r.vals.filter (·.2)).length + r.scaleNf
  (r.vals.map fun v => v.1.scale2 (-ex), s1.mxeCount g e 0 nf)

/-- The partials to be merged, by tile row (R183). -/
def Cluster.mergeVals (c : Cluster) (d : List Byte) (m n : Nat) : List Fp :=
  (List.range (Epi.mergen d)).map fun i =>
    decodeIeee 11 52 (leNat (c.tileRead (256 * (Epi.mergeaddr d + 128 * i) + 8 * (64 * m + n)) 8))

/-- Merge accesses that reach beyond the tile store. -/
def mergeOver (d : List Byte) (rows : Nat) : Nat :=
  ((List.range (Epi.mergen d)).filter fun i => tileOver (256 * (Epi.mergeaddr d + 128 * i)) (512 * rows)).length

/-- DKIND 10b: binary64 rows, no conversion and no counter. -/
def State.exportTile (s : State) (g : Nat) (j : Job) (rows : Nat) (v : Nat → Nat → Fp) : State :=
  let bytes := (List.range (64 * rows)).flatMap fun i => leBytes 8 (to64 (v (i / 64) (i % 64))).toNat
  s.writeTileRuns g j.ctx .tile [(256 * (Epi.taddr j.dc + j.sa), bytes)]

/-- DKIND 00b: rows converted to the format of DSTSLOT (R146, R181). -/
def State.convertTile (s : State) (g e : Nat) (j : Job) (xs : List (List EpiVal)) : State :=
  let d := j.dx
  let f := Desc.fmt d
  let (ex, s1) := s.tensorExp g j.ctx d
  let org := if Epi.orgreg j.dc = 0 then 0 else sreg j.sregs (Epi.orgreg j.dc)
  let outs := xs.mapIdx fun m row => encodeRow j.kt5 f (row.mapIdx fun n x =>
    ⟨x.v.scale2 ex, rndOf j (Epi.rnd j.dc) (Epi.stream j.dc) (Desc.tensorid d)
      (drawIndex d (Epi.rowdim j.dc) org m n)⟩)
  let cnts := outs.flatMap (·.cnts)
  let s2 := s1.writeTileRuns g j.ctx .tile
    ((outs.mapIdx fun m o => rowRuns f (Epi.taddr j.dc + j.sa) m o).flatMap id)
  (s2.mxeCount g e (satTotal cnts) (nfTotal cnts)).tallyScale (Reg.mxeViolcnt g) j.ctx d
    ⟨satTotal cnts, amaxOf ((xs.flatMap id).map (·.v))⟩

/-- DKIND 01b: the whole FP32 tile waits for its entry; rows at or above MROWS hold +0 (R181). -/
def State.outputTile (s : State) (g e w : Nat) (j : Job) (xs : List (List EpiVal)) : State :=
  let tile : Memory 32 := Memory.ofList 0 ((xs.flatMap id).map fun x => to32 x.v)
  (s.modEng g e fun x => x.setOut w (some ⟨j.flight, tile⟩)).trayEnter g

/-- The epilogue of a closed accumulation (R180). -/
def State.epilogue (s : State) (g e : Nat) (j : Job) : State :=
  let w := mmaSlot j.word
  let rows := (s.accum g e w).mrows
  let c := s.cl g
  let d := j.dc
  let v := fun m n => merged j.kt5 (f64 (c.wide.read (mmaSlotBase e w + 64 * m + n))) (c.mergeVals d m n)
  let s0 := s.violateN (Reg.seqViolcnt g) (.ctx j.ctx) (mergeOver d rows)
  if Epi.kind d = 2 then (s0.exportTile g j rows fun m n => (v m n).v).markReady j.flight
  else
    let (ea, s1) := s0.tensorExp g j.ctx j.da
    let (eb, s2) := s1.tensorExp g j.ctx j.db
    let (bias, s3) := if Epi.biasen d then s2.biasRow g e j else ([], s2)
    let xs := (List.range rows).map fun m => (List.range 64).map fun n =>
      Epi.element j.kt5 d (-(ea + eb)) (if Epi.biasen d then some (bias.getD n .zero) else none) (v m n)
    let all := xs.flatMap id
    let s4 := s3.mxeCount g e ((all.map (·.sat)).foldl (· + ·) 0) ((all.map (·.nf)).foldl (· + ·) 0)
    if Epi.kind d = 0 then (s4.convertTile g e j xs).markReady j.flight else s4.outputTile g e w j xs

/-! ### LAST (R172, R176, R183, R383) -/

/-- Least power of two not below n. -/
def roundPow2 (n : Nat) : Nat := if n ≤ 1 then 1 else 2 ^ bitLen (n - 1)

/-- The interval in the tolerance; under KT5 emulation K rounded up to a power of two (R176). -/
def Accum.tolInterval (x : Accum) (kt5 : Bool) : Nat := if kt5 then roundPow2 x.products else x.interval

/-- Column and corner checks at LAST. -/
def State.lastChecks (s : State) (g e w : Nat) (kt5 : Bool) : State :=
  let x := s.accum g e w
  let tol := s.tolOf g (x.tolInterval kt5)
  let c := s.cl g
  let cols := x.colFails tol fun i => f64 (c.wide.read (mmaSlotBase e w + i))
  let corner := x.cornerFails tol
  let s1 := s.setAccum g e w { x with checksFailed := x.checksFailed || !cols.isEmpty || corner }
  (s1.failChecks g e w 1 cols).failChecks g e w 2 (if corner then [0] else [])

/-- A finished shadow unit waits for its comparison over the rows below MROWS (R383). `x` is the accumulation before its
last spill, which the shadow's run still has to make. -/
def State.endShadow (s : State) (g e w : Nat) (x : Accum) (j : Job) : State :=
  match x.shadow with
  | none => s
  | some h =>
    let fails := if (s.accum g e w).checksFailed then [e] else []
    s.modCl g fun c =>
      let orig : Memory 64 := (c.wide.keep fun a => mmaSlotBase e w ≤ a && a < mmaSlotBase e w + 64 * x.mrows).map
        fun p => (p.1 - mmaSlotBase e w, p.2)
      { c with shadows := c.shadows ++ [⟨e, h.eng, j.step, orig, fails,
        .mma j.kt5 { x with part := h.part, shadow := none } h.sums (x.tolInterval j.kt5) h.failed⟩] }

/-- Close the accumulation of an instruction with LAST (R117). -/
def State.closeUnit (s : State) (g e : Nat) (j : Job) : State :=
  let w := mmaSlot j.word
  let x := s.accum g e w
  let s1 := s.spill g e w j.kt5 (x.tolInterval j.kt5)
  let s2 := (s1.lastChecks g e w j.kt5).endShadow g e w x j
  let s3 := s2.epilogue g e j
  (s3.modCl g fun c => { c with wide := c.wide.keep fun a => a / 4096 != 2 * e + w }).setAccum g e w .closed

/-! ### The engine -/

/-- Array occupancy and B load of a K-tile step in ACLK cycles for a pair of formats (R167); eight times the occupancy under
KT5 (R185). -/
def pairCycles (kt5 : Bool) (fa fb rows : Nat) : Nat :=
  let w16 := fun f => f == 1 || f == 2
  let b4 := fun f => f == 13 || f == 15
  let occ := if w16 fa || w16 fb then 2 * rows else if b4 fa && b4 fb then ceilDiv rows 2 else rows
  max (if kt5 then 8 * occ else occ) (Format.footprint fb)

def stepCycles (j : Job) : Nat := pairCycles j.kt5 (Desc.fmt j.da) (Desc.fmt j.db) (mmaRows j.word)

/-- K-tiles that the engine consumes before the next spill point or the end of the instruction. -/
def chunk (x : Accum) (j : Job) (pos : Nat) : Nat :=
  let left := mmaKt j.word - pos
  if j.kt5 then left else min left ((x.interval - x.products % x.interval) / 64)

/-- Consume `n` K-tiles from `pos`. -/
def State.consume (s : State) (g e : Nat) (j : Job) (pos n : Nat) : State :=
  let w := mmaSlot j.word
  let c := s.cl g
  let k := (List.range n).foldl (fun k i => c.ktile j (pos + i) k) ⟨s.accum g e w, 0, 0, 0⟩
  let s1 := (s.setAccum g e w k.acc).mxeCount g e k.sat k.nf
  let s2 := (s1.violateN (Reg.seqViolcnt g) (.ctx j.ctx) k.past).addWrap (Reg.mxeMacs g e) 63 0
    (n * mmaRows j.word * 4096)
  let cyc := n * stepCycles j
  let s3 := (s2.addCycles (Reg.mxeBusycyc g e) cyc).addCycles (Reg.ctxEtmxe j.ctx) cyc
  match k.acc.shadow with
  | some h => (s3.addCycles (Reg.mxeBusycyc g h.eng) cyc).addCycles (Reg.ctxEtmxe j.ctx) cyc
  | none => s3

/-- The head instruction leaves the engine's queue. -/
def State.popEngine (s : State) (g e : Nat) : State :=
  s.modEng g e fun x => { x with queue := x.queue.drop 1, pos := 0 }

/-- An accumulation at a multiple of L waits for its spill. -/
def State.noteSpill (s : State) (g e : Nat) (j : Job) : State :=
  let w := mmaSlot j.word
  let x := s.accum g e w
  s.setAccum g e w { x with spillDue := !j.kt5 && x.products % x.interval == 0 }

/-- Consume operands of the head instruction up to the next spill point; with LAST at its end, close the unit. The flag
tells that the instruction has left the queue. -/
def State.runHead (s : State) (g e : Nat) (j : Job) (fs : List Flip) : State × Bool :=
  let w := mmaSlot j.word
  let pos := ((s.cl g).eng e).pos
  let n := chunk (s.accum g e w) j pos
  let s1 := (s.consume g e j pos n).disturb g e w fs
  if pos + n < mmaKt j.word then ((s1.modEng g e fun x => { x with pos := pos + n }).noteSpill g e j, false)
  else if mmaLast j.word then ((s1.closeUnit g e j).popEngine g e, true)
  else (((s1.noteSpill g e j).markReady j.flight).popEngine g e, true)

/-- A continuing instruction that opens an accumulation with a reserved LAMINT is a no-op (R100, R117). -/
def lateReserved (j : Job) : Bool := !j.kt5 && (Epi.interval j.dc).isNone

def State.dropMma (s : State) (g e : Nat) (j : Job) : State :=
  ((s.modCl g fun c => { c with trayOrder := c.trayOrder.filter (· != j.flight) }).popEngine g e).dropReserved j

/-- Do the accumulations of a job's engine place a shadow of the job on engine `e`? -/
def Engine.shadows (x : Engine) (j : Job) (e : Nat) : Bool :=
  match (x.accum (mmaSlot j.word)).shadow with
  | some h => h.eng == e
  | none => false

/-- Does an entry of an engine's queue stand before instruction `i`: an MMA of its own, an ABLK that names it, or the shadow
of an MMA of another engine (R95, R187, R218)? -/
def Cluster.engineBefore (c : Cluster) (e i : Nat) : Bool :=
  (c.engines.any fun x => x.2.queue.any fun j => decide (j.flight < i) && (x.1 == e || x.2.shadows j e)) ||
  c.vq.any fun j => decide (j.flight < i) && (enginesOf j.word).contains e

/-- The head instruction runs once its shadow's entry has found room; its path is switched where it must be. -/
def State.runShadowed (s : State) (g e : Nat) (j : Job) (switch : Bool) (fs : List Flip) : State × Bool :=
  match s.enterShadow g e j with
  | none => (s, false)
  | some t => (if switch then t.switchPath g e j else t).runHead g e j fs

/-- Run an engine's queue in order until it is empty, stalls, or reaches a spill point. -/
def State.engineGo (s : State) (g e : Nat) (fuel : Nat) (fs : List Flip) : State :=
  match fuel with
  | 0 => s
  | k + 1 =>
    let x := (s.cl g).eng e
    match x.queue with
    | [] => s
    | j :: _ =>
      if x.acc0.spillDue || x.acc1.spillDue || (s.cl g).engineBefore e j.flight then s
      else if x.pos = 0 && s.opens g e j then
        if lateReserved j then (s.dropMma g e j).engineGo g e k fs
        else
          let s0 := s.takeOrdinal g e
          match s0.openUnit g e j with
          | none => s0
          | some s1 =>
            let (s2, popped) := s1.runShadowed g e j false fs
            if popped then s2.engineGo g e k [] else s2
      else
        let (s2, popped) := s.runShadowed g e j (x.pos == 0) fs
        if popped then s2.engineGo g e k [] else s2

def State.engineRun (s : State) (g e : Nat) (fs : List Flip) : State :=
  s.engineGo g e (((s.cl g).eng e).queue.length + 1) fs

/-- Engines that stalled go on. -/
def State.runEngines (s : State) (g : Nat) : State := (List.range 16).foldl (fun t e => t.engineRun g e []) s

/-! ### The commands -/

/-- Registers that an MMA reads: SA, and with LAST those that its epilogue descriptor names and, for a stochastic conversion,
s3 (R97, R178, R181). -/
def mmaRegs (g : Nat) (f : Fetch) : List Nat :=
  let d := (f.st.readDesc g f.n (wDC f.word)).1
  dataRegs true false false f.word ++
    (if mmaLast f.word then
      ((if Epi.kind d = 0 then Epi.orgreg d :: stepReg (Epi.rnd d) else []) ++ (if Epi.biasen d then [Epi.biasreg d] else [])).filter (· != 0)
     else [])

def mmaUsed : Nat := mDA + mDB + mDC + mSA + mTA + mTB + mFN 15 3 + mXT 11 0

/-- Put an MMA into its engine's queue and run it as far as it goes. -/
def State.mma (s : State) (j : Job) (fs : List Flip) : State :=
  let e := mmaEng j.word
  if mmaReserved j then s.dropReserved j
  else if mmaFormatBad j then s.dropFormat j
  else
    let s1 := s.modCl j.g fun c =>
      let c1 := c.setEng e { c.eng e with queue := (c.eng e).queue ++ [j] }
      if mmaLast j.word && Epi.kind j.dc == 1 then { c1 with trayOrder := c1.trayOrder ++ [j.flight] } else c1
    s1.engineRun j.g e fs

def execMma (g : Nat) (flips : List Flip) (s : State) : Host.Outcome State Fault Refusal :=
  .next (s.issueData g (fun w => wOp w == 0x30) (mmaRegs g) (fun w => .engine (mmaEng w)) (fun _ => mmaUsed)
    fun j t => t.mma j flips)

/-- LAMINATION_SPILL: an accumulation of the engine that stands at a spill point spills, its rows are checked, and the
engine goes on (R172, R176). -/
def execLaminationSpill (g e : Nat) (flips : List Flip) (s : State) : Host.Outcome State Fault Refusal :=
  .next (s.whenRunning <|
    let x := (s.cl g).eng e
    let w := if x.acc0.spillDue then 0 else 1
    if (x.accum w).spillDue then
      (((s.disturb g e w flips).spill g e w false (x.accum w).interval).engineRun g e [])
    else s)

/-- TRAY_ENTRY: a finished tile that waited enters a free slot in issue order (R208). -/
def execTrayEntry (g : Nat) (s : State) : Host.Outcome State Fault Refusal :=
  .next (s.whenRunning <|
    let c := s.cl g
    match c.trayOrder with
    | [] => s
    | f :: _ =>
      if trayDepth ≤ c.tray.length || (c.findOut f).isNone then s
      else ((s.trayEnter g).addCycles (Reg.tryFullcyc g) 0).runEngines g)

end Machine

end Sys2Proof
end

