-- ==== Sys2Proof/Machine/Trans.lean ====
section
/-! DEFINITION. The exponential unit: EXP, EXP2, LOG, RCP, RSQRT and SQRT rounded once to FP32 (R200), and the KT5
definitions (R211). The exact values are irrational but for the cases treated apart, so 320-bit fixed point, whose error
is below 2^-290 of the value, decides every rounding. -/

set_option Elab.async false

namespace Sys2Proof

namespace Trans

/-- Bits of the fixed-point fraction. -/
def bits : Nat := 320

/-- ln 2 in fixed point, rounded down. -/
def ln2 : Nat := 0xb17217f7d1cf79abc9e3b39803f2f6af40f343267298b62d8a0d175b8baafa2be7b876206debac98

/-- Σ y^k ÷ k! from term k on. -/
def expSeries (y : Nat) : Nat → Nat → Nat → Nat
  | 0, _, _ => 0
  | fuel + 1, k, term => term + expSeries y fuel (k + 1) (term * y / 2 ^ bits / (k + 1))

/-- Square n times. -/
def squares : Nat → Nat → Nat
  | 0, v => v
  | n + 1, v => squares n (v * v / 2 ^ bits)

/-- e^r for r in [0, 1), both in fixed point. -/
def expFix (r : Nat) : Nat := squares 16 (expSeries (r / 2 ^ 16) 26 0 (2 ^ bits))

/-- A finite value in fixed point. -/
def fix (n : Bool) (m : Nat) (e : Int) : Int :=
  let p : Int := e + bits
  let v : Nat := if 0 ≤ p then m <<< p.toNat else m >>> (-p).toNat
  if n then -(v : Int) else v

/-- Is the magnitude 256 or more? -/
def huge (m : Nat) (e : Int) : Bool := decide (8 < e + bitLen m)

/-- A result beyond the range: the largest magnitude with a saturation, or +0. -/
def extreme (n : Bool) : Fp × Bool := if n then (.zero, false) else (Fp.largest .fp32 false, true)

/-- e^x. -/
def exp (x : Fp) : Fp × Bool :=
  match x with
  | .nan => (.nan, false)
  | .inf n => (if n then .zero else .inf false, false)
  | .fin n m e =>
    if m = 0 then (.one, false)
    else if huge m e then extreme n
    else
      let v := fix n m e
      let q := v / (ln2 : Int)
      Fp.roundFin .fp32 .rne false (expFix (v - q * ln2).toNat) (q - bits) true

/-- 2^x. -/
def exp2 (x : Fp) : Fp × Bool :=
  match x with
  | .nan => (.nan, false)
  | .inf n => (if n then .zero else .inf false, false)
  | .fin n m e =>
    if m = 0 then (.one, false)
    else if huge m e then extreme n
    else
      let v := fix n m e
      let q := v / (2 ^ bits : Nat)
      let r := (v - q * (2 ^ bits : Nat)).toNat
      if r = 0 then Fp.roundFin .fp32 .rne false 1 q false
      else Fp.roundFin .fp32 .rne false (expFix (r * ln2 / 2 ^ bits)) (q - bits) true

/-- Σ z^(2i+1) ÷ (2i+1). -/
def atanhSeries (z2 : Nat) : Nat → Nat → Nat → Nat
  | 0, _, _ => 0
  | fuel + 1, i, zp => zp / (2 * i + 1) + atanhSeries z2 fuel (i + 1) (zp * z2 / 2 ^ bits)

/-- ln x; ln(±0) is the negative largest magnitude with a saturation. -/
def log (x : Fp) : Fp × Bool :=
  match x with
  | .nan => (.nan, false)
  | .inf n => (if n then .nan else .inf false, false)
  | .fin n m e =>
    if m = 0 then (Fp.largest .fp32 true, true)
    else if n then (.nan, false)
    else
      let bl := bitLen m
      let k : Int := e + (bl : Int) - 1
      let mm := if bl ≤ bits + 1 then m <<< (bits + 1 - bl) else m >>> (bl - (bits + 1))
      if mm = 2 ^ bits && k = 0 then (.zero, false)
      else
        let z := (mm - 2 ^ bits) * 2 ^ bits / (mm + 2 ^ bits)
        let v : Int := k * ln2 + 2 * (atanhSeries (z * z / 2 ^ bits) 112 0 z : Nat)
        Fp.roundFin .fp32 .rne (decide (v < 0)) v.natAbs (-(bits : Int)) true

/-- 1 ÷ x. -/
def rcp (x : Fp) : Fp × Bool := Fp.div .fp32 .one x

/-! ### KT5 (R211) -/

namespace Kt5

def flush (x : Fp) : Fp := flushFp .fp32 x

/-- An FP32 result with flushing. -/
def out (x : Fp) : Fp × Bool :=
  let r := Fp.rnd .fp32 x
  (flush r.1, r.2)

def log2e : Fp := decodeIeee 8 23 0x3FB8AA3B
def ln2c : Fp := decodeIeee 8 23 0x3F317218

/-- T[j] = 2^(j ÷ 128) in FP32. -/
def tab (j : Nat) : Fp := (Trans.exp2 (.fin false j (-7))).1

/-- U[i] = 1 ÷ (1 + (2i + 1) ÷ 512) in FP32. -/
def utab (i : Nat) : Fp := (Fp.div .fp32 (.ofNat 512) (.ofNat (512 + 2 * i + 1))).1

def exp2 (t : Fp) : Fp × Bool :=
  match flush t with
  | .nan => (.nan, false)
  | .inf n => (if n then .zero else .inf false, false)
  | .fin n m e =>
    if huge m e then extreme n
    else
      -- t in units of 2^-149, whose fraction is exact
      let v : Int := let w : Nat := m <<< (e + 149).toNat; if n then -(w : Int) else w
      let q := v / (2 ^ 149 : Nat)
      let f := (v - q * (2 ^ 149 : Nat)).toNat
      let j := f / 2 ^ 142
      let g : Fp := .fin false (f % 2 ^ 142) (-149)
      let r := (out (Fp.add (Fp.mul (tab j) (out (Fp.mul (flush g) ln2c)).1) (tab j))).1
      out (r.scale2 q)

def exp (x : Fp) : Fp × Bool :=
  let p := out (Fp.mul (flush x) log2e)
  let r := exp2 p.1
  (r.1, p.2 || r.2)

def rcp (x : Fp) : Fp × Bool :=
  match flush x with
  | .fin n m e =>
    if m = 0 then Trans.rcp (.fin n 0 0)
    else
      let k : Int := e + (bitLen m : Int) - 1
      let s := m * 2 ^ 24 / 2 ^ bitLen m
      let sig : Fp := .fin false m (-((bitLen m : Int) - 1))
      let y0 := utab (fld s 22 15)
      let i := (out (Fp.add (Fp.mul sig.neg y0) .one)).1
      let y := (out (Fp.add (Fp.mul y0 i) y0)).1
      out ((y.scale2 (-k)).withSign n)
  | y => Trans.rcp y

def rsqrt (x : Fp) : Fp × Bool :=
  match flush x with
  | .fin n m e => if m != 0 && n then (.nan, false) else rcp (Fp.sqrt .fp32 (.fin n m e)).1
  | y => Fp.rsqrt .fp32 y

end Kt5

/-- The unit's functions under either definition. -/
def expOf (kt5 : Bool) (x : Fp) : Fp × Bool := if kt5 then Kt5.exp x else exp x
def exp2Of (kt5 : Bool) (x : Fp) : Fp × Bool := if kt5 then Kt5.exp2 x else exp2 x
def rcpOf (kt5 : Bool) (x : Fp) : Fp × Bool := if kt5 then Kt5.rcp x else rcp x
def rsqrtOf (kt5 : Bool) (x : Fp) : Fp × Bool := if kt5 then Kt5.rsqrt x else Fp.rsqrt .fp32 x
def logOf (kt5 : Bool) (x : Fp) : Fp × Bool := let r := log (flushIf kt5 .fp32 x); (flushIf kt5 .fp32 r.1, r.2)
def sqrtOf (kt5 : Bool) (x : Fp) : Fp × Bool := Fp.sqrt .fp32 (flushIf kt5 .fp32 x)

end Trans

end Sys2Proof
end

