-- ==== Sys2Proof/Machine/Chain.lean ====
section
/-! DEFINITION. Chain programs of the vector engine: their encoding, and the value and counts of a stage on one lane (R195,
R196, R198–R203, R211). -/

set_option Elab.async false

namespace Sys2Proof

/-- A stage of a chain program with its constant (R196). -/
structure Stage where
  op : Nat
  srcA : Nat
  srcB : Nat
  idxA : Nat
  idxB : Nat
  masked : Bool
  mzero : Bool
  csel : Nat
  k : BitVec 32
  deriving DecidableEq, Repr

namespace Chain

/-! ### Header (R195) -/

def nst (d : List Byte) : Nat := fld (leAt d 0 8) 63 61
def bf16 (d : List Byte) : Bool := bit (leAt d 0 8) 60
def rnd (d : List Byte) : Nat := fld (leAt d 0 8) 59 58
def stream (d : List Byte) : Nat := fld (leAt d 0 8) 57 43
def orgreg (d : List Byte) : Nat := fld (leAt d 0 8) 42 37
def rowdim (d : List Byte) : Nat := fld (leAt d 0 8) 36 34
def masken (d : List Byte) : Bool := bit (leAt d 0 8) 33
def maskaddr (d : List Byte) : Nat := fld (leAt d 0 8) 32 17
def cbase (d : List Byte) : Nat := fld (leAt d 0 8) 16 11
def yen (d : List Byte) : Bool := bit (leAt d 0 8) 10
def sslot (d : List Byte) : Nat := fld (leAt d 0 8) 9 0

/-! ### Stages -/

def raw (d : List Byte) (j : Nat) : Nat := leAt d (8 + 7 * j) 7
def csel (v : Nat) : Nat := fld v 35 32
def opOf (v : Nat) : Nat := fld v 55 50

/-- An integer stage (R203). -/
def isInt (op : Nat) : Bool := decide (0x30 ≤ op)

/-- The stage constant: s[CBASE + CSEL][31:0], or IMM (R196). -/
def const (d : List Byte) (r : Memory 64) (v : Nat) : BitVec 32 :=
  if csel v < 8 then BitVec.ofNat 32 (sregOf (cbase d + csel v))
  else if isInt (opOf v) then BitVec.ofNat 32 (ofSigned 32 (toSigned 16 (fld v 31 16)))
  else BitVec.ofNat 32 (fld v 31 16 * 2 ^ 16)
where sregOf (i : Nat) : Nat := if i < 64 then (r.read i).toNat else 0

def stage (d : List Byte) (r : Memory 64) (j : Nat) : Stage :=
  let v := raw d j
  ⟨opOf v, fld v 49 47, fld v 46 44, fld v 43 41, fld v 40 38, bit v 37, bit v 36, csel v, const d r v⟩

def stages (d : List Byte) (r : Memory 64) : List Stage := (List.range (nst d + 1)).map (stage d r)

/-- Passes of the FMA pipe and of the exponential unit (R199); none for a reserved code. -/
def cost (op : Nat) : Option (Nat × Nat) :=
  if op ≤ 0x0C then some (1, 0)
  else if 0x10 ≤ op && op ≤ 0x15 then some (0, 1)
  else if op = 0x18 then some (2, 2)
  else if op = 0x19 || op = 0x1A then some (3, 2)
  else if op = 0x1B then some (10, 2)
  else if op = 0x1C || op = 0x1D || op = 0x20 || op = 0x21 then some (1, 0)
  else if op = 0x22 then some (3, 0)
  else if op = 0x23 then some (2, 0)
  else if op = 0x24 then some (7, 2)
  else if op = 0x25 then some (16, 2)
  else if 0x30 ≤ op && op ≤ 0x3E then some (1, 0)
  else none

/-- A source code that is reserved for stage j (R196). -/
def badSrc (yen : Bool) (j src idx : Nat) : Bool :=
  decide (4 < src) || (src == 3 && decide (j ≤ idx)) || (src == 2 && !yen)

/-- A reserved code in stage j. -/
def badStage (d : List Byte) (j : Nat) (s : Stage) : Bool :=
  (cost s.op).isNone || (isInt s.op && bf16 d) || decide (8 < s.csel) || (decide (s.csel < 8) && decide (63 < cbase d + s.csel))
    || badSrc (yen d) j s.srcA s.idxA || badSrc (yen d) j s.srcB s.idxB
    || ((s.op == 0x1D || s.op == 0x21) && (decide (s.k.toInt < 1) || decide (31 < s.k.toInt)))

/-! ### Values of stages -/

/-- The result of an operation on one element and what it counts. -/
structure Out where
  v : Fp
  cnt : Cnt
  deriving DecidableEq, Repr

/-- Round a stage's result; non-finite inputs and invalid operations count as non-finite (R133, R192). -/
def finish (lm kt5 : Bool) (ins : List Fp) (x : Fp) : Out :=
  let f := if lm then Fmt.bf16 else Fmt.fp32
  let (r, sat) := Fp.rnd f x
  let nf := x.isNan || ins.any fun i => !i.isFinite
  ⟨flushIf kt5 f r, ⟨sat && !nf, nf⟩⟩

/-- An operation of the exponential unit: to FP32, and in LANEMODE 1 the stage's result to BF16. -/
def finishExp (lm kt5 : Bool) (a : Fp) (r : Fp × Bool) : Out :=
  let o := finish lm kt5 [a] r.1
  ⟨o.v, ⟨(r.2 || o.cnt.sat) && !o.cnt.nf, o.cnt.nf⟩⟩

/-- A value inside a compound stage with the first event met so far (R192). -/
structure Step where
  v : Fp
  ev : Cnt
  deriving DecidableEq, Repr

/-- The first event stands. -/
def first (ev new : Cnt) : Cnt :=
  if ev.sat || ev.nf then ev else if new.nf then ⟨false, true⟩ else new

/-- One FP32 operation of a sequence (R201). -/
def Step.op (kt5 : Bool) (ev : Cnt) (ins : List Fp) (x : Fp) : Step :=
  let o := finish false kt5 ins x
  ⟨o.v, first ev o.cnt⟩

def Step.unit (ev : Cnt) (a : Fp) (r : Fp × Bool) : Step :=
  let nf := r.1.isNan || !a.isFinite
  ⟨r.1, first ev ⟨r.2 && !nf, nf⟩⟩

def Step.mul (kt5 : Bool) (ev : Cnt) (a b : Fp) : Step := Step.op kt5 ev [a, b] (Fp.mul a b)
def Step.add (kt5 : Bool) (ev : Cnt) (a b : Fp) : Step := Step.op kt5 ev [a, b] (Fp.add a b)
def Step.sub (kt5 : Bool) (ev : Cnt) (a b : Fp) : Step := Step.op kt5 ev [a, b] (Fp.sub a b)
def Step.fma (kt5 : Bool) (ev : Cnt) (a b c : Fp) : Step := Step.op kt5 ev [a, b, c] (Fp.add (Fp.mul a b) c)
def Step.exp (kt5 : Bool) (ev : Cnt) (a : Fp) : Step := Step.unit ev a (Trans.expOf kt5 a)
def Step.rcp (kt5 : Bool) (ev : Cnt) (a : Fp) : Step := Step.unit ev a (Trans.rcpOf kt5 a)

def c1 : Fp := decodeIeee 8 23 0x3D372713
def c2 : Fp := decodeIeee 8 23 0x3F4C422A
def c3 : Fp := decodeIeee 8 23 0x3E095D4F
def half : Fp := .fin false 1 (-1)
def two : Fp := .fin false 1 1

def sigmoid (kt5 : Bool) (ev : Cnt) (x : Fp) : Step :=
  if Fp.le .zero x then
    let t := Step.exp kt5 ev x.neg
    let d := Step.add kt5 t.ev .one t.v
    Step.rcp kt5 d.ev d.v
  else
    let t := Step.exp kt5 ev x
    let d := Step.add kt5 t.ev .one t.v
    let r := Step.rcp kt5 d.ev d.v
    Step.mul kt5 r.ev t.v r.v

def tanh (kt5 : Bool) (ev : Cnt) (x : Fp) : Step :=
  let y := Step.mul kt5 ev two.neg x.abs
  let t := Step.exp kt5 y.ev y.v
  let a := Step.sub kt5 t.ev .one t.v
  let b := Step.add kt5 a.ev .one t.v
  let r := Step.rcp kt5 b.ev b.v
  let p := Step.mul kt5 r.ev a.v r.v
  ⟨p.v.withSign x.sign, p.ev⟩

def silu (kt5 : Bool) (ev : Cnt) (x : Fp) : Step :=
  let s := sigmoid kt5 ev x
  Step.mul kt5 s.ev x s.v

/-- w of gelu and dgelu, with u. -/
def geluW (kt5 : Bool) (ev : Cnt) (x : Fp) : Fp × Step :=
  let u := Step.mul kt5 ev x x
  let ux := Step.mul kt5 u.ev u.v x
  let i := Step.fma kt5 ux.ev c1 ux.v x
  (u.v, Step.mul kt5 i.ev c2 i.v)

def gelu (kt5 : Bool) (ev : Cnt) (x : Fp) : Step :=
  let (_, w) := geluW kt5 ev x
  let h := Step.mul kt5 w.ev half x
  let t := tanh kt5 h.ev w.v
  let s := Step.add kt5 t.ev .one t.v
  Step.mul kt5 s.ev h.v s.v

def dsigmoid (kt5 : Bool) (ev : Cnt) (y g : Fp) : Step :=
  let a := Step.sub kt5 ev .one y
  let b := Step.mul kt5 a.ev y a.v
  Step.mul kt5 b.ev g b.v

def dtanh (kt5 : Bool) (ev : Cnt) (y g : Fp) : Step :=
  let a := Step.fma kt5 ev y.neg y .one
  Step.mul kt5 a.ev g a.v

def dsilu (kt5 : Bool) (ev : Cnt) (x g : Fp) : Step :=
  let s := sigmoid kt5 ev x
  let a := Step.sub kt5 s.ev .one s.v
  let b := Step.mul kt5 a.ev x a.v
  let c := Step.add kt5 b.ev .one b.v
  let d := Step.mul kt5 c.ev s.v c.v
  Step.mul kt5 d.ev g d.v

def dgelu (kt5 : Bool) (ev : Cnt) (x g : Fp) : Step :=
  let (u, w) := geluW kt5 ev x
  let t := tanh kt5 w.ev w.v
  let a := Step.fma kt5 t.ev t.v.neg t.v .one
  let b := Step.mul kt5 a.ev x a.v
  let c := Step.fma kt5 b.ev c3 u .one
  let d := Step.mul kt5 c.ev c2 c.v
  let e := Step.mul kt5 d.ev b.v d.v
  let f := Step.add kt5 e.ev .one t.v
  let h := Step.add kt5 f.ev f.v e.v
  let i := Step.mul kt5 h.ev half h.v
  Step.mul kt5 i.ev g i.v

/-- A compound stage's result, to BF16 in LANEMODE 1. -/
def compound (lm kt5 : Bool) (s : Step) : Out :=
  if lm then
    let o := finish true kt5 [] s.v
    ⟨o.v, first s.ev ⟨o.cnt.sat, false⟩⟩
  else ⟨s.v, s.ev⟩

/-- A floating-point stage other than the mask stages (R199–R202). `k` is the constant's pattern. -/
def floatOp (lm kt5 : Bool) (op : Nat) (a b : Fp) (k : BitVec 32) : Out :=
  let fin := finish lm kt5
  match op with
  | 0x00 => fin [a] a
  | 0x01 => fin [a, b] (Fp.add a b)
  | 0x02 => fin [a, b] (Fp.sub a b)
  | 0x03 => fin [a, b] (Fp.mul a b)
  | 0x04 => let kv := flushIf kt5 .fp32 (f32 k); fin [a, b, kv] (Fp.add (Fp.mul a b) kv)
  | 0x05 => fin [a, b] (Fp.max a b)
  | 0x06 => fin [a, b] (Fp.min a b)
  | 0x07 => fin [a] a.abs
  | 0x08 => fin [a] a.neg
  | 0x09 => fin [a] (a.scale2 (clampI (-300) 300 k.toInt))
  | 0x10 => finishExp lm kt5 a (Trans.expOf kt5 a)
  | 0x11 => finishExp lm kt5 a (Trans.exp2Of kt5 a)
  | 0x12 => finishExp lm kt5 a (Trans.logOf kt5 a)
  | 0x13 => finishExp lm kt5 a (Trans.rcpOf kt5 a)
  | 0x14 => finishExp lm kt5 a (Trans.rsqrtOf kt5 a)
  | 0x15 => finishExp lm kt5 a (Trans.sqrtOf kt5 a)
  | 0x18 => compound lm kt5 (sigmoid kt5 .none a)
  | 0x19 => compound lm kt5 (tanh kt5 .none a)
  | 0x1A => compound lm kt5 (silu kt5 .none a)
  | 0x1B => compound lm kt5 (gelu kt5 .none a)
  | 0x1C => fin [a] (Fp.max a .zero)
  | 0x1D => fin [a] (if Fp.lt a .zero then a.scale2 (-k.toInt) else a)
  | 0x20 => fin [a, b] (if a.isNan || b.isNan then .nan else if Fp.lt .zero a then b else .zero)
  | 0x21 => fin [a, b] (if a.isNan || b.isNan then .nan else if Fp.lt a .zero then b.scale2 (-k.toInt) else b)
  | 0x22 => compound lm kt5 (dsigmoid kt5 .none a b)
  | 0x23 => compound lm kt5 (dtanh kt5 .none a b)
  | 0x24 => compound lm kt5 (dsilu kt5 .none a b)
  | _ => compound lm kt5 (dgelu kt5 .none a b)

/-- Clamp to INT32; the flag tells a clamp. -/
def clamp32 (x : Int) : BitVec 32 × Bool :=
  let c := clampI (-2147483648) 2147483647 x
  (BitVec.ofInt 32 c, x != c)

/-- An integer stage (R203): the result and what it counts. -/
def intOp (kt5 : Bool) (op : Nat) (a b : BitVec 32) : BitVec 32 × Cnt :=
  let sh := b.toNat % 32
  match op with
  | 0x30 => (a + b, .none)
  | 0x31 => (a - b, .none)
  | 0x32 => let r := clamp32 (a.toInt + b.toInt); (r.1, ⟨r.2, false⟩)
  | 0x33 => let r := clamp32 (a.toInt - b.toInt); (r.1, ⟨r.2, false⟩)
  | 0x34 => (a * b, .none)
  | 0x35 => (a &&& b, .none)
  | 0x36 => (a ||| b, .none)
  | 0x37 => (a ^^^ b, .none)
  | 0x38 => (a <<< sh, .none)
  | 0x39 => (a >>> sh, .none)
  | 0x3A => (a.sshiftRight sh, .none)
  | 0x3B => (if a.toInt < b.toInt then b else a, .none)
  | 0x3C => (if b.toInt < a.toInt then b else a, .none)
  | 0x3D =>
    match flushIf kt5 .fp32 (f32 a) with
    | .nan => (0, ⟨false, true⟩)
    | .inf n => (BitVec.ofInt 32 (if n then -2147483648 else 2147483647), ⟨false, true⟩)
    | .fin n m e => let r := encodeInt 8 .rne n m e; (BitVec.ofNat 32 r.1, ⟨r.2, false⟩)
  | _ => (to32 (Fp.rv .fp32 (.ofInt a.toInt)), .none)

/-! ### A lane through the program (R198) -/

/-- A lane on its way: results of the stages so far, its mask bit, and what it has counted. -/
structure Lane where
  res : List (BitVec 32)
  mask : Bool
  sat : Nat
  nf : Nat
  evals : Nat
  deriving DecidableEq, Repr

/-- An operand of stage j. -/
def operand (x y : BitVec 32) (k : BitVec 32) (j : Nat) (res : List (BitVec 32)) (src idx : Nat) : BitVec 32 :=
  match src with
  | 0 => if j = 0 then x else res.getD (j - 1) 0
  | 1 => x
  | 2 => y
  | 3 => res.getD idx 0
  | _ => k

/-- The value that a stage reads from a lane. -/
def laneFp (kt5 : Bool) (p : BitVec 32) : Fp := flushIf kt5 .fp32 (f32 p)

/-- Append a stage's result, and count its evaluation where the lane's mask lets a MASKED stage count (R212). SEL with MASKED = 1
counts as any other stage, although R199 evaluates it on every lane (DEDUCED, log 115). -/
def Lane.push (l : Lane) (masked : Bool) (r : BitVec 32) (c : Cnt) (mask : Bool) : Lane :=
  ⟨l.res ++ [r], mask, l.sat + c.satN, l.nf + c.nfN, l.evals + b2n (!masked || l.mask)⟩

/-- One stage on one lane. A comparison with a NaN input gives NaN as its result, like every operation (R133). -/
def runStage (lm kt5 : Bool) (x y : BitVec 32) (s : Stage) (j : Nat) (l : Lane) : Lane :=
  let a := operand x y s.k j l.res s.srcA s.idxA
  let b := operand x y s.k j l.res s.srcB s.idxB
  if s.masked && !l.mask && s.op != 0x0C then { l with res := l.res ++ [if s.mzero then 0 else a] }
  else if isInt s.op then
    let (r, c) := intOp kt5 s.op a b
    l.push s.masked r c l.mask
  else
    let fa := laneFp kt5 a
    let fb := laneFp kt5 b
    let ra := if fa.isNan || fb.isNan then .nan else fa
    if s.op = 0x0A then
      let o := finish lm kt5 [fa, fb] ra
      l.push s.masked (to32 o.v) o.cnt (Fp.lt fb fa)
    else if s.op = 0x0B then
      let o := finish lm kt5 [fa, fb] ra
      l.push s.masked (to32 o.v) o.cnt (Fp.le fb fa)
    else if s.op = 0x0C then
      let v := if l.mask then fa else fb
      let o := finish lm kt5 [v] v
      l.push s.masked (to32 o.v) o.cnt l.mask
    else
      let o := floatOp lm kt5 s.op fa fb s.k
      l.push s.masked (to32 o.v) o.cnt l.mask

/-- All stages on one lane. -/
def runLane (lm kt5 : Bool) (ss : List Stage) (x y : BitVec 32) (mask : Bool) : Lane :=
  ss.zipIdx.foldl (fun l s => runStage lm kt5 x y s.1 s.2 l) ⟨[], mask, 0, 0, 0⟩

/-- The result of the last stage. -/
def Lane.result (l : Lane) : BitVec 32 := l.res.getLastD 0

/-- The last stage leaves an INT32 (R193). -/
def lastInt (ss : List Stage) : Bool :=
  match ss.getLast? with
  | some s => isInt s.op && s.op != 0x3E
  | none => false

/-- ACLK cycles that one tile occupies the engine at least (R206). -/
def tileCycles (lm kt5 conv sr : Bool) (ss : List Stage) : Nat :=
  let f := (ss.map fun s => ((cost s.op).getD (0, 0)).1).foldl (· + ·) 0 + b2n conv + b2n sr
  let e := (ss.map fun s => ((cost s.op).getD (0, 0)).2).foldl (· + ·) 0
  max (max ((if lm then 4 else 8) * f) ((if kt5 then 16 else 8) * e)) 4

end Chain

end Sys2Proof
end

