-- ==== Sys2Proof/Machine/Vector.lean ====
section
/-! DEFINITION. The vector engine's own instructions VCHAIN, VRED, VSHUF and RMASK, up to a tile at a time, and the pops of the
tray (R118, R120, R189–R198, R204–R209). -/

set_option Elab.async false

namespace Sys2Proof

namespace Machine

/-! ### Vector registers (R189) -/

/-- The 4,096 lanes of a group of 16 registers; registers beyond v63 read zero. -/
def Cluster.groupRead (c : Cluster) (v : Nat) : List (BitVec 32) :=
  (List.range 4096).map fun i => if 256 * v + i < 16384 then c.vregs.read (256 * v + i) else 0

/-- Write a group; registers beyond v63 are discarded. -/
def Cluster.groupWrite (c : Cluster) (v : Nat) (ps : List (BitVec 32)) : Cluster :=
  { c with vregs := c.vregs.writeN (256 * v) (ps.take (16384 - 256 * v)) }

/-- Does a group reach beyond v63? -/
def groupOver (v : Nat) : Bool := decide (48 < v)

/-! ### Results of a step of an instruction -/

/-- What a step of the head instruction of the vector engine's queue did. -/
inductive VecRes where
  /-- it waits on an empty tray -/
  | wait
  /-- it took one tile and goes on -/
  | more
  /-- its last result is visible -/
  | done
  deriving DecidableEq, Repr

/-- The oldest tile of the tray, popped (R207). -/
def State.popTray (s : State) (g : Nat) : Option (List (BitVec 32) × State) :=
  match (s.cl g).tray with
  | [] => none
  | t :: rest =>
    some ((List.range 4096).map t.read, (s.modCl g fun c => { c with tray := rest }).addWrap (Reg.tryPopped g) 63 0 1)

/-- ACLK cycles of the vector engine with the context's work (R80, R206). -/
def State.vecBusy (s : State) (g n cyc : Nat) : State :=
  (s.addCycles (Reg.vecBusycyc g) cyc).addCycles (Reg.ctxEtvec n) cyc

/-! ### Operands (R191, R197) -/

/-- A lane pattern and what its decoding counted. -/
structure Pat where
  p : BitVec 32
  cnt : Cnt
  deriving DecidableEq, Repr

/-- An element as a lane holds it: integers as INT32, others as FP32 with the tensor exponent removed. Codes that read under
R136 count here; a non-finite wide element counts where a stage reads it. -/
def toPat (f : Nat) (ex : Int) (v : Fp × Bool) : Pat :=
  if Format.integer f then ⟨BitVec.ofInt 32 (intOf v.1), .none⟩
  else
    let r := rnd32 (v.1.scale2 (-ex))
    let nf := v.2 && !Format.wide f
    ⟨r.1, ⟨r.2 && !nf, nf⟩⟩

/-- The tensor exponent of a descriptor, without counting. -/
def State.expOf (s : State) (g n : Nat) (d : List Byte) : Int := (s.tensorExp g n d).1

/-- Count what reading a descriptor's tensor exponent counts. -/
def State.countExp (s : State) (g n : Nat) (d : List Byte) : State := (s.tensorExp g n d).2

/-- A tile as lane patterns, with what its decoding counted besides, and the state. -/
structure TileIn where
  pats : List Pat
  nf : Nat
  st : State
  deriving DecidableEq, Repr

/-- Tile `i` of a tile-store source in the format of `d`. -/
def State.vecTile (s : State) (j : Job) (d : List Byte) (i : Nat) : TileIn :=
  let f := Desc.fmt d
  let (bytes, t) := s.readTile j.g j.ctx .tile (wTA j.word + i * Format.footprint f) (Format.span f 64)
  let rows := (List.range 64).map (tileRow j.kt5 f bytes)
  ⟨rows.flatMap fun r => r.vals.map (toPat f (s.expOf j.g j.ctx d)), (rows.map (·.scaleNf)).foldl (· + ·) 0, t⟩

/-- A register group as lane patterns. -/
def State.vecGroup (s : State) (j : Job) (v : Nat) : TileIn :=
  ⟨((s.cl j.g).groupRead v).map fun p => ⟨p, .none⟩, 0,
   s.violateIf (groupOver v) (Reg.vecViolcnt j.g) (.ctx j.ctx)⟩

/-- The next tile of a source: 00b tile store, 01b tray, 10b registers; none while the tray is empty. -/
def State.vecSource (s : State) (j : Job) (src v : Nat) (d : List Byte) (i : Nat) : Option TileIn :=
  if src = 0 then some (s.vecTile j d i)
  else if src = 1 then
    match s.popTray j.g with
    | none => none
    | some (ps, t) => some ⟨ps.map fun p => ⟨p, .none⟩, 0, t⟩
  else some (s.vecGroup j (v + 16 * i))

/-- Offsets of tile `i`'s elements in a tensor (R197, R495). -/
def vecOffs (d : List Byte) (dim o i : Nat) : List (Option Nat) :=
  (List.range 64).flatMap fun m => (List.range 64).map fun n =>
    if Desc.inside d dim (64 * i + m) n then some (Desc.elemOff d dim o (64 * i + m) n) else none

/-- Tile `i` of the second input. -/
def State.vecSecond (s : State) (j : Job) (i : Nat) : TileIn :=
  let d := j.db
  let r := s.readElems (Reg.vecViolcnt j.g) j.ctx j.kt5 d (vecOffs d (Chain.rowdim j.dc) j.sb i)
  ⟨r.vals.map (toPat (Desc.fmt d) (s.expOf j.g j.ctx d)), r.scaleNf, r.st⟩

/-- The initial lane masks of tile `i` (R198). -/
def State.vecMasks (s : State) (j : Job) (i : Nat) : List Bool × State :=
  if Chain.masken j.dc then
    let (bytes, t) := s.readTile j.g j.ctx .tile (Chain.maskaddr j.dc + 2 * i) 512
    ((List.range 4096).map fun k => bit (leAt bytes (k / 8) 1) (k % 8), t)
  else (List.replicate 4096 true, s)

/-! ### VCHAIN -/

def vcSrc (w : Nat) : Nat := fld (wFN w) 15 14
def vcDst (w : Nat) : Nat := fld (wFN w) 13 12
def vcTiles (w : Nat) : Nat := fld (wFN w) 11 0
def vcIn (w : Nat) : Nat := fld (wXT w) 5 0
def vcOut (w : Nat) : Nat := fld (wXT w) 11 6

def Job.stages (j : Job) : List Stage := Chain.stages j.dc j.sregs

/-- The conversion of the chain is stochastic. -/
def Job.chainSr (j : Job) : Bool := Chain.rnd j.dc == 1 && vcDst j.word != 2

/-- Reserved codes of a VCHAIN and its program (R118, R145, R195, R196). -/
def vchainReserved (j : Job) : Bool :=
  let w := j.word
  vcSrc w == 3 || vcDst w == 3 || vcTiles w == 0 || Chain.rnd j.dc == 3
    || (j.stages.zipIdx.any fun s => Chain.badStage j.dc s.2 s.1)
    || ((Chain.yen j.dc || vcDst w == 1 || j.chainSr) && badDim (Chain.rowdim j.dc))

/-- Formats that R130 or R162 exclude. -/
def vchainFormatBad (j : Job) : Bool :=
  let w := j.word
  (vcSrc w == 0 && !fmtOk j.kt5 (Desc.fmt j.dx)) || (vcDst w != 2 && !fmtOk j.kt5 (Desc.fmt j.da))
    || (Chain.yen j.dc && !fmtOk j.kt5 (Desc.fmt j.db))

/-- The value of a result for the conversion, with the tensor exponent of the destination applied. -/
def chainVal (j : Job) (ex : Int) (p : BitVec 32) : Fp :=
  let v : Fp := if Chain.lastInt j.stages then .ofInt p.toInt else Chain.laneFp j.kt5 p
  v.scale2 ex

/-- Rounding of element (m, n) of tile i (R193). -/
def chainRnd (j : Job) (i k : Nat) : Rnd :=
  let org := if Chain.orgreg j.dc = 0 then 0 else sreg j.sregs (Chain.orgreg j.dc)
  rndOf j (Chain.rnd j.dc) (Chain.stream j.dc) (Desc.tensorid j.da)
    (drawIndex j.da (Chain.rowdim j.dc) org (64 * i + k / 64) (k % 64))

/-- Add a conversion's counts to the vector engine and, unless frozen, to the scale record. -/
def State.vecConv (s : State) (j : Job) (tally : Bool) (cs : List Cnt) (amax : Nat) : State :=
  let t := s.vecCount j.g (satTotal cs) (nfTotal cs)
  if tally then t.tallyScale (Reg.vecViolcnt j.g) j.ctx j.da ⟨satTotal cs, amax⟩ else t

/-- Destination 00b: tile TB + i × F in DA's format. -/
def State.chainToTile (s : State) (j : Job) (i : Nat) (ps : List (BitVec 32)) : State :=
  let f := Desc.fmt j.da
  let ex := s.expOf j.g j.ctx j.da
  let outs := (List.range 64).map fun m => encodeRow j.kt5 f (((ps.drop (64 * m)).take 64).mapIdx fun n p =>
    ⟨chainVal j ex p, chainRnd j i (64 * m + n)⟩)
  let u := wTB j.word + i * Format.footprint f
  (s.writeTileRuns j.g j.ctx .tile ((outs.mapIdx fun m o => rowRuns f u m o).flatMap id)).vecConv j true
    (outs.flatMap (·.cnts)) (amaxOf (ps.map (chainVal j 0)))

/-- Destination 01b: elements of tensor DA within its extents; a frozen one is converted and counted only (R194). -/
def State.chainToTensor (s : State) (j : Job) (i : Nat) (ps : List (BitVec 32)) : State :=
  let d := j.da
  let ex := s.expOf j.g j.ctx d
  let offs := vecOffs d (Chain.rowdim j.dc) j.sa i
  let es := (offs.zip ps).zipIdx.filterMap fun x =>
    match x.1.1 with
    | some o => some ((⟨o, ⟨chainVal j ex x.1.2, chainRnd j i x.2⟩⟩ : ElemOut), amaxBits (chainVal j 0 x.1.2))
    | none => none
  let (cs, t) := s.writeElems (Reg.vecViolcnt j.g) j.ctx j.kt5 d (es.map (·.1))
  if Desc.frozen d then s.vecConv j false cs 0
  else t.vecConv j true cs ((es.map (·.2)).foldl max 0)

/-- Destination 10b: the patterns without conversion. -/
def State.chainToRegs (s : State) (j : Job) (i : Nat) (ps : List (BitVec 32)) : State :=
  let v := vcOut j.word + 16 * i
  (s.modCl j.g fun c => c.groupWrite v ps).violateIf (groupOver v) (Reg.vecViolcnt j.g) (.ctx j.ctx)

/-- Tile i of a chain from its source tile on. -/
def State.chainTile (_ : State) (j : Job) (i : Nat) (x : TileIn) : State :=
  let lm := Chain.bf16 j.dc
  let ss := j.stages
  let y := if Chain.yen j.dc then x.st.vecSecond j i else ⟨List.replicate 4096 ⟨0, .none⟩, 0, x.st⟩
  let (masks, s1) := y.st.vecMasks j i
  let ls := ((x.pats.zip y.pats).zip masks).map fun t => Chain.runLane lm j.kt5 ss t.1.1.p t.1.2.p t.2
  let dec := x.pats.map (·.cnt) ++ y.pats.map (·.cnt)
  let sat := satTotal dec + (ls.map (·.sat)).foldl (· + ·) 0
  let nf := nfTotal dec + x.nf + y.nf + (ls.map (·.nf)).foldl (· + ·) 0
  let s2 := (s1.vecCount j.g sat nf).addWrap (Reg.vecStageops j.g) 63 0 ((ls.map (·.evals)).foldl (· + ·) 0)
  let ps := ls.map (·.result)
  let w := j.word
  let s3 := if vcDst w = 0 then s2.chainToTile j i ps else if vcDst w = 1 then s2.chainToTensor j i ps
    else s2.chainToRegs j i ps
  s3.vecBusy j.g j.ctx (Chain.tileCycles lm j.kt5 (vcDst w != 2 && Desc.fmt j.da != 0) (Chain.rnd j.dc == 1) ss)

/-- What a chain counts once, before its first tile: a frozen destination (R194) and clamped tensor exponents (R149). -/
def State.chainStart (s : State) (j : Job) : State :=
  let w := j.word
  let s1 := s.violateIf (vcDst w == 1 && Desc.frozen j.da) (Reg.vecViolcnt j.g) (.ctx j.ctx)
  let s2 := if vcSrc w = 0 then s1.countExp j.g j.ctx j.dx else s1
  let s3 := if vcDst w = 2 then s2 else s2.countExp j.g j.ctx j.da
  if Chain.yen j.dc then s3.countExp j.g j.ctx j.db else s3

/-- One tile of the VCHAIN at the head of the queue. -/
def State.vchainStep (s : State) (j : Job) : State × VecRes :=
  let i := (s.cl j.g).vpos
  match s.vecSource j (vcSrc j.word) (vcIn j.word) j.dx i with
  | none => (s, .wait)
  | some x =>
    let x1 := if i = 0 then { x with st := x.st.chainStart j } else x
    (s.chainTile j i x1, if i + 1 < vcTiles j.word then .more else .done)

/-! ### VRED -/

def vrOp (w : Nat) : Nat := fld (wFN w) 15 13
def vrAcross (w : Nat) : Bool := bit (wFN w) 12
def vrSrc (w : Nat) : Nat := fld w 97 96
def vrToTile (w : Nat) : Bool := bit w 95

def vredReserved (j : Job) : Bool := decide (4 < vrOp j.word) || vrSrc j.word == 3 || vcTiles j.word == 0

def vredFormatBad (j : Job) : Bool := vrSrc j.word == 0 && !fmtOk j.kt5 (Desc.fmt j.da)

/-- One operation of a reduction (R205). -/
def redOp (kt5 : Bool) (op : Nat) (a b : Fp) : Fp × Cnt :=
  let r := match op with
    | 0 => Fp.add a b
    | 3 => Fp.add a b
    | 2 => Fp.min a b
    | _ => Fp.max a b
  let o := Chain.finish false kt5 [a, b] r
  (o.v, o.cnt)

/-- One level of the butterfly: element i < d becomes op(element i, element i + d). -/
def level (f : Fp → Fp → Fp × Cnt) (d : Nat) (xs : List Fp) : List Fp × List Cnt :=
  let rs := ((xs.take d).zip (xs.drop d)).map fun p => f p.1 p.2
  (rs.map (·.1), rs.map (·.2))

/-- Six levels over 64 elements. -/
def butterfly (f : Fp → Fp → Fp × Cnt) (xs : List Fp) : Fp × List Cnt :=
  let r := [32, 16, 8, 4, 2, 1].foldl (fun acc d => let l := level f d acc.1; (l.1, acc.2 ++ l.2)) (xs, [])
  (r.1.headD .zero, r.2)

/-- An element as it enters the tree: its square, or its magnitude. -/
def redIn (kt5 : Bool) (op : Nat) (x : Fp) : Fp × Cnt :=
  if op = 3 then let o := Chain.finish false kt5 [x] (Fp.mul x x); (o.v, o.cnt)
  else if op = 4 then (x.abs, .none)
  else (x, .none)

/-- The 64 results of one tile. -/
def redTile (kt5 : Bool) (op : Nat) (across : Bool) (xs : List Fp) : List Fp × List Cnt :=
  let ins := xs.map (redIn kt5 op)
  let vs := ins.map (·.1)
  let lines := (List.range 64).map fun i =>
    if across then (List.range 64).map fun r => vs.getD (64 * r + i) .zero else (vs.drop (64 * i)).take 64
  let rs := lines.map (butterfly (redOp kt5 op))
  (rs.map (·.1), ins.map (·.2) ++ rs.flatMap (·.2))

/-- A source element as FP32: an integer pattern is widened (R205). -/
def redVal (kt5 : Bool) (int : Bool) (p : BitVec 32) : Fp :=
  if int then Fp.rv .fp32 (.ofInt p.toInt) else Chain.laneFp kt5 p

/-- Place the 64 results (R205). -/
def State.redPlace (s : State) (j : Job) (rs : List (BitVec 32)) : State :=
  if vrToTile j.word then
    s.writeTileRuns j.g j.ctx .tile [(256 * wTB j.word, rs.flatMap fun p => leBytes 4 p.toNat)]
  else s.modCl j.g fun c => { c with vregs := c.vregs.writeN (256 * vcOut j.word) (rs ++ List.replicate 192 0) }

/-- One tile of the VRED at the head of the queue. -/
def State.vredStep (s : State) (j : Job) : State × VecRes :=
  let w := j.word
  let i := (s.cl j.g).vpos
  match s.vecSource j (vrSrc w) (vcIn w) j.da i with
  | none => (s, .wait)
  | some x =>
    let s0 := if i = 0 && vrSrc w = 0 then x.st.countExp j.g j.ctx j.da else x.st
    let int := vrSrc w == 0 && Format.integer (Desc.fmt j.da)
    let (ri, cs) := redTile j.kt5 (vrOp w) (vrAcross w) (x.pats.map fun p => redVal j.kt5 int p.p)
    let prev := (s0.cl j.g).vacc.map f32
    let comb := (prev.zip ri).map fun p => redOp j.kt5 (vrOp w) p.1 p.2
    let (r, cs2) := if i = 0 then (ri, []) else (comb.map (·.1), comb.map (·.2))
    let dec := x.pats.map (·.cnt)
    let all := dec ++ cs ++ cs2
    let s1 := (s0.vecCount j.g (satTotal all) (nfTotal all + x.nf)).vecBusy j.g j.ctx 8
    if i + 1 < vcTiles w then (s1.modCl j.g fun c => { c with vacc := r.map to32 }, .more)
    else ((s1.redPlace j (r.map to32)).modCl j.g fun c => { c with vacc := [] }, .done)

/-! ### VSHUF -/

/-- The source lane of a pattern; none for a reserved code (R204). -/
def shufLane (p l : Nat) : Option Nat :=
  if p < 8 then some (l ^^^ 2 ^ p)
  else if p < 16 then some ((l + 2 ^ (p - 8)) % 256)
  else if p = 0x10 then some (255 - l)
  else if p = 0x11 then some (l % 64)
  else if p = 0x12 then some 0
  else if p = 0x13 then some (64 * (l / 64))
  else none

def vshufPat (w : Nat) : Nat := fld (wFN w) 15 8

def vshufReserved (j : Job) : Bool := decide (0x13 < vshufPat j.word)

def State.vshuf (s : State) (j : Job) : State :=
  let w := j.word
  let r := (s.cl j.g).vregs
  let vs := (List.range 256).map fun l => r.read (256 * vcIn w + (shufLane (vshufPat w) l).getD 0)
  (s.modCl j.g fun c => { c with vregs := c.vregs.writeN (256 * vcOut w) vs }).vecBusy j.g j.ctx 1

/-! ### RMASK (R120) -/

def rmaskReserved (j : Job) : Bool := badDim (fld j.xt 11 9)
def rmaskFormatBad (j : Job) : Bool := !fmtOk j.kt5 (Desc.fmt j.da)

/-- Mask bit (m, n). -/
def rmaskBit (j : Job) (m n : Nat) : Bool :=
  let d := j.da
  decide (Rng.draw16 j.key (Desc.tensorid d) (j.sb % 2 ^ 40) (drawIndex d (fld j.xt 11 9) j.sa m n) (j.sc % 2 ^ 16) < j.fn)

/-- The 64-bit word of row m; rows at or above ROWS are zero. -/
def rmaskWord (j : Job) (m : Nat) : Nat :=
  if m ≤ fld j.xt 8 3 then ((List.range 64).map fun n => b2n (rmaskBit j m n) * 2 ^ n).foldl (· + ·) 0 else 0

def State.rmask (s : State) (j : Job) : State :=
  (s.writeTileRuns j.g j.ctx .tile [(256 * wTB j.word, (List.range 64).flatMap fun m => leBytes 8 (rmaskWord j m))]).vecBusy
    j.g j.ctx 0

end Machine

end Sys2Proof
end

