-- ==== Sys2Proof/Machine/Numerics.lean ====
section
/-! DEFINITION. The numerics class SCALEUPD and HEALTH: the scale record's update and the health table (R123, R149, R152–R155). -/

set_option Elab.async false

namespace Sys2Proof

namespace Machine

/-! ### SCALEUPD (R152) -/

/-- The largest magnitude of a format (R129), as significand and exponent. -/
def fmtMax (f : Nat) : Nat × Int :=
  if f < 3 then (2 ^ (wideFmt f).prec - 1, (wideFmt f).qmax)
  else if f < 5 then (Mini.ofFormat f).mag (Mini.ofFormat f).top
  else if f < 9 then ((intRange f).2.toNat, 0)
  else if f = 15 then (21, 126)
  else blockLargest f

/-- The largest e with m × 2^(x + e) ≤ fm × 2^fe, for m and fm not zero. -/
def headroom (fm : Nat) (fe : Int) (m : Nat) (x : Int) : Int :=
  let k := (bitLen fm : Int) + fe - (bitLen m : Int) - x
  if Fp.magLt fm fe m (x + k) then k - 1 else k

/-- An entry of the history that takes part in the maximum: finite and not negative. -/
def histMag (b : Nat) : Nat :=
  match f32 (BitVec.ofNat 32 b) with
  | .fin n _ _ => if n then 0 else b
  | _ => 0

/-- The record after an update of a tensor of format `f` at a step. -/
def scaleUpdate (f step : Nat) (r : List Byte) : List Byte :=
  let ctl := leAt r 0x0C 4
  let head := fld ctl 3 0
  let hist := setAt ((List.range 16).map fun i => leAt r (0x10 + 4 * i) 4) head (leAt r 8 4)
  let head1 := (head + 1) % 16
  let fill := min (fld ctl 8 4 + 1) 16
  let a := ((List.range fill).map fun i => histMag (hist.getD ((head1 + 15 - i) % 16) 0)).foldl max 0
  let exp := clampI (-64) 64 (toSigned 16 (leAt r 0 2))
  let corr := leAt r 0x50 4
  let (e, corr1) : Int × Nat :=
    if leAt r 4 4 ≠ 0 then (exp - 2, satAdd 32 corr 1)
    else match f32 (BitVec.ofNat 32 a) with
      | .fin _ m x => if m = 0 then (exp, corr) else (headroom (fmtMax f).1 (fmtMax f).2 m x - 1, corr)
      | _ => (exp, corr)
  let fixed := bit (leAt r 2 2) 0
  (if fixed then r.take 2 else leBytes 2 (ofSigned 16 (clampI (-64) 64 e))) ++ (r.drop 2).take 2
    ++ leBytes 4 0 ++ leBytes 4 0 ++ leBytes 4 (setFld (setFld ctl 3 0 head1) 8 4 fill)
    ++ hist.flatMap (leBytes 4) ++ leBytes 4 (if fixed then corr else corr1) ++ leBytes 6 step ++ r.drop 0x5A

def scaleFormatBad (j : Job) : Bool := !fmtOk j.kt5 (Desc.fmt j.da)

def State.scaleupd (s : State) (j : Job) : State :=
  let viol := Reg.vecViolcnt j.g
  let p := Desc.scaleptr j.da
  let s1 :=
    if p = 0 then s
    else
      let (r, t) := s.load viol j.ctx p 128
      let e := toSigned 16 (leAt r 0 2)
      (t.violateIf (decide (e < -64) || decide (64 < e)) viol (.ctx j.ctx)).store viol j.ctx p
        (scaleUpdate (Desc.fmt j.da) j.step r)
  s1.vecBusy j.g j.ctx 0

/-! ### HEALTH (R153–R155) -/

/-- Tallies of one tile. -/
structure Health where
  elems : Nat
  zeros : Nat
  sats : Nat
  nonfin : Nat
  amax : Nat
  /-- Values beyond the FP32 range, which saturate where AMAX takes them (R139). -/
  beyond : Nat
  deriving DecidableEq, Repr

/-- Does a value have the magnitude m × 2^e? -/
def magEq (x : Fp) (m : Nat) (e : Int) : Bool :=
  match x with
  | .fin _ a b => !Fp.magLt a b m e && !Fp.magLt m e a b
  | _ => false

def tally (f : Nat) (ex : Int) (rows : List TileRow) : Health :=
  let (m, e) := fmtMax f
  let vs := rows.flatMap (·.vals)
  ⟨vs.length, vs.countP fun v => v.1.isZero, vs.countP fun v => magEq v.1 m e,
   vs.countP (fun v => v.2) + (rows.map (·.scaleNf)).foldl (· + ·) 0, amaxOf (vs.map fun v => v.1.scale2 (-ex)),
   vs.countP fun v => v.1.isFinite && (Fp.rnd .fp32 (v.1.scale2 (-ex))).2⟩

/-- A record with tallies added (R154). -/
def healthAdd (r : List Byte) (tensor step : Nat) (h : Health) : List Byte :=
  r.take 4 ++ leBytes 3 tensor ++ (r.drop 7).take 1
    ++ leBytes 8 (satAdd 64 (leAt r 8 8) h.elems) ++ leBytes 8 (satAdd 64 (leAt r 0x10 8) h.zeros)
    ++ leBytes 8 (satAdd 64 (leAt r 0x18 8) h.sats) ++ leBytes 8 (satAdd 64 (leAt r 0x20 8) h.nonfin)
    ++ leBytes 6 step ++ (r.drop 0x2E).take 2 ++ leBytes 4 (max (leAt r 0x30 4) h.amax) ++ r.drop 0x34

/-- The bin's record. -/
def healthBin : Nat := 16384

/-- Address of a record of the health table. -/
def State.healthAddr (s : State) (i : Nat) : Nat := fld (s.reg Reg.cfgHlthbase) 51 21 * 2 ^ 21 + 64 * i

/-- May context `c` tally into a slot? -/
def State.healthOwner (s : State) (c i : Nat) : Bool :=
  let w := leNat (s.readPhys 0 (s.healthAddr i) 4).1
  bit w 31 && fld w 11 0 == c

def healthFormatBad (j : Job) : Bool := !fmtOk j.kt5 (Desc.fmt j.da)

/-- HEALTH (R154, R155). An element of a wide format that is not finite is tallied as the record has it and adds nothing to
VEC.NFCNT, which gains the R136 codes and the scale codes FFh alone (DESIGN CHOICE, log 114). -/
def State.health (s : State) (j : Job) : State :=
  let viol := Reg.vecViolcnt j.g
  if s.get Reg.cfgHlthbase 0 0 = 0 then s.violate viol (.ctx j.ctx)
  else
    let f := Desc.fmt j.da
    let slot := fld j.fn 13 0
    let bin := bit j.fn 15
    let own := s.healthOwner j.ctx slot
    let i := if bin || !own then healthBin else slot
    let (bytes, s1) := s.readTile j.g j.ctx .tile (wTA j.word) (Format.span f 64)
    let (ex, s2) := s1.tensorExp j.g j.ctx j.da
    let rows := (List.range 64).map (tileRow j.kt5 f bytes)
    let h := tally f ex rows
    let codes := if Format.wide f then 0 else h.nonfin
    let r := (s2.readPhys 0 (s2.healthAddr i) 64).1
    (((s2.writePhys 0 (s2.healthAddr i) (healthAdd r (Desc.tensorid j.da) j.step h)).violateIf (!bin && !own) viol
      (.ctx j.ctx)).vecCount j.g h.beyond codes).vecBusy j.g j.ctx 0

end Machine

end Sys2Proof
end

