-- ==== Sys2Proof/Machine/Snapshot.lean ====
section
/-! DEFINITION. Snapshots: taking a chrysalis, draining it to the store, restoring, and the store profile (R364–R367, R399–
R418). -/

set_option Elab.async false

namespace Sys2Proof

namespace Machine

def State.modSnp (s : State) (f : Snp → Snp) : State := { s with snp := f s.snp }

/-! ### Slots (R405, R417) -/

def slEmpty : Nat := 0
def slTaking : Nat := 1
def slHeld : Nat := 2
def slDraining : Nat := 3
def slDrained : Nat := 4
def slIncomplete : Nat := 5
def slInvalid : Nat := 6

def State.slotState (s : State) (k : Nat) : Nat := s.get (Reg.snpSlot0 k) 63 61
def State.setSlotState (s : State) (k v : Nat) : State := s.set (Reg.snpSlot0 k) 63 61 v
def State.slotStep (s : State) (k : Nat) : Nat := s.get (Reg.snpSlot0 k) 47 0
def State.slotEpoch (s : State) (k : Nat) : Nat := s.get (Reg.snpSlot1 k) 31 0
def State.slotObjs (s : State) (k : Nat) : List SnapObj := Tab.getD [] s.snp.slots k

/-! ### Taking (R400–R404) -/

/-- An entry of the snapshot list: object number, base, length and flags. -/
def listEntry (b : List Byte) (i : Nat) : Nat × Nat × Nat × Nat :=
  let e := b.drop (32 * i)
  (16 + i, fld (leAt e 0 8) 47 0, fld (leAt e 8 8) 47 0, leAt e 0x10 1 % 4)

/-- Device physical bases of the granules of a range of the job context, none for one that does not translate. -/
def State.rangeGrans (s : State) (c base len : Nat) : List (Option Nat) :=
  (List.range (ceilDiv (base % granBytes + len) granBytes)).map fun i =>
    match s.entry Reg.snpViolcnt c (base / granBytes + i) with
    | some e => if bit e 63 then some (fld e 51 21 * granBytes) else none
    | none => none

/-- The stack in which an entry's granules lie: none where one lies outside HBM or they lie in two. -/
def State.entryStack (s : State) (c base len : Nat) : Option Nat :=
  match s.rangeGrans c base len with
  | [] => some 0
  | g :: rest =>
    match g with
    | none => none
    | some a =>
      match hbmStack a with
      | none => none
      | some t => if rest.all fun x => match x with
          | some b => hbmStack b == some t
          | none => false then some t else none

/-- An entry that R403 refuses. -/
def State.entryBad (s : State) (c : Nat) (e : Nat × Nat × Nat × Nat) : Bool :=
  let (_, base, len, fl) := e
  let al := if bit fl 1 then granBytes else 4096
  base % al != 0 || len % al != 0 || (s.entryStack c base len).isNone ||
    (bit fl 1 && (s.rangeGrans c base len).any fun x => match x with
      | some a => !s.attached c a
      | none => true)

/-- Health slots of a context, as object 2 holds them (R399). -/
def State.healthObject (s : State) (c : Nat) : List Byte :=
  (List.range healthBin).flatMap fun i =>
    if s.healthOwner c i then leBytes 4 i ++ (s.readPhys 0 (s.healthAddr i) 64).1 else []

/-- Does device physical address `a` lie in a record that object 2 copies? -/
def State.healthReads (s : State) (c a : Nat) : Bool :=
  let i := (a - s.healthAddr 0) / 64
  decide (s.healthAddr 0 ≤ a) && decide (i < healthBin) && s.healthOwner c i

/-- Bytes that the objects of a list need on each channel; objects 1 and 2 go to channel 0. -/
def State.channelBytes (s : State) (c : Nat) (es : List (Nat × Nat × Nat × Nat)) (ch : Nat) : Nat :=
  ((es.filter fun e => !bit e.2.2.2 1 && s.entryStack c e.2.1 e.2.2.1 == some ch).map fun e => e.2.2.1).sum
    + (if ch = 0 then 256 + (s.healthObject c).length else 0)

/-- Bytes of half an area (R417). -/
def State.areaHalf (s : State) (ch : Nat) : Nat := s.get (Reg.snpArea ch) 20 0 * 2 ^ 20

/-- Some channel's area half is too small. -/
def State.areaSmall (s : State) (c : Nat) (es : List (Nat × Nat × Nat × Nat)) : Bool :=
  (List.range 12).any fun ch => decide (s.areaHalf ch < s.channelBytes c es ch)

/-- The objects' bytes enter slot `k` of each channel's area, encrypted under the job context's key; how they lie there is
internal to the device (R404). -/
def State.writeSlot (s : State) (c k : Nat) (es : List (Nat × Nat × Nat × Nat)) : State :=
  (List.range 12).foldl (fun t ch =>
    let lo := t.get (Reg.snpArea ch) 51 21 * granBytes + k * t.areaHalf ch
    t.veil (t.accessKey c lo) lo (lo + ceilDiv (s.channelBytes c es ch) 16 * 16)) s

/-- The snapshot list: NENT and its entries. -/
def State.snapList (s : State) (c a : Nat) : Nat × List (Nat × Nat × Nat × Nat) × State :=
  let (h, s1) := s.load Reg.snpViolcnt c (a / 64 * 64) 64
  let n := leAt h 0 4
  let (b, s2) := s1.load Reg.snpViolcnt c (a / 64 * 64 + 64) (32 * min n 4096)
  (n, (List.range (min n 4096)).map (listEntry b), s2)

/-- SNAPTAKE refuses with BUSY (R403). -/
def State.takeBusy (s : State) (k : Nat) : Bool :=
  let st := s.cstate s.jobCtx
  s.get Reg.chkStat 31 31 == 1 || liveState st || st == stCocooned ||
    [slTaking, slHeld, slDraining].contains (s.slotState k)

/-- SNAPTAKE. -/
def State.snaptake (s : State) (c : Cmd) : State :=
  let e := fld c.arg0 31 0
  let k := e % 2
  let j := s.jobCtx
  if s.takeBusy k then s.completeCmd c stBusy
  else if s.get Reg.snpEpoch 63 63 = 1 && !newer32 e (s.get Reg.snpEpoch 31 0) then s.completeCmd c stStale
  else if (s.ctx j).commit != some (s.get Reg.stpStepcnt 47 0) then s.completeCmd c stMismatch
  else
    let (n, es, t) := s.snapList j (fld c.arg1 47 0)
    if 4096 < n || es.any (t.entryBad j) || t.areaSmall j es then t.completeCmd c stMismatch
    else
      let t1 := (t.setReg (Reg.snpSlot0 k) (slTaking * 2 ^ 61 + t.get Reg.stpStepcnt 47 0)).setReg (Reg.snpSlot1 k) e
      t1.modSnp fun x => { x with slots := Tab.put x.slots k [], takes := Tab.put x.takes k ⟨c, e, c.arg2, es⟩ }

def execSnaptake (q : Nat) (s : State) : Host.Outcome State Fault Refusal := .next (s.service q 0xB0 fun c t => t.snaptake c)

/-- SHAKE256 with its 32-byte output (R404, R408). -/
def digest32 (bs : List Byte) : List Byte := Keccak.shake256 bs 32

/-- The device state block (R401). -/
def stateBlock (step sample devid epoch : Nat) : List Byte :=
  leBytes 6 step ++ leBytes 2 0 ++ leBytes 6 (step + 1) ++ leBytes 2 0 ++ leBytes 8 sample ++ leBytes 8 ((step + 1) % 2 ^ 40) ++ leBytes 4 devid ++
    leBytes 4 epoch ++ List.replicate 216 0

/-- An object with its digest. -/
def snapObj (no flags base : Nat) (bs : List Byte) (keep : Bool) : SnapObj :=
  ⟨no, flags, bs.length, base, if keep then Memory.ofList 0 bs else [], digest32 bs⟩

/-- Bytes of resident granules. -/
def State.granBytesOf (s : State) (gs : List (Option Nat)) : List Byte :=
  gs.flatMap fun g => match g with
    | some a => (List.range granBytes).map fun i => s.hbmByte (a + i)
    | none => []

/-- The object of one list entry. For SHARED the digest is of the resident granules, and REFCNT that of the first. -/
def State.takeEntry (s : State) (c : Nat) (e : Nat × Nat × Nat × Nat) : SnapObj :=
  let (no, base, len, fl) := e
  if bit fl 1 then
    let gs := s.rangeGrans c base len
    let ref := match gs with
      | some a :: _ => (match hbmStack a with
        | some t => (match s.sharedIndex t a with
          | some i => ((Tab.find (Tab.getD [] s.shared t) i).map fun x => x.count.toNat).getD 0
          | none => 0)
        | none => 0)
      | _ => 0
    { snapObj no (fl + ref * 2 ^ 12) base (s.granBytesOf gs) false with len := len }
  else snapObj no fl base (s.readVa Reg.snpViolcnt c base len).1 true

/-- A take ends without its objects: the slot is INVALID (R405). -/
def State.endTake (s : State) (k : Nat) (c : Cmd) (st : Nat) : State :=
  ((s.modSnp fun x => { x with takes := Tab.erase x.takes k }).setSlotState k slInvalid).completeCmd c st

/-- Every object of a take is in the slot. Values are those that memory holds at completion. -/
def State.holdTake (s : State) (k : Nat) (t : Take) : State :=
  let j := s.jobCtx
  let b := stateBlock (s.slotStep k) t.sample s.devid t.epoch
  let objs := snapObj 1 0 0 b true :: snapObj 2 0 0 (s.healthObject j) true :: t.entries.map (s.takeEntry j)
  let (d, s0) := (s.writeSlot j k t.entries).draw
  let s1 := (s0.modSnp fun x => { x with slots := Tab.put x.slots k objs, takes := Tab.erase x.takes k, takeUs := some d })
  ((s1.setSlotState k slHeld).setReg Reg.snpEpoch (2 ^ 63 + t.epoch)).completeCmd t.cmd stOk

/-- Does an entry of a take's list read device physical address `a` (R404)? The granules of a SHARED entry are read whole. -/
def State.entryReads (s : State) (e : Nat × Nat × Nat × Nat) (a : Nat) : Bool :=
  let (_, base, len, fl) := e
  (s.rangeGrans s.jobCtx base len).zipIdx.any fun x => match x.1 with
    | none => false
    | some p =>
      let va := (base / granBytes + x.2) * granBytes + (a - p)
      decide (p ≤ a) && decide (a < p + granBytes) && (bit fl 1 || decide (base ≤ va) && decide (va < base + len))

/-- Does a take read device physical address `a`, for an entry of its list or for object 2? -/
def State.takeReads (s : State) (t : Take) (a : Nat) : Bool :=
  (t.entries.any fun r => s.entryReads r a) || s.healthReads s.jobCtx a

/-- Uncorrectable errors of HBM or DDR5 end every take that reads one of their addresses with INCOMPLETE, and its slot is
INVALID (R404, R405). -/
def State.failTakes (s : State) (es : List FaultIn) : State :=
  let bad := es.filter fun e => !e.corrected && (e.source == 4 || e.source == 5)
  s.snp.takes.foldl (fun t x =>
    if bad.any fun e => s.takeReads x.2 e.addr then t.endTake x.1 x.2.cmd stIncomplete else t) s

/-- TAKE_COMPLETE: every object of the oldest take is in the slot (R405). -/
def execTakeComplete (s : State) : Host.Outcome State Fault Refusal :=
  .next (s.whenRunning <|
    match s.snp.takes with
    | [] => s
    | (k, t) :: _ => s.holdTake k t)

/-! ### The manifest (R408) -/

def objRecord (o : SnapObj) : List Byte :=
  leBytes 4 o.no ++ leBytes 4 o.flags ++ leBytes 8 o.len ++ leBytes 16 o.base ++
    o.digest

def manifestBody (objs : List SnapObj) : List Byte := objs.flatMap objRecord

def manifestHeader (devid epoch step : Nat) (objs : List SnapObj) : List Byte :=
  let body := manifestBody objs
  leBytes 4 epoch ++ leBytes 2 devid ++ leBytes 2 1 ++ leBytes 8 step ++ leBytes 4 objs.length ++ leBytes 4 (128 + body.length)
    ++ leBytes 8 0 ++ digest32 body
    ++ digest32 ((objs.filter fun (o : SnapObj) => bit o.flags 0).flatMap SnapObj.digest) ++ leBytes 32 0

def State.manifestOf (s : State) (k : Nat) : List Byte :=
  let objs := s.slotObjs k
  manifestHeader s.devid (s.slotEpoch k) (s.slotStep k) objs ++ manifestBody objs

/-! ### Store transactions (R364–R367) -/

/-- Outstanding transactions of a port. -/
def State.txnLoad (s : State) (m : Nat) : Nat := (s.snp.txns.filter fun x => x.2.port == m).length

def State.storeUp (s : State) : List Nat := (List.range 32).filter fun m => s.isStore m && s.linkUp m

/-- An UP store port with room for a transaction: the one with the fewest. -/
def State.storePort (s : State) : Option Nat :=
  (s.storeUp.filter fun m => decide (s.txnLoad m < 256)).foldl (fun acc m =>
    match acc with
    | none => some m
    | some k => if s.txnLoad m < s.txnLoad k then some m else some k) none

/-- The store header (R365). -/
def storeHeader (epoch obj off slen : Nat) : List Byte :=
  leBytes 4 epoch ++ leBytes 4 obj ++ leBytes 6 off ++ leBytes 3 slen ++ leBytes 7 0

/-- The next place in the order in which requests are sent. -/
def State.nextSent (s : State) : Nat := s.snp.txns.foldl (fun n x => max n (x.2.sent + 1)) 0

/-- Send a request on a store port; its XID. -/
def State.storeSend (s : State) (m op slot epoch obj off slen size : Nat) (data : List Byte) : Nat × State :=
  let xid := s.snp.nextXid
  let p : Packet := ⟨0, s.devid, 2, op, false, xid, storeHeader epoch obj off slen ++ data⟩
  let s1 := s.modSnp fun x => { x with nextXid := (xid + 1) % 2 ^ 32, txns := Tab.put x.txns xid ⟨m, op, slot, p.bytes, size, 0, s.nextSent⟩ }
  (xid, (s1.sendOn m 3 none p.bytes).1)

/-- Send a request that had to wait. -/
def State.sendAsk (s : State) (m : Nat) (a : StoreAsk) : State :=
  match a with
  | .query c =>
    let (xid, t) := s.storeSend m 0x26 0 0 0 0 0 0 []
    t.modSnp fun x => { x with queries := Tab.put x.queries xid c }
  | .read e obj off n => (s.storeSend m 0x22 0 e obj off n 0 []).2

/-- Send the requests that wait, as far as the ports have room. -/
def State.pumpAsks (s : State) : Nat → State
  | 0 => s
  | fuel + 1 =>
    match s.snp.asks, s.storePort with
    | a :: rest, some m => ((s.modSnp fun x => { x with asks := rest }).sendAsk m a).pumpAsks fuel
    | _, _ => s

/-- Ask a store port; the request waits while every UP port has 256 transactions outstanding (R367). -/
def State.ask (s : State) (a : StoreAsk) : State :=
  (s.modSnp fun x => { x with asks := x.asks ++ [a] }).pumpAsks (s.snp.asks.length + 1)

/-- A read of a restore. -/
def StoreAsk.isRead (a : StoreAsk) : Bool :=
  match a with
  | .read _ _ _ _ => true
  | .query _ => false

/-- The reads of a restore are forgotten, those that wait and those outstanding. -/
def State.forgetReads (s : State) : State :=
  s.modSnp fun x => { x with asks := x.asks.filter fun a => !a.isRead, txns := x.txns.filter fun t => t.2.op != 0x22 }

def State.dropTxn (s : State) (xid : Nat) : State := s.modSnp fun x => { x with txns := Tab.erase x.txns xid }

/-! ### Draining (R406, R407) -/

def State.storeKey (s : State) : List Byte := s.sec.storeKey

/-- The tweak of a data unit. -/
def storeTweak (devid epoch obj off : Nat) : List Byte :=
  leBytes 16 (off / 512 % 2 ^ 39 + devid * 2 ^ 39 + obj % 2 ^ 32 * 2 ^ 64 + epoch % 2 ^ 32 * 2 ^ 96)

/-- Bytes of an object from a multiple of 512 on, through a cipher of one data unit. -/
def cryptUnits (f : List Byte → List Byte → List Byte → List Byte) (key : List Byte) (devid epoch obj : Nat) (off : Nat)
    (bs : List Byte) : List Byte :=
  (List.range (ceilDiv bs.length 512)).flatMap fun i =>
    f key (storeTweak devid epoch obj (off + 512 * i)) ((bs.drop (512 * i)).take 512)

/-- Bytes per SWRITE. -/
def writeBytes : Nat := 3584

/-- The writes of an object's bytes from an offset on. -/
def writesOf (obj off : Nat) (bs : List Byte) : List (Nat × Nat × List Byte) :=
  (List.range (ceilDiv bs.length writeBytes)).map fun i => (obj, off + writeBytes * i, (bs.drop (writeBytes * i)).take writeBytes)

/-- All writes of a drain: the objects in ascending order, then the manifest's body. -/
def State.drainWrites (s : State) (k : Nat) : List (Nat × Nat × List Byte) :=
  ((s.slotObjs k).filter fun o => !bit o.flags 1).flatMap (fun o =>
    writesOf o.no 0 (cryptUnits Aes.xtsEncrypt s.storeKey s.devid (s.slotEpoch k) o.no 0 (o.data.readN 0 o.len)))
  ++ writesOf 0 128 (manifestBody (s.slotObjs k))

/-- Send what the ports have room for; the manifest's header goes once every SWACK is in. -/
def State.pumpDrain (s : State) (k : Nat) : Nat → State
  | 0 => s
  | fuel + 1 =>
    match Tab.find s.snp.drains k with
    | none => s
    | some d =>
      match d.todo, s.storePort with
      | (obj, off, bs) :: rest, some m =>
        let s1 := s.modSnp fun x => { x with drains := Tab.put x.drains k { d with todo := rest } }
        ((s1.storeSend m 0x20 k (s.slotEpoch k) obj off bs.length bs.length bs).2).pumpDrain k fuel
      | [], some m =>
        if d.stage = 0 && !s.snp.txns.any fun x => x.2.slot == k && x.2.op == 0x20 then
          let s1 := s.modSnp fun x => { x with drains := Tab.put x.drains k { d with stage := 1 } }
          (s1.storeSend m 0x24 k (s.slotEpoch k) 0 0 128 128 ((s.manifestOf k).take 128)).2
        else s
      | _, none => s

/-- Continue a drain. -/
def State.drainOn (s : State) (k : Nat) : State :=
  s.pumpDrain k (((Tab.find s.snp.drains k).map fun d => d.todo.length).getD 0 + 1)

/-- A port has room again: what waits goes on, requests first and then the drains of both slots (R406). -/
def State.pumpStore (s : State) : State := ((s.pumpAsks s.snp.asks.length).drainOn 0).drainOn 1

/-- A drain ends early: its transactions are forgotten, and the slot is INCOMPLETE (R405). -/
def State.failDrain (s : State) (k st : Nat) : State :=
  match Tab.find s.snp.drains k with
  | none => s
  | some d =>
    let s1 := s.modSnp fun x => { x with drains := Tab.erase x.drains k,
                                         txns := x.txns.filter fun t => !(t.2.slot == k && (t.2.op == 0x20 || t.2.op == 0x24)) }
    (s1.setSlotState k slIncomplete).completeCmd d.cmd st

/-- SNAPDRAIN. With no store port UP its transactions end with LINK_DOWN. -/
def State.snapdrain (s : State) (c : Cmd) : State :=
  let k := c.arg0 % 2
  if s.slotState k != slHeld && s.slotState k != slIncomplete then s.completeCmd c stBusy
  else
    let s1 := (s.setSlotState k slDraining).setReg Reg.snpProgress 0
    let s2 := s1.modSnp fun x => { x with drains := Tab.put x.drains k ⟨c, s.drainWrites k, 0⟩ }
    if s2.storeUp.isEmpty then s2.failDrain k stLinkDown else s2.drainOn k

def execSnapdrain (q : Nat) (s : State) : Host.Outcome State Fault Refusal := .next (s.service q 0xB1 fun c t => t.snapdrain c)

/-! ### Replies: header fields of a store packet -/

def Packet.xid (p : Packet) : Nat := fld p.arg 31 0
def Packet.status (p : Packet) : Nat := leAt p.data 0x11 1

/-- The transaction that a reply answers, when its operation is the one asked for. -/
def State.txnFor (s : State) (m : Nat) (p : Packet) (op : Nat) : Option Txn :=
  match Tab.find s.snp.txns p.xid with
  | some t => if t.port = m && t.op = op then some t else none
  | none => none

/-- Handle a store reply; an unknown XID is discarded and counted (R373). -/
def State.onReply (s : State) (m op req : Nat) (body : Packet → Txn → State → State) : State :=
  s.onPacket m op anyPacket fun p t =>
    match t.txnFor m p req with
    | none => t.mdlViolate
    | some x => (body p x t).pumpStore

/-- SWACK. -/
def execSwack (m : Nat) (s : State) : Host.Outcome State Fault Refusal :=
  .next (s.onReply m 0x21 0x20 fun p x t =>
    let t1 := t.dropTxn p.xid
    if p.status = stOk then t1.addSat Reg.snpProgress 63 0 x.size else t1.failDrain x.slot stNoResource)

/-- SMACK. -/
def execSmack (m : Nat) (s : State) : Host.Outcome State Fault Refusal :=
  .next (s.onReply m 0x25 0x24 fun p x t =>
    match Tab.find t.snp.drains x.slot with
    | none => t.dropTxn p.xid
    | some d =>
      let (us, t0) := (t.dropTxn p.xid).draw
      let t1 := t0.modSnp fun y => { y with drains := Tab.erase y.drains x.slot, drainUs := some us }
      ((t1.addSat Reg.snpProgress 63 0 x.size).setSlotState x.slot slDrained).completeCmd d.cmd stOk)

/-! ### STQUERY -/

/-- STQUERY: LINK_DOWN with no store port UP. -/
def execStquery (q : Nat) (s : State) : Host.Outcome State Fault Refusal :=
  .next (s.service q 0xB4 fun c t => if t.storeUp.isEmpty then t.completeCmd c stLinkDown else t.ask (.query c))

/-- Complete a query. -/
def State.endQuery (s : State) (xid st : Nat) : State :=
  match Tab.find s.snp.queries xid with
  | none => s
  | some c => (s.modSnp fun x => { x with queries := Tab.erase x.queries xid }).completeCmd c st

/-- SQINFO: newest valid epoch and the one before it. -/
def execSqinfo (m : Nat) (s : State) : Host.Outcome State Fault Refusal :=
  .next (s.onReply m 0x27 0x26 fun p _ t =>
    let t1 := t.dropTxn p.xid
    if p.status = stStale then t1.endQuery p.xid stStale
    else (t1.setReg Reg.snpStq (leAt p.data 24 4 * 2 ^ 32 + leAt p.data 28 4)).endQuery p.xid stOk)

/-! ### Restoring (R412–R414) -/

/-- The restore ends with a failure: SNP.RSTAT reads FAILED with its status. -/
def State.failRestore (s : State) (st : Nat) : State :=
  match s.snp.restore with
  | none => s
  | some r =>
    let s1 := (s.modSnp fun x => { x with restore := none }).forgetReads
    ((s1.set Reg.snpRstat 63 56 st).set Reg.snpRstat 55 53 4).completeCmd r.cmd st

/-- The restore begins: the job's page records go, and so do its attachments. -/
def State.beginRestore (s : State) (e : Nat) : State :=
  let j := s.jobCtx
  let s1 := (s.enabledPools.filter fun k => s.poolOwner k == j).foldl (fun t k => t.clearPool k) s
  ((s1.detachAll j).setReg Reg.snpRstat (1 * 2 ^ 53 + e))

def mRec (m : List Byte) (i : Nat) : List Byte := (m.drop (128 + 64 * i)).take 64
def mNobj (m : List Byte) : Nat := leAt m 0x10 4
def mLength (m : List Byte) : Nat := leAt m 0x14 4

/-- A manifest whose digest, device, version, epoch or length is wrong. -/
def State.manifestBad (s : State) (e : Nat) (m : List Byte) : Bool :=
  leAt m 0 4 != e || leAt m 4 2 % 4096 != s.devid || leAt m 6 1 != 1 || mLength m != 128 + 64 * mNobj m
    || (m.drop 0x20).take 32 != digest32 ((m.drop 128).take (mLength m - 128))

/-- Read the store for a restore: on the UP store port with the fewest transactions, once one has room. -/
def State.restoreRead (s : State) (e obj off n : Nat) : State :=
  if s.storeUp.isEmpty then s.failRestore stLinkDown else s.ask (.read e obj off n)

/-- Attach the job context to the granules of a SHARED record, all or none as SHATTACH does (R291); false for NO_RESOURCE, when
a table is full or absent. A granule that another record has attached stays so (log 120). -/
def State.reattach (s : State) (c : Nat) (gs : List (Option Nat)) : State × Bool :=
  let s0 := s.countMapReads c (gs.filterMap id)
  let new := ((gs.filterMap id).filter fun x => !s.attached c x).eraseDups
  let fits := (List.range 12).all fun t =>
    let here := new.filter fun x => hbmStack x == some t
    here.isEmpty || (s.get (Reg.ldgShbase t) 51 21 != 0 && s.tableRoom t here)
  if fits then (new.foldl (fun u x => u.attach ((hbmStack x).getD 0) c x) s0, true) else (s0, false)

/-- Number of the health slot that entry `i` of object 2 restores. -/
def healthEntry (bs : List Byte) (i : Nat) : Nat := leAt bs (68 * i) 4

/-- The health slot of an entry belongs to another context. -/
def State.foreignSlot (s : State) (c : Nat) (bs : List Byte) (i : Nat) : Bool :=
  let w := leNat (s.readPhys 0 (s.healthAddr (healthEntry bs i)) 4).1
  bit w 31 && fld w 11 0 != c

/-- Restore one health slot, unless it belongs to another context. -/
def State.restoreSlot (s : State) (c : Nat) (bs : List Byte) (i : Nat) : State :=
  if s.foreignSlot c bs i then s
  else s.writePhys 0 (s.healthAddr (healthEntry bs i)) ((bs.drop (68 * i + 4)).take 64)

/-- Restore health slots (object 2); false where a slot belongs to another context. -/
def State.restoreHealth (s : State) (c : Nat) (bs : List Byte) : State × Bool :=
  ((List.range (bs.length / 68)).foldl (fun t i => t.restoreSlot c bs i) s,
   !(List.range (bs.length / 68)).any (s.foreignSlot c bs))

/-- Restore a SHARED record: the resident granules are digested, the job context is attached, and the digest is compared, in
that order (R412). -/
def State.placeShared (s : State) (gs : List (Option Nat)) (dig : List Byte) : State × Option Nat :=
  if gs.any fun g => match g with
      | some a => (hbmStack a).isNone
      | none => true then (s, some stMismatch)
  else
    let (t, ok) := s.reattach s.jobCtx gs
    (t, if !ok then some stNoResource else if digest32 (s.granBytesOf gs) = dig then none else some stMismatch)

/-- The bytes of an object go to their place; the state block (object 1) and the health slots (object 2) are kept. -/
def State.placeBytes (s : State) (j no base : Nat) (bs : List Byte) : State :=
  if no = 1 || no = 2 then s else s.store Reg.snpViolcnt j base bs

/-- The digest of an object must agree, and in the state block NEXTSTEP with STEP (R412). -/
def checkObject (no : Nat) (dig bs : List Byte) : Option Nat :=
  if digest32 bs == dig && (no != 1 || leAt bs 8 6 == fld (leAt bs 0 6 + 1) 47 0) then none else some stMismatch

/-- The fields of a manifest record (R408): object number, flags, base, length and digest. -/
def recNo (rc : List Byte) : Nat := leAt rc 0 4
def recFlags (rc : List Byte) : Nat := leAt rc 4 4
def recBase (rc : List Byte) : Nat := leAt rc 0x10 6
def recLen (rc : List Byte) : Nat := leAt rc 8 6
def recDigest (rc : List Byte) : List Byte := (rc.drop 0x20).take 32

/-- The next record: the digest of an object of the model is kept, and so are the state block and the health slots, until
every object is in place (R412). -/
def Restore.past (r : Restore) (rc bs : List Byte) : Restore :=
  { r with
    next := r.next + 1
    buf := []
    digests := if bit (recFlags rc) 0 then r.digests ++ recDigest rc else r.digests
    block := if recNo rc = 1 && !bit (recFlags rc) 1 then bs else r.block
    health := if recNo rc = 2 && !bit (recFlags rc) 1 then bs else r.health }

/-- Restore one object; the status with which that fails, none when it is in place. -/
def State.placeObject (s : State) (rc bs : List Byte) : State × Option Nat :=
  if bit (recFlags rc) 1 then s.placeShared (s.rangeGrans s.jobCtx (recBase rc) (recLen rc)) (recDigest rc)
  else (s.placeBytes s.jobCtx (recNo rc) (recBase rc) bs, checkObject (recNo rc) (recDigest rc) bs)

/-- Restore records from `r.next` on as far as the bytes at hand reach: `get` gives an object's bytes from a slot, and none
where the store must be read. -/
def State.restoreGo (s : State) (get : Nat → Option (List Byte)) : Nat → State
  | 0 => s
  | fuel + 1 =>
    match s.snp.restore with
    | none => s
    | some r =>
      if r.ready then s
      else if mNobj r.manifest ≤ r.next then
        let (t, ok) := s.restoreHealth s.jobCtx r.health
        if ok then t.modSnp fun x => { x with restore := some { r with ready := true } } else t.failRestore stNoResource
      else
        let rc := mRec r.manifest r.next
        let len := recLen rc
        let bs := match get (recNo rc) with
          | some b => some b
          | none => if bit (recFlags rc) 1 || len ≤ r.buf.length then
              some (cryptUnits Aes.xtsDecrypt s.storeKey s.devid r.epoch (recNo rc) 0 (r.buf.take len)) else none
        match bs with
        | none => s.restoreRead r.epoch (recNo rc) r.buf.length (min 1048576 (len - r.buf.length))
        | some b =>
          let (t, fail) := s.placeObject rc b
          let t1 := t.modSnp fun x => { x with restore := some (r.past rc b) }
          match fail with
          | some st => t1.failRestore st
          | none => t1.restoreGo get fuel

def State.restoreOn (s : State) (get : Nat → Option (List Byte)) : State := s.restoreGo get 4100

/-- RESTORE is refused with BUSY. -/
def State.restoreBusy (s : State) : Bool :=
  s.get Reg.chkStat 31 31 == 1 || s.cstate s.jobCtx != stBound || !s.snp.takes.isEmpty || s.snp.restore.isSome

/-- The local slot that holds an epoch. -/
def State.slotWith (s : State) (e : Nat) : Option Nat :=
  [0, 1].find? fun k => s.slotEpoch k == e && [slHeld, slDraining, slDrained, slIncomplete].contains (s.slotState k)

/-- RESTORE. -/
def State.restore (s : State) (c : Cmd) : State :=
  let e := fld c.arg0 31 0
  if s.restoreBusy then s.completeCmd c stBusy
  else if s.get Reg.snpRstat 55 53 = 3 && s.get Reg.snpRstat 31 0 = e then s.completeCmd c stOk
  else
    let r : Restore := ⟨c, e, [], 0, [], [], [], [], false⟩
    if bit c.arg0 32 then
      match s.slotWith e with
      | none => s.completeCmd c stMismatch
      | some k =>
        let m := s.manifestOf k
        let s1 := (s.beginRestore e).modSnp fun x => { x with restore := some { r with manifest := m } }
        if s1.manifestBad e m then s1.failRestore stMismatch
        else s1.restoreOn fun no => ((s.slotObjs k).find? fun o => o.no == no).map fun o => o.data.readN 0 o.len
    else
      (s.modSnp fun x => { x with restore := some r }).restoreRead e 0 0 128

def execRestore (q : Nat) (s : State) : Host.Outcome State Fault Refusal := .next (s.service q 0xB2 fun c t => t.restore c)

/-- No object lies in a slot. -/
def fromStore (_ : Nat) : Option (List Byte) := none

/-- Bytes of the manifest have come: its header first, then its body, then the records. -/
def State.manifestData (s : State) (r : Restore) (last : Bool) : State :=
  if !last then s
  else if r.manifest.length < 128 then s.restoreRead r.epoch 0 r.manifest.length (128 - r.manifest.length)
  else if mLength r.manifest != 128 + 64 * mNobj r.manifest || 4098 < mNobj r.manifest then s.failRestore stMismatch
  else if r.manifest.length < mLength r.manifest then
    s.restoreRead r.epoch 0 r.manifest.length (mLength r.manifest - r.manifest.length)
  else if s.manifestBad r.epoch r.manifest then s.failRestore stMismatch
  else s.restoreOn fromStore

/-- Bytes that a packet brings take their place among those at hand by their OFFSET (R365), so that a reply which the endpoint
repeats brings nothing twice. Data comes in ascending OFFSET: what lies beyond a gap is not taken, and is read again (log 65). -/
def spliceAt (off : Nat) (xs ys : List Byte) : List Byte :=
  if off ≤ xs.length then xs.take off ++ ys ++ xs.drop (off + ys.length) else xs

/-- SRDATA: bytes of the manifest in plaintext, or of an object, which the store key decrypts. -/
def State.srdata (s : State) (p : Packet) (last : Bool) : State :=
  match s.snp.restore with
  | none => s
  | some r =>
    let body := (p.data.drop 24).take (leAt p.data 0x0E 3)
    let off := leAt p.data 8 6
    if p.status = stStale then
      if s.get Reg.snpRstat 55 53 = 1 then s.failRestore stStale
      else ((s.modSnp fun x => { x with restore := none }).forgetReads).completeCmd r.cmd stStale
    else if leAt p.data 4 4 = 0 then
      let s1 := if s.get Reg.snpRstat 55 53 = 1 && !r.manifest.isEmpty then s else s.beginRestore r.epoch
      let r1 := { r with manifest := spliceAt off r.manifest body }
      (s1.modSnp fun x => { x with restore := some r1 }).manifestData r1 last
    else
      let s1 := s.modSnp fun x => { x with restore := some { r with buf := spliceAt off r.buf body } }
      if last then s1.restoreOn fromStore else s1

def execSrdata (m : Nat) (s : State) : Host.Outcome State Fault Refusal :=
  .next (s.onReply m 0x23 0x22 fun p _ t => (if p.last then t.dropTxn p.xid else t).srdata p p.last)

/-- RESTORE_COMPLETE: every object is in place, and the device state block is applied (R413, R414). -/
def execRestoreComplete (s : State) : Host.Outcome State Fault Refusal :=
  .next (s.whenRunning <|
    match s.snp.restore with
    | none => s
    | some r =>
      if !r.ready then s
      else
        let step := leAt r.block 0 6
        let next := leAt r.block 8 6
        let pos := leAt r.block 0x18 7
        let red := fld pos 39 0 != next % 2 ^ 40 || fld pos 55 40 != 0
        let st := if red then stRngRederived else stOk
        let dig := digest32 r.digests
        let s1 := (s.setReg Reg.stpStepcnt step).modCtx s.jobCtx fun x => { x with commit := none }
        let s2 := (s1.set Reg.stpBargen 15 0 0).modStp fun x =>
          { x with audGen := 0, granted := 0, consumed := 0, arrived := [], restart := false, drops := [], latch := none,
                   ballots := [], gballots := [] }
        let s3 := { s2 with chk := { s2.chk with suspects := [], fault := s2.get Reg.chkStat 31 31 == 1 } }
        let s4 := (s3.setReg Reg.snpEpoch (2 ^ 63 + r.epoch)).setReg Reg.snpRcursor (leAt r.block 0x10 8)
        let s5 := (List.range 4).foldl (fun t i => t.setReg (Reg.snpRdigest i) (leAt dig (8 * i) 8)) s4
        let s6 := s5.setReg Reg.snpRstat (st * 2 ^ 56 + 2 * 2 ^ 53 + b2n red * 2 ^ 52 + r.epoch)
        (s6.modSnp fun x => { x with restore := none }).completeCmd r.cmd st)

/-- SNPVERIFY (R415). -/
def execSnpverify (q : Nat) (s : State) : Host.Outcome State Fault Refusal :=
  .next (s.service q 0xB3 fun c t =>
    let st := t.get Reg.snpRstat 55 53
    if st != 2 && st != 3 then t.completeCmd c stBusy
    else
      let d := (List.range 4).flatMap fun i => leBytes 8 (t.reg (Reg.snpRdigest i))
      if (c.entry.drop 32).take 32 = d then (t.set Reg.snpRstat 55 53 3).completeCmd c stOk
      else (t.set Reg.snpRstat 55 53 4).completeCmd c stMismatch)

/-! ### Transactions that fail (R367, R405, R412, R418) -/

/-- A transaction ends with a status. -/
def State.endTxn (s : State) (xid st : Nat) : State :=
  match Tab.find s.snp.txns xid with
  | none => s
  | some x =>
    let t := s.dropTxn xid
    if x.op = 0x26 then t.endQuery xid st
    else if x.op = 0x22 then t.failRestore st
    else t.failDrain x.slot st

/-- The transaction whose request was sent longest ago: the next that expires (log 65). -/
def State.oldestTxn (s : State) : Option (Nat × Txn) :=
  s.snp.txns.foldl (fun b x =>
    match b with
    | none => some x
    | some y => if x.2.sent < y.2.sent then some x else some y) none

/-- STORE_TIMEOUT: the transaction sent longest ago is repeated with the same XID, three times in all; then it ends with
TIMEOUT (R367). A repeat goes to the end of the order. -/
def execStoreTimeout (s : State) : Host.Outcome State Fault Refusal :=
  .next (s.whenRunning <|
    match s.oldestTxn with
    | none => s
    | some (xid, x) =>
      if x.repeats < 3 then
        ((s.modSnp fun y => { y with txns := Tab.put y.txns xid { x with repeats := x.repeats + 1, sent := s.nextSent } }).sendOn
          x.port 3 none x.request).1
      else (s.endTxn xid stTimeout).pumpStore)

/-- What waits for a store port ends with LINK_DOWN when none is UP any more. -/
def State.dropWaiting (s : State) : State :=
  let asks := s.snp.asks
  let s1 := asks.foldl (fun t a => match a with
    | .query c => t.completeCmd c stLinkDown
    | .read _ _ _ _ => t.failRestore stLinkDown) (s.modSnp fun x => { x with asks := [] })
  (s1.failDrain 0 stLinkDown).failDrain 1 stLinkDown

/-- A link port reset on a store port: its transactions complete with LINK_DOWN. -/
def State.storeLinkDown (s : State) (m : Nat) : State :=
  let s1 := (s.snp.txns.filter fun x => x.2.port == m).foldl (fun t x => t.endTxn x.1 stLinkDown) s
  if s1.storeUp.isEmpty then s1.dropWaiting else s1.pumpStore

/-- A partition reset of the job context's partition ends a take and a restore with RESET. -/
def State.resetSnapshots (s : State) : State :=
  let s1 := s.snp.takes.foldl (fun t x => t.endTake x.1 x.2.cmd stReset) s
  s1.failRestore stReset

/-- A change of an area empties both slots (R405). -/
def State.emptySlots (s : State) : State :=
  [0, 1].foldl (fun t k => (t.setReg (Reg.snpSlot0 k) 0).setReg (Reg.snpSlot1 k) 0)
    (s.modSnp fun x => { x with slots := [], takes := [], drains := [] })

end Machine

end Sys2Proof
end

