-- ==== Sys2Proof/Machine/LinkReset.lean ====
section
/-! DEFINITION. What takes a Mladord Link port down, and the flow units and timers that can (R338, R340–R343). -/

set_option Elab.async false

namespace Sys2Proof

namespace Machine

/-- A link port reset: the port's packets are discarded, and the operations that wait on its path complete with LINK_DOWN
(R343). -/
def State.linkReset (s : State) (m : Nat) : State :=
  if s.linkUp m then
    let ops := (s.port m).heldOps
    (((s.clearPort m).collLinkDown m).domainLinkDown m ops).storeLinkDown m
  else s.clearPort m

/-- An UP port goes DOWN of itself. -/
def State.linkLost (s : State) (m : Nat) : State := (s.linkReset m).addSat (Reg.mdlPerr m) 63 48 1

/-- A retransmission from ACK + 1; the eighth in succession from one SEQ takes the port DOWN (R341). -/
def State.retransmit (s : State) (m : Nat) : State :=
  let p := s.port m
  if p.replay.isEmpty then s
  else
    let n := if p.repeats != 0 && p.repeatSeq == p.acked then p.repeats + 1 else 1
    let t := (s.setPort m { p with repeats := n, repeatSeq := p.acked }).addSat (Reg.mdlPerr m) 47 24 1
    if 8 ≤ n then t.linkLost m else t

/-- REPLAY_TIMEOUT. -/
def execReplayTimeout (m : Nat) (s : State) : Host.Outcome State Fault Refusal :=
  .next (if s.linkUp m then s.retransmit m else s)

/-- LIVENESS_TIMEOUT. -/
def execLivenessTimeout (m : Nat) (s : State) : Host.Outcome State Fault Refusal :=
  .next (if s.linkUp m then s.linkLost m else s)

/-- Apply an acknowledgement: flow units up to ACK leave the replay buffer. -/
def Port.ack (p : Port) (a : Nat) : Port :=
  let n := seqSub (a + 1) p.acked
  if n ≤ p.replay.length then { p with replay := p.replay.drop n, acked := (a + 1) % seqMod } else p

/-- Credits that a RET returns to a lane. -/
def Lane.returned (l : Lane) (ret : Nat) : Nat := (ret + retMod - l.lastRet % retMod) % retMod

/-- Apply the credit returns of a control FU. -/
def Port.returns (p : Port) (fu : List Byte) : Port :=
  (List.range 4).foldl (fun q v =>
    let l := q.lane v
    let ret := leAt fu (8 + 4 * v) 4
    q.setLane v { l with
      held := l.held + l.returned ret, inflight := l.inflight - l.returned ret, lastRet := ret
      spent := l.spent.drop (l.returned ret) }) p

/-- A return of more credits than are in flight: the identity of R340 cannot be kept, so the link port is reset (R45). -/
def Port.overReturned (p : Port) (fu : List Byte) : Bool :=
  (List.range 4).any fun v => decide ((p.lane v).inflight < (p.lane v).returned (leAt fu (8 + 4 * v) 4))

/-- CONTROL_FU. -/
def execControlFu (m : Nat) (fu : List Byte) (s : State) : Host.Outcome State Fault Refusal :=
  .next (
    if s.linkUp m && decide (m < 32) && fuValid fu && fuKind fu == 1 then
      if (s.port m).overReturned fu then s.linkLost m
      else
        let t := s.modPort m fun p => (p.ack (leAt fu 4 3)).returns fu
        (if bit (leAt fu 7 1) 0 then t.retransmit m else t).pump m
    else s)

/-- INIT_FU: the partner's device ID and grants bring the port UP; on an UP port they take it DOWN (R338, R342). -/
def execInitFu (m : Nat) (fu : List Byte) (s : State) : Host.Outcome State Fault Refusal :=
  .next (
    if decide (m < 32) && fuValid fu && fuKind fu == 2 then
      if s.linkUp m then s.linkLost m
      else if s.running && s.linkState m == 1 then
        ((s.modPort m fun p => { p with grants := some (grantsOf (leAt fu 8 8)) }).set (Reg.mdlPstat m) 11 0 (leAt fu 4 2)).tryUp m
      else s
    else s)

/-- A write to MDL.PCTL (R336, R342, R370): one that would make a fifth store port is discarded; ENABLE starts or ends the
port. -/
def State.writePortCtl (s : State) (o : Origin) (m mask v : Nat) (locked : Bool) : State :=
  let store := bit mask 30 && !locked && bit v 30
  let unstore := bit mask 30 && !locked && !bit v 30
  let fifth := store && !s.isStore m && 4 ≤ ((List.range 32).filter fun k => s.isStore k).length
  let s1 := if store then s.set (Reg.mdlPctl m) 30 30 1
    else if unstore then s.set (Reg.mdlPctl m) 30 30 0
    else s
  if fifth then s.violate Reg.mdlViolcnt o
  else if !bit mask 31 then s1
  else if bit v 31 then
    let t := s1.set (Reg.mdlPctl m) 31 31 1
    if t.linkState m = 0 then t.startTraining m else t
  else (s1.set (Reg.mdlPctl m) 31 31 0).linkReset m

/-- A write to MDL.PGRANT: only while DOWN, and with a sum of at most 16,384 (R370). -/
def State.writePgrant (s : State) (o : Origin) (m mask v : Nat) : State :=
  let old := s.reg (Reg.mdlPgrant m)
  let new := (old - (old &&& mask) + (v &&& mask)) % 2 ^ 56
  if s.linkState m != 0 || 16384 < (grantsOf new).sum then s.violate Reg.mdlViolcnt o else s.setReg (Reg.mdlPgrant m) new

end Machine

end Sys2Proof
end

