-- ==== Sys2Proof/Machine/Training.lean ====
section
/-! DEFINITION. The update class UPDATE, UPDSPARSE, NORMSQ and FOLD: the clip record, the update-schedule record, optimiser
state and the frozen rule (R121, R306, R312–R330). -/

set_option Elab.async false

namespace Sys2Proof

namespace Machine

/-- Elements of a group (R312). -/
def groupElems : Nat := 4096

def upRule (w : Nat) : Nat := fld (wFN w) 15 12
def upCount (w : Nat) : Nat := fld (wFN w) 11 0

/-- The logical elements `o` to `o + n` − 1 of a tensor, none beyond its extents. -/
def runOffs (d : List Byte) (o n : Nat) : List (Option Nat) := (List.range n).map fun i => Desc.logical d (o + i)

/-! ### NORMSQ (R314, R315) -/

def normFormatBad (j : Job) : Bool :=
  !fmtOk j.kt5 (Desc.fmt j.da) || (upCount j.word == 0 && Desc.fmt j.da != 0)

def normSlot (w : Nat) : Nat := fld (wXT w) 4 0

/-- An element as NORMSQ takes it: FP32 with the tensor exponent removed, and what it counts. -/
def normIn (j : Job) (ex : Int) (v : Fp × Bool) : Fp × Cnt :=
  let r := Fp.rnd .fp32 (v.1.scale2 (-ex))
  (flushIf j.kt5 .fp32 r.1, ⟨r.2 && !v.2, v.2⟩)

/-- An element also counts where the lane that takes its square holds a non-finite sum (R133, R192). -/
def laneNf (base : Nat) (m : Memory 64) (xs : List (Fp × Cnt)) : List Cnt :=
  xs.zipIdx.map fun x => x.1.2.or ⟨false, !(f64 (m.read (base + x.2))).isFinite⟩

/-- Add the squares of one group to the lanes. -/
def addSquares (base : Nat) (xs : List Fp) (m : Memory 64) : Memory 64 :=
  xs.zipIdx.foldl (fun a x => a.write (base + x.2) (rnd64 (Fp.add (f64 (a.read (base + x.2))) (Fp.rv .fp64 (Fp.mul x.1 x.1))))) m

/-- Group `i`. Elements outside the extents add nothing. -/
def State.normGroup (s : State) (j : Job) (ex : Int) (i : Nat) : State :=
  let d := j.da
  let offs := runOffs d (j.sa + groupElems * i) groupElems
  let r := s.readElems (Reg.vecViolcnt j.g) j.ctx j.kt5 d offs
  let xs := (r.vals.take (offs.countP (·.isSome))).map (normIn j ex)
  let cs := laneNf (4096 * normSlot j.word) (r.st.cl j.g).wide xs
  (r.st.modCl j.g fun c => { c with wide := addSquares (4096 * normSlot j.word) (xs.map (·.1)) c.wide }).vecCount j.g
    (satTotal cs) (nfTotal cs + r.scaleNf)

def State.normsq (s : State) (j : Job) : State :=
  let n := upCount j.word
  let s1 :=
    if Desc.trainable j.da then
      let (ex, t) := s.tensorExp j.g j.ctx j.da
      (List.range n).foldl (fun u i => u.normGroup j ex i) t
    else s
  s1.vecBusy j.g j.ctx (16 * n)

/-- One level of the tree of a close: the sums, and how many had a non-finite operand. -/
def closeLevel (a : List Fp × Nat) (d : Nat) : List Fp × Nat :=
  let ps := (a.1.take d).zip (a.1.drop d)
  (ps.map fun p => Fp.rv .fp64 (Fp.add p.1 p.2), a.2 + ps.countP fun p => !(p.1.isFinite && p.2.isFinite))

/-- The tree of a close over the lanes of a slot: the sum, and the additions with a non-finite operand (R133, R315). -/
def closeTree (xs : List Fp) : Fp × Nat :=
  let r := [2048, 1024, 512, 256, 128, 64, 32, 16, 8, 4, 2, 1].foldl closeLevel (xs, 0)
  (r.1.headD .zero, r.2)

/-- A close: the FP32 sum is written as element s[SA] of DA, and the slot is cleared. The rounding to FP32 is an operation of
its own that counts a non-finite sum (R133). -/
def State.normClose (s : State) (j : Job) : State :=
  let d := j.da
  let base := 4096 * normSlot j.word
  let (sum, treeNf) := closeTree (((s.cl j.g).wide.readN base 4096).map f64)
  let nf := treeNf + b2n (!sum.isFinite)
  let r := Fp.rnd .fp32 sum
  let v := flushIf j.kt5 .fp32 r.1
  let s1 := s.modCl j.g fun c => { c with wide := c.wide.keep fun a => a < base || base + 4096 ≤ a }
  let s2 :=
    if Desc.frozen d then s1.violate (Reg.vecViolcnt j.g) (.ctx j.ctx)
    else match Desc.logical d j.sa with
      | none => s1.vecCount j.g (b2n r.2) nf
      | some o =>
        let (_, t) := s1.writeElems (Reg.vecViolcnt j.g) j.ctx j.kt5 d [⟨o, ⟨v, .rne⟩⟩]
        (t.vecCount j.g (b2n r.2) nf).tallyScale (Reg.vecViolcnt j.g) j.ctx d ⟨b2n r.2, amaxBits v⟩
  s2.vecBusy j.g j.ctx 48

/-! ### FOLD (R312) -/

def foldFormatBad (j : Job) : Bool := decide (1 < Desc.fmt j.da) || decide (2 < Desc.fmt j.db)

/-- The sum of two elements rounded once to DA's format, and what it counts. -/
def foldOne (j : Job) (ex : Int) (a b : Fp) : Fp × Cnt :=
  let x := b.scale2 (-ex)
  let r := Fp.rnd (wideFmt (Desc.fmt j.da)) (Fp.add a x)
  let nf := r.1.isNan || !a.isFinite || !x.isFinite
  (r.1, ⟨r.2 && !nf, nf⟩)

def State.foldGroup (s : State) (j : Job) (ex : Int) (i : Nat) : State :=
  let viol := Reg.vecViolcnt j.g
  let oa := runOffs j.da (groupElems * i) groupElems
  let a := s.readElems viol j.ctx j.kt5 j.da oa
  let b := a.st.readElems viol j.ctx j.kt5 j.db (runOffs j.db (groupElems * i) groupElems)
  let rs := (a.vals.zip b.vals).map fun p => foldOne j ex p.1.1 p.2.1
  let es := (oa.zip rs).filterMap fun p => p.1.map fun o => ((⟨o, ⟨p.2.1, .rne⟩⟩ : ElemOut), p.2.2)
  let (_, t) := b.st.writeElems viol j.ctx j.kt5 j.da (es.map (·.1))
  let cs := es.map (·.2)
  (t.vecCount j.g (satTotal cs) (nfTotal cs)).tallyScale viol j.ctx j.da
    ⟨satTotal cs, amaxOf (es.map fun e => e.1.inp.x)⟩

def State.fold (s : State) (j : Job) : State :=
  let s1 :=
    if Desc.frozen j.da then s.violate (Reg.vecViolcnt j.g) (.ctx j.ctx)
    else
      let (ex, t) := s.tensorExp j.g j.ctx j.db
      (List.range (upCount j.word)).foldl (fun u i => u.foldGroup j ex i) t
  s1.vecBusy j.g j.ctx 0

/-! ### Records (R316, R319) -/

/-- An FP32 field of a record. -/
def recF (kt5 : Bool) (r : List Byte) (o : Nat) : Fp := flushIf kt5 .fp32 (f32 (BitVec.ofNat 32 (leAt r o 4)))

/-- The clip factor of a clip record (R318); none where the instruction is skipped. -/
def clipFactor (kt5 train : Bool) (r : List Byte) : Option Fp :=
  let s := (List.range 64).foldl (fun a i => Fp.rv .fp64 (Fp.add a (recF kt5 r (4 * i)))) .zero
  let n := leAt r 0x100 4
  let mx := recF kt5 r 0x104
  if n = 0 || s.isNan || s == .inf false || Fp.lt s .zero || mx.isNan then none
  else
    let kavg := (Fp.div .fp64 .one (.ofNat n)).1
    let k64 := if !train || Fp.le mx .zero || s.isZero then kavg
      else Fp.min kavg (Fp.div .fp64 mx (Fp.sqrt .fp64 s).1).1
    some (flushIf kt5 .fp32 (Fp.rv .fp32 k64))

/-- The update-schedule record. -/
structure Sched where
  lr : Fp
  wd : Fp
  beta1 : Fp
  beta2 : Fp
  onemb1 : Fp
  onemb2 : Fp
  eps : Fp
  bcen : Bool
  rnd : Nat
  step : Nat
  stream : Nat
  deriving DecidableEq, Repr

def Sched.ofBytes (kt5 : Bool) (r : List Byte) : Sched :=
  let f := recF kt5 r
  ⟨f 0, f 4, f 8, f 0xC, f 0x10, f 0x14, f 0x18, bit (leAt r 0x1C 4) 16, fld (leAt r 0x1C 4) 15 14, leAt r 0x20 6,
   leAt r 0x26 2 % 2 ^ 15⟩

/-- pw(b, t) over the bits of t from bit n − 1 down (R324). -/
def powGo (b : Fp) (t : Nat) : Nat → Fp → Fp
  | 0, r => r
  | n + 1, r =>
    let q := Fp.rv .fp64 (Fp.mul r r)
    powGo b t n (if bit t n then Fp.rv .fp64 (Fp.mul q b) else q)

/-- Bias correction (R324). -/
def rbc (kt5 : Bool) (b : Fp) (t : Nat) : Fp :=
  let d := Fp.rv .fp64 (Fp.sub .one (powGo b t (bitLen t) .one))
  if d.isZero then .one else flushIf kt5 .fp32 (Fp.rv .fp32 (Fp.div .fp64 .one d).1)

/-! ### Optimiser state (R320, R321) -/

/-- Bytes of a state unit; none for an excluded format. -/
def stateUnit (f : Nat) : Option Nat :=
  if f = 0 then some 256 else if f = 1 then some 128 else if f = 9 || f = 14 then some 66 else none

def momentBytes (f : Nat) : Nat := (stateUnit f).getD 0 / 2

/-- A moment value of a position and what reading it counts. -/
structure Moment where
  v : Fp
  cnt : Cnt
  deriving DecidableEq, Repr

/-- 32 values of one moment, and the scale codes FFh among their units. -/
def readMoment (kt5 : Bool) (f : Nat) (bs : List Byte) : List Moment × Nat :=
  if f < 3 then
    let n := Format.unitBytes f
    ((List.range 32).map fun i => ⟨(decodeElem kt5 f (leAt bs (i * n) n)).1, .none⟩, 0)
  else
    let r := decodeUnit kt5 f bs
    (r.1.map fun x => let y := Fp.rnd .fp32 x.1; ⟨flushIf kt5 .fp32 y.1, ⟨y.2 && !x.2, x.2⟩⟩, b2n r.2)

/-- v from the stored second moment: block formats hold w = √v. -/
def readSecond (kt5 : Bool) (f : Nat) (bs : List Byte) : List Moment × Nat :=
  let r := readMoment kt5 f bs
  if f < 3 then r
  else (r.1.map fun w =>
    let o := Chain.finish false kt5 [w.v] (Fp.mul w.v w.v)
    ⟨o.v, w.cnt.or o.cnt⟩, r.2)

/-- The bytes of a moment from 32 values, and what each counts. -/
def writeMoment (kt5 : Bool) (f : Nat) (xs : List Fp) : List Byte × List Cnt :=
  if f < 3 then
    let cs := xs.map (encodeElem kt5 f .rne)
    (cs.flatMap fun c => leBytes (Format.unitBytes f) c.code, cs.map (·.cnt))
  else
    let o := encodeBlock kt5 f (xs.map fun x => ⟨x, .rne⟩)
    (o.bytes f, o.elems.map (·.cnt))

/-- The stored form of the second moment: w := SQRT(v) for block formats. -/
def writeSecond (kt5 : Bool) (f : Nat) (xs : List Fp) : List Byte × List Cnt :=
  if f < 3 then writeMoment kt5 f xs
  else
    let ws := xs.map fun v => let r := Trans.sqrtOf kt5 v; (r.1, (⟨r.2 && v.isFinite, r.1.isNan || !v.isFinite⟩ : Cnt))
    let o := writeMoment kt5 f (ws.map (·.1))
    (o.1, (ws.zip o.2).map fun p => p.1.2.or p.2)

/-! ### One element (R325) -/

/-- What one instruction applies to every element. -/
structure UpdCtx where
  rule : Nat
  sc : Sched
  k : Fp
  rbc1 : Fp
  rbc2 : Fp
  deriving DecidableEq, Repr

/-- A value with everything its element has counted. -/
def upOp (kt5 : Bool) (c : Cnt) (ins : List Fp) (x : Fp) : Fp × Cnt :=
  let o := Chain.finish false kt5 ins x
  (o.v, c.or o.cnt)

def upMul (kt5 : Bool) (c : Cnt) (a b : Fp) : Fp × Cnt := upOp kt5 c [a, b] (Fp.mul a b)
def upAdd (kt5 : Bool) (c : Cnt) (a b : Fp) : Fp × Cnt := upOp kt5 c [a, b] (Fp.add a b)
def upFma (kt5 : Bool) (c : Cnt) (a b z : Fp) : Fp × Cnt := upOp kt5 c [a, b, z] (Fp.add (Fp.mul a b) z)
def upUnit (c : Cnt) (a : Fp) (r : Fp × Bool) : Fp × Cnt :=
  let nf := r.1.isNan || !a.isFinite
  (r.1, c.or ⟨r.2 && !nf, nf⟩)

/-- Parameter, moments and counts of one element. -/
structure Elt where
  p : Fp
  m : Fp
  v : Fp
  cnt : Cnt
  deriving DecidableEq, Repr

/-- The rule of R325 on one element. -/
def updateOne (kt5 : Bool) (u : UpdCtx) (e : Elt) (gs : Fp) : Elt :=
  let sc := u.sc
  let (g, c0) := upMul kt5 e.cnt gs u.k
  if u.rule = 0 then
    let (t, c1) := upFma kt5 c0 sc.wd e.p g
    let (p, c2) := upFma kt5 c1 sc.lr.neg t e.p
    ⟨p, e.m, e.v, c2⟩
  else if u.rule = 1 then
    let (m, c1) := upFma kt5 c0 sc.beta1 e.m g
    let (t, c2) := upFma kt5 c1 sc.wd e.p m
    let (p, c3) := upFma kt5 c2 sc.lr.neg t e.p
    ⟨p, m, e.v, c3⟩
  else
    let (g1, c1) := upMul kt5 c0 sc.onemb1 g
    let (m, c2) := upFma kt5 c1 sc.beta1 e.m g1
    let (gg, c3) := upMul kt5 c2 g g
    let (g2, c4) := upMul kt5 c3 sc.onemb2 gg
    let (v, c5) := upFma kt5 c4 sc.beta2 e.v g2
    let (mh, c6) := upMul kt5 c5 m u.rbc1
    let (vh, c7) := upMul kt5 c6 v u.rbc2
    let (sq, c8) := upUnit c7 vh (Trans.sqrtOf kt5 vh)
    let (den, c9) := upAdd kt5 c8 sq sc.eps
    let (r, c10) := upUnit c9 den (Trans.rcpOf kt5 den)
    let (x, c11) := upMul kt5 c10 mh r
    let (t, c12) := upFma kt5 c11 sc.wd e.p x
    let (p, c13) := upFma kt5 c12 sc.lr.neg t e.p
    ⟨p, m, v, c13⟩

/-! ### A run of elements -/

/-- Read runs of the optimiser state: an empty DC holds none, and each byte that would be read is taken as zero (R67). -/
def State.stateLoad (s : State) (j : Job) (runs : List (Nat × Nat)) : List (List Byte) × State :=
  if Desc.empty j.dc then (runs.map fun r => List.replicate r.2 0, s)
  else s.loadRuns (Reg.vecViolcnt j.g) j.ctx runs

/-- Write runs of the optimiser state: an empty DC takes none (R67). -/
def State.stateStore (s : State) (j : Job) (runs : List (Nat × List Byte)) : State :=
  if Desc.empty j.dc then s else s.storeRuns (Reg.vecViolcnt j.g) j.ctx runs

/-- The 12 bytes of a header at an address. -/
def State.headerLoad (s : State) (j : Job) (at_ : Nat) : List Byte × State :=
  let (bs, t) := s.stateLoad j [(at_, 12)]
  (bs.headD [], t)

/-- Where a run of elements lies: first logical element of DA and of DB, how many, and the first byte of the state units
of DA's element 0. -/
structure Span where
  ea : Nat
  eb : Nat
  n : Nat
  units : Nat
  deriving DecidableEq, Repr

/-- Addresses of the state units of a run. -/
def Span.unitAddrs (r : Span) (f : Nat) : List Nat :=
  (List.range (ceilDiv r.n 32)).map fun i => (r.units + (r.ea / 32 + i) * (stateUnit f).getD 0) % 2 ^ 48

/-- The 32 values of unit i with positions beyond the run taken as +0. -/
def padUnit (i : Nat) (xs : List Fp) : List Fp := (List.range 32).map fun k => xs.getD (32 * i + k) .zero

/-- The runs that write the units of a run of elements, and what each element counts; momentum writes the first moment
only. -/
def stateRuns (kt5 : Bool) (rule f : Nat) (addrs : List Nat) (es : List Elt) : List (Nat × List Byte) × List Cnt :=
  let hb := momentBytes f
  let us := addrs.zipIdx.map fun a =>
    let m := writeMoment kt5 f (padUnit a.2 (es.map (·.m)))
    let v := writeSecond kt5 f (padUnit a.2 (es.map (·.v)))
    if rule = 1 then ([(a.1, m.1)], m.2)
    else ([(a.1, m.1), (a.1 + hb, v.1)], (m.2.zip v.2).map fun p => p.1.or p.2)
  (us.flatMap (·.1), us.flatMap (·.2))

/-- Update the elements of a run (R322, R325, R329). -/
def State.updateRun (s : State) (j : Job) (u : UpdCtx) (ea eb : Int) (r : Span) : State :=
  let viol := Reg.vecViolcnt j.g
  let kt5 := j.kt5
  let f := Desc.fmt j.dc
  let oa := runOffs j.da r.ea r.n
  let a := s.readElems viol j.ctx kt5 j.da oa
  let b := a.st.readElems viol j.ctx kt5 j.db (runOffs j.db r.eb r.n)
  let addrs := if u.rule = 0 then [] else r.unitAddrs f
  let (raw, s1) := b.st.stateLoad j (addrs.map fun x => (x, (stateUnit f).getD 0))
  let ms := raw.map fun x => readMoment kt5 f (x.take (momentBytes f))
  let vs := raw.map fun x => if u.rule = 1 then ([], 0) else readSecond kt5 f (x.drop (momentBytes f))
  let mvals := ms.flatMap (·.1)
  let vvals := vs.flatMap (·.1)
  let z : Moment := ⟨.zero, .none⟩
  let es := (List.range r.n).map fun i =>
    let m := mvals.getD i z
    let v := vvals.getD i z
    updateOne kt5 u ⟨((a.vals.getD i (.zero, false)).1).scale2 (-ea), m.v, v.v, m.cnt.or v.cnt⟩
      (((b.vals.getD i (.zero, false)).1).scale2 (-eb))
  let outs := ((oa.zip es).zipIdx).filterMap fun x => x.1.1.map fun o =>
    (⟨o, ⟨x.1.2.p.scale2 ea,
      rndAt j u.sc.rnd u.sc.stream (Desc.tensorid j.da) (u.sc.step % 2 ^ 40) (r.ea + x.2)⟩⟩ : ElemOut)
  let (wc, s2) := s1.writeElems viol j.ctx kt5 j.da outs
  let s3 := s2.tallyScale viol j.ctx j.da ⟨satTotal wc, amaxOf (es.map (·.p))⟩
  let st := if u.rule = 0 then ([], []) else stateRuns kt5 u.rule f addrs es
  let s4 := s3.stateStore j st.1
  let cs := es.zipIdx.map fun e => (e.1.cnt.or (wc.getD e.2 .none)).or (st.2.getD e.2 .none)
  let scaleNf := (ms.map (·.2)).foldl (· + ·) 0 + (vs.map (·.2)).foldl (· + ·) 0
  (s4.vecCount j.g (satTotal cs) (nfTotal cs + scaleNf)).addWrap (Reg.vecUpdelems j.g) 63 0 outs.length

/-! ### UPDATE and UPDSPARSE -/

def sparse (w : Nat) : Bool := wOp w == 0x61

/-- Reserved codes that the word and its operands show (R121, R322, R327); a row of UPDSPARSE holds whole units (R328). -/
def updReserved (j : Job) : Bool :=
  decide (2 < upRule j.word) || j.sa % 32 != 0 || (sparse j.word && Desc.sizeC j.da % 32 != 0)

/-- Excluded formats (R320, R322); SGD ignores DC. -/
def updFormatBad (j : Job) : Bool :=
  decide (2 < Desc.fmt j.da) || decide (1 < Desc.fmt j.db)
    || (upRule j.word != 0 && ((stateUnit (Desc.fmt j.dc)).isNone || !fmtOk j.kt5 (Desc.fmt j.dc)))

/-- The step count for a header's bytes: t, and the new header where it changes (R323, R329). -/
def headerStep (h : List Byte) (step : Nat) : Nat × Option (List Byte) :=
  let steps := leAt h 0 6
  if leAt h 6 6 = step then (steps, none)
  else
    let t := (steps + 1) % 2 ^ 48
    (t, some (leBytes 6 t ++ leBytes 6 step))

def updCtx (kt5 : Bool) (rule : Nat) (sc : Sched) (k : Fp) (t : Nat) : UpdCtx :=
  if rule = 2 && sc.bcen then ⟨rule, sc, k, rbc kt5 sc.beta1 t, rbc kt5 sc.beta2 t⟩ else ⟨rule, sc, k, .one, .one⟩

/-- Passes F and E of one group (R326). -/
def updPasses (rule f : Nat) : Nat × Nat :=
  if rule = 0 then (3, 0)
  else if rule = 1 then (if f = 0 then (4, 0) else if f = 1 then (5, 0) else (6, 0))
  else (if f = 0 then (12, 2) else if f = 1 then (14, 2) else (14, 3))

/-- The least cycles for which an UPDATE occupies the vector engine (R326); no time is given for an UPDSPARSE. -/
def updCycles (j : Job) (sc : Sched) : Nat :=
  if sparse j.word then 0
  else
    let (f, x) := updPasses (upRule j.word) (Desc.fmt j.dc)
    upCount j.word * max (max (8 * (f + b2n (Desc.fmt j.da != 0) + b2n (sc.rnd == 1))) (8 * x)) 4

/-- The groups of an UPDATE. -/
def State.updateGroups (s : State) (j : Job) (sc : Sched) (k : Fp) : State :=
  let rule := upRule j.word
  let base := Desc.base j.dc
  let (t, s1) :=
    if rule = 2 then
      let (h, q) := s.headerLoad j base
      match headerStep h sc.step with
      | (t, none) => (t, q)
      | (t, some b) => (t, q.stateStore j [(base, b)])
    else (0, s)
  let u := updCtx j.kt5 rule sc k t
  let (ea, s2) := s1.tensorExp j.g j.ctx j.da
  let (eb, s3) := s2.tensorExp j.g j.ctx j.db
  let total := Desc.elems j.da
  let n := upCount j.word
  (List.range n).foldl (fun q i =>
    let e := j.sa + groupElems * i
    if e < total then q.updateRun j u ea eb ⟨e, e, min groupElems (total - e), base + 64⟩ else q) s3

/-- Rows of DA (R328). -/
def updRows (j : Job) : Nat := if Desc.sizeC j.da = 0 then 0 else Desc.elems j.da / Desc.sizeC j.da

/-- List position i of an UPDSPARSE, which names row `row`. -/
def State.updateRow (s : State) (j : Job) (sc : Sched) (k : Fp) (ea eb : Int) (i row : Nat) : State :=
  let viol := Reg.vecViolcnt j.g
  let base := Desc.base j.dc
  let nr := updRows j
  if nr ≤ row then s.violate viol (.ctx j.ctx)
  else
    let (h, s1) := s.headerLoad j ((base + 16 * row) % 2 ^ 48)
    match headerStep h sc.step with
    | (_, none) => s1.violate viol (.ctx j.ctx)
    | (t, some b) =>
      let c := Desc.sizeC j.da
      let u := updCtx j.kt5 (upRule j.word) sc k t
      ((s1.stateStore j [((base + 16 * row) % 2 ^ 48, b)]).updateRun j u ea eb
        ⟨row * c, j.sa + i * c, c, base + 64 * ceilDiv (16 * nr) 64⟩).addWrap (Reg.vecUpdrows j.g) 63 0 1

/-- The rows of an UPDSPARSE in ascending list position (R329). -/
def State.updateRows (s : State) (j : Job) (sc : Sched) (k : Fp) : State :=
  let n := upCount j.word
  let (l, s1) := s.load (Reg.vecViolcnt j.g) j.ctx j.sb (4 * n)
  let (ea, s2) := s1.tensorExp j.g j.ctx j.da
  let (eb, s3) := s2.tensorExp j.g j.ctx j.db
  (List.range n).foldl (fun q i => q.updateRow j sc k ea eb i (leAt l (4 * i) 4)) s3

/-- Address of an instruction's schedule record: behind the index list for UPDSPARSE (R328). -/
def recordAt (j : Job) : Nat := if sparse j.word then j.sb + 64 * ceilDiv (4 * upCount j.word) 64 else j.sb

/-- Reserved codes of an update, that of RND in its schedule record among them (R319, R327); the record is looked at when
the instruction issues, which is when R100 lets its TAG counter gain one. -/
def State.updateReserved (s : State) (j : Job) : Bool :=
  updReserved j || (Sched.ofBytes j.kt5 (s.load (Reg.vecViolcnt j.g) j.ctx (recordAt j) 64).1).rnd == 3

/-- An update from its start: the schedule record, the frozen rule, the commit mark and the clip factor, in that order
(R306, R318, R327). A record that came to hold a reserved RND after issue, which software must not do (R319), still makes a
counted no-op. What it then does takes at least the time of its groups, a frozen tensor's and a skipped update's too (R326). -/
def State.update (s : State) (j : Job) : State :=
  let viol := Reg.vecViolcnt j.g
  let (r, s1) := s.load viol j.ctx (recordAt j) 64
  let sc := Sched.ofBytes j.kt5 r
  if sc.rnd = 3 then s1.violate (Reg.seqViolcnt j.g) (.ctx j.ctx)
  else
    let t :=
      if Desc.frozen j.da || Desc.shared j.da then (s1.addSat (Reg.vecFrozencnt j.g) 31 0 1).violate viol (.ctx j.ctx)
      else if (s1.ctx j.ctx).commit != some sc.step then s1.addSat (Reg.vecUpdskip j.g) 31 0 1
      else
        let (c, s2) := s1.load viol j.ctx j.sc 320
        match clipFactor j.kt5 (Desc.trainable j.da) c with
        | none => s2.addSat (Reg.vecUpdskip j.g) 31 0 1
        | some k => if sparse j.word then s2.updateRows j sc k else s2.updateGroups j sc k
    t.vecBusy j.g j.ctx (updCycles j sc)

end Machine

end Sys2Proof
end

