-- ==== Sys2Proof/Machine/Attention.lean ====
section
/-! DEFINITION. ABLK: one block of online softmax attention, its length table and its state in the wide accumulation buffer
(07, R119). -/

set_option Elab.async false

namespace Sys2Proof

namespace Machine

/-! ### Fields (R119, R215, R217) -/

def abMask (w : Nat) : Nat := fld (wFN w) 15 13
def abFirst (w : Nat) : Bool := bit (wFN w) 12
def abLast (w : Nat) : Bool := bit (wFN w) 11
def abEng (w : Nat) : Nat := fld (wXT w) 11 8
def abSlot (w : Nat) : Nat := fld (wXT w) 4 0

/-- Head dimension. -/
def Job.headDim (j : Job) : Nat := Desc.sizeC j.db

def ablkReserved (j : Job) : Bool :=
  let w := j.word
  !(j.headDim == 64 || j.headDim == 128) || (j.headDim == 128 && abSlot w % 2 == 1)
    || decide (4 ≤ abMask w) || abEng w % 2 == 1

def ablkFormatBad (j : Job) : Bool := !Format.matrix (Desc.fmt j.db) || !fmtOk j.kt5 (Desc.fmt j.db)

/-! ### The length table (R223–R225, R227) -/

structure LenEntry where
  qstart : Nat
  qlen : Nat
  kstart : Nat
  klen : Nat
  qbase : Nat
  pre : Nat
  framelen : Nat
  window : Nat
  deriving DecidableEq, Repr

/-- Entry i of the table's bytes. -/
def lenEntry (t : List Byte) (i : Nat) : LenEntry :=
  let o := 32 + 32 * i
  ⟨leAt t o 4, leAt t (o + 4) 4, leAt t (o + 8) 4, leAt t (o + 12) 4, leAt t (o + 16) 4, leAt t (o + 20) 4,
   leAt t (o + 24) 2, leAt t (o + 26) 2⟩

def lenCount (t : List Byte) : Nat := min (leAt t 0 4) 4096

/-- The lowest-numbered entry that holds a packed query position. -/
def lenFind (t : List Byte) (q : Nat) : Option LenEntry :=
  ((List.range (lenCount t)).map (lenEntry t)).find? fun e => decide (e.qstart ≤ q) && decide (q < e.qstart + e.qlen)

/-- Packed position of row or key i. -/
def packed (s i : Nat) : Nat := (s + i) % 2 ^ 32

/-- Frame of a sequence position; −1 for the prefix. -/
def frameOf (e : LenEntry) (t : Nat) : Int := if t < e.pre then -1 else ((t - e.pre) / e.framelen : Nat)

/-- Is the pair of the same sequence admitted (R225)? -/
def admits (mask : Nat) (e : LenEntry) (q k : Nat) : Bool :=
  let tq := e.qbase + (q - e.qstart)
  let tk := k - e.kstart
  let fq := frameOf e tq
  let fk := frameOf e tk
  match mask with
  | 0 => true
  | 1 => decide (tk ≤ tq)
  | 2 => decide (fk ≤ fq)
  | _ => decide (fk ≤ fq) && (fk == -1 || e.window == 0 || decide (fq - e.window < fk))

/-- Under the frame masks an entry with FRAMELEN = 0 has its queries absent. -/
def deadEntry (mask : Nat) (e : LenEntry) : Bool := (mask == 2 || mask == 3) && e.framelen == 0

/-- The keys 0–63 admissible for query row r. -/
def admissible (j : Job) (t : List Byte) (r : Nat) : List Bool :=
  let q := packed j.sa r
  let mask := abMask j.word
  match lenFind t q with
  | none => List.replicate 64 false
  | some e =>
    (List.range 64).map fun i =>
      let k := packed j.sb i
      !deadEntry mask e && decide (e.kstart ≤ k) && decide (k < e.kstart + e.klen) && admits mask e q k

/-- The table holds something that R227 counts: once for the ABLK, whatever the number of grounds (log 112). -/
def tableBad (j : Job) (t : List Byte) : Bool :=
  decide (4096 < leAt t 0 4) ||
  (List.range 64).any fun r =>
    match lenFind t (packed j.sa r) with
    | some e => deadEntry (abMask j.word) e
    | none => false

/-- Read the table as the ABLK issues (R223); its bytes travel with the job. -/
def State.readTable (s : State) (j : Job) : Job × State :=
  let (h, s1) := s.load (Reg.vecViolcnt j.g) j.ctx (Desc.base j.da) 32
  let (es, s2) := s1.load (Reg.vecViolcnt j.g) j.ctx (Desc.base j.da + 32) (32 * lenCount h)
  ({ j with dx := h ++ es }, s2)

/-- LSCALE; one that is not finite is read as 1.0 (R222). -/
def lscale (kt5 : Bool) (t : List Byte) : Fp × Bool :=
  let x := flushIf kt5 .fp32 (decodeIeee 8 23 (leAt t 4 4))
  if x.isFinite then (x, false) else (.one, true)

/-! ### The state in its slots (R217) -/

/-- A 32-bit word of the slots: word k counted from the start of slot n. -/
def wideWord (c : Cluster) (n k : Nat) : BitVec 32 :=
  let v := c.wide.read (slotBase n + k / 2)
  if k % 2 = 0 then v.setWidth 32 else (v >>> 32).setWidth 32

def setWideWord (m : Memory 64) (n k : Nat) (x : BitVec 32) : Memory 64 :=
  let a := slotBase n + k / 2
  let v := m.read a
  m.write a (if k % 2 = 0 then (v >>> 32) ++ x |>.setWidth 64 else (x ++ v.setWidth 32))

/-- First word of m, and the lane of VALID. -/
def mWord (d : Nat) : Nat := 64 * d
def lWord (d : Nat) : Nat := 64 * d + 64
def validLane (n d : Nat) : Nat := slotBase n + (64 * d + 128) / 2

def RowState.empty (d : Nat) (m : Fp) : RowState := ⟨false, m, .zero, List.replicate d .zero⟩

/-- Read row r; FIRST has set VALID, l and O to zero (R219). -/
def rowState (kt5 first : Bool) (c : Cluster) (n d r : Nat) : RowState :=
  let w := fun k => flushIf kt5 .fp32 (f32 (wideWord c n k))
  if first then .empty d (w (mWord d + r))
  else ⟨(c.wide.read (validLane n d)).getLsbD r, w (mWord d + r), w (lWord d + r),
        (List.range d).map fun i => w (r * d + i)⟩

/-- Write the words of a row back: O and l, and m when the block processed the row. -/
def writeRow (n d r : Nat) (live : Bool) (s : RowState) (m : Memory 64) : Memory 64 :=
  let m1 := (s.o.zipIdx).foldl (fun t x => setWideWord t n (r * d + x.2) (to32 x.1)) m
  let m2 := setWideWord m1 n (lWord d + r) (to32 s.l)
  if live then setWideWord m2 n (mWord d + r) (to32 s.m) else m2

/-- Write the rows that the block processed, and with FIRST every row; then VALID. -/
def writeRows (n d : Nat) (first : Bool) (rs : List (RowState × Bool)) (m : Memory 64) : Memory 64 :=
  let m1 := rs.zipIdx.foldl (fun t x => if x.1.2 || first then writeRow n d x.2 x.1.2 x.1.1 t else t) m
  m1.write (validLane n d) (BitVec.ofNat 64 (rs.zipIdx.foldl (fun v x => v + b2n x.1.1.valid * 2 ^ x.2) 0))

/-! ### One row of a block (R219) -/

/-- A value with the counts of the vector engine and of the engines e and e + 1. -/
structure RowOutcome where
  st : RowState
  vec : List Cnt
  satScore : Nat
  fold : Nat × Nat
  deriving DecidableEq, Repr

/-- The P format and its exponent (R216). -/
def pFormat (f : Nat) : Nat × Nat := if f = 1 || f = 2 then (1, 0) else (3, 8)

/-- A weight in the P format, and what its conversion counts in the vector engine (R135). -/
def storedWeight (kt5 : Bool) (f : Nat) (p : Fp) : Fp × Cnt :=
  let (pf, ep) := pFormat f
  let x := encodeElem kt5 pf .rne (p.scale2 ep)
  ((decodeElem kt5 pf x.code).1, x.cnt)

/-- The largest score of the admissible keys. -/
def bestScore (ss : List (Option Fp)) : Option Fp :=
  ss.foldl (fun acc s =>
    match acc, s with
    | none, x => x
    | some a, some b => some (Fp.max a b)
    | a, none => a) none

/-- Weights of one row: the new maximum, α, the weights and their sum, with the counts of the vector engine. -/
structure Weights where
  mn : Fp
  alpha : Fp
  ps : List Fp
  sum : Fp
  vec : List Cnt
  deriving DecidableEq, Repr

/-- exp2(fp32(a − b)) and what it counts. -/
def expDiff (kt5 : Bool) (a b : Fp) : Fp × List Cnt :=
  let d := Chain.finish false kt5 [a, b] (Fp.sub a b)
  let e := Chain.finishExp false kt5 d.v (Trans.exp2Of kt5 d.v)
  (e.v, [d.cnt, e.cnt])

def rowWeights (kt5 : Bool) (st : RowState) (bm : Fp) (ss : List (Option Fp)) : Weights :=
  let mx := Chain.finish false kt5 [st.m] (Fp.max st.m bm)
  let mn := if st.valid then mx.v else bm
  let (alpha, c0) := if st.valid then
      let a := expDiff kt5 st.m mn
      (a.1, mx.cnt :: a.2)
    else (.zero, [])
  let es := ss.map fun s =>
    match s with
    | some x => expDiff kt5 x mn
    | none => (.zero, [])
  let (sum, c1) := butterfly (redOp kt5 0) (es.map (·.1))
  ⟨mn, alpha, es.map (·.1), sum, c0 ++ es.flatMap (·.2) ++ c1⟩

/-- fp32(fp32(alpha × old) + add), with the saturations and the non-finite inputs of its two operations (R133, R222). -/
def rescale (kt5 : Bool) (alpha old add : Fp) : EpiVal :=
  (EpiVal.op kt5 ⟨old, 0, 0⟩ [alpha] (Fp.mul alpha old)).thenAdd kt5 add

/-- A row with an admissible key. `raw` are its raw scores, `pv` the products of its stored weights with the values of each
head dimension, and `shift` is e_P + e_V. -/
def blockRow (kt5 : Bool) (f : Nat) (shift : Int) (ls : Fp) (st : RowState) (adm : List Bool) (raw pv : List Fp) :
    RowOutcome :=
  let scores := (adm.zip raw).map fun x => if x.1 then some (fp32Out kt5 (Fp.mul x.2 ls)) else none
  let ss := scores.map fun x => x.map (·.1)
  match bestScore ss with
  | none => ⟨st, [], 0, (0, 0)⟩
  | some bm =>
    let w := rowWeights kt5 st bm ss
    let l1 := Chain.finish false kt5 [w.alpha, st.l] (Fp.mul w.alpha st.l)
    let l2 := Chain.finish false kt5 [l1.v, w.sum] (Fp.add l1.v w.sum)
    let os := (st.o.zip pv).map fun x => rescale kt5 w.alpha x.1 (x.2.scale2 (-shift))
    ⟨⟨true, w.mn, l2.v, os.map (·.v)⟩, w.vec ++ w.ps.map (fun p => (storedWeight kt5 f p).2) ++ [l1.cnt, l2.cnt],
     (scores.map fun x => match x with
       | some y => b2n y.2
       | none => 0).foldl (· + ·) 0,
     ((os.map (·.sat)).foldl (· + ·) 0, (os.map (·.nf)).foldl (· + ·) 0)⟩

/-! ### Array work with its checks (R175, R176, R218) -/

/-- One chain over operand tiles: values by row and column, saturations, and the checks that fail at its end. -/
structure ArrayOut where
  vals : List (List Fp)
  sat : Nat
  rowFails : List Nat
  colFails : List Nat
  corner : Bool
  deriving DecidableEq, Repr

def ArrayOut.failed (x : ArrayOut) : Bool := !x.rowFails.isEmpty || !x.colFails.isEmpty || x.corner

/-- Chains of `a` against `b`, tile after tile, ascending; under KT5 emulation in its groups (R185). The cells in `fs` change
what they hold before the row, column and corner checks at the end of the chain (R218). -/
def arrayWork (kt5 : Bool) (tolexp : Nat) (fs : List Flip) (tiles : List (List (List Fp) × List (List Fp))) : ArrayOut :=
  let x := tiles.foldl (fun (acc : Accum × Nat) t =>
    let vs := cells kt5 false acc.1.part t.1 t.2
    ({ (acc.1.lanes t.1 t.2) with part := newPart t.1.length acc.1.part (vs.map (·.1)) },
     acc.2 + (vs.map (·.2)).foldl (· + ·) 0)) (Accum.closed, 0)
  let rows := match tiles with
    | t :: _ => t.1.length
    | [] => 0
  let tol := tolerance tolexp (64 * tiles.length)
  let acc := { x.1 with part := flipParts x.1.part fs }
  let p := fun i => f32 (acc.part.read i)
  let last := acc.afterSpill false false
  ⟨(List.range rows).map fun m => (List.range 64).map fun n => p (64 * m + n), x.2, acc.rowFails tol,
   last.colFails tol p, last.cornerFails tol⟩

/-- Record an engine's counts and failed checks. -/
def State.arrayCount (s : State) (g e nf sat : Nat) (xs : List ArrayOut) : State :=
  let t := (s.mxeCount g e nf sat).failChecks g e 0 0 (xs.flatMap (·.rowFails))
  (t.failChecks g e 0 1 (xs.flatMap (·.colFails))).failChecks g e 0 2 ((xs.filter (·.corner)).map fun _ => 0)

/-! ### The instruction -/

/-- Highest live row, plus one. -/
def liveTop (adms : List (List Bool)) : Nat :=
  adms.zipIdx.foldl (fun h x => if x.1.any id then x.2 + 1 else h) 0

/-- R220 for a row: its output and statistics. -/
def finishRow (kt5 : Bool) (d : Nat) (st : RowState) : (List Fp × Fp × Fp) × List Cnt :=
  if st.valid then
    let r := Chain.finishExp false kt5 st.l (Trans.rcpOf kt5 st.l)
    let os := st.o.map fun o => Chain.finish false kt5 [o, r.v] (Fp.mul o r.v)
    ((os.map (·.v), st.m, st.l), r.cnt :: os.map (·.cnt))
  else ((List.replicate d .zero, Fp.largest .fp32 true, .zero), [])

/-- The bytes of a row of FP32 values. -/
def rowBytes (xs : List Fp) : List Byte := xs.flatMap fun x => leBytes 4 (to32 x).toNat

/-- Write outputs and the statistics row, and clear the slots (R215, R220). -/
def State.ablkLast (s : State) (j : Job) (rs : List RowState) : State :=
  let d := j.headDim
  let nd := d / 64
  let n := abSlot j.word
  let fin := rs.map (finishRow j.kt5 d)
  let base := wTA j.word + 64
  let outRuns := (List.range nd).map fun i =>
    (256 * (base + 64 * i), fin.flatMap fun x => rowBytes ((x.1.1.drop (64 * i)).take 64))
  let statRun := (256 * (base + 64 * nd),
    rowBytes (fin.map fun x => x.1.2.1) ++ rowBytes (fin.map fun x => x.1.2.2))
  let cnts := fin.flatMap (·.2)
  let s1 := (s.writeTileRuns j.g j.ctx .tile (outRuns ++ [statRun])).vecCount j.g (satTotal cnts) (nfTotal cnts)
  s1.modCl j.g fun c => { c with wide := c.wide.keep fun a => a / 4096 < n || n + nd ≤ a / 4096 }

/-- The lanes of the slots that hold the state. -/
def stateLanes (n d : Nat) (m : Memory 64) : Memory 64 :=
  (m.keep fun a => slotBase n ≤ a && a ≤ validLane n d).map fun p => (p.1 - slotBase n, p.2)

/-- What a block's work gives: the new row states by row, the outcomes of the rows that it processed, and the array work of
the two engines (R218). -/
structure BlockOut where
  states : List RowState
  rows : List RowOutcome
  scores : ArrayOut
  prods : List ArrayOut
  /-- stored weights that engine e + 1 reads as zero (R134) -/
  nfWeights : Nat
  deriving DecidableEq, Repr

/-- Engines of the pair from `e` on which a check of the block's array work fails (R383). -/
def BlockOut.fails (x : BlockOut) (e : Nat) : List Nat :=
  (if x.scores.failed then [e] else []) ++ (if x.prods.any (·.failed) then [e + 1] else [])

/-- Cells of the array work number `i` of an ABLK: 0 the scores, then the products. -/
def flipsOf (i : Nat) (fs : List Flip) : List Flip :=
  (fs.filter fun f => f.index / 4096 == i).map fun f => { f with index := f.index % 4096 }

/-- The block on its operands (R218, R219). -/
def BlockArgs.run (x : BlockArgs) (fs : List Flip) : BlockOut :=
  let j := x.job
  let f := Desc.fmt j.db
  let rows := (x.q.headD []).length
  let ls := (lscale j.kt5 j.dx).1
  let shift : Int := (pFormat f).2 + x.ev
  let sc := arrayWork j.kt5 x.tolexp (flipsOf 0 fs) (x.q.zip x.k)
  let state := fun r => x.states.getD r (.empty j.headDim .zero)
  -- the stored weights of each row, for the second product
  let pt := (List.range rows).map fun r =>
    let ss := ((x.adms.getD r []).zip (sc.vals.getD r [])).map fun y =>
      if y.1 then some (fp32Out j.kt5 (Fp.mul y.2 ls)).1 else none
    match bestScore ss with
    | none => List.replicate 64 Fp.zero
    | some bm => (rowWeights j.kt5 (state r) bm ss).ps.map fun p => (storedWeight j.kt5 f p).1
  let pa := pt.map fun r => r.map fun p => arrayVal (p, false)
  let prods := x.v.mapIdx fun i t => arrayWork j.kt5 x.tolexp (flipsOf (i + 1) fs) [(pa, t)]
  let outs := (List.range rows).map fun r =>
    blockRow j.kt5 f shift ls (state r) (x.adms.getD r []) (sc.vals.getD r [])
      (prods.flatMap fun p => p.vals.getD r [])
  ⟨outs.map (·.st) ++ x.states.drop rows, outs, sc, prods, (pt.flatMap id).countP fun p => !p.isFinite⟩

/-- The operand tiles of an ABLK (R119, R215). -/
structure BlockTiles where
  q : List OperandIn
  k : List OperandIn
  v : List OperandIn
  deriving DecidableEq, Repr

def Cluster.blockTiles (c : Cluster) (j : Job) (rows : Nat) : BlockTiles :=
  let w := j.word
  let f := Desc.fmt j.db
  let nd := j.headDim / 64
  let at' := fun u n i => c.operand j.kt5 0 (u + i * Format.footprint f) f n
  ⟨(List.range nd).map (at' (wTA w) rows), (List.range nd).map (at' (wTB w) 64),
   (List.range nd).map (at' (wTB w + nd * Format.footprint f) 64)⟩

/-- Busy cycles of the two engines (R167, R216): `nd` steps each of the pairs (DB format, DB format) and (P format, DB
format). -/
def State.blockCycles (s : State) (j : Job) (rows e0 e1 : Nat) : State :=
  let f := Desc.fmt j.db
  let nd := j.headDim / 64
  [(e0, pairCycles j.kt5 f f rows), (e1, pairCycles j.kt5 (pFormat f).1 f rows)].foldl (fun t x =>
    (t.addCycles (Reg.mxeBusycyc j.g x.1) (nd * x.2)).addCycles (Reg.ctxEtmxe j.ctx) (nd * x.2)) s

/-- The arguments of the block's work once some row is live; what reading them counts (R149, R111). -/
def State.blockArgs (s : State) (j : Job) (adms : List (List Bool)) (states : List RowState) (rows : Nat) :
    BlockArgs × State :=
  let x := (s.cl j.g).blockTiles j rows
  let (ev, s1) := s.tensorExp j.g j.ctx j.db
  let past := (x.q ++ x.k ++ x.v).foldl (fun a t => a + t.past) 0
  (⟨j, x.q.map (·.rows), x.k.map (·.rows), x.v.map (·.rows), adms, states, ev, s.get (Reg.mxeChkctl j.g) 4 0⟩,
   s1.violateN (Reg.seqViolcnt j.g) (.ctx j.ctx) past)

/-- The block's work: its arguments and its result, with all counts. -/
def State.ablkWork (s : State) (j : Job) (adms : List (List Bool)) (states : List RowState) (top : Nat) (fs : List Flip) :
    BlockArgs × BlockOut × State :=
  let w := j.word
  let e := abEng w
  let rows := min 64 (roundUp top 8)
  let x := (s.cl j.g).blockTiles j rows
  let (args, s0) := s.blockArgs j adms states rows
  let out := args.run fs
  let vec := out.rows.flatMap (·.vec)
  let s1 := s0.vecCount j.g (satTotal vec) (nfTotal vec + b2n (lscale j.kt5 j.dx).2)
  let s2 := s1.arrayCount j.g e (out.scores.sat + (out.rows.map (·.satScore)).foldl (· + ·) 0)
    ((x.q ++ x.k).foldl (fun a t => a + t.nf) 0) [out.scores]
  let s3 := s2.arrayCount j.g (e + 1) ((out.prods.map (·.sat)).foldl (· + ·) 0 + (out.rows.map (·.fold.1)).foldl (· + ·) 0)
    (x.v.foldl (fun a t => a + t.nf) 0 + out.nfWeights + (out.rows.map (·.fold.2)).foldl (· + ·) 0) out.prods
  (args, out, (s3.blockCycles j rows e (e + 1)).vecBusy j.g j.ctx (8 + (if abLast w then j.headDim / 8 else 0)))

/-- An ABLK ends as a shadow unit (R380–R383): when selected its run waits for the comparison and
its entry stands in the queues of the shadow pair. -/
def State.ablkShadow (s : State) (j : Job) (sel : Bool) (fails : List Nat) (args : Option BlockArgs) : State :=
  let se := shadowPair (abEng j.word) j.step
  let s1 := s.modCl j.g fun c =>
    { c with vord := none,
             shadows := if sel then c.shadows ++ [⟨abEng j.word, se, j.step, stateLanes (abSlot j.word) j.headDim c.wide, fails,
               .ablk args⟩] else c.shadows }
  if sel then s1.modFlight j.flight fun f => { f with engs := f.engs ++ [se, se + 1] } else s1

/-- Must an ABLK wait: behind an entry of its engines' queues (R218), or, selected, for the shadow buffers and queues of the
shadow pair (R382)? -/
def State.ablkWaits (s : State) (j : Job) (sel : Bool) : Bool :=
  let c := s.cl j.g
  let e := abEng j.word
  let se := shadowPair e j.step
  c.engineBefore e j.flight || c.engineBefore (e + 1) j.flight ||
    (sel && [se, se + 1].any fun x => c.shadowBusy x || decide (4 ≤ s.unitLoad j.ctx c.idx (.engine x)))

/-- The ABLK at the head of the vector engine's queue takes its ordinal, once (R380). -/
def State.takeVord (s : State) (g : Nat) : State :=
  match (s.cl g).vord with
  | some _ => s
  | none => s.modCl g fun c => { c with vord := some c.ordinal, ordinal := c.ordinal + 1 }

/-- One ABLK at the head of the vector engine's queue. FIRST empties the slot where no row is live, too: R219 says so of each
ABLK (DEDUCED, log 116). -/
def State.ablkStep (s0 : State) (j : Job) (fs : List Flip) : State × VecRes :=
  let s := s0.takeVord j.g
  let w := j.word
  let e := abEng w
  let sel := s.selected j.g j.ctx e ((s.cl j.g).vord.getD 0) j.step || s.engState j.g (e + 1) == 1
  if s.ablkWaits j sel then (s, .wait)
  else
    let t := j.dx
    let adms := (List.range 64).map (admissible j t)
    let top := liveTop adms
    let d := j.headDim
    let n := abSlot w
    let states := (List.range 64).map (rowState j.kt5 (abFirst w) (s.cl j.g) n d)
    let s1 := s.violateIf (tableBad j t) (Reg.vecViolcnt j.g) (.ctx j.ctx)
    let (args, rs, fails, s2) :=
      if top = 0 then (none, states, [], s1)
      else
        let (args, out, s2) := s1.ablkWork j adms states top fs
        (some args, out.states, out.fails e, s2)
    let s3 := if top = 0 && !abFirst w then s2 else s2.modCl j.g fun c =>
      { c with wide := writeRows n d (abFirst w) (rs.zip (adms.map fun a => a.any id)) c.wide }
    let s4 := s3.ablkShadow j sel fails args
    (if abLast w then s4.ablkLast j rs else s4, .done)

def ablkUsed : Nat := mDA + mDB + mSA + mSB + mTA + mTB + mFN 15 11 + mXT 11 8 + mXT 4 0

end Machine

end Sys2Proof
end

