-- ==== Sys2Proof/Machine/Video.lean ====
section
/-! DEFINITION. VDWC: one tile of a depth-wise or grouped convolution (R245–R247). -/

set_option Elab.async false

namespace Sys2Proof

namespace Machine

def dwT (w : Nat) : Nat := fld (wFN w) 15 13 + 1
def dwH (w : Nat) : Nat := fld (wFN w) 12 10 + 1
def dwW (w : Nat) : Nat := fld (wFN w) 9 7 + 1
def dwDil (w : Nat) : Nat := fld (wFN w) 6 4 + 1

/-- Group width. -/
def Job.groupWidth (j : Job) : Nat := Desc.sizeG j.db

def vdwcReserved (j : Job) : Bool :=
  let gw := j.groupWidth
  !(gw == 1 || gw == 2 || gw == 4 || gw == 8)

def vdwcFormatBad (j : Job) : Bool := !fmtOk j.kt5 (Desc.fmt j.da) || !fmtOk j.kt5 (Desc.fmt j.db)

/-- The taps (a, b, k, i) in the order of the chain: a slowest, i fastest. -/
def dwTaps (j : Job) : List (Nat × Nat × Nat × Nat) :=
  let w := j.word
  (List.range (dwT w)).flatMap fun a => (List.range (dwH w)).flatMap fun b =>
    (List.range (dwW w)).flatMap fun k => (List.range j.groupWidth).map fun i => (a, b, k, i)

/-- Offset of the weight for a tap and channel, none outside DB's extents. -/
def dwOff (d : List Byte) (t : Nat × Nat × Nat × Nat) (n : Nat) : Option Nat :=
  let (a, b, k, i) := t
  if !Desc.empty d && a < Desc.size d 1 && b < Desc.size d 2 && k < Desc.size d 3 && i < Desc.sizeG d
      && n < Desc.sizeC d then
    some (a * Desc.stride d 1 + b * Desc.stride d 2 + k * Desc.stride d 3 + i * Desc.strideG d + n)
  else none

/-- An input of the chain and what its decoding counts: an integer exactly, another element in FP32, with the tensor exponent
removed where the format takes it (R129, R150, R191). -/
def dwIn (kt5 : Bool) (f : Nat) (ex : Int) (v : Fp × Bool) : Fp × Cnt :=
  if Format.integer f then (flushIf kt5 .fp32 (v.1.scale2 (if Format.usesExp f then -ex else 0)), .none)
  else
    let p := toPat f ex v
    (Chain.laneFp kt5 p.p, p.cnt)

/-- A strip's 128 rows of inputs, and what reading them counts besides. -/
structure Strip where
  rows : List (List (Fp × Cnt))
  scaleNf : Nat
  past : Nat
  deriving DecidableEq, Repr

/-- A strip, all 128 rows of it. Each of its two tiles is one access that R111 counts where it lies beyond the tile store, whether
or not a tap reads it (DESIGN CHOICE, log 118). -/
def Cluster.strip (c : Cluster) (j : Job) (ex : Int) (s : Nat) : Strip :=
  let f := Desc.fmt j.da
  let u := wTA j.word + 2 * s * Format.footprint f
  let n := Format.span f 64
  let tiles := [u, u + Format.footprint f].map fun v => (List.range 64).map (tileRow j.kt5 f (c.tileRead (256 * v) n))
  let rs := tiles.flatMap id
  ⟨rs.map fun r => r.vals.map (dwIn j.kt5 f ex), (rs.map (·.scaleNf)).foldl (· + ·) 0,
   b2n (tileOver (256 * u) n) + b2n (tileOver (256 * (u + Format.footprint f)) n)⟩

/-- The chain of one output element, with the first event that it meets (R192). `x` gives an input by strip, row and channel;
`wt` the weights by tap number. -/
def dwChain (j : Job) (x : Nat → Nat → Nat → Fp) (wt : Nat → Fp) (m n : Nat) : Fp × Cnt :=
  let gw := j.groupWidth
  (dwTaps j).zipIdx.foldl (fun acc t =>
    let (a, b, k, i) := t.1
    let xv := x (a * dwH j.word + b) (m + k * dwDil j.word) (gw * (n / gw) + i)
    let wv := wt t.2
    let o := Chain.finish false j.kt5 [wv, xv, acc.1] (Fp.add (Fp.mul wv xv) acc.1)
    (o.v, Chain.first acc.2 o.cnt)) (.zero, .none)

/-- VDWC (R245–R247). The codes of every row of every strip count, those that no tap reads too (DESIGN CHOICE, log 118). -/
def State.vdwc (s : State) (j : Job) : State :=
  let w := j.word
  let taps := dwTaps j
  let (ea, s1) := s.tensorExp j.g j.ctx j.da
  let (eb, s2) := s1.tensorExp j.g j.ctx j.db
  let strips := (List.range (dwT w * dwH w)).map ((s.cl j.g).strip j ea)
  let r := s2.readElems (Reg.vecViolcnt j.g) j.ctx j.kt5 j.db (taps.flatMap fun t => (List.range 64).map (dwOff j.db t))
  let wts := r.vals.map (dwIn j.kt5 (Desc.fmt j.db) eb)
  let x := fun st row ch => match strips[st]? with
    | some sp => ((sp.rows.getD row []).getD ch (.zero, .none)).1
    | none => .zero
  let outs := (List.range 4096).map fun i =>
    dwChain j x (fun t => (wts.getD (64 * t + i % 64) (.zero, .none)).1) (i / 64) (i % 64)
  let dec := (strips.flatMap fun sp => sp.rows.flatMap fun row => row.map (·.2)) ++ wts.map (·.2)
  let all := dec ++ outs.map (·.2)
  let s3 := r.st.vecCount j.g (satTotal all) (nfTotal all + r.scaleNf + (strips.map (·.scaleNf)).foldl (· + ·) 0)
  let s4 := s3.violateN (Reg.seqViolcnt j.g) (.ctx j.ctx) ((strips.map (·.past)).foldl (· + ·) 0)
  (s4.writeTileRuns j.g j.ctx .tile [(256 * wTB w, outs.flatMap fun o => leBytes 4 (to32 o.1).toNat)]).vecBusy j.g j.ctx
    (8 * dwT w * dwH w * dwW w * j.groupWidth)

end Machine

end Sys2Proof
end

