-- ==== Sys2Proof/Machine/VectorRun.lean ====
section
/-! DEFINITION. The queue of the vector engine, and the commands of the vector, attention, random, update and numerics classes
and of the tray's pops (R95, R100, R130, R190, R207–R209). -/

set_option Elab.async false

namespace Sys2Proof

namespace Machine

/-- One step of an instruction of the queue; the cells in `fs` disturb the array work of an ABLK. -/
def State.vecStep (s : State) (j : Job) (fs : List Flip) : State × VecRes :=
  match wOp j.word with
  | 0x40 => s.vchainStep j
  | 0x41 => s.vredStep j
  | 0x42 => (s.vshuf j, .done)
  | 0x43 => (s.vdwc j, .done)
  | 0x50 => s.ablkStep j fs
  | 0x58 => (s.rmask j, .done)
  | 0x60 => (s.update j, .done)
  | 0x61 => (s.update j, .done)
  | 0x62 => (if upCount j.word = 0 then s.normClose j else s.normsq j, .done)
  | 0x63 => (s.fold j, .done)
  | 0x80 => (s.scaleupd j, .done)
  | _ => (s.health j, .done)

/-- The head instruction has finished. -/
def State.popVector (s : State) (g : Nat) (j : Job) : State :=
  (s.modCl g fun c => { c with vq := c.vq.drop 1, vpos := 0 }).markReady j.flight

/-- Run the queue until it is empty or its head waits; a tile is taken at each turn. -/
def State.vecGo (s : State) (g : Nat) (fs : List Flip) : Nat → State
  | 0 => s
  | fuel + 1 =>
    match (s.cl g).vq with
    | [] => s
    | j :: _ =>
      match s.vecStep j fs with
      | (t, .wait) => t
      | (t, .more) => (t.modCl g fun c => { c with vpos := c.vpos + 1 }).vecGo g [] fuel
      | (t, .done) => (t.popVector g j).vecGo g [] fuel

/-- Four instructions of at most 4,095 tiles each. -/
def State.vectorRun (s : State) (g : Nat) : State := s.vecGo g [] (4 * 4096)

/-- Enter an instruction into the queue; the engine takes it at once when it is free. -/
def State.vecEnqueue (s : State) (j : Job) (fs : List Flip) : State :=
  let free := (s.cl j.g).vq.isEmpty
  let s1 := s.modCl j.g fun c => { c with vq := c.vq ++ [j] }
  if free then s1.vecGo j.g fs (4 * 4096) else s1

/-- Enter an instruction unless its codes are reserved or a format is excluded. One that has both takes the path of its reserved
codes (R100 before R130; DESIGN CHOICE, log 118). -/
def State.vecIssue (s : State) (reserved formatBad : Job → Bool) (j : Job) : State :=
  if reserved j then s.dropReserved j
  else if formatBad j then s.dropFormat j
  else s.vecEnqueue j []

/-- Issue an instruction of one opcode to the vector engine. -/
def State.vecCmd (s : State) (g op : Nat) (regs : Fetch → List Nat) (used : Nat) (reserved formatBad : Job → Bool) : State :=
  s.issueData g (fun w => wOp w == op) regs (fun _ => .vector) (fun _ => used) fun j t => t.vecIssue reserved formatBad j

def never (_ : Job) : Bool := false

/-! ### Vector class -/

/-- Registers that a VCHAIN reads: SA, SB, those that its program names, and with a stochastic rounding s3. -/
def vchainRegs (g : Nat) (f : Fetch) : List Nat :=
  let w := f.word
  let d := (f.st.readDesc g f.n (wDC w)).1
  (dataRegs (vcDst w == 1) (Chain.yen d) false w) ++ (if Chain.orgreg d = 0 then [] else [Chain.orgreg d])
    ++ stepReg (Chain.rnd d)
    ++ ((List.range (Chain.nst d + 1)).map (Chain.raw d)).filterMap fun v =>
      if Chain.csel v < 8 && Chain.cbase d + Chain.csel v < 64 then some (Chain.cbase d + Chain.csel v) else none

def vchainUsed : Nat := mDA + mDB + mDC + mSA + mSB + mTA + mTB + mFN 15 0 + mXT 11 0

def execVchain (g : Nat) (s : State) : Host.Outcome State Fault Refusal :=
  .next (s.vecCmd g 0x40 (vchainRegs g) vchainUsed vchainReserved vchainFormatBad)

def vredUsed : Nat := mDA + bitsOf 97 95 + mTA + mTB + mFN 15 0 + mXT 11 0

def execVred (g : Nat) (s : State) : Host.Outcome State Fault Refusal :=
  .next (s.vecCmd g 0x41 (fun _ => []) vredUsed vredReserved vredFormatBad)

def execVshuf (g : Nat) (s : State) : Host.Outcome State Fault Refusal :=
  .next (s.vecCmd g 0x42 (fun _ => []) (mFN 15 8 + mXT 11 0) vshufReserved never)

def execVdwc (g : Nat) (s : State) : Host.Outcome State Fault Refusal :=
  .next (s.vecCmd g 0x43 (fun _ => []) (mDA + mDB + mTA + mTB + mFN 15 4) vdwcReserved vdwcFormatBad)

def execAblk (a : ArrayRun) (s : State) : Host.Outcome State Fault Refusal :=
  .next (s.issueData a.g (fun w => wOp w == 0x50) (fun f => dataRegs true true false f.word) (fun _ => .vector)
    (fun _ => ablkUsed) fun j t =>
      if ablkReserved j then t.dropReserved j
      else if ablkFormatBad j then t.dropFormat j
      else let (j1, t1) := t.readTable j; t1.vecEnqueue j1 a.flips)

def execRmask (g : Nat) (s : State) : Host.Outcome State Fault Refusal :=
  .next (s.vecCmd g 0x58 (fun f => dataRegs true true true f.word)
    (mDA + mSA + mSB + mSC + mTB + mFN 15 0 + mXT 11 3) rmaskReserved rmaskFormatBad)

/-! ### Update class -/

def updUsed : Nat := mDA + mDB + mDC + mSA + mSB + mSC + mFN 15 0

/-- Issue an UPDATE or an UPDSPARSE: the checks of R327 that make it a no-op come first. -/
def State.updateIssue (s : State) (g op : Nat) : State :=
  s.issueData g (fun w => wOp w == op) (fun f => dataRegs true true true f.word) (fun _ => .vector) (fun _ => updUsed)
    fun j t => t.vecIssue t.updateReserved updFormatBad j

def execUpdate (g : Nat) (s : State) : Host.Outcome State Fault Refusal := .next (s.updateIssue g 0x60)

def execUpdsparse (g : Nat) (s : State) : Host.Outcome State Fault Refusal := .next (s.updateIssue g 0x61)

def normUsed : Nat := mDA + mSA + mFN 11 0 + mXT 4 0

def execNormsq (g : Nat) (s : State) : Host.Outcome State Fault Refusal :=
  .next (s.issueData g (fun w => wOp w == 0x62 && upCount w != 0) (fun f => dataRegs true false false f.word)
    (fun _ => .vector) (fun _ => normUsed) fun j t => t.vecIssue never normFormatBad j)

def execNormsqClose (g : Nat) (s : State) : Host.Outcome State Fault Refusal :=
  .next (s.issueData g (fun w => wOp w == 0x62 && upCount w == 0) (fun f => dataRegs true false false f.word)
    (fun _ => .vector) (fun _ => normUsed) fun j t => t.vecIssue never normFormatBad j)

def execFold (g : Nat) (s : State) : Host.Outcome State Fault Refusal :=
  .next (s.vecCmd g 0x63 (fun _ => []) (mDA + mDB + mFN 11 0) never foldFormatBad)

/-! ### Numerics class: both read the step in s3 (R97, R152, R154) -/

def execScaleupd (g : Nat) (s : State) : Host.Outcome State Fault Refusal :=
  .next (s.vecCmd g 0x80 (fun _ => [3]) mDA never scaleFormatBad)

def execHealth (g : Nat) (s : State) : Host.Outcome State Fault Refusal :=
  .next (s.vecCmd g 0x81 (fun _ => [3]) (mDA + mTA + mFN 15 15 + mFN 13 0) never healthFormatBad)

/-! ### Completion and pops of the tray -/

/-- Engines that stalled go on, and so does an ABLK that waited at the head of the vector engine's queue (R218, R382). -/
def State.runWaiting (s : State) (g : Nat) : State :=
  let t := s.runEngines g
  match (t.cl g).vq with
  | j :: _ => if wOp j.word = 0x50 then (t.vectorRun g).runEngines g else t
  | [] => t

/-- s3 of a context's cluster, by logical index: in the cluster that runs it, or in its cocoon (R73). -/
def State.stepOf (s : State) (n idx : Nat) : Nat :=
  match (s.ctx n).cocoon with
  | some co => (co.images[idx]?.map fun im => sreg im.cl.sregs 3).getD 0
  | none => ((s.clusterAt n idx).map fun g => sreg (s.cl g).sregs 3).getD 0

/-- The context and step that carry an event of an instruction in flight, that of a cocooned context too (R375, R376). -/
def State.flightCarrier (s : State) (f : Flight) : Option (Nat × Nat) := some (f.ctx, s.stepOf f.ctx f.idx)

/-- INSTRUCTION_COMPLETE: an instruction whose effects are visible adds one to its counter (R94), with the errors detected on
its paths and in the stores that it used (R377, R378). That of a unit which holds its work waits (R424, R432); one that
stands in several queues is served in their order (R187, R218, R382). -/
def execInstructionComplete (e : Ending) (s : State) : Host.Outcome State Fault Refusal :=
  .next (
    match Tab.find s.flights e.no with
    | none => s
    | some f =>
      if f.ready && f.op != 0x04 && s.running && !s.flightHeld f && s.queueTurn e.no f then
        ((s.detect (s.flightCarrier f) e.events).complete e.no f).runWaiting f.g
      else s)

/-- The next tile of a job comes from the tray. -/
def popsTray (j : Job) : Bool :=
  (wOp j.word == 0x40 && vcSrc j.word == 1) || (wOp j.word == 0x41 && vrSrc j.word == 1)

/-- TRAY_POP: the head instruction that waited on an empty tray takes the tile that has arrived (R209). -/
def execTrayPop (g : Nat) (s : State) : Host.Outcome State Fault Refusal :=
  .next (s.whenRunning <|
    match (s.cl g).vq with
    | [] => s
    | j :: _ =>
      if popsTray j && !(s.cl g).tray.isEmpty then (s.addCycles (Reg.tryEmptycyc g) 0).vectorRun g else s)

end Machine

end Sys2Proof
end

