-- ==== Sys2Proof/Machine/Reset.lean ====
section
/-! DEFINITION. The partition reset (R46, R47, R52, R55, R126, R273, R293). -/

set_option Elab.async false

namespace Sys2Proof

namespace Machine

/-- Executing and fetched commands of a context complete with RESET; a LAUNCH that waits at a head is one of them (R55, R415). -/
def State.resetCommands (s : State) (n : Nat) : State :=
  let s1 := (List.range 8).foldl (fun t i =>
    let q := 8 * n + i
    let t1 := t.modQueue q fun x => match x.waiting with
      | some c => { x with waiting := none, running := x.running ++ [c] }
      | none => x
    (t1.queue q).running.foldl (fun u c => u.completeCmd c stReset) t1) s
  let s2 := s1.modCtx n fun x => { x with launch := none, arrivals := [] }
  if (s.ctx n).launch.isSome || !(s.ctx n).arrivals.isEmpty then s2.endRestored n else s2

/-- Every instruction in flight of a context is abandoned, with its collectives, votes, barriers and ledger work (R126). -/
def State.abandon (s : State) (n : Nat) : State :=
  let s1 := s.abandonColls n
  let ids := (s1.flights.filter fun f => f.2.ctx == n).map (·.1)
  let s2 := { s1 with
    flights := s1.flights.filter fun f => f.2.ctx != n,
    pagesLeft := s1.pagesLeft.filter fun f => !ids.contains f.1,
    pools := s1.pools.map fun (p : Nat × Pool) => (p.1, { p.2 with ops := p.2.ops.filter fun o => o.ctx != n }) }
  (s2.modStp fun x => { x with cvotes := x.cvotes.filter fun v => v.ctx != n, waiting := x.waiting.filter (· != n) }).modCtx n
    fun x => { x with release := none, runnable := false }

/-- The ledger instructions in flight of a context that is, or becomes, COCOONED are abandoned too (R273); its other work
outside the partition goes on, for its cocoon is kept. -/
def State.abandonLedger (s : State) (n : Nat) : State :=
  let mine := fun (f : Nat × Flight) => f.2.ctx == n && f.2.unit == .ledger
  let ids := (s.flights.filter mine).map (·.1)
  { s with
    flights := s.flights.filter fun f => !mine f,
    pagesLeft := s.pagesLeft.filter fun f => !ids.contains f.1 }

/-- The run of a context ends by a partition reset, as the table of R55 states. One that was WAKING is COCOONED again with
RESUME written, so it is runnable still and keeps its place (R79); its cached entries go (R283). -/
def State.resetContext (s : State) (n : Nat) : State :=
  let st := s.cstate n
  if st = stRunning || st = stParking then
    let s1 := (s.resetCommands n).abandon n
    let s2 := s1.modCtx n fun x => { x with commit := none, cocoon := none, byQuantum := false, byPreempt := false, resumed := false }
    (s2.releaseClusters n).setCstate n stBound (if st = stParking then stIncomplete else stReset)
  else if st = stWaking then
    let s1 := ((s.abandonLedger n).releaseClusters n).modCtx n fun x => { x with runnable := true }
    (s1.dropCaches n).setCstate n stCocooned stReset
  else if st = stCocooned then s.abandonLedger n
  else s

/-- A cluster without on-chip state; its power state stays. -/
def Cluster.cleared (c : Cluster) : Cluster :=
  { Cluster.blank with pool := c.pool, busy := c.busy, inactive := c.inactive, held := c.held }

/-- A register in the window of cluster `g`: blocks SEQ, MXE, VEC and TRY. -/
def inWindow (g off : Nat) : Bool := decide (off / 0x10000 = 0x40 + g)

/-- A cluster is reset: its on-chip state is zero (R52), and the registers of its blocks have their reset values (R16,
R213; log 101). -/
def State.resetCluster (s : State) (g : Nat) : State := (s.clearRegs (inWindow g)).modCl g Cluster.cleared

/-- Reset partition p: contexts, clusters, ledger pools, credit pools and the counts of shared granules (R46). An open
pre-emption window ends unrecorded (log 29). -/
def State.resetPartition (s : State) (p : Nat) : State :=
  let cs := s.ctxsOf p
  let s1 := cs.foldl (fun t n => t.resetContext n) s
  let s2 := (s1.members p).foldl (fun t g => t.resetCluster g) s1
  let s3 := (s2.poolsOf p).foldl (fun t k => t.clearPool k) s2
  let s4 := { (s3.rebuildCredits p).recountShared p with windows := s3.windows.filter (·.part != p) }
  if s4.jobCtx != 0 && s4.boundTo s4.jobCtx p then s4.resetSnapshots else s4

end Machine

end Sys2Proof
end

