-- ==== Sys2Proof/Machine/Reliability.lean ====
section
/-! DEFINITION. Shadow comparison, draining, the patrol scrub, in-field tests and the service commands SELFTEST and CLTEST
(R378, R383–R386, R391–R397). -/

set_option Elab.async false

namespace Sys2Proof

namespace Machine

/-! ### SHADOW_COMPARE (R382–R384) -/

/-- Cells of a shadow's array by the elements that they compute (R381). -/
def placeFlips (step : Nat) (fs : List Flip) : List Flip :=
  fs.map fun f => { f with index := f.index / 4096 * 4096 + cellElem step (f.index % 4096) }

/-- A shadow run: its result in the form of the unit's, and whether a check of the run failed. -/
structure ShadowOut where
  result : Memory 64
  failed : Bool
  deriving DecidableEq, Repr

/-- The shadow of an MMA unit makes its last spill, with the checks at LAST (R175, R176, R381, R383). `x` is the accumulation
with the shadow's partials. -/
def mmaShadow (kt5 : Bool) (x : Accum) (sums : Memory 64) (tol : Fp) (failed : Bool) : ShadowOut :=
  let out := spillInto kt5 x.integer 0 sums x.part
  let last := x.afterSpill kt5 false
  ⟨out.keep fun i => decide (i < 64 * x.mrows),
   failed || !(x.rowFails tol).isEmpty || !(last.colFails tol fun i => f64 (out.read i)).isEmpty || last.cornerFails tol⟩

/-- The state that the shadow of an ABLK leaves: the rows that it processed in place of the unit's (R383). -/
def BlockArgs.shadow (x : BlockArgs) (orig : Memory 64) (out : BlockOut) : Memory 64 :=
  writeRows 0 x.job.headDim (abFirst x.job.word) (out.states.zip (x.adms.map fun a => a.any id)) orig

/-- Run a shadow to its end; the cells in `fs` are places of its own array. -/
def ShadowUnit.out (u : ShadowUnit) (tolexp : Nat) (fs : List Flip) : ShadowOut :=
  let cs := placeFlips u.step fs
  match u.work with
  | .mma kt5 acc sums interval failed =>
    mmaShadow kt5 { acc with part := flipParts acc.part (cs.filter fun f => f.index < 4096) } sums
      (tolerance tolexp interval) failed
  | .ablk none => ⟨u.orig, false⟩
  | .ablk (some x) => let o := x.run cs; ⟨x.shadow u.orig o, !(o.fails 0).isEmpty⟩

/-- Engines of a unit and those of the other run, pair by pair. -/
def ShadowUnit.pairs (u : ShadowUnit) : List (Nat × Nat) := u.engs.zipIdx.map fun x => (u.eng + x.2, x.1)

/-- The unit's own run failed a check. -/
def ShadowUnit.origFailed (u : ShadowUnit) : Bool := !u.origFails.isEmpty

/-- A mismatch: source 1h for the pair, and the watch states of both engines. When only the shadow's run failed its checks
the event sets neither SUSPECT nor FAULT (R384). -/
def State.shadowMismatch (s : State) (g : Nat) (u : ShadowUnit) (failed : Bool) : State :=
  let ev : Event := ⟨1, u.eng, g, true, 0, s.carrier g, false⟩
  let s1 := s.addSat Reg.chkShmiss 31 0 1
  let s2 := if failed && !u.origFailed then s1.queueFault ⟨stSuspect, 1, u.eng, s1.eventStep ev, g, false, 0⟩
    else s1.raiseEvent ev
  u.pairs.foldl (fun t x =>
    (t.mismatchOn g x.1 (t.eventStep ev) u.origFailed failed (u.origFails.contains x.1)).mismatchOn g x.2 (t.eventStep ev)
      failed u.origFailed false) s2

/-- Cycles that the shadow pair of an ABLK is busy, added to BUSYCYC and CTX.ETMXE; an MMA's are added as the shadow consumes
its operands (R382). -/
def State.shadowBusycyc (s : State) (u : ShadowUnit) : State :=
  match u.work with
  | .ablk (some x) => s.blockCycles x.job (x.q.headD []).length u.shEng (u.shEng + 1)
  | _ => s

/-- The shadow run of unit `u` ends: its result is compared bit for bit, and its buffer is free (R383). -/
def State.endUnit (s : State) (g : Nat) (u : ShadowUnit) (flips : List Flip) : State :=
  let out := u.out (s.get (Reg.mxeChkctl g) 4 0) flips
  let t := ((s.modCl g fun c => { c with shadows := c.shadows.erase u }).shadowBusycyc u).addWrap Reg.chkShadows 63 0 1
  if out.result = u.orig then t else t.shadowMismatch g u out.failed

/-- The oldest unit of engine `e` whose shadow run waits, with the errors that the run's paths and stores show (R377, R378);
engines that hold their work keep the run from ending (R424). -/
def State.shadowCompare (s : State) (g e : Nat) (flips : List Flip) (events : List FaultIn) : State :=
  match (s.cl g).shadows.find? fun u => u.eng == e with
  | none => s
  | some u => if u.engs.any (s.unitHeld g) then s else (s.detect (s.carrier g) events).endUnit g u flips

/-- SHADOW_COMPARE, after which the selected units that waited for the shadow buffer go on (R382). -/
def execShadowCompare (g e : Nat) (flips : List Flip) (events : List FaultIn) (s : State) : Host.Outcome State Fault Refusal :=
  .next (s.whenRunning <| (s.shadowCompare g e flips events).runWaiting g)

/-! ### PATROL_SCRUB (R378) -/

/-- An error that no instruction carries: one of a path or a store, or the parity failure of a service core. -/
def uncarried (e : FaultIn) : Bool := (decide (2 ≤ e.source) && decide (e.source ≤ 5)) || (e.source == 7 && decide (e.unit < 8))

/-- The scrub finds errors of HBM and DDR5. Errors of the paths and on-chip stores that no instruction carries, and the parity
failures of service cores, are reported with it (R377, R379, log 38); a take that reads an uncorrectable one ends (R404). -/
def execPatrolScrub (events : List FaultIn) (s : State) : Host.Outcome State Fault Refusal :=
  .next (s.whenRunning <| (s.detect none (events.filter uncarried)).failTakes events)

/-! ### In-field tests (R391–R394) -/

/-- CHK.TEST:STATE: 0 passed, 1 due, 2 running, 3 failed. -/
def State.testState (s : State) (g : Nat) : Nat := s.get (Reg.chkTest g) 31 30
def State.setTest (s : State) (g v : Nat) : State := s.set (Reg.chkTest g) 31 30 v

def State.modChk (s : State) (f : Chk → Chk) : State := { s with chk := f s.chk }

/-- The rotating spare of its partition. -/
def State.isSpare (s : State) (g : Nat) : Bool :=
  match s.partOfCl g with
  | some p => Tab.find s.chk.spares p == some g
  | none => false

/-- Opportunities 1 to 3: no partition, no context at work in it, or the rotating spare. -/
def State.testable (s : State) (g : Nat) : Bool :=
  (match s.partOfCl g with
   | some p => !s.partLive p
   | none => true) || s.isSpare g

/-- The test overwrites the cluster's on-chip state with values of its own; the tray is empty and its counters agree (R213). -/
def State.startTest (s : State) (g : Nat) : State :=
  let (x, s1) := s.draw
  let b := Config.testBytes x
  ((s1.modCl g fun c => { c.cleared with
      tile := Memory.ofList 0 (b.take tileBytes), trans := Memory.ofList 0 ((b.drop tileBytes).take (2 * halfBytes)),
      wide := Memory.ofList 0 ((Config.testLanes x).take 131072) }).emptyTray g).setTest g 2

/-- INFIELD_TEST_START: a due cluster, or a rotating spare whether or not it is due. -/
def execInfieldTestStart (g : Nat) (s : State) : Host.Outcome State Fault Refusal :=
  .next (s.whenRunning <|
    if g < 64 && s.testable g && (s.testState g == 1 || (s.testState g == 0 && s.isSpare g && !s.chk.spareTested.contains g))
    then s.startTest g else s)

/-- The CLTESTs that a cluster's test serves complete. -/
def State.endCltests (s : State) (g st : Nat) : State :=
  (Tab.getD [] s.chk.cltests g).foldl (fun t c => t.completeCmd c st)
    (s.modChk fun x => { x with cltests := Tab.erase x.cltests g })

/-- A test that a confirmation abandons records no result: the cluster is due again (R397), and a CLTEST that it served has
started and not completed (log 103). -/
def State.abandonTest (s : State) (g : Nat) : State :=
  if s.testState g = 2 then (s.setTest g 1).endCltests g stIncomplete else s

/-- A failed test raises source 8h and confirms every engine of the cluster (R384, R391). -/
def State.failCluster (s : State) (g : Nat) : State :=
  let ev : Event := ⟨8, 0, g, true, 0, none, false⟩
  let s1 := (s.setTest g 3).raiseEvent ev
  let s2 := (List.range 16).foldl (fun t e => t.setEngState g e 2) s1
  s2.confirm 0 g (s2.eventStep ev)

/-- INFIELD_TEST_DONE. -/
def execInfieldTestDone (g : Nat) (pass : Bool) (s : State) : Host.Outcome State Fault Refusal :=
  .next (s.whenRunning <|
    if s.testState g != 2 then s
    else if s.get Reg.chkStat 30 30 = 1 then s.abandonTest g
    else
      let s1 := s.modChk fun x => { x with forced := x.forced.filter (· != g) }
      let s2 := if pass then
          ((s1.setTest g 0).set (Reg.chkTest g) 15 0 0).modChk fun x =>
            { x with spareTested := if s1.isSpare g then x.spareTested ++ [g] else x.spareTested }
        else s1.failCluster g
      s2.endCltests g stOk)

/-- TEST_DUE: INTERVAL minutes after the last pass. In a held reset nothing falls due (R488). -/
def execTestDue (g : Nat) (s : State) : Host.Outcome State Fault Refusal :=
  .next (
    if s.sec.bootStep != 0 && decide (g < 64) && s.testState g == 0 && s.get Reg.chkTestcfg 15 0 != 0 then
      (s.setTest g 1).set (Reg.chkTest g) 15 0 (s.get Reg.chkTestcfg 15 0)
    else s)

/-- TEST_OVERDUE: queued by the sentinel; the context on the cluster is pre-empted and becomes runnable again (R393). -/
def execTestOverdue (g : Nat) (s : State) : Host.Outcome State Fault Refusal :=
  .next (
    if s.sec.bootStep != 0 && decide (g < 64) && s.testState g == 1 && !s.chk.forced.contains g then
      let ev : Event := ⟨9, 0, g, true, 0, none, false⟩
      let s1 := (s.queueFault ⟨stTestOverdue, 9, 0, s.eventStep ev, g, false, 0⟩).modChk fun x => { x with forced := x.forced ++ [g] }
      match (s.cl g).ctx with
      | some n => if s1.cstate n = stRunning then s1.park n false else s1
      | none => s1
    else s)

/-! ### Service commands (R396) -/

/-- A context other than 0 is RUNNING, PARKING or WAKING. -/
def State.anyLive (s : State) : Bool := s.knownCtxs.any fun n => liveState (s.cstate n)

/-- SELFTEST; one that comes while another runs is served by the tests that run (log 102). -/
def execSelftest (q : Nat) (s : State) : Host.Outcome State Fault Refusal :=
  .next (s.service q 0xA0 fun c t =>
    if t.anyLive || t.get Reg.chkStat 31 31 == 1 then t.completeCmd c stBusy
    else t.modChk fun x => { x with selftest := x.selftest ++ [c] })

/-- Confirm a unit that SELFTEST found faulty. -/
def State.selfFail (s : State) (e : FaultIn) : State :=
  if e.source = 8 then s.failCluster e.loc
  else s.confirm e.unit e.loc (s.eventStep ⟨e.source, e.unit, e.loc, e.cluster, e.addr, none, false⟩)

/-- SELFTEST_COMPLETE. -/
def execSelftestComplete (failed : List FaultIn) (s : State) : Host.Outcome State Fault Refusal :=
  .next (s.whenRunning <|
    if s.chk.selftest.isEmpty then s
    else s.chk.selftest.foldl (fun t c => t.completeCmd c stOk)
      ((failed.foldl (fun t e => t.selfFail e) s).modChk fun x => { x with selftest := [] }))

/-- A CLTEST waits for the test of its cluster. -/
def State.awaitTest (s : State) (g : Nat) (c : Cmd) : State :=
  s.modChk fun x => { x with cltests := Tab.put x.cltests g (Tab.getD [] x.cltests g ++ [c]) }

/-- CLTEST: when opportunity 1 or 2 of R392 holds. A test that runs already serves it (log 102). -/
def execCltest (q : Nat) (s : State) : Host.Outcome State Fault Refusal :=
  .next (s.service q 0xA1 fun c t =>
    let g := fld c.arg0 5 0
    if !t.testable g then t.completeCmd c stBusy
    else (if t.testState g = 2 then t else t.startTest g).awaitTest g c)

/-! ### REGION_PATH_FAILURE (R45, R271) -/

/-- The path of a pool's SPILL or HOST region fails with records on it: their state would be lost, so the partition of the
pool's owner is reset. -/
def execRegionPathFailure (k : Nat) (host : Bool) (s : State) : Host.Outcome State Fault Refusal :=
  .next (
    let n := s.poolOwner k
    if s.enabledPools.contains k && ((s.pool k).recs.any fun r => r.2.state == if host then 4 else 3)
        && n != 0 && s.cstate n != stFree then
      s.resetPartition (s.partOf n)
    else s)

/-! ### DRAIN_RESET (R386) -/

/-- Every partition is reset, HEARTBEATs stop and DRAINING is cleared. -/
def execDrainReset (s : State) : Host.Outcome State Fault Refusal :=
  .next (s.whenRunning <|
    if s.get Reg.chkStat 30 30 = 1 then
      let s1 := (List.range 64).foldl (fun t p => if t.partExists p then t.resetPartition p else t) s
      let s2 := (List.range 64).foldl (fun t g => t.abandonTest g) s1
      (s2.modStp fun x => { x with beats := false }).set Reg.chkStat 30 30 0
    else s)

end Machine

end Sys2Proof
end

