-- ==== Sys2Proof/Machine/Power.lean ====
section
/-! DEFINITION. Clocks, the governor, issue tokens, the cap in force, the ramp limiter, boosts and the thermal trip (R419–
R434, R108). -/

set_option Elab.async false

namespace Sys2Proof

namespace Machine

def State.modPwr (s : State) (f : Pwr → Pwr) : State := { s with pwr := f s.pwr }

/-- The power controller works: it is powered and clocked, and no reset is held (R430, R435). -/
def State.pwrAlive (s : State) : Bool :=
  !s.pins.thermtrip && s.sec.bootStep != 0 && s.powerState != 2 && !(s.powerState == 4 && s.pwr.low == 2)

/-! ### The cap in force (R427) -/

/-- PWR.CAP as far as it is in force: a value written in a low-power state is so from wake (R436). -/
def State.capReg (s : State) : Nat :=
  match s.pwr.capWas with
  | some v => v
  | none => s.reg Reg.pwrCap

/-- The least of CAP, FASTCAP while CAPLIM_N is asserted, and the sentinel cap while one is set. -/
def State.capInForce (s : State) : Nat :=
  let c := fld s.capReg 15 0
  let c1 := if s.get Reg.pwrStat 26 26 = 1 then min c (fld s.capReg 31 16) else c
  if s.get Reg.senStat 31 31 = 1 then min c1 (s.get Reg.senStat 15 0) else c1

/-- CAPEFF shows the cap in force while the power controller is powered, which it is but in Dormant (R435, R446). -/
def State.refreshCap (s : State) : State :=
  if s.powerState != 2 && !(s.powerState == 4 && s.pwr.low == 2) then s.set Reg.pwrStat 15 0 s.capInForce else s

/-- Is a field of PWR.CAP in range (R446)? -/
def capOk (w : Nat) : Bool := decide (0x4B0 ≤ w) && decide (w ≤ 0xBB8)

/-- Does a masked write leave a field out of its range? -/
def badField (mask v hi lo : Nat) (ok : Nat → Bool) : Bool := fld mask hi lo != 0 && !ok (fld v hi lo)

/-- Write a field where the mask covers it and its value is accepted. -/
def State.writeField (s : State) (off hi lo mask v : Nat) (ok : Nat → Bool) : State :=
  if fld mask hi lo != 0 && ok (fld v hi lo) then s.set off hi lo (fld v hi lo) else s

/-- A write to PWR.CAP: a field out of range is discarded, and the write counts once. -/
def State.writeCap (s : State) (o : Origin) (mask v : Nat) : State :=
  let bad := badField mask v 31 16 capOk || badField mask v 15 0 capOk
  let s1 := (s.writeField Reg.pwrCap 31 16 mask v capOk).writeField Reg.pwrCap 15 0 mask v capOk
  let s2 := s1.violateIf bad Reg.pwrViolcnt o
  (if s.powerState = 0 || s.powerState = 3 then s2 else s2.modPwr fun x => { x with capWas := some s.capReg }).refreshCap

/-- A write to PWR.OPSET: it takes effect at the next governor epoch, and slope 11b is discarded (R421, R432, R446). -/
def State.writeOpset (s : State) (o : Origin) (mask v : Nat) : State :=
  ((s.writeField Reg.pwrOpset 3 2 mask v (· != 3)).writeField Reg.pwrOpset 1 0 mask v fun _ => true).violateIf
    (badField mask v 3 2 (· != 3)) Reg.pwrViolcnt o

/-- CAPLIM_N at a level, low when it is asserted. Under a held reset and in Dormant only the pin changes (R494); without VIO it
is ignored (R486). -/
def execCaplimN (level : Bool) (s : State) : Host.Outcome State Fault Refusal :=
  .next (
    let t := if s.pins.vio then { s with pins := { s.pins with caplimN := level } } else s
    if s.pins.vio && t.pwrAlive && (5 ≤ t.sec.bootStep) then (t.set Reg.pwrStat 26 26 (b2n !level)).refreshCap else t)

/-! ### Operating points (R419, R421) -/

/-- Root frequency of an operating point in MHz. -/
def rootMhz (op : Nat) : Nat := if op = 0 then 4800 else if op = 1 then 4000 else if op = 2 then 3600 else 3200

/-- ACLK cycles of an epoch: ACLK is half the root, and an epoch lasts 10 µs (R423, R485). -/
def epochCycles (op : Nat) : Nat := rootMhz op * 5

/-- Tokens that the 17 units of a cluster can take in an epoch (R425). -/
def tokenLimit (op : Nat) : Nat := 17 * (epochCycles op / 64 + 1)

def State.opEff (s : State) : Nat := s.get Reg.pwrStat 28 27
def State.opSet (s : State) : Nat := s.get Reg.pwrOpset 1 0
def State.vset (s : State) (op : Nat) : Nat := s.get (Reg.pwrGovtab op) 15 0
def State.vboost (s : State) (op : Nat) : Nat := s.get (Reg.pwrGovtab op) 31 16

/-- The spare PLL, by its lock bit: the one that does not drive. -/
def State.spareLock (s : State) : Nat := if s.get Reg.clkStat 29 29 = 0 then 30 else 31

/-- The spare root PLL relocks: it is out of lock meanwhile. -/
def State.relock (s : State) : State := s.set Reg.clkStat s.spareLock s.spareLock 0

/-- Compute dies on which a boost is in force. -/
def State.boostedDies (s : State) : List Nat :=
  (List.range 4).filter fun d => s.pwr.boosts.any fun b => b.started && b.dies.contains d

/-- VCORE setpoint of a die at an operating point, min(VSET + VBOOST, 850) while it is boosted (R422). -/
def State.setpoint (s : State) (op die : Nat) : Nat :=
  if s.boostedDies.contains die then min (s.vset op + s.vboost op) 850 else s.vset op

/-- Write the setpoints of an operating point to the regulators; a die whose setpoint moves has not settled (R421, R482). -/
def State.driveVcore (s : State) (op : Nat) : State :=
  s.modPwr fun x => { x with
    vcore := (List.range 4).map (s.setpoint op)
    settled := x.settled.filter fun d => s.boostedDies.contains d && x.vcore.getD d 0 == s.setpoint op d }

/-- The operating point whose setpoints hold: the new one of a change that raised VCORE, otherwise the one in force. -/
def State.vcoreOp (s : State) : Nat :=
  match s.pwr.switch with
  | some w => if s.vset s.opEff < s.vset w.target then w.target else s.opEff
  | none => s.opEff

/-- Begin a change of operating point: raise VCORE first where the new setpoint is higher. -/
def State.startSwitch (s : State) (b : Nat) : State :=
  if s.vset s.opEff < s.vset b then (s.modPwr fun x => { x with switch := some ⟨b, [0, 1, 2, 3]⟩ }).driveVcore b
  else (s.modPwr fun x => { x with switch := some ⟨b, []⟩ }).relock

/-- The clocks switch to the spare, VCORE is lowered where the new setpoint is lower, and OPEFF takes the new point. -/
def State.finishSwitch (s : State) (b : Nat) : State :=
  let sp := s.spareLock
  let s1 := ((s.set Reg.clkStat sp sp 1).set Reg.clkStat 29 29 (b2n (sp == 30))).set Reg.clkStat 15 0 (rootMhz b)
  let s2 := ((s1.set Reg.pwrStat 28 27 b).modPwr fun x => { x with switch := none }).driveVcore b
  if s2.opSet = b then s2.set Reg.pwrStat 23 23 0 else s2

/-- OP_SWITCH_COMPLETE. -/
def execOpSwitchComplete (s : State) : Host.Outcome State Fault Refusal :=
  .next (match s.pwr.switch with
    | none => s
    | some w => if w.raising.isEmpty && s.pwrAlive then s.finishSwitch w.target else s)

/-- A boosted setpoint has settled on a die: its slope becomes steeper (R434). -/
def State.settleDie (s : State) (die : Nat) : State :=
  if s.boostedDies.contains die && !s.pwr.settled.contains die then
    s.modPwr fun x => { x with settled := x.settled ++ [die] }
  else s

/-- VOLTAGE_WRITE_COMPLETE: a raised setpoint has settled on a die (R482): the operating-point sequence goes on once all have,
and a boosted one makes the die's slope steeper (R434). -/
def execVoltageWriteComplete (die : Nat) (s : State) : Host.Outcome State Fault Refusal :=
  .next (
    if !s.pwrAlive then s
    else
      let raising := match s.pwr.switch with
        | some w => w.raising
        | none => []
      let u := s.settleDie die
      if raising.contains die then
        let t := u.modPwr fun x => { x with switch := x.switch.map fun w => { w with raising := w.raising.filter (· != die) } }
        if raising.all (· == die) then t.relock else t
      else u)

/-! ### Issue tokens (R424–R426) -/

/-- Tokens held unspent. -/
def State.outstanding (s : State) : Nat := (s.cls.map fun c => c.2.pool).sum

/-- A token audit: CONS, GRANTED, CONSUMED and OUTSTANDING (R446). -/
def tokenAudit (g c o : Nat) : Nat :=
  b2n (g == c + o) * 2 ^ 63 + g % 2 ^ 20 * 2 ^ 40 + c % 2 ^ 20 * 2 ^ 20 + o % 2 ^ 20

/-- The live audit. -/
def State.liveAudit (s : State) : Nat := tokenAudit s.pwr.granted s.pwr.consumed s.outstanding

/-- The ending epoch's audit is kept and its outstanding tokens are withdrawn. -/
def State.closeAudit (s : State) : State :=
  let t := s.setReg Reg.pwrToklast s.liveAudit
  { t with
    cls := t.cls.map fun (c : Nat × Cluster) => (c.1, { c.2 with pool := 0 })
    pwr := { t.pwr with epoch := (t.pwr.epoch + 1) % 2 ^ 32, granted := 0, consumed := 0 } }

/-- A cluster that is Idle (R435): one of no partition, one whose partition has no context at work, and one that was added
while a context ran and waits for a LAUNCH or RESUME (R51). -/
def State.idle (s : State) (g : Nat) : Bool :=
  match s.partOfCl g with
  | none => true
  | some p => !s.partLive p || s.pwr.added.contains g

/-- Grant `n` tokens to a cluster; the units that hold their work take theirs first. -/
def State.grantTo (s : State) (n g : Nat) : State :=
  let k := min n (s.cl g).held.length
  (s.modCl g fun c => { c with pool := n - k, held := c.held.drop k }).modPwr fun x =>
    { x with granted := x.granted + n, consumed := x.consumed + k }

/-- Grant every cluster that is not Idle its tokens. -/
def State.grantAll (s : State) : State :=
  let n := s.get Reg.pwrGrant 8 0 * tokenLimit s.opEff / 256
  ((List.range 64).filter fun g => !s.idle g).foldl (fun t g => t.grantTo n g) s

/-- TOKEN_TAKE: the busy count of a unit that is busy reaches a multiple of 64. -/
def State.takeToken (s : State) (g u : Nat) : State :=
  let t := s.modCl g fun c => { c with busy := Tab.put c.busy u ((Tab.getD 0 c.busy u / 64 + 1) * 64) }
  if (s.cl g).pool = 0 then t.modCl g fun c => { c with held := c.held ++ [u] }
  else (t.modCl g fun c => { c with pool := c.pool - 1 }).modPwr fun x => { x with consumed := x.consumed + 1 }

def execTokenTake (g u : Nat) (s : State) : Host.Outcome State Fault Refusal :=
  .next (if s.running && decide (g < 64) && decide (u < 17) && !s.idle g && s.unitActive g u && !s.unitHeld g u then s.takeToken g u else s)

/-- A read of PWR.TOKAUD latches it and PWR.TOKEPOCH. -/
def State.latchTokens (s : State) : State :=
  (s.setReg Reg.pwrTokaud s.liveAudit).setReg Reg.pwrTokepoch s.pwr.epoch

/-! ### The governor (R423, R427–R429) -/

/-- Package power of an epoch; ten make a window. A mean that is no whole number may be rounded either way. -/
def State.readPower (s : State) (w : Nat) : State :=
  let ws := s.pwr.window ++ [w]
  if ws.length < 10 then s.modPwr fun x => { x with window := ws }
  else
    let (x, t) := s.draw
    let m := ws.sum / 10 + (if ws.sum % 10 = 0 then 0 else x % 2)
    let t1 := t.modPwr fun x => { x with window := [] }
    (t1.set Reg.pwrPower 15 0 m).set Reg.pwrPower 31 16 (max (t1.get Reg.pwrPower 31 16) m)

/-- Junction temperatures in 1/16 °C by die: a die above THROTTLE stays throttled until it is 2 °C below. -/
def State.readTemps (s : State) (temps : List Nat) : State :=
  let lim := s.get (Reg.pwrGovtab s.opEff) 47 32
  let hot := (List.range temps.length).filter fun d =>
    decide (lim < temps.getD d 0) || (s.pwr.hot.contains d && decide (lim < temps.getD d 0 + 32))
  (s.modPwr fun x => { x with hot := hot }).set Reg.pwrStat 25 25 (b2n !hot.isEmpty)

/-- The counts of epochs that R428 names, from the epoch that ends. -/
def State.countEpochs (s : State) (w : Nat) : State :=
  let phi := s.get Reg.pwrGrant 8 0
  s.modPwr fun x => { x with
    atFloor := if phi = 64 then x.atFloor + 1 else 0
    atTop := if phi = 256 && decide (w * 10 ≤ s.capInForce * 9) then x.atTop + 1 else 0 }

/-- φ of the new epoch: it falls by 1 to 32 while power exceeds the cap or a die is throttled, and otherwise rises by at most
32. The amount is free. -/
def State.setPhi (s : State) (w : Nat) : State :=
  let phi := s.get Reg.pwrGrant 8 0
  let (x, t) := s.draw
  if decide (s.capInForce < w) || !s.pwr.hot.isEmpty then t.set Reg.pwrGrant 8 0 (max 64 (phi - (1 + x % 32)))
  else t.set Reg.pwrGrant 8 0 (min 256 (phi + x % 33))

/-- The change of operating point that the epoch starts, if one is due and none is under way. -/
def State.chooseOp (s : State) (w : Nat) : State :=
  let eff := s.opEff
  let want := s.opSet
  let dropped := s.get Reg.pwrStat 23 23 == 1
  if s.pwr.switch.isSome then s
  else if 10 ≤ s.pwr.atFloor && decide (s.capInForce < w) && eff != 3 then
    ((s.modPwr fun x => { x with atFloor := 0 }).set Reg.pwrStat 23 23 1).startSwitch 3
  else if !dropped then (if want = eff then s else s.startSwitch want)
  else if eff < want then s.startSwitch want
  else if eff = want then s.set Reg.pwrStat 23 23 0
  else if 100 ≤ s.pwr.atTop then (s.modPwr fun x => { x with atTop := 0 }).startSwitch (eff - 1)
  else s

/-- BOOST reads 1 while a boost is in force, and the setpoints follow the boosts (R434, R446). -/
def State.showBoosts (s : State) : State :=
  (s.driveVcore s.vcoreOp).set Reg.pwrStat 24 24 (b2n (s.pwr.boosts.any fun b => b.started))

/-- Remove boosts. -/
def State.dropBoosts (s : State) (p : Boost → Bool) : State :=
  (s.modPwr fun x => { x with boosts := x.boosts.filter fun b => !p b }).showBoosts

/-- An epoch begins: the boosts that remain are older by one. -/
def State.ageBoosts (s : State) : State :=
  s.modPwr fun x => { x with boosts := x.boosts.map fun b => { b with age := b.age + 1 } }

/-- GOVERNOR_EPOCH, in the order of R423; boosts that a HINT ends, end here (R434). The setpoints follow the governor table
(log 105). -/
def State.governorEpoch (s : State) (power : Nat) (temps : List Nat) : State :=
  let s1 := ((s.closeAudit.readPower power).readTemps temps).countEpochs power
  let s2 := (s1.modPwr fun x => { x with ramp := s1.get Reg.pwrOpset 3 2 }).chooseOp power
  ((s2.dropBoosts fun b => b.ending).ageBoosts.setPhi power).grantAll

def execGovernorEpoch (power : Nat) (temps : List Nat) (s : State) : Host.Outcome State Fault Refusal :=
  .next (if s.pwrAlive then s.governorEpoch power temps else s)

/-! ### The thermal trip (R430) -/

/-- THERMAL_TRIP: a junction above 115 °C. THERMTRIP_N is asserted, every clock except REFCLK stops, and the contents of HBM
and DDR5 are lost. While PWRGOOD is deasserted the device holds cold reset and keeps THERMTRIP_N released (R488). -/
def execThermalTrip (die temp : Nat) (s : State) : Host.Outcome State Fault Refusal :=
  .next (
    if s.pins.pwrgood && decide (die < 20) && decide (115 * 16 < temp) then
      ({ s with pins := { s.pins with thermtrip := true }, hbmLost := s.hbmLost + 1, ddrLost := s.ddrLost + 1 }).setReg
        Reg.senTrip (2 ^ 31 + die % 32 * 2 ^ 24 + temp % 2 ^ 16)
    else s)

/-! ### Droop (R431) -/

/-- DROOP_TRIP: the die's clocks lengthen. -/
def execDroopTrip (die : Nat) (s : State) : Host.Outcome State Fault Refusal :=
  .next (s.whenRunning <|
    if die < 4 then
      let t := s.addSat (Reg.clkDroopcnt die) 31 0 1
      { t with
        pwr := { t.pwr with stretched := if t.pwr.stretched.contains die then t.pwr.stretched else t.pwr.stretched ++ [die] }
        sen := { t.sen with droops := t.sen.droops + 1 } }
    else s)

/-- STRETCH_END after a number of lengthened ACLK cycles, at least 32. -/
def execStretchEnd (die cycles : Nat) (s : State) : Host.Outcome State Fault Refusal :=
  .next (s.whenRunning <|
    if s.pwr.stretched.contains die && decide (32 ≤ cycles) then
      (s.addSat (Reg.clkStretch die) 63 0 cycles).modPwr fun x => { x with stretched := x.stretched.filter (· != die) }
    else s)

/-! ### The ramp limiter (R432) -/

/-- A context of the cluster's partition is PARKING: its units are activated, and none becomes inactive. -/
def State.parkingAt (s : State) (g : Nat) : Bool :=
  match s.partOfCl g with
  | none => false
  | some p => (s.ctxsOf p).any fun n => s.cstate n == stParking

/-- UNIT_INACTIVE. -/
def execUnitInactive (g u : Nat) (s : State) : Host.Outcome State Fault Refusal :=
  .next (s.whenRunning <|
    if g < 64 && decide (u < 17) && !s.unitWorks g u && !(s.cl g).inactive.contains u && !s.parkingAt g then
      s.modCl g fun c => { c with inactive := c.inactive ++ [u] }
    else s)

/-- Units of a die that wait for an activation. -/
def State.waitingUnits (s : State) (die : Nat) : List (Nat × Nat) :=
  (List.range 16).flatMap fun i =>
    let g := 16 * die + i
    ((s.cl g).inactive.filter fun u => s.unitWorks g u || s.parkingAt g).map fun u => (g, u)

/-- Activations that a die's limiter grants in an interval. -/
def State.activations (s : State) (die : Nat) : Nat := ceilDiv 272 (slopeWaves (s.slopeOn die))

/-- Grant a die's activations of one interval; the cycles waited are free. -/
def State.activate (s : State) (die : Nat) : State :=
  let ws := s.waitingUnits die
  if ws.isEmpty then s
  else (ws.take (s.activations die)).foldl (fun t w =>
    t.modCl w.1 fun c => { c with inactive := c.inactive.filter (· != w.2) }) (s.addCycles Reg.pwrRampcyc 0)

/-- ACTIVATION_GRANT. -/
def execActivationGrant (s : State) : Host.Outcome State Fault Refusal :=
  .next (s.whenRunning <| (List.range 4).foldl (fun t d => t.activate d) s)

/-! ### HINT and boosts (R108, R434) -/

def hintUsed : Nat := bitsOf 107 80

/-- Power of the compute dies in mW, from the sentinel's last samples of VCORE and its current (R440). -/
def State.computePower (s : State) : Nat :=
  ((List.range 4).map fun d => s.reg (Reg.senCh (0x14 + d)) * s.reg (Reg.senCh (0x18 + d))).sum

/-- Would the boost estimate take package power of the last window above the cap in force? -/
def State.boostTooMuch (s : State) : Bool :=
  let v := s.vset s.opEff
  let b := v + s.vboost s.opEff
  decide (s.capInForce * 1000 * (v * v) <
    s.get Reg.pwrPower 15 0 * 1000 * (v * v) + s.computePower * (b * b - v * v))

/-- Does a boost cover a HINT of its partition whose phase starts in `lead` µs? It does when the phase starts before the boost
ends, 100 µs after its own phase start (log 104). An epoch is 10 µs. -/
def Boost.covers (b : Boost) (p lead : Nat) : Bool :=
  b.part == p && !b.ending && decide (lead + 10 * b.age < b.lead + 100)

/-- A request for a boost on every die that holds a cluster of the partition; one boost covers all HINTs of a phase. -/
def State.requestBoost (s : State) (p lead : Nat) : State :=
  if s.pwr.boosts.any fun b => b.covers p lead then s
  else if s.boostTooMuch then s.addSat Reg.pwrHintcnt 31 16 1
  else
    let dies := (List.range 4).filter fun d => (s.members p).any fun g => g / 16 == d
    (s.addSat Reg.pwrHintcnt 15 0 1).modPwr fun x => { x with boosts := x.boosts ++ [⟨p, dies, lead, 0, false, false⟩] }

/-- The effect of a HINT. -/
def State.hint (s : State) (g : Nat) (f : Fetch) : State :=
  let kind := fld f.word 107 104
  let p := s.partOf f.n
  if 2 ≤ kind then s.reservedCode g f
  else
    let t := if fld f.word 87 80 < 0x80 then s
      else if kind = 0 then s.requestBoost p (fld f.word 103 88)
      else s.modPwr fun x => { x with boosts := x.boosts.map fun b => if b.part == p then { b with ending := true } else b }
    t.tagNow f

def execHint (g : Nat) (s : State) : Host.Outcome State Fault Refusal :=
  .next (s.control g 0x07 hintUsed (fun _ => []) fun f t => t.hint g f)

/-- May a boost start: an epoch has begun since its HINT, and 20 µs before the phase can have been reached (R434)? -/
def Boost.mayStart (b : Boost) (p : Nat) : Bool :=
  b.part == p && !b.started && decide (1 ≤ b.age) && decide (b.lead < 10 * (b.age + 1) + 20)

def Boost.start (b : Boost) (p : Nat) : Boost := if b.mayStart p then { b with started := true } else b

/-- BOOST_START: VCORE is raised on the boost's dies to the boosted setpoint. -/
def execBoostStart (p : Nat) (s : State) : Host.Outcome State Fault Refusal :=
  .next (
    if s.pwrAlive && (s.pwr.boosts.any fun b => b.mayStart p) then
      (s.modPwr fun x => { x with boosts := x.boosts.map (·.start p) }).showBoosts
    else s)

/-- Can the boost's end, 100 µs after its phase start, have been reached? -/
def Boost.mayEnd (b : Boost) (p : Nat) : Bool := b.part == p && decide (b.lead + 100 < 10 * (b.age + 1))

/-- BOOST_END. -/
def execBoostEnd (p : Nat) (s : State) : Host.Outcome State Fault Refusal :=
  .next (if s.pwrAlive then s.dropBoosts fun b => b.mayEnd p else s)

end Machine

end Sys2Proof
end

