-- ==== Sys2Proof/Machine/Sentinel.lean ====
section
/-! DEFINITION. The sentinel and the power states (R435–R448). -/

set_option Elab.async false

namespace Sys2Proof

namespace Machine

/-! ### The sentinel's event queue (R443, R447) -/

def State.modSen (s : State) (f : Sen → Sen) : State := { s with sen := f s.sen }

/-- ALERT_N is asserted; it is released while PWRGOOD is deasserted (R488). -/
def State.alertN (s : State) : Bool :=
  s.pins.pwrgood && (!s.chk.events.isEmpty || (s.sen.events.any fun e => e.decision == 0) || s.get Reg.chkStat 31 31 == 1)

/-- Queue a SEN event; the REFCLK count is a free value. A record that meets a full queue is discarded. In Dormant no
interrupt leaves the device. -/
def State.senEvent (s : State) (slot decision tag : Nat) : State :=
  let (x, t) := s.draw
  if t.sen.events.length < 32 then
    let u := t.modSen fun y => { y with events := y.events ++ [⟨slot, decision, tag % 65536, x % 2 ^ 40⟩] }
    if u.powerState = 2 || u.pins.thermtrip then u else u.signalEvent
  else t.addSat Reg.senStat 27 16 1

/-- SEN.EVENT of a record. -/
def SenRec.word (e : SenRec) : Nat :=
  2 ^ 63 + e.slot % 8 * 2 ^ 60 + e.decision % 16 * 2 ^ 56 + e.tag % 65536 * 2 ^ 40 + e.time % 2 ^ 40

/-- A read of SEN.EVENT pops the oldest record. -/
def State.popSen (s : State) : State :=
  match s.sen.events with
  | [] => s.setReg Reg.senEvent 0
  | e :: rest => (s.modSen fun y => { y with events := rest }).setReg Reg.senEvent e.word

/-! ### The sentinel cap (R427, R443) -/

def State.setSenCap (s : State) (w : Nat) : State :=
  ((s.set Reg.senStat 31 31 1).set Reg.senStat 15 0 (max 1200 (min w 3000))).refreshCap

def State.clearSenCap (s : State) : State := ((s.set Reg.senStat 31 31 0).set Reg.senStat 15 0 0).refreshCap

/-! ### Filter programs (R441, R442) -/

/-- Saturate to 32 bits signed. -/
def sat32 (x : Int) : BitVec 32 := BitVec.ofInt 32 (clampI (-2147483648) 2147483647 x)

/-- Register k of slot i. -/
def State.fr (s : State) (i k : Nat) : Int := (s.sen.f.read (8 * i + k % 8)).toInt
def State.setFr (s : State) (i k : Nat) (v : Int) : State :=
  s.modSen fun y => { y with f := y.f.write (8 * i + k % 8) (sat32 v) }

/-- Count a discarded access of a program. -/
def State.senViolate (s : State) : State := s.violate Reg.senViolcnt .mgmt

/-- A decision of slot i. -/
def State.decision (s : State) (i code imm : Nat) : State :=
  if code = 0 then s.senEvent i 0 imm
  else if code = 1 then s.wakeEvent 2
  else if code = 2 then s.setSenCap imm
  else if code = 3 then s.clearSenCap
  else if code = 4 then s.senEvent i 4 imm
  else s.senViolate

/-- Read a channel; the reserved ones read as zero and count. -/
def State.readChannel (s : State) (i d ch : Nat) : State :=
  if ch < 0x28 then s.setFr i d (toSigned 32 (s.reg (Reg.senCh ch))) else (s.setFr i d 0).senViolate

/-- One word: the next word's index, none at the end of the run, with the flag and the state. -/
def State.senWord (s : State) (i pc : Nat) (flag : Bool) : Option Nat × Bool × State :=
  let w := s.reg (Reg.senProg i pc)
  let op := fld w 31 27
  let d := fld w 26 24
  let a := s.fr i (fld w 23 21)
  let b := s.fr i (fld w 18 16)
  let imm := toSigned 16 (fld w 15 0)
  let put (v : Int) : Option Nat × Bool × State := (some (pc + 1), flag, s.setFr i d v)
  let test (c : Bool) : Option Nat × Bool × State := (some (pc + 1), c, s)
  if op = 0x00 then (none, flag, s)
  else if op = 0x01 then (some (pc + 1), flag, s.readChannel i d (fld w 20 16))
  else if op = 0x02 then put imm
  else if op = 0x03 then put (a + b)
  else if op = 0x04 then put (a - b)
  else if op = 0x05 then put (a + imm)
  else if op = 0x06 then put (s.fr i d + (a - s.fr i d) / 2 ^ fld w 4 0)
  else if op = 0x07 then put (max a b)
  else if op = 0x08 then put (min a b)
  else if op = 0x09 then test (b < a)
  else if op = 0x0A then test (imm < a)
  else if op = 0x0B then test (a < imm)
  else if op = 0x0C then put (if flag then s.fr i d + 1 else 0)
  else if op = 0x0D then (some (pc + 1), flag, if flag then s.decision i (fld w 19 16) (fld w 15 0) else s)
  else if op = 0x0E then (some (pc + 1 + (if flag then fld w 5 0 else 0)), flag, s)
  else (some (pc + 1), flag, s.senViolate)

/-- Run a slot from a word on; at most 64 words lie ahead. The flag at the end is the answer. -/
def State.senRun (s : State) (i fuel pc : Nat) (flag : Bool) : Bool × State :=
  match fuel with
  | 0 => (flag, s)
  | k + 1 =>
    if 64 ≤ pc then (flag, s)
    else
      match s.senWord i pc flag with
      | (none, f, t) => (f, t)
      | (some n, f, t) => t.senRun i k n f

/-- Run an enabled slot whose period divides the tick number. -/
def State.senSlot (s : State) (i : Nat) : State :=
  let r := s.reg (Reg.senSlot i)
  if bit r 31 && s.sen.tick % fld r 7 0 == 0 then
    let (f, t) := s.senRun i 64 0 false
    t.set (Reg.senSlot i) 30 30 (b2n f)
  else s

/-! ### The tick (R440) -/

/-- Is port die 0 unpowered? -/
def State.port0Dark (s : State) : Bool := s.powerState == 2 || (s.powerState == 4 && s.pwr.low == 2)

/-- Is the die of a channel unpowered? -/
def State.channelDark (s : State) (n : Nat) : Bool :=
  (s.pwr.dark && (decide (n < 0x12) || (decide (0x14 ≤ n) && decide (n < 0x1C)))) || (s.port0Dark && n == 0x12)

/-- The value that a tick samples on a channel. CAPLIM_N and the droop trips are the device's own. -/
def State.sample (s : State) (samples : List Nat) (n : Nat) : Nat :=
  if s.channelDark n then 0x80000000
  else if n = 0x26 then b2n !s.pins.caplimN
  else if n = 0x27 then min s.sen.droops (2 ^ 31 - 1)
  else samples.getD n 0 % 2 ^ 32

/-- SENTINEL_TICK: sample every channel and run the slots in ascending order. -/
def State.sentinelTick (s : State) (samples : List Nat) : State :=
  let s1 := (List.range 0x28).foldl (fun t n => t.setReg (Reg.senCh n) (s.sample samples n)) s
  let s2 := s1.modSen fun y => { y with droops := 0 }
  let s3 := (List.range 8).foldl (fun t i => t.senSlot i) s2
  s3.modSen fun y => { y with tick := y.tick + 1 }

/-- The sentinel runs from VAON on, in every power state and through a thermal trip (R439, R487). -/
def execSentinelTick (samples : List Nat) (s : State) : Host.Outcome State Fault Refusal := .next (s.sentinelTick samples)

/-! ### Writes to SEN registers (R441, R444, R447) -/

/-- A write to SEN.SLOT: EN from 0 to 1 clears f0–f7; a PERIOD of 0 is discarded. -/
def State.writeSenSlot (s : State) (o : Origin) (i mask v : Nat) : State :=
  let bad := badField mask v 7 0 (· != 0)
  let rise := bit mask 31 && bit v 31 && s.get (Reg.senSlot i) 31 31 == 0
  let s1 := (s.writeField (Reg.senSlot i) 7 0 mask v (· != 0)).writeField (Reg.senSlot i) 31 31 mask v fun _ => true
  let s2 := if rise then s1.modSen fun y => { y with f := y.f.filter fun c => !(c.1 / 8 == i) } else s1
  s2.violateIf bad Reg.senViolcnt o

/-- A write to SEN.CTL. -/
def State.writeSenCtl (s : State) (mask v : Nat) : State := if bit mask 31 && bit v 31 then s.clearSenCap else s

/-- A write to SEN.PROG, discarded while the slot is enabled. -/
def State.writeProg (s : State) (o : Origin) (i j mask v : Nat) : State :=
  if s.get (Reg.senSlot i) 31 31 = 1 then s.violate Reg.senViolcnt o
  else s.writeField (Reg.senProg i j) 31 0 mask v fun _ => true

/-! ### Power states (R435–R438, R448) -/

/-- A take, drain or restore runs (R418). -/
def State.snapBusy (s : State) : Bool := !s.snp.takes.isEmpty || !s.snp.drains.isEmpty || s.snp.restore.isSome

/-- SETSTATE to a state, once nothing keeps it waiting. -/
def State.applySetstate (s : State) (c : Cmd) : State :=
  let target := fld c.arg0 1 0
  if target = 1 then (s.violate Reg.queViolcnt (.ctx 0)).completeCmd c stOk
  else if s.anyLive || !s.chk.selftest.isEmpty || !s.chk.cltests.isEmpty then s.completeCmd c stBusy
  else if target = 0 then
    if s.powerState = 0 then s.completeCmd c stOk
    else (s.modPwr fun x => { x with setstate := some c }).wakeEvent 1
  else if target = 2 && s.powerState == 1 then s.completeCmd c stOk
  else (s.modPwr fun x => { x with low := target - 1, setstate := some c, wake := false }).set Reg.pwrStat 31 29 3

/-- Does a SETSTATE wait for the end of a take, drain or restore? -/
def State.setstateWaits (s : State) (c : Cmd) : Bool :=
  s.snapBusy && decide (2 ≤ fld c.arg0 1 0) && !s.anyLive && s.chk.selftest.isEmpty && s.chk.cltests.isEmpty

/-- SETSTATE, which is fetched in Active and in Parked. -/
def execSetstate (q : Nat) (s : State) : Host.Outcome State Fault Refusal :=
  .next (
    if q / 8 != 0 || s.pins.thermtrip || decide (2 ≤ s.powerState) then s
    else
      match s.fetchAny q (· == 0xC0) with
      | none => s
      | some (c, t) => if t.setstateWaits c then s else t.applySetstate c)

/-- Complete the SETSTATE whose state has been reached. -/
def State.endSetstate (s : State) : State :=
  match s.pwr.setstate with
  | none => s
  | some c => (s.modPwr fun x => { x with setstate := none }).completeCmd c stOk

/-- LOW_POWER_ENTERED: link port resets, and the dies are powered down with their state saved. Dormant loses HBM. A wake
that came meanwhile follows at once. -/
def State.enterLow (s : State) : State :=
  let s1 := ((List.range 32).foldl (fun t m => t.linkReset m) s).endSetstate
  let s2 := s1.set Reg.pwrStat 31 29 s1.pwr.low
  let s3 := if s2.pwr.low = 2 then { s2 with hbmLost := s2.hbmLost + 1 } else s2
  let s4 := (s3.dropBoosts fun _ => true).modPwr fun x => { x with wake := false, dark := true }
  if s3.pwr.wake then s4.wakeEvent 2 else s4

def execLowPowerEntered (s : State) : Host.Outcome State Fault Refusal :=
  .next (if s.powerState = 3 && !s.pins.thermtrip then s.enterLow else s)

/-- SEN_WAKE at a level; asserted high. Without VIO it is ignored (R486). -/
def execSenWake (level : Bool) (s : State) : Host.Outcome State Fault Refusal :=
  .next (
    let t := if s.pins.vio then { s with pins := { s.pins with senWake := level } } else s
    if s.pins.vio && level && t.sec.bootStep != 0 then t.wakeEvent 2 else t)

/-- The wake from Parked ends: the state saved is restored, enabled ports retrain and a cap written meanwhile is in force. -/
def State.wakeParked (s : State) : State :=
  let s1 := s.set Reg.pwrStat 31 29 0
  let s2 := (s1.modPwr fun x => { x with capWas := none, dark := false }).refreshCap
  ((List.range 32).foldl (fun t m => if t.portOn m then t.startTraining m else t) s2).endSetstate

end Machine

end Sys2Proof
end

