-- ==== Sys2Proof/Machine/Boot.lean ====
section
/-! DEFINITION. Cold and warm reset, the pins that cause them, boot, firmware images and the update of service cores (R287,
R457–R463, R466, R470, R487–R490). -/

set_option Elab.async false

namespace Sys2Proof

namespace Machine

def State.modSec (s : State) (f : Sec → Sec) : State := { s with sec := f s.sec }
def State.modPins (s : State) (f : Pins → Pins) : State := { s with pins := f s.pins }

/-! ### Firmware images (R461) -/

def digest64 (bs : List Byte) : List Byte := Keccak.shake256 bs 64

def imageLength (im : List Byte) : Nat := leAt im 8 4
def imageVersion (im : List Byte) : Nat := leAt im 4 4 % 2 ^ 24
def imageMajor (v : Nat) : Nat := fld v 23 16
def imageSignKey (im : List Byte) : List Byte := (im.drop 0x10).take 1952
def imageSig (im : List Byte) : List Byte := (im.drop 0x7B0).take 3309

/-- What the signature covers: the header up to it, and the body. -/
def imageSigned (im : List Byte) : List Byte := im.take 0x7B0 ++ (im.take (imageLength im)).drop 0x2000

/-- MAGIC and LENGTH are consistent. -/
def imageFramed (im : List Byte) : Bool :=
  leAt im 0 4 == 0x4B494D47 && decide (0x2000 ≤ imageLength im) && decide (imageLength im ≤ 8 * 2 ^ 20)
    && decide (imageLength im ≤ im.length)

/-- The image is valid. -/
def imageValid (im : List Byte) : Bool :=
  imageFramed im && digest32 (imageSignKey im) == Config.romDigest
    && Config.verifies (imageSignKey im) (digest64 (imageSigned im)) (imageSig im)

/-! ### Boot steps (R459, R460) -/

def State.phase (s : State) : Nat := s.get Reg.hifBootstat 31 28
def State.setPhase (s : State) (v : Nat) : State := s.set Reg.hifBootstat 31 28 v

/-- Boot phases (R474). -/
def phRom : Nat := 0
def phLoading : Nat := 1
def phInit : Nat := 2
def phReady : Nat := 3
def phConfigured : Nat := 4
def phFail : Nat := 5

/-- HIF.FWVER shows the version of the slot image, and 0 while the slot holds no valid one (R474, log 121). -/
def State.showSlot (s : State) : State :=
  s.set Reg.hifFwver 23 0 (if imageValid s.sec.slot then imageVersion s.sec.slot else 0)

/-- Begin step 3: from the slot, or waiting for a push (R459). -/
def State.beginLoading (s : State) : State :=
  (s.showSlot.setPhase phLoading).modSec fun x => { x with bootStep := 3, waitPush := s.pins.bootsrc == 1, pushing := false }

/-- Leave the held reset once PWRGOOD and RESET_N allow it and every supply is in tolerance (R488). -/
def State.tryBoot (s : State) : State :=
  if s.sec.bootStep != 0 || !s.pins.pwrgood || !s.pins.resetN || !s.pins.supplies || s.pins.thermtrip then s
  else
    let t := s.set Reg.hifBootstat 25 25 (b2n (decide (2 ≤ s.pins.bootsrc)))
    if s.sec.cold then (t.setPhase phRom).modSec fun x => { x with bootStep := 1 } else t.beginLoading

/-! ### Resets (R16, R457, R458) -/

/-- The slot image after a reset: one that was being written is invalid (R475). -/
def Sec.slotKept (x : Sec) : List Byte := if x.slotWrite.isSome then [] else x.slot

/-- A cold reset. Host memory, the flash and the pins lie outside it; the contents of HBM and DDR5 are lost. -/
def State.coldReset (s : State) : State :=
  ({ State.reset with
    mem := s.mem, memKey := s.memKey, veils := s.veils, hbmLost := s.hbmLost + 1, ddrLost := s.ddrLost + 1, bootEpoch := s.bootEpoch
    pins := { s.pins with thermtrip := false }
    sec := { Sec.init with slot := s.sec.slotKept }
    nextFlight := s.nextFlight, free := s.free, resp := s.resp, pending := s.pending }).tryBoot

/-- State of a slot after a warm reset (R405). -/
def slotAfterWarm (st : Nat) : Nat :=
  if st = slHeld || st = slDraining then slIncomplete else if st = slTaking then slInvalid else st

/-- A watched engine is NORMAL after a reset; a confirmed one stays so (R384, R387). -/
def engAfterWarm (v : Nat) : Nat := (List.range 16).foldl (fun a e => if fld v (2 * e + 1) (2 * e) = 2 then a + 2 * 4 ^ e else a) 0

/-- Registers that keep their values across a warm reset (R458). -/
def keptReg (off : Nat) : Bool :=
  off == Reg.senTrip || (decide (Reg.snpArea 0 ≤ off) && decide (off < Reg.snpArea 12)) || off == Reg.snpEpoch || off == Reg.snpSlot0 0
    || off == Reg.snpSlot1 0 || off == Reg.snpSlot0 1 || off == Reg.snpSlot1 1
    || (decide (Reg.secIdent 0 ≤ off) && decide (off < Reg.secIdent 4))
    || (decide (Reg.chkEngstate 0 ≤ off) && decide (off < Reg.chkEngstate 64))

/-- A warm reset. Transactions of the store ports go on with new identifiers (R418). With the keys not yet derived, the boot
to come is the cold one (log 39). -/
def State.warmReset (s : State) : State :=
  let s1 := { State.reset with
    regs := s.regs.filter fun r => keptReg r.1
    mem := s.mem, memKey := s.memKey, veils := s.veils, hbmLost := s.hbmLost + 1, ddrLost := s.ddrLost, bootEpoch := s.bootEpoch
    chk := { Chk.init with events := s.chk.events }
    snp := { Snp.init with slots := s.snp.slots, nextXid := s.snp.nextXid }
    pins := s.pins
    sec := { Sec.init with slot := s.sec.slotKept, keys := s.sec.keys, cold := !s.sec.keys }
    nextFlight := s.nextFlight, free := s.free, resp := s.resp, pending := s.pending }
  let s2 := (s1.set Reg.chkStat 31 31 (s.get Reg.chkStat 31 31)).set Reg.pwrPower 31 16 (s.get Reg.pwrPower 31 16)
  let s3 := (List.range 64).foldl (fun t g =>
    if (Tab.find t.regs (Reg.chkEngstate g)).isSome then t.setReg (Reg.chkEngstate g) (engAfterWarm (t.reg (Reg.chkEngstate g))) else t) s2
  let s4 := [0, 1].foldl (fun t k => t.setSlotState k (slotAfterWarm (t.slotState k))) s3
  s4.tryBoot

/-- WAKE_COMPLETE: from Parked the saved state is restored; from Dormant the wake is a warm reset, across which a cap written
in Dormant stays (R436, R437). -/
def execWakeComplete (s : State) : Host.Outcome State Fault Refusal :=
  .next (
    if s.powerState != 4 || s.pins.thermtrip then s
    else if s.pwr.low = 2 then
      let t := s.warmReset
      if s.pwr.capWas.isSome then (t.setReg Reg.pwrCap (s.reg Reg.pwrCap)).refreshCap else t
    else s.wakeParked)

/-! ### Pins (R457, R480, R488, R490, R494) -/

/-- PWRGOOD_DEASSERT: cold reset. A THERMTRIP_N asserted in the same microsecond stays, with SEN.TRIP; whether it was is a
free value (R488, R494), as is whether VIO stays applied (log 122). Every output but ALERT_N and THERMTRIP_N is
high-impedance. -/
def execPwrgoodDeassert (s : State) : Host.Outcome State Fault Refusal :=
  .next (
    let (x, t) := s.draw
    let u := (t.modPins fun p => { p with pwrgood := false, tdo := none, vio := p.vio && x / 2 % 2 == 1 }).coldReset
    if t.pins.thermtrip && x % 2 == 1 then
      (u.modPins fun p => { p with thermtrip := true }).setReg Reg.senTrip (t.reg Reg.senTrip)
    else u)

/-- PWRGOOD_ASSERT. Whether every supply is in tolerance then is a free value; otherwise SUPPLY_IN_TOLERANCE tells when
(R488). PWRGOOD is seen with VIO applied (R486, R487). A trip that R494 kept ends with this cold reset. -/
def execPwrgoodAssert (s : State) : Host.Outcome State Fault Refusal :=
  .next (
    if s.pins.pwrgood then s
    else
      let (x, t) := s.draw
      let u := if t.pins.thermtrip then t.coldReset else t
      (u.modPins fun p => { p with pwrgood := true, vio := true, supplies := x % 2 == 1 }).tryBoot)

/-- SUPPLY_IN_TOLERANCE. -/
def execSupplyInTolerance (s : State) : Host.Outcome State Fault Refusal :=
  .next (if s.pins.pwrgood then (s.modPins fun p => { p with supplies := true }).tryBoot else s)

/-- RESET_N_ASSERT, for at least 1 µs: a warm reset, held until RESET_N deasserts. Without VIO it is ignored (R486). -/
def execResetNAssert (s : State) : Host.Outcome State Fault Refusal :=
  .next (
    let t := s.modPins fun p => { p with resetN := false }
    if !s.pins.vio then s else if s.pins.pwrgood && s.sec.bootStep != 0 then t.warmReset else t)

/-- RESET_N_DEASSERT: BOOTSRC is sampled and boot starts. Without VIO neither pin is seen (R486). -/
def execResetNDeassert (bootsrc : Nat) (s : State) : Host.Outcome State Fault Refusal :=
  .next (
    if s.pins.resetN || !s.pins.vio then s
    else (s.modPins fun p => { p with resetN := true, bootsrc := bootsrc % 4 }).tryBoot)

/-- CXL_CONVENTIONAL_RESET: hot reset, link disable or secondary bus reset. -/
def execCxlConventionalReset (s : State) : Host.Outcome State Fault Refusal :=
  .next (if s.sec.bootStep = 0 then s else s.warmReset)

/-! ### Boot (R460, R462, R463, R467) -/

/-- Step 2 ends: a new boot epoch is drawn, the keys are derived and SEC.IDENT shows the identity digest. -/
def State.deriveKeys (s : State) : State :=
  let (x, t) := s.draw
  let id := digest32 Config.identityKey
  ((List.range 4).foldl (fun (u : State) i => u.setReg (Reg.secIdent i) (leAt id (8 * i) 8)) { t with bootEpoch := x % 2 ^ 64 }).modSec
    fun y => { y with keys := true, cold := false }

/-- A verified image starts (step 4). `src` is BOOTSTAT:SRC. -/
def State.startImage (s : State) (im : List Byte) (src : Nat) : State :=
  ((s.setPhase phInit).set Reg.hifBootstat 27 26 src).modSec fun x =>
    { x with bootStep := 4, image := im, waitPush := false, pushing := false }

/-- Step 3 from the slot: an image that fails leaves boot waiting for a push. -/
def State.loadSlot (s : State) : State :=
  if imageValid s.sec.slot then s.startImage s.sec.slot 0
  else (s.set Reg.hifBootstat 24 24 1).modSec fun x => { x with waitPush := true }

/-- DIMM capacities in GiB (R287). -/
def dimmSizes : List Nat := [32, 64, 96, 128, 256]

/-- DDR.CHSTAT of a channel as trained: the board decides what is populated (R287, R301). -/
def chstatOf (code : Nat) : Nat :=
  let slots := code % 4
  let n := if slots = 3 then 2 else if slots = 0 then 0 else 1
  if n = 0 then 0 else 2 ^ 31 + slots * 2 ^ 29 + n * dimmSizes.getD (code / 4 % 5) 32

/-- Step 4 ends: the cores run, memory is trained, the PLLs are locked and the level of CAPLIM_N shows (R460, R494). -/
def State.finishInit (s : State) : State :=
  let v := imageVersion s.sec.image
  let s1 := (List.range 8).foldl (fun t i => t.setReg (Reg.hifCorever i) (2 ^ 31 + v)) s
  let s2 := (List.range 12).foldl (fun t c => t.setReg (Reg.ddrChstat c) (chstatOf (Config.dimms c))) s1
  let s3 := (s2.set Reg.clkStat 31 30 3).set Reg.pwrStat 26 26 (b2n !s.pins.caplimN)
  ((s3.refreshCap).setPhase phReady).modSec fun x => { x with bootStep := 5 }

/-- BOOT_STEP_COMPLETE. -/
def execBootStepComplete (s : State) : Host.Outcome State Fault Refusal :=
  .next (
    if s.pins.thermtrip then s
    else if s.sec.bootStep = 1 then s.modSec fun x => { x with bootStep := 2 }
    else if s.sec.bootStep = 2 then s.deriveKeys.beginLoading
    else if s.sec.bootStep = 3 && !s.sec.waitPush && !s.sec.pushing && s.phase == phLoading then s.loadSlot
    else if s.sec.bootStep = 4 then s.finishInit
    else s)

/-- A push may start: LOADING waits for one, or an earlier one failed (R462). -/
def State.pushAllowed (s : State) : Bool :=
  s.sec.bootStep == 3 && !s.sec.pushing && ((s.phase == phLoading && s.sec.waitPush) || s.phase == phFail)

/-- A write to HIF.PUSHCTL: PAGES, and a GO, which is discarded when no push may start. -/
def State.writePushctl (s : State) (o : Origin) (mask v : Nat) : State :=
  let t := s.writeField Reg.hifPushctl 10 0 mask v fun _ => true
  if bit mask 31 && bit v 31 then
    if t.pushAllowed then (t.setPhase phLoading).modSec fun x => { x with waitPush := false, pushing := true }
    else t.violate Reg.hifViolcnt o
  else t

/-- PUSH_COMPLETE: the image has been read over the bulk path in plaintext, and is verified. -/
def execPushComplete (s : State) : Host.Outcome State Fault Refusal :=
  .next (
    if !s.sec.pushing || s.pins.thermtrip then s
    else
      let a := 0x8000000000000 + fld (s.reg Reg.hifPushaddr) 50 12 * 4096
      let bs := (s.readPhys 0 a ((s.get Reg.hifPushctl 10 0 + 1) * 4096)).1
      if imageValid bs then s.startImage (bs.take (imageLength bs)) 1
      else (s.setPhase phFail).modSec fun x => { x with pushing := false })

/-! ### FWSLOT and COREUPD (R466, R470) -/

/-- FWSLOT: the image is verified, then the slot is erased and written. -/
def execFwslot (q : Nat) (s : State) : Host.Outcome State Fault Refusal :=
  .next (s.service q 0xD1 fun c t =>
    if t.sec.slotWrite.isSome then t.completeCmd c stBusy
    else
      let (bs, u) := t.load Reg.secViolcnt 0 (fld c.arg0 51 0) (fld c.arg1 19 0)
      if imageValid bs then u.modSec fun x => { x with slotWrite := some ⟨c, bs.take (imageLength bs)⟩ }
      else u.completeCmd c stAuthFail)

/-- FWSLOT_COMPLETE. Whether a flash write error came is a free value; it leaves the slot invalid. -/
def execFwslotComplete (s : State) : Host.Outcome State Fault Refusal :=
  .next (
    match s.sec.slotWrite with
    | none => s
    | some w =>
      if !s.running then s
      else
        let (x, t) := s.draw
        if x % 2 = 0 then ((t.modSec fun y => { y with slotWrite := none, slot := w.image }).showSlot).completeCmd w.cmd stOk
        else ((t.modSec fun y => { y with slotWrite := none, slot := [] }).showSlot).completeCmd w.cmd stIncomplete)

def State.coreIn (s : State) (i : Nat) : Bool := s.get (Reg.hifCorever i) 31 31 == 1
def State.coreVersion (s : State) (i : Nat) : Nat := s.get (Reg.hifCorever i) 23 0

/-- Other cores in service. -/
def State.otherCores (s : State) (i : Nat) : List Nat := (List.range 8).filter fun k => k != i && s.coreIn k

/-- COREUPD completes with BUSY. -/
def State.coreBusy (s : State) (i : Nat) : Bool :=
  s.sec.coreUpd.isSome || decide ((s.otherCores i).length < 4) || (!s.coreIn i && !s.sec.parity.contains i)

/-- COREUPD: the core goes out of service and loads the image. -/
def execCoreupd (q : Nat) (s : State) : Host.Outcome State Fault Refusal :=
  .next (s.service q 0xD2 fun c t =>
    let i := fld c.arg0 2 0
    if t.coreBusy i then t.completeCmd c stBusy
    else
      let (bs, u) := t.load Reg.secViolcnt 0 (fld c.arg1 51 0) (fld c.arg2 22 0)
      let v := imageVersion bs
      if !imageValid bs then u.completeCmd c stAuthFail
      else if (u.otherCores i).any fun k => imageMajor (u.coreVersion k) != imageMajor v then u.completeCmd c stMismatch
      else
        ((u.set (Reg.hifCorever i) 31 31 0).set (Reg.hifCorever i) 30 30 1).modSec fun x => { x with coreUpd := some ⟨c, i, bs.take (imageLength bs)⟩ })

/-- COREUPD_COMPLETE: the core returns to service with its new version; the load ends what a parity failure began
(R379). The image that runs is then the one loaded last (R465, log 106). -/
def execCoreupdComplete (s : State) : Host.Outcome State Fault Refusal :=
  .next (
    match s.sec.coreUpd with
    | none => s
    | some w =>
      if !s.running then s
      else
        ((s.setReg (Reg.hifCorever w.core) (2 ^ 31 + imageVersion w.image)).modSec fun x =>
          { x with image := w.image, coreUpd := none, parity := x.parity.filter (· != w.core) }).completeCmd w.cmd stOk)

end Machine

end Sys2Proof
end

