-- ==== Sys2Proof/Machine/Access.lean ====
section
/-! DEFINITION. Accesses to registers: which are discarded and where they count, what a write does to each register, and what
a read latches (R12–R17, R48–R60, R85–R88, R451, R452). -/

set_option Elab.async false

namespace Sys2Proof

namespace Machine

/-! ### CFG: partitions (R48–R50, R161) -/

/-- Bit g of a PARTMAP write; one that is not applied counts (R50). One added beside a running context stays Idle (R51). A removed rotating spare is remembered (R394). -/
def State.writeMapBitOf (s : State) (o : Origin) (p mask v g : Nat) : State :=
  if !bit mask g || bit v g == bit (s.reg (Reg.cfgPartmap p)) g then s
  else if bit v g then
    if (s.partOfCl g).isSome then s.violate Reg.cfgViolcnt o
    else
      let t := s.set (Reg.cfgPartmap p) g g 1
      if s.partLive p then { t with pwr := { t.pwr with added := t.pwr.added ++ [g] } } else t
  else if (s.cl g).ctx.isSome then s.violate Reg.cfgViolcnt o
  else
    let t0 := s.set (Reg.cfgPartmap p) g g 0
    let t := { t0 with pwr := { t0.pwr with added := t0.pwr.added.filter (· != g) } }
    if Tab.find t.chk.spares p == some g then
      t.modChk fun x => { x with spares := Tab.erase x.spares p, removed := Tab.put x.removed p g }
    else t

/-- A write to CFG.PARTMAP(p), bit by bit. -/
def State.writePartmap (s : State) (o : Origin) (p mask v : Nat) : State :=
  (List.range 64).foldl (fun t g => t.writeMapBitOf o p mask v g) s

/-- A write to CFG.PARTCTL(p): QUANTUM, then the reset (R49, R52). -/
def State.writePartctl (s : State) (p v : Nat) : State :=
  let t := s.set (Reg.cfgPartctl p) 23 0 (fld v 23 0)
  if bit v 31 then t.resetPartition p else t

/-- A write to CFG.PARTEMU(p), refused while a context of p runs or is cocooned (R161). -/
def State.writePartemu (s : State) (o : Origin) (p v : Nat) : State :=
  if s.partHeld p then s.violate Reg.cfgViolcnt o else s.set (Reg.cfgPartemu p) 0 0 v

/-! ### CTX (R53–R57, R78) -/

/-- A context becomes FREE: its queues are disabled, its cocoon, its work outside the partition, its cached entries and its
attachments go (R55, R59, R283, R292). A pre-emption window that waited for it ends (R76). -/
def State.freeContext (s : State) (n : Nat) : State :=
  let s1 := (((s.disableQueues n).abandon n).detachAll n).setCtx n .blank
  ((((s1.set (Reg.ctxCtl n) 31 31 0).set (Reg.ctxStat n) 15 8 0).setCstate n stFree stOk).dropCaches n).closeUnless (s.partOf n)

/-- ENABLE written 1 or 0: the transition of R55, or a discard. -/
def State.writeEnable (s : State) (o : Origin) (n : Nat) (on : Bool) : State :=
  let st := s.cstate n
  if on then
    if st = stFree && s.partExists (s.partOf n) then
      (((s.setCtx n .blank).dropCaches n).set (Reg.ctxCtl n) 31 31 1).setCstate n stBound stOk
    else s.violate Reg.ctxViolcnt o
  else if st = stBound || st = stCocooned then s.freeContext n
  else s.violate Reg.ctxViolcnt o

/-- PREEMPT written 1: only a RUNNING context enters PARKING (R55, R78). -/
def State.writePreempt (s : State) (o : Origin) (n : Nat) : State :=
  if s.cstate n = stRunning then s.park n true else s.violate Reg.ctxViolcnt o

/-- RESUME written 1: a COCOONED context becomes runnable, unless the cluster count differs; with its clusters free it is
selected at once (R55, R56, R79). -/
def State.writeResume (s : State) (o : Origin) (n : Nat) : State :=
  if s.cstate n != stCocooned then s.violate Reg.ctxViolcnt o
  else if s.get (Reg.ctxStat n) 15 8 != (s.members (s.partOf n)).length then
    ((s.stopRunnable n).set (Reg.ctxStat n) 31 24 stMismatch).closeUnless (s.partOf n)
  else ((s.modCtx n fun x => { x with resumed := true }).makeRunnable n).select (s.partOf n)

/-- A write to CTX.CTL(n). Every write to that of context 0 is discarded (R57). -/
def State.writeCtxCtl (s : State) (o : Origin) (n v : Nat) : State :=
  let en := s.get (Reg.ctxCtl n) 31 31 == 1
  let flips := b2n (bit v 31 != en) + b2n (bit v 30) + b2n (bit v 29)
  if n = 0 || 1 < flips then s.violate Reg.ctxViolcnt o
  else
    let s1 := s.set (Reg.ctxCtl n) 15 0 (fld v 15 0)
    let s2 := if !en then s1.set (Reg.ctxCtl n) 21 16 (fld v 21 16)
      else s1.violateIf (fld v 21 16 != s.partOf n) Reg.ctxViolcnt o
    if bit v 30 then s2.writePreempt o n
    else if bit v 29 then s2.writeResume o n
    else if bit v 31 != en then s2.writeEnable o n (bit v 31)
    else s2

/-- A masked write to one field of a register, accepted or discarded as a whole. -/
def State.writeWhen (s : State) (ok : Bool) (viol : Nat) (o : Origin) (off hi lo mask v : Nat) : State :=
  if fld mask hi lo = 0 then s
  else if ok then s.setReg off (((s.reg off) &&& (2 ^ 64 - 1 - (mask &&& bitsOf hi lo))) ||| (v &&& mask &&& bitsOf hi lo))
  else s.violate viol o

/-- PTBASE is written only while FREE, DESCBASE and COCOON while FREE or BOUND (R53). -/
def State.writeCtxBase (s : State) (o : Origin) (n off mask v : Nat) : State :=
  let st := s.cstate n
  if off = Reg.ctxPtbase n then s.writeWhen (st == stFree) Reg.ctxViolcnt o off 51 12 mask v
  else if off = Reg.ctxDescbase n then s.writeWhen (st == stFree || st == stBound) Reg.ctxViolcnt o off 47 16 mask v
  else s.writeWhen (st == stFree || st == stBound) Reg.ctxViolcnt o off 38 21 mask v

/-! ### QUE (R58, R59) -/

/-- A write to QUE.CTL(q): LOG2SIZE while EN was 0, then EN. -/
def State.writeQueCtl (s : State) (o : Origin) (q v : Nat) : State :=
  let en := s.queOn q
  let sz := fld v 3 0
  let same := sz == s.get (Reg.queCtl q) 3 0
  let bad := decide (sz < 4) || decide (12 < sz)
  let s1 := if en then s.violateIf (!same) Reg.queViolcnt o
    else if bad then s.violate Reg.queViolcnt o
    else s.set (Reg.queCtl q) 3 0 sz
  if bit v 31 && !en then
    if s1.cstate (q / 8) = stFree then s1.violate Reg.queViolcnt o else s1.set (Reg.queCtl q) 31 31 1
  else if !bit v 31 && en then s1.disableQueue q
  else s1

/-- A write to QUE.CPLPTR(q): waiting completion entries follow while there is room (R64). -/
def State.writeCplptr (s : State) (q v : Nat) : State :=
  let t := s.set (Reg.queCplptr q) 31 16 (fld v 31 16)
  t.drainCpls q (t.queue q).cpls

/-! ### Other blocks -/


/-- A write to a governor-table entry (R422, R446). -/
def State.writeGovtab (s : State) (o : Origin) (k mask v : Nat) : State :=
  let okB := fun b => decide (b ≤ 50)
  let okV := fun b => decide (650 ≤ b) && decide (b ≤ 850)
  let off := Reg.pwrGovtab k
  let bad := badField mask v 31 16 okB || badField mask v 15 0 okV
  (((s.writeField off 47 32 mask v fun _ => true).writeField off 31 16 mask v okB).writeField off 15 0 mask v okV).violateIf
    bad Reg.pwrViolcnt o

/-- A masked write that is refused for some values of one field. -/
def State.writeRange (s : State) (o : Origin) (viol off hi lo mask v : Nat) (ok : Nat → Bool) : State :=
  (s.writeField off hi lo mask v ok).violateIf (badField mask v hi lo ok) viol o

/-- A write to CHK.LEVEL(p): ROT only while no context of p runs or is cocooned (R398); a new ROT begins without a spare. -/
def State.writeLevel (s : State) (o : Origin) (p v : Nat) : State :=
  let t := s.set (Reg.chkLevel p) 1 0 (fld v 1 0)
  if fld v 2 2 = t.get (Reg.chkLevel p) 2 2 then t
  else if t.partHeld p then t.violate Reg.chkViolcnt o
  else (t.set (Reg.chkLevel p) 2 2 (fld v 2 2)).modChk fun x =>
    { x with spares := Tab.erase x.spares p, removed := Tab.erase x.removed p }

/-- A write to SNP.AREA(c): a change of BASE or GRANULES empties the slots (R405). -/
def State.writeArea (s : State) (c mask v : Nat) : State :=
  let t := s.writeWhen true 0 .mgmt (Reg.snpArea c) 51 0 mask v
  if t.reg (Reg.snpArea c) = s.reg (Reg.snpArea c) then t else t.emptySlots

/-- A write to STP.ROLE: ROLE = 11b is a reserved code (R372). A 32-bit write reaches one half of CTX (R12). The register is
typed RWL, so a write before the lock shows at once; the role that counts is that of the blob (R31, `State.role`, log 107). -/
def State.writeRole (s : State) (o : Origin) (mask v : Nat) : State :=
  let part := fun (t : State) hi lo => t.writeWhen true Reg.stpViolcnt o Reg.stpRole hi lo mask v
  (part (((part (part s 63 52) 51 40)).writeField Reg.stpRole 39 38 mask v (· != 3)) 37 26).violateIf
      (badField mask v 39 38 (· != 3)) Reg.stpViolcnt o

/-- Does the host-managed window that a register value describes meet the conditions of R456? -/
def State.hdmOk (s : State) (w : Nat) : Bool :=
  let base := fld w 51 28 * 2 ^ 28
  let n := fld w 11 0 * 2 ^ 28
  match ddrChannel base with
  | none => false
  | some c => n != 0 && decide ((base - 0x40000000000) % 0x8000000000 + n ≤ s.ddrBytes c)

/-- A write to HIF.HDMWIN: a window that fails the conditions is not enabled, and the write counts. -/
def State.writeHdmwin (s : State) (o : Origin) (mask v : Nat) : State :=
  let used := bitsOf 63 63 + bitsOf 51 28 + bitsOf 11 0
  let w := ((s.reg Reg.hifHdmwin) &&& (2 ^ 64 - 1 - mask)) ||| (v &&& mask &&& used)
  if bit w 63 && !s.hdmOk w then (s.setReg Reg.hifHdmwin (setFld w 63 63 0)).violate Reg.hifViolcnt o
  else s.setReg Reg.hifHdmwin w

/-- A write to HIF.RESET (R457); both bits at once are discarded. -/
def State.writeReset (s : State) (o : Origin) (v : Nat) : State :=
  if bit v 31 && bit v 30 then s.violate Reg.hifViolcnt o
  else if bit v 31 then s.coldReset
  else if bit v 30 then s.warmReset
  else s

/-- A write to MGT.CTL. -/
def State.writeMgtCtl (s : State) (v : Nat) : State :=
  let t := (s.set Reg.mgtCtl 30 30 (fld v 30 30)).set Reg.mgtCtl 6 0 (fld v 6 0)
  if bit v 31 then t.wakeEvent 2 else t

/-- A write to a VIOLCNT: CLR clears COUNT, HOSTSRC and LASTCTX (R86). -/
def State.writeViol (s : State) (off v : Nat) : State := if bit v 31 then s.setReg off 0 else s

/-! ### The write of a register by its access types (R13) -/

/-- Write one field. -/
def State.writeFieldOf (s : State) (off mask v : Nat) (f : RegField) : State :=
  let m := mask &&& bitsOf f.hi f.lo
  let new := ((s.reg off) &&& (2 ^ 64 - 1 - m)) ||| (v &&& m)
  match f.acc with
  | .rw => s.setReg off new
  | .rwl => if s.locked then s else s.setReg off new
  | .w1c => s.setReg off ((s.reg off) &&& (2 ^ 64 - 1 - (v &&& m)))
  | .ro => s
  | .wo => s

/-- Write every field. -/
def State.writeFields (s : State) (off mask v : Nat) (fs : List RegField) : State :=
  if mask = 0 then s else fs.foldl (fun t f => t.writeFieldOf off mask v f) s

/-- Index of an instance in its register's first and second dimension. -/
def regIndex (r : RegRow) (off : Nat) : Nat × Nat :=
  match r.dims with
  | [] => (0, 0)
  | [(_, st)] => ((off - r.base) / st, 0)
  | (_, st) :: (_, st2) :: _ => ((off - r.base) / st, (off - r.base) % st / st2)

/-- Run `t` unless the RWL lock is taken. -/
def State.unlessLocked (s t : State) : State := if s.locked then s else t

/-- Registers of CFG, CTX and QUE. -/
def State.writeCore (s : State) (o : Origin) (b i off mask v : Nat) : Option State :=
  if b = Reg.cfgPartmap 0 then some (s.writePartmap o i mask v)
  else if b = Reg.cfgPartctl 0 then some (s.writePartctl i v)
  else if b = Reg.cfgPartemu 0 then some (s.writePartemu o i v)
  else if b = Reg.ctxCtl 0 then some (s.writeCtxCtl o ((off - b) / 256) v)
  else if b = Reg.ctxPtbase 0 || b = Reg.ctxDescbase 0 || b = Reg.ctxCocoon 0 then some (s.writeCtxBase o i off mask v)
  else if b = Reg.queCtl 0 then some (s.writeQueCtl o i v)
  else if b = Reg.queBase 0 || b = Reg.queCplbase 0 then
    some (s.writeWhen (!s.queOn i) Reg.queViolcnt o off 47 12 mask v)
  else if b = Reg.queCplptr 0 then some (s.writeCplptr i v)
  else none

/-- Registers of power, clocks, the sentinel and the host interface. -/
def State.writePlatform (s : State) (o : Origin) (b i j mask v : Nat) : Option State :=
  if b = Reg.clkDroopcfg then
    some (s.unlessLocked (s.writeRange o Reg.clkViolcnt Reg.clkDroopcfg 7 0 mask v fun x => decide (0x10 ≤ x) && decide (x ≤ 0x60)))
  else if b = Reg.pwrOpset then some (s.writeOpset o mask v)
  else if b = Reg.pwrCap then some (s.writeCap o mask v)
  else if b = Reg.pwrGovtab 0 || b = Reg.pwrGovtab 1 || b = Reg.pwrGovtab 2 || b = Reg.pwrGovtab 3 then
    some (s.unlessLocked (s.writeGovtab o ((b - Reg.pwrGovtab 0) / 8) mask v))
  else if b = Reg.senCtl then some (s.writeSenCtl mask v)
  else if b = Reg.senSlot 0 then some (s.writeSenSlot o i mask v)
  else if b = Reg.senProg 0 0 then some (s.writeProg o i j mask v)
  else if b = Reg.hifPushctl then some (s.writePushctl o mask v)
  else if b = Reg.hifHdmwin then some (s.unlessLocked (s.writeHdmwin o mask v))
  else if b = Reg.hifReset then some (s.writeReset o v)
  else if b = Reg.mgtCtl then some (s.writeMgtCtl v)
  else none

/-- Registers of the ledger, memory, the fabric, checking and snapshots. -/
def State.writeFabric (s : State) (o : Origin) (b i j off mask v : Nat) : Option State :=
  if b = Reg.mxeChkctl 0 then
    some (s.unlessLocked (s.writeRange o (Reg.mxeViolcnt i) off 4 0 mask v fun x => decide (8 ≤ x) && decide (x ≤ 0x14)))
  else if b = Reg.ldgPctl 0 0 then some (s.writePctl o (128 * i + j) mask v)
  else if b = Reg.ldgPframe 0 0 || b = Reg.ldgPpack 0 0 || b = Reg.ldgPspill 0 0 || b = Reg.ldgPhost 0 0 then
    some (s.writeWhen (!bit (s.pctl (128 * i + j)) 63) (Reg.ldgViolcnt i) o off 51 0 mask v)
  else if b = Reg.ldgPpolicy 0 0 then
    some (s.writeWhen (!bit (s.pctl (128 * i + j)) 63) (Reg.ldgViolcnt i) o off 63 6 mask v)
  else if b = Reg.ldgPdef 0 0 then
    some (s.writeWhen (!bit (s.pctl (128 * i + j)) 63) (Reg.ldgViolcnt i) o off 39 28 mask v)
  else if b = Reg.ldgShbase 0 then some (s.writeShbase o i mask v)
  else if b = Reg.hbmBwshare 0 then some (s.writeBwshare o i mask v)
  else if b = Reg.hbmRecal 0 then some (s.writeRecal o i v)
  else if b = Reg.mdlPctl 0 then some (s.writePortCtl o i mask v s.locked)
  else if b = Reg.mdlPgrant 0 then some (s.writePgrant o i mask v)
  else if b = Reg.mdlStorecfg then some (s.writeRange o Reg.mdlViolcnt off 15 0 mask v (· != 0))
  else if b = Reg.colPlantab 0 then
    some (s.writeWhen (s.cstate i == stFree || s.cstate i == stBound) Reg.colViolcnt o off 47 12 mask v)
  else if b = Reg.stpRole then some (s.unlessLocked (s.writeRole o mask v))
  else if b = Reg.chkLevel 0 then some (s.writeLevel o i v)
  else if b = Reg.chkWatch then some (s.unlessLocked (s.writeRange o Reg.chkViolcnt off 15 0 mask v (· != 0)))
  else if b = Reg.snpArea 0 then some (s.unlessLocked (s.writeArea i mask v))
  else none

/-- Write the bits of `mask` of the register at `off`. Reserved bits that are set count once (R17). -/
def State.writeReg (s : State) (o : Origin) (r : RegRow) (off mask v : Nat) : State :=
  let viol := (ownerViol off).getD Reg.hifViolcnt
  let (i, j) := regIndex r off
  if isViol off then (s.writeViol off v).violateIf (v &&& mask != v &&& mask &&& r.usedMask) viol o
  else
    let t := s.violateIf (v &&& mask != v &&& mask &&& r.usedMask) viol o
    match t.writeCore o r.base i off mask v with
    | some u => u
    | none =>
      match t.writePlatform o r.base i j mask v with
      | some u => u
      | none =>
        match t.writeFabric o r.base i j off mask v with
        | some u => u
        | none => t.writeFields off mask v r.fields

/-! ### Reading (R13, R86, R186, R212, R213, R397) -/

/-- Entries of a unit's queue: the instructions of the cluster that the unit holds (R95, R218, R382). -/
def State.queueDepth (s : State) (g : Nat) (u : Unit) : Nat :=
  s.flights.countP fun f => f.2.g == g && !f.2.outside && f.2.holds u

/-- MXE.ESTAT of an engine. -/
def State.engineStat (s : State) (g e : Nat) : Nat :=
  let x := (s.cl g).eng e
  b2n (s.unitActive g e) * 2 ^ 31 + s.queueDepth g (.engine e) % 8 * 2 ^ 28 + b2n x.acc1.isOpen * 2 ^ 27 + b2n x.acc0.isOpen * 2 ^ 26
    + b2n x.out1.isSome * 2 ^ 25 + b2n x.out0.isSome * 2 ^ 24

/-- The head instruction of the vector engine waits on an empty tray (R209). -/
def Cluster.trayWaits (c : Cluster) : Bool :=
  match c.vq with
  | [] => false
  | j :: _ => popsTray j && c.tray.isEmpty

/-- VEC.ESTAT. An instruction that waits at the head of the queue does not occupy the engine (R206, R209, log 35). -/
def State.vectorStat (s : State) (g : Nat) : Nat :=
  b2n (s.unitActive g 16) * 2 ^ 31 + s.queueDepth g .vector % 8 * 2 ^ 28 + b2n (s.cl g).trayWaits * 2 ^ 27

/-- TRY.STAT: HEAD and TAIL are the counts of tiles popped and entered, modulo 128. -/
def State.trayStat (s : State) (g : Nat) : Nat :=
  let n := (s.cl g).tray.length
  n % 256 * 2 ^ 16 + b2n (n == 128) * 2 ^ 15 + s.reg (Reg.tryPopped g) % 128 * 2 ^ 7 + s.reg (Reg.tryPushed g) % 128

/-- Pop the oldest record of the CHK event queue into CHK.EVENT (R398). -/
def State.popChk (s : State) : State :=
  match s.chk.events with
  | [] => (s.setReg Reg.chkEvent0 0).setReg Reg.chkEvent1 0
  | e :: rest =>
    ((s.modChk fun x => { x with events := rest }).setReg Reg.chkEvent0
      (e.status % 256 * 2 ^ 56 + e.source % 16 * 2 ^ 52 + e.unit % 16 * 2 ^ 48 + e.step % 2 ^ 48)).setReg Reg.chkEvent1
      (e.loc % 64 * 2 ^ 58 + b2n e.fault * 2 ^ 57 + e.addr % 2 ^ 52)

/-- What the device does before it answers a read: latches, pops, and registers that show the state of the moment. An AGE
since the last pass is at least what it was, by a free amount. A reserved channel of the sentinel counts (R440). -/
def State.beforeRead (s : State) (o : Origin) (b i j off : Nat) : State :=
  if b = Reg.mxeEstat 0 0 then s.setReg off (s.engineStat i j)
  else if b = Reg.vecEstat 0 then s.setReg off (s.vectorStat i)
  else if b = Reg.tryStat 0 then s.setReg off (s.trayStat i)
  else if b = Reg.ldgPoolaud0 0 0 then s.latchPool (128 * i + j)
  else if b = Reg.ldgShraud 0 then s.latchShared i
  else if b = Reg.mdlCredaud 0 0 then s.setReg off (s.creditAudit i j)
  else if b = Reg.colContrib0 then s.latchContrib
  else if b = Reg.stpBaraud then s.latchBaraud
  else if b = Reg.pwrTokaud then s.latchTokens
  else if b = Reg.senEvent then s.popSen
  else if b = Reg.senCh 0 then s.violateIf (decide (0x28 ≤ i)) Reg.senViolcnt o
  else if b = Reg.chkEvent0 then s.popChk
  else if b = Reg.chkTest 0 then
    let (x, t) := s.draw
    t.addSat off 15 0 x
  else s

/-- Read the register at `off`. -/
def State.readReg (s : State) (o : Origin) (r : RegRow) (off : Nat) : Nat × State :=
  let (i, j) := regIndex r off
  let t := s.beforeRead o r.base i j off
  (t.reg off, t)

/-! ### Which accesses are accepted (R36, R85, R86, R127, R435, R451, R460) -/

/-- The CXL port answers: boot has passed step 1, the clocks run, and the port die is powered (R430, R435, R460). -/
def State.hostUp (s : State) : Bool :=
  decide (2 ≤ s.sec.bootStep) && !s.pins.thermtrip && !s.port0Dark

/-- SEC, HIF and MGT, which respond from step 2. -/
def earlyBlock (off : Nat) : Bool := decide (0xE00000 ≤ off) && decide (off < 0xE30000)

/-- Blocks on compute, base and link dies (R19, R435): the clusters, the ledger and codecs, HBM, MDL, COL, step control and
the snapshot movers. -/
def darkBlock (off : Nat) : Bool :=
  (decide (0x400000 ≤ off) && decide (off < 0x902000)) || (decide (0xA00000 ≤ off) && decide (off < 0xC01000))
    || (decide (0xC02000 ≤ off) && decide (off < 0xC03000))

/-- May the origin make the access? A context reaches its own window and queues, its partition's CFG registers, and by reads
the windows of the clusters on which it runs; a VIOLCNT only context 0 reads, and the management port those of its blocks
(R436, R473, log 76). -/
def State.mayAccess (s : State) (o : Origin) (write : Bool) (off : Nat) : Bool :=
  match o with
  | .host => true
  | .mgmt => true
  | .ctx 0 => true
  | .ctx n =>
    if isViol off then false
    else if 0x100000 ≤ off && off < 0x200000 then (off - 0x100000) / 256 == n
    else if 0x200000 ≤ off && off < 0x400000 then (off - 0x200000) / 64 / 8 == n
    else if 0x1000 ≤ off && off < 0x1400 then s.cstate n != stFree && (off - 0x1000) / 16 == s.partOf n
    else if off < 0x1000 then !write
    else if 0x400000 ≤ off && off < 0x800000 then !write && (s.cl ((off - 0x400000) / 0x10000)).ctx == some n
    else false

/-- The part of an access that falls in one register: the register, its offset, and the shift of the part in it. -/
def regPart (off : Nat) : Option (RegRow × Nat × Nat) :=
  match regAt off with
  | some r => some (r, off, 0)
  | none =>
    match regAt (off - 4) with
    | some r => if 4 ≤ off && r.width == 64 then some (r, off - 4, 32) else none
    | none => none

/-- Write 4 bytes, or 8 of a 64-bit register. -/
def State.writePart (s : State) (o : Origin) (off size v : Nat) : State :=
  let viol := (ownerViol off).getD Reg.hifViolcnt
  match regPart off with
  | none => s.violate viol o
  | some (r, base, sh) =>
    if s.mayAccess o true base then s.writeReg o r base ((2 ^ (8 * size) - 1) * 2 ^ sh) (v % 2 ^ (8 * size) * 2 ^ sh)
    else s.violate viol o

/-- Read 4 bytes, or 8 of a 64-bit register. Only a read that holds a register's first bytes latches or pops. -/
def State.readPart (s : State) (o : Origin) (off size : Nat) : Nat × State :=
  let viol := (ownerViol off).getD Reg.hifViolcnt
  match regPart off with
  | none => (0, s.violate viol o)
  | some (r, base, sh) =>
    if s.mayAccess o false base then
      let (v, t) := if sh = 0 then s.readReg o r base else (s.reg base, s)
      (v / 2 ^ sh % 2 ^ (8 * size), t)
    else (0, s.violate viol o)

/-- Where a 4-byte access that is turned away counts. -/
def State.partViol (s : State) (o : Origin) (write : Bool) (off : Nat) : Option Nat :=
  let viol := (ownerViol off).getD Reg.hifViolcnt
  match regPart off with
  | none => some viol
  | some (_, base, _) => if s.mayAccess o write base then none else some viol

/-- Where an 8-byte access counts, once, when neither half is made and both would count in one block (R17). -/
def State.wholeViol (s : State) (o : Origin) (write : Bool) (off : Nat) : Option Nat :=
  match s.partViol o write off, s.partViol o write (off + 4) with
  | some a, some b => if a = b then some a else none
  | _, _ => none

/-- Is an access of 8 bytes that of a 64-bit register? One that covers two 32-bit registers is taken as two accesses, low half
first, each on its own (log 108): R12 does not say whether it is one or two, nor in what order. -/
def isWide (off size : Nat) : Bool :=
  size == 8 && (match regAt off with
    | some r => r.width == 64
    | none => false)

/-- Where an access that is not made counts: none when it is to be made (R435, R451, R460). -/
def State.accessBad (s : State) (off size : Nat) : Option Nat :=
  if !(size == 4 || size == 8) || off % size != 0 || (ownerViol off).isNone then some Reg.hifViolcnt
  else if s.sec.bootStep < 5 && !earlyBlock off then some Reg.hifViolcnt
  else if s.pwr.dark && darkBlock off then some Reg.pwrViolcnt
  else none

/-- Where an access of `o` that is discarded as a whole counts: none when it is made, or each half of it on its own. -/
def State.accessViol (s : State) (o : Origin) (write : Bool) (off size : Nat) : Option Nat :=
  match s.accessBad off size with
  | some viol => some viol
  | none => if size = 8 && !isWide off size then s.wholeViol o write off else none

/-- The halves of an 8-byte value, and the value of two halves (R12). -/
def lowWord (v : Nat) : Nat := fld v 31 0
def highWord (v : Nat) : Nat := fld v 63 32
def joinWords (lo hi : Nat) : Nat := lo + hi * 2 ^ 32

/-- A write to BAR0. -/
def State.barWrite (s : State) (o : Origin) (off size v : Nat) : State :=
  if !s.hostUp then s
  else
    match s.accessViol o true off size with
    | some viol => s.violate viol o
    | none =>
      if isWide off size then s.writePart o off 8 v
      else if size = 8 then (s.writePart o off 4 (lowWord v)).writePart o (off + 4) 4 (highWord v)
      else s.writePart o off 4 v

/-- A read of BAR0: its value, zero where it is discarded. -/
def State.barRead (s : State) (o : Origin) (off size : Nat) : Nat × State :=
  if !s.hostUp then (0, s)
  else
    match s.accessViol o false off size with
    | some viol => (0, s.violate viol o)
    | none =>
      if isWide off size then s.readPart o off 8
      else if size = 8 then
        let (a, t) := s.readPart o off 4
        let (b, u) := t.readPart o (off + 4) 4
        (joinWords a b, u)
      else s.readPart o off 4

end Machine

end Sys2Proof
end

