-- ==== Sys2Proof/Machine/HostPort.lean ====
section
/-! DEFINITION. The commands of the host and of management: register writes and reads, doorbells, MSI-X, the host-managed
window, I3C, and the signed configuration blob (R48–R61, R86, R449–R456, R464, R465, R473). -/

set_option Elab.async false

namespace Sys2Proof

namespace Machine

/-! ### BAR4 (R450, R453) -/

/-- Offsets of REGISTER_WRITE from here on are those of BAR4 (log 6). -/
def bar4 : Nat := 0x10000000

def State.msixEntry (s : State) (v : Nat) : Msix := Tab.getD ⟨0, 0, true⟩ s.msix v

/-- Deliver a pending vector that is no longer masked. -/
def State.deliver (s : State) (v : Nat) : State :=
  if s.msixPending.contains v && !(s.msixEntry v).masked then
    ({ s with msixPending := s.msixPending.filter (· != v) }).signal v
  else s

/-- The pending-bit array: 256 bits from 8000h on, read-only. -/
def inPba (off : Nat) : Bool := decide (0x8000 ≤ off) && decide (off < 0x8020)

/-- Does a 32-bit word of BAR4 lie in the table or in the pending-bit array? -/
def bar4Holds (off : Nat) : Bool := decide (off < 0x1000) || inPba off

/-- Write one 32-bit word of the MSI-X table; a write to the pending bits is ignored (R13). -/
def State.writeMsix (s : State) (off v : Nat) : State :=
  if 0x1000 ≤ off then s
  else
    let i := off / 16
    let e := s.msixEntry i
    let n : Msix := if off % 16 = 0 then { e with addr := e.addr / 2 ^ 32 * 2 ^ 32 + v % 2 ^ 32 }
      else if off % 16 = 4 then { e with addr := e.addr % 2 ^ 32 + v % 2 ^ 32 * 2 ^ 32 }
      else if off % 16 = 8 then { e with data := v % 2 ^ 32 }
      else { e with masked := bit v 0 }
    ({ s with msix := Tab.put s.msix i n }).deliver i

/-- One 32-bit word of BAR4. -/
def State.readMsix (s : State) (off : Nat) : Nat :=
  if inPba off then (List.range 32).foldl (fun a i => a + b2n (s.msixPending.contains (8 * (off - 0x8000) + i)) * 2 ^ i) 0
  else
    let e := s.msixEntry (off / 16)
    if off % 16 = 0 then e.addr % 2 ^ 32
    else if off % 16 = 4 then e.addr / 2 ^ 32 % 2 ^ 32
    else if off % 16 = 8 then e.data % 2 ^ 32
    else b2n e.masked

/-- An access of BAR4 that is not made: of another size or alignment, or outside the table and the pending bits (R17). -/
def bar4Bad (off size : Nat) : Bool := !(size == 4 || size == 8) || off % size != 0 || !bar4Holds off

/-- A write to BAR4. -/
def State.bar4Write (s : State) (off size v : Nat) : State :=
  if !s.hostUp then s
  else if bar4Bad off size then s.violate Reg.hifViolcnt .host
  else if size = 8 then (s.writeMsix off v).writeMsix (off + 4) (v / 2 ^ 32)
  else s.writeMsix off v

/-- A read of BAR4, whose value is the command's answer. -/
def State.bar4Read (s : State) (off size : Nat) : State :=
  if !s.hostUp then { s with resp := [0] }
  else if bar4Bad off size then { s.violate Reg.hifViolcnt .host with resp := [0] }
  else { s with resp := [s.readMsix off + if size = 8 then s.readMsix (off + 4) * 2 ^ 32 else 0] }

/-! ### I3C (R436, R473) -/

/-- Does the management port run? -/
def State.mgmtUp (s : State) : Bool := decide (2 ≤ s.sec.bootStep)

/-- A SEN register, the management registers, and the others that the port reads (R473). -/
def mgmtReads (off : Nat) : Bool :=
  off == Reg.pwrCap || off == Reg.pwrStat || off == Reg.pwrPower || off == Reg.chkStat || off == Reg.hifBootstat
    || (decide (0xD00000 ≤ off) && decide (off < 0xD02000)) || (decide (Reg.secIdent 0 ≤ off) && decide (off < Reg.secIdent 4))
    || (decide (0xE20000 ≤ off) && decide (off < 0xE21000))

def mgmtWrites (off : Nat) : Bool :=
  off == Reg.pwrCap || off == Reg.senCtl || off == Reg.senTrip || off == Reg.mgtCtl
    || ((List.range 8).any fun i => off == Reg.senSlot i) || (decide (Reg.senProg 0 0 ≤ off) && decide (off < Reg.senProg 8 0))

/-- Registers that the always-on domain reads while the rest is unpowered (R435, R436). -/
def alwaysOn (off : Nat) : Bool :=
  off == Reg.pwrStat || off == Reg.chkStat || (decide (0xD00000 ≤ off) && decide (off < 0xD02000))
    || (decide (0xE20000 ≤ off) && decide (off < 0xE21000))

/-- Only the always-on domain is powered or clocked. -/
def State.alwaysOnOnly (s : State) : Bool :=
  s.pins.thermtrip || s.port0Dark

/-- Is an access of the management port made? Every register that it touches must be one of the port's. -/
def State.mgmtOk (s : State) (write : Bool) (off size : Nat) : Bool :=
  (size == 4 || size == 8) && off % size == 0 &&
  ((List.range (size / 4)).all fun i =>
    match regPart (off + 4 * i) with
    | none => false
    | some (_, b, _) =>
      (if write then mgmtWrites b else mgmtReads b && (!s.alwaysOnOnly || alwaysOn b))
        && (decide (5 ≤ s.sec.bootStep) || earlyBlock b))

/-- A write by the management port. -/
def State.mgmtWrite (s : State) (off size v : Nat) : State :=
  if !s.mgmtUp then s
  else if !s.mgmtOk true off size then s.violate Reg.mgtViolcnt .mgmt
  else if isWide off size then s.writePart .mgmt off 8 v
  else if size = 8 then (s.writePart .mgmt off 4 (v % 2 ^ 32)).writePart .mgmt (off + 4) 4 (v / 2 ^ 32)
  else s.writePart .mgmt off 4 v

/-- A read by the management port; a discarded one returns zero. -/
def State.mgmtRead (s : State) (off size : Nat) : State :=
  if !s.mgmtUp then s
  else if !s.mgmtOk false off size then { s.violate Reg.mgtViolcnt .mgmt with resp := [0] }
  else if isWide off size then
    let (v, t) := s.readPart .mgmt off 8
    { t with resp := [v] }
  else if size = 8 then
    let (a, t) := s.readPart .mgmt off 4
    let (b, u) := t.readPart .mgmt (off + 4) 4
    { u with resp := [a + b * 2 ^ 32] }
  else
    let (v, t) := s.readPart .mgmt off 4
    { t with resp := [v] }

/-- A register write of an origin: over I3C from the management port, otherwise to BAR0. -/
def State.regWrite (s : State) (o : Origin) (off size v : Nat) : State :=
  if o = .mgmt then s.mgmtWrite off size v else s.barWrite o off size v

/-- A register read of an origin, whose value is the command's answer (log 9). -/
def State.regRead (s : State) (o : Origin) (off size : Nat) : State :=
  if o = .mgmt then s.mgmtRead off size
  else
    let (v, t) := s.barRead o off size
    { t with resp := [v] }

/-! ### Register writes -/

/-- REGISTER_WRITE: a write to any register by its access types, or the read of one, which has no row of its own (R13, R17,
R450, log 6). -/
def execRegisterWrite (o : Origin) (off size : Nat) (v : Option Nat) (s : State) : Host.Outcome State Fault Refusal :=
  .next (
    match v with
    | some x => if bar4 ≤ off then s.bar4Write (off - bar4) size x else s.regWrite o off size x
    | none => if bar4 ≤ off then s.bar4Read (off - bar4) size else s.regRead o off size)

def execViolcntClr (o : Origin) (off v : Nat) (s : State) : Host.Outcome State Fault Refusal := .next (s.regWrite o off 4 v)
def execPartmapWrite (o : Origin) (p v : Nat) (s : State) : Host.Outcome State Fault Refusal :=
  .next (s.regWrite o (Reg.cfgPartmap p) 8 v)
def execPartitionReset (o : Origin) (p v : Nat) (s : State) : Host.Outcome State Fault Refusal :=
  .next (s.regWrite o (Reg.cfgPartctl p) 4 v)
def execContextEnable (o : Origin) (n v : Nat) (s : State) : Host.Outcome State Fault Refusal :=
  .next (s.regWrite o (Reg.ctxCtl n) 4 v)
def execContextDisable (o : Origin) (n v : Nat) (s : State) : Host.Outcome State Fault Refusal :=
  .next (s.regWrite o (Reg.ctxCtl n) 4 v)
def execPreempt (o : Origin) (n v : Nat) (s : State) : Host.Outcome State Fault Refusal :=
  .next (s.regWrite o (Reg.ctxCtl n) 4 v)
def execResume (o : Origin) (n v : Nat) (s : State) : Host.Outcome State Fault Refusal :=
  .next (s.regWrite o (Reg.ctxCtl n) 4 v)
def execQueEnable (o : Origin) (q v : Nat) (s : State) : Host.Outcome State Fault Refusal :=
  .next (s.regWrite o (Reg.queCtl q) 4 v)
def execQueDisable (o : Origin) (q v : Nat) (s : State) : Host.Outcome State Fault Refusal :=
  .next (s.regWrite o (Reg.queCtl q) 4 v)
def execPoolEnable (o : Origin) (k v : Nat) (s : State) : Host.Outcome State Fault Refusal :=
  .next (s.regWrite o (Reg.ldgPctl (k / 128) (k % 128)) 8 v)
def execPoolDisable (o : Origin) (k v : Nat) (s : State) : Host.Outcome State Fault Refusal :=
  .next (s.regWrite o (Reg.ldgPctl (k / 128) (k % 128)) 8 v)
def execShbaseWrite (o : Origin) (t v : Nat) (s : State) : Host.Outcome State Fault Refusal :=
  .next (s.regWrite o (Reg.ldgShbase t) 8 v)
def execBwshareWrite (o : Origin) (p v : Nat) (s : State) : Host.Outcome State Fault Refusal :=
  .next (s.regWrite o (Reg.hbmBwshare p) 8 v)
def execRecalNow (o : Origin) (t v : Nat) (s : State) : Host.Outcome State Fault Refusal :=
  .next (s.regWrite o (Reg.hbmRecal t) 4 v)
def execPortEnable (o : Origin) (m v : Nat) (s : State) : Host.Outcome State Fault Refusal :=
  .next (s.regWrite o (Reg.mdlPctl m) 4 v)
def execPortDisable (o : Origin) (m v : Nat) (s : State) : Host.Outcome State Fault Refusal :=
  .next (s.regWrite o (Reg.mdlPctl m) 4 v)
def execStorePortSelect (o : Origin) (m v : Nat) (s : State) : Host.Outcome State Fault Refusal :=
  .next (s.regWrite o (Reg.mdlPctl m) 4 v)
def execOperatingPointSet (o : Origin) (v : Nat) (s : State) : Host.Outcome State Fault Refusal :=
  .next (s.regWrite o Reg.pwrOpset 4 v)
def execRampLimitSet (o : Origin) (v : Nat) (s : State) : Host.Outcome State Fault Refusal :=
  .next (s.regWrite o Reg.pwrOpset 4 v)
def execPushGo (o : Origin) (v : Nat) (s : State) : Host.Outcome State Fault Refusal := .next (s.regWrite o Reg.hifPushctl 4 v)
def execHdmwinWrite (o : Origin) (v : Nat) (s : State) : Host.Outcome State Fault Refusal := .next (s.regWrite o Reg.hifHdmwin 8 v)
def execHifResetCold (o : Origin) (v : Nat) (s : State) : Host.Outcome State Fault Refusal := .next (s.regWrite o Reg.hifReset 4 v)
def execHifResetWarm (o : Origin) (v : Nat) (s : State) : Host.Outcome State Fault Refusal := .next (s.regWrite o Reg.hifReset 4 v)

/-! ### Reads that latch or pop -/

def execPoolaudLatch (o : Origin) (k : Nat) (s : State) : Host.Outcome State Fault Refusal :=
  .next (s.regRead o (Reg.ldgPoolaud0 (k / 128) (k % 128)) 8)
def execShraudLatch (o : Origin) (t : Nat) (s : State) : Host.Outcome State Fault Refusal := .next (s.regRead o (Reg.ldgShraud t) 8)
def execTokaudLatch (o : Origin) (s : State) : Host.Outcome State Fault Refusal := .next (s.regRead o Reg.pwrTokaud 8)
def execCredaudLatch (o : Origin) (m l : Nat) (s : State) : Host.Outcome State Fault Refusal :=
  .next (s.regRead o (Reg.mdlCredaud m l) 8)
def execBaraudLatch (o : Origin) (s : State) : Host.Outcome State Fault Refusal := .next (s.regRead o Reg.stpBaraud 8)
def execContribLatch (o : Origin) (s : State) : Host.Outcome State Fault Refusal := .next (s.regRead o Reg.colContrib0 8)
def execChkEventPop (o : Origin) (s : State) : Host.Outcome State Fault Refusal := .next (s.regRead o Reg.chkEvent0 8)

/-! ### Doorbells (R60, R61, R452) -/

/-- An access of BAR2 that is not made (R451). -/
def bar2Bad (off size : Nat) : Bool := !(size == 4 || size == 8) || off % size != 0 || decide (0x200000 ≤ off)

/-- A read of BAR2 returns zero (R452). -/
def State.bar2Read (s : State) (off size : Nat) : State :=
  { (if s.hostUp && bar2Bad off size then s.violate Reg.hifViolcnt .host else s) with resp := [0] }

/-- A write to BAR2. Bytes 04h–3Fh of an entry are discarded and counted. -/
def State.doorbell (s : State) (off size v : Nat) : State :=
  let o := off % 64
  let q := off / 64
  if !s.hostUp then s
  else if bar2Bad off size then s.violate Reg.hifViolcnt .host
  else if o != 0 then s.violate Reg.queViolcnt .host
  else (s.ringDoorbell q (v % 2 ^ 32)).violateIf (size == 8) Reg.queViolcnt .host

/-- DOORBELL: a write to BAR2, or a read of it, which has no row of its own (log 6). -/
def execDoorbell (off size : Nat) (v : Option Nat) (s : State) : Host.Outcome State Fault Refusal :=
  .next (
    match v with
    | some x => s.doorbell off size x
    | none => s.bar2Read off size)

/-! ### The host-managed window (R435, R456) -/

/-- HDM_ACCESS: a CXL.mem request at a device physical address of the window, in plaintext. -/
def execHdmAccess (write : Bool) (addr size v : Nat) (s : State) : Host.Outcome State Fault Refusal :=
  .next (
    if !s.hostUp || decide (s.sec.bootStep < 5) || !((List.range size).all fun i => s.inHdm (addr + i)) then s
    else if write then s.writePhys 0 addr (leBytes size v)
    else { s with resp := [leNat (s.readPhys 0 addr size).1] })

/-! ### I3C rows (R437, R473) -/

def execI3cTransaction (write : Bool) (addr size v : Nat) (s : State) : Host.Outcome State Fault Refusal :=
  .next (if write then s.mgmtWrite addr size v else s.mgmtRead addr size)

/-- I3C_WAKE: MGT.CTL written over I3C (R437). -/
def execI3cWake (v : Nat) (s : State) : Host.Outcome State Fault Refusal := .next (s.mgmtWrite Reg.mgtCtl 4 v)

def execCapWrite (o : Origin) (v : Nat) (s : State) : Host.Outcome State Fault Refusal := .next (s.regWrite o Reg.pwrCap 4 v)
def execSenSlotEnable (o : Origin) (i v : Nat) (s : State) : Host.Outcome State Fault Refusal :=
  .next (s.regWrite o (Reg.senSlot i) 4 v)
def execSenCtlCapclr (o : Origin) (v : Nat) (s : State) : Host.Outcome State Fault Refusal := .next (s.regWrite o Reg.senCtl 4 v)

def execSenEventPop (o : Origin) (s : State) : Host.Outcome State Fault Refusal :=
  .next (s.regRead o Reg.senEvent 8)

/-! ### The signed configuration blob (R464, R465) -/

def blobLength (b : List Byte) : Nat := leAt b 8 4
def blobItems (b : List Byte) : Nat := leAt b 0xC 4
def blobOwner (b : List Byte) : List Byte := (b.drop 0x30).take 1952
def blobEndorse (b : List Byte) : List Byte := (b.drop 0x7D0).take 3309
def blobScope (b : List Byte) : List Byte := (b.drop 0x10).take 32
def sigBytes : Nat := 3309
def blobSig (b : List Byte) : List Byte := b.drop (b.length - sigBytes)

/-- An item: its tag and value. -/
structure Item where
  tag : Nat
  value : List Byte
  deriving DecidableEq, Repr

/-- Read `n` items from an offset; none when one overruns `fin`. -/
def readItems (b : List Byte) (off n fin : Nat) : Option (List Item) :=
  match n with
  | 0 => some []
  | k + 1 =>
    let len := leAt b (off + 2) 2
    if fin < off + 4 + roundUp len 4 then none
    else
      match readItems b (off + 4 + roundUp len 4) k fin with
      | none => none
      | some rest => some (⟨leAt b off 2, (b.drop (off + 4)).take len⟩ :: rest)

/-- The items of a blob whose header is right. A count that cannot fit overruns (each item takes 4 bytes at least). -/
def blobParse (b : List Byte) : Option (List Item) :=
  if leAt b 0 4 != 0x4B434642 || leAt b 4 2 != 1 || blobLength b != b.length || decide (b.length < 0x14C0 + sigBytes)
      || decide (b.length < 4 * blobItems b) then none
  else readItems b 0x14C0 (blobItems b) b.length

/-- The key pair that a STOREKEY item unwraps to, under the key that SHAKE256 gives of the shared secret (R464, FIPS 203, RFC
3394). -/
def storeKeyOf (value : List Byte) : Option (List Byte) :=
  if value.length = 1160 then Aes.unwrap (Keccak.shake256 (Config.decapsulate (value.take 1088)) 32) (value.drop 1088) else none

/-- The key pairs that a blob's STOREKEY items unwrap to; none when one fails. -/
def storeKeys (is : List Item) : Option (List (List Byte)) :=
  (is.filter fun i => i.tag == 2).mapM fun i => storeKeyOf i.value

/-- SEC.IDENT as bytes. -/
def State.identBytes (s : State) : List Byte := (List.range 4).flatMap fun i => leBytes 8 (s.reg (Reg.secIdent i))

/-- The checks that give AUTH_FAIL (R465). -/
def State.blobAuth (s : State) (b : List Byte) (is : List Item) : Bool :=
  Config.verifies (Config.endorseKey s.sec.image) (digest64 ((b.drop 0x10).take (0x7D0 - 0x10))) (blobEndorse b)
    && ((blobScope b).all (· == 0) || blobScope b == s.identBytes)
    && Config.verifies (blobOwner b) (digest64 (b.take (b.length - sigBytes))) (blobSig b)
    && (storeKeys is).isSome

/-- MINFW is above the version of a core in service. -/
def State.blobTooNew (s : State) (is : List Item) : Bool :=
  is.any fun i => i.tag == 3 && ((List.range 8).any fun k => s.coreIn k && decide (s.coreVersion k < leAt i.value 0 4 % 2 ^ 24))

/-- Apply one item. -/
def State.applyItem (s : State) (i : Item) : State :=
  if i.tag = 1 then s.barWrite (.ctx 0) (leAt i.value 0 4) (leAt i.value 4 1) (leAt i.value 8 8)
  else if i.tag = 2 then s.modSec fun x => { x with storeKey := (storeKeyOf i.value).getD [] }
  else if i.tag = 3 then s
  else s.violate Reg.secViolcnt (.ctx 0)

/-- Apply items in order. A REGSET that resets the device ends the application with it (R16, R465): the flag tells whether all
were applied. -/
def State.applyItems (s : State) : List Item → Bool × State
  | [] => (true, s)
  | i :: rest =>
    let t := s.applyItem i
    if t.sec.bootStep = s.sec.bootStep then t.applyItems rest else (false, t)

/-- Give a field its default. -/
def State.putDefault (s : State) (off hi lo v : Nat) : State := if s.get off hi lo = v then s else s.set off hi lo v

/-- Defaults of one partition: level CHK1; and, while no context of it runs or is cocooned, rotation and emulation off. -/
def State.partDefaults (s : State) (p : Nat) : State :=
  let t := s.putDefault (Reg.chkLevel p) 1 0 1
  if t.partHeld p then t else (t.putDefault (Reg.chkLevel p) 2 2 0).putDefault (Reg.cfgPartemu p) 0 0 0

/-- Is the register at an offset a pool's LDG.PCTL? -/
def isPctl (off : Nat) : Bool := ownerViol off == some (Reg.ldgViolcnt (off / 0x10000 - 0x80)) && decide (off % 0x10000 < 0x2000) && off % 0x40 == 0

/-- The codec policy of every pool becomes lossless, unless its owner keeps CODEC from being written (R263). -/
def State.codecDefaults (s : State) : State :=
  (s.regs.filter fun r => isPctl r.1 && !s.codecShut (fld r.2.toNat 59 48)).foldl (fun t r => t.putDefault r.1 62 61 1) s

/-- Settings that no item of a blob sets take the defaults of R42, and the role that of its register (R31, R465, log 107): they
are given before the items are applied. -/
def State.blobDefaults (s : State) : State :=
  let s1 := (((s.putDefault Reg.pwrOpset 1 0 0).putDefault Reg.pwrOpset 3 2 1).putDefault Reg.stpRole 63 0 0)
  ((List.range 64).foldl (fun t p => t.partDefaults p) s1).codecDefaults

/-- A verified blob whose items have been applied: the record of it and the RWL lock; step control takes its role and joins the
domain (R348). -/
def State.blobApplied (s1 : State) (b : List Byte) (is : List Item) : State :=
  let d := digest32 b
  let s2 := (List.range 4).foldl (fun (t : State) k => t.setReg (Reg.secBlobdig k) (leAt d (8 * k) 8)) s1
  let n := is.countP fun i => i.tag == 1 || i.tag == 2 || i.tag == 3
  let s3 := ((s2.set Reg.secBlobstat 31 31 1).set Reg.secBlobstat 15 0 n).modSec fun x => { x with blob := b }
  (s3.setPhase phConfigured).formTables.sendJoin

/-- The end of a BLOBAPPLY: its status is shown and completes the command. -/
def State.endBlob (s : State) (c : Cmd) (st : Nat) : State := (s.set Reg.secBlobstat 23 16 st).completeCmd c st

/-- A verified blob: defaults, then the items in order. Where an item resets the device nothing is recorded and no command is
left to complete. -/
def State.applyBlob (s : State) (c : Cmd) (b : List Byte) (is : List Item) : State :=
  let (all, t) := s.blobDefaults.applyItems is
  if all then (t.blobApplied b is).endBlob c stOk else t

/-- The conditions of a BLOBAPPLY in their order, and what it does. -/
def State.blobRun (s : State) (c : Cmd) (b : List Byte) : State :=
  if s.locked then s.endBlob c stBusy
  else
    match blobParse b with
    | none => s.endBlob c stMismatch
    | some is =>
      if !s.blobAuth b is then s.endBlob c stAuthFail
      else if s.blobTooNew is then s.endBlob c stMismatch
      else s.applyBlob c b is

/-- BLOBAPPLY. -/
def execBlobapply (q : Nat) (s : State) : Host.Outcome State Fault Refusal :=
  .next (s.service q 0xD0 fun c t =>
    let (b, u) := t.load Reg.secViolcnt 0 (fld c.arg0 51 0) (fld c.arg1 19 0)
    u.blobRun c b)

end Machine

end Sys2Proof
end

