-- ==== Sys2Proof/Machine/Attest.lean ====
section
/-! DEFINITION. Configuration requests, the DOE mailbox with SPDM and measurements, and boundary scan (R19, R449, R460, R467–
R469, R480). What the SPDM, DOE, PCI Express and IEEE 1149.1 standards fix is PRESUMED (logs 5, 7, 8). -/

set_option Elab.async false

namespace Sys2Proof

namespace Machine

/-! ### What the CXL port supports (R449) -/

/-- Items of the table of R449, in its order: the device type, logical devices, the link, flits, CXL.cache, CXL.mem, IDE, DOE and
the rest. A link has a number of lanes and a rate in GT/s; a device cache has a line and a capacity in bytes, and a cache ID; an
HDM decoder has a number, a type (`db`: HDM-DB) and an interleave over ways. -/
inductive PortFeature where
  | cxlIo | cxlCache | cxlMem | type1 | type3
  | singleLogical | multiLogical | portRouting | gfam | dynamicCapacity
  | link (lanes rate : Nat) (degraded : Bool) | laneReversal
  | flit256 | flit68 | flit256Low
  | deviceCache (line capacity cacheId : Nat) | snoopSharing
  | hdmDecoder (number : Nat) (db : Bool) (ways : Nat) | interleaveDevices
  | ide | ideContainment | skidMode | ideWithoutSession
  | doeDiscovery | cma | securedCma | cdat | otherDoe
  | msix | untranslatedDma | ats | pri | pasid | sriov | functionReset | hotPlug
  deriving DecidableEq, Repr

/-- The port is Type 2 and supports exactly these. `degraded`: lanes 8–15 failed training, which alone lets the link train at
half its width. -/
def PortFeature.supported : PortFeature → Bool
  | .cxlIo | .cxlCache | .cxlMem | .singleLogical | .flit256 | .ide | .ideContainment | .doeDiscovery | .cma | .securedCma
  | .cdat | .msix | .untranslatedDma => true
  | .link lanes rate degraded => (rate == 64 || rate == 32) && (lanes == 16 || (lanes == 8 && degraded))
  | .deviceCache line capacity cacheId => line == 64 && decide (capacity ≤ 2 ^ 20) && cacheId == 0
  | .hdmDecoder number db ways => number == 0 && db && ways == 1
  | .type1 | .type3 | .multiLogical | .portRouting | .gfam | .dynamicCapacity | .laneReversal | .flit68 | .flit256Low
  | .snoopSharing | .interleaveDevices | .skidMode | .ideWithoutSession | .otherDoe | .ats | .pri | .pasid | .sriov
  | .functionReset | .hotPlug => false

/-- Extended capabilities of PCI Express by identifier, for the features that are one (PRESUMED, log 7). -/
def PortFeature.extCap : PortFeature → Option Nat
  | .ats => some 0x000F
  | .sriov => some 0x0010
  | .pri => some 0x0013
  | .pasid => some 0x001B
  | .ide => some 0x0030
  | .doeDiscovery => some 0x002E
  | .cxlIo => some 0x0023
  | _ => none

/-- Extended capabilities that configuration space shows: the Designated Vendor-Specific ones of CXL, DOE and IDE. -/
def extCaps : List Nat := ([.ats, .sriov, .pri, .pasid, .cxlIo, .doeDiscovery, .ide].filter PortFeature.supported).filterMap PortFeature.extCap

/-! ### Configuration space (R449, R450, R460; log 7) -/

/-- Sizes of the BARs by the register that holds their low half: BAR0, BAR2 and BAR4 (R450). -/
def barSize (addr : Nat) : Option Nat :=
  if addr = 0x10 then some (2 ^ 26) else if addr = 0x18 then some (2 ^ 21) else if addr = 0x20 then some (2 ^ 16) else none

/-- A 32-bit word of configuration space. A BAR holds the address bits that its size leaves, and says that it is 64-bit and not
prefetchable. The headers of the extended capabilities, every 256 bytes from 100h on, name what the port supports. Other words
are open. -/
def State.configWord (s : State) (addr : Nat) : Nat :=
  let w := Tab.find s.sec.config addr
  match barSize addr with
  | some n => w.getD 0 / n * n + 4
  | none =>
    if addr = 0x14 || addr = 0x1C || addr = 0x24 then w.getD 0
    else if 0x100 ≤ addr && addr % 0x100 = 0 then
      match extCaps[addr / 0x100 - 1]? with
      | some id => id + 2 ^ 16 + (if addr / 0x100 < extCaps.length then (addr + 0x100) * 2 ^ 20 else 0)
      | none => 0
    else Config.configRead addr w % 2 ^ 32

/-- CONFIGURATION_REQUEST: the answer is a completion status, 2 for Configuration Request Retry Status and 0 for success, and
the data of a read. -/
def execConfigurationRequest (write : Bool) (addr size v : Nat) (s : State) : Host.Outcome State Fault Refusal :=
  .next (
    if s.sec.bootStep = 1 && !s.pins.thermtrip then { s with resp := [2] }
    else if !s.hostUp then s
    else if write then { s.modSec fun x => { x with config := Tab.put x.config addr (v % 2 ^ (8 * size)) } with resp := [0] }
    else { s with resp := [0, s.configWord addr % 2 ^ (8 * size)] })

/-! ### The DOE mailbox (R449) -/

def State.doeAnswer (s : State) (bs : List Byte) : State := { s with resp := bs.map (·.toNat) }

/-- Vendor and data object type of a protocol of the mailbox. -/
def PortFeature.doe : PortFeature → Option (Nat × Nat)
  | .doeDiscovery => some (0x0001, 0)
  | .cma => some (0x0001, 1)
  | .securedCma => some (0x0001, 2)
  | .cdat => some (0x1E98, 2)
  | _ => none

/-- The protocols of the mailbox by discovery index. -/
def doeProtocols : List (Nat × Nat) :=
  ([.doeDiscovery, .cma, .securedCma, .cdat, .otherDoe].filter PortFeature.supported).filterMap PortFeature.doe

/-- DOE_DISCOVERY: the protocol at the index asked for, and the next index, 0 after the last. -/
def execDoeDiscovery (msg : List Byte) (s : State) : Host.Outcome State Fault Refusal :=
  .next (
    if !s.hostUp then s
    else
      let i := leAt msg 0 1
      let p := doeProtocols.getD i (0xFFFF, 0)
      s.doeAnswer (leBytes 2 p.1 ++ leBytes 1 p.2 ++ leBytes 1 (if i + 1 < doeProtocols.length then i + 1 else 0)))

/-- CDAT_REQUEST. The tables' contents are another standard's. -/
def execCdatRequest (msg : List Byte) (s : State) : Host.Outcome State Fault Refusal :=
  .next (if s.hostUp then s.doeAnswer (Config.reply 0 msg 0) else s)

/-! ### SPDM (R468) -/

def State.modSpdm (s : State) (f : Spdm → Spdm) : State := s.modSec fun x => { x with spdm := f x.spdm }

/-- A reply of a version, code and two parameters. -/
def spdmMsg (ver code p1 p2 : Nat) (body : List Byte) : List Byte :=
  leBytes 1 ver ++ leBytes 1 code ++ leBytes 1 p1 ++ leBytes 1 p2 ++ body

def State.spdmReply (s : State) (code : Nat) (body : List Byte) : State := s.doeAnswer (spdmMsg 0x13 code 0 0 body)

/-- An ERROR reply. -/
def State.spdmError (s : State) (e : Nat) : State := s.doeAnswer (spdmMsg 0x13 0x7F e 0 [])

def errInvalid : Nat := 0x01
def errUnexpected : Nat := 0x04
def errDecrypt : Nat := 0x06
def errUnsupported : Nat := 0x07
def errLimit : Nat := 0x0A
def errSession : Nat := 0x0B
def errVersion : Nat := 0x41

/-- A request of a code reaches the mailbox: one of another version is refused, and a message that is not the row's request
changes nothing. -/
def State.spdm (s : State) (msg : List Byte) (code ver : Nat) (body : State → State) : State :=
  if !s.hostUp || leAt msg 1 1 != code then s
  else if leAt msg 0 1 != ver then s.spdmError errVersion
  else body s

/-- A request that needs the algorithms to have been negotiated. -/
def State.spdmAfter (s : State) (msg : List Byte) (code : Nat) (body : State → State) : State :=
  s.spdm msg code 0x13 fun t => if t.sec.spdm.stage = 3 then body t else t.spdmError errUnexpected

/-- A request that needs an open session. -/
def State.spdmIn (s : State) (msg : List Byte) (code : Nat) (body : State → State) : State :=
  s.spdm msg code 0x13 fun t => if t.sec.spdm.session = 2 then body t else t.spdmError errSession

/-- A reply whose body is laid out by the standard, with a fresh nonce. -/
def State.spdmOpen (s : State) (code kind : Nat) (msg : List Byte) : State :=
  let (x, t) := s.draw
  t.spdmReply code (Config.reply kind msg x)

/-- The same with the identity key's signature over request and body (R467). -/
def State.spdmSigned (s : State) (code kind : Nat) (msg pre : List Byte) : State :=
  let (x, t) := s.draw
  let body := pre ++ Config.reply kind msg x
  t.spdmReply code (body ++ Config.sign (msg ++ body))

/-- GET_VERSION restarts the connection. -/
def execGetVersion (msg : List Byte) (s : State) : Host.Outcome State Fault Refusal :=
  .next (s.spdm msg 0x84 0x10 fun t =>
    (t.modSpdm fun _ => { Spdm.init with stage := 1 }).doeAnswer (spdmMsg 0x10 0x04 0 0 (leBytes 2 0x0100 ++ leBytes 2 0x1300)))

def execGetCapabilities (msg : List Byte) (s : State) : Host.Outcome State Fault Refusal :=
  .next (s.spdm msg 0xE1 0x13 fun t =>
    if t.sec.spdm.stage = 1 then (t.modSpdm fun x => { x with stage := 2 }).spdmOpen 0x61 1 msg else t.spdmError errUnexpected)

/-- Algorithms that the device supports, as SPDM numbers them (log 8): SHA3-384 among the base hashes, secp384r1 among the DHE
groups, AES-256-GCM among the AEAD suites; each is one bit. -/
def hashSha3_384 : Nat := 0x10
def dheSecp384r1 : Nat := 0x10
def aeadAes256Gcm : Nat := 0x02

/-- Words of 4 bytes of a list. -/
def words4 : Nat → List Byte → List Nat
  | 0, _ => []
  | n + 1, bs => leNat (bs.take 4) :: words4 n (bs.drop 4)

/-- The algorithm structures of a request: type and the 16 bits of its fixed part (log 8). -/
def algStructs : Nat → List Byte → List (Nat × Nat)
  | 0, _ => []
  | n + 1, bs => (leAt bs 0 1, leAt bs 2 2) :: algStructs n (bs.drop (4 + 4 * (leAt bs 1 1 % 16)))

/-- What a NEGOTIATE_ALGORITHMS offers of each: extended asymmetric entries stand before the extended hashes, and the structures
after both. -/
def offersSignature (msg : List Byte) : Bool := (words4 (leAt msg 28 1) (msg.drop 32)).contains Config.mldsaEntry.toNat
def offersHash (msg : List Byte) : Bool := bit (leAt msg 12 4) 4
def offersStruct (msg : List Byte) (type mask : Nat) : Bool :=
  (algStructs (leAt msg 2 1) (msg.drop (32 + 4 * (leAt msg 28 1 + leAt msg 29 1)))).any fun x => x.1 == type && x.2 &&& mask != 0

/-- The ALGORITHMS reply: no base asymmetric algorithm, SHA3-384 for the transcript and for measurements, ML-DSA-65 by its
extended entry, and the DHE group and AEAD suite that were offered (R468). -/
def algorithmsReply (msg : List Byte) : List Byte :=
  let structs := (if offersStruct msg 2 dheSecp384r1 then [leBytes 1 2 ++ leBytes 1 0x20 ++ leBytes 2 dheSecp384r1] else []) ++
    (if offersStruct msg 3 aeadAes256Gcm then [leBytes 1 3 ++ leBytes 1 0x20 ++ leBytes 2 aeadAes256Gcm] else [])
  spdmMsg 0x13 0x63 structs.length 0
    (leBytes 2 (40 + 4 * structs.length) ++ leBytes 1 1 ++ leBytes 1 0 ++ leBytes 4 0x20 ++ leBytes 4 0 ++ leBytes 4 hashSha3_384 ++
      leBytes 12 0 ++ leBytes 1 1 ++ leBytes 1 0 ++ leBytes 2 0 ++ leBytes 4 Config.mldsaEntry.toNat ++ structs.flatMap id)

/-- NEGOTIATE_ALGORITHMS: an offer without ML-DSA-65 or SHA3-384 is refused, since the device has no others; one without the
session's algorithms leaves it without sessions (R468). -/
def execNegotiateAlgorithms (msg : List Byte) (s : State) : Host.Outcome State Fault Refusal :=
  .next (s.spdm msg 0xE3 0x13 fun t =>
    if t.sec.spdm.stage != 2 then t.spdmError errUnexpected
    else if !offersSignature msg || !offersHash msg then t.spdmError errInvalid
    else (t.modSpdm fun x => { x with
        stage := 3, sealed := offersStruct msg 2 dheSecp384r1 && offersStruct msg 3 aeadAes256Gcm }).doeAnswer (algorithmsReply msg))

/-- GET_DIGESTS: slot 0 alone holds a chain. -/
def execGetDigests (msg : List Byte) (s : State) : Host.Outcome State Fault Refusal :=
  .next (s.spdmAfter msg 0x81 fun t => t.doeAnswer (spdmMsg 0x13 0x01 0 1 (Keccak.sha3384 Config.certChain)))

/-- Slot number of a request: only slot 0 holds certificates. -/
def spdmSlot (p : Nat) : Nat := p % 16

/-- GET_CERTIFICATE: a portion of the chain of slot 0, with what remains after it. -/
def execGetCertificate (msg : List Byte) (s : State) : Host.Outcome State Fault Refusal :=
  .next (s.spdmAfter msg 0x82 fun t =>
    let off := leAt msg 4 2
    let rest := Config.certChain.drop off
    let part := rest.take (leAt msg 6 2)
    if spdmSlot (leAt msg 2 1) != 0 || decide (Config.certChain.length ≤ off) then t.spdmError errInvalid
    else t.doeAnswer (spdmMsg 0x13 0x02 0 0 (leBytes 2 part.length ++ leBytes 2 (rest.length - part.length) ++ part)))

def execChallenge (msg : List Byte) (s : State) : Host.Outcome State Fault Refusal :=
  .next (s.spdmAfter msg 0x83 fun t =>
    if spdmSlot (leAt msg 2 1) = 0 then t.spdmSigned 0x03 5 msg [] else t.spdmError errInvalid)

/-! ### Measurements (R469) -/

/-- Version and in-service flag of a core. -/
def State.coreWord (s : State) (i : Nat) : Nat := b2n (s.coreIn i) * 2 ^ 31 + s.coreVersion i

/-- What is measured under an index; none beyond 5. The order of the parts of block 5 is the model's (log 40). -/
def State.measured (s : State) (i : Nat) : Option (List Byte) :=
  if i = 1 then some Config.bootRom
  else if i = 2 then some s.sec.slot
  else if i = 3 then some ((List.range 8).flatMap fun k => leBytes 4 (s.coreWord k))
  else if i = 4 then some s.sec.blob
  else if i = 5 then some (leBytes 4 (s.reg Reg.cfgIdent) ++ leBytes 1 (s.get Reg.chkStat 31 31) ++ leBytes 4 (s.reg Reg.hifBootstat))
  else none

/-- A measurement block: its index, the SHA3-384 digest and the raw value where that is at most 32 bytes. Without a blob,
block 4 is all zeros. -/
def State.measurement (s : State) (i : Nat) : List Byte :=
  match s.measured i with
  | none => []
  | some v =>
    if i = 4 && !s.locked then leBytes 1 i ++ leBytes 48 0
    else leBytes 1 i ++ Keccak.sha3384 v ++ (if v.length ≤ 32 then v else [])

/-- GET_MEASUREMENTS: operation 0 asks for the number of blocks, FFh for all. -/
def execGetMeasurements (msg : List Byte) (s : State) : Host.Outcome State Fault Refusal :=
  .next (s.spdmAfter msg 0xE0 fun t =>
    let op := leAt msg 3 1
    if op = 0 then t.doeAnswer (spdmMsg 0x13 0x60 5 0 [])
    else if op = 0xFF then t.spdmSigned 0x60 6 msg ((List.range 5).flatMap fun i => t.measurement (i + 1))
    else if op ≤ 5 then t.spdmSigned 0x60 6 msg (t.measurement op)
    else t.spdmError errInvalid)

/-! ### Sessions (R468) -/

/-- KEY_EXCHANGE: at most one session at once, and none where its algorithms have not been negotiated. -/
def execKeyExchange (msg : List Byte) (s : State) : Host.Outcome State Fault Refusal :=
  .next (s.spdmAfter msg 0xE4 fun t =>
    if !t.sec.spdm.sealed then t.spdmError errUnsupported
    else if t.sec.spdm.session != 0 then t.spdmError errLimit
    else if spdmSlot (leAt msg 3 1) != 0 then t.spdmError errInvalid
    else
      let (x, u) := t.draw
      (u.modSpdm fun y => { y with session := 1, sessionId := x % 65536 * 65536 + leAt msg 4 2, keys := 0 }).spdmSigned 0x64 7 msg
        (leBytes 2 (x % 65536)))

/-- FINISH: a session whose verify data fails ends. -/
def execFinish (msg : List Byte) (s : State) : Host.Outcome State Fault Refusal :=
  .next (s.spdmAfter msg 0xE5 fun t =>
    if t.sec.spdm.session != 1 then t.spdmError errSession
    else if Config.finishOk msg t.sec.spdm.sessionId then (t.modSpdm fun y => { y with session := 2 }).spdmOpen 0x65 8 msg
    else (t.modSpdm fun y => { y with session := 0 }).spdmError errDecrypt)

/-- KEY_UPDATE: operations 1 and 2 renew keys, 3 verifies the new ones. -/
def execKeyUpdate (msg : List Byte) (s : State) : Host.Outcome State Fault Refusal :=
  .next (s.spdmIn msg 0xE9 fun t =>
    let op := leAt msg 2 1
    if op = 0 || 3 < op then t.spdmError errInvalid
    else (t.modSpdm fun y => { y with keys := if op < 3 then y.keys + 1 else y.keys }).doeAnswer
      (spdmMsg 0x13 0x69 op (leAt msg 3 1) []))

def execSpdmHeartbeat (msg : List Byte) (s : State) : Host.Outcome State Fault Refusal :=
  .next (s.spdmIn msg 0xE8 fun t => t.spdmReply 0x68 [])

def execEndSession (msg : List Byte) (s : State) : Host.Outcome State Fault Refusal :=
  .next (s.spdmIn msg 0xEC fun t => (t.modSpdm fun y => { y with session := 0, sessionId := 0, keys := 0 }).spdmReply 0x6C [])

/-! ### IDE_KM (R449; the layout of its messages is PRESUMED, log 8) -/

/-- Payload of a VENDOR_DEFINED message after its vendor header and length: protocol, object, and what follows. -/
def kmPayload (msg : List Byte) : List Byte := msg.drop 11
def kmObject (msg : List Byte) : Nat := leAt (kmPayload msg) 1 1

/-- The key that a message names: 256 × stream + key set, direction and sub-stream. -/
def kmSlot (msg : List Byte) : Nat := 256 * leAt (kmPayload msg) 4 1 + leAt (kmPayload msg) 6 1

/-- A reply of IDE_KM: the vendor header, the object and the fields that name the key. -/
def State.kmReply (s : State) (msg : List Byte) (object : Nat) : State :=
  let body := leBytes 1 0 ++ leBytes 1 object ++ ((kmPayload msg).drop 2).take 6
  s.doeAnswer (spdmMsg 0x13 0x7E 0 0 ((msg.drop 4).take 5 ++ leBytes 2 body.length ++ body))

/-- KEY_PROG: the stream's key of 32 bytes, with its initial value of 8. -/
def State.keyProg (s : State) (msg : List Byte) : State :=
  s.modSec fun x => { x with ideKeys := Tab.put x.ideKeys (kmSlot msg) (((kmPayload msg).drop 8).take 40) }

/-- K_SET_GO and K_SET_STOP: a key that has been programmed enters use, or leaves it. -/
def State.keyGo (s : State) (msg : List Byte) : State :=
  s.modSec fun x => { x with ideOn :=
    if (Tab.find x.ideKeys (kmSlot msg)).isSome && !x.ideOn.contains (kmSlot msg) then x.ideOn ++ [kmSlot msg] else x.ideOn }

def State.keyStop (s : State) (msg : List Byte) : State :=
  s.modSec fun x => { x with ideOn := x.ideOn.filter (· != kmSlot msg) }

/-- A request of IDE_KM, whose standard is PCI-SIG's and whose protocol is 0. -/
def kmRequest (msg : List Byte) : Bool := leAt msg 4 2 == 3 && leAt (kmPayload msg) 0 1 == 0

/-- VENDOR_DEFINED: IDE_KM over the open session sets the keys of the link's IDE streams (R449). A QUERY is answered openly. -/
def execVendorDefined (msg : List Byte) (s : State) : Host.Outcome State Fault Refusal :=
  .next (s.spdmIn msg 0xFE fun t =>
    if !kmRequest msg then t.spdmError errInvalid
    else if kmObject msg = 0 then t.spdmOpen 0x7E 9 msg
    else if kmObject msg = 2 then (t.keyProg msg).kmReply msg 3
    else if kmObject msg = 4 then (t.keyGo msg).kmReply msg 6
    else if kmObject msg = 5 then (t.keyStop msg).kmReply msg 6
    else t.spdmError errInvalid)

/-! ### Boundary scan (R19, R480) -/

/-- The TAP controller: 0 Test-Logic-Reset, 1 Run-Test/Idle, 2–8 Select-, Capture-, Shift-, Exit1-, Pause-, Exit2- and
Update-DR, 9–15 the same for IR. -/
def tapNext (st : Nat) (tms : Bool) : Nat :=
  if st = 0 then (if tms then 0 else 1)
  else if st = 1 then (if tms then 2 else 1)
  else if st = 2 then (if tms then 9 else 3)
  else if st = 9 then (if tms then 0 else 10)
  else
    let base := if 9 < st then 9 else 2
    let k := st - base
    if k = 1 || k = 2 then base + (if tms then 3 else 2)
    else if k = 3 then base + (if tms then 6 else 4)
    else if k = 4 then base + (if tms then 5 else 4)
    else if k = 5 then base + (if tms then 6 else 2)
    else if tms then 2 else 1

/-- A TAP state that shifts. -/
def tapShifts (st : Nat) : Bool := st == 4 || st == 11

/-- BOUNDARY_SCAN: levels of TCK, TMS, TDI and TRST_N. The controller moves at a rising edge of TCK; what TDO shifts out at a
falling edge is free, since the spec gives no scan registers; TDO is high-impedance where nothing shifts, and while PWRGOOD is
deasserted (R488, log 5). Without VIO the pins are ignored (R486). -/
def execBoundaryScan (tck tms _tdi trst : Bool) (s : State) : Host.Outcome State Fault Refusal :=
  .next (
    if !s.pins.vio then s
    else if !trst then s.modPins fun p => { p with tap := 0, tck := tck, tdo := none }
    else if tck && !s.pins.tck then s.modPins fun p => { p with tap := tapNext p.tap tms, tck := true }
    else if !tck && s.pins.tck then
      let (x, t) := s.draw
      t.modPins fun p => { p with tck := false, tdo := if p.pwrgood && tapShifts p.tap then some (x % 2 == 1) else none }
    else s)

end Machine

end Sys2Proof
end

