-- ==== Sys2Proof/Machine/Dispatch.lean ====
section
/-! DEFINITION. Which meaning each command has: one direct call for each. -/

namespace Sys2Proof

namespace Machine

/-- The effect of a command on everything but the queue of commands. -/
def exec (i : Instr) (s : State) : Host.Outcome State Fault Refusal :=
  match i with
  | .registerWrite o off size v => Sys2Proof.Machine.execRegisterWrite o off size v s
  | .violcntClr o off v => Sys2Proof.Machine.execViolcntClr o off v s
  | .partmapWrite o p v => Sys2Proof.Machine.execPartmapWrite o p v s
  | .partitionReset o p v => Sys2Proof.Machine.execPartitionReset o p v s
  | .contextEnable o n v => Sys2Proof.Machine.execContextEnable o n v s
  | .contextDisable o n v => Sys2Proof.Machine.execContextDisable o n v s
  | .preempt o n v => Sys2Proof.Machine.execPreempt o n v s
  | .resume o n v => Sys2Proof.Machine.execResume o n v s
  | .quantumExpiry p => Sys2Proof.Machine.execQuantumExpiry p s
  | .contextSelect p => Sys2Proof.Machine.execContextSelect p s
  | .parkDrained n => Sys2Proof.Machine.execParkDrained n s
  | .cocoonWritten n => Sys2Proof.Machine.execCocoonWritten n s
  | .cocoonRead n => Sys2Proof.Machine.execCocoonRead n s
  | .queEnable o q v => Sys2Proof.Machine.execQueEnable o q v s
  | .queDisable o q v => Sys2Proof.Machine.execQueDisable o q v s
  | .doorbell off size v => Sys2Proof.Machine.execDoorbell off size v s
  | .nop q => Sys2Proof.Machine.execNop q s
  | .launch q => Sys2Proof.Machine.execLaunch q s
  | .descw q => Sys2Proof.Machine.execDescw q s
  | .fence q => Sys2Proof.Machine.execFence q s
  | .reservedCommand q => Sys2Proof.Machine.execReservedCommand q s
  | .bra g => Sys2Proof.Machine.execBra g s
  | .loop g => Sys2Proof.Machine.execLoop g s
  | .wait g => Sys2Proof.Machine.execWait g s
  | .waitSatisfied g => Sys2Proof.Machine.execWaitSatisfied g s
  | .signal g => Sys2Proof.Machine.execSignal g s
  | .signalRelease f => Sys2Proof.Machine.execSignalRelease f s
  | .yield g => Sys2Proof.Machine.execYield g s
  | .barrier g => Sys2Proof.Machine.execBarrier g s
  | .barrierDomain g => Sys2Proof.Machine.execBarrierDomain g s
  | .barrierWave p => Sys2Proof.Machine.execBarrierWave p s
  | .hint g => Sys2Proof.Machine.execHint g s
  | .halt g => Sys2Proof.Machine.execHalt g s
  | .streamEnd g => Sys2Proof.Machine.execStreamEnd g s
  | .reservedOpcode g => Sys2Proof.Machine.execReservedOpcode g s
  | .reservedRunHalt g => Sys2Proof.Machine.execReservedRunHalt g s
  | .instructionComplete f => Sys2Proof.Machine.execInstructionComplete f s
  | .tload g events => Sys2Proof.Machine.execTload g events s
  | .tloadScalar g events => Sys2Proof.Machine.execTloadScalar g events s
  | .tstore g events => Sys2Proof.Machine.execTstore g events s
  | .txfer g events => Sys2Proof.Machine.execTxfer g events s
  | .ttrans g events => Sys2Proof.Machine.execTtrans g events s
  | .lpark g => Sys2Proof.Machine.execLpark g s
  | .lfetch g flips => Sys2Proof.Machine.execLfetch g flips s
  | .ldrop g => Sys2Proof.Machine.execLdrop g s
  | .lpin g flips => Sys2Proof.Machine.execLpin g flips s
  | .ledgerMoveComplete k r => Sys2Proof.Machine.execLedgerMoveComplete k r s
  | .ledgerWaitRelease k => Sys2Proof.Machine.execLedgerWaitRelease k s
  | .mma g flips => Sys2Proof.Machine.execMma g flips s
  | .laminationSpill g e flips => Sys2Proof.Machine.execLaminationSpill g e flips s
  | .trayEntry g => Sys2Proof.Machine.execTrayEntry g s
  | .trayPop g => Sys2Proof.Machine.execTrayPop g s
  | .vchain g => Sys2Proof.Machine.execVchain g s
  | .vred g => Sys2Proof.Machine.execVred g s
  | .vshuf g => Sys2Proof.Machine.execVshuf g s
  | .vdwc g => Sys2Proof.Machine.execVdwc g s
  | .ablk g => Sys2Proof.Machine.execAblk g s
  | .rmask g => Sys2Proof.Machine.execRmask g s
  | .update g => Sys2Proof.Machine.execUpdate g s
  | .updsparse g => Sys2Proof.Machine.execUpdsparse g s
  | .normsq g => Sys2Proof.Machine.execNormsq g s
  | .normsqClose g => Sys2Proof.Machine.execNormsqClose g s
  | .fold g => Sys2Proof.Machine.execFold g s
  | .cred g => Sys2Proof.Machine.execCred g s
  | .cbcast g => Sys2Proof.Machine.execCbcast g s
  | .csend g => Sys2Proof.Machine.execCsend g s
  | .crecv g => Sys2Proof.Machine.execCrecv g s
  | .cvote g => Sys2Proof.Machine.execCvote g s
  | .scaleupd g => Sys2Proof.Machine.execScaleupd g s
  | .health g => Sys2Proof.Machine.execHealth g s
  | .shadowCompare g e flips events => Sys2Proof.Machine.execShadowCompare g e flips events s
  | .drainReset => Sys2Proof.Machine.execDrainReset s
  | .patrolScrub events => Sys2Proof.Machine.execPatrolScrub events s
  | .testDue g => Sys2Proof.Machine.execTestDue g s
  | .infieldTestStart g => Sys2Proof.Machine.execInfieldTestStart g s
  | .infieldTestDone g pass => Sys2Proof.Machine.execInfieldTestDone g pass s
  | .testOverdue g => Sys2Proof.Machine.execTestOverdue g s
  | .selftest q => Sys2Proof.Machine.execSelftest q s
  | .cltest q => Sys2Proof.Machine.execCltest q s
  | .poolEnable o k v => Sys2Proof.Machine.execPoolEnable o k v s
  | .poolDisable o k v => Sys2Proof.Machine.execPoolDisable o k v s
  | .poolaudLatch o k => Sys2Proof.Machine.execPoolaudLatch o k s
  | .shraudLatch o t => Sys2Proof.Machine.execShraudLatch o t s
  | .shbaseWrite o t v => Sys2Proof.Machine.execShbaseWrite o t v s
  | .tlbinv q => Sys2Proof.Machine.execTlbinv q s
  | .shattach q => Sys2Proof.Machine.execShattach q s
  | .shdetach q => Sys2Proof.Machine.execShdetach q s
  | .bwshareWrite o p v => Sys2Proof.Machine.execBwshareWrite o p v s
  | .recalNow o t v => Sys2Proof.Machine.execRecalNow o t v s
  | .recalPeriodic t => Sys2Proof.Machine.execRecalPeriodic t s
  | .recalDrift t group => Sys2Proof.Machine.execRecalDrift t group s
  | .recalWindowEnd t => Sys2Proof.Machine.execRecalWindowEnd t s
  | .portEnable o m v => Sys2Proof.Machine.execPortEnable o m v s
  | .portDisable o m v => Sys2Proof.Machine.execPortDisable o m v s
  | .storePortSelect o m v => Sys2Proof.Machine.execStorePortSelect o m v s
  | .laneTrainingDone m lanes => Sys2Proof.Machine.execLaneTrainingDone m lanes s
  | .trainingTimeout m => Sys2Proof.Machine.execTrainingTimeout m s
  | .downRetry m => Sys2Proof.Machine.execDownRetry m s
  | .livenessTimeout m => Sys2Proof.Machine.execLivenessTimeout m s
  | .replayTimeout m => Sys2Proof.Machine.execReplayTimeout m s
  | .dataFu m fu => Sys2Proof.Machine.execDataFu m fu s
  | .controlFu m fu => Sys2Proof.Machine.execControlFu m fu s
  | .initFu m fu => Sys2Proof.Machine.execInitFu m fu s
  | .packetForward m => Sys2Proof.Machine.execPacketForward m s
  | .join m => Sys2Proof.Machine.execJoin m s
  | .joinack m => Sys2Proof.Machine.execJoinack m s
  | .heartbeat m => Sys2Proof.Machine.execHeartbeat m s
  | .heartbeatSend => Sys2Proof.Machine.execHeartbeatSend s
  | .memberLost r => Sys2Proof.Machine.execMemberLost r s
  | .vote m => Sys2Proof.Machine.execVote m s
  | .voteTimeout => Sys2Proof.Machine.execVoteTimeout s
  | .gvote m => Sys2Proof.Machine.execGvote m s
  | .answer m => Sys2Proof.Machine.execAnswer m s
  | .cvoteTimeout => Sys2Proof.Machine.execCvoteTimeout s
  | .bararrive m => Sys2Proof.Machine.execBararrive m s
  | .barrelease m => Sys2Proof.Machine.execBarrelease m s
  | .bardone m => Sys2Proof.Machine.execBardone m s
  | .barrierTimeout g => Sys2Proof.Machine.execBarrierTimeout g s
  | .rpart m => Sys2Proof.Machine.execRpart m s
  | .rcount m => Sys2Proof.Machine.execRcount m s
  | .rresult m => Sys2Proof.Machine.execRresult m s
  | .rfinal m => Sys2Proof.Machine.execRfinal m s
  | .childTimeout c => Sys2Proof.Machine.execChildTimeout c s
  | .bdata m => Sys2Proof.Machine.execBdata m s
  | .sdata m => Sys2Proof.Machine.execSdata m s
  | .sack m => Sys2Proof.Machine.execSack m s
  | .swack m => Sys2Proof.Machine.execSwack m s
  | .smack m => Sys2Proof.Machine.execSmack m s
  | .srdata m => Sys2Proof.Machine.execSrdata m s
  | .sqinfo m => Sys2Proof.Machine.execSqinfo m s
  | .storeTimeout => Sys2Proof.Machine.execStoreTimeout s
  | .snaptake q => Sys2Proof.Machine.execSnaptake q s
  | .takeComplete => Sys2Proof.Machine.execTakeComplete s
  | .snapdrain q => Sys2Proof.Machine.execSnapdrain q s
  | .restore q => Sys2Proof.Machine.execRestore q s
  | .restoreComplete => Sys2Proof.Machine.execRestoreComplete s
  | .snpverify q => Sys2Proof.Machine.execSnpverify q s
  | .stquery q => Sys2Proof.Machine.execStquery q s
  | .governorEpoch power temps => Sys2Proof.Machine.execGovernorEpoch power temps s
  | .tokenTake g u => Sys2Proof.Machine.execTokenTake g u s
  | .tokaudLatch o => Sys2Proof.Machine.execTokaudLatch o s
  | .operatingPointSet o v => Sys2Proof.Machine.execOperatingPointSet o v s
  | .rampLimitSet o v => Sys2Proof.Machine.execRampLimitSet o v s
  | .opSwitchComplete => Sys2Proof.Machine.execOpSwitchComplete s
  | .capWrite o v => Sys2Proof.Machine.execCapWrite o v s
  | .caplimN level => Sys2Proof.Machine.execCaplimN level s
  | .thermalTrip die temp => Sys2Proof.Machine.execThermalTrip die temp s
  | .droopTrip die => Sys2Proof.Machine.execDroopTrip die s
  | .stretchEnd die cycles => Sys2Proof.Machine.execStretchEnd die cycles s
  | .unitInactive g u => Sys2Proof.Machine.execUnitInactive g u s
  | .activationGrant => Sys2Proof.Machine.execActivationGrant s
  | .boostStart p => Sys2Proof.Machine.execBoostStart p s
  | .boostEnd p => Sys2Proof.Machine.execBoostEnd p s
  | .setstate q => Sys2Proof.Machine.execSetstate q s
  | .lowPowerEntered => Sys2Proof.Machine.execLowPowerEntered s
  | .senWake level => Sys2Proof.Machine.execSenWake level s
  | .i3cWake v => Sys2Proof.Machine.execI3cWake v s
  | .wakeComplete => Sys2Proof.Machine.execWakeComplete s
  | .sentinelTick samples => Sys2Proof.Machine.execSentinelTick samples s
  | .senSlotEnable o r v => Sys2Proof.Machine.execSenSlotEnable o r v s
  | .senCtlCapclr o v => Sys2Proof.Machine.execSenCtlCapclr o v s
  | .senEventPop o => Sys2Proof.Machine.execSenEventPop o s
  | .chkEventPop o => Sys2Proof.Machine.execChkEventPop o s
  | .credaudLatch o m l => Sys2Proof.Machine.execCredaudLatch o m l s
  | .baraudLatch o => Sys2Proof.Machine.execBaraudLatch o s
  | .contribLatch o => Sys2Proof.Machine.execContribLatch o s
  | .blobapply q => Sys2Proof.Machine.execBlobapply q s
  | .fwslot q => Sys2Proof.Machine.execFwslot q s
  | .coreupd q => Sys2Proof.Machine.execCoreupd q s
  | .pushGo o v => Sys2Proof.Machine.execPushGo o v s
  | .pushComplete => Sys2Proof.Machine.execPushComplete s
  | .bootStepComplete => Sys2Proof.Machine.execBootStepComplete s
  | .hdmwinWrite o v => Sys2Proof.Machine.execHdmwinWrite o v s
  | .hdmAccess write addr size v => Sys2Proof.Machine.execHdmAccess write addr size v s
  | .i3cTransaction write addr size v => Sys2Proof.Machine.execI3cTransaction write addr size v s
  | .hifResetCold o v => Sys2Proof.Machine.execHifResetCold o v s
  | .hifResetWarm o v => Sys2Proof.Machine.execHifResetWarm o v s
  | .pwrgoodDeassert => Sys2Proof.Machine.execPwrgoodDeassert s
  | .pwrgoodAssert => Sys2Proof.Machine.execPwrgoodAssert s
  | .resetNAssert => Sys2Proof.Machine.execResetNAssert s
  | .resetNDeassert bootsrc => Sys2Proof.Machine.execResetNDeassert bootsrc s
  | .cxlConventionalReset => Sys2Proof.Machine.execCxlConventionalReset s
  | .getVersion msg => Sys2Proof.Machine.execGetVersion msg s
  | .getCapabilities msg => Sys2Proof.Machine.execGetCapabilities msg s
  | .negotiateAlgorithms msg => Sys2Proof.Machine.execNegotiateAlgorithms msg s
  | .getDigests msg => Sys2Proof.Machine.execGetDigests msg s
  | .getCertificate msg => Sys2Proof.Machine.execGetCertificate msg s
  | .challenge msg => Sys2Proof.Machine.execChallenge msg s
  | .getMeasurements msg => Sys2Proof.Machine.execGetMeasurements msg s
  | .keyExchange msg => Sys2Proof.Machine.execKeyExchange msg s
  | .finish msg => Sys2Proof.Machine.execFinish msg s
  | .keyUpdate msg => Sys2Proof.Machine.execKeyUpdate msg s
  | .spdmHeartbeat msg => Sys2Proof.Machine.execSpdmHeartbeat msg s
  | .endSession msg => Sys2Proof.Machine.execEndSession msg s
  | .vendorDefined msg => Sys2Proof.Machine.execVendorDefined msg s
  | .regionPathFailure k host => Sys2Proof.Machine.execRegionPathFailure k host s
  | .supplyInTolerance => Sys2Proof.Machine.execSupplyInTolerance s
  | .voltageWriteComplete die => Sys2Proof.Machine.execVoltageWriteComplete die s
  | .configurationRequest write addr size v => Sys2Proof.Machine.execConfigurationRequest write addr size v s
  | .doeDiscovery msg => Sys2Proof.Machine.execDoeDiscovery msg s
  | .cdatRequest msg => Sys2Proof.Machine.execCdatRequest msg s
  | .boundaryScan tck tms tdi trst => Sys2Proof.Machine.execBoundaryScan tck tms tdi trst s
  | .fwslotComplete => Sys2Proof.Machine.execFwslotComplete s
  | .coreupdComplete => Sys2Proof.Machine.execCoreupdComplete s
  | .selftestComplete failed => Sys2Proof.Machine.execSelftestComplete failed s
  | .malformedPacket m => Sys2Proof.Machine.execMalformedPacket m s
  | .reservedFu m fu => Sys2Proof.Machine.execReservedFu m fu s
  | .controlFuSend m => Sys2Proof.Machine.execControlFuSend m s

end Machine

end Sys2Proof
end

