-- ==== Sys2Proof/Safety.lean ====
section
/-! DEFINITION. What counts as a safe run of the device, and the conditions in which claims about it are stated. -/

set_option Elab.async false

namespace Sys2Proof

namespace Machine

/-- The device is in service: its boot has ended (R460), no die has tripped (R430), the power state is
Active and its dies are powered (R435).
Every register access of the host is then answered and every command may be fetched. -/
structure State.Up (s : State) : Prop where
  boot : 5 ≤ s.sec.bootStep
  trip : s.pins.thermtrip = false
  active : s.powerState = 0
  lit : s.pwr.dark = false

/-- Memory is in its canonical form. -/
def State.Canonical (s : State) : Prop := s.mem.wf = true

/-- From `s` to `t` nothing but registers has changed, and of those only the ones that `p` names. -/
structure State.OnlyRegs (p : Nat → Bool) (s t : State) : Prop where
  rest : { t with regs := s.regs } = s
  regs : ∀ off, p off = false → t.reg off = s.reg off

/-- The sequencer of cluster `g` is about to issue the instruction that `f` describes: it has been fetched, its guard lets
it execute, none of `regs` is pending and its unit has room (R92, R95, R97); the cluster is the one that runs the context at
its logical index. -/
structure State.Ready (s : State) (g : Nat) (f : Fetch) (regs : List Nat) (u : Unit) : Prop where
  fetched : s.fetchInstr g = some f
  home : s.clusterAt f.n f.idx = some g
  guard : Machine.guard (s.cl g).preds f.word = true
  free : ∀ r ∈ regs, (s.pendingRegs f.n f.idx).contains r = false
  room : s.hasRoom f.n f.idx u (enginesOf f.word) = true

/-- What the issue of one instruction leaves alone, and what it always does (R92, R94, R127): ISSUED gains one, no byte of
memory changes, no other cluster, and on its own cluster neither the stores, nor the vector registers, nor the engines. -/
structure State.Issues (s t : State) (g : Nat) : Prop where
  issued : t.get (Reg.seqIssued g) 63 0 = (s.get (Reg.seqIssued g) 63 0 + 1) % 2 ^ 64
  mem : t.mem = s.mem
  others : ∀ h, h ≠ g → t.cl h = s.cl h
  tile : (t.cl g).tile = (s.cl g).tile
  trans : (t.cl g).trans = (s.cl g).trans
  wide : (t.cl g).wide = (s.cl g).wide
  tray : (t.cl g).tray = (s.cl g).tray
  vregs : (t.cl g).vregs = (s.cl g).vregs
  engines : (t.cl g).engines = (s.cl g).engines
  vq : (t.cl g).vq = (s.cl g).vq

/-- The counter of TAG gains one when TAG is not 0, and no other counter of the cluster changes (R94). -/
def State.TagGains (s t : State) (g tag : Nat) : Prop :=
  ∀ k, (t.cl g).tags.read k = (s.cl g).tags.read k + (if k = tag ∧ k ≠ 0 then 1 else 0)

/-- The next instruction follows the one that was issued (R127). -/
def State.FallsThrough (t : State) (g : Nat) (f : Fetch) : Prop := t.get (Reg.seqPc g) 47 0 = (f.pc + 16) % 2 ^ 48

/-- A data-form instruction as its unit takes it: with its operands and descriptors read, and the state with the instruction
in flight and nothing of its own effect (R68, R94, R110). -/
def State.begun (s : State) (g : Nat) (f : Fetch) (u : Unit) (used : Nat) : Job × State :=
  let s1 := ((f.begin g).endRun g).countReserved g f.n f.word used
  (s1.launchFlight (newFlight g f (s1.place f.n f.idx u))).2.makeJob g f s.nextFlight

/-- The device physical address behind a virtual address of a context, for the unit that counts in `viol` and has the cache of
R282, or none where an access there is discarded (R279–R281, R455). -/
def State.vaAddr (s : State) (viol c : Nat) (write : Bool) (va : Nat) : Option Nat :=
  s.translate viol c write (va % 2 ^ vaWidth c)

/-- The byte that context `c` reads at a virtual address: zero where the read is discarded (R85, R281). -/
def State.vaByte (s : State) (viol c va : Nat) : Byte :=
  match s.vaAddr viol c false va with
  | none => 0
  | some a => s.peek (s.accessKey c a) a

/-! ### What every step keeps -/

/-- The identity of R340 on a lane, where RETURNED is zero between commands (log 97): ISSUED is HELD and INFLIGHT together, and
each credit in flight is known by the pool that it was drawn from (R35). -/
structure Lane.Balanced (l : Lane) : Prop where
  issued : l.issued = l.held + l.inflight
  spent : l.spent.length = l.inflight

/-- The identity on every lane of a port. -/
def Port.Balanced (p : Port) : Prop := ∀ l ∈ p.lanes, l.2.Balanced

/-- The identity on every port. -/
def creditsBalance (ports : Tab Port) : Prop := ∀ p ∈ ports, p.2.Balanced

/-- The tokens of the domain barrier (R358): GRANTED is CONSUMED and OUTSTANDING together. -/
def Stp.Balanced (x : Stp) : Prop := x.consumed ≤ x.granted

/-- What a tier's storage can be for one record (R259): one frame, or 64 chunks. -/
def PageMove.Sound (m : PageMove) : Prop := 1 ≤ m.target ∧ m.target ≤ 4 ∧ m.slots.length ≤ reserve m.target

/-- A page record is in one of the six states, and holds the storage of its state and no more: none where it is FREE or GONE,
one frame in RES, at most 64 chunks in a coded tier; a move goes to a tier (R259, R261). -/
structure PageRec.Sound (r : PageRec) : Prop where
  state : r.state ≤ 5
  empty : r.state = 0 ∨ r.state = 5 → r.slots = []
  held : r.slots.length ≤ reserve r.state
  move : ∀ m, r.move = some m → m.Sound

/-- An operation that waits keeps tiers only (R262). -/
structure PageOp.Sound (o : PageOp) : Prop where
  tier : ∀ t, o.tier = some t → 1 ≤ t ∧ t ≤ 4
  path : ∀ x ∈ o.path, 1 ≤ x.2 ∧ x.2 ≤ 4

/-- Every record and every waiting operation of a pool. -/
structure Pool.Sound (p : Pool) : Prop where
  recs : ∀ r ∈ p.recs, r.2.Sound
  ops : ∀ o ∈ p.ops, o.Sound

/-- The same of every pool. -/
def pagesSound (pools : Tab Pool) : Prop := ∀ p ∈ pools, p.2.Sound

/-- A step that does not stop the device. Every access that the device forbids is discarded and counted (R17, R85), so a
safe step answers a next state. -/
def SafeStep (s : State) : Prop := ∃ t, step s = .next t

end Machine

end Sys2Proof
end

