-- ==== Sys2Proof/Certificates/Slice0/Obligations.lean ====
section
/-! DEFINITION. The statements about the device that the provers are asked for, chapter by chapter of the spec. -/

set_option Elab.async false

open Sys2Proof Sys2Proof.Machine

/-! ### The machine -/

/-- The block takes its commands from the front of a queue, and idles when none waits (the model's form, log 11). -/
def Obligations.StepRunsFront : Prop :=
  (∀ (s : State) (c : Instr), step { s with pending := c :: s.pending } = exec c s) ∧
  ∀ s : State, s.pending = [] → step s = .next s

/-- The memory of the device keeps its canonical form over every step, so that equal memories are equal data.
The model's choices in it: memory as a list with zero for an unlisted byte (log 2). -/
def Obligations.StepKeepsMemoryCanonical : Prop :=
  ∀ s t : State, s.Canonical → step s = .next t → t.Canonical

/-- No command of the table stops the device: every access that it forbids is discarded (R17, R85), and a step removes
exactly the command at the front of the queue. The model's choices in it: a step that no command waits for idles (log 11),
and an event that the state does not offer leaves it as it is (log 12). -/
def Obligations.EveryStepCompletes : Prop :=
  ∀ s : State, ∃ t, step s = .next t ∧ t.pending = s.pending.tail

/-- The counters from which free values and the numbers of instructions are drawn never go back over a step. A draw uses the
count that stands and moves it on by one, so that a number which has been drawn is not drawn again (the model's form, log 10). -/
def Obligations.NumbersNeverGoBack : Prop :=
  (∀ s t : State, step s = .next t → s.free ≤ t.free ∧ s.nextFlight ≤ t.nextFlight) ∧
  (∀ s : State, s.draw = (Config.free s.free, { s with free := s.free + 1 })) ∧
  ∀ (s : State) (f : Flight), (s.launchFlight f).1 = s.nextFlight ∧ (s.launchFlight f).2.nextFlight = s.nextFlight + 1 ∧
    Tab.find (s.launchFlight f).2.flights s.nextFlight = some f ∧ (s.launchFlight f).2.free = s.free

/-- What credits, barrier tokens and page records add up to stays true over every step, in whatever state the step begins: on
every port ISSUED = HELD + INFLIGHT on each virtual lane, where RETURNED is zero between commands, and the pool of each credit in
flight is known (R340);
no more barrier tokens are CONSUMED than GRANTED, so that OUTSTANDING is their difference (R358); and each page record of each
pool is in one of the six states and holds the storage of that state and no more, one frame in RES, at most 64 chunks in PACK,
SPILL and HOST, none when FREE or GONE, while a move or a waiting operation names one of the four tiers (R259–R262).
The model's choices in it: the pools' frames and chunks (log 47), and RETURNED (log 97). -/
def Obligations.StepKeepsBalances : Prop :=
  ∀ s t : State, step s = .next t →
    (creditsBalance s.ports → creditsBalance t.ports) ∧ (s.stp.Balanced → t.stp.Balanced) ∧
    (pagesSound s.pools → pagesSound t.pools)

/-- Right after a cold reset: contexts 1–4,095 FREE with SHARE 1 (R53), context 0 as R57 states, no partition (R48), rings of
16 entries (R58), no byte of memory written, and no command waiting; no credit, token or page is out. The model's choices in
it: a byte that nothing has written reads zero (log 2), and state that no register shows is empty (log 1). -/
def Obligations.ResetState : Prop :=
  State.reset.Canonical ∧ State.reset.pending = [] ∧ State.reset.mem = [] ∧
  (creditsBalance State.reset.ports ∧ State.reset.stp.Balanced ∧ pagesSound State.reset.pools) ∧
  (∀ n, 1 ≤ n → n < 4096 → State.reset.cstate n = stFree ∧ State.reset.reg (Reg.ctxCtl n) = 1) ∧
  (State.reset.get (Reg.ctxCtl 0) 31 31 = 1 ∧ State.reset.get (Reg.ctxCtl 0) 21 16 = 0 ∧
    State.reset.get (Reg.ctxCtl 0) 15 0 = 1 ∧ State.reset.cstate 0 = stBound) ∧
  (∀ p, p < 64 → State.reset.reg (Reg.cfgPartmap p) = 0) ∧
  ∀ q, q < 32768 → State.reset.get (Reg.queCtl q) 3 0 = 4 ∧ State.reset.get (Reg.queCtl q) 31 31 = 0

/-! ### Registers (02, R12–R17, R86) -/

/-- Has the register a write of its own beside its access types (a condition on the state, or a command)? -/
def ownWrite (r : RegRow) : Bool :=
  (State.reset.writeCore .host r.base 0 0 0 0).isSome || (State.reset.writePlatform .host r.base 0 0 0 0).isSome ||
    (State.reset.writeFabric .host r.base 0 0 0 0 0).isSome

/-- A write of 4 bytes by the host to a register that has no command of its own: each field takes the written bits, keeps
its value, or clears the bits written as 1, by its access type (R13); a write that sets reserved bits counts once in the
block's VIOLCNT (R17); nothing but these two registers changes.
The model's choices in it: a write that breaks two rules counts for each (log 13). -/
def Obligations.RegisterFields : Prop :=
  ∀ (s : State) (r : RegRow) (off v viol : Nat), s.Up → regAt off = some r → off % 4 = 0 → off < bar4 →
    ownerViol off = some viol → isViol off = false →
    ownWrite r = false →
    ∃ t, exec (.registerWrite .host off 4 (some v)) s = .next t ∧
      (∀ f ∈ r.fields, f.hi < 32 →
        t.get off f.hi f.lo =
          match f.acc with
          | .rw => fld v f.hi f.lo
          | .rwl => if s.locked then s.get off f.hi f.lo else fld v f.hi f.lo
          | .w1c => s.get off f.hi f.lo &&& (2 ^ (f.hi + 1 - f.lo) - 1 - fld v f.hi f.lo)
          | .ro => s.get off f.hi f.lo
          | .wo => s.get off f.hi f.lo) ∧
      (t.get viol 15 0 = if v % 2 ^ 32 = v % 2 ^ 32 &&& r.usedMask then s.get viol 15 0
        else min 65535 (s.get viol 15 0 + 1)) ∧
      s.OnlyRegs (fun o => o == off || o == viol) t

/-- The partition `p` is not one to which context `n` is bound. -/
def notIn (s : State) (n p : Nat) : Prop := p ≠ s.partOf n ∨ s.cstate n = stFree

/-- An address that context `n` does not reach: the window or the queues of another context, the CFG registers of a partition
to which it is not bound, a window of a cluster on which it does not run, or for a write any cluster's, and every block beyond
them. -/
def Foreign (s : State) (n off : Nat) (write : Bool) : Prop :=
  0x100000 ≤ off ∧ off < 0x200000 ∧ (off - 0x100000) / 256 ≠ n ∨
  0x200000 ≤ off ∧ off < 0x400000 ∧ (off - 0x200000) / 512 ≠ n ∨
  0x1000 ≤ off ∧ off < 0x1400 ∧ notIn s n ((off - 0x1000) / 16) ∨
  0x400000 ≤ off ∧ off < 0x800000 ∧ (write = true ∨ (s.cl ((off - 0x400000) / 0x10000)).ctx ≠ some n) ∨
  0x800000 ≤ off ∧ off < bar4

/-- Accesses of a context other than 0 to registers that are not its own are discarded (R85, R127): a write changes nothing, a
read answers zero, and each counts once in the VIOLCNT of the block, with the context's number. So it is for the commands with
rows of their own: those on another context, on another context's queue, on a partition to which it is not bound, and on pools.
Doorbells and BAR4 are the host's alone.
The model's choices in it: what a context reaches, that a write that breaks two rules counts for each, and reads (logs 77, 13,
6). -/
def Obligations.ContextsKeepApart : Prop :=
  ∀ (s : State) (n : Nat), s.Up → n ≠ 0 →
    (∀ off v viol, off % 4 = 0 → ownerViol off = some viol →
      (Foreign s n off true → exec (.registerWrite (.ctx n) off 4 (some v)) s = .next (s.violate viol (.ctx n))) ∧
      (Foreign s n off false →
        exec (.registerWrite (.ctx n) off 4 none) s = .next { s.violate viol (.ctx n) with resp := [0] })) ∧
    (∀ m v, m < 4096 → m ≠ n →
      ∀ c ∈ [Instr.contextEnable (.ctx n) m v, .contextDisable (.ctx n) m v, .preempt (.ctx n) m v, .resume (.ctx n) m v],
        exec c s = .next (s.violate Reg.ctxViolcnt (.ctx n))) ∧
    (∀ q v, q < 32768 → q / 8 ≠ n → ∀ c ∈ [Instr.queEnable (.ctx n) q v, .queDisable (.ctx n) q v],
      exec c s = .next (s.violate Reg.queViolcnt (.ctx n))) ∧
    (∀ p v, p < 64 → notIn s n p → ∀ c ∈ [Instr.partmapWrite (.ctx n) p v, .partitionReset (.ctx n) p v],
      exec c s = .next (s.violate Reg.cfgViolcnt (.ctx n))) ∧
    ∀ k v, k < 1536 → ∀ c ∈ [Instr.poolEnable (.ctx n) k v, .poolDisable (.ctx n) k v],
      exec c s = .next (s.violate (Reg.ldgViolcnt (poolStack k)) (.ctx n))

/-- A register whose read first shows the state of the moment, latches or pops. -/
def setByRead (r : RegRow) : Bool :=
  [Reg.mxeEstat 0 0, Reg.vecEstat 0, Reg.tryStat 0, Reg.ldgPoolaud0 0 0, Reg.ldgShraud 0, Reg.mdlCredaud 0 0, Reg.colContrib0,
    Reg.stpBaraud, Reg.pwrTokaud, Reg.senEvent, Reg.senCh 0, Reg.chkEvent0, Reg.chkTest 0].contains r.base

/-- Reads change nothing but the answer (R13, R17). The host reads each register's value, whole or its half; a context reads
what the host reads in its own windows and in those of the clusters on which it runs. A VIOLCNT only context 0 reads: the read
of another context answers zero and counts in it (R86). Where no register lies a read answers zero and counts (R17, R451). A
read of BAR2 answers zero (R452), and BAR4 answers the words of the MSI-X table and the pending bits (R450, R453).
The model's choices in it: a read has no row of its own, and its value is the command's answer (logs 6, 9). -/
def Obligations.RegisterReads : Prop :=
  (∀ (s : State) (r : RegRow) (off : Nat), s.Up → regAt off = some r → off % 4 = 0 → off < bar4 →
    (ownerViol off).isSome = true →
    (setByRead r = false →
      exec (.registerWrite .host off 4 none) s = .next { s with resp := [s.reg off % 2 ^ 32] } ∧
      (r.width = 64 → off % 8 = 0 →
        exec (.registerWrite .host off 8 none) s = .next { s with resp := [s.reg off % 2 ^ 64] } ∧
        (regAt (off + 4) = none → (ownerViol (off + 4)).isSome = true →
          exec (.registerWrite .host (off + 4) 4 none) s = .next { s with resp := [s.reg off / 2 ^ 32 % 2 ^ 32] }))) ∧
    ∀ n, n ≠ 0 → isViol off = false →
      (0x100000 ≤ off ∧ off < 0x200000 ∧ (off - 0x100000) / 256 = n ∨
        0x200000 ≤ off ∧ off < 0x400000 ∧ (off - 0x200000) / 512 = n ∨
        0x400000 ≤ off ∧ off < 0x800000 ∧ (s.cl ((off - 0x400000) / 0x10000)).ctx = some n) →
      exec (.registerWrite (.ctx n) off 4 none) s = exec (.registerWrite .host off 4 none) s) ∧
  (∀ (s : State) (r : RegRow) (off viol n : Nat), s.Up → regAt off = some r → isViol off = true → off % 4 = 0 → off < bar4 →
    ownerViol off = some viol → n ≠ 0 →
    exec (.registerWrite (.ctx n) off 4 none) s = .next { s.violate viol (.ctx n) with resp := [0] }) ∧
  (∀ (s : State) (off : Nat), s.Up → off % 4 = 0 → off < bar4 → regPart off = none →
    exec (.registerWrite .host off 4 none) s =
      .next { s.violate ((ownerViol off).getD Reg.hifViolcnt) .host with resp := [0] }) ∧
  (∀ (s : State) (off : Nat), s.hostUp = true → off % 4 = 0 → off < 2 ^ 21 →
    exec (.doorbell off 4 none) s = .next { s with resp := [0] }) ∧
  ∀ (s : State) (v : Nat), s.hostUp = true → v < 256 →
    let e := s.msixEntry v
    exec (.registerWrite .host (bar4 + 16 * v) 8 none) s = .next { s with resp := [e.addr % 2 ^ 64] } ∧
    exec (.registerWrite .host (bar4 + 16 * v + 8) 4 none) s = .next { s with resp := [e.data % 2 ^ 32] } ∧
    exec (.registerWrite .host (bar4 + 16 * v + 12) 4 none) s = .next { s with resp := [b2n e.masked] } ∧
    ∃ w, exec (.registerWrite .host (bar4 + 0x8000 + v / 32 * 4) 4 none) s = .next { s with resp := [w] } ∧
      bit w (v % 32) = s.msixPending.contains v

/-- A register that is written only in some states: its place, its bits, whether a write takes effect now, and the counter of
those that do not. -/
structure GatedReg where
  off : Nat
  hi : Nat
  lo : Nat
  isOpen : Bool
  viol : Nat

/-- Those of context `n`, queue `q` and pool `k`: PTBASE while FREE, DESCBASE, COCOON and PLANTAB while FREE or BOUND (R53,
R371), BASE and CPLBASE while EN is 0 (R58), a pool's regions, policy and default while EN is 0 (R274, R275). -/
def gatedRegs (s : State) (n q k : Nat) : List GatedReg :=
  let low := s.cstate n == stFree || s.cstate n == stBound
  let off := !bit (s.pctl k) 63
  let lv := Reg.ldgViolcnt (poolStack k)
  [⟨Reg.ctxPtbase n, 51, 12, s.cstate n == stFree, Reg.ctxViolcnt⟩, ⟨Reg.ctxDescbase n, 47, 16, low, Reg.ctxViolcnt⟩,
    ⟨Reg.ctxCocoon n, 38, 21, low, Reg.ctxViolcnt⟩, ⟨Reg.colPlantab n, 47, 12, low, Reg.colViolcnt⟩,
    ⟨Reg.queBase q, 47, 12, !s.queOn q, Reg.queViolcnt⟩, ⟨Reg.queCplbase q, 47, 12, !s.queOn q, Reg.queViolcnt⟩,
    ⟨poolReg Reg.ldgPframe k, 51, 0, off, lv⟩, ⟨poolReg Reg.ldgPpack k, 51, 0, off, lv⟩,
    ⟨poolReg Reg.ldgPspill k, 51, 0, off, lv⟩, ⟨poolReg Reg.ldgPhost k, 51, 0, off, lv⟩,
    ⟨poolReg Reg.ldgPpolicy k, 63, 6, off, lv⟩, ⟨poolReg Reg.ldgPdef k, 39, 28, off, lv⟩]

/-- Registers of 4 bytes with a field of which some values are refused: the place, the field's highest bit, its values, the
counter, and whether the RWL lock holds it. -/
def rangedRegs (g : Nat) : List (Nat × Nat × (Nat → Bool) × Nat × Bool) :=
  [(Reg.mdlStorecfg, 15, fun x => x != 0, Reg.mdlViolcnt, false), (Reg.chkWatch, 15, fun x => x != 0, Reg.chkViolcnt, true),
    (Reg.clkDroopcfg, 7, fun x => decide (0x10 ≤ x) && decide (x ≤ 0x60), Reg.clkViolcnt, true),
    (Reg.mxeChkctl g, 4, fun x => decide (8 ≤ x) && decide (x ≤ 0x14), Reg.mxeViolcnt g, true)]

/-- Writes to registers with a condition of their own. A gated register takes a write while it is open, from the host or from
the context that it belongs to, and otherwise counts it; a ranged field keeps its value where the one written is refused, and
the write counts. PARTEMU is refused while a context of the partition runs or is cocooned (R161), and so is ROT of CHK.LEVEL
(R398). A governor entry is taken field by field (R422, R446). MDL.PGRANT is written while the port is DOWN, with a sum of at
most 16,384 (R370). A change of an SNP.AREA empties the slots (R405). ROLE = 11b is refused (R372), and no role counts before
a blob has been applied (R31). Management writes reach what the host's writes reach in the registers of its port (R473). A
write of 8 bytes over two registers is a write of each, low half first.
The model's choices in it: what a context reaches (log 77), the role before a blob (log 107), and 8-byte writes (log 108). -/
def Obligations.ConditionalRegisters : Prop :=
  (∀ (s : State) (n q k : Nat) (x : GatedReg), s.Up → n < 4096 → q < 32768 → k < 1536 → x ∈ gatedRegs s n q k →
    ∀ o v, o ≠ .mgmt → s.mayAccess o true x.off = true → v % 2 ^ x.lo = 0 → v < 2 ^ (x.hi + 1) →
      (x.isOpen = true → ∃ t, exec (.registerWrite o x.off 8 (some v)) s = .next t ∧
        t.get x.off x.hi x.lo = fld v x.hi x.lo ∧ s.OnlyRegs (· == x.off) t) ∧
      (x.isOpen = false → exec (.registerWrite o x.off 8 (some v)) s = .next (s.violate x.viol o))) ∧
  (∀ (s : State) (g v off hi viol : Nat) (ok : Nat → Bool) (lock : Bool), s.Up → g < 64 →
    (off, hi, ok, viol, lock) ∈ rangedRegs g → v < 2 ^ (hi + 1) →
    (lock = true → s.locked = true → exec (.registerWrite .host off 4 (some v)) s = .next s) ∧
    (lock = false ∨ s.locked = false →
      (ok v = true → ∃ t, exec (.registerWrite .host off 4 (some v)) s = .next t ∧ t.get off hi 0 = v ∧
        s.OnlyRegs (· == off) t) ∧
      (ok v = false → exec (.registerWrite .host off 4 (some v)) s = .next (s.violate viol .host)))) ∧
  (∀ (s : State) (p v : Nat), s.Up → p < 64 →
    (v < 2 →
      (s.partHeld p = true → exec (.registerWrite .host (Reg.cfgPartemu p) 4 (some v)) s = .next (s.violate Reg.cfgViolcnt .host)) ∧
      (s.partHeld p = false → ∃ t, exec (.registerWrite .host (Reg.cfgPartemu p) 4 (some v)) s = .next t ∧
        t.get (Reg.cfgPartemu p) 0 0 = v ∧ s.OnlyRegs (· == Reg.cfgPartemu p) t)) ∧
    (v < 8 → ∃ t, exec (.registerWrite .host (Reg.chkLevel p) 4 (some v)) s = .next t ∧ t.get (Reg.chkLevel p) 1 0 = v % 4 ∧
      s.OnlyRegs (fun o => o == Reg.chkLevel p || o == Reg.chkViolcnt) { t with chk := s.chk } ∧
      let refused := v / 4 ≠ s.get (Reg.chkLevel p) 2 2 ∧ s.partHeld p = true
      (refused → t.get (Reg.chkLevel p) 2 2 = s.get (Reg.chkLevel p) 2 2 ∧ t.chk = s.chk ∧
        t.get Reg.chkViolcnt 15 0 = min 65535 (s.get Reg.chkViolcnt 15 0 + 1)) ∧
      (¬ refused → t.get (Reg.chkLevel p) 2 2 = v / 4 ∧ t.reg Reg.chkViolcnt = s.reg Reg.chkViolcnt))) ∧
  (∀ (s : State) (k v : Nat), s.Up → k < 4 → v < 2 ^ 48 →
    let off := Reg.pwrGovtab k
    let okB := decide (fld v 31 16 ≤ 50)
    let okV := decide (650 ≤ fld v 15 0) && decide (fld v 15 0 ≤ 850)
    (s.locked = true → exec (.registerWrite .host off 8 (some v)) s = .next s) ∧
    (s.locked = false → ∃ t, exec (.registerWrite .host off 8 (some v)) s = .next t ∧ t.get off 47 32 = fld v 47 32 ∧
      t.get off 31 16 = (if okB then fld v 31 16 else s.get off 31 16) ∧
      t.get off 15 0 = (if okV then fld v 15 0 else s.get off 15 0) ∧
      t.get Reg.pwrViolcnt 15 0 = (if okB && okV then s.get Reg.pwrViolcnt 15 0 else min 65535 (s.get Reg.pwrViolcnt 15 0 + 1)) ∧
      s.OnlyRegs (fun o => o == off || o == Reg.pwrViolcnt) t)) ∧
  (∀ (s : State) (m v : Nat), s.Up → m < 32 → v < 2 ^ 56 →
    exec (.registerWrite .host (Reg.mdlPgrant m) 8 (some v)) s =
      .next (if s.linkState m = 0 ∧ (grantsOf v).sum ≤ 16384 then s.setReg (Reg.mdlPgrant m) v else s.violate Reg.mdlViolcnt .host)) ∧
  (∀ (s : State) (c v : Nat), s.Up → c < 12 → v < 2 ^ 52 →
    (s.locked = true → exec (.registerWrite .host (Reg.snpArea c) 8 (some v)) s = .next s) ∧
    (s.locked = false → ∃ t, exec (.registerWrite .host (Reg.snpArea c) 8 (some v)) s = .next t ∧
      t.get (Reg.snpArea c) 51 0 = v ∧ t.mem = s.mem ∧
      (t.reg (Reg.snpArea c) ≠ s.reg (Reg.snpArea c) → t.snp.slots = [] ∧ t.snp.takes = [] ∧ t.snp.drains = [] ∧
        ∀ k, k < 2 → t.slotState k = slEmpty) ∧
      (t.reg (Reg.snpArea c) = s.reg (Reg.snpArea c) → t.snp = s.snp ∧ ∀ k, k < 2 → t.slotState k = s.slotState k))) ∧
  (∀ (s : State) (v : Nat), s.Up → v < 2 ^ 64 → v % 2 ^ 26 = 0 →
    (s.locked = true → exec (.registerWrite .host Reg.stpRole 8 (some v)) s = .next s) ∧
    (s.locked = false → ∃ t, exec (.registerWrite .host Reg.stpRole 8 (some v)) s = .next t ∧
      t.get Reg.stpRole 63 40 = fld v 63 40 ∧ t.get Reg.stpRole 37 26 = fld v 37 26 ∧
      t.get Reg.stpRole 39 38 = (if fld v 39 38 = 3 then s.get Reg.stpRole 39 38 else fld v 39 38) ∧ t.role = 0 ∧
      t.get Reg.stpViolcnt 15 0 = (if fld v 39 38 = 3 then min 65535 (s.get Reg.stpViolcnt 15 0 + 1) else s.get Reg.stpViolcnt 15 0) ∧
      s.OnlyRegs (fun o => o == Reg.stpRole || o == Reg.stpViolcnt) t)) ∧
  (∀ (s : State) (off v : Nat), s.Up → off ∈ [Reg.senCtl, Reg.senTrip, Reg.mgtCtl] →
    (∀ r, regAt off = some r → v % 2 ^ 32 = v % 2 ^ 32 &&& r.usedMask) →
    exec (.registerWrite .mgmt off 4 (some v)) s = exec (.registerWrite .host off 4 (some v)) s) ∧
  ∀ (s u : State) (off v : Nat), s.Up → u.Up → off % 8 = 0 → off + 4 < bar4 → isWide off 8 = false → (regPart off).isSome = true →
    (regPart (off + 4)).isSome = true → (ownerViol off).isSome = true → (ownerViol (off + 4)).isSome = true →
    exec (.registerWrite .host off 4 (some (v % 2 ^ 32))) s = .next u →
    exec (.registerWrite .host off 8 (some v)) s = exec (.registerWrite .host (off + 4) 4 (some (v / 2 ^ 32 % 2 ^ 32))) u

/-- CLR written to a VIOLCNT clears COUNT, HOSTSRC and LASTCTX, and a write with CLR = 0 and no reserved bit changes nothing
(R86).
A discarded access: COUNT gains one and saturates at FFFFh; a host access sets HOSTSRC and leaves LASTCTX, an access of a
context clears HOSTSRC and names the context (R86). No other state changes.
The model's choices in it: accesses that come from neither the host nor a context leave LASTCTX (logs 15, 24). -/
def Obligations.ViolationCounters : Prop :=
  (∀ (s : State) (r : RegRow) (off : Nat), s.Up → regAt off = some r → off % 4 = 0 → isViol off = true →
    (ownerViol off).isSome = true →
    (∃ t, exec (.violcntClr .host off (2 ^ 31)) s = .next t ∧ t.reg off = 0 ∧ s.OnlyRegs (· == off) t) ∧
    exec (.violcntClr .host off 0) s = .next s) ∧
  ∀ (s : State) (viol c : Nat), c < 4096 →
    (s.violate viol .host).get viol 15 0 = min 65535 (s.get viol 15 0 + 1) ∧
    (s.violate viol .host).get viol 30 30 = 1 ∧ (s.violate viol .host).get viol 27 16 = s.get viol 27 16 ∧
    (s.violate viol (.ctx c)).get viol 15 0 = min 65535 (s.get viol 15 0 + 1) ∧
    (s.violate viol (.ctx c)).get viol 30 30 = 0 ∧ (s.violate viol (.ctx c)).get viol 27 16 = c ∧
    s.OnlyRegs (· == viol) (s.violate viol .host) ∧ s.OnlyRegs (· == viol) (s.violate viol (.ctx c))

/-! ### Partitions and contexts (02, R48–R57, R78, R79) -/

/-- Does R50 refuse bit `g` of a write of `v` to PARTMAP(p)? -/
def mapRefused (s : State) (p v g : Nat) : Bool :=
  bit v g != bit (s.reg (Reg.cfgPartmap p)) g &&
    (if bit v g then (List.range 64).any fun q => bit (s.reg (Reg.cfgPartmap q)) g else (s.cl g).ctx.isSome)

/-- PARTMAP is written bit by bit (R50): a bit that is refused keeps its value and counts once, and the others take effect.
While no cluster stands in two partitions, none does afterwards. -/
def Obligations.PartmapBitByBit : Prop :=
  ∀ (s : State) (p v : Nat), s.Up → p < 64 →
    ∃ t, exec (.partmapWrite .host p v) s = .next t ∧
      (∀ g, g < 64 → bit (t.reg (Reg.cfgPartmap p)) g =
        if mapRefused s p v g then bit (s.reg (Reg.cfgPartmap p)) g else bit v g) ∧
      t.get Reg.cfgViolcnt 15 0 =
        min 65535 (s.get Reg.cfgViolcnt 15 0 + (List.range 64).countP fun g => mapRefused s p v g) ∧
      (∀ off, off ≠ Reg.cfgPartmap p → off ≠ Reg.cfgViolcnt → t.reg off = s.reg off) ∧
      { t with regs := s.regs, chk := s.chk, pwr := s.pwr } = s ∧
      ((∀ g q r, g < 64 → q < 64 → r < 64 → bit (s.reg (Reg.cfgPartmap q)) g = true → bit (s.reg (Reg.cfgPartmap r)) g = true → q = r) →
        ∀ g q r, g < 64 → q < 64 → r < 64 → bit (t.reg (Reg.cfgPartmap q)) g = true → bit (t.reg (Reg.cfgPartmap r)) g = true → q = r)

/-- A partition reset (R52, R55) empties every cluster of the partition, leaves the map of clusters and QUANTUM as they
are, and ends its contexts: RUNNING to BOUND, PARKING to BOUND with INCOMPLETE and without its cocoon, WAKING back to
COCOONED with RESET and its cocoon whole; a context that is COCOONED or BOUND, and one of another partition, keeps its
state.
The model's choices in it: the LASTSTAT of a context that was RUNNING (log 67). -/
def Obligations.PartitionReset : Prop :=
  ∀ (s : State) (p : Nat), s.Up → p < 64 →
    ∃ t, exec (.partitionReset .host p (2 ^ 31 + s.get (Reg.cfgPartctl p) 23 0)) s = .next t ∧
      (∀ g ∈ s.members p, (t.cl g).ctx = none ∧ (t.cl g).tile = [] ∧ (t.cl g).tray = [] ∧ (t.cl g).trans = [] ∧
        (t.cl g).wide = [] ∧ (t.cl g).engines = [] ∧ (t.cl g).vregs = [] ∧ (t.cl g).sregs = [] ∧ (t.cl g).preds = 1 ∧
        (t.cl g).tags = []) ∧
      t.reg (Reg.cfgPartmap p) = s.reg (Reg.cfgPartmap p) ∧
      t.get (Reg.cfgPartctl p) 23 0 = s.get (Reg.cfgPartctl p) 23 0 ∧
      (∀ n, 1 ≤ n → n < 4096 → s.partOf n = p →
        t.partOf n = p ∧
        t.cstate n = (if s.cstate n = stRunning ∨ s.cstate n = stParking then stBound
          else if s.cstate n = stWaking then stCocooned else s.cstate n) ∧
        (s.cstate n = stParking → t.get (Reg.ctxStat n) 31 24 = stIncomplete ∧ (t.ctx n).cocoon = none) ∧
        (s.cstate n = stWaking → t.get (Reg.ctxStat n) 31 24 = stReset ∧ (t.ctx n).cocoon = (s.ctx n).cocoon)) ∧
      ∀ n, 1 ≤ n → n < 4096 → s.partOf n ≠ p → t.cstate n = s.cstate n

/-- ENABLE written 1 to a FREE context with an existing PART binds it (R55, row 1), and with none is discarded; ENABLE
written 0 to a BOUND or COCOONED context frees it and clears EN of its eight queues (rows 3 and 12), and in any other state
is discarded. A context that is bound has no cached entry (R283), and nothing else of the device's contexts, clusters and memory
changes.
The model's choices in it: LASTSTAT of a bound context (log 25). -/
def Obligations.ContextBindAndFree : Prop :=
  ∀ (s : State) (n v : Nat), s.Up → 1 ≤ n → n < 4096 → bit v 30 = false → bit v 29 = false →
    (s.cstate n = stFree → s.get (Reg.ctxCtl n) 31 31 = 0 → bit v 31 = true → s.partExists (fld v 21 16) = true →
      ∃ t, exec (.contextEnable .host n v) s = .next t ∧ t.cstate n = stBound ∧ t.get (Reg.ctxCtl n) 31 31 = 1 ∧
        t.partOf n = fld v 21 16 ∧ t.share n = fld v 15 0 ∧ t.ctx n = .blank ∧ (∀ m, m ≠ n → t.ctx m = s.ctx m) ∧
        (∀ off, off ≠ Reg.ctxCtl n → off ≠ Reg.ctxStat n → off ≠ Reg.ctxViolcnt → t.reg off = s.reg off) ∧
        (∀ k, k % 4096 = n → Tab.find t.caches k = none) ∧
        { t with regs := s.regs, ctxs := s.ctxs, caches := s.caches } = s) ∧
    (s.cstate n = stFree → s.get (Reg.ctxCtl n) 31 31 = 0 → bit v 31 = true → s.partExists (fld v 21 16) = false →
      ∃ t, exec (.contextEnable .host n v) s = .next t ∧ t.cstate n = stFree ∧ t.get (Reg.ctxCtl n) 31 31 = 0) ∧
    (s.cstate n = stBound ∨ s.cstate n = stCocooned → s.get (Reg.ctxCtl n) 31 31 = 1 → bit v 31 = false →
      ∃ t, exec (.contextDisable .host n v) s = .next t ∧ t.cstate n = stFree ∧ t.get (Reg.ctxCtl n) 31 31 = 0 ∧
        (t.ctx n).cocoon = none ∧ (∀ i, i < 8 → t.queOn (8 * n + i) = false) ∧ t.cls = s.cls) ∧
    (s.cstate n = stRunning ∨ s.cstate n = stParking ∨ s.cstate n = stWaking → s.get (Reg.ctxCtl n) 31 31 = 1 →
      bit v 31 = false → ∃ t, exec (.contextDisable .host n v) s = .next t ∧ t.cstate n = s.cstate n ∧
        t.get (Reg.ctxCtl n) 31 31 = 1)

/-- PREEMPT written to a RUNNING context, or the end of its QUANTUM with another context runnable, takes it to PARKING (R55);
the write opens a pre-emption window, for the contexts of its partition that are runnable by then (R76), and leaves those that
are open. A PREEMPT in any
other state is discarded and counted (R78). Neither touches a cluster or memory.
The model's choices in it: the moment of the selection is a command (logs 11, 28). -/
def Obligations.ParkingStarts : Prop :=
  (∀ (s : State) (n v : Nat), s.Up → 1 ≤ n → n < 4096 → s.get (Reg.ctxCtl n) 31 31 = 1 → bit v 31 = true →
    bit v 30 = true → bit v 29 = false →
    ∃ t, exec (.preempt .host n v) s = .next t ∧ { t with regs := s.regs, ctxs := s.ctxs, windows := s.windows } = s ∧
      (s.cstate n = stRunning → t.cstate n = stParking ∧ (t.ctx n).byPreempt = true ∧
        t.windows = s.windows ++ [⟨n, s.partOf n, s.nextOrder⟩]) ∧
      (s.cstate n ≠ stRunning → t.cstate n = s.cstate n ∧ t.windows = s.windows ∧
        (s.get Reg.ctxViolcnt 15 0 < t.get Reg.ctxViolcnt 15 0 ∨ t.get Reg.ctxViolcnt 15 0 = 65535))) ∧
  ∀ (s : State) (p n : Nat), s.running = true → s.holder p = some n → s.cstate n = stRunning → s.quantum p ≠ 0 →
    (s.runnables p).any (· != n) = true →
    ∃ t, exec (.quantumExpiry p) s = .next t ∧ t.cstate n = stParking ∧ (t.ctx n).byQuantum = true ∧
      { t with regs := s.regs, ctxs := s.ctxs } = s

/-- A COCOONED context whose CLUSTERS differs from the partition's count never enters WAKING (R56): RESUME, or its
selection, leaves it COCOONED, no longer runnable, and with LASTSTAT = MISMATCH. -/
def Obligations.ResumeMismatch : Prop :=
  (∀ (s : State) (n v : Nat), s.Up → 1 ≤ n → n < 4096 → s.get (Reg.ctxCtl n) 31 31 = 1 → bit v 31 = true →
    bit v 30 = false → bit v 29 = true → s.cstate n = stCocooned →
    s.get (Reg.ctxStat n) 15 8 ≠ (s.members (s.partOf n)).length →
    ∃ t, exec (.resume .host n v) s = .next t ∧ t.cstate n = stCocooned ∧ (t.ctx n).runnable = false ∧
      t.get (Reg.ctxStat n) 31 24 = stMismatch) ∧
  ∀ (s u : State) (p n : Nat), s.running = true → s.holder p = none → s.testHolds p = false → s.partExists p = true →
    s.pick p = (some n, u) → s.cstate n = stCocooned → s.get (Reg.ctxStat n) 15 8 ≠ (s.members p).length →
    ∃ t, exec (.contextSelect p) s = .next t ∧ t.cstate n = stCocooned ∧ (t.ctx n).runnable = false ∧
      t.get (Reg.ctxStat n) 31 24 = stMismatch

/-- RESUME written to a COCOONED context whose CLUSTERS agrees (R55, R79): while another context holds the partition's
clusters it becomes runnable and stays COCOONED; when they are free and nothing else is runnable it enters WAKING at once,
and of the clusters scheduled it takes one for each image of its cocoon, in logical order, and the stores of the others are
zeroed (R471).
The model's choices in it: the selection among runnable contexts is free (log 28), and a cluster that was added meanwhile stays
without a stream (log 91). -/
def Obligations.ResumeWakes : Prop :=
  ∀ (s : State) (n v : Nat), s.Up → 1 ≤ n → n < 4096 → s.get (Reg.ctxCtl n) 31 31 = 1 → bit v 31 = true →
    bit v 30 = false → bit v 29 = true → s.cstate n = stCocooned →
    s.get (Reg.ctxStat n) 15 8 = (s.members (s.partOf n)).length →
    ((s.holder (s.partOf n)).isSome = true →
      ∃ t, exec (.resume .host n v) s = .next t ∧ t.cstate n = stCocooned ∧ (t.ctx n).runnable = true ∧
        (t.ctx n).cocoon = (s.ctx n).cocoon) ∧
    (s.holder (s.partOf n) = none → s.testHolds (s.partOf n) = false → s.quantum (s.partOf n) = 0 →
      s.runnables (s.partOf n) = [] → s.partExists (s.partOf n) = true →
      ∃ t, exec (.resume .host n v) s = .next t ∧ t.cstate n = stWaking ∧ (t.ctx n).cocoon = (s.ctx n).cocoon ∧
        ∀ co, (s.ctx n).cocoon = some co → ∀ i g, (t.scheduled (s.partOf n))[i]? = some g →
          (i < co.images.length → (t.cl g).ctx = some n ∧ (t.cl g).idx = i) ∧
          (co.images.length ≤ i → (t.cl g).ctx = (s.cl g).ctx ∧ (t.cl g).tile = [] ∧ (t.cl g).tray = [] ∧
            (t.cl g).trans = [] ∧ (t.cl g).wide = [] ∧ (t.cl g).vregs = []))

/-! ### LAUNCH, cocoons and the end of a run (02, R63, R65, R73, R96, R109) -/

/-- A selected BOUND context whose LAUNCH names the partition's cluster count becomes RUNNING (R55, row 2), and every
scheduled cluster finds the registers that R96 states, its stream's address in PC, and nothing of another context; nor does a
cluster of the partition that takes no stream hold another context's stores (R471); clusters outside the partition keep what they
hold.
The model's choices in it: what a LAUNCH leaves in a cluster beyond R96 (log 52). -/
def Obligations.LaunchStarts : Prop :=
  ∀ (s u : State) (p n q : Nat) (rest : List Nat) (c : Cmd), s.running = true → s.holder p = none → s.testHolds p = false →
    s.partExists p = true → s.pick p = (some n, u) → s.cstate n = stBound → (s.ctx n).arrivals = q :: rest →
    (s.queue q).waiting = some c → s.get Reg.chkStat 31 31 = 0 → s.launchMismatch p c = false →
    ∃ t, exec (.contextSelect p) s = .next t ∧ t.cstate n = stRunning ∧ (t.ctx n).launch = some c ∧
      (∀ i g, (t.scheduled p)[i]? = some g →
        (t.cl g).ctx = some n ∧ (t.cl g).idx = i ∧ sreg (t.cl g).sregs 0 = fld c.arg1 47 0 ∧ sreg (t.cl g).sregs 1 = i ∧
        sreg (t.cl g).sregs 2 = (t.scheduled p).length ∧ sreg (t.cl g).sregs 3 = fld c.arg2 47 0 ∧
        (∀ r, 4 ≤ r → sreg (t.cl g).sregs r = 0) ∧ (t.cl g).preds = 1 ∧ (t.cl g).vregs = [] ∧ (t.cl g).tags = [] ∧
        t.get (Reg.seqPc g) 47 0 = fld c.arg0 47 4 * 16 ∧
        ((s.cl g).last ≠ some n → (t.cl g).tile = [] ∧ (t.cl g).trans = [] ∧ (t.cl g).wide = [])) ∧
      (∀ g ∈ s.members p, g ∉ t.scheduled p → (t.cl g).ctx = (s.cl g).ctx ∧
        ((s.cl g).last ≠ some n → (t.cl g).tile = [] ∧ (t.cl g).tray = [] ∧ (t.cl g).trans = [] ∧ (t.cl g).wide = [] ∧
          (t.cl g).vregs = [])) ∧
      ∀ g, g ∉ s.members p → t.cl g = s.cl g

/-- A LAUNCH on a queue of a context other than 0 (R63, R65, R386): on a flagged device it completes with BUSY, which ends what
SNP.RSTAT shows of a restore when the context is the job's (R415); while the
context executes another it waits at the head; with the partition's clusters free and nothing else runnable it starts, or
completes with MISMATCH and nothing runs.
The model's choices in it: the selection among runnable contexts is free (log 28). -/
def Obligations.LaunchCommand : Prop :=
  ∀ (s u : State) (q : Nat) (c : Cmd), q / 8 ≠ 0 → q / 8 < 4096 → s.fetchCmd q (· == 1) = some (c, u) → c.q = q →
    (s.get Reg.chkStat 31 31 = 1 → exec (.launch q) s = .next ((u.completeCmd c stBusy).endRestored (q / 8))) ∧
    (s.get Reg.chkStat 31 31 = 0 → s.cstate (q / 8) ≠ stBound →
      ∃ t, exec (.launch q) s = .next t ∧ (t.queue q).waiting = some c ∧
        (t.ctx (q / 8)).arrivals = (s.ctx (q / 8)).arrivals ++ [q] ∧ t.regs = u.regs ∧ t.mem = u.mem ∧ t.cls = u.cls) ∧
    (s.get Reg.chkStat 31 31 = 0 → s.cstate (q / 8) = stBound → (s.ctx (q / 8)).arrivals = [] →
      s.holder (s.partOf (q / 8)) = none → s.testHolds (s.partOf (q / 8)) = false → s.quantum (s.partOf (q / 8)) = 0 →
      s.partExists (s.partOf (q / 8)) = true → s.runnables (s.partOf (q / 8)) = [] →
      ∃ t, exec (.launch q) s = .next t ∧
        (s.launchMismatch (s.partOf (q / 8)) c = false → t.cstate (q / 8) = stRunning ∧ (t.ctx (q / 8)).launch = some c) ∧
        (s.launchMismatch (s.partOf (q / 8)) c = true → t.cstate (q / 8) = stBound ∧ t.cls = s.cls))

/-- The pre-emption of a PARKING context (R55, R73): when every cluster stands at a yield point and nothing is in flight in
the partition, the cocoon takes the registers of every cluster; when every stream has ended first the context is BOUND and
no cocoon is counted; with the registers go the descriptor-slot table and the positions of the queues. Once the cocoon is written
the context is COCOONED with PREEMPTED, its clusters are released and PREEMPTS has gained one; its 4 KiB units lie in successive
channels from the area's base on, under the context's key (R75, R296), and no other byte of memory has changed.
COCOON_READ: a WAKING context is RUNNING again on its clusters with the registers and stores that its cocoon held, by
logical index (R55, R73); where a forced test waits for one of them it parks at once (R393).
The model's choices in it: the bytes of a cocoon are open and its content stands beside them (log 53); the time of LASTPRE is free
(log 29). -/
def Obligations.Cocoons : Prop :=
  ((∀ (s : State) (n : Nat), s.running = true → n < 4096 → s.cstate n = stParking → (s.ctx n).cocoon = none →
    (s.clustersOf n).all s.atYield = true → s.inPartition n = false → s.shadowsLeft n = false →
    (s.allHalted n = false → ∃ (t : State) (co : Cocoon), exec (.parkDrained n) s = .next t ∧ (t.ctx n).cocoon = some co ∧ co.written = false ∧
      t.cstate n = stParking ∧ t.cls = s.cls ∧ co.images.length = (s.byIndex n).length ∧
      (∀ k, k < 65536 → co.descs.read k = s.vaByte Reg.ctxViolcnt n (s.slotAddr n 0 + k)) ∧
      (∀ i, i < 8 → co.positions[i]? = some (s.qHead (8 * n + i), s.qTail (8 * n + i))) ∧
      ∀ (i g : Nat), (s.byIndex n)[i]? = some g → ∃ im : Image, co.images[i]? = some im ∧ im.cl.sregs = (s.cl g).sregs ∧
        im.cl.preds = (s.cl g).preds ∧ im.cl.vregs = (s.cl g).vregs ∧ im.cl.tags = (s.cl g).tags) ∧
    (s.allHalted n = true → ∃ t, exec (.parkDrained n) s = .next t ∧ t.cstate n = stBound ∧ (t.ctx n).cocoon = none ∧
      t.get (Reg.ctxPreempts n) 31 0 = s.get (Reg.ctxPreempts n) 31 0)) ∧
  ∀ (s : State) (n : Nat) (co : Cocoon), s.running = true → n < 4096 → (s.ctx n).cocoon = some co → co.written = false →
    s.cstate n = stParking → (∀ c, c < 12 → s.ddrBytes c ≤ 0x8000000000) →
    let units := ceilDiv co.bytes 4096
    let cs := s.cocoonChannels
    ∃ t, exec (.cocoonWritten n) s = .next t ∧ t.cstate n = stCocooned ∧ t.get (Reg.ctxStat n) 31 24 = stPreempted ∧
      t.get (Reg.ctxStat n) 15 8 = (s.members (s.partOf n)).length ∧
      t.get (Reg.ctxPreempts n) 31 0 = (s.get (Reg.ctxPreempts n) 31 0 + 1) % 2 ^ 32 ∧
      (t.ctx n).cocoon = some { co with written := true } ∧ (∀ g, g < 64 → (t.cl g).ctx ≠ some n) ∧
      (∀ a, (∀ c ∈ cs, a < s.cocoonBase n c ∨ s.cocoonBase n c + ceilDiv units cs.length * 4096 ≤ a) →
        t.mem.read a = s.mem.read a) ∧
      ∀ u c a, u < units → cs[u % cs.length]? = some c → s.cocoonBase n c + u / cs.length * 4096 ≤ a →
        a < s.cocoonBase n c + u / cs.length * 4096 + 4096 → a < 0x40000000000 + 0x8000000000 * c + s.ddrBytes c →
        ∃ v, t.veilAt a = some v ∧ v.key = s.accessKey n (s.cocoonBase n c)) ∧
  ∀ (s : State) (n : Nat) (co : Cocoon), s.running = true → n < 4096 → (s.ctx n).cocoon = some co →
    s.cstate n = stWaking →
    ∃ t, exec (.cocoonRead n) s = .next t ∧
      t.cstate n = (if (s.clustersOf n).any s.chk.forced.contains then stParking else stRunning) ∧
      (t.ctx n).cocoon = none ∧ t.mem = s.mem ∧
      (∀ (i g : Nat) (im : Image), (s.byIndex n)[i]? = some g → co.images[i]? = some im →
        (t.cl g).ctx = some n ∧ (t.cl g).idx = i ∧ (t.cl g).sregs = im.cl.sregs ∧ (t.cl g).preds = im.cl.preds ∧
        (t.cl g).vregs = im.cl.vregs ∧ (t.cl g).tags = im.cl.tags ∧ (t.cl g).tile = im.cl.tile ∧
        (t.cl g).wide = im.cl.wide ∧ (t.cl g).stall = im.cl.stall) ∧
      ∀ g, g ∉ s.byIndex n → t.cl g = s.cl g

/-! ### Queues and commands (02, R58–R65) -/

/-- EN is set where the context is not FREE, with LOG2SIZE from the same write where it is 4–12; EN cleared empties both
pointer registers and the queue, and later doorbells are refused (R58, R59). -/
def Obligations.QueueEnable : Prop :=
  (∀ (s : State) (q v : Nat), s.Up → q < 32768 → s.queOn q = false → bit v 31 = true →
    ∃ t, exec (.queEnable .host q v) s = .next t ∧
      t.queOn q = (s.cstate (q / 8) != stFree) ∧
      t.get (Reg.queCtl q) 3 0 = (if 4 ≤ fld v 3 0 ∧ fld v 3 0 ≤ 12 then fld v 3 0 else s.get (Reg.queCtl q) 3 0) ∧
      s.OnlyRegs (fun o => o == Reg.queCtl q || o == Reg.queViolcnt) t) ∧
  ∀ (s : State) (q v : Nat), s.Up → q < 32768 → s.queOn q = true → bit v 31 = false →
    ∃ t, exec (.queDisable .host q v) s = .next t ∧ t.queOn q = false ∧ t.reg (Reg.quePtr q) = 0 ∧
      t.reg (Reg.queCplptr q) = 0 ∧ t.queue q = .blank ∧ t.get (Reg.queCtl q) 3 0 = s.get (Reg.queCtl q) 3 0 ∧
      t.cls = s.cls ∧ ∀ r, r ≠ q → t.queue r = s.queue r

/-- Which doorbell writes R60 discards. -/
def doorbellRefused (s : State) (q v : Nat) : Prop :=
  s.queOn q = false ∨ 65536 ≤ v ∨ 2 ^ s.get (Reg.queCtl q) 3 0 < (v + 65536 - s.qHead q) % 65536 ∨
    2 ^ s.get (Reg.queCtl q) 3 0 < (v + 65536 - s.qTail q) % 65536

/-- A doorbell that R60 refuses changes nothing but QUE.VIOLCNT; any other makes TAIL read the new value and enters the
queue in its context's fetch schedule (R61), and changes nothing else. -/
def Obligations.Doorbell : Prop :=
  ∀ (s : State) (q v : Nat), s.Up → q < 32768 → v < 2 ^ 32 →
    (doorbellRefused s q v → exec (.doorbell (64 * q) 4 (some v)) s = .next (s.violate Reg.queViolcnt .host)) ∧
    (¬ doorbellRefused s q v → ∃ t, exec (.doorbell (64 * q) 4 (some v)) s = .next t ∧ s.qHead q = t.qHead q ∧ t.qTail q = v ∧
      (s.qHead q ≠ v → q ∈ (t.ctx (q / 8)).sched) ∧
      (∀ off, off ≠ Reg.quePtr q → t.reg off = s.reg off) ∧ { t with regs := s.regs, ctxs := s.ctxs } = s)

/-- A command is fetched from the ring entry at HEAD modulo the ring's size, HEAD moves on by one modulo 2^16, and no byte
of memory changes (R58, R59, R62). -/
def Obligations.FetchCommand : Prop :=
  ∀ (s u : State) (q : Nat) (accept : Nat → Bool) (c : Cmd), s.fetchCmd q accept = some (c, u) →
    s.queOn q = true ∧ s.qHead q ≠ s.qTail q ∧ c.q = q ∧ c.ptr = s.qHead q ∧ accept c.code = true ∧
    c.entry = (s.readVa Reg.queViolcnt (q / 8) (fld (s.reg (Reg.queBase q)) 47 12 * 4096 + 64 * (s.qHead q % s.ringSize q)) 64).1 ∧
    u.qHead q = (s.qHead q + 1) % 65536 ∧ u.qTail q = s.qTail q ∧ c ∈ (u.queue q).running ∧ u.mem = s.mem ∧ u.cls = s.cls

/-- The completion entry of a command with CPL = 1 (R64): 16 bytes at CPLTAIL modulo the ring's size hold STATUS, the PHASE
of the pass, the queue index, the ring pointer and USERTAG, with [22:19] zero; CPLTAIL moves on by one. While the ring is
full nothing is written and the entry waits. Where HIF.IRQCTL asks for it, the queue's vector is signalled afterwards (R453).
DEVTIME is a free value.
The model's choices in it: DEVTIME is free (log 88), and the entry for a full ring waits (log 23). -/
def Obligations.CompletionEntry : Prop :=
  ∀ (s : State) (c : Cmd) (st : Nat), c ∈ (s.queue c.q).running → c.cpl = true → (s.queue c.q).cpls = [] → st < 256 →
    c.ptr < 65536 → c.q < 32768 →
    (s.cplRoom c.q = true → ∃ (t : State) (w time : Nat),
      s.completeCmd c st = (if s.get Reg.hifIrqctl 30 30 = 1 then t.signal (1 + c.q % 255) else t) ∧
      fld w 31 24 = st ∧ fld w 23 23 = (s.cplTail c.q / s.ringSize c.q + 1) % 2 ∧ fld w 22 19 = 0 ∧ fld w 18 16 = c.q % 8 ∧
      fld w 15 0 = c.ptr ∧ w < 2 ^ 32 ∧ time < 2 ^ 64 ∧
      t.mem = (s.writeVa Reg.queViolcnt (c.q / 8)
        (fld (s.reg (Reg.queCplbase c.q)) 47 12 * 4096 + 16 * (s.cplTail c.q % s.ringSize c.q))
        (leBytes 4 w ++ leBytes 4 c.usertag ++ leBytes 8 time)).mem ∧
      t.cplTail c.q = (s.cplTail c.q + 1) % 65536) ∧
    (s.cplRoom c.q = false → (s.completeCmd c st).mem = s.mem ∧ (s.completeCmd c st).cplTail c.q = s.cplTail c.q ∧
      ((s.completeCmd c st).queue c.q).cpls = [⟨c.ptr, st, c.usertag⟩])

/-- NOP and a reserved command code complete with OK, the latter counted in QUE.VIOLCNT; FENCE completes with OK once every
earlier command of the context's queues has completed, and until then is not fetched; DESCW completes with OK in every
case: it copies COUNT descriptors from ARG0 on to its slots, one after the other, each by a read and a write of 64 bytes of the
context; a count of 0 copies nothing and counts once, and slots beyond 1,023 are left out and count once together (R57, R63).
The model's choices in it: what FENCE waits for (log 27). -/
def Obligations.PlainCommands : Prop :=
  ∀ (s u : State) (q : Nat) (c : Cmd), q < 32768 →
    (s.fetchCmd q (· == 0) = some (c, u) → exec (.nop q) s = .next (u.completeCmd c stOk)) ∧
    (s.fetchCmd q (reservedCmd (q / 8)) = some (c, u) →
      exec (.reservedCommand q) s = .next ((u.violate Reg.queViolcnt (.ctx (q / 8))).completeCmd c stOk)) ∧
    (s.fetchCmd q (· == 3) = some (c, u) → s.allComplete (q / 8) = true →
      exec (.fence q) s = .next (u.completeCmd c stOk)) ∧
    (s.allComplete (q / 8) = false → exec (.fence q) s = .next s) ∧
    (q / 8 ≠ 0 → s.fetchCmd q (· == 2) = some (c, u) →
      let n := q / 8
      let first := fld c.arg1 9 0
      let count := fld c.arg1 20 10
      let copy := fun (t : State) (i : Nat) =>
        let r := t.load Reg.queViolcnt n (fld c.arg0 47 6 * 64 + 64 * i) 64
        r.2.store Reg.queViolcnt n (r.2.slotAddr n (first + i)) r.1
      let t := (List.range (min count (1024 - first))).foldl copy u
      exec (.descw q) s = .next
        ((if count = 0 ∨ 1024 < first + count then t.violate Reg.queViolcnt (.ctx n) else t).completeCmd c stOk) ∧
      (count = 1 → t.mem = (u.writeVa Reg.queViolcnt n (u.slotAddr n first)
        (u.readVa Reg.queViolcnt n (fld c.arg0 47 6 * 64) 64).1).mem))


/-! ### The sequencer (03) -/

/-- An instruction is fetched where PC points, from the 16 bytes there as the context's translation gives them; the fetch
changes nothing but the violation counter and the entries of the context that the cluster's cache holds, 1,024 at most where it
held no more (R92, R127, R282, R283). -/
def Obligations.FetchInstruction : Prop :=
  ∀ (s : State) (g : Nat) (f : Fetch), s.fetchInstr g = some f →
    (s.cl g).ctx = some f.n ∧ f.idx = (s.cl g).idx ∧ (s.cl g).stall = .none ∧ s.get (Reg.seqCstat g) 0 0 = 0 ∧
    f.pc = s.get (Reg.seqPc g) 47 0 ∧ f.word = leNat (s.readVa (Reg.seqViolcnt g) f.n f.pc 16).1 ∧ f.word < 2 ^ 128 ∧
    { f.st with regs := s.regs, caches := s.caches } = s ∧
    (∀ off, off ≠ Reg.seqViolcnt g → f.st.reg off = s.reg off) ∧
    (∀ k, k ≠ 4096 * g + f.n → Tab.find f.st.caches k = Tab.find s.caches k) ∧
    (g < 64 → (Tab.getD [] s.caches (4096 * g + f.n)).length ≤ 1024 →
      (Tab.getD [] f.st.caches (4096 * g + f.n)).length ≤ 1024)

/-- COUNT of SEQ.VIOLCNT when the effect of an instruction begins: its fetch has been counted where it was discarded, and the
unused bits of its word where they are set (R98, R127). -/
def countAtIssue (f : Fetch) (g used : Nat) : Nat :=
  (((f.begin g).endRun g).countReserved g f.n f.word used).get (Reg.seqViolcnt g) 15 0

/-- The commands that issue an instruction of an assigned opcode, each with the words that it accepts. -/
def issueRows (g : Nat) (ev : List FaultIn) (flips : List Flip) : List (Instr × (Nat → Bool)) :=
  [(.bra g, opIs 0x01), (.loop g, opIs 0x02), (.wait g, opIs 0x03), (.signal g, opIs 0x04), (.yield g, opIs 0x05),
   (.barrier g, fun w => opIs 0x06 w && barScope w != 1), (.barrierDomain g, fun w => opIs 0x06 w && barScope w == 1),
   (.hint g, opIs 0x07), (.halt g, opIs 0x08), (.tload g ev, fun w => opIs 0x10 w && !bit w 11),
   (.tloadScalar g ev, fun w => opIs 0x10 w && bit w 11), (.tstore g ev, opIs 0x11), (.txfer g ev, opIs 0x12),
   (.ttrans g ev, opIs 0x13), (.lpark g, opIs 0x20), (.lfetch g flips, opIs 0x21), (.ldrop g, opIs 0x22),
   (.lpin g flips, opIs 0x23), (.mma g flips, opIs 0x30), (.vchain g, opIs 0x40), (.vred g, opIs 0x41),
   (.vshuf g, opIs 0x42), (.vdwc g, opIs 0x43), (.ablk ⟨g, flips⟩, opIs 0x50), (.rmask g, opIs 0x58), (.update g, opIs 0x60),
   (.updsparse g, opIs 0x61), (.normsq g, fun w => opIs 0x62 w && upCount w != 0),
   (.normsqClose g, fun w => opIs 0x62 w && upCount w == 0), (.fold g, opIs 0x63), (.cred g, opIs 0x70),
   (.cbcast g, opIs 0x71), (.csend g, opIs 0x72), (.crecv g, opIs 0x73), (.cvote g, opIs 0x74), (.scaleupd g, opIs 0x80),
   (.health g, opIs 0x81)]

/-- An instruction that is predicated off has no effect but to be issued: PC and ISSUED move on and its TAG counter gains one
(R93). It reads no operand and no unit takes it: nothing enters the instructions in flight, and the registers, predicates
and memory are as before. -/
def Obligations.PredicatedOff : Prop :=
  ∀ (s : State) (g : Nat) (f : Fetch) (ev : List FaultIn) (flips : List Flip) (c : Instr) (accept : Nat → Bool),
    (c, accept) ∈ issueRows g ev flips → s.fetchInstr g = some f → s.clusterAt f.n f.idx = some g → accept f.word = true →
    guard (s.cl g).preds f.word = false →
    ∃ t, exec c s = .next t ∧ s.Issues t g ∧ s.TagGains t g (wTag f.word) ∧ t.FallsThrough g f ∧ t.flights = s.flights ∧
      t.nextFlight = s.nextFlight ∧ (t.cl g).sregs = (s.cl g).sregs ∧ (t.cl g).preds = (s.cl g).preds ∧
      (t.cl g).stall = .none

/-- The comparison that CMP names, of two 64-bit values (R101). -/
def cmpHolds (cmp a b : Nat) : Prop :=
  match cmp with
  | 0 => True
  | 1 => a = b
  | 2 => a ≠ b
  | 3 => toSigned 64 a < toSigned 64 b
  | 4 => toSigned 64 b ≤ toSigned 64 a
  | 5 => a < b
  | _ => b ≤ a

/-- BRA compares s[SA] with s[SB] or the sign-extended IMM (R102): with SETP = 0 it goes OFFSET instructions from its own
address or falls through, with SETP = 1 it sets p[PDST] and falls through; p0 keeps its value 1 (R93). -/
def Obligations.Branch : Prop :=
  ∀ (s : State) (g : Nat) (f : Fetch), s.Ready g f (braRegs f.word) .none → opIs 0x01 f.word = true →
    fld f.word 94 92 ≠ 7 →
    let a := sreg (s.cl g).sregs (fld f.word 107 102)
    let b := if bit f.word 95 then ofSigned 64 (toSigned 32 (fld f.word 63 32)) else sreg (s.cl g).sregs (fld f.word 101 96)
    ∃ t, exec (.bra g) s = .next t ∧ s.Issues t g ∧ s.TagGains t g (wTag f.word) ∧ (t.cl g).sregs = (s.cl g).sregs ∧
      (bit f.word 91 = false → (t.cl g).preds = (s.cl g).preds ∧
        (cmpHolds (fld f.word 94 92) a b →
          t.get (Reg.seqPc g) 47 0 = ofSigned 48 ((f.pc : Int) + 16 * toSigned 32 (fld f.word 31 0))) ∧
        (¬ cmpHolds (fld f.word 94 92) a b → t.FallsThrough g f)) ∧
      (bit f.word 91 = true → t.FallsThrough g f ∧
        ∀ i, i < 16 → (pred (t.cl g).preds i = true ↔
          if i = fld f.word 90 87 ∧ i ≠ 0 then cmpHolds (fld f.word 94 92) a b else pred (s.cl g).preds i = true))

/-- LOOP adds STEP to s[SIDX] modulo 2^64; with OFFSET ≠ 0 and the sum signed-less than the limit, which is LIMIT or s[SLIM]
as it was before the addition, it branches, and otherwise falls through (R103). No other register changes. -/
def Obligations.LoopStep : Prop :=
  ∀ (s : State) (g : Nat) (f : Fetch), s.Ready g f (loopRegs f.word) .none → opIs 0x02 f.word = true →
    let i := fld f.word 107 102
    let limit := if bit f.word 95 then toSigned 24 (fld f.word 47 24)
      else toSigned 64 (sreg (s.cl g).sregs (fld f.word 101 96))
    let sum := ofSigned 64 ((sreg (s.cl g).sregs i : Int) + toSigned 16 (fld f.word 63 48))
    ∃ t, exec (.loop g) s = .next t ∧ s.Issues t g ∧ s.TagGains t g (wTag f.word) ∧
      (t.cl g).preds = (s.cl g).preds ∧ sreg (t.cl g).sregs i = sum ∧
      (∀ r, r ≠ i → sreg (t.cl g).sregs r = sreg (s.cl g).sregs r) ∧
      (fld f.word 23 0 ≠ 0 ∧ toSigned 64 sum < limit →
        t.get (Reg.seqPc g) 47 0 = ofSigned 48 ((f.pc : Int) + 16 * toSigned 24 (fld f.word 23 0))) ∧
      (¬ (fld f.word 23 0 ≠ 0 ∧ toSigned 64 sum < limit) → t.FallsThrough g f)

/-- The value on which a WAIT waits: TARGET, with s[ST][15:0] when REGT = 1, modulo 2^16 (R104). -/
def waitTarget (s : State) (g w : Nat) : Nat :=
  (fld w 93 78 + (if bit w 100 then sreg (s.cl g).sregs (fld w 99 94) % 65536 else 0)) % 65536

/-- A WAIT whose counter has reached its target, (counter − target) mod 2^16 < 32,768, completes at once; any other stalls
issue, with its TAG counter as it was (R69, R104). Once the counter gets there the stalled WAIT completes and issue
resumes; until then nothing changes.
The model's choices in it: the amount that WAITCYC gains is free (log 16). -/
def Obligations.WaitStalls : Prop :=
  (∀ (s : State) (g : Nat) (f : Fetch), s.Ready g f (waitRegs f.word) .none → opIs 0x03 f.word = true →
    fld f.word 107 101 ≠ 0 →
    ∃ t, exec (.wait g) s = .next t ∧ s.Issues t g ∧ t.FallsThrough g f ∧ (t.cl g).sregs = (s.cl g).sregs ∧
      (t.cl g).preds = (s.cl g).preds ∧
      ((((s.cl g).tags.read (fld f.word 107 101)).toNat + 65536 - waitTarget s g f.word) % 65536 < 32768 →
        s.TagGains t g (wTag f.word) ∧ (t.cl g).stall = .none) ∧
      (32768 ≤ (((s.cl g).tags.read (fld f.word 107 101)).toNat + 65536 - waitTarget s g f.word) % 65536 →
        s.TagGains t g 0 ∧ t.issuing g = none ∧
        ∃ map, (t.cl g).stall = .wait (wTag f.word) (fld f.word 107 101) (waitTarget s g f.word) (bit f.word 77) map)) ∧
  ∀ (s : State) (g n tag k target : Nat) (ext : Bool) (map : Option Nat), s.activeOn g = some n →
    s.clusterAt n (s.cl g).idx = some g → (s.cl g).stall = .wait tag k target ext map → target < 65536 →
    ((((s.cl g).tags.read k).toNat + 65536 - target) % 65536 < 32768 →
      ∃ t, exec (.waitSatisfied g) s = .next t ∧ (t.cl g).stall = .none ∧ s.TagGains t g tag ∧ t.mem = s.mem ∧
        ∀ h, h ≠ g → t.cl h = s.cl h) ∧
    (32768 ≤ (((s.cl g).tags.read k).toNat + 65536 - target) % 65536 → exec (.waitSatisfied g) s = .next s)

/-- No byte of the device's own memory has changed; an interrupt message may have been written at the host (R450). -/
def DeviceMemoryKept (s t : State) : Prop := ∀ a, a < 2 ^ 51 → t.mem.read a = s.mem.read a

/-- What the completion of an instruction adds to a counter of the cluster at a logical index of its context (R94, R105,
R115). -/
def owed (f : Flight) (idx k : Nat) : Nat :=
  ((f.adds.filter fun a => a.idx == idx && a.tag == k && k != 0).map (·.inc)).sum +
    (if f.idx = idx ∧ f.tag = k ∧ k ≠ 0 then 1 else 0)

/-- SIGNAL is a release (R105): its issue adds nothing, and hands on INC for counter TAGS of cluster DEST or of every
cluster; a DEST beyond the partition adds nothing and counts once; issue goes on past it. SIGNAL_RELEASE applies the
additions, and its own TAG, once every earlier instruction of the cluster has completed, and before that does nothing. The
model's choices in it: the release is a command of its own (log 17), and issue goes on while it waits (log 93). -/
def Obligations.SignalReleases : Prop :=
  (∀ (s : State) (g : Nat) (f : Fetch), s.Ready g f [] .none → opIs 0x04 f.word = true → fld f.word 107 101 ≠ 0 →
    fld f.word 93 86 ≠ 0 →
    ∃ t fl, exec (.signal g) s = .next t ∧ s.Issues t g ∧ t.FallsThrough g f ∧ s.TagGains t g 0 ∧
      Tab.find t.flights s.nextFlight = some fl ∧ t.nextFlight = s.nextFlight + 1 ∧ fl.op = 0x04 ∧ fl.ctx = f.n ∧
      fl.idx = f.idx ∧ fl.tag = wTag f.word ∧
      (bit f.word 100 = true → fl.adds = (List.range (s.clustersOf f.n).length).map fun i =>
        ⟨i, fld f.word 107 101, fld f.word 93 86⟩) ∧
      (bit f.word 100 = false → fl.adds = if fld f.word 99 94 < (s.clustersOf f.n).length
        then [⟨fld f.word 99 94, fld f.word 107 101, fld f.word 93 86⟩] else []) ∧
      t.get (Reg.seqViolcnt g) 15 0 =
        (if bit f.word 100 = false ∧ (s.clustersOf f.n).length ≤ fld f.word 99 94 then min 65535 (countAtIssue f g signalUsed + 1)
         else countAtIssue f g signalUsed)) ∧
  ∀ (s : State) (i : Nat) (f : Flight), s.running = true → Tab.find s.flights i = some f → f.op = 0x04 →
    (s.ctx f.ctx).cocoon = none →
    ((∀ p ∈ s.flights, p.2.ctx = f.ctx → p.2.idx = f.idx → i ≤ p.1) →
      ∃ t, exec (.signalRelease i) s = .next t ∧ t.mem = s.mem ∧
        ∀ h, s.clusterAt f.ctx (s.cl h).idx = some h → ∀ k,
          (t.cl h).tags.read k = (s.cl h).tags.read k + BitVec.ofNat 16 (owed f (s.cl h).idx k)) ∧
    ((∃ p ∈ s.flights, p.2.ctx = f.ctx ∧ p.2.idx = f.idx ∧ p.1 < i) → exec (.signalRelease i) s = .next s)

/-- An instruction whose effects are visible completes (R94, R124): it leaves the instructions in flight, its TAG counter
gains one and the counters that it signals gain what they are owed, its status register takes its status, and the first
status of class Failed enters SEQ.CSTAT. One whose effects are not visible yet does not complete, nor does one of a unit that
holds its work (R424), or one that stands in several queues before its turn (R187, R218). The errors detected with it come
first (R377, R378); they touch no instruction, no cluster and no memory of the device. Then the engines that waited for it go
on; where none waits nothing more happens. The model's choices in it: completion is a command of its own (log 17), and errors
are operands (log 22). -/
def Obligations.InstructionCompletes : Prop :=
  ∀ (s : State) (i g : Nat) (f : Flight) (ev : List FaultIn), s.running = true → Tab.find s.flights i = some f → f.op ≠ 0x04 →
    (s.ctx f.ctx).cocoon = none → s.clusterAt f.ctx f.idx = some g →
    (f.ready = false ∨ s.flightHeld f = true ∨ s.queueTurn i f = false → exec (.instructionComplete ⟨i, ev⟩) s = .next s) ∧
    (f.ready = true → s.flightHeld f = false → s.queueTurn i f = true →
      let u := s.detect (s.flightCarrier f) ev
      (u.cls = s.cls ∧ u.flights = s.flights ∧ u.ctxs = s.ctxs ∧ DeviceMemoryKept s u ∧ (ev = [] → u = s)) ∧
      ∃ t : State, exec (.instructionComplete ⟨i, ev⟩) s = .next (t.runWaiting f.g) ∧
        ((∀ x ∈ (s.cl f.g).engines, x.2.queue = []) → (s.cl f.g).vq = [] → exec (.instructionComplete ⟨i, ev⟩) s = .next t) ∧
        t.mem = u.mem ∧ t.flights = Tab.erase s.flights i ∧
        (∀ h, s.clusterAt f.ctx (s.cl h).idx = some h → ∀ k,
          (t.cl h).tags.read k = (s.cl h).tags.read k + BitVec.ofNat 16 (owed f (s.cl h).idx k)) ∧
        (∀ r, sreg (t.cl g).sregs r = if r = f.sreg ∧ r ≠ 0 then f.status % 2 ^ 64 else sreg (s.cl g).sregs r) ∧
        (failedClass f.status = true → u.get (Reg.seqCstat g) 31 24 = 0 → t.get (Reg.seqCstat g) 31 24 = f.status) ∧
        (failedClass f.status = false ∨ u.get (Reg.seqCstat g) 31 24 ≠ 0 →
          t.get (Reg.seqCstat g) 31 24 = u.get (Reg.seqCstat g) 31 24))

/-- YIELD and HINT change no value (R106, R108): they complete at issue, and a YIELD of a PARKING context parks its cluster,
which then issues nothing. -/
def Obligations.YieldAndHint : Prop :=
  (∀ (s : State) (g : Nat) (f : Fetch),
    s.Ready g f (if fld f.word 107 102 = 0 then [] else [fld f.word 107 102]) .none → opIs 0x05 f.word = true →
    ∃ t, exec (.yield g) s = .next t ∧ s.Issues t g ∧ s.TagGains t g (wTag f.word) ∧ t.FallsThrough g f ∧
      (t.cl g).sregs = (s.cl g).sregs ∧ (t.cl g).preds = (s.cl g).preds ∧
      (t.cl g).parked = (s.cstate f.n == stParking) ∧ (s.cstate f.n = stParking → t.issuing g = none)) ∧
  ∀ (s : State) (g : Nat) (f : Fetch), s.Ready g f [] .none → opIs 0x07 f.word = true →
    ∃ t, exec (.hint g) s = .next t ∧ s.Issues t g ∧ s.TagGains t g (wTag f.word) ∧ t.FallsThrough g f ∧
      (t.cl g).sregs = (s.cl g).sregs ∧ (t.cl g).preds = (s.cl g).preds ∧ (t.cl g).stall = .none

/-- The cluster at a logical index is in the next wave of a release: no other time that is due is earlier. -/
def inNextWave (r : Release) (idx : Nat) : Prop := ∃ ns, (idx, ns) ∈ r.due ∧ ∀ x ∈ r.due, ns ≤ x.2

/-- What is due after the next wave. -/
def laterWaves (r : Release) : List (Nat × Nat) := r.due.filter fun x => r.due.any fun y => decide (y.2 < x.2)

/-- A partition BARRIER stalls its cluster until every cluster of the partition has reached it; the last to do so starts the
release, with OK, in which each cluster has the time of its wave, by its logical index and the slope in force on its compute
die. A cluster that still awaits the wave of an earlier BARRIER has not reached the next, so that a release under way goes on
unchanged. Each wave completes the BARRIER of the clusters whose time comes first, with s[SDST] = OK where SDST ≠ 0, and leaves
the others stalled (R107, R433). A cluster of a PARKING context stops there (R73). The model's choices in it: the slope in force
while a boost has settled (log 30). -/
def Obligations.PartitionBarrier : Prop :=
  (∀ (s : State) (g : Nat) (f : Fetch), s.Ready g f (barrierRegs f.word) .none → opIs 0x06 f.word = true →
    barScope f.word = 0 →
    ∃ t map, exec (.barrier g) s = .next t ∧ s.Issues t g ∧ s.TagGains t g 0 ∧ t.FallsThrough g f ∧ t.issuing g = none ∧
      (t.cl g).stall = .barrier false (wTag f.word) (fld f.word 99 94) map ∧
      ((∃ h ∈ s.clustersOf f.n, h ≠ g ∧ s.reached f.n false h = false) → (t.ctx f.n).release = (s.ctx f.n).release) ∧
      ((∀ h ∈ s.clustersOf f.n, h ≠ g → s.reached f.n false h = true) → s.awaitsWave f.n f.idx = false →
        ∃ r, (t.ctx f.n).release = some r ∧ r.status = stOk ∧ r.domain = false ∧
          r.due = (s.clustersOf f.n).map fun h =>
            ((s.cl h).idx, (s.cl h).idx % slopeWaves (s.slopeOn (h / 16)) * slopeNs (s.slopeOn (h / 16))))) ∧
  (∀ (s : State) (n h : Nat) (d : Bool), s.reached n d h = true ↔
    (∃ tag dst map, (s.cl h).stall = .barrier d tag dst map) ∧
      ∀ r, (s.ctx n).release = some r → ∀ x ∈ r.due, x.1 ≠ (s.cl h).idx) ∧
  ∀ (s : State) (p n : Nat) (r : Release), s.running = true → s.holder p = some n → (s.ctx n).release = some r →
    (s.ctx n).cocoon = none →
    ∃ t, exec (.barrierWave p) s = .next t ∧ t.mem = s.mem ∧
      (t.ctx n).release = (if laterWaves r = [] then none else some { r with due := laterWaves r }) ∧
      ∀ g, s.clusterAt n (s.cl g).idx = some g →
        (∀ h, h < 64 → (s.cl h).ctx = some n → (s.cl h).idx = (s.cl g).idx → h = g) →
        (∀ d tag dst map, (s.cl g).stall = .barrier d tag dst map → inNextWave r (s.cl g).idx →
          (t.cl g).stall = .none ∧ s.TagGains t g tag ∧ (t.cl g).parked = (s.cstate n == stParking) ∧
          ∀ k, sreg (t.cl g).sregs k = if k = dst ∧ k ≠ 0 then r.status % 2 ^ 64 else sreg (s.cl g).sregs k) ∧
        (¬ inNextWave r (s.cl g).idx → t.cl g = s.cl g)

/-- The cluster still waits before its stream can end: for what it has issued, or for the comparison of its shadow units. -/
def Awaits (s : State) (g n : Nat) : Prop := s.flightsOf n (s.cl g).idx ≠ [] ∨ (s.cl g).shadows ≠ []

/-- HALT waits for everything that its cluster has issued (R109), its shadow units compared (R383): with work left the cluster
stalls, and the stream ends when STREAM_END finds none; a reserved code is taken as OK and counted once. The cluster that ends
last, by HALT or by STREAM_END, completes the LAUNCH: the context is BOUND and its clusters are released.
The model's choices in it: a stream ends once its shadow units are compared (log 110). -/
def Obligations.HaltEndsStream : Prop :=
  (∀ (s : State) (g : Nat) (f : Fetch), s.Ready g f (if bit f.word 99 then [fld f.word 98 93] else []) .none →
    opIs 0x08 f.word = true → s.cstate f.n = stRunning → f.n ≠ 0 → f.n < 4096 →
    let code := if bit f.word 99 then sreg (s.cl g).sregs (fld f.word 98 93) % 256 else fld f.word 107 100
    let counted := if 0x14 ≤ code then min 65535 (countAtIssue f g haltUsed + 1) else countAtIssue f g haltUsed
    (Awaits s g f.n → ∃ t, exec (.halt g) s = .next t ∧ s.Issues t g ∧ s.TagGains t g 0 ∧
      (t.cl g).stall = .halt (wTag f.word) (if 0x14 ≤ code then stOk else code) ∧ t.get (Reg.seqCstat g) 0 0 = 0 ∧
      t.get (Reg.seqViolcnt g) 15 0 = counted) ∧
    (¬ Awaits s g f.n → (∃ h ∈ s.clustersOf f.n, h ≠ g ∧ s.get (Reg.seqCstat h) 0 0 = 0) →
      ∃ t, exec (.halt g) s = .next t ∧ s.Issues t g ∧ s.TagGains t g (wTag f.word) ∧ t.get (Reg.seqCstat g) 0 0 = 1 ∧
        t.issuing g = none ∧ t.get (Reg.seqViolcnt g) 15 0 = counted) ∧
    (¬ Awaits s g f.n → (∀ h ∈ s.clustersOf f.n, h ≠ g → s.get (Reg.seqCstat h) 0 0 = 1) →
      ∃ t, exec (.halt g) s = .next t ∧ t.cstate f.n = stBound ∧ (t.ctx f.n).launch = none ∧
        ∀ h, h < 64 → (t.cl h).ctx ≠ some f.n)) ∧
  ∀ (s : State) (g n tag code : Nat), s.activeOn g = some n → s.clusterAt n (s.cl g).idx = some g →
    (s.cl g).stall = .halt tag code → s.get (Reg.seqCstat g) 0 0 = 0 →
    (Awaits s g n → exec (.streamEnd g) s = .next s) ∧
    (¬ Awaits s g n → (∃ h ∈ s.clustersOf n, h ≠ g ∧ s.get (Reg.seqCstat h) 0 0 = 0) →
      ∃ t, exec (.streamEnd g) s = .next t ∧ s.TagGains t g tag ∧ t.get (Reg.seqCstat g) 0 0 = 1 ∧ t.mem = s.mem ∧
        t.cstate n = s.cstate n) ∧
    (¬ Awaits s g n → (∀ h ∈ s.clustersOf n, h ≠ g → s.get (Reg.seqCstat h) 0 0 = 1) → s.cstate n = stRunning → n ≠ 0 →
      n < 4096 → ∃ t, exec (.streamEnd g) s = .next t ∧ t.cstate n = stBound ∧ (t.ctx n).launch = none ∧
        ∀ h, h < 64 → (t.cl h).ctx ≠ some n)

/-- Reserved codes (R99–R101). A reserved opcode is a no-op with its TAG counter up by one at issue; it counts in SEQ.VIOLCNT
unless it is predicated off, and in the run of reserved opcodes in either case; when 4,096 have been issued in a row the stream
ends as HALT does, with INCOMPLETE. A reserved code in an operand field of a control instruction makes it a no-op: counted
once, TAG counter up by one at issue, no register, predicate, branch or stall. The codes are CMP = 7 of BRA, TAGW = 0 of WAIT,
TAGS = 0 and INC = 0 of SIGNAL, SCOPE of 2 or 3 of BARRIER, and KIND from 2 on of HINT.
The model's choices in it: which bits and codes an instruction counts (log 19), what enters the run of reserved opcodes (log
20), and that a stream ends once its shadow units are compared (log 110). -/
def Obligations.ReservedCodes : Prop :=
  (∀ (s : State) (g : Nat) (f : Fetch), s.fetchInstr g = some f → s.clusterAt f.n f.idx = some g →
    assignedOp (wOp f.word) = false →
    ∃ t, exec (.reservedOpcode g) s = .next t ∧ s.Issues t g ∧ s.TagGains t g (wTag f.word) ∧ t.FallsThrough g f ∧
      (t.cl g).sregs = (s.cl g).sregs ∧ (t.cl g).preds = (s.cl g).preds ∧ t.flights = s.flights ∧
      (t.cl g).resRun = (s.cl g).resRun + 1 ∧
      t.get (Reg.seqViolcnt g) 15 0 = min 65535
        (f.st.get (Reg.seqViolcnt g) 15 0 + if guard (s.cl g).preds f.word then 1 else 0)) ∧
  (∀ (s : State) (g n : Nat), s.activeOn g = some n → s.clusterAt n (s.cl g).idx = some g → 4096 ≤ (s.cl g).resRun →
    (s.cl g).stall = .none → s.get (Reg.seqCstat g) 0 0 = 0 →
    (Awaits s g n → ∃ t, exec (.reservedRunHalt g) s = .next t ∧
      (t.cl g).stall = .halt 0 stIncomplete ∧ t.issuing g = none) ∧
    (¬ Awaits s g n → (∃ h ∈ s.clustersOf n, h ≠ g ∧ s.get (Reg.seqCstat h) 0 0 = 0) →
      ∃ t, exec (.reservedRunHalt g) s = .next t ∧ t.get (Reg.seqCstat g) 0 0 = 1 ∧ t.haltStatus g =
        if s.get (Reg.seqCstat g) 31 24 = 0 then stIncomplete else s.get (Reg.seqCstat g) 31 24)) ∧
  ∀ (s : State) (g : Nat) (f : Fetch) (c : Instr) (regs : List Nat) (used : Nat), s.Ready g f regs .none →
    (c = .bra g ∧ opIs 0x01 f.word = true ∧ fld f.word 94 92 = 7 ∧ regs = braRegs f.word ∧ used = braUsed ∨
      c = .wait g ∧ opIs 0x03 f.word = true ∧ fld f.word 107 101 = 0 ∧ regs = waitRegs f.word ∧ used = waitUsed ∨
      c = .signal g ∧ opIs 0x04 f.word = true ∧ (fld f.word 107 101 = 0 ∨ fld f.word 93 86 = 0) ∧ regs = [] ∧ used = signalUsed ∨
      c = .barrier g ∧ opIs 0x06 f.word = true ∧ 2 ≤ barScope f.word ∧ regs = barrierRegs f.word ∧ used = barrierUsed ∨
      c = .hint g ∧ opIs 0x07 f.word = true ∧ 2 ≤ fld f.word 107 104 ∧ regs = [] ∧ used = hintUsed) →
    ∃ t, exec c s = .next t ∧ s.Issues t g ∧ s.TagGains t g (wTag f.word) ∧ t.FallsThrough g f ∧
      (t.cl g).sregs = (s.cl g).sregs ∧ (t.cl g).preds = (s.cl g).preds ∧ (t.cl g).stall = .none ∧ t.flights = s.flights ∧
      t.get (Reg.seqViolcnt g) 15 0 = min 65535 (countAtIssue f g used + 1)

/-! ### Memory as instructions reach it (10, R279–R281) -/

/-- From `s` to `t` memory has changed only at the addresses that `p` names: a 16-byte block that holds none of them reads as
before under every key, and a byte beside them reads as before for the context `c` that made the access (R295, R296). -/
def WroteOnly (s t : State) (c : Nat) (p : Nat → Prop) : Prop :=
  (∀ key a, (∀ b, p b → b / 16 ≠ a / 16) → t.peek key a = s.peek key a) ∧
  ∀ a, ¬ p a → t.peek (s.accessKey c a) a = s.peek (s.accessKey c a) a

/-- A read gives, byte for byte, what lies behind the translation of each address, and zero where the access is discarded; it
counts once, however many of its bytes are discarded, and changes nothing but the cache of translations (R281, R282). A write
changes exactly the bytes behind the translation of its addresses: each takes the last byte written there, under the
context's key, and every other byte of memory reads as before (R295); the write counts once when some byte is discarded. The
model's choices in it: which bytes of a write that is discarded in part are written (log 14), and what an unlisted byte reads
as (log 2). -/
def Obligations.TranslatedAccess : Prop :=
  (∀ (s : State) (viol c va n : Nat),
    let t := (s.load viol c va n).2
    (s.load viol c va n).1 = (List.range n).map (fun i => s.vaByte viol c (va + i)) ∧
    ((∀ i, i < n → s.vaAddr viol c false (va + i) ≠ none) → { t with caches := s.caches } = s) ∧
    ((∃ i, i < n ∧ s.vaAddr viol c false (va + i) = none) → { t with caches := s.caches } = s.violate viol (.ctx c))) ∧
  ∀ (s : State) (viol c va : Nat) (vs : List Byte),
    let t := s.store viol c va vs
    WroteOnly s t c (fun a => ∃ i, i < vs.length ∧ s.vaAddr viol c true (va + i) = some a) ∧
    (∀ i a, i < vs.length → s.vaAddr viol c true (va + i) = some a →
      (∀ j, i < j → j < vs.length → s.vaAddr viol c true (va + j) ≠ some a) →
      some (t.peek (s.accessKey c a) a) = vs[i]?) ∧
    (∀ off, off ≠ viol → t.reg off = s.reg off) ∧
    t.get viol 15 0 =
      (if ∃ i, i < vs.length ∧ s.vaAddr viol c true (va + i) = none then min 65535 (s.get viol 15 0 + 1) else s.get viol 15 0)

/-- Which addresses a context may use (R279–R281, R290): through a level-2 entry that is valid; for a write one that is
writable and not shared; for a read of a shared granule only while the context is attached to it. The granule's base and the
offset make the address, and it must be mapped. Context 0 uses device physical addresses (R455).
The model's choices in it: the reach of context 0 (log 89). -/
def Obligations.TranslationRights : Prop :=
  ∀ (s : State) (viol c va a : Nat) (write : Bool), va < 2 ^ vaWidth c →
    (c ≠ 0 → (s.vaAddr viol c write va = some a ↔ ∃ e, s.entry viol c (va / 2 ^ 21) = some e ∧ bit e 63 = true ∧
      (write = true → bit e 62 = true ∧ bit e 61 = false) ∧
      (write = false → bit e 61 = true → s.attached c (fld e 51 21 * 2 ^ 21) = true) ∧
      a = fld e 51 21 * 2 ^ 21 + va % 2 ^ 21 ∧ s.mapped a = true)) ∧
    (c = 0 → (s.vaAddr viol c write va = some a ↔ a = va ∧ s.mapped a = true))

/-! ### Movement (03, R111–R115, R495, R496) -/

/-- The offset of element (r, k) from the access origin `o` within ROWS, COLS and the extents (R495). -/
def elemAt (d : List Byte) (dim o rows cols r k : Nat) : Option Nat :=
  if r < rows ∧ k < cols ∧ Desc.inside d dim r k = true then some (Desc.elemOff d dim o r k) else none

/-- The offset of the first element of block unit h of row r (R496): COLS is rounded up to 32. -/
def unitAt (d : List Byte) (dim o rows cols r h : Nat) : Option Nat :=
  if r < rows ∧ 32 * h < roundUp cols 32 ∧ Desc.inside d dim r (32 * h) = true then some (Desc.elemOff d dim o r (32 * h))
  else none

/-- Byte `b` of the element, or block unit, at an offset, as context `c` reads it on cluster `g`; zero outside the extents
(R114). -/
def cellByte (s : State) (g c : Nat) (d : List Byte) (o : Option Nat) (b : Nat) : Byte :=
  match o with
  | none => 0
  | some e => s.vaByte (Reg.seqViolcnt g) c (Desc.elemAddr d e + b)

/-- TLOAD writes the whole tile at TA: of an element format every element, row by row; of a block format the elements of all
its units and then their scales (R112, R113, R141). Elements outside the extents are zero. No other byte of the tile store
changes, nor any byte of memory or scalar register; bytes beyond the tile store are dropped (R111).
The model's choices in it: the whole tile is written (log 34), and the effect stands as the instruction is issued (log 17). -/
def Obligations.TileLoad : Prop :=
  ∀ (s : State) (g : Nat) (f : Fetch) (ev : List FaultIn), s.Ready g f (dataRegs true false false f.word) (.mover 0) →
    opIs 0x10 f.word = true → bit f.word 11 = false →
    let j := (s.begun g f (.mover 0) tloadUsed).1
    let u := (s.begun g f (.mover 0) tloadUsed).2
    let d := j.da
    let n := Format.unitBytes (Desc.fmt d)
    let sb := Format.scaleBytes (Desc.fmt d)
    fnDim j.fn ≤ 4 → fmtOk j.kt5 (Desc.fmt d) = true → (Format.block (Desc.fmt d) = true → j.sa % 32 = 0) →
    ∃ t, exec (.tload g ev) s = .next (t.meet g ev) ∧ t.mem = s.mem ∧ t.FallsThrough g f ∧
      (t.cl g).sregs = (s.cl g).sregs ∧ s.TagGains t g 0 ∧ (∀ h, h ≠ g → t.cl h = s.cl h) ∧
      d = (f.st.readVa (Reg.seqViolcnt g) f.n (f.st.slotAddr f.n (wDA f.word)) 64).1 ∧
      (Format.block (Desc.fmt d) = false → ∀ k, k < 4096 * n → 256 * wTA f.word + k < tileBytes →
        (t.cl g).tile.read (256 * wTA f.word + k) =
          cellByte u g f.n d (elemAt d (fnDim j.fn) j.sa (fnRows j.fn) (fnCols j.fn) (k / n / 64) (k / n % 64)) (k % n)) ∧
      (Format.block (Desc.fmt d) = true → ∀ i b, i < 128 →
        let unit := unitAt d (fnDim j.fn) j.sa (fnRows j.fn) (fnCols j.fn) (i / 2) (i % 2)
        (b < n - sb → 256 * wTA f.word + i * (n - sb) + b < tileBytes →
          (t.cl g).tile.read (256 * wTA f.word + i * (n - sb) + b) = cellByte u g f.n d unit (sb + b)) ∧
        (b < sb → 256 * wTA f.word + 128 * (n - sb) + i * sb + b < tileBytes →
          (t.cl g).tile.read (256 * wTA f.word + 128 * (n - sb) + i * sb + b) = cellByte u g f.n d unit b)) ∧
      (∀ a, a < 256 * wTA f.word ∨ 256 * wTA f.word + (if Format.block (Desc.fmt d) then 128 else 4096) * n ≤ a →
        (t.cl g).tile.read a = (s.cl g).tile.read a)

/-- The scalar mode of TLOAD (R113): NWORDS 64-bit words from the address in s[SA] go to s[SDST] onward; words beyond s63
are dropped and count once, beside the one count of a read that is discarded. The registers are pending until the instruction
completes (R97), and no other register, and no byte of memory or of the tile store, changes.
The model's choices in it: the effect stands as the instruction is issued (log 17). -/
def Obligations.ScalarLoad : Prop :=
  ∀ (s : State) (g : Nat) (f : Fetch) (ev : List FaultIn),
    s.Ready g f (dataRegs true false false f.word ++ if fld f.word 7 2 = 0 then [] else scalarDst f.word) (.mover 0) →
    opIs 0x10 f.word = true → bit f.word 11 = true → fld f.word 7 2 ≠ 0 →
    let n := fld f.word 10 8 + 1
    let d := fld f.word 7 2
    let va := sregZ (s.cl g).sregs (wSA f.word)
    let u := (s.begun g f (.mover 0) tloadScalarUsed).2
    ∃ t fl, exec (.tloadScalar g ev) s = .next (t.meet g ev) ∧ t.mem = s.mem ∧ t.FallsThrough g f ∧
      (t.cl g).tile = (s.cl g).tile ∧ s.TagGains t g 0 ∧ (∀ h, h ≠ g → t.cl h = s.cl h) ∧
      (∀ r, r < 64 → sreg (t.cl g).sregs r = if d ≤ r ∧ r < d + n
        then leNat ((List.range 8).map fun i => u.vaByte (Reg.seqViolcnt g) f.n (va + 8 * (r - d) + i))
        else sreg (s.cl g).sregs r) ∧
      t.get (Reg.seqViolcnt g) 15 0 = min 65535 (u.get (Reg.seqViolcnt g) 15 0 +
        (if ∃ i, i < 8 * n ∧ u.vaAddr (Reg.seqViolcnt g) f.n false (va + i) = none then 1 else 0) + if 64 < d + n then 1 else 0) ∧
      Tab.find t.flights s.nextFlight = some fl ∧ fl.ready = true ∧ fl.op = 0x10 ∧ fl.tag = wTag f.word ∧
      (∀ r, r ∈ fl.pend ↔ d ≤ r ∧ r < d + n ∧ r < 64)

/-- TSTORE writes the elements of the tile at TA that lie within the extents, and no other byte of memory (R114): each byte
of each of them, or of each block unit, goes where the translation of its address puts it, under the context's key (R295). A
frozen tensor is not written, and the instruction then counts once. No register of the cluster and no tile changes. The
model's choices in it: the reach of an access to a tile (log 34), and the effect stands as the instruction is issued (log 17). -/
def Obligations.TileStore : Prop :=
  ∀ (s : State) (g : Nat) (f : Fetch) (ev : List FaultIn), s.Ready g f (dataRegs true false false f.word) (.mover 0) →
    opIs 0x11 f.word = true →
    let j := (s.begun g f (.mover 0) tstoreUsed).1
    let u := (s.begun g f (.mover 0) tstoreUsed).2
    let d := j.da
    let n := Format.unitBytes (Desc.fmt d)
    let sb := Format.scaleBytes (Desc.fmt d)
    let at' := fun r k => elemAt d (fnDim j.fn) j.sa (fnRows j.fn) (fnCols j.fn) r k
    let unit := fun r h => unitAt d (fnDim j.fn) j.sa (fnRows j.fn) (fnCols j.fn) r h
    let stored := fun o b => (o : Option Nat).bind fun e => u.vaAddr (Reg.seqViolcnt g) f.n true (Desc.elemAddr d e + b)
    fnDim j.fn ≤ 4 → fmtOk j.kt5 (Desc.fmt d) = true → (Format.block (Desc.fmt d) = true → j.sa % 32 = 0) →
    ∃ t, exec (.tstore g ev) s = .next (t.meet g ev) ∧ t.FallsThrough g f ∧ t.cls = u.cls ∧ s.TagGains t g 0 ∧
      (t.cl g).sregs = (s.cl g).sregs ∧ (t.cl g).tile = (s.cl g).tile ∧ (∀ h, h ≠ g → t.cl h = s.cl h) ∧
      (Desc.frozen d = true → t.mem = s.mem ∧
        t.get (Reg.seqViolcnt g) 15 0 = min 65535 (u.get (Reg.seqViolcnt g) 15 0 + 1)) ∧
      (Desc.frozen d = false → Format.block (Desc.fmt d) = false →
        WroteOnly s t f.n (fun a => ∃ r k b, b < n ∧ stored (at' r k) b = some a) ∧
        ∀ r k b a, b < n → stored (at' r k) b = some a →
          (∀ r' k' b', b' < n → (r', k', b') ≠ (r, k, b) → stored (at' r' k') b' ≠ some a) →
          t.peek (s.accessKey f.n a) a = if 256 * wTA f.word + (64 * r + k) * n + b < tileBytes
            then (s.cl g).tile.read (256 * wTA f.word + (64 * r + k) * n + b) else 0) ∧
      (Desc.frozen d = false → Format.block (Desc.fmt d) = true →
        WroteOnly s t f.n (fun a => ∃ r h b, h < 2 ∧ b < n ∧ stored (unit r h) b = some a)) ∧
      (Desc.frozen d = false → Format.block (Desc.fmt d) = true → ∀ r h b a, h < 2 → b < n → stored (unit r h) b = some a →
        (∀ r' h' b', h' < 2 → b' < n → (r', h', b') ≠ (r, h, b) → stored (unit r' h') b' ≠ some a) →
        let k := 256 * wTA f.word + if b < sb then 128 * (n - sb) + (2 * r + h) * sb + b else (2 * r + h) * (n - sb) + (b - sb)
        t.peek (s.accessKey f.n a) a = if k < tileBytes then (s.cl g).tile.read k else 0)

/-- TXFER copies LEN units of 256 bytes to the cluster at the logical index, which may be its own, and owes that cluster's
counter DTAG one when DTAG ≠ 0 (R113, R115); an index with no cluster, or LEN = 0, makes it a no-op counted once. No byte of
memory changes, and no other byte of either tile store.
TTRANS of an element format stores the source transposed, columns as rows, in a half of the transposing buffer (R113,
R169): element (i, k) of the destination is element (k, i) of the tensor, or of the tile at TA, within ROWS and COLS, and
zero elsewhere. No byte of memory, of the tile store or of the other half changes.
The model's choices in it: the reach of an access to a tile (log 34), and effects stand as the instructions are issued (log
17). -/
def Obligations.TileMoves : Prop :=
  (∀ (s : State) (g : Nat) (f : Fetch) (ev : List FaultIn), s.Ready g f [] (.mover 0) → opIs 0x12 f.word = true →
    let len := fld (wFN f.word) 9 0
    let dest := fld (wFN f.word) 15 10
    (∀ h, s.clusterAt f.n dest = some h → len ≠ 0 →
      ∃ t fl, exec (.txfer g ev) s = .next (t.meet g ev) ∧ t.mem = s.mem ∧ t.FallsThrough g f ∧ s.TagGains t g 0 ∧
        (t.cl h).sregs = (s.cl h).sregs ∧
        (∀ k, k < 256 * len → 256 * wTB f.word + k < tileBytes → (t.cl h).tile.read (256 * wTB f.word + k) =
          if 256 * wTA f.word + k < tileBytes then (s.cl g).tile.read (256 * wTA f.word + k) else 0) ∧
        (∀ a, a < 256 * wTB f.word ∨ 256 * wTB f.word + 256 * len ≤ a → (t.cl h).tile.read a = (s.cl h).tile.read a) ∧
        (∀ k, k ≠ g → k ≠ h → t.cl k = s.cl k) ∧
        (h ≠ g → (t.cl g).tile = (s.cl g).tile ∧ (t.cl g).sregs = (s.cl g).sregs ∧ (t.cl g).vregs = (s.cl g).vregs ∧
          (t.cl g).trans = (s.cl g).trans ∧ (t.cl g).wide = (s.cl g).wide) ∧
        Tab.find t.flights s.nextFlight = some fl ∧ fl.ready = true ∧
        fl.adds = if fld (wXT f.word) 6 0 = 0 then [] else [⟨dest, fld (wXT f.word) 6 0, 1⟩]) ∧
    (s.clusterAt f.n dest = none ∨ len = 0 →
      ∃ t, exec (.txfer g ev) s = .next (t.meet g ev) ∧ t.mem = s.mem ∧ t.FallsThrough g f ∧
        s.TagGains t g (wTag f.word) ∧ (∀ k, (t.cl k).tile = (s.cl k).tile) ∧
        t.get (Reg.seqViolcnt g) 15 0 =
          min 65535 ((s.begun g f (.mover 0) txferUsed).2.get (Reg.seqViolcnt g) 15 0 + 1) ∧
        Tab.find t.flights s.nextFlight = none)) ∧
  ∀ (s : State) (g : Nat) (f : Fetch) (ev : List FaultIn), s.Ready g f (dataRegs (!bit f.word 1) false false f.word) (.mover 0) →
    opIs 0x13 f.word = true →
    let j := (s.begun g f (.mover 0) ttransUsed).1
    let u := (s.begun g f (.mover 0) ttransUsed).2
    let d := j.da
    let n := Format.unitBytes (Desc.fmt d)
    let half := halfBytes * b2n (bit f.word 0)
    wTB f.word < 0x800 → (bit f.word 1 = false → fnDim j.fn ≤ 4) → fmtOk j.kt5 (Desc.fmt d) = true →
    Format.block (Desc.fmt d) = false →
    ∃ t, exec (.ttrans g ev) s = .next (t.meet g ev) ∧ t.mem = s.mem ∧ t.FallsThrough g f ∧ s.TagGains t g 0 ∧
      (t.cl g).sregs = (s.cl g).sregs ∧ (t.cl g).tile = (s.cl g).tile ∧ (∀ h, h ≠ g → t.cl h = s.cl h) ∧
      (∀ i k b, i < 64 → k < 64 → b < n → 256 * wTB f.word + (64 * i + k) * n + b < halfBytes →
        (t.cl g).trans.read (half + 256 * wTB f.word + (64 * i + k) * n + b) =
          if bit f.word 1 then
            (if k < fnRows j.fn ∧ i < fnCols j.fn ∧ 256 * wTA f.word + (64 * k + i) * n + b < tileBytes
             then (s.cl g).tile.read (256 * wTA f.word + (64 * k + i) * n + b) else 0)
          else cellByte u g f.n d (elemAt d (fnDim j.fn) j.sa (fnRows j.fn) (fnCols j.fn) k i) b) ∧
      ∀ a, a < half + 256 * wTB f.word ∨ half + 256 * wTB f.word + 4096 * n ≤ a ∨ half + halfBytes ≤ a →
        (t.cl g).trans.read a = (s.cl g).trans.read a
/-! ### The matrix engines and the tray (05) -/

/-- An MMA with no LAST on an idle engine, whose queue holds nothing that stands before it, opens an accumulation and
consumes its K-tiles at once, up to its first spill point (R116, R117, R164–R166, R171, R172): the accumulation takes L and
MROWS from the instruction, its product count is 64 per K-tile, and MACS gains KT × MROWS × 4,096. After one K-tile each
partial is the FP32 chain of the products of its row and column from +0, or the exact integer sum; rows from MROWS on hold
zero. No byte of memory or of the stores changes, no scalar register, and no slot of the wide accumulation buffer but the
engine's own. A spill adds each partial to its sum in binary64, rounded once, and clears it. The oldest finished tile enters
the tray when a slot is free, and its instruction is then finished (R207, R208). The model's choices in it: how products
count toward the interval (log 31), and the order in which tiles enter the tray (log 55), and that work is done as the unit
takes it and completed later (log 17). -/
def Obligations.MatrixAccumulation : Prop :=
  (∀ (s : State) (g : Nat) (f : Fetch) (flips : List Flip),
    s.Ready g f (mmaRegs g f) (.engine (mmaEng f.word)) → opIs 0x30 f.word = true →
    let e := mmaEng f.word
    let w := mmaSlot f.word
    let j := (s.begun g f (.engine e) mmaUsed).1
    let u := (s.begun g f (.engine e) mmaUsed).2
    let l := (Epi.interval j.dc).getD 2048
    mmaLast f.word = false → mmaReserved j = false → mmaFormatBad j = false → j.kt5 = false →
    ((s.cl g).eng e).queue = [] → (s.cl g).engineBefore e s.nextFlight = false → ((s.cl g).eng e).pos = 0 → (s.accum g e 0).spillDue = false →
    (s.accum g e 1).spillDue = false → s.opens g e j = true → ((s.cl g).eng e).out w = none →
    (Epi.interval j.dc).isSome = true → u.selected g f.n e (((s.cl g).eng e).ord.getD (s.cl g).ordinal) j.step = false → 64 * mmaKt f.word ≤ l →
    ∃ t fl, exec (.mma g flips) s = .next t ∧ t.mem = s.mem ∧ t.FallsThrough g f ∧ s.TagGains t g 0 ∧
      (t.cl g).sregs = (s.cl g).sregs ∧ (t.cl g).preds = (s.cl g).preds ∧ (t.cl g).tile = (s.cl g).tile ∧
      (t.cl g).trans = (s.cl g).trans ∧ (t.cl g).tray = (s.cl g).tray ∧ (t.cl g).vregs = (s.cl g).vregs ∧
      (∀ h, h ≠ g → t.cl h = s.cl h) ∧ ((t.cl g).eng e).queue = [] ∧
      (∀ k, k ≠ e → (t.cl g).eng k = (s.cl g).eng k) ∧
      (∀ a, (t.cl g).wide.read a = if a / 4096 = 2 * e + w then 0 else (s.cl g).wide.read a) ∧
      Tab.find t.flights s.nextFlight = some fl ∧ fl.ready = true ∧ fl.op = 0x30 ∧ fl.tag = wTag f.word ∧
      t.get (Reg.mxeMacs g e) 63 0 =
        (s.get (Reg.mxeMacs g e) 63 0 + mmaKt f.word * mmaRows f.word * 4096) % 2 ^ 64 ∧
      (t.accum g e w).isOpen = true ∧ (t.accum g e w).interval = l ∧ (t.accum g e w).mrows = mmaRows f.word ∧
      (t.accum g e w).products = 64 * mmaKt f.word ∧ (t.accum g e w).spillDue = decide (64 * mmaKt f.word = l) ∧
      (mmaKt f.word = 1 → flips = [] → ∀ m n, m < 64 → n < 64 →
        let a := (((s.cl g).operand false (mmaAsrc f.word) (wTA f.word) (Desc.fmt j.da) (mmaRows f.word)).rows).getD m []
        let b := (((s.cl g).operand false (mmaBsrc f.word) (wTB f.word) (Desc.fmt j.db) 64).rows).getD n []
        (t.accum g e w).part.read (64 * m + n) =
          if mmaRows f.word ≤ m then 0
          else if intPair j then BitVec.ofInt 32 (dotInt a b) else to32 (chain (f32 0) (a.zip b)).1)) ∧
  (∀ (s : State) (g e w : Nat), s.running = true → ((s.cl g).eng e).queue = [] → (s.accum g e w).spillDue = true →
    (w = 0 ∨ w = 1 ∧ (s.accum g e 0).spillDue = false) → (s.accum g e w).part.wf = true →
    (∀ p ∈ (s.accum g e w).part, p.1 < 4096) →
    ∃ t, exec (.laminationSpill g e []) s = .next t ∧ DeviceMemoryKept s t ∧ (t.accum g e w).part = [] ∧
      (t.accum g e w).spillDue = false ∧ (t.accum g e w).products = (s.accum g e w).products ∧
      (∀ a, (t.cl g).wide.read a =
        if a / 4096 = 2 * e + w ∧ (s.accum g e w).part.read (a % 4096) ≠ 0 then
          rnd64 (Fp.add (f64 ((s.cl g).wide.read a))
            (partVal (s.accum g e w).integer ((s.accum g e w).part.read (a % 4096))))
        else (s.cl g).wide.read a) ∧
      (t.cl g).tile = (s.cl g).tile ∧ (t.cl g).sregs = (s.cl g).sregs ∧ ∀ h, h ≠ g → t.cl h = s.cl h) ∧
  ∀ (s : State) (g e w i : Nat) (rest : List Nat) (o : OutTile) (fl : Flight), s.running = true →
    (s.cl g).trayOrder = i :: rest → (s.cl g).findOut i = some (e, w, o) → (∀ k, k < 16 → ((s.cl g).eng k).queue = []) →
    Tab.find s.flights i = some fl →
    ((s.cl g).tray.length < 128 → ∃ t, exec (.trayEntry g) s = .next t ∧ (t.cl g).tray = (s.cl g).tray ++ [o.tile] ∧
      (t.cl g).trayOrder = rest ∧ t.get (Reg.tryPushed g) 63 0 = (s.get (Reg.tryPushed g) 63 0 + 1) % 2 ^ 64 ∧
      Tab.find t.flights i = some { fl with ready := true } ∧ t.mem = s.mem ∧ ∀ h, h ≠ g → t.cl h = s.cl h) ∧
    (128 ≤ (s.cl g).tray.length → exec (.trayEntry g) s = .next s)

/-! ### The vector engine (06, 07, 09) -/

/-- An instruction of the vector engine that it finishes in one go: its words, the scalar registers that they name, the operand
bits that they use, its reserved codes and excluded formats, and what it does. -/
structure VecRow where
  cmd : Instr
  accept : Nat → Bool
  regs : Nat → List Nat
  used : Nat
  reserved : State → Job → Bool
  formatBad : Job → Bool
  effect : State → Job → State

/-- The instructions that take no tile from the tray. -/
def vecRows (g : Nat) : List VecRow :=
  [⟨.vshuf g, opIs 0x42, fun _ => [], mFN 15 8 + mXT 11 0, fun _ => vshufReserved, never, State.vshuf⟩,
   ⟨.vdwc g, opIs 0x43, fun _ => [], mDA + mDB + mTA + mTB + mFN 15 4, fun _ => vdwcReserved, vdwcFormatBad, State.vdwc⟩,
   ⟨.rmask g, opIs 0x58, dataRegs true true true, mDA + mSA + mSB + mSC + mTB + mFN 15 0 + mXT 11 3, fun _ => rmaskReserved,
    rmaskFormatBad, State.rmask⟩,
   ⟨.update g, opIs 0x60, dataRegs true true true, updUsed, State.updateReserved, updFormatBad, State.update⟩,
   ⟨.updsparse g, opIs 0x61, dataRegs true true true, updUsed, State.updateReserved, updFormatBad, State.update⟩,
   ⟨.normsq g, fun w => opIs 0x62 w && upCount w != 0, dataRegs true false false, normUsed, fun _ => never, normFormatBad, State.normsq⟩,
   ⟨.normsqClose g, fun w => opIs 0x62 w && upCount w == 0, dataRegs true false false, normUsed, fun _ => never, normFormatBad,
    State.normClose⟩,
   ⟨.fold g, opIs 0x63, fun _ => [], mDA + mDB + mFN 11 0, fun _ => never, foldFormatBad, State.fold⟩,
   ⟨.scaleupd g, opIs 0x80, fun _ => [3], mDA, fun _ => never, scaleFormatBad, State.scaleupd⟩,
   ⟨.health g, opIs 0x81, fun _ => [3], mDA + mTA + mFN 15 15 + mFN 13 0, fun _ => never, healthFormatBad, State.health⟩]

/-- What an instruction of the vector engine leaves as it was: PC moves on, no TAG counter gains anything before the
instruction completes, and no scalar register, predicate, engine, tray or other cluster changes. The instruction is done in
flight, and stands in the queue of `u`. -/
structure VecFrame (s t : State) (g : Nat) (f : Fetch) (u : Machine.Unit) : Prop where
  next : t.FallsThrough g f
  tags : s.TagGains t g 0
  sregs : (t.cl g).sregs = (s.cl g).sregs
  preds : (t.cl g).preds = (s.cl g).preds
  engines : (t.cl g).engines = (s.cl g).engines
  trans : (t.cl g).trans = (s.cl g).trans
  others : ∀ h, h ≠ g → t.cl h = s.cl h
  idle : (t.cl g).vq = []
  flight : ∃ fl, Tab.find t.flights s.nextFlight = some fl ∧ fl.ready = true ∧ fl.tag = wTag f.word ∧ fl.unit = u

/-- The vector engine, when it is idle, takes an instruction at once and finishes it (R95, R190): the state is that of its
effect with the instruction done. So do a VCHAIN and a VRED of one tile whose source is not the tray, or is and holds a tile,
and an ABLK that is not selected for a shadow and finds nothing before it in the queues of its two engines (R218). An
excluded format makes each a no-op that completes (R130), a reserved code one that completed at issue (R100); each counts.
The model's choices in it: work is done as the unit takes it and completed later (log 17), and which bits and codes count
(log 19). -/
def Obligations.VectorEngineRuns : Prop :=
  (∀ (s : State) (g : Nat) (f : Fetch) (r : VecRow), r ∈ vecRows g → s.Ready g f (r.regs f.word) .vector →
    r.accept f.word = true → (s.cl g).vq = [] →
    let j := (s.begun g f .vector r.used).1
    let u := (s.begun g f .vector r.used).2
    (r.reserved u j = false → r.formatBad j = false → ∃ t, exec r.cmd s = .next t ∧
      t = (r.effect (u.modCl g fun c => { c with vq := [j] }) j).popVector g j ∧ VecFrame s t g f .vector) ∧
    (r.reserved u j = false → r.formatBad j = true → ∃ t, exec r.cmd s = .next t ∧ VecFrame s t g f .none ∧ t.mem = s.mem ∧
      (t.cl g).vregs = (s.cl g).vregs ∧ (t.cl g).wide = (s.cl g).wide ∧ (t.cl g).tile = (s.cl g).tile ∧
      t.get (Reg.seqViolcnt g) 15 0 = min 65535 (u.get (Reg.seqViolcnt g) 15 0 + 1)) ∧
    (r.reserved u j = true → ∃ t, exec r.cmd s = .next t ∧ t.FallsThrough g f ∧ s.TagGains t g (wTag f.word) ∧
      t.mem = s.mem ∧ Tab.find t.flights s.nextFlight = none ∧ (t.cl g).sregs = (s.cl g).sregs ∧
      (t.cl g).vregs = (s.cl g).vregs ∧ (t.cl g).wide = (s.cl g).wide ∧ (t.cl g).tile = (s.cl g).tile ∧
      (∀ h, h ≠ g → t.cl h = s.cl h) ∧
      t.get (Reg.seqViolcnt g) 15 0 = min 65535 (u.get (Reg.seqViolcnt g) 15 0 + 1))) ∧
  (∀ (s : State) (g : Nat) (f : Fetch), s.Ready g f (vchainRegs g f) .vector → opIs 0x40 f.word = true →
    (s.cl g).vq = [] → (s.cl g).vpos = 0 →
    let j := (s.begun g f .vector vchainUsed).1
    vchainReserved j = false → vchainFormatBad j = false → vcTiles f.word = 1 → (vcSrc f.word = 1 → (s.cl g).tray ≠ []) →
    ∃ t, exec (.vchain g) s = .next t ∧ VecFrame s t g f .vector ∧ (t.cl g).wide = (s.cl g).wide ∧
      (t.cl g).tray = (if vcSrc f.word = 1 then (s.cl g).tray.drop 1 else (s.cl g).tray) ∧
      (vcDst f.word ≠ 0 → (t.cl g).tile = (s.cl g).tile) ∧ (vcDst f.word ≠ 2 → (t.cl g).vregs = (s.cl g).vregs) ∧
      (vcDst f.word = 2 → t.mem = s.mem ∧
        ∀ a, a < 256 * vcOut f.word ∨ 256 * vcOut f.word + 4096 ≤ a → (t.cl g).vregs.read a = (s.cl g).vregs.read a)) ∧
  (∀ (s : State) (g : Nat) (f : Fetch), s.Ready g f [] .vector → opIs 0x41 f.word = true →
    (s.cl g).vq = [] → (s.cl g).vpos = 0 →
    let j := (s.begun g f .vector vredUsed).1
    vredReserved j = false → vredFormatBad j = false → vcTiles f.word = 1 → (vrSrc f.word = 1 → (s.cl g).tray ≠ []) →
    ∃ t, exec (.vred g) s = .next t ∧ VecFrame s t g f .vector ∧ t.mem = s.mem ∧ (t.cl g).wide = (s.cl g).wide ∧
      (t.cl g).tray = (if vrSrc f.word = 1 then (s.cl g).tray.drop 1 else (s.cl g).tray) ∧
      (vrToTile f.word = true → (t.cl g).vregs = (s.cl g).vregs) ∧
      (vrToTile f.word = false → (t.cl g).tile = (s.cl g).tile ∧
        ∀ a, a < 256 * vcOut f.word ∨ 256 * vcOut f.word + 256 ≤ a → (t.cl g).vregs.read a = (s.cl g).vregs.read a)) ∧
  (∀ (s : State) (g : Nat) (f : Fetch) (flips : List Flip), s.Ready g f (dataRegs true true false f.word) .vector →
    opIs 0x50 f.word = true → (s.cl g).vq = [] →
    let e := abEng f.word
    let n := abSlot f.word
    let u := (s.begun g f .vector ablkUsed).2
    let j := (u.readTable (s.begun g f .vector ablkUsed).1).1
    ablkReserved j = false → ablkFormatBad j = false → u.selected g f.n e ((s.cl g).vord.getD (s.cl g).ordinal) j.step = false →
    s.engState g (e + 1) ≠ 1 → (s.cl g).engineBefore e s.nextFlight = false →
    (s.cl g).engineBefore (e + 1) s.nextFlight = false →
    ∃ t, exec (.ablk ⟨g, flips⟩) s = .next t ∧ DeviceMemoryKept s t ∧ t.FallsThrough g f ∧ s.TagGains t g 0 ∧
      (t.cl g).sregs = (s.cl g).sregs ∧ (t.cl g).vregs = (s.cl g).vregs ∧ (t.cl g).vq = [] ∧
      (t.cl g).ordinal = (s.cl g).ordinal + b2n (s.cl g).vord.isNone ∧ (t.cl g).vord = none ∧ (∀ h, h ≠ g → t.cl h = s.cl h) ∧
      (abLast f.word = false → (t.cl g).tile = (s.cl g).tile) ∧
      (abLast f.word = true → ∀ a, n ≤ a / 4096 → a / 4096 < n + j.headDim / 64 → (t.cl g).wide.read a = 0) ∧
      (liveTop ((List.range 64).map (admissible j j.dx)) = 0 → abFirst f.word = false → abLast f.word = false →
        (t.cl g).wide = (s.cl g).wide) ∧
      ∀ a, a / 4096 < n ∨ n + j.headDim / 64 ≤ a / 4096 → (t.cl g).wide.read a = (s.cl g).wide.read a) ∧
  ∀ (s : State) (g : Nat) (j : Job), s.running = true → (s.cl g).vq = [j] → (s.cl g).vpos = 0 → j.g = g →
    wOp j.word = 0x40 ∧ vcSrc j.word = 1 ∧ vcTiles j.word = 1 ∨ wOp j.word = 0x41 ∧ vrSrc j.word = 1 ∧ vcTiles j.word = 1 →
    ((s.cl g).tray ≠ [] → ∃ t, exec (.trayPop g) s = .next t ∧ (t.cl g).tray = (s.cl g).tray.drop 1 ∧ (t.cl g).vq = [] ∧
      t.get (Reg.tryPopped g) 63 0 = (s.get (Reg.tryPopped g) 63 0 + 1) % 2 ^ 64 ∧
      (∀ fl, Tab.find s.flights j.flight = some fl → Tab.find t.flights j.flight = some { fl with ready := true }) ∧
      (t.cl g).sregs = (s.cl g).sregs ∧ ∀ h, h ≠ g → t.cl h = s.cl h) ∧
    ((s.cl g).tray = [] → exec (.trayPop g) s = .next s)

/-- Memory as the accesses of a context leave it, made by the unit that counts in `viol`: it has changed only behind translated
addresses of `vas`. -/
def KeptBut (s t : State) (viol c : Nat) (vas : Nat → Prop) : Prop :=
  WroteOnly s t c fun a => ∃ va, vas va ∧ s.vaAddr viol c true va = some a

/-- Results of single instructions on an idle vector engine, each with what it leaves alone. VSHUF writes the 256 lanes of
its destination register and no other lane, lane l from the lane that the pattern names (R204). RMASK writes 64 mask words,
row by row, zero from ROWS on (R120). A NORMSQ over a tensor that is not trainable adds nothing (R314). A close clears its
slot of lanes and no other (R315). UPDATE leaves a frozen or shared tensor alone, and counts that in VEC.FROZENCNT and
VEC.VIOLCNT (R306); it skips, and counts one in VEC.UPDSKIP, while the commit mark of the context does not name the record's
step, and where the clip record gives no factor (R318). FOLD leaves a frozen tensor alone (R312). SCALEUPD writes the record
of DA, as its read leaves the cache, and no other byte, and none where SCALEPTR is 0 (R152). HEALTH counts one in VEC.VIOLCNT
and does nothing else to memory while the table is off; otherwise it adds its tallies to one record of 64 bytes, its slot's
or, with BIN or where the slot is not the context's, which counts, the bin's, and changes no other byte (R153, R154). The
model's choices in it: work is done as the unit takes it (log 17), and corners of the chain, of UPDATE, NORMSQ, SCALEUPD and
HEALTH (logs 35, 42, 44, 45, 46, 114). -/
def Obligations.VectorResults : Prop :=
  ∀ (s : State) (g : Nat) (f : Fetch) (r : VecRow), r ∈ vecRows g → s.Ready g f (r.regs f.word) .vector →
    r.accept f.word = true → (s.cl g).vq = [] →
    let j := (s.begun g f .vector r.used).1
    let u := (s.begun g f .vector r.used).2
    r.reserved u j = false → r.formatBad j = false → ∃ t, exec r.cmd s = .next t ∧
      (r.cmd = .vshuf g → t.mem = s.mem ∧ (t.cl g).tile = (s.cl g).tile ∧ (t.cl g).wide = (s.cl g).wide ∧
        (∀ l, l < 256 → (t.cl g).vregs.read (256 * vcOut f.word + l) =
          (s.cl g).vregs.read (256 * vcIn f.word + (shufLane (vshufPat f.word) l).getD 0)) ∧
        ∀ a, a < 256 * vcOut f.word ∨ 256 * vcOut f.word + 256 ≤ a → (t.cl g).vregs.read a = (s.cl g).vregs.read a) ∧
      (r.cmd = .vdwc g → t.mem = s.mem ∧ (t.cl g).vregs = (s.cl g).vregs ∧ (t.cl g).wide = (s.cl g).wide ∧
        ∀ a, a < 256 * wTB f.word ∨ 256 * wTB f.word + 16384 ≤ a → (t.cl g).tile.read a = (s.cl g).tile.read a) ∧
      (r.cmd = .rmask g → t.mem = s.mem ∧ (t.cl g).vregs = (s.cl g).vregs ∧ (t.cl g).wide = (s.cl g).wide ∧
        (∀ k, k < 512 → 256 * wTB f.word + k < tileBytes → (t.cl g).tile.read (256 * wTB f.word + k) =
          BitVec.ofNat 8 (rmaskWord j (k / 8) / 256 ^ (k % 8))) ∧
        ∀ a, a < 256 * wTB f.word ∨ 256 * wTB f.word + 512 ≤ a → (t.cl g).tile.read a = (s.cl g).tile.read a) ∧
      (r.cmd = .update g ∨ r.cmd = .updsparse g → (t.cl g).tile = (s.cl g).tile ∧ (t.cl g).vregs = (s.cl g).vregs ∧
        (t.cl g).wide = (s.cl g).wide ∧
        let rd := (u.modCl g fun c => { c with vq := [j] }).load (Reg.vecViolcnt g) f.n (recordAt j) 64
        let sc := Sched.ofBytes j.kt5 rd.1
        (Desc.frozen j.da = true ∨ Desc.shared j.da = true → t.mem = s.mem ∧
          t.get (Reg.vecFrozencnt g) 31 0 = min 4294967295 (rd.2.get (Reg.vecFrozencnt g) 31 0 + 1) ∧
          t.get (Reg.vecUpdskip g) 31 0 = rd.2.get (Reg.vecUpdskip g) 31 0 ∧
          t.get (Reg.vecViolcnt g) 15 0 = min 65535 (rd.2.get (Reg.vecViolcnt g) 15 0 + 1)) ∧
        (Desc.frozen j.da = false → Desc.shared j.da = false →
          (s.ctx f.n).commit ≠ some sc.step ∨
            clipFactor j.kt5 (Desc.trainable j.da) (rd.2.load (Reg.vecViolcnt g) f.n j.sc 320).1 = none →
          t.mem = s.mem ∧ t.get (Reg.vecUpdskip g) 31 0 = min 4294967295 (rd.2.get (Reg.vecUpdskip g) 31 0 + 1) ∧
          t.get (Reg.vecFrozencnt g) 31 0 = rd.2.get (Reg.vecFrozencnt g) 31 0)) ∧
      (r.cmd = .normsq g → t.mem = s.mem ∧ (t.cl g).tile = (s.cl g).tile ∧ (t.cl g).vregs = (s.cl g).vregs ∧
        (Desc.trainable j.da = false → (t.cl g).wide = (s.cl g).wide) ∧
        ∀ a, a < 4096 * normSlot f.word ∨ 4096 * normSlot f.word + 4096 ≤ a →
          (t.cl g).wide.read a = (s.cl g).wide.read a) ∧
      (r.cmd = .normsqClose g → (Desc.frozen j.da = true → t.mem = s.mem) ∧ (t.cl g).tile = (s.cl g).tile ∧
        (t.cl g).vregs = (s.cl g).vregs ∧
        ∀ a, (t.cl g).wide.read a =
          if 4096 * normSlot f.word ≤ a ∧ a < 4096 * normSlot f.word + 4096 then 0 else (s.cl g).wide.read a) ∧
      (r.cmd = .fold g → (t.cl g).tile = (s.cl g).tile ∧ (t.cl g).vregs = (s.cl g).vregs ∧ (t.cl g).wide = (s.cl g).wide ∧
        (Desc.frozen j.da = true → t.mem = s.mem)) ∧
      (r.cmd = .scaleupd g → (t.cl g).tile = (s.cl g).tile ∧ (t.cl g).vregs = (s.cl g).vregs ∧
        (t.cl g).wide = (s.cl g).wide ∧ (Desc.scaleptr j.da = 0 → t.mem = s.mem) ∧
        let p := Desc.scaleptr j.da
        let bytes := scaleUpdate (Desc.fmt j.da) j.step ((List.range 128).map fun i => u.vaByte (Reg.vecViolcnt g) f.n (p + i))
        let v := (u.load (Reg.vecViolcnt g) f.n p 128).2
        KeptBut v t (Reg.vecViolcnt g) f.n (fun va => p ≤ va ∧ va < p + 128) ∧
        (p ≠ 0 → ∀ i a, i < 128 → v.vaAddr (Reg.vecViolcnt g) f.n true (p + i) = some a →
          (∀ k, k < 128 → k ≠ i → v.vaAddr (Reg.vecViolcnt g) f.n true (p + k) ≠ some a) →
          some (t.peek (u.accessKey f.n a) a) = bytes[i]?)) ∧
      (r.cmd = .health g → (t.cl g).tile = (s.cl g).tile ∧ (t.cl g).vregs = (s.cl g).vregs ∧
        (t.cl g).wide = (s.cl g).wide ∧
        (s.get Reg.cfgHlthbase 0 0 = 0 → t.mem = s.mem ∧
          t.get (Reg.vecViolcnt g) 15 0 = min 65535 (u.get (Reg.vecViolcnt g) 15 0 + 1)) ∧
        (s.get Reg.cfgHlthbase 0 0 = 1 →
          let q := u.modCl g fun c => { c with vq := [j] }
          let own := q.healthOwner f.n (fld j.fn 13 0)
          let a := q.healthAddr (if bit j.fn 15 || !own then healthBin else fld j.fn 13 0)
          let tl := q.readTile g f.n .tile (wTA f.word) (Format.span (Desc.fmt j.da) 64)
          let te := tl.2.tensorExp g f.n j.da
          let h := tally (Desc.fmt j.da) te.1 ((List.range 64).map (tileRow j.kt5 (Desc.fmt j.da) tl.1))
          WroteOnly s t 0 (fun x => a ≤ x ∧ x < a + 64) ∧
          (∀ k, k < 64 → s.mapped (a + k) = true → some (t.peek (s.accessKey 0 (a + k)) (a + k)) =
            (healthAdd (te.2.readPhys 0 a 64).1 (Desc.tensorid j.da) j.step h)[k]?) ∧
          t.get (Reg.vecViolcnt g) 15 0 =
            min 65535 (te.2.get (Reg.vecViolcnt g) 15 0 + b2n (!bit j.fn 15 && !own))))

/-! ### Number formats (04) -/

/-- The number that a finite value stands for. -/
def Fp.num : Fp → ℚ
  | .fin n m e => (if n then -1 else 1) * (m : ℚ) * (2 : ℚ) ^ e
  | _ => 0

/-- Every code of a format without block scale that is not one of its non-finite codes survives reading and writing, in every
rounding mode, and counts nothing (R129, R136, R146): no bit of a code is dropped. The packed elements of a block unit read
back as they were packed (R140). The rounding to nearest of every wide format (R133, R145, R172): a result that does not
saturate is finite, lies on the format's grid, and is at least as near as every number of the grid, the even significand
winning a tie; a saturation means that the value lies above the largest finite magnitude, and gives that magnitude, or an
infinity in binary64. -/
def Obligations.ElementCodes : Prop :=
  (∀ (f c : Nat) (mode : Rnd), f < 9 → c < 2 ^ Format.bits f → (decodeElem false f c).2 = false →
    encodeElem false f mode (decodeElem false f c).1 = ⟨c, Cnt.none⟩) ∧
  (∀ (w : Nat) (codes : List Nat) (i : Nat), w = 4 ∨ w = 6 ∨ w = 8 → codes.length = 32 → i < 32 →
    unpackElem w (leBytes (4 * w) (packElems w codes)) i = codes.getD i 0 % 2 ^ w) ∧
  ∀ (f : Fmt), f ∈ [Fmt.fp32, Fmt.bf16, Fmt.fp16, Fmt.fp64] → ∀ (n : Bool) (m : Nat) (e : Int),
    let x : Fp := .fin n m e
    let r := Fp.rnd f x
    (r.2 = false → ∃ k q, r.1 = .fin n k q ∧ k ≤ 2 ^ f.prec ∧ (k = 0 ∨ f.qmin ≤ q) ∧
      ∀ (b : Bool) (i : Nat) (p : Int), i < 2 ^ f.prec → f.qmin ≤ p →
        |Fp.num r.1 - Fp.num x| ≤ |Fp.num (.fin b i p) - Fp.num x| ∧
        (p = q → |Fp.num r.1 - Fp.num x| = |Fp.num (.fin b i p) - Fp.num x| → Fp.num (.fin b i p) ≠ Fp.num r.1 → k % 2 = 0)) ∧
    (r.2 = true → (2 ^ f.prec - 1 : ℚ) * 2 ^ f.qmax < |Fp.num x| ∧
      r.1 = if f.ieee then .inf n else Fp.largest f n)


/-! ### The activation ledger (08, R253–R274) -/

/-- The instructions of the ledger with the operand bits that they use and the kind of operation. -/
def ledgerRows (g : Nat) (flips : List Flip) : List (Instr × Nat × Nat) :=
  [(.lpark g, 0x20, ledgerUsed), (.lfetch g flips, 0x21, ledgerUsed), (.ldrop g, 0x22, ledgerUsed),
   (.lpin g flips, 0x23, ledgerUsed + mXT 0 0)]

/-- What the four instructions of the ledger leave as it was; every one of them here has finished. -/
structure LedgerFrame (s t : State) (g : Nat) (f : Fetch) : Prop where
  next : t.FallsThrough g f
  tags : s.TagGains t g 0
  sregs : (t.cl g).sregs = (s.cl g).sregs
  tile : (t.cl g).tile = (s.cl g).tile
  vregs : (t.cl g).vregs = (s.cl g).vregs
  others : ∀ h, h ≠ g → t.cl h = s.cl h
  flight : ∃ fl, Tab.find t.flights s.nextFlight = some fl ∧ fl.ready = true ∧ fl.tag = wTag f.word

/-- An instruction of one page, with a ledger descriptor whose BASE is a multiple of a page, that the pool `k` serves, and no
earlier operation that waits in it. -/
def OnePage (u : State) (j : Job) (k : Nat) : Prop :=
  j.fn = 1 ∧ fmtOk j.kt5 (Desc.fmt j.da) = true ∧ Desc.ledger j.da = true ∧ Desc.shared j.da = false ∧
    Desc.base j.da % pageBytes = 0 ∧ j.sa < 2 ^ 32 ∧ u.servingPool j.ctx (Desc.tensorid j.da) j.sa = some k ∧ (u.pool k).ops = []

/-- Does a fetch of the record decode a copy whose CRC does not agree (R267)? -/
def broken (s : State) (k : Nat) (r : PageRec) : Bool :=
  (r.move.bind (·.page)).isNone && r.state != 0 && r.state != 1 && r.state != 5 && !s.crcOk k r

/-- The content that a record holds for a fetch: that of an unfinished placement, what its frame holds, or what its coded copy
decodes to, if its CRC agrees (R259–R261, R267). -/
def held (s : State) (k : Nat) (r : PageRec) : Option (Nat → Byte) :=
  match r.move.bind (·.page) with
  | some pg => some pg.read
  | none =>
    if r.state = 0 ∨ r.state = 5 ∨ broken s k r = true then none
    else some fun b => (s.pageBytesOf k r).getD b 0

/-- The instructions of the ledger on one page (R113, R254–R262, R294). A tensor that is not the ledger's is left alone and
counts once, and so is one with no pool, whose LFETCH of a page writes zeros to its home and changes no other byte of memory.
LPARK with action DROP makes the key's record GONE; with the codec off and room in the first tier of its policy it starts a
placement that carries the page's bytes. LFETCH writes what the record holds to the page's home, byte for byte, or zeros with
MISS counted where there is nothing or its decode fails the CRC, and no other byte of memory (an event's own interrupt
apart); it leaves the pools as they are. LDROP makes a listed record GONE, one that moves among them (R276). LPIN 0 clears
PIN, and LPIN 1 sets it on a FRAMES record. A move that completes gives the record its new state and storage, with the move's
own content where it carries one, and else with what the record held; a page that comes to a frame stands in the frame
region, and no byte outside its new storage changes; the instruction that waited for the move is then done with the page
(R259, R260, R262). A decode of an LPIN that fails its CRC leaves the record where it was, pinned (R267). The operations that
wait in a pool are tried again, and an LFETCH is then done; with none waiting nothing happens. The model's choices in it:
work is done as the unit takes it (log 17), the bytes of a pool's regions, how many chunks a copy takes and what a changed
one decodes to, the order of its operations and the range of an ordinal (logs 47, 48, 49), and the stack that counts for a
context without pools (log 96). -/
def Obligations.Ledger : Prop :=
  ((∀ (s : State) (g : Nat) (f : Fetch) (flips : List Flip) (c : Instr) (op used : Nat),
    (c, op, used) ∈ ledgerRows g flips → s.Ready g f (dataRegs true false false f.word) .ledger → opIs op f.word = true →
    let j := (s.begun g f .ledger used).1
    let u := (s.begun g f .ledger used).2
    j.fn ≠ 0 → fmtOk j.kt5 (Desc.fmt j.da) = true →
    (Desc.ledger j.da = false → ∃ t, exec c s = .next t ∧ LedgerFrame s t g f ∧ t.mem = s.mem ∧ t.pools = s.pools ∧
      t.get (Reg.seqViolcnt g) 15 0 = min 65535 (u.get (Reg.seqViolcnt g) 15 0 + 1)) ∧
    (Desc.ledger j.da = true → Desc.shared j.da = false → (op = 0x21 → Desc.frozen j.da = false) →
      u.servingPool j.ctx (Desc.tensorid j.da) j.sa = none → ∃ t, exec c s = .next t ∧ LedgerFrame s t g f ∧ t.pools = s.pools ∧
      t.get (Reg.seqViolcnt g) 15 0 = min 65535 (u.get (Reg.seqViolcnt g) 15 0 + 1) ∧
      (op ≠ 0x21 → t.mem = s.mem) ∧
      (op = 0x21 → j.fn = 1 → j.sa < 2 ^ 32 →
        let viol := Reg.ldgViolcnt (u.countStack j)
        let home := pageHome j j.sa
        KeptBut u t viol f.n (fun va => home ≤ va ∧ va < home + pageBytes) ∧
        ∀ b a, b < pageBytes → u.vaAddr viol f.n true (home + b) = some a → t.peek (u.accessKey f.n a) a = 0))) ∧
  (∀ (s : State) (g k : Nat) (f : Fetch), s.Ready g f (dataRegs true false false f.word) .ledger → opIs 0x20 f.word = true →
    let j := (s.begun g f .ledger ledgerUsed).1
    let u := (s.begun g f .ledger ledgerUsed).2
    let home := pageHome j j.sa
    OnePage u j k → ∀ (i : Nat) (r : PageRec) (p : Pool),
      (u.pool k).takeRec (u.poolSize k) (Desc.tensorid j.da) j.sa = some (i, r, p) → r.move = none →
      let act := polAction (u.policy k f.n (Desc.tensorid j.da)).1
      (act = 4 → u.poolKv k = false → ∃ t q, exec (.lpark g) s = .next t ∧ LedgerFrame s t g f ∧ t.mem = s.mem ∧
        Tab.find (t.pool k).recs i = some q ∧ q.state = 5 ∧ q.slots = [] ∧ q.pin = false ∧ q.page = [] ∧ q.move = none ∧
        q.tid = r.tid ∧ q.ord = r.ord ∧ ∀ i', i' ≠ i → Tab.find (t.pool k).recs i' = Tab.find p.recs i') ∧
      (act < 4 → u.poolCodec k = 0 → (p.setRec i r).room (u.tierSize k) (act + 1) = true →
        ∃ t q m pg, exec (.lpark g) s = .next t ∧ LedgerFrame s t g f ∧ t.mem = s.mem ∧
          Tab.find (t.pool k).recs i = some q ∧ q.state = r.state ∧ q.page = r.page ∧ q.move = some m ∧ m.target = act + 1 ∧
          m.page = some pg ∧ (∀ b, b < pageBytes → pg.read b = u.vaByte (Reg.ldgViolcnt (poolStack k)) f.n (home + b)) ∧
          ∀ i', i' ≠ i → Tab.find (t.pool k).recs i' = Tab.find p.recs i')) ∧
  (∀ (s : State) (g k : Nat) (f : Fetch), s.Ready g f (dataRegs true false false f.word) .ledger → opIs 0x21 f.word = true →
    let j := (s.begun g f .ledger ledgerUsed).1
    let u := (s.begun g f .ledger ledgerUsed).2
    let home := pageHome j j.sa
    OnePage u j k → Desc.frozen j.da = false →
      let viol := Reg.ldgViolcnt (poolStack k)
      let pg := ((u.pool k).findKey (Desc.tensorid j.da) j.sa).bind fun r => held u k r.2
      (∀ x, (u.pool k).findKey (Desc.tensorid j.da) j.sa = some x → x.2.move.bind (·.flight) ≠ some s.nextFlight) →
      let bad := ((u.pool k).findKey (Desc.tensorid j.da) j.sa).any fun r => broken u k r.2
      ∃ t, exec (.lfetch g []) s = .next t ∧ LedgerFrame s t g f ∧ t.pool k = u.pool k ∧
        (bad = true → t.get (Reg.cdcCrcerr (poolStack k)) 31 0 = min (2 ^ 32 - 1) (u.get (Reg.cdcCrcerr (poolStack k)) 31 0 + 1)) ∧
        (bad = false ∨ u.get Reg.hifIrqctl 31 31 = 0 → KeptBut u t viol f.n (fun va => home ≤ va ∧ va < home + pageBytes)) ∧
        (bad = false ∨ u.get Reg.hifIrqctl 31 31 = 0 → ∀ b a, b < pageBytes → u.vaAddr viol f.n true (home + b) = some a →
          (∀ c, c < pageBytes → c ≠ b → u.vaAddr viol f.n true (home + c) ≠ some a) →
          t.peek (u.accessKey f.n a) a = match pg with
            | some x => x b
            | none => 0) ∧
        (pg = none → t.get (poolReg Reg.ldgMiss k) 31 0 = min (2 ^ 32 - 1) (u.get (poolReg Reg.ldgMiss k) 31 0 + 1))) ∧
  (∀ (s : State) (g k : Nat) (f : Fetch), s.Ready g f (dataRegs true false false f.word) .ledger → opIs 0x22 f.word = true →
    let j := (s.begun g f .ledger ledgerUsed).1
    let u := (s.begun g f .ledger ledgerUsed).2
    OnePage u j k → ∀ (i : Nat) (r : PageRec), (u.pool k).findKey (Desc.tensorid j.da) j.sa = some (i, r) →
      ¬ (r.state = 5 ∧ r.move = none) → ∃ t q, exec (.ldrop g) s = .next t ∧ LedgerFrame s t g f ∧ t.mem = s.mem ∧
        Tab.find (t.pool k).recs i = some q ∧ q.state = 5 ∧ q.slots = [] ∧ q.pin = false ∧ q.page = [] ∧ q.move = none ∧
        ∀ i', i' ≠ i → Tab.find (t.pool k).recs i' = Tab.find (u.pool k).recs i') ∧
  ∀ (s : State) (g k : Nat) (f : Fetch), s.Ready g f (dataRegs true false false f.word) .ledger → opIs 0x23 f.word = true →
    let j := (s.begun g f .ledger (ledgerUsed + mXT 0 0)).1
    let u := (s.begun g f .ledger (ledgerUsed + mXT 0 0)).2
    OnePage u j k → ∀ (i : Nat) (r : PageRec), (u.pool k).findKey (Desc.tensorid j.da) j.sa = some (i, r) → r.state ≠ 0 →
      r.state ≠ 5 → r.move = none →
      (bit j.xt 0 = true → r.state = 1) →
      ∃ t, exec (.lpin g []) s = .next t ∧ LedgerFrame s t g f ∧ t.mem = s.mem ∧
        Tab.find (t.pool k).recs i = some { r with pin := bit j.xt 0 } ∧
        ∀ i', i' ≠ i → Tab.find (t.pool k).recs i' = Tab.find (u.pool k).recs i') ∧
  (∀ (s : State) (k i : Nat) (r : PageRec) (m : PageMove), s.running = true → Tab.find (s.pool k).recs i = some r →
    r.move = some m → ∃ t q, exec (.ledgerMoveComplete k ⟨i, []⟩) s = .next t ∧ Tab.find (t.pool k).recs i = some q ∧
      q.tid = r.tid ∧ q.ord = r.ord ∧ q.move = none ∧
      let bad := m.flight.isSome && (m.fails || !s.crcOk k r)
      (bad = true → q = { r with pin := true, move := none } ∧ DeviceMemoryKept s t ∧
        t.get (Reg.cdcCrcerr (poolStack k)) 31 0 = min (2 ^ 32 - 1) (s.get (Reg.cdcCrcerr (poolStack k)) 31 0 + 1)) ∧
      (bad = false → t.cls = s.cls ∧ q.state = m.target ∧ q.pin = m.pin.getD r.pin ∧ q.since = (s.pool k).clock ∧
        let old := s.pageBytesOf k r
        (∀ pg, m.page = some pg → q.slots = m.slots.take m.held) ∧ (m.page = none → m.target = 1 → q.slots = m.slots.take 1) ∧
        (m.target ≠ 1 → (∀ pg, m.page = some pg → q.page = pg ∧ q.raw = m.raw ∧ q.crc = crcOf pg) ∧
          (m.page = none → r.state = 1 → (∀ b, b < pageBytes → q.page.read b = old.getD b 0) ∧
            q.slots = m.slots.take (s.coding k r (Memory.ofList 0 old)).1.held) ∧
          (m.page = none → r.state ≠ 1 → q.slots = m.slots.take r.slots.length ∧ q.crc = r.crc ∧
            (r.raw = true ∨ s.intact k r = true → q.raw = r.raw ∧ ∀ b, b < old.length → q.page.read b = old.getD b 0))) ∧
        (∀ x rest, m.target = 1 → q.slots = x :: rest → (∀ b, b < pageBytes → s.mapped (s.slotAt k 1 x + b) = true) →
          ∀ b, b < pageBytes → (t.frame k q.slots).getD b 0 = (m.page.map (·.read b)).getD (old.getD b 0)) ∧
        WroteOnly s t (s.poolOwner k) (fun a => ∃ x ∈ q.slots, s.slotAt k m.target x ≤ a ∧
          a < s.slotAt k m.target x + if m.target = 1 then pageBytes else 4096)) ∧
      (∀ i', i' ≠ i → Tab.find (t.pool k).recs i' = Tab.find (s.pool k).recs i') ∧ (∀ k', k' ≠ k → t.pool k' = s.pool k') ∧
      (m.flight = none → t.flights = s.flights) ∧
      ∀ f fl, m.flight = some f → Tab.find s.pagesLeft f = some 1 → Tab.find s.flights f = some fl →
        Tab.find t.flights f = some { fl with ready := true }) ∧
  ∀ (s : State) (k : Nat), s.running = true →
    ((s.pool k).ops = [] → exec (.ledgerWaitRelease k) s = .next s) ∧
    ∀ o fl, (s.pool k).ops = [o] → o.ctx < 4096 → o.kind = 1 → o.bad = false → Tab.find s.pagesLeft o.flight = some 1 →
      (∀ x, (s.pool k).findKey o.tid o.ord = some x → x.2.move.bind (·.flight) ≠ some o.flight ∧ broken s k x.2 = false) →
      Tab.find s.flights o.flight = some fl → ∃ t, exec (.ledgerWaitRelease k) s = .next t ∧ (t.pool k).ops = [] ∧
        (t.pool k).recs = (s.pool k).recs ∧ Tab.find t.flights o.flight = some { fl with ready := true } ∧
        KeptBut s t (Reg.ldgViolcnt (poolStack k)) o.ctx (fun va => o.home ≤ va ∧ va < o.home + pageBytes)

/-! ### Pools, shared granules, translation caches, shares and recalibration (08, 10) -/

/-- The owner that a write of `v` to LDG.PCTL(k) leads to: the code 0 is reserved and leaves OWNER (R17, R275). -/
def ownerAfter (s : State) (k v : Nat) : Nat := if fld v 59 48 = 0 then s.poolOwner k else fld v 59 48

/-- Does R274 accept a write of `v` that enables pool `k`? -/
def poolAccepted (s : State) (k v : Nat) : Prop :=
  1 ≤ fld v 20 0 ∧ fld v 20 0 ≤ 1048576 ∧ fld v 62 61 ≠ 3 ∧ ownerAfter s k v ≠ 0 ∧
    liveState (s.cstate (ownerAfter s k v)) = false ∧ ∀ t, t < 4 → s.regionOk k (t + 1) = true

/-- EN of a pool: a write that R274 accepts enables it with every record FREE and its statistics at zero, a change of CODEC
apart while the owner is cocooned (R263); any other leaves it off and counts; a write of 0 takes effect while its owner is
FREE or BOUND and empties the pool, and otherwise counts and leaves it as it is (R263, R274). The services of the memory
system. TLBINV discards every cached entry of one context and completes with OK (R283). SHATTACH and SHDETACH complete with
the status of R291 and change no table and no map unless it is OK; a SHATTACH of one new granule makes an entry that attaches
its context and no other, and a SHDETACH of one granule takes its context out (R290–R292). SHBASE is written while the
stack's table is empty (R302). A share above 400h is refused by itself (R299). NOW opens a window for the next group, three
more follow, and while a window is open it is discarded; PERIOD and DRIFT open one window, and that of DRIFT leaves the
rotation as it is; each end counts one and opens the next of a NOW (R300, R301). The model's choices in it: a new map of
contexts is zero (log 50), and the rotation of the windows of NOW (log 51). -/
def Obligations.PoolsAndMemoryServices : Prop :=
  (∀ (s : State) (k v : Nat), s.Up → k < 1536 →
    let r := poolReg Reg.ldgPctl k
    (fld (s.pctl k) 63 63 = 0 → bit v 63 = true → poolAccepted s k v → ∃ t, exec (.poolEnable .host k v) s = .next t ∧
      fld (t.pctl k) 63 63 = 1 ∧ t.poolOwner k = ownerAfter s k v ∧ t.poolSize k = fld v 20 0 ∧
      t.poolCodec k = (if s.cstate (ownerAfter s k v) = stCocooned then s.poolCodec k else fld v 62 61) ∧
      t.poolKv k = bit v 60 ∧ t.pool k = .blank ∧ t.reg (poolReg Reg.ldgMiss k) = 0 ∧ t.reg (poolReg Reg.ldgRawbytes k) = 0 ∧
      t.reg (poolReg Reg.ldgDemotes k) = 0 ∧ (∀ k', k' ≠ k → t.pool k' = s.pool k') ∧ t.mem = s.mem ∧ t.cls = s.cls) ∧
    (fld (s.pctl k) 63 63 = 0 → bit v 63 = true → ¬ poolAccepted s k v → ∃ t, exec (.poolEnable .host k v) s = .next t ∧
      t.pctl k = s.pctl k ∧ s.OnlyRegs (· == Reg.ldgViolcnt (poolStack k)) t ∧
      (s.get (Reg.ldgViolcnt (poolStack k)) 15 0 < t.get (Reg.ldgViolcnt (poolStack k)) 15 0 ∨
        t.get (Reg.ldgViolcnt (poolStack k)) 15 0 = 65535)) ∧
    (fld (s.pctl k) 63 63 = 1 → bit v 63 = false →
      (s.cstate (s.poolOwner k) = stFree ∨ s.cstate (s.poolOwner k) = stBound → ∃ t, exec (.poolDisable .host k v) s = .next t ∧
        fld (t.pctl k) 63 63 = 0 ∧ t.pool k = .blank ∧ (∀ k', k' ≠ k → t.pool k' = s.pool k') ∧ t.mem = s.mem ∧
        ∀ off, off ≠ r → off ≠ Reg.ldgViolcnt (poolStack k) → t.reg off = s.reg off) ∧
      (s.cstate (s.poolOwner k) ≠ stFree → s.cstate (s.poolOwner k) ≠ stBound → ∃ t, exec (.poolDisable .host k v) s = .next t ∧
        t.pctl k = s.pctl k ∧ s.OnlyRegs (· == Reg.ldgViolcnt (poolStack k)) t ∧
        (s.get (Reg.ldgViolcnt (poolStack k)) 15 0 < t.get (Reg.ldgViolcnt (poolStack k)) 15 0 ∨
          t.get (Reg.ldgViolcnt (poolStack k)) 15 0 = 65535)))) ∧
  (∀ (s u : State) (q : Nat) (c : Cmd), q < 8 → s.fetchCmd q (· == 0x90) = some (c, u) →
    ∃ t : State, exec (.tlbinv q) s = .next (t.completeCmd c stOk) ∧ (∀ viol, t.cached viol (fld c.arg0 11 0) = []) ∧
      (∀ viol m, m < 4096 → m ≠ fld c.arg0 11 0 → t.cached viol m = u.cached viol m) ∧ { t with caches := u.caches } = u) ∧
  (∀ (s u : State) (q : Nat) (c : Cmd), q < 8 → s.fetchCmd q (· == 0x91) = some (c, u) →
    let gran := fld c.arg1 51 21 * granBytes
    ∃ t : State, exec (.shattach q) s = .next (t.completeCmd c (u.attachStatus c)) ∧ t.cls = u.cls ∧
      (∀ off, off ≠ Reg.ldgViolcnt (cmdStack c) → t.reg off = u.reg off) ∧
      (u.attachStatus c ≠ stOk → { t with regs := u.regs } = u) ∧
      (u.attachStatus c = stOk → fld c.arg2 15 0 = 1 → u.sharedIndex (cmdStack c) gran = none →
        (∀ b, b < 512 → u.mapped (u.mapAddr (cmdStack c) (u.freeShared (cmdStack c)) + b) = true) →
        ∀ n, n < 4096 → t.attached n gran = decide (n = fld c.arg0 11 0))) ∧
  (∀ (s u : State) (q : Nat) (c : Cmd), q < 8 → s.fetchCmd q (· == 0x92) = some (c, u) →
    let gran := fld c.arg1 51 21 * granBytes
    ∃ t : State, exec (.shdetach q) s = .next (t.completeCmd c (u.detachStatus c)) ∧ t.cls = u.cls ∧
      (∀ off, off ≠ Reg.ldgViolcnt (cmdStack c) → t.reg off = u.reg off) ∧
      (u.detachStatus c ≠ stOk → { t with regs := u.regs } = u) ∧
      (u.detachStatus c = stOk → fld c.arg2 15 0 = 1 → (∀ i, u.sharedIndex (cmdStack c) gran = some i →
        ∀ e ∈ Tab.getD [] u.shared (cmdStack c), e.2.gran = gran → e.1 = i) → t.attached (fld c.arg0 11 0) gran = false)) ∧
  (∀ (s : State) (t v : Nat), s.Up → t < 12 → ∃ u, exec (.shbaseWrite .host t v) s = .next u ∧
    s.OnlyRegs (fun o => o == Reg.ldgShbase t || o == Reg.ldgViolcnt t) u ∧
    (Tab.getD [] s.shared t = [] → u.get (Reg.ldgShbase t) 51 21 = fld v 51 21) ∧
    (Tab.getD [] s.shared t ≠ [] → u.reg (Reg.ldgShbase t) = s.reg (Reg.ldgShbase t))) ∧
  (∀ (s : State) (p v : Nat), s.Up → p < 64 → ∃ t, exec (.bwshareWrite .host p v) s = .next t ∧
    s.OnlyRegs (fun o => o == Reg.hbmBwshare p || o == Reg.hbmViolcnt) t ∧
    ∀ lo hi, (lo, hi) ∈ [(0, 10), (16, 26), (32, 42)] → t.get (Reg.hbmBwshare p) hi lo =
      if fld v hi lo ≤ 0x400 then fld v hi lo else s.get (Reg.hbmBwshare p) hi lo) ∧
  (∀ (s : State) (k v : Nat), s.Up → k < 12 → bit v 31 = true →
    ∃ t, exec (.recalNow .host k v) s = .next t ∧ t.mem = s.mem ∧ t.get (Reg.hbmRecal k) 30 30 = 1 ∧
      (∀ k', k' ≠ k → t.recalOf k' = s.recalOf k') ∧
      t.recalOf k = (if s.get (Reg.hbmRecal k) 30 30 = 1 then s.recalOf k
        else ⟨some (s.recalOf k).next, 3, ((s.recalOf k).next + 1) % 4⟩)) ∧
  ∀ (s : State) (k group : Nat), s.running = true → k < 12 →
    (s.get (Reg.hbmRecal k) 30 30 = 0 → s.get (Reg.hbmRecal k) 15 0 ≠ 0 → ∃ t, exec (.recalPeriodic k) s = .next t ∧
      t.recalOf k = ⟨some (s.recalOf k).next, 0, ((s.recalOf k).next + 1) % 4⟩ ∧ t.get (Reg.hbmRecal k) 30 30 = 1 ∧
      { t with regs := s.regs, recal := s.recal } = s) ∧
    (s.get (Reg.hbmRecal k) 30 30 = 1 → exec (.recalPeriodic k) s = .next s ∧ exec (.recalDrift k group) s = .next s) ∧
    (s.get (Reg.hbmRecal k) 30 30 = 0 → s.get (Reg.hbmRecal k) 29 29 = 1 → ∃ t, exec (.recalDrift k group) s = .next t ∧
      t.recalOf k = ⟨some group, 0, (s.recalOf k).next⟩ ∧ t.get (Reg.hbmRecal k) 30 30 = 1 ∧
      { t with regs := s.regs, recal := s.recal } = s) ∧
    (∀ x, (s.recalOf k).group = some x → ∃ t, exec (.recalWindowEnd k) s = .next t ∧
      t.get (Reg.hbmRecalcnt k) 31 0 = (s.get (Reg.hbmRecalcnt k) 31 0 + 1) % 2 ^ 32 ∧
      { t with regs := s.regs, recal := s.recal } = s ∧
      ((s.recalOf k).left = 0 → (t.recalOf k).group = none ∧ t.get (Reg.hbmRecal k) 30 30 = 0) ∧
      ((s.recalOf k).left ≠ 0 → (t.recalOf k).group = some (s.recalOf k).next ∧
        (t.recalOf k).left = (s.recalOf k).left - 1 ∧ t.get (Reg.hbmRecal k) 30 30 = 1))

/-- The audits and event queues that a read latches or pops (R271, R302, R370, R371, R372, R398, R426, R444): the answer is the
first word of what is latched, the further words are in their registers, and nothing else of the device changes. An empty
event queue answers zero; any other gives its oldest record and loses it. The model's choices in it: the answer stands in
resp (log 9), and what the management port reads of a latched audit (log 76). -/
def Obligations.AuditsAndEvents : Prop :=
  ∀ (s : State), s.Up →
    (∀ k, k < 1536 → ∃ t, exec (.poolaudLatch .host k) s = .next t ∧ t.resp = [(s.poolAudit k).getD 0 0 % 2 ^ 64] ∧
      t.reg (poolReg Reg.ldgPoolaud1 k) = (s.poolAudit k).getD 1 0 % 2 ^ 64 ∧
      t.reg (poolReg Reg.ldgPoolaud2 k) = (s.poolAudit k).getD 2 0 % 2 ^ 64 ∧
      t.reg (poolReg Reg.ldgPoolaud3 k) = (s.poolAudit k).getD 3 0 % 2 ^ 64 ∧ { t with regs := s.regs, resp := s.resp } = s) ∧
    (∀ k, k < 12 → ∃ t, exec (.shraudLatch .host k) s = .next t ∧ { t with regs := s.regs, resp := s.resp } = s ∧
      let i := s.get (Reg.ldgShraud k) 13 0
      (Tab.find (Tab.getD [] s.shared k) i = none → t.resp = [2 ^ 63 + i] ∧ t.reg (Reg.ldgShgran k) = 0) ∧
      ∀ e, Tab.find (Tab.getD [] s.shared k) i = some e → t.reg (Reg.ldgShgran k) = e.gran % 2 ^ 64 ∧
        t.get (Reg.ldgShraud k) 63 63 = b2n (e.count.toNat == s.mapCount k i % 4096) ∧ t.get (Reg.ldgShraud k) 62 62 = 1) ∧
    (∃ t, exec (.tokaudLatch .host) s = .next t ∧ t.resp = [s.liveAudit % 2 ^ 64] ∧
      t.reg Reg.pwrTokepoch = s.pwr.epoch % 2 ^ 64 ∧ { t with regs := s.regs, resp := s.resp } = s) ∧
    (∀ m l, m < 32 → l < 4 → ∃ t, exec (.credaudLatch .host m l) s = .next t ∧
      s.OnlyRegs (· == Reg.mdlCredaud m l) { t with resp := s.resp } ∧ t.resp = [s.creditAudit m l % 2 ^ 64] ∧
      (s.linkUp m = true → (t.get (Reg.mdlCredaud m l) 63 63 = 1 ↔
        ((s.port m).lane l).issued = ((s.port m).lane l).held + ((s.port m).lane l).inflight))) ∧
    (∃ t, exec (.baraudLatch .host) s = .next t ∧ s.OnlyRegs (· == Reg.stpBaraud) { t with resp := s.resp } ∧
      t.resp = [t.reg Reg.stpBaraud] ∧ t.get Reg.stpBaraud 20 14 = s.stp.granted % 128 ∧
      t.get Reg.stpBaraud 13 7 = s.stp.consumed % 128 ∧ t.get Reg.stpBaraud 55 40 = s.stp.audGen % 65536) ∧
    (∃ t, exec (.contribLatch .host) s = .next t ∧ t.resp = [t.reg Reg.colContrib0] ∧
      t.get Reg.colContrib0 12 0 = s.stp.contrib.2.2.1 % 2 ^ 13 ∧ { t with regs := s.regs, resp := s.resp } = s) ∧
    (∃ t, exec (.chkEventPop .host) s = .next t ∧ { t with regs := s.regs, resp := s.resp, chk := s.chk } = s ∧
      t.chk.events = s.chk.events.drop 1 ∧ (s.chk.events = [] → t.resp = [0]) ∧
      ∀ e rest, s.chk.events = e :: rest → t.get Reg.chkEvent0 63 56 = e.status % 256 ∧
        t.get Reg.chkEvent0 55 52 = e.source % 16 ∧ t.get Reg.chkEvent0 51 48 = e.unit % 16 ∧
        t.get Reg.chkEvent0 47 0 = e.step % 2 ^ 48 ∧ t.get Reg.chkEvent1 57 57 = b2n e.fault ∧
        t.get Reg.chkEvent1 51 0 = e.addr % 2 ^ 52 ∧ t.resp = [t.reg Reg.chkEvent0]) ∧
    ∃ t, exec (.senEventPop .host) s = .next t ∧ { t with regs := s.regs, resp := s.resp, sen := s.sen } = s ∧
      t.sen.events = s.sen.events.drop 1 ∧ (s.sen.events = [] → t.resp = [0]) ∧
      ∀ e rest, s.sen.events = e :: rest → t.resp = [e.word % 2 ^ 64]


/-! ### Mladord Link (11, R336–R346) -/

/-- A write of MDL.PCTL(m) that would make a fifth store port (R336). -/
def fifthStore (s : State) (m v : Nat) : Bool :=
  !s.locked && bit v 30 && !s.isStore m && decide (4 ≤ ((List.range 32).filter fun k => s.isStore k).length)

/-- The flow units and timers of a port, and the writes of PCTL (R336–R343, R370). A write that would make a fifth store port
is discarded whole and counts. Otherwise ENABLE starts training on a DOWN port, and its clearing takes the port DOWN with
empty buffers; STORE follows its bit while the configuration is not locked. Training that has ended sends the port's own init
flow unit, with its device ID and grants (R338, R340); it and the partner's init flow unit bring the port UP with the
partner's grants as its credits. A flow unit that is sent spends a credit and stays, whole, in the replay buffer; a training
that fails, silence and an init flow unit on an UP port take it DOWN. A replay that times out resends and counts. A data flow
unit in sequence is accepted; one whose CRC fails is counted and asks for a NAK; a repeated one is dropped, whether or not
its CRC holds. Acknowledgements empty the replay buffer and returns become credits; more returns than credits in flight reset
the port. A reserved KIND is counted. The model's choices in it: what counts as malformed and what resets a port (logs 57,
58). -/
def Obligations.LinkPorts : Prop :=
  (∀ (s : State) (m v : Nat), s.Up → m < 32 →
    (fifthStore s m v = true → ∃ t, exec (.portEnable .host m v) s = .next t ∧ exec (.portDisable .host m v) s = .next t ∧
      exec (.storePortSelect .host m v) s = .next t ∧ s.OnlyRegs (· == Reg.mdlViolcnt) t ∧
      t.get Reg.mdlViolcnt 15 0 = min 65535 (s.get Reg.mdlViolcnt 15 0 + 1)) ∧
    (fifthStore s m v = false → bit v 31 = true → ∃ t, exec (.portEnable .host m v) s = .next t ∧ t.portOn m = true ∧ t.mem = s.mem ∧ t.cls = s.cls ∧
      (s.linkState m = 0 → t.linkState m = 1 ∧ t.port m = .blank) ∧
      (s.linkState m ≠ 0 → t.linkState m = s.linkState m ∧ t.port m = s.port m)) ∧
    (fifthStore s m v = false → bit v 31 = false → ∃ t, exec (.portDisable .host m v) s = .next t ∧ t.portOn m = false ∧ t.linkState m = 0 ∧
      t.port m = .blank) ∧
    (fifthStore s m v = false → ∃ t, exec (.storePortSelect .host m v) s = .next t ∧
      t.isStore m = if s.locked then s.isStore m else bit v 30)) ∧
  (∀ (s : State) (m : Nat), m < 32 → let fu := s.initFu m
    fuValid fu = true ∧ fuKind fu = 2 ∧ leAt fu 4 2 % 4096 = s.devid ∧ leAt fu 8 8 = s.reg (Reg.mdlPgrant m)) ∧
  (∀ (p : Port) (v : Nat) (f : Fu) (rest : List Fu), v < 4 → p.seq < 2 ^ 24 → (p.lane v).out = f :: rest → f.body.length = 56 →
    ∃ b, (p.sendOne v).replay = p.replay ++ [b] ∧ fuValid b = true ∧ fuKind b = 0 ∧ fuVl b = v ∧ fuSeq b = p.seq ∧
      bit (fuHead b) 28 = f.sop ∧ bit (fuHead b) 29 = f.eop ∧ (b.drop 4).take 56 = f.body ∧
      (p.sendOne v).seq = (p.seq + 1) % 2 ^ 24 ∧ ((p.sendOne v).lane v).out = rest ∧
      ((p.sendOne v).lane v).held = (p.lane v).held - 1 ∧ ((p.sendOne v).lane v).inflight = (p.lane v).inflight + 1) ∧
  (∀ (s : State) (m : Nat), s.running = true → m < 32 → s.linkState m = 1 →
    (∀ lanes, lanes = 8 ∨ lanes = 4 → ∃ t, exec (.laneTrainingDone m lanes) s = .next t ∧
      t.get (Reg.mdlPstat m) 29 29 = b2n (lanes == 4) ∧ t.resp = (s.initFu m).map (·.toNat) ∧ (t.port m).trained = true ∧ (∀ k, k ≠ m → t.port k = s.port k) ∧
      ((s.port m).grants = none → t.linkState m = 1) ∧
      ∀ gs, (s.port m).grants = some gs → t.linkState m = 2 ∧ ∀ l, l < 4 →
        ((t.port m).lane l).issued = gs.getD l 0 ∧ ((t.port m).lane l).held = gs.getD l 0 ∧ ((t.port m).lane l).inflight = 0) ∧
    (∃ t, exec (.trainingTimeout m) s = .next t ∧ t.linkState m = 0 ∧
      t.get (Reg.mdlPerr m) 63 48 = min 65535 (s.get (Reg.mdlPerr m) 63 48 + 1)) ∧
    ∀ fu, fuValid fu = true → fuKind fu = 2 → ∃ t, exec (.initFu m fu) s = .next t ∧
      t.get (Reg.mdlPstat m) 11 0 = leAt fu 4 2 % 4096 ∧ (t.port m).grants = some (grantsOf (leAt fu 8 8)) ∧
      t.linkState m = if (s.port m).trained then 2 else 1) ∧
  (∀ (s : State) (m : Nat), s.running = true → m < 32 → s.linkState m = 0 → s.portOn m = true →
    ∃ t, exec (.downRetry m) s = .next t ∧ t.linkState m = 1 ∧ t.port m = .blank) ∧
  ∀ (s : State) (m : Nat) (fu : List Byte), s.linkUp m = true → m < 32 →
    (∃ t, exec (.livenessTimeout m) s = .next t ∧ t.linkState m = 0 ∧ t.port m = .blank ∧
      t.get (Reg.mdlPerr m) 63 48 = min 65535 (s.get (Reg.mdlPerr m) 63 48 + 1)) ∧
    ((s.port m).replay = [] → exec (.replayTimeout m) s = .next s) ∧
    ((s.port m).replay ≠ [] → (s.port m).repeats < 7 → ∃ t, exec (.replayTimeout m) s = .next t ∧ t.linkState m = 2 ∧
      t.get (Reg.mdlPerr m) 47 24 = min (2 ^ 24 - 1) (s.get (Reg.mdlPerr m) 47 24 + 1) ∧ (t.port m).replay = (s.port m).replay) ∧
    ((s.port m).replay ≠ [] → (s.port m).repeats = 7 → (s.port m).repeatSeq = (s.port m).acked →
      ∃ t, exec (.replayTimeout m) s = .next t ∧ t.linkState m = 0) ∧
    (fuValid fu = true → fuKind fu = 2 → ∃ t, exec (.initFu m fu) s = .next t ∧ t.linkState m = 0) ∧
    (fuValid fu = true → fuKind fu = 3 → exec (.reservedFu m fu) s = .next s.mdlViolate) ∧
    (fuValid fu = true → fuKind fu = 0 → fuSeq fu = (s.port m).expect → bit (fuHead fu) 28 = true → bit (fuHead fu) 29 = true →
      ((s.port m).lane (fuVl fu)).asm = [] → ∃ t, exec (.dataFu m fu) s = .next t ∧
        (t.port m).expect = ((s.port m).expect + 1) % 2 ^ 24 ∧
        (t.port m).inbox = (s.port m).inbox ++ [⟨fuVl fu, 1, (fu.drop 4).take 56⟩] ∧ { t with ports := s.ports } = s) ∧
    (fuValid fu = false → ¬ (1 ≤ seqSub (s.port m).expect (fuSeq fu) ∧ seqSub (s.port m).expect (fuSeq fu) ≤ 2 ^ 23) →
      ∃ t, exec (.dataFu m fu) s = .next t ∧ (t.port m).nak = true ∧ (t.port m).inbox = (s.port m).inbox ∧
      (t.port m).expect = (s.port m).expect ∧
      t.get (Reg.mdlPerr m) 23 0 = min (2 ^ 24 - 1) (s.get (Reg.mdlPerr m) 23 0 + 1)) ∧
    ((fuValid fu = true → fuKind fu = 0) → 1 ≤ seqSub (s.port m).expect (fuSeq fu) →
      seqSub (s.port m).expect (fuSeq fu) ≤ 2 ^ 23 → exec (.dataFu m fu) s = .next s) ∧
    (fuValid fu = true → fuKind fu = 1 → (s.port m).overReturned fu = true →
      ∃ t, exec (.controlFu m fu) s = .next t ∧ t.linkState m = 0) ∧
    (fuValid fu = true → fuKind fu = 1 → (s.port m).overReturned fu = false → bit (leAt fu 7 1) 0 = false →
      (∀ l, ((s.port m).lane l).out = []) → ∃ t, exec (.controlFu m fu) s = .next t ∧ t.linkState m = 2 ∧
        (∀ l, l < 4 → ((t.port m).lane l).held =
          ((s.port m).lane l).held + ((s.port m).lane l).returned (leAt fu (8 + 4 * l) 4)) ∧
        (seqSub (leAt fu 4 3 + 1) (s.port m).acked ≤ (s.port m).replay.length → (t.port m).replay =
          (s.port m).replay.drop (seqSub (leAt fu 4 3 + 1) (s.port m).acked) ∧
          (t.port m).acked = (leAt fu 4 3 + 1) % 2 ^ 24)) ∧
    ∃ t, exec (.controlFuSend m) s = .next t ∧ t.resp = (s.port m).controlFu.map (·.toNat) ∧ (t.port m).nak = false ∧
      (t.port m).inbox = (s.port m).inbox ∧ t.regs = s.regs

/-- A received packet of an operation stands first among those that the device can act on; `t` is the state without it. -/
def Arrives (s : State) (m op : Nat) (want : State → Packet → Bool) (p : Packet) (t : State) : Prop :=
  ∃ x, s.takeParcel m (fun x => x.op == op && s.mine m x && !x.malformed (s.isStore m) && want s x.packet) = some (x, t) ∧
    x.packet = p

/-! ### Collectives (11, R350–R356) -/

/-- An instruction of the collective class as it is issued: its status register is that of SC, its TAG counter waits for its
completion, and the cluster keeps its registers and stores. -/
structure CollFrame (s t : State) (g : Nat) (f : Fetch) (fl : Flight) : Prop where
  next : t.FallsThrough g f
  tags : s.TagGains t g 0
  sregs : (t.cl g).sregs = (s.cl g).sregs
  preds : (t.cl g).preds = (s.cl g).preds
  tile : (t.cl g).tile = (s.cl g).tile
  vregs : (t.cl g).vregs = (s.cl g).vregs
  others : ∀ h, h ≠ g → t.cl h = s.cl h
  flight : Tab.find t.flights s.nextFlight = some fl
  status : fl.sreg = wSC f.word
  tag : fl.tag = wTag f.word

/-- An operation is in progress for an instruction that waits. -/
def Waits (t : State) (i : Nat) (fl : Flight) (k : CollKind) (plan inst : Nat) : Prop :=
  fl.ready = false ∧ ∃ c, Tab.find t.colls i = some c ∧ c.kind = k ∧ c.plan = plan ∧ c.inst = inst ∧ c.done = false

/-- It has ended with a status. -/
def Ended (fl : Flight) (st : Nat) : Prop := fl.ready = true ∧ fl.status = st

/-- CRED and CBCAST with a plan record that has no reserved value take the plan's next instance and wait for their packets,
or end at once with OK or LINK_DOWN (R350, R351, R355); CSEND and CRECV take the next number of their pairing (R355); CVOTE
of the job context sends the body that step control forms for its step and the current round, with the restart bit of its
record, to the device's manager, and waits for the answer, or ends with LINK_DOWN where the port is not UP (R359, R360); that
of another context sends nothing and waits. A CSEND, CRECV or CBCAST writes no byte of memory
when it is issued. The model's choices in it: the addressing of a plan's nodes and the numbers of pairings (logs 59, 60, 61),
contexts other than the job context (log 100), and that work is done as the unit takes it (log 17). -/
def Obligations.CollectiveInstructions : Prop :=
  ∀ (s : State) (g : Nat) (f : Fetch), s.Ready g f (if opIs 0x70 f.word then credRegs f else dataRegs true true true f.word) .collective →
    let plan := fld (wFN f.word) 15 4
    let jp := (s.begun g f .collective (collUsed + mFN 15 4)).1
    let up := (s.begun g f .collective (collUsed + mFN 15 4)).2
    let inst := Tab.getD 0 (up.ctx f.n).instances plan
    let jc := (s.begun g f .collective (collUsed + mFN 11 0 + mXT 11 0)).1
    let uc := (s.begun g f .collective (collUsed + mFN 11 0 + mXT 11 0)).2
    let key := chanKey (fld (wFN f.word) 11 0) (wXT f.word)
    (opIs 0x70 f.word = true → Plan.bad (up.planRecord f.n plan).1 = false → fmtOk jp.kt5 (Desc.fmt jp.da) = true →
      ∃ t fl, exec (.cred g) s = .next t ∧ CollFrame s t g f fl ∧
        Tab.getD 0 (t.ctx f.n).instances plan = (inst + 1) % 65536 ∧
        (Ended fl stOk ∨ Ended fl stLinkDown ∨ Waits t s.nextFlight fl .cred plan inst)) ∧
    (opIs 0x71 f.word = true → Plan.bad (up.planRecord f.n plan).1 = false → fmtOk jp.kt5 (Desc.fmt jp.da) = true →
      ∃ t fl, exec (.cbcast g) s = .next t ∧ CollFrame s t g f fl ∧ t.mem = s.mem ∧
        Tab.getD 0 (t.ctx f.n).instances plan = (inst + 1) % 65536 ∧
        ((Plan.nodes (up.planRecord f.n plan).1).any (·.root) = true → Ended fl stOk ∨ Ended fl stLinkDown) ∧
        ((Plan.nodes (up.planRecord f.n plan).1).any (·.root) = false → Waits t s.nextFlight fl .cbcast plan inst)) ∧
    (opIs 0x72 f.word = true → fmtOk jc.kt5 (Desc.fmt jc.da) = true →
      ∃ t fl, exec (.csend g) s = .next t ∧ CollFrame s t g f fl ∧ t.mem = s.mem ∧
        Tab.getD 0 t.sendNo key = (Tab.getD 0 s.sendNo key + 1) % 65536 ∧
        (Ended fl stLinkDown ∨ Waits t s.nextFlight fl .csend (wXT f.word) (Tab.getD 0 s.sendNo key))) ∧
    (opIs 0x73 f.word = true → fmtOk jc.kt5 (Desc.fmt jc.da) = true →
      ∃ t fl, exec (.crecv g) s = .next t ∧ CollFrame s t g f fl ∧ t.mem = s.mem ∧
        Tab.getD 0 t.recvNo key = (Tab.getD 0 s.recvNo key + 1) % 65536 ∧
        (uc.pathDown (fld (wFN f.word) 11 0) = true → Ended fl stLinkDown) ∧
        (uc.pathDown (fld (wFN f.word) 11 0) = false →
          Waits t s.nextFlight fl .crecv (wXT f.word) (Tab.getD 0 s.recvNo key))) ∧
    (opIs 0x74 f.word = true →
      let b := (s.begun g f .collective (mSA + mSB + mSC))
      let rd := b.2.load Reg.colViolcnt f.n b.1.sa 64
      let body := rd.2.voteBody (b.1.sb % 2 ^ 48) s.curRound (bit (leAt rd.1 0 1) 0)
      let v : CVote := ⟨s.nextFlight, f.n, sregZ (s.cl g).sregs (wSA f.word), sregZ (s.cl g).sregs (wSB f.word) % 2 ^ 48, s.curRound,
        bit body.flags fPresent, body.pcount⟩
      let w := (rd.2.modFlight s.nextFlight fun x => { x with sreg := wSC f.word }).modStp fun x => { x with cvotes := x.cvotes ++ [v] }
      let sent := w.message s.ownMgr 0x04 0 false body.bytes
      ∃ t fl, exec (.cvote g) s = .next t ∧ CollFrame s t g f fl ∧
        (f.n = s.jobCtx → sent.2 = true → t = sent.1 ∧ fl.ready = false ∧ t.mem = s.mem ∧ v ∈ t.stp.cvotes) ∧
        (f.n = s.jobCtx → sent.2 = false → Ended fl stLinkDown) ∧
        (f.n ≠ s.jobCtx → t.ports = s.ports ∧ fl.ready = false ∧ t.mem = s.mem ∧ v ∈ t.stp.cvotes))

/-- The packets of collectives (R346, R352–R356). The last SDATA of a CRECV, the SACK of a CSEND, the last BDATA of a CBCAST
and the packet that brings a CRED the last of what it waits for end the operation with OK; any other is recorded and the
operation goes on. RCOUNT and RPART of a child are kept by slot until every child has sent what is due. A wait that ends
gives TIMEOUT (R354). A malformed packet and one that has no route are discarded and counted; one for a port that is not UP
is lost with it (R343–R345). The model's choices in it: a packet is received whole, and which one is taken first (log 56);
malformed packets and lost ones (logs 57, 58); nodes and waits (logs 59, 60). -/
def Obligations.CollectivePackets : Prop :=
  (∀ (s u : State) (m i : Nat) (p : Packet) (c : Coll) (fl : Flight), Tab.find u.colls i = some c → c.done = false →
    c.nodes = [] → Tab.find u.flights i = some fl →
    (Arrives s m 0x15 wantSdata p u → u.collFor .crecv (argPlan p.arg) (argInst p.arg) (some p.src) = some (i, c) →
      ∃ t, exec (.sdata m) s = .next t ∧
        (p.last = false → t.flights = u.flights ∧ Tab.find t.colls i = some { c with got := c.got + elemsIn (Desc.fmt c.da) p.data.length }) ∧
        (p.last = true → Tab.find t.flights i = some { fl with ready := true, status := stOk } ∧ Tab.find t.colls i = none)) ∧
    (Arrives s m 0x16 anyPacket p u → u.collFor .csend (argPlan p.arg) (argInst p.arg) (some p.src) = some (i, c) →
      ∃ t, exec (.sack m) s = .next t ∧ t.mem = s.mem ∧ Tab.find t.flights i = some { fl with ready := true, status := stOk } ∧
        Tab.find t.colls i = none) ∧
    (Arrives s m 0x14 (wantPlan .cbcast) p u → u.collFor .cbcast (argPlan p.arg) (argInst p.arg) none = some (i, c) →
      ∃ t, exec (.bdata m) s = .next t ∧ (p.last = false → t.flights = u.flights) ∧
        (p.last = true → Tab.find t.flights i = some { fl with ready := true, status := stOk }) ∧
        (c.wrote.contains (argSeg p.arg) = true → t.mem = s.mem)) ∧
    (Arrives s m 0x12 (wantPlan .cred) p u → u.collFor .cred (argPlan p.arg) (argInst p.arg) none = some (i, c) →
      let d := { c with wrote := if c.wrote.contains (argSeg p.arg) then c.wrote else c.wrote ++ [argSeg p.arg] }
      c.kind = .cred → ∃ t, exec (.rresult m) s = .next t ∧
        (d.complete = true → Tab.find t.flights i = some { fl with ready := true, status := stOk }) ∧
        (d.complete = false → t.flights = u.flights ∧ Tab.find t.colls i = some d)) ∧
    (Arrives s m 0x13 (wantPlan .cred) p u → u.collFor .cred (argPlan p.arg) (argInst p.arg) none = some (i, c) →
      let d := { c with final := some (fld (leAt p.data 0 8) 12 0, leAt p.data 8 8) }
      c.kind = .cred → ∃ t, exec (.rfinal m) s = .next t ∧
        (d.complete = true → Tab.find t.flights i = some { fl with ready := true, status := stOk }) ∧
        (d.complete = false → t.flights = u.flights ∧ Tab.find t.colls i = some d ∧ t.mem = s.mem))) ∧
  (∀ (s u : State) (m i k : Nat) (p : Packet) (c : Coll) (n : Node), Tab.find u.colls i = some c → c.done = false →
    c.nodes = [n] → c.complete = false → u.collFor .cred (argPlan p.arg) (argInst p.arg) none = some (i, c) →
    argSlot p.arg = k → n.kids[k]? = some p.src →
    (Arrives s m 0x11 (wantPlan .cred) p u → Tab.find n.counts k = none →
      let n' := { n with counts := Tab.put n.counts k (fld (leAt p.data 0 8) 12 0, leAt p.data 8 8) }
      n'.allCounted = false → exec (.rcount m) s = .next (u.setColl i { c with nodes := [n'] })) ∧
    (Arrives s m 0x10 wantRpart p u → (Tab.find n.counts k).isSome = true → n.ended.contains k = false →
      n.allCounted = false → ∃ t d n', exec (.rpart m) s = .next t ∧ { t with colls := u.colls } = u ∧
        Tab.find t.colls i = some d ∧ d.nodes = [n'] ∧ (n'.ended.contains k = p.last) ∧
        ∀ e, 4 * e + 4 ≤ p.data.length → Memory.read (Tab.getD [] n'.parts k) (segElems * argSeg p.arg + e) =
          BitVec.ofNat 32 (leAt p.data (4 * e) 4))) ∧
  (∀ (s : State) (i : Nat) (c : Coll) (fl : Flight), s.running = true → Tab.find s.colls i = some c → c.done = false →
    Tab.find s.flights i = some fl → ∃ t, exec (.childTimeout i) s = .next t ∧ t.mem = s.mem ∧
      Tab.find t.flights i = some { fl with ready := true, status := stTimeout } ∧ Tab.find t.colls i = none) ∧
  ∀ (s u : State) (m : Nat) (x : Parcel),
    (s.takeParcel m (fun x => x.malformed (s.isStore m)) = some (x, u) → exec (.malformedPacket m) s = .next u.mdlViolate) ∧
    (s.takeParcel m (fun x => !s.mine m x && !x.malformed (s.isStore m)) = some (x, u) →
      (u.route x.dst = none → exec (.packetForward m) s = .next u.mdlViolate) ∧
      ∀ k, u.route x.dst = some k → (u.linkUp k = false → exec (.packetForward m) s = .next u) ∧
        (u.linkUp k = true → ∃ t, exec (.packetForward m) s = .next t ∧ { t with ports := s.ports } = s))

/-! ### Membership, domain barriers and the vote (11, R347–R349, R357–R363) -/

/-- What the packets and timers of step control do. At the root a JOIN that passes every check adds a member and its table
entry (R348); its JOINACK gives the joiner its status. HEARTBEATs change nothing but the sender's age; a silent member is
marked LOST (R349). A domain BARRIER with another EPOCH is STALE at once; one that names the generation waits for the others,
and that of a context other than the job context reports no arrival (R347, R357). An arrival of a past generation and a
release of another are counted; a release at a worker moves the generation on and lets its BARRIERs complete (R357, R358);
BARDONE consumes a token; a BARRIER that waits too long completes with TIMEOUT (R373). With no ANSWER of its own left to
take, a device answers a vote for another pair and does not keep it; one of the pair replaces its sender's (R360); an answer
COMMITTED commits the step and completes the CVOTE with COMMITTED or DROPPED, REPLAY opens the next round (R362), and every
RESTART counts, with or without a CVOTE that waits for it (R410). Votes
and CVOTEs that wait too long are answered without the missing, and end with TIMEOUT. The model's choices in it: the retry of
a JOIN, the release of a lost member, votes and generations, and contexts other than the job context (logs 36, 37, 61, 62,
100). -/
def Obligations.StepControl : Prop :=
  (∀ (s u : State) (m : Nat) (p : Packet), Arrives s m 0x01 anyPacket p u →
    let id := fld p.arg 11 0
    (u.role = 0 → exec (.join m) s = .next u.stpViolate) ∧
    (u.role = 2 → u.manages = true → bit p.arg 12 = false → p.src = id → u.get Reg.stpMembers 12 0 < 4096 →
      ∀ i, u.joinVerdict id u.devid false = (stOk, i) →
      ∃ t, exec (.join m) s = .next t ∧ t.get Reg.stpMembers 12 0 = u.get Reg.stpMembers 12 0 + 1 ∧
        t.reg (Reg.stpWtab i) = entMake id ∧ t.stp.members = u.stp.members ++ [(id, u.devid)] ∧ t.mem = s.mem)) ∧
  (∀ (s u : State) (m : Nat) (p : Packet), Arrives s m 0x02 anyPacket p u →
    (u.stp.joins = [] → exec (.joinack m) s = .next u.stpViolate) ∧
    ∀ rest, u.stp.joins = u.devid :: rest → ∃ t, exec (.joinack m) s = .next t ∧ t.stp.joins = rest ∧
      t.stp.join = some (fld p.arg 7 0, fld p.arg 13 8) ∧ { t with stp := u.stp } = u) ∧
  (∀ (s u : State) (m : Nat) (p : Packet), Arrives s m 0x03 anyPacket p u → exec (.heartbeat m) s = .next u) ∧
  (∀ (s : State), s.running = true → s.stp.joinDue = false →
    (s.stp.beats = false → exec .heartbeatSend s = .next s) ∧
    (s.stp.beats = true → s.role = 0 → s.stp.join.map (·.1) = some stOk →
      exec .heartbeatSend s = .next (s.tell s.mgrid 0x03 (s.get Reg.stpStepcnt 47 0) []))) ∧
  (∀ (s : State) (i : Nat), s.running = true → 0 < i → i < 64 → s.manages = true → entValid (s.reg (Reg.stpWtab i)) = true →
    entLost (s.reg (Reg.stpWtab i)) = false → s.stp.arrived = [] → s.stp.ballots = [] →
    exec (.memberLost i) s = .next (s.set (Reg.stpWtab i) 62 62 1)) ∧
  (∀ (s : State) (g : Nat) (f : Fetch), s.Ready g f (barrierRegs f.word) .none → opIs 0x06 f.word = true →
    barScope f.word = 1 →
    let epoch := if fld f.word 105 100 = 0 then s.gen else sreg (s.cl g).sregs (fld f.word 105 100) % 65536
    (epoch ≠ s.gen → ∃ t, exec (.barrierDomain g) s = .next t ∧ s.Issues t g ∧ s.TagGains t g (wTag f.word) ∧
      t.FallsThrough g f ∧ (t.cl g).stall = .none ∧ (∀ r, sreg (t.cl g).sregs r =
        if r = fld f.word 99 94 ∧ r ≠ 0 then stStale else sreg (s.cl g).sregs r)) ∧
    (epoch = s.gen → (f.n ≠ s.jobCtx ∨ ∃ h ∈ s.clustersOf f.n, h ≠ g ∧ s.reached f.n true h = false) →
      ∃ t map, exec (.barrierDomain g) s = .next t ∧ s.Issues t g ∧ s.TagGains t g 0 ∧ t.FallsThrough g f ∧
        t.issuing g = none ∧ (t.cl g).stall = .barrier true (wTag f.word) (fld f.word 99 94) map ∧
        (t.cl g).sregs = (s.cl g).sregs ∧ t.stp = s.stp)) ∧
  (∀ (s u : State) (m : Nat) (p : Packet), Arrives s m 0x08 anyPacket p u →
    (u.role = 0 → exec (.bararrive m) s = .next u.stpViolate) ∧
    (u.role ≠ 0 → u.manages = true → behind u.gen (fld p.arg 15 0) = true → exec (.bararrive m) s = .next u.stpViolate) ∧
    (u.role ≠ 0 → u.manages = true → fld p.arg 15 0 = u.gen → u.releaseDests.contains p.src = true → u.stp.arrived = [] →
      u.anyLost = false → (∃ d ∈ u.releaseDests, d ≠ p.src) → ∃ t, exec (.bararrive m) s = .next t ∧
        t.stp.arrived = [p.src] ∧ { t with stp := u.stp } = u)) ∧
  (∀ (s u : State) (m : Nat) (p : Packet), Arrives s m 0x09 anyPacket p u →
    (fld p.arg 15 0 ≠ u.gen → exec (.barrelease m) s = .next u.stpViolate) ∧
    (fld p.arg 15 0 = u.gen → u.role = 0 → fld p.arg 23 16 = stOk → ∃ t, exec (.barrelease m) s = .next t ∧
      t.gen = (u.gen + 1) % 65536 ∧ t.stp.waiting = [] ∧ t.stp.audGen = u.gen ∧ t.stp.granted = 1 ∧ t.mem = s.mem ∧ t.cls = s.cls ∧
      ∀ n ∈ u.stp.waiting, ∃ r, (t.ctx n).release = some r ∧ r.status = stOk ∧ r.domain = true)) ∧
  (∀ (s u : State) (m : Nat) (p : Packet), Arrives s m 0x0A anyPacket p u → u.role ≠ 0 → fld p.arg 15 0 = u.stp.audGen →
    u.stp.consumed < u.stp.granted →
    ∃ t, exec (.bardone m) s = .next t ∧ t.stp.consumed = u.stp.consumed + 1 ∧ { t with stp := u.stp } = u) ∧
  (∀ (s : State) (g n tag dst : Nat) (map : Option Nat), s.activeOn g = some n → s.clusterAt n (s.cl g).idx = some g →
    (s.cl g).stall = .barrier true tag dst map → s.awaitsWave n (s.cl g).idx = false → (s.ctx n).cocoon = none → s.running = true →
    ∃ t, exec (.barrierTimeout g) s = .next t ∧ (t.cl g).stall = .none ∧ s.TagGains t g tag ∧ t.mem = s.mem ∧
      (∀ r, sreg (t.cl g).sregs r = if r = dst ∧ r ≠ 0 then stTimeout else sreg (s.cl g).sregs r) ∧
      ∀ h, h ≠ g → t.cl h = s.cl h) ∧
  (∀ (s u : State) (m : Nat) (p : Packet),
    let b := Ballot.ofBytes p.src p.data
    (Arrives s m 0x04 anyPacket p u → (∀ x ∈ (u.port selfPort).inbox, x.op ≠ 0x06) → (u.role = 0 ∨ inTable u.wtab p.src = false → exec (.vote m) s = .next u.stpViolate) ∧
      (u.role ≠ 0 → inTable u.wtab p.src = true → u.manages = true → (b.step, b.round) ≠ (u.curStep, u.curRound) →
        exec (.vote m) s = .next (u.sendAnswer [p.src] b.step b.round stStale [])) ∧
      (u.role ≠ 0 → inTable u.wtab p.src = true → u.manages = true → (b.step, b.round) = (u.curStep, u.curRound) →
        allVoted u.wtab (putBallot u.stp.ballots { b with ids := [] }) = false → ∃ t, exec (.vote m) s = .next t ∧
          t.stp.ballots = putBallot u.stp.ballots { b with ids := [] } ∧ { t with stp := u.stp } = u)) ∧
    (Arrives s m 0x05 anyPacket p u → (∀ x ∈ (u.port selfPort).inbox, x.op ≠ 0x06) → (u.role ≠ 2 → exec (.gvote m) s = .next u.stpViolate) ∧
      (u.role = 2 → inTable u.mtab p.src = true → u.manages = true → (b.step, b.round) = (u.curStep, u.curRound) →
        u.stp.ballots = [] → ∃ t, exec (.gvote m) s = .next t ∧ t.stp.gballots = putBallot u.stp.gballots b ∧
          { t with stp := u.stp } = u))) ∧
  (∀ (s : State), s.running = true → s.manages = true →
    (s.stp.ballots = [] → s.stp.gballots = [] → exec .voteTimeout s = .next s) ∧
    (s.stp.ballots ≠ [] → ∃ t, exec .voteTimeout s = .next t ∧ t.stp.ballots = [] ∧ t.mem = s.mem ∧ t.cls = s.cls ∧
      t.flights = s.flights)) ∧
  (∀ (s u : State) (m : Nat) (p : Packet) (v : CVote) (fl : Flight), Arrives s m 0x06 anyPacket p u → u.role = 0 →
    u.stp.cvotes = [v] → v.ctx = u.jobCtx → v.step = fld p.arg 47 0 → v.round = fld p.arg 55 48 → Tab.find u.flights v.flight = some fl →
    (fld p.arg 63 56 = stCommitted → ∃ t, exec (.answer m) s = .next t ∧ t.get Reg.stpStepcnt 47 0 = v.step ∧
      t.get Reg.stpStepcnt 55 48 = 0 ∧ t.stp.cvotes = [] ∧ (t.ctx v.ctx).commit = some v.step ∧
      Tab.find t.flights v.flight = some { fl with ready := true, status := if v.present then stCommitted else stDropped }) ∧
    (fld p.arg 63 56 = stReplay → ∃ t, exec (.answer m) s = .next t ∧ t.get Reg.stpStepcnt 55 48 = (v.round + 1) % 256 ∧
      t.get Reg.stpStepcnt 47 0 = u.get Reg.stpStepcnt 47 0 ∧ t.stp.drops = dropIds p.data ∧ t.stp.cvotes = [] ∧
      (t.ctx v.ctx).commit = (u.ctx v.ctx).commit ∧
      Tab.find t.flights v.flight = some { fl with ready := true, status := stReplay }) ∧
    (fld p.arg 63 56 = stRestart → ∃ t, exec (.answer m) s = .next t ∧ t.snp.restarts = u.snp.restarts + 1 ∧
      t.stp.restart = false ∧ t.stp.cvotes = [] ∧ (t.ctx v.ctx).commit = (u.ctx v.ctx).commit ∧
      Tab.find t.flights v.flight = some { fl with ready := true, status := stRestart })) ∧
  (∀ (s u : State) (m : Nat) (p : Packet), Arrives s m 0x06 anyPacket p u → u.role = 0 → u.stp.cvotes = [] →
    exec (.answer m) s = .next (if fld p.arg 63 56 = stRestart
      then { u with snp := { u.snp with restarts := u.snp.restarts + 1 } } else u)) ∧
  ∀ (s : State), s.running = true → (s.stp.cvotes = [] → exec .cvoteTimeout s = .next s) ∧
    ∀ v fl, s.stp.cvotes = [v] → Tab.find s.flights v.flight = some fl → ∃ t, exec .cvoteTimeout s = .next t ∧
      t.stp.cvotes = [] ∧ Tab.find t.flights v.flight = some { fl with ready := true, status := stTimeout } ∧
      (t.ctx v.ctx).commit = (s.ctx v.ctx).commit


/-! ### Reliability (13) -/

/-- The events that a command of this chapter brings about enter the event queue while it has room (R397, R398). -/
def EventQueued (s t : State) (status source loc : Nat) : Prop :=
  s.chk.events.length < 64 → ∃ r more, t.chk.events = s.chk.events ++ r :: more ∧ r.status = status ∧ r.source = source ∧
    r.loc = loc

/-- Checking and testing (R378, R382–R386, R391–R396, R45). A shadow run that agrees is counted and forgotten; one that does
not is counted in SHMISS and raises source 1; the units of the cluster that waited for its buffer go on, and where none is
queued nothing more happens. The scrub counts a corrected error by its kind, and an uncorrected one raises its source; that
it ends a take which reads the address is said with the snapshots. A cluster whose INTERVAL has passed is due; a test of a
due cluster that may be tested runs, and its end passes it with AGE 0, or fails it, confirms all its engines and flags the
device. A cluster whose test is overdue raises source 9, and a RUNNING context on it parks. SELFTEST and CLTEST complete with
BUSY while they may not run, and otherwise wait for the tests, those that run already among them; a SELFTEST that found
nothing completes with OK. DRAIN_RESET ends DRAINING and the heartbeats. A pool whose SPILL or HOST path fails with records
on it takes its owner's partition down. The model's choices in it: errors are operands (log 22), the order of several checks
(log 21), what a test leaves (log 66), and repeated SELFTESTs and CLTESTs (log 102). -/
def Obligations.CheckingAndTests : Prop :=
  (∀ (s : State) (g e : Nat) (flips : List Flip) (ev : List FaultIn) (u : ShadowUnit), s.running = true → g < 64 →
    u.shEng < 16 → (∀ n, (s.cl g).ctx = some n → n < 4096) → (s.cl g).shadows.find? (fun x => x.eng == e) = some u →
    u.engs.any (s.unitHeld g) = false →
    let w := s.detect (s.carrier g) ev
    let out := u.out (w.get (Reg.mxeChkctl g) 4 0) flips
    ∃ t, exec (.shadowCompare g e flips ev) s = .next (t.runWaiting g) ∧
      ((∀ x ∈ (s.cl g).engines, x.2.queue = []) → (s.cl g).vq = [] → exec (.shadowCompare g e flips ev) s = .next t) ∧
      (t.cl g).shadows = (s.cl g).shadows.erase u ∧
      t.get Reg.chkShadows 63 0 = (w.get Reg.chkShadows 63 0 + 1) % 2 ^ 64 ∧ DeviceMemoryKept s t ∧
      (∀ h, h ≠ g → t.cl h = s.cl h) ∧
      (out.result = u.orig → t.get Reg.chkShmiss 31 0 = w.get Reg.chkShmiss 31 0 ∧ t.chk = w.chk) ∧
      (out.result ≠ u.orig →
        t.get Reg.chkShmiss 31 0 = min (2 ^ 32 - 1) (w.get Reg.chkShmiss 31 0 + 1) ∧ EventQueued w t stSuspect 1 g)) ∧
  (∀ (s : State) (e : FaultIn), s.running = true → 2 ≤ e.source → e.source ≤ 5 →
    (∀ x ∈ s.snp.takes, (s.detect none [e]).takeReads x.2 e.addr = false) →
    ∃ t, exec (.patrolScrub [e]) s = .next t ∧ t.cls = s.cls ∧ DeviceMemoryKept s t ∧
      (e.corrected = true → s.OnlyRegs (· == Reg.chkMemerr) t ∧
        (e.source = 3 → t.get Reg.chkMemerr 63 48 = min 65535 (s.get Reg.chkMemerr 63 48 + 1)) ∧
        (e.source = 4 → t.get Reg.chkMemerr 47 32 = min 65535 (s.get Reg.chkMemerr 47 32 + 1)) ∧
        (e.source = 5 → t.get Reg.chkMemerr 31 16 = min 65535 (s.get Reg.chkMemerr 31 16 + 1))) ∧
      (e.corrected = false → EventQueued s t stSuspect e.source e.loc ∧
        (e.source ≠ 2 → t.get Reg.chkMemerr 15 0 = min 65535 (s.get Reg.chkMemerr 15 0 + 1)))) ∧
  (∀ (s : State) (g : Nat), s.sec.bootStep ≠ 0 → g < 64 → s.testState g = 0 → s.get Reg.chkTestcfg 15 0 ≠ 0 →
    ∃ t, exec (.testDue g) s = .next t ∧ t.testState g = 1 ∧ t.get (Reg.chkTest g) 15 0 = s.get Reg.chkTestcfg 15 0 ∧
      s.OnlyRegs (· == Reg.chkTest g) t) ∧
  (∀ (s : State) (g : Nat), s.running = true → g < 64 → s.testable g = true →
    s.testState g = 1 ∨ s.testState g = 0 ∧ s.isSpare g = true ∧ s.chk.spareTested.contains g = false →
    ∃ t, exec (.infieldTestStart g) s = .next t ∧ t.testState g = 2 ∧ t.mem = s.mem ∧ ∀ h, h ≠ g → t.cl h = s.cl h) ∧
  (∀ (s : State) (g : Nat) (pass : Bool), s.running = true → g < 64 → s.testState g = 2 → s.get Reg.chkStat 30 30 = 0 →
    Tab.find s.chk.cltests g = none → ∃ t, exec (.infieldTestDone g pass) s = .next t ∧ DeviceMemoryKept s t ∧ t.cls = s.cls ∧
      (pass = true → t.testState g = 0 ∧ t.get (Reg.chkTest g) 15 0 = 0 ∧ s.OnlyRegs (· == Reg.chkTest g) { t with chk := s.chk }) ∧
      (pass = false → t.testState g = 3 ∧ (∀ e, e < 16 → t.engState g e = 2) ∧ t.get Reg.chkStat 31 31 = 1 ∧ t.chk.fault = true)) ∧
  (∀ (s : State) (g : Nat), s.sec.bootStep ≠ 0 → g < 64 → s.testState g = 1 → s.chk.forced.contains g = false →
    ∃ t, exec (.testOverdue g) s = .next t ∧ g ∈ t.chk.forced ∧ EventQueued s t stTestOverdue 9 g ∧ t.cls = s.cls ∧
      ∀ n, (s.cl g).ctx = some n → 1 ≤ n → n < 4096 → s.cstate n = stRunning → t.cstate n = stParking) ∧
  (∀ (s u : State) (q : Nat) (c : Cmd), q < 8 →
    (s.fetchCmd q (· == 0xA0) = some (c, u) →
      (u.anyLive = true ∨ u.get Reg.chkStat 31 31 = 1 → exec (.selftest q) s = .next (u.completeCmd c stBusy)) ∧
      (u.anyLive = false → u.get Reg.chkStat 31 31 = 0 → ∃ t, exec (.selftest q) s = .next t ∧
        t.chk.selftest = u.chk.selftest ++ [c] ∧ { t with chk := u.chk } = u)) ∧
    (s.fetchCmd q (· == 0xA1) = some (c, u) →
      (u.testable (fld c.arg0 5 0) = false →
        exec (.cltest q) s = .next (u.completeCmd c stBusy)) ∧
      (u.testable (fld c.arg0 5 0) = true → ∃ t, exec (.cltest q) s = .next t ∧ t.testState (fld c.arg0 5 0) = 2 ∧
        Tab.find t.chk.cltests (fld c.arg0 5 0) = some (Tab.getD [] u.chk.cltests (fld c.arg0 5 0) ++ [c]) ∧ t.mem = u.mem ∧
        (u.testState (fld c.arg0 5 0) = 2 → t.cls = u.cls)))) ∧
  (∀ (s : State) (c : Cmd), s.running = true → s.chk.selftest = [c] →
    exec (.selftestComplete []) s = .next (({ s with chk := { s.chk with selftest := [] } }).completeCmd c stOk)) ∧
  (∀ (s : State), s.running = true →
    (s.get Reg.chkStat 30 30 = 0 → exec .drainReset s = .next s) ∧
    (s.get Reg.chkStat 30 30 = 1 → ∃ t, exec .drainReset s = .next t ∧ t.get Reg.chkStat 30 30 = 0 ∧ t.stp.beats = false)) ∧
  ∀ (s : State) (k i : Nat) (host : Bool) (r : PageRec), s.enabledPools.contains k = true → (i, r) ∈ (s.pool k).recs →
    r.state = (if host then 4 else 3) → s.poolOwner k ≠ 0 → s.cstate (s.poolOwner k) ≠ stFree →
    exec (.regionPathFailure k host) s = .next (s.resetPartition (s.partOf (s.poolOwner k)))

/-! ### Snapshots (14) -/

/-- Snapshots and their store (R364–R367, R399–R418). SNAPTAKE is refused with BUSY, STALE or MISMATCH in that order, and
otherwise takes the slot of its epoch, TAKING, with the committed step; when every object is in place, in the slot's half of
each channel's area, the slot is HELD and SNP.EPOCH names it; an uncorrectable error in what the take reads, a record of
object 2 among it, ends it with INCOMPLETE and the slot INVALID. SNAPDRAIN is refused with BUSY unless the slot is HELD or
INCOMPLETE; with no store port UP it ends INCOMPLETE with LINK_DOWN; the acknowledgements count PROGRESS, that of the
manifest makes the slot DRAINED, and a refusal makes it INCOMPLETE; every reply lets what waited for room go on. STQUERY ends
with LINK_DOWN where no store port is UP, waits while the ports are full, and ends with what the store answers. Bytes of an
object take their place among those at hand by their OFFSET. RESTORE is refused with BUSY; a restore that has all its objects
sets the step counter and RSTAT and completes with OK, or with RNG_REDERIVED; SNPVERIFY compares the digest. A reply with no
transaction is counted; a request with no reply, the one sent longest ago first, is repeated three times and then ends with
TIMEOUT. The model's choices in it: the contents of a slot are structured data (log 64), and the corners of a restore (log
65). -/
def Obligations.Snapshots : Prop :=
  (∀ (s u : State) (q : Nat) (c : Cmd), q < 8 → s.fetchCmd q (· == 0xB0) = some (c, u) →
    let e := fld c.arg0 31 0
    let list := u.snapList u.jobCtx (fld c.arg1 47 0)
    let stale := u.get Reg.snpEpoch 63 63 = 1 ∧ newer32 e (u.get Reg.snpEpoch 31 0) = false
    (u.takeBusy (e % 2) = true → exec (.snaptake q) s = .next (u.completeCmd c stBusy)) ∧
    (u.takeBusy (e % 2) = false → stale → exec (.snaptake q) s = .next (u.completeCmd c stStale)) ∧
    (u.takeBusy (e % 2) = false → ¬ stale → (u.ctx u.jobCtx).commit ≠ some (u.get Reg.stpStepcnt 47 0) →
      exec (.snaptake q) s = .next (u.completeCmd c stMismatch)) ∧
    (u.takeBusy (e % 2) = false → ¬ stale → (u.ctx u.jobCtx).commit = some (u.get Reg.stpStepcnt 47 0) → list.1 ≤ 4096 →
      list.2.1.any (list.2.2.entryBad u.jobCtx) = false → list.2.2.areaSmall u.jobCtx list.2.1 = false →
      ∃ t tk, exec (.snaptake q) s = .next t ∧ t.slotState (e % 2) = slTaking ∧ t.slotEpoch (e % 2) = e ∧
        t.slotStep (e % 2) = u.get Reg.stpStepcnt 47 0 ∧ Tab.find t.snp.takes (e % 2) = some tk ∧ tk.cmd = c ∧ tk.epoch = e ∧
        t.mem = u.mem ∧ t.cls = u.cls)) ∧
  (∀ (s : State) (k : Nat) (tk : Take), s.running = true → k < 2 → s.snp.takes = [(k, tk)] → tk.epoch < 2 ^ 32 →
    (∀ e : FaultIn, e.corrected = false → e.source = 4 ∨ e.source = 5 →
      (s.detect none [e]).takeReads tk e.addr = true →
      ∃ t : State, exec (.patrolScrub [e]) s = .next (t.completeCmd tk.cmd stIncomplete) ∧
        t.slotState k = slInvalid ∧ t.snp.takes = [] ∧ DeviceMemoryKept s t) ∧
    ∃ t : State, exec .takeComplete s = .next (t.completeCmd tk.cmd stOk) ∧ t.slotState k = slHeld ∧ t.snp.takes = [] ∧
      t.reg Reg.snpEpoch = 2 ^ 63 + tk.epoch ∧ (t.slotObjs k).length = tk.entries.length + 2 ∧
      (∀ o, (t.slotObjs k)[0]? = some o → o.no = 1 ∧
        o.data.readN 0 256 = stateBlock (s.slotStep k) tk.sample s.devid tk.epoch) ∧
      (∀ i en, tk.entries[i]? = some en → (t.slotObjs k)[i + 2]? = some (s.takeEntry s.jobCtx en)) ∧ t.cls = s.cls ∧
      WroteOnly s t s.jobCtx (fun a => ∃ ch, ch < 12 ∧
        let lo := s.get (Reg.snpArea ch) 51 21 * granBytes + k * s.areaHalf ch
        lo ≤ a ∧ a < lo + ceilDiv (s.channelBytes s.jobCtx tk.entries ch) 16 * 16)) ∧
  (∀ (s u : State) (q : Nat) (c : Cmd), q < 8 → s.fetchCmd q (· == 0xB1) = some (c, u) →
    let k := c.arg0 % 2
    (u.slotState k ≠ slHeld → u.slotState k ≠ slIncomplete → exec (.snapdrain q) s = .next (u.completeCmd c stBusy)) ∧
    (u.slotState k = slHeld ∨ u.slotState k = slIncomplete →
      (u.storeUp = [] → ∃ t : State, exec (.snapdrain q) s = .next (t.completeCmd c stLinkDown) ∧ t.slotState k = slIncomplete ∧
        Tab.find t.snp.drains k = none ∧ t.mem = u.mem) ∧
      (u.storeUp ≠ [] → ∃ t d, exec (.snapdrain q) s = .next t ∧ t.slotState k = slDraining ∧ t.reg Reg.snpProgress = 0 ∧
        Tab.find t.snp.drains k = some d ∧ d.cmd = c ∧ t.mem = u.mem))) ∧
  (∀ (s u : State) (m : Nat) (p : Packet) (x : Txn) (d : Drain), x.slot < 2 → Tab.find u.snp.drains x.slot = some d →
    (Arrives s m 0x21 anyPacket p u → u.txnFor m p 0x20 = some x →
      (p.status = stOk → ∃ t, exec (.swack m) s = .next t ∧ t.mem = s.mem ∧
        t.get Reg.snpProgress 63 0 = min (2 ^ 64 - 1) (u.get Reg.snpProgress 63 0 + x.size)) ∧
      (p.status ≠ stOk → ∃ t : State, exec (.swack m) s = .next (t.completeCmd d.cmd stNoResource).pumpStore ∧
        t.slotState x.slot = slIncomplete ∧ Tab.find t.snp.drains x.slot = none ∧ t.mem = s.mem)) ∧
    (Arrives s m 0x25 anyPacket p u → u.txnFor m p 0x24 = some x → ∃ t : State, exec (.smack m) s = .next (t.completeCmd d.cmd stOk).pumpStore ∧
      t.slotState x.slot = slDrained ∧ Tab.find t.snp.drains x.slot = none ∧ t.mem = s.mem)) ∧
  (∀ (s u : State) (m : Nat) (p : Packet),
    (Arrives s m 0x21 anyPacket p u → u.txnFor m p 0x20 = none → exec (.swack m) s = .next u.mdlViolate) ∧
    (Arrives s m 0x25 anyPacket p u → u.txnFor m p 0x24 = none → exec (.smack m) s = .next u.mdlViolate) ∧
    (Arrives s m 0x23 anyPacket p u → u.txnFor m p 0x22 = none → exec (.srdata m) s = .next u.mdlViolate) ∧
    (Arrives s m 0x27 anyPacket p u → u.txnFor m p 0x26 = none → exec (.sqinfo m) s = .next u.mdlViolate) ∧
    ∀ x c, Arrives s m 0x27 anyPacket p u → u.txnFor m p 0x26 = some x → Tab.find u.snp.queries p.xid = some c → p.status ≠ stStale →
      ∃ t : State, exec (.sqinfo m) s = .next (t.completeCmd c stOk).pumpStore ∧ t.get Reg.snpStq 63 32 = leAt p.data 24 4 ∧
        t.get Reg.snpStq 31 0 = leAt p.data 28 4 ∧ Tab.find t.snp.queries p.xid = none ∧ t.mem = s.mem) ∧
  (∀ (s u : State) (m : Nat) (p : Packet) (x : Txn) (r : Restore), Arrives s m 0x23 anyPacket p u → u.txnFor m p 0x22 = some x →
    u.snp.restore = some r →
    (p.status = stStale → u.get Reg.snpRstat 55 53 ≠ 1 → ∃ t : State, exec (.srdata m) s = .next (t.completeCmd r.cmd stStale).pumpStore ∧
      t.snp.restore = none ∧ t.regs = u.regs ∧ t.mem = s.mem) ∧
    (p.status ≠ stStale → leAt p.data 4 4 ≠ 0 → p.last = false → ∃ t, exec (.srdata m) s = .next t ∧
      t.snp.restore = some { r with buf := spliceAt (leAt p.data 8 6) r.buf ((p.data.drop 24).take (leAt p.data 0x0E 3)) } ∧ t.regs = u.regs ∧
      t.mem = s.mem)) ∧
  (∀ (s u : State) (q : Nat) (c : Cmd), q < 8 → s.fetchCmd q (· == 0xB2) = some (c, u) →
    (u.restoreBusy = true → exec (.restore q) s = .next (u.completeCmd c stBusy)) ∧
    (u.restoreBusy = false → u.get Reg.snpRstat 55 53 = 3 → u.get Reg.snpRstat 31 0 = fld c.arg0 31 0 →
      exec (.restore q) s = .next (u.completeCmd c stOk)) ∧
    (u.restoreBusy = false → u.get Reg.snpRstat 55 53 ≠ 3 → bit c.arg0 32 = true → u.slotWith (fld c.arg0 31 0) = none →
      exec (.restore q) s = .next (u.completeCmd c stMismatch)) ∧
    (u.restoreBusy = false → u.get Reg.snpRstat 55 53 ≠ 3 → bit c.arg0 32 = false → u.storeUp = [] →
      ∃ t : State, exec (.restore q) s = .next (t.completeCmd c stLinkDown) ∧ t.get Reg.snpRstat 55 53 = 4 ∧
        t.get Reg.snpRstat 63 56 = stLinkDown ∧ t.snp.restore = none ∧ t.mem = u.mem) ∧
    (u.restoreBusy = false → u.get Reg.snpRstat 55 53 ≠ 3 → bit c.arg0 32 = false → u.storeUp ≠ [] → u.storePort = none →
      ∃ t r, exec (.restore q) s = .next t ∧ t.snp.restore = some r ∧ r.cmd = c ∧
        t.snp.asks = u.snp.asks ++ [.read (fld c.arg0 31 0) 0 0 128] ∧ t.mem = u.mem) ∧
    (u.restoreBusy = false → u.get Reg.snpRstat 55 53 ≠ 3 → bit c.arg0 32 = false → u.snp.asks = [] →
      ∀ m, u.storePort = some m → ∃ t r x, exec (.restore q) s = .next t ∧ t.snp.restore = some r ∧ r.cmd = c ∧
        Tab.find t.snp.txns u.snp.nextXid = some x ∧ x.op = 0x22 ∧ x.port = m ∧ t.mem = u.mem)) ∧
  (∀ (s : State) (r : Restore), s.running = true → s.snp.restore = some r → r.ready = true → r.epoch < 2 ^ 32 →
    ∃ (t : State) (st : Nat), exec .restoreComplete s = .next (t.completeCmd r.cmd st) ∧
      (st = stOk ∧ t.get Reg.snpRstat 52 52 = 0 ∨ st = stRngRederived ∧ t.get Reg.snpRstat 52 52 = 1) ∧
      t.get Reg.stpStepcnt 47 0 = leAt r.block 0 6 ∧ t.get Reg.stpStepcnt 55 48 = 0 ∧ t.gen = 0 ∧ t.get Reg.snpRstat 55 53 = 2 ∧
      t.get Reg.snpRstat 63 56 = st ∧ t.get Reg.snpRstat 31 0 = r.epoch ∧ t.reg Reg.snpEpoch = 2 ^ 63 + r.epoch ∧
      (t.ctx s.jobCtx).commit = none ∧ t.snp.restore = none ∧ t.mem = s.mem) ∧
  (∀ (s u : State) (q : Nat) (c : Cmd), q < 8 →
    (s.fetchCmd q (· == 0xB3) = some (c, u) →
      let digest := (List.range 4).flatMap fun i => leBytes 8 (u.reg (Reg.snpRdigest i))
      (u.get Reg.snpRstat 55 53 ≠ 2 → u.get Reg.snpRstat 55 53 ≠ 3 → exec (.snpverify q) s = .next (u.completeCmd c stBusy)) ∧
      (u.get Reg.snpRstat 55 53 = 2 ∨ u.get Reg.snpRstat 55 53 = 3 → ∃ (t : State) (st : Nat),
        exec (.snpverify q) s = .next (t.completeCmd c st) ∧ u.OnlyRegs (· == Reg.snpRstat) t ∧
        ((c.entry.drop 32).take 32 = digest → st = stOk ∧ t.get Reg.snpRstat 55 53 = 3) ∧
        ((c.entry.drop 32).take 32 ≠ digest → st = stMismatch ∧ t.get Reg.snpRstat 55 53 = 4))) ∧
    (s.fetchCmd q (· == 0xB4) = some (c, u) →
      (u.storeUp = [] → exec (.stquery q) s = .next (u.completeCmd c stLinkDown)) ∧
      (u.storeUp ≠ [] → u.storePort = none → ∃ t, exec (.stquery q) s = .next t ∧ t.snp.asks = u.snp.asks ++ [.query c] ∧
        { t with snp := u.snp } = u) ∧
      ∀ m, u.snp.asks = [] → u.storePort = some m → ∃ t x, exec (.stquery q) s = .next t ∧ Tab.find t.snp.queries u.snp.nextXid = some c ∧
        Tab.find t.snp.txns u.snp.nextXid = some x ∧ x.op = 0x26 ∧ x.port = m ∧ t.mem = u.mem)) ∧
  ∀ (s : State), s.running = true → (s.snp.txns = [] → exec .storeTimeout s = .next s) ∧
    ∀ i x, Tab.find s.snp.txns i = some x → (i, x) ∈ s.snp.txns → (∀ y ∈ s.snp.txns, y ≠ (i, x) → x.sent < y.2.sent) →
      (x.repeats < 3 → ∃ t, exec .storeTimeout s = .next t ∧
        Tab.find t.snp.txns i = some { x with repeats := x.repeats + 1, sent := s.nextSent } ∧ t.mem = s.mem) ∧
      (3 ≤ x.repeats → x.op = 0x26 → ∀ c, Tab.find s.snp.queries i = some c → ∃ t : State,
        exec .storeTimeout s = .next (t.completeCmd c stTimeout).pumpStore ∧ Tab.find t.snp.txns i = none ∧
          Tab.find t.snp.queries i = none ∧ t.mem = s.mem)


/-! ### Power (15) -/

/-- A cluster without the tokens of its pool. -/
def noTokens (c : Cluster) : Cluster := { c with pool := 0 }

/-- The VCORE setpoints are those of operating point `op`: VSET, and on a boosted die min(VSET + VBOOST, 850) in mV (R422). -/
def Setpoints (t : State) (op : Nat) : Prop :=
  ∀ d, d < 4 → t.pwr.vcore.getD d 0 = if d ∈ t.boostedDies then min (t.vset op + t.vboost op) 850 else t.vset op

/-- The governor, the cap, the ramp limiter and boosts (R108, R419–R434). An epoch keeps the audit of the one that ends,
moves φ down by 1 to 32 while power exceeds the cap in force or a die is throttled and up by at most 32 otherwise, and grants
every cluster that is not Idle φ/256 of what it can take, of which the units that hold their work take theirs first. A unit
that is busy takes a token from the pool, or holds its work. OPSET and CAP take the fields that are in range and count a
write that has one out of range; CAPEFF follows the least cap. A finished switch puts OPEFF at the new point on the spare
PLL. The VCORE setpoints are those of the operating point, the boosted ones on boosted dies. A junction above 115 °C trips
the device while PWRGOOD is asserted (R488). The pins act only with VIO applied (R486). A droop is counted and lengthens its
die's clocks until the cycles of its end are counted. A unit that waits is active again once the limiter grants it. The
model's choices in it: the step of φ, the counting of epochs, the boosts, the grants, the tokens and when setpoints follow
(logs 68, 69, 70, 71, 72, 104, 105). -/
def Obligations.PowerControl : Prop :=
  (∀ (s : State) (w : Nat) (temps : List Nat), s.pwrAlive = true → ∃ t, exec (.governorEpoch w temps) s = .next t ∧
    t.reg Reg.pwrToklast = s.liveAudit ∧ t.pwr.epoch = (s.pwr.epoch + 1) % 2 ^ 32 ∧ t.pwr.ramp = s.get Reg.pwrOpset 3 2 ∧
    t.mem = s.mem ∧ t.opEff = s.opEff ∧ Setpoints t t.vcoreOp ∧ (∀ b ∈ t.pwr.boosts, b.ending = false) ∧
    (s.capInForce < w ∨ t.pwr.hot ≠ [] →
      ∃ k, 1 ≤ k ∧ k ≤ 32 ∧ t.get Reg.pwrGrant 8 0 = max 64 (s.get Reg.pwrGrant 8 0 - k)) ∧
    (w ≤ s.capInForce → t.pwr.hot = [] → ∃ k, k ≤ 32 ∧ t.get Reg.pwrGrant 8 0 = min 256 (s.get Reg.pwrGrant 8 0 + k)) ∧
    ∀ g, g < 64 →
      let n := t.get Reg.pwrGrant 8 0 * tokenLimit s.opEff / 256
      (s.idle g = true → t.cl g = noTokens (s.cl g)) ∧
      (s.idle g = false → t.cl g = { s.cl g with
        pool := n - min n (s.cl g).held.length, held := (s.cl g).held.drop (min n (s.cl g).held.length) })) ∧
  (∀ (s : State) (g u : Nat), s.running = true → g < 64 → u < 17 → s.idle g = false → s.unitHeld g u = false →
    (s.unitActive g u = false → exec (.tokenTake g u) s = .next s) ∧
    (s.unitActive g u = true → ∃ t, exec (.tokenTake g u) s = .next t ∧ (∀ h, h ≠ g → t.cl h = s.cl h) ∧
      { t with cls := s.cls, pwr := { t.pwr with consumed := s.pwr.consumed } } = s ∧
      ((s.cl g).pool = 0 → (t.cl g).held = (s.cl g).held ++ [u] ∧ (t.cl g).pool = 0 ∧ t.pwr.consumed = s.pwr.consumed) ∧
      ((s.cl g).pool ≠ 0 → (t.cl g).held = (s.cl g).held ∧ (t.cl g).pool = (s.cl g).pool - 1 ∧
        t.pwr.consumed = s.pwr.consumed + 1))) ∧
  (∀ (s : State) (v : Nat), s.Up → v < 16 → ∃ t, exec (.operatingPointSet .host v) s = .next t ∧
    exec (.rampLimitSet .host v) s = .next t ∧ t.opSet = v % 4 ∧
    (v / 4 ≠ 3 → t.get Reg.pwrOpset 3 2 = v / 4 ∧ s.OnlyRegs (· == Reg.pwrOpset) t) ∧
    (v / 4 = 3 → t.get Reg.pwrOpset 3 2 = s.get Reg.pwrOpset 3 2 ∧
      t.get Reg.pwrViolcnt 15 0 = min 65535 (s.get Reg.pwrViolcnt 15 0 + 1) ∧
      s.OnlyRegs (fun r => r == Reg.pwrOpset || r == Reg.pwrViolcnt) t)) ∧
  (∀ (s : State) (w : OpSwitch), s.pwrAlive = true → s.pwr.switch = some w → w.raising = [] → w.target < 4 →
    ∃ t, exec .opSwitchComplete s = .next t ∧ t.opEff = w.target ∧ t.pwr.switch = none ∧ Setpoints t w.target ∧ t.get Reg.clkStat 15 0 = rootMhz w.target ∧
      t.get Reg.clkStat 29 29 = 1 - s.get Reg.clkStat 29 29 ∧ t.get Reg.clkStat s.spareLock s.spareLock = 1 ∧
      (s.opSet = w.target → t.get Reg.pwrStat 23 23 = 0) ∧
      s.OnlyRegs (fun r => r == Reg.clkStat || r == Reg.pwrStat) { t with pwr := s.pwr }) ∧
  (∀ (s : State) (die : Nat), s.pwrAlive = true →
    (∀ w, s.pwr.switch = some w → die ∈ w.raising → ∃ t, exec (.voltageWriteComplete die) s = .next t ∧
      t.pwr.switch = some { w with raising := w.raising.filter (· != die) } ∧
      (die ∈ s.boostedDies → die ∈ t.pwr.settled) ∧ s.OnlyRegs (· == Reg.clkStat) { t with pwr := s.pwr }) ∧
    ((∀ w, s.pwr.switch = some w → die ∉ w.raising) → exec (.voltageWriteComplete die) s =
      .next (if die ∈ s.boostedDies ∧ die ∉ s.pwr.settled then { s with pwr := { s.pwr with settled := s.pwr.settled ++ [die] } }
        else s))) ∧
  (∀ (s : State) (v : Nat), s.Up → v < 2 ^ 32 → ∃ t, exec (.capWrite .host v) s = .next t ∧
    t.get Reg.pwrCap 15 0 = (if capOk (fld v 15 0) then fld v 15 0 else s.get Reg.pwrCap 15 0) ∧
    t.get Reg.pwrCap 31 16 = (if capOk (fld v 31 16) then fld v 31 16 else s.get Reg.pwrCap 31 16) ∧
    t.get Reg.pwrStat 15 0 = t.capInForce ∧
    (capOk (fld v 15 0) = true → capOk (fld v 31 16) = true →
      s.OnlyRegs (fun r => r == Reg.pwrCap || r == Reg.pwrStat) t) ∧
    (capOk (fld v 15 0) = false ∨ capOk (fld v 31 16) = false →
      t.get Reg.pwrViolcnt 15 0 = min 65535 (s.get Reg.pwrViolcnt 15 0 + 1))) ∧
  (∀ (s : State) (level : Bool), (s.pins.vio = false → exec (.caplimN level) s = .next s) ∧
    (s.pins.vio = true → s.pwrAlive = true → 5 ≤ s.sec.bootStep → ∃ t, exec (.caplimN level) s = .next t ∧
    t.pins = { s.pins with caplimN := level } ∧ t.get Reg.pwrStat 26 26 = (if level then 0 else 1) ∧
    t.get Reg.pwrStat 15 0 = t.capInForce ∧ s.OnlyRegs (· == Reg.pwrStat) { t with pins := s.pins })) ∧
  (∀ (s : State) (die temp : Nat), die < 20 → temp < 2 ^ 16 →
    (temp ≤ 115 * 16 ∨ s.pins.pwrgood = false → exec (.thermalTrip die temp) s = .next s) ∧
    (115 * 16 < temp → s.pins.pwrgood = true → ∃ t, exec (.thermalTrip die temp) s = .next t ∧ t.pins.thermtrip = true ∧ t.running = false ∧
      t.hostUp = false ∧ t.reg Reg.senTrip = 2 ^ 31 + die * 2 ^ 24 + temp ∧ t.hbmLost = s.hbmLost + 1 ∧
      t.ddrLost = s.ddrLost + 1)) ∧
  (∀ (s : State) (die cycles : Nat), s.running = true → die < 4 →
    (∃ t, exec (.droopTrip die) s = .next t ∧ die ∈ t.pwr.stretched ∧
      t.get (Reg.clkDroopcnt die) 31 0 = min (2 ^ 32 - 1) (s.get (Reg.clkDroopcnt die) 31 0 + 1) ∧ t.sen.droops = s.sen.droops + 1 ∧
      s.OnlyRegs (· == Reg.clkDroopcnt die) { t with pwr := s.pwr, sen := s.sen }) ∧
    (die ∈ s.pwr.stretched → 32 ≤ cycles → ∃ t, exec (.stretchEnd die cycles) s = .next t ∧ die ∉ t.pwr.stretched ∧
      t.get (Reg.clkStretch die) 63 0 = min (2 ^ 64 - 1) (s.get (Reg.clkStretch die) 63 0 + cycles) ∧
      s.OnlyRegs (· == Reg.clkStretch die) { t with pwr := s.pwr })) ∧
  (∀ (s : State) (g u : Nat), s.running = true → g < 64 → u < 17 → s.unitWorks g u = false → s.parkingAt g = false →
    u ∉ (s.cl g).inactive → ∃ t, exec (.unitInactive g u) s = .next t ∧
      t.cl g = { s.cl g with inactive := (s.cl g).inactive ++ [u] } ∧ (∀ h, h ≠ g → t.cl h = s.cl h) ∧ { t with cls := s.cls } = s) ∧
  (∀ (s : State), s.running = true → ∃ t, exec .activationGrant s = .next t ∧ t.mem = s.mem ∧
    s.OnlyRegs (· == Reg.pwrRampcyc) { t with cls := s.cls, free := s.free } ∧
    ∀ d, d < 4 → ∀ g u, (g, u) ∈ s.waitingUnits d →
      (s.waitingUnits d).length ≤ s.activations d ∨ (s.waitingUnits d).head? = some (g, u) → u ∉ (t.cl g).inactive) ∧
  ∀ (s : State) (p : Nat), s.pwrAlive = true →
    ((∃ b ∈ s.pwr.boosts, b.part = p ∧ b.started = false ∧ 1 ≤ b.age ∧ b.lead < 10 * (b.age + 1) + 20) →
      ∃ t, exec (.boostStart p) s = .next t ∧ t.pwr.boosts = s.pwr.boosts.map (·.start p) ∧ Setpoints t t.vcoreOp ∧
      (∀ b ∈ t.pwr.boosts, b.part = p → 1 ≤ b.age → b.lead < 10 * (b.age + 1) + 20 → b.started = true) ∧ t.get Reg.pwrStat 24 24 = 1 ∧
      s.OnlyRegs (· == Reg.pwrStat) { t with pwr := s.pwr }) ∧
    ∃ t, exec (.boostEnd p) s = .next t ∧
      (∀ b, b ∈ t.pwr.boosts ↔ b ∈ s.pwr.boosts ∧ ¬ (b.part = p ∧ b.lead + 100 < 10 * (b.age + 1))) ∧ Setpoints t t.vcoreOp ∧
      (t.get Reg.pwrStat 24 24 = 1 ↔ ∃ b ∈ t.pwr.boosts, b.started = true) ∧
      s.OnlyRegs (· == Reg.pwrStat) { t with pwr := s.pwr }

/-! ### Power states and the sentinel (15) -/

/-- Power states and the sentinel (R435–R448). SETSTATE to the reserved state is counted and completes with OK; it completes
with BUSY while a context is live or a test runs; otherwise Parked and Dormant are entered, and the entry that ends shows the
state and, in Dormant, loses HBM. SEN_WAKE and MGT.CTL wake a device that is Parked or Dormant. A wake from Parked ends in
Active with the cap in force; one from Dormant is a warm reset. A tick samples every channel and counts; a program's addition
saturates at 32 bits. SEN.SLOT and SEN.CTL do what they say. The model's choices in it: the sentinel's clock and accesses
(log 74), and changes of power state under way (log 75). -/
def Obligations.SentinelAndPowerStates : Prop :=
  (∀ (s u : State) (q : Nat) (c : Cmd), q < 8 → s.pins.thermtrip = false → s.powerState < 2 →
    s.fetchAny q (· == 0xC0) = some (c, u) →
    let target := fld c.arg0 1 0
    let busy := u.anyLive = true ∨ u.chk.selftest ≠ [] ∨ u.chk.cltests ≠ []
    (target = 1 → exec (.setstate q) s = .next ((u.violate Reg.queViolcnt (.ctx 0)).completeCmd c stOk)) ∧
    (target ≠ 1 → busy → exec (.setstate q) s = .next (u.completeCmd c stBusy)) ∧
    (¬ busy → 2 ≤ target → u.snapBusy = true → exec (.setstate q) s = .next s) ∧
    (¬ busy → target = 0 → u.powerState = 0 → exec (.setstate q) s = .next (u.completeCmd c stOk)) ∧
    (¬ busy → target = 0 → u.powerState = 1 → u.pins.thermtrip = false → ∃ t, exec (.setstate q) s = .next t ∧ t.powerState = 4 ∧
      t.pwr.setstate = some c ∧ u.OnlyRegs (· == Reg.pwrStat) { t with pwr := u.pwr }) ∧
    (¬ busy → target = 2 → u.snapBusy = false → u.powerState = 1 → exec (.setstate q) s = .next (u.completeCmd c stOk)) ∧
    (¬ busy → 2 ≤ target → u.snapBusy = false → target = 3 ∨ u.powerState = 0 → ∃ t, exec (.setstate q) s = .next t ∧
      t.powerState = 3 ∧ t.pwr.low = target - 1 ∧ t.pwr.setstate = some c ∧ u.OnlyRegs (· == Reg.pwrStat) { t with pwr := u.pwr })) ∧
  (∀ (s : State), s.powerState = 3 → s.pins.thermtrip = false → s.pwr.low = 1 ∨ s.pwr.low = 2 →
    ∃ t, exec .lowPowerEntered s = .next t ∧ t.powerState = (if s.pwr.wake then 4 else s.pwr.low) ∧ t.pwr.setstate = none ∧
      t.pwr.boosts = [] ∧ t.get Reg.pwrStat 24 24 = 0 ∧ t.pwr.dark = true ∧ t.hbmLost = s.hbmLost + (if s.pwr.low = 2 then 1 else 0)) ∧
  (∀ (s : State) (level : Bool), s.pins.vio = false → exec (.senWake level) s = .next s) ∧
  (∀ (s : State), s.pins.thermtrip = false → s.sec.bootStep ≠ 0 → s.pins.vio = true →
    exec (.senWake false) s = .next { s with pins := { s.pins with senWake := false } } ∧
    ∃ t, exec (.senWake true) s = .next t ∧ t.pins = { s.pins with senWake := true } ∧
      (s.powerState = 1 ∨ s.powerState = 2 → t.powerState = 4) ∧ (s.powerState = 3 → s.pwr.low ≤ 2 → t.pwr.wake = true) ∧
      s.OnlyRegs (· == Reg.pwrStat) { t with pins := s.pins, pwr := s.pwr }) ∧
  (∀ (s : State) (b a : Nat), s.pins.thermtrip = false → 2 ≤ s.sec.bootStep → b < 2 → a < 128 →
    ∃ t, exec (.i3cWake (2 ^ 31 + b * 2 ^ 30 + a)) s = .next t ∧ t.get Reg.mgtCtl 30 30 = b ∧ t.get Reg.mgtCtl 6 0 = a ∧
      (s.powerState = 1 ∨ s.powerState = 2 → t.powerState = 4) ∧
      s.OnlyRegs (fun r => r == Reg.pwrStat || r == Reg.mgtCtl) { t with pwr := s.pwr }) ∧
  (∀ (s : State), s.powerState = 4 → s.pins.thermtrip = false →
    (s.pwr.low = 2 → s.pwr.capWas = none → exec .wakeComplete s = .next s.warmReset) ∧
    (s.pwr.low = 2 → s.pwr.capWas ≠ none → ∃ t, exec .wakeComplete s = .next t ∧ t.reg Reg.pwrCap = s.reg Reg.pwrCap ∧
      t.get Reg.pwrStat 15 0 = t.capInForce ∧
      s.warmReset.OnlyRegs (fun r => r == Reg.pwrCap || r == Reg.pwrStat) t) ∧
    (s.pwr.low ≠ 2 → ∃ t, exec .wakeComplete s = .next t ∧ t.powerState = 0 ∧ t.get Reg.pwrStat 15 0 = t.capInForce ∧
      t.pwr.setstate = none ∧ t.pwr.capWas = none ∧ t.pwr.dark = false)) ∧
  (∀ (s : State) (samples : List Nat), ∃ t, exec (.sentinelTick samples) s = .next t ∧
    t.sen.tick = s.sen.tick + 1 ∧ (∀ n, n < 0x28 → t.reg (Reg.senCh n) = s.sample samples n) ∧
    ((∀ i, i < 8 → s.get (Reg.senSlot i) 31 31 = 0) → t.sen = { s.sen with tick := s.sen.tick + 1, droops := 0 } ∧
      ({ t with sen := s.sen, regs := s.regs } = s ∧ ∀ off, (∀ n, n < 0x28 → off ≠ Reg.senCh n) → t.reg off = s.reg off))) ∧
  (∀ (s : State) (i pc : Nat) (flag : Bool), i < 8 → pc < 64 → fld (s.reg (Reg.senProg i pc)) 31 27 = 3 →
    let w := s.reg (Reg.senProg i pc)
    ∃ t, s.senWord i pc flag = (some (pc + 1), flag, t) ∧ t.fr i (fld w 26 24) =
        max (-2 ^ 31) (min (2 ^ 31 - 1) (s.fr i (fld w 23 21) + s.fr i (fld w 18 16))) ∧
      (∀ k, k < 8 → k ≠ fld w 26 24 → t.fr i k = s.fr i k) ∧ { t with sen := s.sen } = s) ∧
  (∀ (s : State) (i en period : Nat), s.Up → i < 8 → en < 2 → period < 256 →
    ∃ t, exec (.senSlotEnable .host i (en * 2 ^ 31 + period)) s = .next t ∧ t.get (Reg.senSlot i) 31 31 = en ∧
      t.get (Reg.senSlot i) 7 0 = (if period = 0 then s.get (Reg.senSlot i) 7 0 else period) ∧
      (en = 1 → s.get (Reg.senSlot i) 31 31 = 0 → ∀ k, t.fr i k = 0) ∧
      (∀ j k, j < 8 → j ≠ i → t.fr j k = s.fr j k) ∧
      s.OnlyRegs (fun r => r == Reg.senSlot i || (period == 0 && r == Reg.senViolcnt)) { t with sen := s.sen }) ∧
  ∀ (s : State), s.Up → ∃ t, exec (.senCtlCapclr .host (2 ^ 31)) s = .next t ∧ t.get Reg.senStat 31 31 = 0 ∧
    t.get Reg.senStat 15 0 = 0 ∧ t.get Reg.pwrStat 15 0 = t.capInForce ∧
    s.OnlyRegs (fun r => r == Reg.senStat || r == Reg.pwrStat) t

/-! ### Boot, firmware and the host port (16, 17) -/

/-- Boot, images, the blob, and the host's and management's ports (R379, R449–R466, R470, R473). The four steps of boot
follow one another: the keys and the identity digest, the image of the slot or the wait for a push, and the cores in service.
A push starts where one may, and ends in INIT with its image or in FAIL. BLOBAPPLY, FWSLOT and COREUPD complete with the
status of the first check that fails; a blob gives the settings it does not name their defaults, and where one of its items
resets the device nothing is recorded and no command is left to complete. HIF.FWVER shows the version of a valid slot image
(R474). HDM accesses reach DDR5 in plaintext; an I3C access outside the port's registers is counted and reads zero. The
model's choices in it: the modules of DDR5, the locks of the PLLs, the checks of blobs and images, and the image that runs
(logs 79, 80, 81, 82, 106). -/
def Obligations.BootAndPorts : Prop :=
  (∀ (s : State), s.pins.thermtrip = false →
    (s.sec.bootStep = 1 → exec .bootStepComplete s = .next { s with sec := { s.sec with bootStep := 2 } }) ∧
    (s.sec.bootStep = 2 → ∃ t, exec .bootStepComplete s = .next t ∧ t.sec.bootStep = 3 ∧ t.sec.keys = true ∧ t.sec.cold = false ∧
      t.phase = phLoading ∧ t.sec.waitPush = (s.pins.bootsrc == 1) ∧ t.mem = s.mem ∧
      t.get Reg.hifFwver 23 0 = (if imageValid s.sec.slot then imageVersion s.sec.slot else 0) ∧
      ∀ i, i < 4 → t.reg (Reg.secIdent i) = leAt (digest32 Config.identityKey) (8 * i) 8) ∧
    (s.sec.bootStep = 3 → s.sec.waitPush = false → s.sec.pushing = false → s.phase = phLoading →
      ∃ t, exec .bootStepComplete s = .next t ∧
        s.OnlyRegs (· == Reg.hifBootstat) { t with sec := s.sec } ∧
        if imageValid s.sec.slot then t.sec.bootStep = 4 ∧ t.sec.image = s.sec.slot ∧ t.phase = phInit ∧
          t.get Reg.hifBootstat 27 26 = 0
        else t.sec.bootStep = 3 ∧ t.sec.waitPush = true ∧ t.get Reg.hifBootstat 24 24 = 1 ∧ t.phase = phLoading) ∧
    (s.sec.bootStep = 4 → ∃ t, exec .bootStepComplete s = .next t ∧ t.sec = { s.sec with bootStep := 5 } ∧ t.phase = phReady ∧
      t.get Reg.clkStat 31 30 = 3 ∧ t.get Reg.pwrStat 26 26 = (if s.pins.caplimN then 0 else 1) ∧ t.mem = s.mem ∧
      ∀ i, i < 8 → t.coreIn i = true ∧ t.coreVersion i = imageVersion s.sec.image)) ∧
  (∀ (s : State) (pages : Nat), pages < 2048 →
    (s.sec.bootStep = 3 → s.pins.thermtrip = false → s.powerState = 0 → s.pushAllowed = true →
      ∃ t, exec (.pushGo .host (2 ^ 31 + pages)) s = .next t ∧ t.phase = phLoading ∧ t.get Reg.hifPushctl 10 0 = pages ∧
        t.sec = { s.sec with waitPush := false, pushing := true } ∧
        s.OnlyRegs (fun r => r == Reg.hifPushctl || r == Reg.hifBootstat) { t with sec := s.sec }) ∧
    (s.Up → ∃ t, exec (.pushGo .host (2 ^ 31 + pages)) s = .next t ∧ t.get Reg.hifPushctl 10 0 = pages ∧
      t.get Reg.hifViolcnt 15 0 = min 65535 (s.get Reg.hifViolcnt 15 0 + 1) ∧
      s.OnlyRegs (fun r => r == Reg.hifPushctl || r == Reg.hifViolcnt) t)) ∧
  (∀ (s : State), s.sec.pushing = true → s.pins.thermtrip = false →
    let im := (s.readPhys 0 (0x8000000000000 + fld (s.reg Reg.hifPushaddr) 50 12 * 4096)
      ((s.get Reg.hifPushctl 10 0 + 1) * 4096)).1
    ∃ t, exec .pushComplete s = .next t ∧ t.sec.pushing = false ∧ s.OnlyRegs (· == Reg.hifBootstat) { t with sec := s.sec } ∧
      if imageValid im then t.sec.bootStep = 4 ∧ t.sec.image = im.take (imageLength im) ∧ t.phase = phInit ∧
        t.get Reg.hifBootstat 27 26 = 1
      else t.phase = phFail ∧ t.sec = { s.sec with pushing := false }) ∧
  (∀ (s u : State) (q : Nat) (c : Cmd), q < 8 → s.fetchCmd q (· == 0xD0) = some (c, u) →
    let x := (u.load Reg.secViolcnt 0 (fld c.arg0 51 0) (fld c.arg1 19 0)).2
    let b := (u.load Reg.secViolcnt 0 (fld c.arg0 51 0) (fld c.arg1 19 0)).1
    let ends (st : Nat) := exec (.blobapply q) s = .next ((x.set Reg.secBlobstat 23 16 st).completeCmd c st)
    (x.locked = true → ends stBusy) ∧
    (x.locked = false → blobParse b = none → ends stMismatch) ∧
    ∀ is, x.locked = false → blobParse b = some is →
      if !x.blobAuth b is then ends stAuthFail
      else if x.blobTooNew is then ends stMismatch
      else if (x.blobDefaults.applyItems is).1 = false then
        exec (.blobapply q) s = .next (x.blobDefaults.applyItems is).2
      else ∃ t : State, exec (.blobapply q) s = .next (t.completeCmd c stOk) ∧
        (is = [] → t.get Reg.pwrOpset 1 0 = 0 ∧ t.get Reg.pwrOpset 3 2 = 1 ∧ ∀ p, p < 64 → t.get (Reg.chkLevel p) 1 0 = 1) ∧
        t.locked = true ∧ t.sec.blob = b ∧ t.phase = phConfigured ∧ t.get Reg.secBlobstat 23 16 = stOk ∧
        ∀ i, i < 4 → t.reg (Reg.secBlobdig i) = leAt (digest32 b) (8 * i) 8) ∧
  (∀ (s u : State) (q : Nat) (c : Cmd), q < 8 → s.fetchCmd q (· == 0xD1) = some (c, u) →
    let x := (u.load Reg.secViolcnt 0 (fld c.arg0 51 0) (fld c.arg1 19 0)).2
    let im := (u.load Reg.secViolcnt 0 (fld c.arg0 51 0) (fld c.arg1 19 0)).1
    (u.sec.slotWrite ≠ none → exec (.fwslot q) s = .next (u.completeCmd c stBusy)) ∧
    (u.sec.slotWrite = none → exec (.fwslot q) s = .next
      (if imageValid im then { x with sec := { x.sec with slotWrite := some ⟨c, im.take (imageLength im)⟩ } }
       else x.completeCmd c stAuthFail))) ∧
  (∀ (s : State) (w : SlotWrite), s.running = true → s.sec.slotWrite = some w → ∃ (t : State) (st : Nat),
    exec .fwslotComplete s = .next (t.completeCmd w.cmd st) ∧ t.sec.slotWrite = none ∧ t.mem = s.mem ∧
      (st = stOk ∧ t.sec.slot = w.image ∨ st = stIncomplete ∧ t.sec.slot = []) ∧
      t.get Reg.hifFwver 23 0 = (if imageValid t.sec.slot then imageVersion t.sec.slot else 0)) ∧
  (∀ (s u : State) (q : Nat) (c : Cmd), q < 8 → s.fetchCmd q (· == 0xD2) = some (c, u) →
    let i := fld c.arg0 2 0
    let x := (u.load Reg.secViolcnt 0 (fld c.arg1 51 0) (fld c.arg2 22 0)).2
    let im := (u.load Reg.secViolcnt 0 (fld c.arg1 51 0) (fld c.arg2 22 0)).1
    let mixed := (x.otherCores i).any fun k => imageMajor (x.coreVersion k) != imageMajor (imageVersion im)
    (u.coreBusy i = true → exec (.coreupd q) s = .next (u.completeCmd c stBusy)) ∧
    (u.coreBusy i = false →
      if !imageValid im then exec (.coreupd q) s = .next (x.completeCmd c stAuthFail)
      else if mixed then exec (.coreupd q) s = .next (x.completeCmd c stMismatch)
      else ∃ t, exec (.coreupd q) s = .next t ∧ t.coreIn i = false ∧ t.get (Reg.hifCorever i) 30 30 = 1 ∧
        t.sec.coreUpd = some ⟨c, i, im.take (imageLength im)⟩ ∧ x.OnlyRegs (· == Reg.hifCorever i) { t with sec := x.sec })) ∧
  (∀ (s : State) (w : CoreUpd), s.running = true → s.sec.coreUpd = some w → w.core < 8 →
    ∃ t : State, exec .coreupdComplete s = .next (t.completeCmd w.cmd stOk) ∧ t.coreIn w.core = true ∧
      t.coreVersion w.core = imageVersion w.image ∧ t.sec.image = w.image ∧ t.get (Reg.hifCorever w.core) 30 30 = 0 ∧ t.sec.coreUpd = none ∧ w.core ∉ t.sec.parity ∧
      s.OnlyRegs (· == Reg.hifCorever w.core) { t with sec := s.sec }) ∧
  (∀ (s : State) (en base n : Nat), s.Up → en < 2 → base < 2 ^ 24 → n < 2 ^ 12 →
    let v := en * 2 ^ 63 + base * 2 ^ 28 + n
    (s.locked = true → exec (.hdmwinWrite .host v) s = .next s) ∧
    (s.locked = false → en = 0 ∨ s.hdmOk v = true → exec (.hdmwinWrite .host v) s = .next (s.setReg Reg.hifHdmwin v)) ∧
    (s.locked = false → en = 1 → s.hdmOk v = false → exec (.hdmwinWrite .host v) s =
      .next ((s.setReg Reg.hifHdmwin (base * 2 ^ 28 + n)).violate Reg.hifViolcnt .host))) ∧
  (∀ (s : State) (addr size v : Nat), s.Up → (∀ i, i < size → s.inHdm (addr + i) = true) →
    exec (.hdmAccess true addr size v) s = .next (s.writePhys 0 addr (leBytes size v)) ∧
    exec (.hdmAccess false addr size v) s = .next { s with resp := [leNat (s.readPhys 0 addr size).1] }) ∧
  ∀ (s : State) (addr size v : Nat), s.mgmtUp = true →
    (s.mgmtOk true addr size = false → exec (.i3cTransaction true addr size v) s = .next (s.violate Reg.mgtViolcnt .mgmt)) ∧
    (s.mgmtOk false addr size = false → exec (.i3cTransaction false addr size v) s =
      .next { s.violate Reg.mgtViolcnt .mgmt with resp := [0] }) ∧
    (s.pins.thermtrip = false → s.powerState = 0 →
      exec (.i3cTransaction false (Reg.secIdent 0) 8 v) s = .next { s with resp := [s.reg (Reg.secIdent 0)] })

/-! ### Resets and pins (16) -/

/-- Resets (R16, R287, R405, R457, R458, R480, R488–R490). A cold reset returns every register to its reset value and loses
the contents of HBM and DDR5, the keys and the lock; a warm reset keeps DDR5, the keys, the fault records and the registers
that R458 names. Both lose what the queues and contexts held, and boot starts at once when the pins allow it: at the first
step, or at the third once keys are derived. Host memory lies outside. The pins hold a reset and release it, while VIO is
applied (R486). TMS held high for five clocks resets the test port, and TDO is driven only while it shifts. The model's
choices in it: the pins before their first event and the test port (logs 4, 5), what resets lose and keep (logs 39, 83, 84),
power that fails (log 78), and VIO (log 122). -/
def Obligations.ResetsAndPins : Prop :=
  (∀ (s : State), s.Up → exec (.hifResetCold .host (2 ^ 31)) s = .next s.coldReset ∧
    exec (.hifResetWarm .host (2 ^ 30)) s = .next s.warmReset ∧ exec .cxlConventionalReset s = .next s.warmReset) ∧
  (∀ (s : State),
    let t := s.coldReset
    t.mem = s.mem ∧ t.hbmLost = s.hbmLost + 1 ∧ t.ddrLost = s.ddrLost + 1 ∧ t.pending = s.pending ∧
    (∀ off, off ≠ Reg.hifBootstat → t.reg off = regReset off) ∧ t.ctxs = [] ∧ t.queues = [] ∧ t.cls = [] ∧ t.flights = [] ∧
    t.pools = [] ∧ t.ports = [] ∧ t.stp = .init ∧ t.snp = .init ∧ t.chk = .init ∧ t.pwr = .init ∧ t.sen = .init ∧
    t.sec.keys = false ∧ t.sec.storeKey = [] ∧ t.pins.thermtrip = false ∧
    t.sec.bootStep = (if s.pins.pwrgood ∧ s.pins.resetN ∧ s.pins.supplies then 1 else 0)) ∧
  (∀ (s : State),
    let t := s.warmReset
    let named (off : Nat) := off = Reg.hifBootstat ∨ off = Reg.hifFwver ∨ off = Reg.chkStat ∨ off = Reg.pwrPower ∨ off = Reg.snpSlot0 0 ∨
      off = Reg.snpSlot0 1 ∨ ∃ g, g < 64 ∧ off = Reg.chkEngstate g
    t.mem = s.mem ∧ t.hbmLost = s.hbmLost + 1 ∧ t.ddrLost = s.ddrLost ∧ t.pending = s.pending ∧ t.ctxs = [] ∧ t.queues = [] ∧
    t.cls = [] ∧ t.flights = [] ∧ t.pools = [] ∧ t.ports = [] ∧ t.stp = .init ∧ t.pwr = .init ∧ t.sen = .init ∧
    t.chk = { Chk.init with events := s.chk.events } ∧ t.snp = { Snp.init with slots := s.snp.slots, nextXid := s.snp.nextXid } ∧
    (∀ off, ¬ named off → t.reg off = if keptReg off then s.reg off else regReset off) ∧
    t.get Reg.chkStat 31 31 = s.get Reg.chkStat 31 31 ∧ t.get Reg.pwrPower 31 16 = s.get Reg.pwrPower 31 16 ∧
    (∀ k, k < 2 → t.slotState k = slotAfterWarm (s.slotState k) ∧ t.slotStep k = s.slotStep k ∧ t.slotEpoch k = s.slotEpoch k) ∧
    (∀ g e, g < 64 → e < 16 → t.engState g e = if s.engState g e = 2 then 2 else 0) ∧ t.sec.keys = s.sec.keys ∧
    t.sec.storeKey = [] ∧ t.pins = s.pins ∧
    (t.sec.bootStep = 3 → t.get Reg.hifFwver 23 0 = if imageValid t.sec.slot then imageVersion t.sec.slot else 0) ∧
    t.sec.bootStep = (if s.pins.pwrgood ∧ s.pins.resetN ∧ s.pins.supplies ∧ s.pins.thermtrip = false then
      (if s.sec.keys then 3 else 1) else 0)) ∧
  (∀ (s : State), ∃ t, exec .pwrgoodDeassert s = .next t ∧ t.pins.pwrgood = false ∧ t.pins.tdo = none ∧ t.alertN = false ∧ t.sec.bootStep = 0 ∧ t.sec.keys = false ∧
    t.mem = s.mem ∧ t.hbmLost = s.hbmLost + 1 ∧ t.ddrLost = s.ddrLost + 1 ∧ (s.pins.thermtrip = false → t.pins.thermtrip = false)) ∧
  (∀ (s : State), (s.pins.pwrgood = true → exec .pwrgoodAssert s = .next s) ∧
    (s.pins.pwrgood = false → s.pins.thermtrip = false → s.sec.bootStep = 0 → s.sec.cold = true →
      ∃ t, exec .pwrgoodAssert s = .next t ∧ t.pins.pwrgood = true ∧ t.pins.vio = true ∧ t.mem = s.mem ∧
        t.sec.bootStep = if t.pins.supplies ∧ s.pins.resetN then 1 else 0)) ∧
  (∀ (s : State), (s.pins.pwrgood = false → exec .supplyInTolerance s = .next s) ∧
    (s.pins.pwrgood = true → s.pins.thermtrip = false → s.sec.bootStep = 0 → ∃ t, exec .supplyInTolerance s = .next t ∧
      t.pins = { s.pins with supplies := true } ∧ t.mem = s.mem ∧
      t.sec.bootStep = if s.pins.resetN then (if s.sec.cold then 1 else 3) else 0)) ∧
  (∀ (s : State), let t := { s with pins := { s.pins with resetN := false } }
    exec .resetNAssert s = .next (if s.pins.vio = false then s else if s.pins.pwrgood ∧ s.sec.bootStep ≠ 0 then t.warmReset else t)) ∧
  (∀ (s : State) (src : Nat), (s.pins.resetN = true ∨ s.pins.vio = false → exec (.resetNDeassert src) s = .next s) ∧
    (s.pins.resetN = false → s.pins.vio = true → ∃ t, exec (.resetNDeassert src) s = .next t ∧
      t.pins = { s.pins with resetN := true, bootsrc := src % 4 } ∧ t.mem = s.mem ∧
      (s.pins.pwrgood = true → s.pins.supplies = true → s.pins.thermtrip = false → s.sec.bootStep = 0 →
        t.sec.bootStep = (if s.sec.cold then 1 else 3) ∧ t.get Reg.hifBootstat 25 25 = if 2 ≤ src % 4 then 1 else 0))) ∧
  (∀ (s : State) (tms tdi : Bool),
    (s.pins.vio = false → ∀ tck trst, exec (.boundaryScan tck tms tdi trst) s = .next s) ∧
    (s.pins.vio = true →
      (∀ tck, exec (.boundaryScan tck tms tdi false) s = .next { s with pins := { s.pins with tap := 0, tck := tck, tdo := none } }) ∧
      (s.pins.tck = false → exec (.boundaryScan true tms tdi true) s =
        .next { s with pins := { s.pins with tap := tapNext s.pins.tap tms, tck := true } }) ∧
      ∃ t, exec (.boundaryScan false tms tdi true) s = .next t ∧ t.pins.tap = s.pins.tap ∧ t.pins.tck = false ∧
        { t with pins := s.pins, free := s.free } = s ∧
        (s.pins.tck = true → (t.pins.tdo.isSome = true ↔ s.pins.pwrgood = true ∧ tapShifts s.pins.tap = true)))) ∧
  ∀ st, st < 16 → tapNext (tapNext (tapNext (tapNext (tapNext st true) true) true) true) true = 0

/-! ### Attestation (16) -/

/-- A mailbox request changes SPDM's state and the answer, and nothing else; it may draw free values. -/
def Answers (s t : State) : Prop := { t with sec := { t.sec with spdm := s.sec.spdm }, resp := s.resp, free := s.free } = s

/-- The answer is this message. -/
def Replies (t : State) (p1 code : Nat) (body : List Byte) : Prop := t.resp = (spdmMsg 0x13 code p1 0 body).map fun b => b.toNat

/-- Requests after GET_VERSION, with their codes. -/
def spdmRows (msg : List Byte) : List (Nat × Instr) :=
  [(0xE1, .getCapabilities msg), (0xE3, .negotiateAlgorithms msg), (0x81, .getDigests msg), (0x82, .getCertificate msg),
   (0x83, .challenge msg), (0xE0, .getMeasurements msg), (0xE4, .keyExchange msg), (0xE5, .finish msg), (0xE9, .keyUpdate msg),
   (0xE8, .spdmHeartbeat msg), (0xEC, .endSession msg), (0xFE, .vendorDefined msg)]

/-- The mailbox (R449, R460, R467–R469). What SPDM and DOE fix is the model's (log 8): codes, the version 1.3 and its errors.
GET_VERSION restarts the connection; capabilities and algorithms follow in that order, and the device takes ML-DSA-65 and
SHA3-384 alone, with secp384r1 and AES-256-GCM for a session (R468). Digests and certificates are those of the one chain of
slot 0. With the algorithms negotiated every request of a certificate, challenge or measurement is answered, the last two
signed over the request and the reply. One session at most is open: KEY_EXCHANGE begins it, FINISH opens it or ends it,
END_SESSION ends it. IDE_KM sets the keys of the link's streams and takes them into use. Configuration requests are answered
with a retry status in step 1 of boot and with success afterwards; the BARs show their sizes. The model's choices in it: the
standards that the spec names, configuration space, the measurement order and the ciphers (logs 7, 8, 40, 82). -/
def Obligations.Attestation : Prop :=
  (∀ (s : State) (msg : List Byte), s.hostUp = true →
    (leAt msg 1 1 = 0x84 → leAt msg 0 1 = 0x10 → ∃ t, exec (.getVersion msg) s = .next t ∧ Answers s t ∧
      t.sec.spdm = { Spdm.init with stage := 1 } ∧ t.resp = [0x10, 4, 0, 0, 0, 1, 0, 0x13]) ∧
    (∀ r ∈ spdmRows msg, leAt msg 1 1 = r.1 → leAt msg 0 1 ≠ 0x13 →
      ∃ t, exec r.2 s = .next t ∧ Answers s t ∧ t.sec = s.sec ∧ Replies t errVersion 0x7F []) ∧
    (leAt msg 0 1 = 0x13 →
      (leAt msg 1 1 = 0xE1 → s.sec.spdm.stage = 1 → ∃ t body, exec (.getCapabilities msg) s = .next t ∧ Answers s t ∧
        t.sec.spdm = { s.sec.spdm with stage := 2 } ∧ Replies t 0 0x61 body) ∧
      (leAt msg 1 1 = 0xE3 → s.sec.spdm.stage = 2 → ∃ t, exec (.negotiateAlgorithms msg) s = .next t ∧ Answers s t ∧
        if offersSignature msg = true ∧ offersHash msg = true then
          t.sec.spdm = { s.sec.spdm with
            stage := 3, sealed := offersStruct msg 2 dheSecp384r1 && offersStruct msg 3 aeadAes256Gcm } ∧
          t.resp = (algorithmsReply msg).map (fun b => b.toNat) ∧ leAt (algorithmsReply msg) 16 4 = hashSha3_384 ∧
          leAt (algorithmsReply msg) 12 4 = 0 ∧ leAt (algorithmsReply msg) 36 4 = Config.mldsaEntry.toNat
        else t.sec = s.sec ∧ Replies t errInvalid 0x7F []) ∧
      (s.sec.spdm.stage = 3 →
        (leAt msg 1 1 = 0x81 → exec (.getDigests msg) s =
          .next { s with resp := (spdmMsg 0x13 0x01 0 1 (Keccak.sha3384 Config.certChain)).map fun b => b.toNat }) ∧
        (leAt msg 1 1 = 0x82 → leAt msg 2 1 % 16 = 0 → leAt msg 4 2 < Config.certChain.length →
          let rest := Config.certChain.drop (leAt msg 4 2)
          let part := rest.take (leAt msg 6 2)
          ∃ t, exec (.getCertificate msg) s = .next t ∧ Answers s t ∧ t.sec = s.sec ∧
            Replies t 0 0x02 (leBytes 2 part.length ++ leBytes 2 (rest.length - part.length) ++ part)) ∧
        (leAt msg 1 1 = 0x83 → leAt msg 2 1 % 16 = 0 → ∃ t body, exec (.challenge msg) s = .next t ∧ Answers s t ∧
          t.sec = s.sec ∧ Replies t 0 0x03 (body ++ Config.sign (msg ++ body))) ∧
        (leAt msg 1 1 = 0xE0 →
          (leAt msg 3 1 = 0 → ∃ t, exec (.getMeasurements msg) s = .next t ∧ Answers s t ∧ Replies t 5 0x60 []) ∧
          (∀ k, 1 ≤ k → k ≤ 5 → leAt msg 3 1 = k → ∃ t rest, exec (.getMeasurements msg) s = .next t ∧ Answers s t ∧
            Replies t 0 0x60 (s.measurement k ++ rest ++ Config.sign (msg ++ (s.measurement k ++ rest)))) ∧
          (leAt msg 3 1 = 0xFF → ∃ t rest, exec (.getMeasurements msg) s = .next t ∧ Answers s t ∧
            let all := (List.range 5).flatMap fun i => s.measurement (i + 1)
            Replies t 0 0x60 (all ++ rest ++ Config.sign (msg ++ (all ++ rest))))) ∧
        (leAt msg 1 1 = 0xE4 → s.sec.spdm.sealed = false → ∃ t, exec (.keyExchange msg) s = .next t ∧ Answers s t ∧
          t.sec = s.sec ∧ Replies t errUnsupported 0x7F []) ∧
        (leAt msg 1 1 = 0xE4 → s.sec.spdm.sealed = true →
          (s.sec.spdm.session ≠ 0 → ∃ t, exec (.keyExchange msg) s = .next t ∧ Answers s t ∧ t.sec = s.sec ∧
            Replies t errLimit 0x7F []) ∧
          (s.sec.spdm.session = 0 → leAt msg 3 1 % 16 = 0 → ∃ t body, exec (.keyExchange msg) s = .next t ∧ Answers s t ∧
            t.sec.spdm.session = 1 ∧ t.sec.spdm.sessionId % 65536 = leAt msg 4 2 ∧
            Replies t 0 0x64 (body ++ Config.sign (msg ++ body)))) ∧
        (leAt msg 1 1 = 0xE5 → s.sec.spdm.session = 1 →
          ∃ t body, exec (.finish msg) s = .next t ∧ Answers s t ∧
            if Config.finishOk msg s.sec.spdm.sessionId then
              t.sec.spdm = { s.sec.spdm with session := 2 } ∧ Replies t 0 0x65 body
            else t.sec.spdm = { s.sec.spdm with session := 0 } ∧ Replies t errDecrypt 0x7F [])) ∧
      (s.sec.spdm.session = 2 →
        (leAt msg 1 1 = 0xE9 → 1 ≤ leAt msg 2 1 → leAt msg 2 1 ≤ 3 → ∃ t, exec (.keyUpdate msg) s = .next t ∧ Answers s t ∧
          t.sec.spdm = { s.sec.spdm with keys := s.sec.spdm.keys + (if leAt msg 2 1 = 3 then 0 else 1) } ∧
          t.resp = [0x13, 0x69, leAt msg 2 1, leAt msg 3 1]) ∧
        (leAt msg 1 1 = 0xE8 → ∃ t, exec (.spdmHeartbeat msg) s = .next t ∧ Answers s t ∧ t.sec = s.sec ∧ Replies t 0 0x68 []) ∧
        (leAt msg 1 1 = 0xEC → ∃ t, exec (.endSession msg) s = .next t ∧ Answers s t ∧ t.sec.spdm.session = 0 ∧
          Replies t 0 0x6C []) ∧
        (leAt msg 1 1 = 0xFE →
          (kmRequest msg = false → ∃ t, exec (.vendorDefined msg) s = .next t ∧ Answers s t ∧ t.sec = s.sec ∧
            Replies t errInvalid 0x7F []) ∧
          (kmRequest msg = true →
            (kmObject msg = 0 → ∃ t body, exec (.vendorDefined msg) s = .next t ∧ Answers s t ∧ t.sec = s.sec ∧
              Replies t 0 0x7E body) ∧
            (kmObject msg = 2 → ∃ t body, exec (.vendorDefined msg) s = .next t ∧ Replies t 0 0x7E body ∧
              { t with sec := { t.sec with ideKeys := s.sec.ideKeys }, resp := s.resp } = s ∧
              Tab.find t.sec.ideKeys (kmSlot msg) = some (((kmPayload msg).drop 8).take 40)) ∧
            (kmObject msg = 4 → ∃ t body, exec (.vendorDefined msg) s = .next t ∧ Replies t 0 0x7E body ∧
              { t with sec := { t.sec with ideOn := s.sec.ideOn }, resp := s.resp } = s ∧
              ((Tab.find s.sec.ideKeys (kmSlot msg)).isSome → kmSlot msg ∈ t.sec.ideOn)) ∧
            (kmObject msg = 5 → ∃ t body, exec (.vendorDefined msg) s = .next t ∧ Replies t 0 0x7E body ∧
              { t with sec := { t.sec with ideOn := s.sec.ideOn }, resp := s.resp } = s ∧ kmSlot msg ∉ t.sec.ideOn)))))) ∧
  (∀ (s : State) (msg : List Byte), s.hostUp = true →
    exec (.cdatRequest msg) s = .next { s with resp := (Config.reply 0 msg 0).map fun b => b.toNat } ∧
    (leAt msg 0 1 = 0 → exec (.doeDiscovery msg) s = .next { s with resp := [1, 0, 0, 1] }) ∧
    (leAt msg 0 1 = 3 → exec (.doeDiscovery msg) s = .next { s with resp := [0x98, 0x1E, 2, 0] })) ∧
  ∀ (s : State) (write : Bool) (addr size v : Nat),
    (s.sec.bootStep = 1 → s.pins.thermtrip = false →
      exec (.configurationRequest write addr size v) s = .next { s with resp := [2] }) ∧
    (s.hostUp = true → ∃ t, exec (.configurationRequest write addr size v) s = .next t ∧ t.resp.head? = some 0 ∧
      (write = true → Tab.find t.sec.config addr = some (v % 2 ^ (8 * size))) ∧
      (write = false → t.sec = s.sec ∧ t.resp.length = 2) ∧
      { t with sec := { t.sec with config := s.sec.config }, resp := s.resp } = s) ∧
    (s.hostUp = true → s.sec.bootStep ≠ 1 → ∀ r ∈ [(0x10, 2 ^ 26), (0x18, 2 ^ 21), (0x20, 2 ^ 16)],
      exec (.configurationRequest false r.1 4 v) s =
        .next { s with resp := [0, ((Tab.find s.sec.config r.1).getD 0 / r.2 * r.2 + 4) % 2 ^ 32] })
end

