-- ==== Sys2Proof/Laws/Memory.lean ====
section
/-! SUPPORT. Laws of sparse tables and memories: reading after writing, and the canonical form. -/

set_option Elab.async false
set_option linter.all false

namespace Sys2Proof

variable {α : Type}

/-! ### Reading after writing -/

@[simp] theorem Tab.find_put_same (t : Tab α) (k : Nat) (v : α) : Tab.find (Tab.put t k v) k = some v := by
  induction t with
  | nil => simp [Tab.put, Tab.find]
  | cons p rest ih =>
    obtain ⟨a, w⟩ := p
    unfold Tab.put
    split
    · simp [Tab.find]
    · split
      · simp [Tab.find]
      · simp [Tab.find, *]

theorem Tab.find_put_ne (t : Tab α) {k j : Nat} (v : α) (h : j ≠ k) : Tab.find (Tab.put t k v) j = Tab.find t j := by
  induction t with
  | nil => simp [Tab.put, Tab.find, Ne.symm h]
  | cons p rest ih =>
    obtain ⟨a, w⟩ := p
    unfold Tab.put
    split
    · simp [Tab.find, Ne.symm h]
    · split
      · next hak => subst hak; simp [Tab.find, Ne.symm h]
      · simp [Tab.find, ih]

theorem Tab.find_put (t : Tab α) (k j : Nat) (v : α) :
    Tab.find (Tab.put t k v) j = if j = k then some v else Tab.find t j := by
  split
  · next h => subst h; exact Tab.find_put_same t j v
  · next h => exact Tab.find_put_ne t v h

@[simp] theorem Tab.find_erase_same (t : Tab α) (k : Nat) : Tab.find (Tab.erase t k) k = none := by
  induction t with
  | nil => rfl
  | cons p rest ih =>
    obtain ⟨a, w⟩ := p
    by_cases h : a = k
    · simpa [Tab.erase, h] using ih
    · simpa [Tab.erase, Tab.find, h] using ih

theorem Tab.find_erase_ne (t : Tab α) {k j : Nat} (h : j ≠ k) : Tab.find (Tab.erase t k) j = Tab.find t j := by
  induction t with
  | nil => rfl
  | cons p rest ih =>
    obtain ⟨a, w⟩ := p
    by_cases hk : a = k
    · subst hk; simpa [Tab.erase, Tab.find, Ne.symm h] using ih
    · by_cases hj : a = j
      · simp [Tab.erase, Tab.find, hj, h]
      · simpa [Tab.erase, Tab.find, hk, hj] using ih

@[simp] theorem Tab.getD_put_same (d : α) (t : Tab α) (k : Nat) (v : α) : Tab.getD d (Tab.put t k v) k = v := by
  simp [Tab.getD]

theorem Tab.getD_put_ne (d : α) (t : Tab α) {k j : Nat} (v : α) (h : j ≠ k) :
    Tab.getD d (Tab.put t k v) j = Tab.getD d t j := by
  simp [Tab.getD, Tab.find_put_ne t v h]

@[simp] theorem Tab.getD_setD_same [DecidableEq α] (d : α) (t : Tab α) (k : Nat) (v : α) : Tab.getD d (Tab.setD d t k v) k = v := by
  unfold Tab.setD
  split
  · next h => simp [Tab.getD, h]
  · simp

theorem Tab.getD_setD_ne [DecidableEq α] (d : α) (t : Tab α) {k j : Nat} (v : α) (h : j ≠ k) :
    Tab.getD d (Tab.setD d t k v) j = Tab.getD d t j := by
  unfold Tab.setD
  split
  · simp [Tab.getD, Tab.find_erase_ne t h]
  · exact Tab.getD_put_ne d t v h

variable {w : Nat}

/-- A read after a write to the same address gives the value written. -/
@[simp] theorem Memory.read_write_same (m : Memory w) (a : Nat) (v : BitVec w) : (m.write a v).read a = v := by
  simp [Memory.read, Memory.write]

/-- A write leaves every other address alone. -/
theorem Memory.read_write_ne (m : Memory w) {a b : Nat} (v : BitVec w) (h : b ≠ a) : (m.write a v).read b = m.read b := by
  simp [Memory.read, Memory.write, Tab.getD_setD_ne _ _ _ h]

/-! ### The canonical form -/

theorem Tab.rising_mono {t : Tab α} {lo lo' : Nat} (h : lo' ≤ lo) (ht : Tab.rising lo t = true) :
    Tab.rising lo' t = true := by
  cases t with
  | nil => rfl
  | cons p rest =>
    obtain ⟨a, v⟩ := p
    simp [Tab.rising] at ht ⊢
    exact ⟨by omega, ht.2⟩

theorem Tab.rising_put {t : Tab α} {lo k : Nat} (v : α) (hk : lo ≤ k) (ht : Tab.rising lo t = true) :
    Tab.rising lo (Tab.put t k v) = true := by
  induction t generalizing lo with
  | nil => simpa [Tab.put, Tab.rising] using hk
  | cons p rest ih =>
    obtain ⟨a, x⟩ := p
    simp only [Tab.rising, Bool.and_eq_true, decide_eq_true_eq] at ht
    unfold Tab.put
    split
    · next h =>
      simp only [Tab.rising, Bool.and_eq_true, decide_eq_true_eq]
      exact ⟨hk, by omega, ht.2⟩
    · split
      · next h => subst h; simpa [Tab.rising] using ht
      · next h1 h2 =>
        simp only [Tab.rising, Bool.and_eq_true, decide_eq_true_eq]
        exact ⟨ht.1, ih (by omega) ht.2⟩

theorem Tab.rising_filter {t : Tab α} {lo : Nat} (p : Nat × α → Bool) (ht : Tab.rising lo t = true) :
    Tab.rising lo (t.filter p) = true := by
  induction t generalizing lo with
  | nil => rfl
  | cons q rest ih =>
    obtain ⟨a, x⟩ := q
    simp only [Tab.rising, Bool.and_eq_true, decide_eq_true_eq] at ht
    simp only [List.filter]
    split
    · simp only [Tab.rising, Bool.and_eq_true, decide_eq_true_eq]
      exact ⟨ht.1, ih ht.2⟩
    · exact Tab.rising_mono (by omega) (ih ht.2)

theorem Tab.mem_put {t : Tab α} {k : Nat} {v : α} {p : Nat × α} (h : p ∈ Tab.put t k v) : p = (k, v) ∨ p ∈ t := by
  induction t with
  | nil => simpa [Tab.put] using h
  | cons q rest ih =>
    obtain ⟨a, x⟩ := q
    unfold Tab.put at h
    split at h
    · simpa using h
    · split at h
      · rcases List.mem_cons.mp h with h | h
        · exact .inl h
        · exact .inr (List.mem_cons_of_mem _ h)
      · rcases List.mem_cons.mp h with h | h
        · exact .inr (h ▸ List.mem_cons_self)
        · rcases ih h with h | h
          · exact .inl h
          · exact .inr (List.mem_cons_of_mem _ h)

/-- Every write keeps the canonical form. -/
theorem Memory.wf_write {m : Memory w} (a : Nat) (v : BitVec w) (h : m.wf = true) : (m.write a v).wf = true := by
  simp only [Memory.wf, Bool.and_eq_true, List.all_eq_true] at h ⊢
  unfold Memory.write Tab.setD
  split
  · exact ⟨Tab.rising_filter _ h.1, fun p hp => h.2 p (List.mem_filter.mp hp).1⟩
  · next hv =>
    refine ⟨Tab.rising_put v (Nat.zero_le a) h.1, fun p hp => ?_⟩
    rcases Tab.mem_put hp with rfl | hp
    · simpa using hv
    · exact h.2 p hp

theorem Memory.wf_writeN {m : Memory w} (a : Nat) (vs : List (BitVec w)) (h : m.wf = true) :
    (m.writeN a vs).wf = true := by
  induction vs generalizing m a with
  | nil => exact h
  | cons v rest ih => exact ih (a + 1) (Memory.wf_write a v h)

theorem Memory.wf_keep {m : Memory w} (p : Nat → Bool) (h : m.wf = true) : (m.keep p).wf = true := by
  simp only [Memory.wf, Bool.and_eq_true, List.all_eq_true] at h ⊢
  exact ⟨Tab.rising_filter _ h.1, fun q hq => h.2 q (List.mem_filter.mp hq).1⟩

theorem Memory.rising_ofList (base : Nat) (vs : List (BitVec w)) : Tab.rising base (Memory.ofList base vs) = true := by
  induction vs generalizing base with
  | nil => rfl
  | cons v rest ih =>
    unfold Memory.ofList
    split
    · exact Tab.rising_mono (by omega) (ih (base + 1))
    · simpa [Tab.rising] using ih (base + 1)

theorem Memory.wf_ofList (base : Nat) (vs : List (BitVec w)) : (Memory.ofList base vs).wf = true := by
  simp only [Memory.wf, Bool.and_eq_true, List.all_eq_true]
  refine ⟨Tab.rising_mono (Nat.zero_le _) (Memory.rising_ofList base vs), ?_⟩
  induction vs generalizing base with
  | nil => intro p hp; cases hp
  | cons v rest ih =>
    intro p hp
    unfold Memory.ofList at hp
    split at hp
    · exact ih (base + 1) p hp
    · next hv =>
      rcases List.mem_cons.mp hp with rfl | hp
      · simpa using hv
      · exact ih (base + 1) p hp

/-- Bytes written one after the other read back, in a store wide enough not to wrap. -/
theorem Memory.read_writeN_before {m : Memory w} {a b : Nat} (vs : List (BitVec w)) (h : b < a) :
    (m.writeN a vs).read b = m.read b := by
  induction vs generalizing m a with
  | nil => rfl
  | cons v rest ih =>
    rw [Memory.writeN, ih (by omega), Memory.read_write_ne _ _ (by omega)]

theorem Memory.read_writeN {m : Memory w} (a : Nat) (vs : List (BitVec w)) (i : Nat) (h : i < vs.length) :
    (m.writeN a vs).read (a + i) = vs[i] := by
  induction vs generalizing m a i with
  | nil => simp at h
  | cons v rest ih =>
    cases i with
    | zero => rw [Memory.writeN, Memory.read_writeN_before rest (by omega)]; simp
    | succ k =>
      have := ih (m := m.write a v) (a + 1) k (by simpa using h)
      rw [Memory.writeN]
      simpa [Nat.add_assoc, Nat.add_comm 1 k] using this

/-- Addresses beyond the cells written keep what they held. -/
theorem Memory.read_writeN_after {m : Memory w} {a b : Nat} (vs : List (BitVec w)) (h : a + vs.length ≤ b) :
    (m.writeN a vs).read b = m.read b := by
  induction vs generalizing m a with
  | nil => rfl
  | cons v rest ih =>
    simp only [List.length_cons] at h
    rw [Memory.writeN, ih (by omega), Memory.read_write_ne _ _ (by omega)]

end Sys2Proof
end

