-- ==== Sys2Proof/Laws/Register.lean ====
section
/-! SUPPORT. Laws of bit fields and of the register store. -/

set_option Elab.async false
set_option linter.all false

namespace Sys2Proof

/-! ### Bit fields -/

theorem fld_lt (v hi lo : Nat) : fld v hi lo < 2 ^ (hi + 1 - lo) := Nat.mod_lt _ (Nat.two_pow_pos _)

/-- Bits of a field. -/
theorem testBit_fld (v hi lo i : Nat) : (fld v hi lo).testBit i = (decide (i < hi + 1 - lo) && v.testBit (lo + i)) := by
  rw [fld, Nat.testBit_mod_two_pow, Nat.testBit_shiftRight]

/-- A number whose field has been replaced: its high part, the new field and its low part. -/
theorem setFld_eq (v hi lo x : Nat) (h : lo ≤ hi + 1) :
    setFld v hi lo x = 2 ^ (hi + 1) * (v / 2 ^ (hi + 1)) + (2 ^ lo * (x % 2 ^ (hi + 1 - lo)) + v % 2 ^ lo) := by
  obtain ⟨n, hn⟩ : ∃ n, hi + 1 = lo + n := ⟨hi + 1 - lo, by omega⟩
  have hsub : hi + 1 - lo = n := by omega
  unfold setFld fld
  rw [hsub, hn, Nat.shiftRight_eq_div_pow, Nat.pow_add, ← Nat.div_div_eq_div_mul]
  have h1 := Nat.div_add_mod v (2 ^ lo)
  have h2 := Nat.div_add_mod (v / 2 ^ lo) (2 ^ n)
  have h3 : 2 ^ lo * (v / 2 ^ lo) = 2 ^ lo * (2 ^ n * (v / 2 ^ lo / 2 ^ n)) + 2 ^ lo * (v / 2 ^ lo % 2 ^ n) := by
    rw [← Nat.mul_add, h2]
  rw [Nat.mul_assoc, Nat.mul_comm (v / 2 ^ lo % 2 ^ n), Nat.mul_comm (x % 2 ^ n)]
  omega

/-- Bits of a number whose field [hi:lo] has been replaced by `x`. -/
theorem testBit_setFld (v hi lo x i : Nat) (h : lo ≤ hi + 1) :
    (setFld v hi lo x).testBit i = if lo ≤ i ∧ i ≤ hi then x.testBit (i - lo) else v.testBit i := by
  have hlow : v % 2 ^ lo < 2 ^ lo := Nat.mod_lt _ (Nat.two_pow_pos _)
  have hmid : 2 ^ lo * (x % 2 ^ (hi + 1 - lo)) + v % 2 ^ lo < 2 ^ (hi + 1) := by
    have hx : x % 2 ^ (hi + 1 - lo) < 2 ^ (hi + 1 - lo) := Nat.mod_lt _ (Nat.two_pow_pos _)
    have hp : 2 ^ (hi + 1) = 2 ^ lo * 2 ^ (hi + 1 - lo) := by rw [← Nat.pow_add]; congr 1; omega
    rw [hp]
    calc 2 ^ lo * (x % 2 ^ (hi + 1 - lo)) + v % 2 ^ lo
        < 2 ^ lo * (x % 2 ^ (hi + 1 - lo)) + 2 ^ lo := by omega
      _ = 2 ^ lo * (x % 2 ^ (hi + 1 - lo) + 1) := by rw [Nat.mul_add, Nat.mul_one]
      _ ≤ 2 ^ lo * 2 ^ (hi + 1 - lo) := Nat.mul_le_mul_left _ hx
  rw [setFld_eq v hi lo x h, Nat.testBit_two_pow_mul_add _ hmid, Nat.testBit_two_pow_mul_add _ hlow]
  by_cases h1 : i < hi + 1
  · by_cases h2 : i < lo
    · simp [h1, h2, show ¬ (lo ≤ i) by omega, Nat.testBit_mod_two_pow]
    · simp [h1, h2, show lo ≤ i ∧ i ≤ hi by omega, Nat.testBit_mod_two_pow, show i - lo < hi + 1 - lo by omega]
  · rw [if_neg h1, if_neg (by omega), Nat.testBit_div_two_pow]
    congr 1; omega

/-- The field that has been written. -/
theorem fld_setFld_same (v hi lo x : Nat) (h : lo ≤ hi) : fld (setFld v hi lo x) hi lo = x % 2 ^ (hi + 1 - lo) := by
  apply Nat.eq_of_testBit_eq
  intro i
  rw [testBit_fld, testBit_setFld _ _ _ _ _ (by omega), Nat.testBit_mod_two_pow]
  by_cases hi' : i < hi + 1 - lo
  · simp [hi', show lo ≤ lo + i ∧ lo + i ≤ hi by omega]
  · simp [hi']

/-- A field that does not meet the one written. -/
theorem fld_setFld_ne (v hi lo x hi' lo' : Nat) (h : lo ≤ hi + 1) (hd : hi < lo' ∨ hi' < lo) :
    fld (setFld v hi lo x) hi' lo' = fld v hi' lo' := by
  apply Nat.eq_of_testBit_eq
  intro i
  rw [testBit_fld, testBit_fld, testBit_setFld _ _ _ _ _ h]
  by_cases hi1 : i < hi' + 1 - lo'
  · rw [if_neg (by omega)]
  · simp [hi1]

theorem setFld_lt (v hi lo x w : Nat) (h : lo ≤ hi + 1) (hw : hi < w) (hv : v < 2 ^ w) : setFld v hi lo x < 2 ^ w := by
  apply Nat.lt_pow_two_of_testBit
  intro i hi'
  rw [testBit_setFld _ _ _ _ _ h, if_neg (by omega)]
  exact Nat.testBit_lt_two_pow (Nat.lt_of_lt_of_le hv (Nat.pow_le_pow_right (by omega) hi'))

namespace Machine

/-! ### The register store -/

/-- A register written reads what was written, at its width. -/
theorem State.reg_setReg_same (s : State) (off v : Nat) : (s.setReg off v).reg off = v % 2 ^ 64 := by
  simp [State.setReg, State.reg, BitVec.toNat_ofNat]

/-- Writing a register leaves every other register alone. -/
theorem State.reg_setReg_ne (s : State) {off o : Nat} (v : Nat) (h : o ≠ off) : (s.setReg off v).reg o = s.reg o := by
  simp [State.setReg, State.reg, Tab.find_put_ne _ _ h]

/-- Writing a field leaves every other register alone. -/
theorem State.reg_set_ne (s : State) {off o : Nat} (hi lo v : Nat) (h : o ≠ off) : (s.set off hi lo v).reg o = s.reg o :=
  State.reg_setReg_ne s _ h

theorem State.get_set_ne_reg (s : State) {off o : Nat} (hi lo v hi' lo' : Nat) (h : o ≠ off) :
    (s.set off hi lo v).get o hi' lo' = s.get o hi' lo' := by
  rw [State.get, State.get, State.reg_set_ne s _ _ _ h]

/-- Register values keep to 64 bits when the reset values do. -/
theorem State.fld_mod (v hi lo : Nat) (h : hi < 64) : fld (v % 2 ^ 64) hi lo = fld v hi lo := by
  apply Nat.eq_of_testBit_eq
  intro i
  rw [testBit_fld, testBit_fld, Nat.testBit_mod_two_pow]
  by_cases hi' : i < hi + 1 - lo
  · simp [hi', show lo + i < 64 by omega]
  · simp [hi']

/-- A field written reads what was written, at its width. -/
theorem State.get_set_same (s : State) (off hi lo v : Nat) (h : lo ≤ hi) (hw : hi < 64) :
    (s.set off hi lo v).get off hi lo = v % 2 ^ (hi + 1 - lo) := by
  rw [State.get, State.set, State.reg_setReg_same, State.fld_mod _ _ _ hw, fld_setFld_same _ _ _ _ h]

/-- Another field of the same register keeps its value. -/
theorem State.get_set_ne (s : State) (off hi lo v hi' lo' : Nat) (h : lo ≤ hi + 1) (hw : hi' < 64)
    (hd : hi < lo' ∨ hi' < lo) : (s.set off hi lo v).get off hi' lo' = s.get off hi' lo' := by
  rw [State.get, State.set, State.reg_setReg_same, State.fld_mod _ _ _ hw, fld_setFld_ne _ _ _ _ _ _ h hd, State.get]

theorem State.get_lt (s : State) (off hi lo : Nat) : s.get off hi lo < 2 ^ (hi + 1 - lo) := fld_lt _ _ _

/-- A saturating counter after an addition. -/
theorem State.get_addSat (s : State) (off hi lo n : Nat) (h : lo ≤ hi) (hw : hi < 64) :
    (s.addSat off hi lo n).get off hi lo = min (s.get off hi lo + n) (2 ^ (hi + 1 - lo) - 1) := by
  rw [State.addSat, State.get_set_same _ _ _ _ _ h hw, satAdd]
  apply Nat.mod_eq_of_lt
  have := Nat.two_pow_pos (hi + 1 - lo)
  omega

/-- A wrapping counter after an addition. -/
theorem State.get_addWrap (s : State) (off hi lo n : Nat) (h : lo ≤ hi) (hw : hi < 64) :
    (s.addWrap off hi lo n).get off hi lo = (s.get off hi lo + n) % 2 ^ (hi + 1 - lo) := by
  rw [State.addWrap, State.get_set_same _ _ _ _ _ h hw]

theorem State.reg_addSat_ne (s : State) {off o : Nat} (hi lo n : Nat) (h : o ≠ off) : (s.addSat off hi lo n).reg o = s.reg o :=
  State.reg_set_ne s _ _ _ h

theorem State.reg_addWrap_ne (s : State) {off o : Nat} (hi lo n : Nat) (h : o ≠ off) : (s.addWrap off hi lo n).reg o = s.reg o :=
  State.reg_set_ne s _ _ _ h

/-- At reset every register holds its reset value. -/
theorem State.reg_reset (off : Nat) : State.reset.reg off = regReset off := rfl

end Machine

end Sys2Proof
end

