-- ==== Sys2Proof/Laws/State.lean ====
section
/-! SUPPORT. What each shared update of the state leaves alone, field by field, and what it writes. -/

set_option Elab.async false
set_option linter.all false

namespace Sys2Proof

namespace Machine

variable (s : State)

/-! ### State.setReg -/

@[simp] theorem State.setReg_mem (off v : Nat) : (s.setReg off v).mem = s.mem := rfl
@[simp] theorem State.setReg_memKey (off v : Nat) : (s.setReg off v).memKey = s.memKey := rfl
@[simp] theorem State.setReg_veils (off v : Nat) : (s.setReg off v).veils = s.veils := rfl
@[simp] theorem State.setReg_caches (off v : Nat) : (s.setReg off v).caches = s.caches := rfl
@[simp] theorem State.setReg_hbmLost (off v : Nat) : (s.setReg off v).hbmLost = s.hbmLost := rfl
@[simp] theorem State.setReg_ddrLost (off v : Nat) : (s.setReg off v).ddrLost = s.ddrLost := rfl
@[simp] theorem State.setReg_ctxs (off v : Nat) : (s.setReg off v).ctxs = s.ctxs := rfl
@[simp] theorem State.setReg_queues (off v : Nat) : (s.setReg off v).queues = s.queues := rfl
@[simp] theorem State.setReg_cls (off v : Nat) : (s.setReg off v).cls = s.cls := rfl
@[simp] theorem State.setReg_flights (off v : Nat) : (s.setReg off v).flights = s.flights := rfl
@[simp] theorem State.setReg_nextFlight (off v : Nat) : (s.setReg off v).nextFlight = s.nextFlight := rfl
@[simp] theorem State.setReg_bootEpoch (off v : Nat) : (s.setReg off v).bootEpoch = s.bootEpoch := rfl
@[simp] theorem State.setReg_shared (off v : Nat) : (s.setReg off v).shared = s.shared := rfl
@[simp] theorem State.setReg_pools (off v : Nat) : (s.setReg off v).pools = s.pools := rfl
@[simp] theorem State.setReg_pagesLeft (off v : Nat) : (s.setReg off v).pagesLeft = s.pagesLeft := rfl
@[simp] theorem State.setReg_recal (off v : Nat) : (s.setReg off v).recal = s.recal := rfl
@[simp] theorem State.setReg_ports (off v : Nat) : (s.setReg off v).ports = s.ports := rfl
@[simp] theorem State.setReg_colls (off v : Nat) : (s.setReg off v).colls = s.colls := rfl
@[simp] theorem State.setReg_sendNo (off v : Nat) : (s.setReg off v).sendNo = s.sendNo := rfl
@[simp] theorem State.setReg_recvNo (off v : Nat) : (s.setReg off v).recvNo = s.recvNo := rfl
@[simp] theorem State.setReg_stp (off v : Nat) : (s.setReg off v).stp = s.stp := rfl
@[simp] theorem State.setReg_snp (off v : Nat) : (s.setReg off v).snp = s.snp := rfl
@[simp] theorem State.setReg_sec (off v : Nat) : (s.setReg off v).sec = s.sec := rfl
@[simp] theorem State.setReg_nextOrder (off v : Nat) : (s.setReg off v).nextOrder = s.nextOrder := rfl
@[simp] theorem State.setReg_windows (off v : Nat) : (s.setReg off v).windows = s.windows := rfl
@[simp] theorem State.setReg_chk (off v : Nat) : (s.setReg off v).chk = s.chk := rfl
@[simp] theorem State.setReg_pwr (off v : Nat) : (s.setReg off v).pwr = s.pwr := rfl
@[simp] theorem State.setReg_sen (off v : Nat) : (s.setReg off v).sen = s.sen := rfl
@[simp] theorem State.setReg_pins (off v : Nat) : (s.setReg off v).pins = s.pins := rfl
@[simp] theorem State.setReg_msix (off v : Nat) : (s.setReg off v).msix = s.msix := rfl
@[simp] theorem State.setReg_msixPending (off v : Nat) : (s.setReg off v).msixPending = s.msixPending := rfl
@[simp] theorem State.setReg_free (off v : Nat) : (s.setReg off v).free = s.free := rfl
@[simp] theorem State.setReg_resp (off v : Nat) : (s.setReg off v).resp = s.resp := rfl
@[simp] theorem State.setReg_pending (off v : Nat) : (s.setReg off v).pending = s.pending := rfl

/-! ### State.set -/

@[simp] theorem State.set_mem (off hi lo v : Nat) : (s.set off hi lo v).mem = s.mem := rfl
@[simp] theorem State.set_memKey (off hi lo v : Nat) : (s.set off hi lo v).memKey = s.memKey := rfl
@[simp] theorem State.set_veils (off hi lo v : Nat) : (s.set off hi lo v).veils = s.veils := rfl
@[simp] theorem State.set_caches (off hi lo v : Nat) : (s.set off hi lo v).caches = s.caches := rfl
@[simp] theorem State.set_hbmLost (off hi lo v : Nat) : (s.set off hi lo v).hbmLost = s.hbmLost := rfl
@[simp] theorem State.set_ddrLost (off hi lo v : Nat) : (s.set off hi lo v).ddrLost = s.ddrLost := rfl
@[simp] theorem State.set_ctxs (off hi lo v : Nat) : (s.set off hi lo v).ctxs = s.ctxs := rfl
@[simp] theorem State.set_queues (off hi lo v : Nat) : (s.set off hi lo v).queues = s.queues := rfl
@[simp] theorem State.set_cls (off hi lo v : Nat) : (s.set off hi lo v).cls = s.cls := rfl
@[simp] theorem State.set_flights (off hi lo v : Nat) : (s.set off hi lo v).flights = s.flights := rfl
@[simp] theorem State.set_nextFlight (off hi lo v : Nat) : (s.set off hi lo v).nextFlight = s.nextFlight := rfl
@[simp] theorem State.set_bootEpoch (off hi lo v : Nat) : (s.set off hi lo v).bootEpoch = s.bootEpoch := rfl
@[simp] theorem State.set_shared (off hi lo v : Nat) : (s.set off hi lo v).shared = s.shared := rfl
@[simp] theorem State.set_pools (off hi lo v : Nat) : (s.set off hi lo v).pools = s.pools := rfl
@[simp] theorem State.set_pagesLeft (off hi lo v : Nat) : (s.set off hi lo v).pagesLeft = s.pagesLeft := rfl
@[simp] theorem State.set_recal (off hi lo v : Nat) : (s.set off hi lo v).recal = s.recal := rfl
@[simp] theorem State.set_ports (off hi lo v : Nat) : (s.set off hi lo v).ports = s.ports := rfl
@[simp] theorem State.set_colls (off hi lo v : Nat) : (s.set off hi lo v).colls = s.colls := rfl
@[simp] theorem State.set_sendNo (off hi lo v : Nat) : (s.set off hi lo v).sendNo = s.sendNo := rfl
@[simp] theorem State.set_recvNo (off hi lo v : Nat) : (s.set off hi lo v).recvNo = s.recvNo := rfl
@[simp] theorem State.set_stp (off hi lo v : Nat) : (s.set off hi lo v).stp = s.stp := rfl
@[simp] theorem State.set_snp (off hi lo v : Nat) : (s.set off hi lo v).snp = s.snp := rfl
@[simp] theorem State.set_sec (off hi lo v : Nat) : (s.set off hi lo v).sec = s.sec := rfl
@[simp] theorem State.set_nextOrder (off hi lo v : Nat) : (s.set off hi lo v).nextOrder = s.nextOrder := rfl
@[simp] theorem State.set_windows (off hi lo v : Nat) : (s.set off hi lo v).windows = s.windows := rfl
@[simp] theorem State.set_chk (off hi lo v : Nat) : (s.set off hi lo v).chk = s.chk := rfl
@[simp] theorem State.set_pwr (off hi lo v : Nat) : (s.set off hi lo v).pwr = s.pwr := rfl
@[simp] theorem State.set_sen (off hi lo v : Nat) : (s.set off hi lo v).sen = s.sen := rfl
@[simp] theorem State.set_pins (off hi lo v : Nat) : (s.set off hi lo v).pins = s.pins := rfl
@[simp] theorem State.set_msix (off hi lo v : Nat) : (s.set off hi lo v).msix = s.msix := rfl
@[simp] theorem State.set_msixPending (off hi lo v : Nat) : (s.set off hi lo v).msixPending = s.msixPending := rfl
@[simp] theorem State.set_free (off hi lo v : Nat) : (s.set off hi lo v).free = s.free := rfl
@[simp] theorem State.set_resp (off hi lo v : Nat) : (s.set off hi lo v).resp = s.resp := rfl
@[simp] theorem State.set_pending (off hi lo v : Nat) : (s.set off hi lo v).pending = s.pending := rfl

/-! ### State.addSat -/

@[simp] theorem State.addSat_mem (off hi lo n : Nat) : (s.addSat off hi lo n).mem = s.mem := rfl
@[simp] theorem State.addSat_memKey (off hi lo n : Nat) : (s.addSat off hi lo n).memKey = s.memKey := rfl
@[simp] theorem State.addSat_veils (off hi lo n : Nat) : (s.addSat off hi lo n).veils = s.veils := rfl
@[simp] theorem State.addSat_caches (off hi lo n : Nat) : (s.addSat off hi lo n).caches = s.caches := rfl
@[simp] theorem State.addSat_hbmLost (off hi lo n : Nat) : (s.addSat off hi lo n).hbmLost = s.hbmLost := rfl
@[simp] theorem State.addSat_ddrLost (off hi lo n : Nat) : (s.addSat off hi lo n).ddrLost = s.ddrLost := rfl
@[simp] theorem State.addSat_ctxs (off hi lo n : Nat) : (s.addSat off hi lo n).ctxs = s.ctxs := rfl
@[simp] theorem State.addSat_queues (off hi lo n : Nat) : (s.addSat off hi lo n).queues = s.queues := rfl
@[simp] theorem State.addSat_cls (off hi lo n : Nat) : (s.addSat off hi lo n).cls = s.cls := rfl
@[simp] theorem State.addSat_flights (off hi lo n : Nat) : (s.addSat off hi lo n).flights = s.flights := rfl
@[simp] theorem State.addSat_nextFlight (off hi lo n : Nat) : (s.addSat off hi lo n).nextFlight = s.nextFlight := rfl
@[simp] theorem State.addSat_bootEpoch (off hi lo n : Nat) : (s.addSat off hi lo n).bootEpoch = s.bootEpoch := rfl
@[simp] theorem State.addSat_shared (off hi lo n : Nat) : (s.addSat off hi lo n).shared = s.shared := rfl
@[simp] theorem State.addSat_pools (off hi lo n : Nat) : (s.addSat off hi lo n).pools = s.pools := rfl
@[simp] theorem State.addSat_pagesLeft (off hi lo n : Nat) : (s.addSat off hi lo n).pagesLeft = s.pagesLeft := rfl
@[simp] theorem State.addSat_recal (off hi lo n : Nat) : (s.addSat off hi lo n).recal = s.recal := rfl
@[simp] theorem State.addSat_ports (off hi lo n : Nat) : (s.addSat off hi lo n).ports = s.ports := rfl
@[simp] theorem State.addSat_colls (off hi lo n : Nat) : (s.addSat off hi lo n).colls = s.colls := rfl
@[simp] theorem State.addSat_sendNo (off hi lo n : Nat) : (s.addSat off hi lo n).sendNo = s.sendNo := rfl
@[simp] theorem State.addSat_recvNo (off hi lo n : Nat) : (s.addSat off hi lo n).recvNo = s.recvNo := rfl
@[simp] theorem State.addSat_stp (off hi lo n : Nat) : (s.addSat off hi lo n).stp = s.stp := rfl
@[simp] theorem State.addSat_snp (off hi lo n : Nat) : (s.addSat off hi lo n).snp = s.snp := rfl
@[simp] theorem State.addSat_sec (off hi lo n : Nat) : (s.addSat off hi lo n).sec = s.sec := rfl
@[simp] theorem State.addSat_nextOrder (off hi lo n : Nat) : (s.addSat off hi lo n).nextOrder = s.nextOrder := rfl
@[simp] theorem State.addSat_windows (off hi lo n : Nat) : (s.addSat off hi lo n).windows = s.windows := rfl
@[simp] theorem State.addSat_chk (off hi lo n : Nat) : (s.addSat off hi lo n).chk = s.chk := rfl
@[simp] theorem State.addSat_pwr (off hi lo n : Nat) : (s.addSat off hi lo n).pwr = s.pwr := rfl
@[simp] theorem State.addSat_sen (off hi lo n : Nat) : (s.addSat off hi lo n).sen = s.sen := rfl
@[simp] theorem State.addSat_pins (off hi lo n : Nat) : (s.addSat off hi lo n).pins = s.pins := rfl
@[simp] theorem State.addSat_msix (off hi lo n : Nat) : (s.addSat off hi lo n).msix = s.msix := rfl
@[simp] theorem State.addSat_msixPending (off hi lo n : Nat) : (s.addSat off hi lo n).msixPending = s.msixPending := rfl
@[simp] theorem State.addSat_free (off hi lo n : Nat) : (s.addSat off hi lo n).free = s.free := rfl
@[simp] theorem State.addSat_resp (off hi lo n : Nat) : (s.addSat off hi lo n).resp = s.resp := rfl
@[simp] theorem State.addSat_pending (off hi lo n : Nat) : (s.addSat off hi lo n).pending = s.pending := rfl

/-! ### State.addWrap -/

@[simp] theorem State.addWrap_mem (off hi lo n : Nat) : (s.addWrap off hi lo n).mem = s.mem := rfl
@[simp] theorem State.addWrap_memKey (off hi lo n : Nat) : (s.addWrap off hi lo n).memKey = s.memKey := rfl
@[simp] theorem State.addWrap_veils (off hi lo n : Nat) : (s.addWrap off hi lo n).veils = s.veils := rfl
@[simp] theorem State.addWrap_caches (off hi lo n : Nat) : (s.addWrap off hi lo n).caches = s.caches := rfl
@[simp] theorem State.addWrap_hbmLost (off hi lo n : Nat) : (s.addWrap off hi lo n).hbmLost = s.hbmLost := rfl
@[simp] theorem State.addWrap_ddrLost (off hi lo n : Nat) : (s.addWrap off hi lo n).ddrLost = s.ddrLost := rfl
@[simp] theorem State.addWrap_ctxs (off hi lo n : Nat) : (s.addWrap off hi lo n).ctxs = s.ctxs := rfl
@[simp] theorem State.addWrap_queues (off hi lo n : Nat) : (s.addWrap off hi lo n).queues = s.queues := rfl
@[simp] theorem State.addWrap_cls (off hi lo n : Nat) : (s.addWrap off hi lo n).cls = s.cls := rfl
@[simp] theorem State.addWrap_flights (off hi lo n : Nat) : (s.addWrap off hi lo n).flights = s.flights := rfl
@[simp] theorem State.addWrap_nextFlight (off hi lo n : Nat) : (s.addWrap off hi lo n).nextFlight = s.nextFlight := rfl
@[simp] theorem State.addWrap_bootEpoch (off hi lo n : Nat) : (s.addWrap off hi lo n).bootEpoch = s.bootEpoch := rfl
@[simp] theorem State.addWrap_shared (off hi lo n : Nat) : (s.addWrap off hi lo n).shared = s.shared := rfl
@[simp] theorem State.addWrap_pools (off hi lo n : Nat) : (s.addWrap off hi lo n).pools = s.pools := rfl
@[simp] theorem State.addWrap_pagesLeft (off hi lo n : Nat) : (s.addWrap off hi lo n).pagesLeft = s.pagesLeft := rfl
@[simp] theorem State.addWrap_recal (off hi lo n : Nat) : (s.addWrap off hi lo n).recal = s.recal := rfl
@[simp] theorem State.addWrap_ports (off hi lo n : Nat) : (s.addWrap off hi lo n).ports = s.ports := rfl
@[simp] theorem State.addWrap_colls (off hi lo n : Nat) : (s.addWrap off hi lo n).colls = s.colls := rfl
@[simp] theorem State.addWrap_sendNo (off hi lo n : Nat) : (s.addWrap off hi lo n).sendNo = s.sendNo := rfl
@[simp] theorem State.addWrap_recvNo (off hi lo n : Nat) : (s.addWrap off hi lo n).recvNo = s.recvNo := rfl
@[simp] theorem State.addWrap_stp (off hi lo n : Nat) : (s.addWrap off hi lo n).stp = s.stp := rfl
@[simp] theorem State.addWrap_snp (off hi lo n : Nat) : (s.addWrap off hi lo n).snp = s.snp := rfl
@[simp] theorem State.addWrap_sec (off hi lo n : Nat) : (s.addWrap off hi lo n).sec = s.sec := rfl
@[simp] theorem State.addWrap_nextOrder (off hi lo n : Nat) : (s.addWrap off hi lo n).nextOrder = s.nextOrder := rfl
@[simp] theorem State.addWrap_windows (off hi lo n : Nat) : (s.addWrap off hi lo n).windows = s.windows := rfl
@[simp] theorem State.addWrap_chk (off hi lo n : Nat) : (s.addWrap off hi lo n).chk = s.chk := rfl
@[simp] theorem State.addWrap_pwr (off hi lo n : Nat) : (s.addWrap off hi lo n).pwr = s.pwr := rfl
@[simp] theorem State.addWrap_sen (off hi lo n : Nat) : (s.addWrap off hi lo n).sen = s.sen := rfl
@[simp] theorem State.addWrap_pins (off hi lo n : Nat) : (s.addWrap off hi lo n).pins = s.pins := rfl
@[simp] theorem State.addWrap_msix (off hi lo n : Nat) : (s.addWrap off hi lo n).msix = s.msix := rfl
@[simp] theorem State.addWrap_msixPending (off hi lo n : Nat) : (s.addWrap off hi lo n).msixPending = s.msixPending := rfl
@[simp] theorem State.addWrap_free (off hi lo n : Nat) : (s.addWrap off hi lo n).free = s.free := rfl
@[simp] theorem State.addWrap_resp (off hi lo n : Nat) : (s.addWrap off hi lo n).resp = s.resp := rfl
@[simp] theorem State.addWrap_pending (off hi lo n : Nat) : (s.addWrap off hi lo n).pending = s.pending := rfl

/-! ### State.clearRegs -/

@[simp] theorem State.clearRegs_mem (p : Nat → Bool) : (s.clearRegs p).mem = s.mem := rfl
@[simp] theorem State.clearRegs_memKey (p : Nat → Bool) : (s.clearRegs p).memKey = s.memKey := rfl
@[simp] theorem State.clearRegs_veils (p : Nat → Bool) : (s.clearRegs p).veils = s.veils := rfl
@[simp] theorem State.clearRegs_caches (p : Nat → Bool) : (s.clearRegs p).caches = s.caches := rfl
@[simp] theorem State.clearRegs_hbmLost (p : Nat → Bool) : (s.clearRegs p).hbmLost = s.hbmLost := rfl
@[simp] theorem State.clearRegs_ddrLost (p : Nat → Bool) : (s.clearRegs p).ddrLost = s.ddrLost := rfl
@[simp] theorem State.clearRegs_ctxs (p : Nat → Bool) : (s.clearRegs p).ctxs = s.ctxs := rfl
@[simp] theorem State.clearRegs_queues (p : Nat → Bool) : (s.clearRegs p).queues = s.queues := rfl
@[simp] theorem State.clearRegs_cls (p : Nat → Bool) : (s.clearRegs p).cls = s.cls := rfl
@[simp] theorem State.clearRegs_flights (p : Nat → Bool) : (s.clearRegs p).flights = s.flights := rfl
@[simp] theorem State.clearRegs_nextFlight (p : Nat → Bool) : (s.clearRegs p).nextFlight = s.nextFlight := rfl
@[simp] theorem State.clearRegs_bootEpoch (p : Nat → Bool) : (s.clearRegs p).bootEpoch = s.bootEpoch := rfl
@[simp] theorem State.clearRegs_shared (p : Nat → Bool) : (s.clearRegs p).shared = s.shared := rfl
@[simp] theorem State.clearRegs_pools (p : Nat → Bool) : (s.clearRegs p).pools = s.pools := rfl
@[simp] theorem State.clearRegs_pagesLeft (p : Nat → Bool) : (s.clearRegs p).pagesLeft = s.pagesLeft := rfl
@[simp] theorem State.clearRegs_recal (p : Nat → Bool) : (s.clearRegs p).recal = s.recal := rfl
@[simp] theorem State.clearRegs_ports (p : Nat → Bool) : (s.clearRegs p).ports = s.ports := rfl
@[simp] theorem State.clearRegs_colls (p : Nat → Bool) : (s.clearRegs p).colls = s.colls := rfl
@[simp] theorem State.clearRegs_sendNo (p : Nat → Bool) : (s.clearRegs p).sendNo = s.sendNo := rfl
@[simp] theorem State.clearRegs_recvNo (p : Nat → Bool) : (s.clearRegs p).recvNo = s.recvNo := rfl
@[simp] theorem State.clearRegs_stp (p : Nat → Bool) : (s.clearRegs p).stp = s.stp := rfl
@[simp] theorem State.clearRegs_snp (p : Nat → Bool) : (s.clearRegs p).snp = s.snp := rfl
@[simp] theorem State.clearRegs_sec (p : Nat → Bool) : (s.clearRegs p).sec = s.sec := rfl
@[simp] theorem State.clearRegs_nextOrder (p : Nat → Bool) : (s.clearRegs p).nextOrder = s.nextOrder := rfl
@[simp] theorem State.clearRegs_windows (p : Nat → Bool) : (s.clearRegs p).windows = s.windows := rfl
@[simp] theorem State.clearRegs_chk (p : Nat → Bool) : (s.clearRegs p).chk = s.chk := rfl
@[simp] theorem State.clearRegs_pwr (p : Nat → Bool) : (s.clearRegs p).pwr = s.pwr := rfl
@[simp] theorem State.clearRegs_sen (p : Nat → Bool) : (s.clearRegs p).sen = s.sen := rfl
@[simp] theorem State.clearRegs_pins (p : Nat → Bool) : (s.clearRegs p).pins = s.pins := rfl
@[simp] theorem State.clearRegs_msix (p : Nat → Bool) : (s.clearRegs p).msix = s.msix := rfl
@[simp] theorem State.clearRegs_msixPending (p : Nat → Bool) : (s.clearRegs p).msixPending = s.msixPending := rfl
@[simp] theorem State.clearRegs_free (p : Nat → Bool) : (s.clearRegs p).free = s.free := rfl
@[simp] theorem State.clearRegs_resp (p : Nat → Bool) : (s.clearRegs p).resp = s.resp := rfl
@[simp] theorem State.clearRegs_pending (p : Nat → Bool) : (s.clearRegs p).pending = s.pending := rfl

/-! ### State.setCtx -/

@[simp] theorem State.setCtx_regs (n : Nat) (c : Ctx) : (s.setCtx n c).regs = s.regs := rfl
@[simp] theorem State.setCtx_mem (n : Nat) (c : Ctx) : (s.setCtx n c).mem = s.mem := rfl
@[simp] theorem State.setCtx_memKey (n : Nat) (c : Ctx) : (s.setCtx n c).memKey = s.memKey := rfl
@[simp] theorem State.setCtx_veils (n : Nat) (c : Ctx) : (s.setCtx n c).veils = s.veils := rfl
@[simp] theorem State.setCtx_caches (n : Nat) (c : Ctx) : (s.setCtx n c).caches = s.caches := rfl
@[simp] theorem State.setCtx_hbmLost (n : Nat) (c : Ctx) : (s.setCtx n c).hbmLost = s.hbmLost := rfl
@[simp] theorem State.setCtx_ddrLost (n : Nat) (c : Ctx) : (s.setCtx n c).ddrLost = s.ddrLost := rfl
@[simp] theorem State.setCtx_queues (n : Nat) (c : Ctx) : (s.setCtx n c).queues = s.queues := rfl
@[simp] theorem State.setCtx_cls (n : Nat) (c : Ctx) : (s.setCtx n c).cls = s.cls := rfl
@[simp] theorem State.setCtx_flights (n : Nat) (c : Ctx) : (s.setCtx n c).flights = s.flights := rfl
@[simp] theorem State.setCtx_nextFlight (n : Nat) (c : Ctx) : (s.setCtx n c).nextFlight = s.nextFlight := rfl
@[simp] theorem State.setCtx_bootEpoch (n : Nat) (c : Ctx) : (s.setCtx n c).bootEpoch = s.bootEpoch := rfl
@[simp] theorem State.setCtx_shared (n : Nat) (c : Ctx) : (s.setCtx n c).shared = s.shared := rfl
@[simp] theorem State.setCtx_pools (n : Nat) (c : Ctx) : (s.setCtx n c).pools = s.pools := rfl
@[simp] theorem State.setCtx_pagesLeft (n : Nat) (c : Ctx) : (s.setCtx n c).pagesLeft = s.pagesLeft := rfl
@[simp] theorem State.setCtx_recal (n : Nat) (c : Ctx) : (s.setCtx n c).recal = s.recal := rfl
@[simp] theorem State.setCtx_ports (n : Nat) (c : Ctx) : (s.setCtx n c).ports = s.ports := rfl
@[simp] theorem State.setCtx_colls (n : Nat) (c : Ctx) : (s.setCtx n c).colls = s.colls := rfl
@[simp] theorem State.setCtx_sendNo (n : Nat) (c : Ctx) : (s.setCtx n c).sendNo = s.sendNo := rfl
@[simp] theorem State.setCtx_recvNo (n : Nat) (c : Ctx) : (s.setCtx n c).recvNo = s.recvNo := rfl
@[simp] theorem State.setCtx_stp (n : Nat) (c : Ctx) : (s.setCtx n c).stp = s.stp := rfl
@[simp] theorem State.setCtx_snp (n : Nat) (c : Ctx) : (s.setCtx n c).snp = s.snp := rfl
@[simp] theorem State.setCtx_sec (n : Nat) (c : Ctx) : (s.setCtx n c).sec = s.sec := rfl
@[simp] theorem State.setCtx_nextOrder (n : Nat) (c : Ctx) : (s.setCtx n c).nextOrder = s.nextOrder := rfl
@[simp] theorem State.setCtx_windows (n : Nat) (c : Ctx) : (s.setCtx n c).windows = s.windows := rfl
@[simp] theorem State.setCtx_chk (n : Nat) (c : Ctx) : (s.setCtx n c).chk = s.chk := rfl
@[simp] theorem State.setCtx_pwr (n : Nat) (c : Ctx) : (s.setCtx n c).pwr = s.pwr := rfl
@[simp] theorem State.setCtx_sen (n : Nat) (c : Ctx) : (s.setCtx n c).sen = s.sen := rfl
@[simp] theorem State.setCtx_pins (n : Nat) (c : Ctx) : (s.setCtx n c).pins = s.pins := rfl
@[simp] theorem State.setCtx_msix (n : Nat) (c : Ctx) : (s.setCtx n c).msix = s.msix := rfl
@[simp] theorem State.setCtx_msixPending (n : Nat) (c : Ctx) : (s.setCtx n c).msixPending = s.msixPending := rfl
@[simp] theorem State.setCtx_free (n : Nat) (c : Ctx) : (s.setCtx n c).free = s.free := rfl
@[simp] theorem State.setCtx_resp (n : Nat) (c : Ctx) : (s.setCtx n c).resp = s.resp := rfl
@[simp] theorem State.setCtx_pending (n : Nat) (c : Ctx) : (s.setCtx n c).pending = s.pending := rfl

/-! ### State.modCtx -/

@[simp] theorem State.modCtx_regs (n : Nat) (f : Ctx → Ctx) : (s.modCtx n f).regs = s.regs := rfl
@[simp] theorem State.modCtx_mem (n : Nat) (f : Ctx → Ctx) : (s.modCtx n f).mem = s.mem := rfl
@[simp] theorem State.modCtx_memKey (n : Nat) (f : Ctx → Ctx) : (s.modCtx n f).memKey = s.memKey := rfl
@[simp] theorem State.modCtx_veils (n : Nat) (f : Ctx → Ctx) : (s.modCtx n f).veils = s.veils := rfl
@[simp] theorem State.modCtx_caches (n : Nat) (f : Ctx → Ctx) : (s.modCtx n f).caches = s.caches := rfl
@[simp] theorem State.modCtx_hbmLost (n : Nat) (f : Ctx → Ctx) : (s.modCtx n f).hbmLost = s.hbmLost := rfl
@[simp] theorem State.modCtx_ddrLost (n : Nat) (f : Ctx → Ctx) : (s.modCtx n f).ddrLost = s.ddrLost := rfl
@[simp] theorem State.modCtx_queues (n : Nat) (f : Ctx → Ctx) : (s.modCtx n f).queues = s.queues := rfl
@[simp] theorem State.modCtx_cls (n : Nat) (f : Ctx → Ctx) : (s.modCtx n f).cls = s.cls := rfl
@[simp] theorem State.modCtx_flights (n : Nat) (f : Ctx → Ctx) : (s.modCtx n f).flights = s.flights := rfl
@[simp] theorem State.modCtx_nextFlight (n : Nat) (f : Ctx → Ctx) : (s.modCtx n f).nextFlight = s.nextFlight := rfl
@[simp] theorem State.modCtx_bootEpoch (n : Nat) (f : Ctx → Ctx) : (s.modCtx n f).bootEpoch = s.bootEpoch := rfl
@[simp] theorem State.modCtx_shared (n : Nat) (f : Ctx → Ctx) : (s.modCtx n f).shared = s.shared := rfl
@[simp] theorem State.modCtx_pools (n : Nat) (f : Ctx → Ctx) : (s.modCtx n f).pools = s.pools := rfl
@[simp] theorem State.modCtx_pagesLeft (n : Nat) (f : Ctx → Ctx) : (s.modCtx n f).pagesLeft = s.pagesLeft := rfl
@[simp] theorem State.modCtx_recal (n : Nat) (f : Ctx → Ctx) : (s.modCtx n f).recal = s.recal := rfl
@[simp] theorem State.modCtx_ports (n : Nat) (f : Ctx → Ctx) : (s.modCtx n f).ports = s.ports := rfl
@[simp] theorem State.modCtx_colls (n : Nat) (f : Ctx → Ctx) : (s.modCtx n f).colls = s.colls := rfl
@[simp] theorem State.modCtx_sendNo (n : Nat) (f : Ctx → Ctx) : (s.modCtx n f).sendNo = s.sendNo := rfl
@[simp] theorem State.modCtx_recvNo (n : Nat) (f : Ctx → Ctx) : (s.modCtx n f).recvNo = s.recvNo := rfl
@[simp] theorem State.modCtx_stp (n : Nat) (f : Ctx → Ctx) : (s.modCtx n f).stp = s.stp := rfl
@[simp] theorem State.modCtx_snp (n : Nat) (f : Ctx → Ctx) : (s.modCtx n f).snp = s.snp := rfl
@[simp] theorem State.modCtx_sec (n : Nat) (f : Ctx → Ctx) : (s.modCtx n f).sec = s.sec := rfl
@[simp] theorem State.modCtx_nextOrder (n : Nat) (f : Ctx → Ctx) : (s.modCtx n f).nextOrder = s.nextOrder := rfl
@[simp] theorem State.modCtx_windows (n : Nat) (f : Ctx → Ctx) : (s.modCtx n f).windows = s.windows := rfl
@[simp] theorem State.modCtx_chk (n : Nat) (f : Ctx → Ctx) : (s.modCtx n f).chk = s.chk := rfl
@[simp] theorem State.modCtx_pwr (n : Nat) (f : Ctx → Ctx) : (s.modCtx n f).pwr = s.pwr := rfl
@[simp] theorem State.modCtx_sen (n : Nat) (f : Ctx → Ctx) : (s.modCtx n f).sen = s.sen := rfl
@[simp] theorem State.modCtx_pins (n : Nat) (f : Ctx → Ctx) : (s.modCtx n f).pins = s.pins := rfl
@[simp] theorem State.modCtx_msix (n : Nat) (f : Ctx → Ctx) : (s.modCtx n f).msix = s.msix := rfl
@[simp] theorem State.modCtx_msixPending (n : Nat) (f : Ctx → Ctx) : (s.modCtx n f).msixPending = s.msixPending := rfl
@[simp] theorem State.modCtx_free (n : Nat) (f : Ctx → Ctx) : (s.modCtx n f).free = s.free := rfl
@[simp] theorem State.modCtx_resp (n : Nat) (f : Ctx → Ctx) : (s.modCtx n f).resp = s.resp := rfl
@[simp] theorem State.modCtx_pending (n : Nat) (f : Ctx → Ctx) : (s.modCtx n f).pending = s.pending := rfl

/-! ### State.setCl -/

@[simp] theorem State.setCl_regs (g : Nat) (c : Cluster) : (s.setCl g c).regs = s.regs := rfl
@[simp] theorem State.setCl_mem (g : Nat) (c : Cluster) : (s.setCl g c).mem = s.mem := rfl
@[simp] theorem State.setCl_memKey (g : Nat) (c : Cluster) : (s.setCl g c).memKey = s.memKey := rfl
@[simp] theorem State.setCl_veils (g : Nat) (c : Cluster) : (s.setCl g c).veils = s.veils := rfl
@[simp] theorem State.setCl_caches (g : Nat) (c : Cluster) : (s.setCl g c).caches = s.caches := rfl
@[simp] theorem State.setCl_hbmLost (g : Nat) (c : Cluster) : (s.setCl g c).hbmLost = s.hbmLost := rfl
@[simp] theorem State.setCl_ddrLost (g : Nat) (c : Cluster) : (s.setCl g c).ddrLost = s.ddrLost := rfl
@[simp] theorem State.setCl_ctxs (g : Nat) (c : Cluster) : (s.setCl g c).ctxs = s.ctxs := rfl
@[simp] theorem State.setCl_queues (g : Nat) (c : Cluster) : (s.setCl g c).queues = s.queues := rfl
@[simp] theorem State.setCl_flights (g : Nat) (c : Cluster) : (s.setCl g c).flights = s.flights := rfl
@[simp] theorem State.setCl_nextFlight (g : Nat) (c : Cluster) : (s.setCl g c).nextFlight = s.nextFlight := rfl
@[simp] theorem State.setCl_bootEpoch (g : Nat) (c : Cluster) : (s.setCl g c).bootEpoch = s.bootEpoch := rfl
@[simp] theorem State.setCl_shared (g : Nat) (c : Cluster) : (s.setCl g c).shared = s.shared := rfl
@[simp] theorem State.setCl_pools (g : Nat) (c : Cluster) : (s.setCl g c).pools = s.pools := rfl
@[simp] theorem State.setCl_pagesLeft (g : Nat) (c : Cluster) : (s.setCl g c).pagesLeft = s.pagesLeft := rfl
@[simp] theorem State.setCl_recal (g : Nat) (c : Cluster) : (s.setCl g c).recal = s.recal := rfl
@[simp] theorem State.setCl_ports (g : Nat) (c : Cluster) : (s.setCl g c).ports = s.ports := rfl
@[simp] theorem State.setCl_colls (g : Nat) (c : Cluster) : (s.setCl g c).colls = s.colls := rfl
@[simp] theorem State.setCl_sendNo (g : Nat) (c : Cluster) : (s.setCl g c).sendNo = s.sendNo := rfl
@[simp] theorem State.setCl_recvNo (g : Nat) (c : Cluster) : (s.setCl g c).recvNo = s.recvNo := rfl
@[simp] theorem State.setCl_stp (g : Nat) (c : Cluster) : (s.setCl g c).stp = s.stp := rfl
@[simp] theorem State.setCl_snp (g : Nat) (c : Cluster) : (s.setCl g c).snp = s.snp := rfl
@[simp] theorem State.setCl_sec (g : Nat) (c : Cluster) : (s.setCl g c).sec = s.sec := rfl
@[simp] theorem State.setCl_nextOrder (g : Nat) (c : Cluster) : (s.setCl g c).nextOrder = s.nextOrder := rfl
@[simp] theorem State.setCl_windows (g : Nat) (c : Cluster) : (s.setCl g c).windows = s.windows := rfl
@[simp] theorem State.setCl_chk (g : Nat) (c : Cluster) : (s.setCl g c).chk = s.chk := rfl
@[simp] theorem State.setCl_pwr (g : Nat) (c : Cluster) : (s.setCl g c).pwr = s.pwr := rfl
@[simp] theorem State.setCl_sen (g : Nat) (c : Cluster) : (s.setCl g c).sen = s.sen := rfl
@[simp] theorem State.setCl_pins (g : Nat) (c : Cluster) : (s.setCl g c).pins = s.pins := rfl
@[simp] theorem State.setCl_msix (g : Nat) (c : Cluster) : (s.setCl g c).msix = s.msix := rfl
@[simp] theorem State.setCl_msixPending (g : Nat) (c : Cluster) : (s.setCl g c).msixPending = s.msixPending := rfl
@[simp] theorem State.setCl_free (g : Nat) (c : Cluster) : (s.setCl g c).free = s.free := rfl
@[simp] theorem State.setCl_resp (g : Nat) (c : Cluster) : (s.setCl g c).resp = s.resp := rfl
@[simp] theorem State.setCl_pending (g : Nat) (c : Cluster) : (s.setCl g c).pending = s.pending := rfl

/-! ### State.modCl -/

@[simp] theorem State.modCl_regs (g : Nat) (f : Cluster → Cluster) : (s.modCl g f).regs = s.regs := rfl
@[simp] theorem State.modCl_mem (g : Nat) (f : Cluster → Cluster) : (s.modCl g f).mem = s.mem := rfl
@[simp] theorem State.modCl_memKey (g : Nat) (f : Cluster → Cluster) : (s.modCl g f).memKey = s.memKey := rfl
@[simp] theorem State.modCl_veils (g : Nat) (f : Cluster → Cluster) : (s.modCl g f).veils = s.veils := rfl
@[simp] theorem State.modCl_caches (g : Nat) (f : Cluster → Cluster) : (s.modCl g f).caches = s.caches := rfl
@[simp] theorem State.modCl_hbmLost (g : Nat) (f : Cluster → Cluster) : (s.modCl g f).hbmLost = s.hbmLost := rfl
@[simp] theorem State.modCl_ddrLost (g : Nat) (f : Cluster → Cluster) : (s.modCl g f).ddrLost = s.ddrLost := rfl
@[simp] theorem State.modCl_ctxs (g : Nat) (f : Cluster → Cluster) : (s.modCl g f).ctxs = s.ctxs := rfl
@[simp] theorem State.modCl_queues (g : Nat) (f : Cluster → Cluster) : (s.modCl g f).queues = s.queues := rfl
@[simp] theorem State.modCl_flights (g : Nat) (f : Cluster → Cluster) : (s.modCl g f).flights = s.flights := rfl
@[simp] theorem State.modCl_nextFlight (g : Nat) (f : Cluster → Cluster) : (s.modCl g f).nextFlight = s.nextFlight := rfl
@[simp] theorem State.modCl_bootEpoch (g : Nat) (f : Cluster → Cluster) : (s.modCl g f).bootEpoch = s.bootEpoch := rfl
@[simp] theorem State.modCl_shared (g : Nat) (f : Cluster → Cluster) : (s.modCl g f).shared = s.shared := rfl
@[simp] theorem State.modCl_pools (g : Nat) (f : Cluster → Cluster) : (s.modCl g f).pools = s.pools := rfl
@[simp] theorem State.modCl_pagesLeft (g : Nat) (f : Cluster → Cluster) : (s.modCl g f).pagesLeft = s.pagesLeft := rfl
@[simp] theorem State.modCl_recal (g : Nat) (f : Cluster → Cluster) : (s.modCl g f).recal = s.recal := rfl
@[simp] theorem State.modCl_ports (g : Nat) (f : Cluster → Cluster) : (s.modCl g f).ports = s.ports := rfl
@[simp] theorem State.modCl_colls (g : Nat) (f : Cluster → Cluster) : (s.modCl g f).colls = s.colls := rfl
@[simp] theorem State.modCl_sendNo (g : Nat) (f : Cluster → Cluster) : (s.modCl g f).sendNo = s.sendNo := rfl
@[simp] theorem State.modCl_recvNo (g : Nat) (f : Cluster → Cluster) : (s.modCl g f).recvNo = s.recvNo := rfl
@[simp] theorem State.modCl_stp (g : Nat) (f : Cluster → Cluster) : (s.modCl g f).stp = s.stp := rfl
@[simp] theorem State.modCl_snp (g : Nat) (f : Cluster → Cluster) : (s.modCl g f).snp = s.snp := rfl
@[simp] theorem State.modCl_sec (g : Nat) (f : Cluster → Cluster) : (s.modCl g f).sec = s.sec := rfl
@[simp] theorem State.modCl_nextOrder (g : Nat) (f : Cluster → Cluster) : (s.modCl g f).nextOrder = s.nextOrder := rfl
@[simp] theorem State.modCl_windows (g : Nat) (f : Cluster → Cluster) : (s.modCl g f).windows = s.windows := rfl
@[simp] theorem State.modCl_chk (g : Nat) (f : Cluster → Cluster) : (s.modCl g f).chk = s.chk := rfl
@[simp] theorem State.modCl_pwr (g : Nat) (f : Cluster → Cluster) : (s.modCl g f).pwr = s.pwr := rfl
@[simp] theorem State.modCl_sen (g : Nat) (f : Cluster → Cluster) : (s.modCl g f).sen = s.sen := rfl
@[simp] theorem State.modCl_pins (g : Nat) (f : Cluster → Cluster) : (s.modCl g f).pins = s.pins := rfl
@[simp] theorem State.modCl_msix (g : Nat) (f : Cluster → Cluster) : (s.modCl g f).msix = s.msix := rfl
@[simp] theorem State.modCl_msixPending (g : Nat) (f : Cluster → Cluster) : (s.modCl g f).msixPending = s.msixPending := rfl
@[simp] theorem State.modCl_free (g : Nat) (f : Cluster → Cluster) : (s.modCl g f).free = s.free := rfl
@[simp] theorem State.modCl_resp (g : Nat) (f : Cluster → Cluster) : (s.modCl g f).resp = s.resp := rfl
@[simp] theorem State.modCl_pending (g : Nat) (f : Cluster → Cluster) : (s.modCl g f).pending = s.pending := rfl

/-! ### State.setQueue -/

@[simp] theorem State.setQueue_regs (q : Nat) (c : Queue) : (s.setQueue q c).regs = s.regs := rfl
@[simp] theorem State.setQueue_mem (q : Nat) (c : Queue) : (s.setQueue q c).mem = s.mem := rfl
@[simp] theorem State.setQueue_memKey (q : Nat) (c : Queue) : (s.setQueue q c).memKey = s.memKey := rfl
@[simp] theorem State.setQueue_veils (q : Nat) (c : Queue) : (s.setQueue q c).veils = s.veils := rfl
@[simp] theorem State.setQueue_caches (q : Nat) (c : Queue) : (s.setQueue q c).caches = s.caches := rfl
@[simp] theorem State.setQueue_hbmLost (q : Nat) (c : Queue) : (s.setQueue q c).hbmLost = s.hbmLost := rfl
@[simp] theorem State.setQueue_ddrLost (q : Nat) (c : Queue) : (s.setQueue q c).ddrLost = s.ddrLost := rfl
@[simp] theorem State.setQueue_ctxs (q : Nat) (c : Queue) : (s.setQueue q c).ctxs = s.ctxs := rfl
@[simp] theorem State.setQueue_cls (q : Nat) (c : Queue) : (s.setQueue q c).cls = s.cls := rfl
@[simp] theorem State.setQueue_flights (q : Nat) (c : Queue) : (s.setQueue q c).flights = s.flights := rfl
@[simp] theorem State.setQueue_nextFlight (q : Nat) (c : Queue) : (s.setQueue q c).nextFlight = s.nextFlight := rfl
@[simp] theorem State.setQueue_bootEpoch (q : Nat) (c : Queue) : (s.setQueue q c).bootEpoch = s.bootEpoch := rfl
@[simp] theorem State.setQueue_shared (q : Nat) (c : Queue) : (s.setQueue q c).shared = s.shared := rfl
@[simp] theorem State.setQueue_pools (q : Nat) (c : Queue) : (s.setQueue q c).pools = s.pools := rfl
@[simp] theorem State.setQueue_pagesLeft (q : Nat) (c : Queue) : (s.setQueue q c).pagesLeft = s.pagesLeft := rfl
@[simp] theorem State.setQueue_recal (q : Nat) (c : Queue) : (s.setQueue q c).recal = s.recal := rfl
@[simp] theorem State.setQueue_ports (q : Nat) (c : Queue) : (s.setQueue q c).ports = s.ports := rfl
@[simp] theorem State.setQueue_colls (q : Nat) (c : Queue) : (s.setQueue q c).colls = s.colls := rfl
@[simp] theorem State.setQueue_sendNo (q : Nat) (c : Queue) : (s.setQueue q c).sendNo = s.sendNo := rfl
@[simp] theorem State.setQueue_recvNo (q : Nat) (c : Queue) : (s.setQueue q c).recvNo = s.recvNo := rfl
@[simp] theorem State.setQueue_stp (q : Nat) (c : Queue) : (s.setQueue q c).stp = s.stp := rfl
@[simp] theorem State.setQueue_snp (q : Nat) (c : Queue) : (s.setQueue q c).snp = s.snp := rfl
@[simp] theorem State.setQueue_sec (q : Nat) (c : Queue) : (s.setQueue q c).sec = s.sec := rfl
@[simp] theorem State.setQueue_nextOrder (q : Nat) (c : Queue) : (s.setQueue q c).nextOrder = s.nextOrder := rfl
@[simp] theorem State.setQueue_windows (q : Nat) (c : Queue) : (s.setQueue q c).windows = s.windows := rfl
@[simp] theorem State.setQueue_chk (q : Nat) (c : Queue) : (s.setQueue q c).chk = s.chk := rfl
@[simp] theorem State.setQueue_pwr (q : Nat) (c : Queue) : (s.setQueue q c).pwr = s.pwr := rfl
@[simp] theorem State.setQueue_sen (q : Nat) (c : Queue) : (s.setQueue q c).sen = s.sen := rfl
@[simp] theorem State.setQueue_pins (q : Nat) (c : Queue) : (s.setQueue q c).pins = s.pins := rfl
@[simp] theorem State.setQueue_msix (q : Nat) (c : Queue) : (s.setQueue q c).msix = s.msix := rfl
@[simp] theorem State.setQueue_msixPending (q : Nat) (c : Queue) : (s.setQueue q c).msixPending = s.msixPending := rfl
@[simp] theorem State.setQueue_free (q : Nat) (c : Queue) : (s.setQueue q c).free = s.free := rfl
@[simp] theorem State.setQueue_resp (q : Nat) (c : Queue) : (s.setQueue q c).resp = s.resp := rfl
@[simp] theorem State.setQueue_pending (q : Nat) (c : Queue) : (s.setQueue q c).pending = s.pending := rfl

/-! ### State.modQueue -/

@[simp] theorem State.modQueue_regs (q : Nat) (f : Queue → Queue) : (s.modQueue q f).regs = s.regs := rfl
@[simp] theorem State.modQueue_mem (q : Nat) (f : Queue → Queue) : (s.modQueue q f).mem = s.mem := rfl
@[simp] theorem State.modQueue_memKey (q : Nat) (f : Queue → Queue) : (s.modQueue q f).memKey = s.memKey := rfl
@[simp] theorem State.modQueue_veils (q : Nat) (f : Queue → Queue) : (s.modQueue q f).veils = s.veils := rfl
@[simp] theorem State.modQueue_caches (q : Nat) (f : Queue → Queue) : (s.modQueue q f).caches = s.caches := rfl
@[simp] theorem State.modQueue_hbmLost (q : Nat) (f : Queue → Queue) : (s.modQueue q f).hbmLost = s.hbmLost := rfl
@[simp] theorem State.modQueue_ddrLost (q : Nat) (f : Queue → Queue) : (s.modQueue q f).ddrLost = s.ddrLost := rfl
@[simp] theorem State.modQueue_ctxs (q : Nat) (f : Queue → Queue) : (s.modQueue q f).ctxs = s.ctxs := rfl
@[simp] theorem State.modQueue_cls (q : Nat) (f : Queue → Queue) : (s.modQueue q f).cls = s.cls := rfl
@[simp] theorem State.modQueue_flights (q : Nat) (f : Queue → Queue) : (s.modQueue q f).flights = s.flights := rfl
@[simp] theorem State.modQueue_nextFlight (q : Nat) (f : Queue → Queue) : (s.modQueue q f).nextFlight = s.nextFlight := rfl
@[simp] theorem State.modQueue_bootEpoch (q : Nat) (f : Queue → Queue) : (s.modQueue q f).bootEpoch = s.bootEpoch := rfl
@[simp] theorem State.modQueue_shared (q : Nat) (f : Queue → Queue) : (s.modQueue q f).shared = s.shared := rfl
@[simp] theorem State.modQueue_pools (q : Nat) (f : Queue → Queue) : (s.modQueue q f).pools = s.pools := rfl
@[simp] theorem State.modQueue_pagesLeft (q : Nat) (f : Queue → Queue) : (s.modQueue q f).pagesLeft = s.pagesLeft := rfl
@[simp] theorem State.modQueue_recal (q : Nat) (f : Queue → Queue) : (s.modQueue q f).recal = s.recal := rfl
@[simp] theorem State.modQueue_ports (q : Nat) (f : Queue → Queue) : (s.modQueue q f).ports = s.ports := rfl
@[simp] theorem State.modQueue_colls (q : Nat) (f : Queue → Queue) : (s.modQueue q f).colls = s.colls := rfl
@[simp] theorem State.modQueue_sendNo (q : Nat) (f : Queue → Queue) : (s.modQueue q f).sendNo = s.sendNo := rfl
@[simp] theorem State.modQueue_recvNo (q : Nat) (f : Queue → Queue) : (s.modQueue q f).recvNo = s.recvNo := rfl
@[simp] theorem State.modQueue_stp (q : Nat) (f : Queue → Queue) : (s.modQueue q f).stp = s.stp := rfl
@[simp] theorem State.modQueue_snp (q : Nat) (f : Queue → Queue) : (s.modQueue q f).snp = s.snp := rfl
@[simp] theorem State.modQueue_sec (q : Nat) (f : Queue → Queue) : (s.modQueue q f).sec = s.sec := rfl
@[simp] theorem State.modQueue_nextOrder (q : Nat) (f : Queue → Queue) : (s.modQueue q f).nextOrder = s.nextOrder := rfl
@[simp] theorem State.modQueue_windows (q : Nat) (f : Queue → Queue) : (s.modQueue q f).windows = s.windows := rfl
@[simp] theorem State.modQueue_chk (q : Nat) (f : Queue → Queue) : (s.modQueue q f).chk = s.chk := rfl
@[simp] theorem State.modQueue_pwr (q : Nat) (f : Queue → Queue) : (s.modQueue q f).pwr = s.pwr := rfl
@[simp] theorem State.modQueue_sen (q : Nat) (f : Queue → Queue) : (s.modQueue q f).sen = s.sen := rfl
@[simp] theorem State.modQueue_pins (q : Nat) (f : Queue → Queue) : (s.modQueue q f).pins = s.pins := rfl
@[simp] theorem State.modQueue_msix (q : Nat) (f : Queue → Queue) : (s.modQueue q f).msix = s.msix := rfl
@[simp] theorem State.modQueue_msixPending (q : Nat) (f : Queue → Queue) : (s.modQueue q f).msixPending = s.msixPending := rfl
@[simp] theorem State.modQueue_free (q : Nat) (f : Queue → Queue) : (s.modQueue q f).free = s.free := rfl
@[simp] theorem State.modQueue_resp (q : Nat) (f : Queue → Queue) : (s.modQueue q f).resp = s.resp := rfl
@[simp] theorem State.modQueue_pending (q : Nat) (f : Queue → Queue) : (s.modQueue q f).pending = s.pending := rfl

/-! ### State.setPort -/

@[simp] theorem State.setPort_regs (m : Nat) (p : Port) : (s.setPort m p).regs = s.regs := rfl
@[simp] theorem State.setPort_mem (m : Nat) (p : Port) : (s.setPort m p).mem = s.mem := rfl
@[simp] theorem State.setPort_memKey (m : Nat) (p : Port) : (s.setPort m p).memKey = s.memKey := rfl
@[simp] theorem State.setPort_veils (m : Nat) (p : Port) : (s.setPort m p).veils = s.veils := rfl
@[simp] theorem State.setPort_caches (m : Nat) (p : Port) : (s.setPort m p).caches = s.caches := rfl
@[simp] theorem State.setPort_hbmLost (m : Nat) (p : Port) : (s.setPort m p).hbmLost = s.hbmLost := rfl
@[simp] theorem State.setPort_ddrLost (m : Nat) (p : Port) : (s.setPort m p).ddrLost = s.ddrLost := rfl
@[simp] theorem State.setPort_ctxs (m : Nat) (p : Port) : (s.setPort m p).ctxs = s.ctxs := rfl
@[simp] theorem State.setPort_queues (m : Nat) (p : Port) : (s.setPort m p).queues = s.queues := rfl
@[simp] theorem State.setPort_cls (m : Nat) (p : Port) : (s.setPort m p).cls = s.cls := rfl
@[simp] theorem State.setPort_flights (m : Nat) (p : Port) : (s.setPort m p).flights = s.flights := rfl
@[simp] theorem State.setPort_nextFlight (m : Nat) (p : Port) : (s.setPort m p).nextFlight = s.nextFlight := rfl
@[simp] theorem State.setPort_bootEpoch (m : Nat) (p : Port) : (s.setPort m p).bootEpoch = s.bootEpoch := rfl
@[simp] theorem State.setPort_shared (m : Nat) (p : Port) : (s.setPort m p).shared = s.shared := rfl
@[simp] theorem State.setPort_pools (m : Nat) (p : Port) : (s.setPort m p).pools = s.pools := rfl
@[simp] theorem State.setPort_pagesLeft (m : Nat) (p : Port) : (s.setPort m p).pagesLeft = s.pagesLeft := rfl
@[simp] theorem State.setPort_recal (m : Nat) (p : Port) : (s.setPort m p).recal = s.recal := rfl
@[simp] theorem State.setPort_colls (m : Nat) (p : Port) : (s.setPort m p).colls = s.colls := rfl
@[simp] theorem State.setPort_sendNo (m : Nat) (p : Port) : (s.setPort m p).sendNo = s.sendNo := rfl
@[simp] theorem State.setPort_recvNo (m : Nat) (p : Port) : (s.setPort m p).recvNo = s.recvNo := rfl
@[simp] theorem State.setPort_stp (m : Nat) (p : Port) : (s.setPort m p).stp = s.stp := rfl
@[simp] theorem State.setPort_snp (m : Nat) (p : Port) : (s.setPort m p).snp = s.snp := rfl
@[simp] theorem State.setPort_sec (m : Nat) (p : Port) : (s.setPort m p).sec = s.sec := rfl
@[simp] theorem State.setPort_nextOrder (m : Nat) (p : Port) : (s.setPort m p).nextOrder = s.nextOrder := rfl
@[simp] theorem State.setPort_windows (m : Nat) (p : Port) : (s.setPort m p).windows = s.windows := rfl
@[simp] theorem State.setPort_chk (m : Nat) (p : Port) : (s.setPort m p).chk = s.chk := rfl
@[simp] theorem State.setPort_pwr (m : Nat) (p : Port) : (s.setPort m p).pwr = s.pwr := rfl
@[simp] theorem State.setPort_sen (m : Nat) (p : Port) : (s.setPort m p).sen = s.sen := rfl
@[simp] theorem State.setPort_pins (m : Nat) (p : Port) : (s.setPort m p).pins = s.pins := rfl
@[simp] theorem State.setPort_msix (m : Nat) (p : Port) : (s.setPort m p).msix = s.msix := rfl
@[simp] theorem State.setPort_msixPending (m : Nat) (p : Port) : (s.setPort m p).msixPending = s.msixPending := rfl
@[simp] theorem State.setPort_free (m : Nat) (p : Port) : (s.setPort m p).free = s.free := rfl
@[simp] theorem State.setPort_resp (m : Nat) (p : Port) : (s.setPort m p).resp = s.resp := rfl
@[simp] theorem State.setPort_pending (m : Nat) (p : Port) : (s.setPort m p).pending = s.pending := rfl

/-! ### State.modPort -/

@[simp] theorem State.modPort_regs (m : Nat) (f : Port → Port) : (s.modPort m f).regs = s.regs := rfl
@[simp] theorem State.modPort_mem (m : Nat) (f : Port → Port) : (s.modPort m f).mem = s.mem := rfl
@[simp] theorem State.modPort_memKey (m : Nat) (f : Port → Port) : (s.modPort m f).memKey = s.memKey := rfl
@[simp] theorem State.modPort_veils (m : Nat) (f : Port → Port) : (s.modPort m f).veils = s.veils := rfl
@[simp] theorem State.modPort_caches (m : Nat) (f : Port → Port) : (s.modPort m f).caches = s.caches := rfl
@[simp] theorem State.modPort_hbmLost (m : Nat) (f : Port → Port) : (s.modPort m f).hbmLost = s.hbmLost := rfl
@[simp] theorem State.modPort_ddrLost (m : Nat) (f : Port → Port) : (s.modPort m f).ddrLost = s.ddrLost := rfl
@[simp] theorem State.modPort_ctxs (m : Nat) (f : Port → Port) : (s.modPort m f).ctxs = s.ctxs := rfl
@[simp] theorem State.modPort_queues (m : Nat) (f : Port → Port) : (s.modPort m f).queues = s.queues := rfl
@[simp] theorem State.modPort_cls (m : Nat) (f : Port → Port) : (s.modPort m f).cls = s.cls := rfl
@[simp] theorem State.modPort_flights (m : Nat) (f : Port → Port) : (s.modPort m f).flights = s.flights := rfl
@[simp] theorem State.modPort_nextFlight (m : Nat) (f : Port → Port) : (s.modPort m f).nextFlight = s.nextFlight := rfl
@[simp] theorem State.modPort_bootEpoch (m : Nat) (f : Port → Port) : (s.modPort m f).bootEpoch = s.bootEpoch := rfl
@[simp] theorem State.modPort_shared (m : Nat) (f : Port → Port) : (s.modPort m f).shared = s.shared := rfl
@[simp] theorem State.modPort_pools (m : Nat) (f : Port → Port) : (s.modPort m f).pools = s.pools := rfl
@[simp] theorem State.modPort_pagesLeft (m : Nat) (f : Port → Port) : (s.modPort m f).pagesLeft = s.pagesLeft := rfl
@[simp] theorem State.modPort_recal (m : Nat) (f : Port → Port) : (s.modPort m f).recal = s.recal := rfl
@[simp] theorem State.modPort_colls (m : Nat) (f : Port → Port) : (s.modPort m f).colls = s.colls := rfl
@[simp] theorem State.modPort_sendNo (m : Nat) (f : Port → Port) : (s.modPort m f).sendNo = s.sendNo := rfl
@[simp] theorem State.modPort_recvNo (m : Nat) (f : Port → Port) : (s.modPort m f).recvNo = s.recvNo := rfl
@[simp] theorem State.modPort_stp (m : Nat) (f : Port → Port) : (s.modPort m f).stp = s.stp := rfl
@[simp] theorem State.modPort_snp (m : Nat) (f : Port → Port) : (s.modPort m f).snp = s.snp := rfl
@[simp] theorem State.modPort_sec (m : Nat) (f : Port → Port) : (s.modPort m f).sec = s.sec := rfl
@[simp] theorem State.modPort_nextOrder (m : Nat) (f : Port → Port) : (s.modPort m f).nextOrder = s.nextOrder := rfl
@[simp] theorem State.modPort_windows (m : Nat) (f : Port → Port) : (s.modPort m f).windows = s.windows := rfl
@[simp] theorem State.modPort_chk (m : Nat) (f : Port → Port) : (s.modPort m f).chk = s.chk := rfl
@[simp] theorem State.modPort_pwr (m : Nat) (f : Port → Port) : (s.modPort m f).pwr = s.pwr := rfl
@[simp] theorem State.modPort_sen (m : Nat) (f : Port → Port) : (s.modPort m f).sen = s.sen := rfl
@[simp] theorem State.modPort_pins (m : Nat) (f : Port → Port) : (s.modPort m f).pins = s.pins := rfl
@[simp] theorem State.modPort_msix (m : Nat) (f : Port → Port) : (s.modPort m f).msix = s.msix := rfl
@[simp] theorem State.modPort_msixPending (m : Nat) (f : Port → Port) : (s.modPort m f).msixPending = s.msixPending := rfl
@[simp] theorem State.modPort_free (m : Nat) (f : Port → Port) : (s.modPort m f).free = s.free := rfl
@[simp] theorem State.modPort_resp (m : Nat) (f : Port → Port) : (s.modPort m f).resp = s.resp := rfl
@[simp] theorem State.modPort_pending (m : Nat) (f : Port → Port) : (s.modPort m f).pending = s.pending := rfl

/-! ### State.setPool -/

@[simp] theorem State.setPool_regs (k : Nat) (p : Pool) : (s.setPool k p).regs = s.regs := rfl
@[simp] theorem State.setPool_mem (k : Nat) (p : Pool) : (s.setPool k p).mem = s.mem := rfl
@[simp] theorem State.setPool_memKey (k : Nat) (p : Pool) : (s.setPool k p).memKey = s.memKey := rfl
@[simp] theorem State.setPool_veils (k : Nat) (p : Pool) : (s.setPool k p).veils = s.veils := rfl
@[simp] theorem State.setPool_caches (k : Nat) (p : Pool) : (s.setPool k p).caches = s.caches := rfl
@[simp] theorem State.setPool_hbmLost (k : Nat) (p : Pool) : (s.setPool k p).hbmLost = s.hbmLost := rfl
@[simp] theorem State.setPool_ddrLost (k : Nat) (p : Pool) : (s.setPool k p).ddrLost = s.ddrLost := rfl
@[simp] theorem State.setPool_ctxs (k : Nat) (p : Pool) : (s.setPool k p).ctxs = s.ctxs := rfl
@[simp] theorem State.setPool_queues (k : Nat) (p : Pool) : (s.setPool k p).queues = s.queues := rfl
@[simp] theorem State.setPool_cls (k : Nat) (p : Pool) : (s.setPool k p).cls = s.cls := rfl
@[simp] theorem State.setPool_flights (k : Nat) (p : Pool) : (s.setPool k p).flights = s.flights := rfl
@[simp] theorem State.setPool_nextFlight (k : Nat) (p : Pool) : (s.setPool k p).nextFlight = s.nextFlight := rfl
@[simp] theorem State.setPool_bootEpoch (k : Nat) (p : Pool) : (s.setPool k p).bootEpoch = s.bootEpoch := rfl
@[simp] theorem State.setPool_shared (k : Nat) (p : Pool) : (s.setPool k p).shared = s.shared := rfl
@[simp] theorem State.setPool_pagesLeft (k : Nat) (p : Pool) : (s.setPool k p).pagesLeft = s.pagesLeft := rfl
@[simp] theorem State.setPool_recal (k : Nat) (p : Pool) : (s.setPool k p).recal = s.recal := rfl
@[simp] theorem State.setPool_ports (k : Nat) (p : Pool) : (s.setPool k p).ports = s.ports := rfl
@[simp] theorem State.setPool_colls (k : Nat) (p : Pool) : (s.setPool k p).colls = s.colls := rfl
@[simp] theorem State.setPool_sendNo (k : Nat) (p : Pool) : (s.setPool k p).sendNo = s.sendNo := rfl
@[simp] theorem State.setPool_recvNo (k : Nat) (p : Pool) : (s.setPool k p).recvNo = s.recvNo := rfl
@[simp] theorem State.setPool_stp (k : Nat) (p : Pool) : (s.setPool k p).stp = s.stp := rfl
@[simp] theorem State.setPool_snp (k : Nat) (p : Pool) : (s.setPool k p).snp = s.snp := rfl
@[simp] theorem State.setPool_sec (k : Nat) (p : Pool) : (s.setPool k p).sec = s.sec := rfl
@[simp] theorem State.setPool_nextOrder (k : Nat) (p : Pool) : (s.setPool k p).nextOrder = s.nextOrder := rfl
@[simp] theorem State.setPool_windows (k : Nat) (p : Pool) : (s.setPool k p).windows = s.windows := rfl
@[simp] theorem State.setPool_chk (k : Nat) (p : Pool) : (s.setPool k p).chk = s.chk := rfl
@[simp] theorem State.setPool_pwr (k : Nat) (p : Pool) : (s.setPool k p).pwr = s.pwr := rfl
@[simp] theorem State.setPool_sen (k : Nat) (p : Pool) : (s.setPool k p).sen = s.sen := rfl
@[simp] theorem State.setPool_pins (k : Nat) (p : Pool) : (s.setPool k p).pins = s.pins := rfl
@[simp] theorem State.setPool_msix (k : Nat) (p : Pool) : (s.setPool k p).msix = s.msix := rfl
@[simp] theorem State.setPool_msixPending (k : Nat) (p : Pool) : (s.setPool k p).msixPending = s.msixPending := rfl
@[simp] theorem State.setPool_free (k : Nat) (p : Pool) : (s.setPool k p).free = s.free := rfl
@[simp] theorem State.setPool_resp (k : Nat) (p : Pool) : (s.setPool k p).resp = s.resp := rfl
@[simp] theorem State.setPool_pending (k : Nat) (p : Pool) : (s.setPool k p).pending = s.pending := rfl

/-! ### State.modStp -/

@[simp] theorem State.modStp_regs (f : Stp → Stp) : (s.modStp f).regs = s.regs := rfl
@[simp] theorem State.modStp_mem (f : Stp → Stp) : (s.modStp f).mem = s.mem := rfl
@[simp] theorem State.modStp_memKey (f : Stp → Stp) : (s.modStp f).memKey = s.memKey := rfl
@[simp] theorem State.modStp_veils (f : Stp → Stp) : (s.modStp f).veils = s.veils := rfl
@[simp] theorem State.modStp_caches (f : Stp → Stp) : (s.modStp f).caches = s.caches := rfl
@[simp] theorem State.modStp_hbmLost (f : Stp → Stp) : (s.modStp f).hbmLost = s.hbmLost := rfl
@[simp] theorem State.modStp_ddrLost (f : Stp → Stp) : (s.modStp f).ddrLost = s.ddrLost := rfl
@[simp] theorem State.modStp_ctxs (f : Stp → Stp) : (s.modStp f).ctxs = s.ctxs := rfl
@[simp] theorem State.modStp_queues (f : Stp → Stp) : (s.modStp f).queues = s.queues := rfl
@[simp] theorem State.modStp_cls (f : Stp → Stp) : (s.modStp f).cls = s.cls := rfl
@[simp] theorem State.modStp_flights (f : Stp → Stp) : (s.modStp f).flights = s.flights := rfl
@[simp] theorem State.modStp_nextFlight (f : Stp → Stp) : (s.modStp f).nextFlight = s.nextFlight := rfl
@[simp] theorem State.modStp_bootEpoch (f : Stp → Stp) : (s.modStp f).bootEpoch = s.bootEpoch := rfl
@[simp] theorem State.modStp_shared (f : Stp → Stp) : (s.modStp f).shared = s.shared := rfl
@[simp] theorem State.modStp_pools (f : Stp → Stp) : (s.modStp f).pools = s.pools := rfl
@[simp] theorem State.modStp_pagesLeft (f : Stp → Stp) : (s.modStp f).pagesLeft = s.pagesLeft := rfl
@[simp] theorem State.modStp_recal (f : Stp → Stp) : (s.modStp f).recal = s.recal := rfl
@[simp] theorem State.modStp_ports (f : Stp → Stp) : (s.modStp f).ports = s.ports := rfl
@[simp] theorem State.modStp_colls (f : Stp → Stp) : (s.modStp f).colls = s.colls := rfl
@[simp] theorem State.modStp_sendNo (f : Stp → Stp) : (s.modStp f).sendNo = s.sendNo := rfl
@[simp] theorem State.modStp_recvNo (f : Stp → Stp) : (s.modStp f).recvNo = s.recvNo := rfl
@[simp] theorem State.modStp_snp (f : Stp → Stp) : (s.modStp f).snp = s.snp := rfl
@[simp] theorem State.modStp_sec (f : Stp → Stp) : (s.modStp f).sec = s.sec := rfl
@[simp] theorem State.modStp_nextOrder (f : Stp → Stp) : (s.modStp f).nextOrder = s.nextOrder := rfl
@[simp] theorem State.modStp_windows (f : Stp → Stp) : (s.modStp f).windows = s.windows := rfl
@[simp] theorem State.modStp_chk (f : Stp → Stp) : (s.modStp f).chk = s.chk := rfl
@[simp] theorem State.modStp_pwr (f : Stp → Stp) : (s.modStp f).pwr = s.pwr := rfl
@[simp] theorem State.modStp_sen (f : Stp → Stp) : (s.modStp f).sen = s.sen := rfl
@[simp] theorem State.modStp_pins (f : Stp → Stp) : (s.modStp f).pins = s.pins := rfl
@[simp] theorem State.modStp_msix (f : Stp → Stp) : (s.modStp f).msix = s.msix := rfl
@[simp] theorem State.modStp_msixPending (f : Stp → Stp) : (s.modStp f).msixPending = s.msixPending := rfl
@[simp] theorem State.modStp_free (f : Stp → Stp) : (s.modStp f).free = s.free := rfl
@[simp] theorem State.modStp_resp (f : Stp → Stp) : (s.modStp f).resp = s.resp := rfl
@[simp] theorem State.modStp_pending (f : Stp → Stp) : (s.modStp f).pending = s.pending := rfl
@[simp] theorem State.modStp_stp (f : Stp → Stp) : (s.modStp f).stp = f s.stp := rfl

/-! ### State.modSnp -/

@[simp] theorem State.modSnp_regs (f : Snp → Snp) : (s.modSnp f).regs = s.regs := rfl
@[simp] theorem State.modSnp_mem (f : Snp → Snp) : (s.modSnp f).mem = s.mem := rfl
@[simp] theorem State.modSnp_memKey (f : Snp → Snp) : (s.modSnp f).memKey = s.memKey := rfl
@[simp] theorem State.modSnp_veils (f : Snp → Snp) : (s.modSnp f).veils = s.veils := rfl
@[simp] theorem State.modSnp_caches (f : Snp → Snp) : (s.modSnp f).caches = s.caches := rfl
@[simp] theorem State.modSnp_hbmLost (f : Snp → Snp) : (s.modSnp f).hbmLost = s.hbmLost := rfl
@[simp] theorem State.modSnp_ddrLost (f : Snp → Snp) : (s.modSnp f).ddrLost = s.ddrLost := rfl
@[simp] theorem State.modSnp_ctxs (f : Snp → Snp) : (s.modSnp f).ctxs = s.ctxs := rfl
@[simp] theorem State.modSnp_queues (f : Snp → Snp) : (s.modSnp f).queues = s.queues := rfl
@[simp] theorem State.modSnp_cls (f : Snp → Snp) : (s.modSnp f).cls = s.cls := rfl
@[simp] theorem State.modSnp_flights (f : Snp → Snp) : (s.modSnp f).flights = s.flights := rfl
@[simp] theorem State.modSnp_nextFlight (f : Snp → Snp) : (s.modSnp f).nextFlight = s.nextFlight := rfl
@[simp] theorem State.modSnp_bootEpoch (f : Snp → Snp) : (s.modSnp f).bootEpoch = s.bootEpoch := rfl
@[simp] theorem State.modSnp_shared (f : Snp → Snp) : (s.modSnp f).shared = s.shared := rfl
@[simp] theorem State.modSnp_pools (f : Snp → Snp) : (s.modSnp f).pools = s.pools := rfl
@[simp] theorem State.modSnp_pagesLeft (f : Snp → Snp) : (s.modSnp f).pagesLeft = s.pagesLeft := rfl
@[simp] theorem State.modSnp_recal (f : Snp → Snp) : (s.modSnp f).recal = s.recal := rfl
@[simp] theorem State.modSnp_ports (f : Snp → Snp) : (s.modSnp f).ports = s.ports := rfl
@[simp] theorem State.modSnp_colls (f : Snp → Snp) : (s.modSnp f).colls = s.colls := rfl
@[simp] theorem State.modSnp_sendNo (f : Snp → Snp) : (s.modSnp f).sendNo = s.sendNo := rfl
@[simp] theorem State.modSnp_recvNo (f : Snp → Snp) : (s.modSnp f).recvNo = s.recvNo := rfl
@[simp] theorem State.modSnp_stp (f : Snp → Snp) : (s.modSnp f).stp = s.stp := rfl
@[simp] theorem State.modSnp_sec (f : Snp → Snp) : (s.modSnp f).sec = s.sec := rfl
@[simp] theorem State.modSnp_nextOrder (f : Snp → Snp) : (s.modSnp f).nextOrder = s.nextOrder := rfl
@[simp] theorem State.modSnp_windows (f : Snp → Snp) : (s.modSnp f).windows = s.windows := rfl
@[simp] theorem State.modSnp_chk (f : Snp → Snp) : (s.modSnp f).chk = s.chk := rfl
@[simp] theorem State.modSnp_pwr (f : Snp → Snp) : (s.modSnp f).pwr = s.pwr := rfl
@[simp] theorem State.modSnp_sen (f : Snp → Snp) : (s.modSnp f).sen = s.sen := rfl
@[simp] theorem State.modSnp_pins (f : Snp → Snp) : (s.modSnp f).pins = s.pins := rfl
@[simp] theorem State.modSnp_msix (f : Snp → Snp) : (s.modSnp f).msix = s.msix := rfl
@[simp] theorem State.modSnp_msixPending (f : Snp → Snp) : (s.modSnp f).msixPending = s.msixPending := rfl
@[simp] theorem State.modSnp_free (f : Snp → Snp) : (s.modSnp f).free = s.free := rfl
@[simp] theorem State.modSnp_resp (f : Snp → Snp) : (s.modSnp f).resp = s.resp := rfl
@[simp] theorem State.modSnp_pending (f : Snp → Snp) : (s.modSnp f).pending = s.pending := rfl
@[simp] theorem State.modSnp_snp (f : Snp → Snp) : (s.modSnp f).snp = f s.snp := rfl

/-! ### State.modSec -/

@[simp] theorem State.modSec_regs (f : Sec → Sec) : (s.modSec f).regs = s.regs := rfl
@[simp] theorem State.modSec_mem (f : Sec → Sec) : (s.modSec f).mem = s.mem := rfl
@[simp] theorem State.modSec_memKey (f : Sec → Sec) : (s.modSec f).memKey = s.memKey := rfl
@[simp] theorem State.modSec_veils (f : Sec → Sec) : (s.modSec f).veils = s.veils := rfl
@[simp] theorem State.modSec_caches (f : Sec → Sec) : (s.modSec f).caches = s.caches := rfl
@[simp] theorem State.modSec_hbmLost (f : Sec → Sec) : (s.modSec f).hbmLost = s.hbmLost := rfl
@[simp] theorem State.modSec_ddrLost (f : Sec → Sec) : (s.modSec f).ddrLost = s.ddrLost := rfl
@[simp] theorem State.modSec_ctxs (f : Sec → Sec) : (s.modSec f).ctxs = s.ctxs := rfl
@[simp] theorem State.modSec_queues (f : Sec → Sec) : (s.modSec f).queues = s.queues := rfl
@[simp] theorem State.modSec_cls (f : Sec → Sec) : (s.modSec f).cls = s.cls := rfl
@[simp] theorem State.modSec_flights (f : Sec → Sec) : (s.modSec f).flights = s.flights := rfl
@[simp] theorem State.modSec_nextFlight (f : Sec → Sec) : (s.modSec f).nextFlight = s.nextFlight := rfl
@[simp] theorem State.modSec_bootEpoch (f : Sec → Sec) : (s.modSec f).bootEpoch = s.bootEpoch := rfl
@[simp] theorem State.modSec_shared (f : Sec → Sec) : (s.modSec f).shared = s.shared := rfl
@[simp] theorem State.modSec_pools (f : Sec → Sec) : (s.modSec f).pools = s.pools := rfl
@[simp] theorem State.modSec_pagesLeft (f : Sec → Sec) : (s.modSec f).pagesLeft = s.pagesLeft := rfl
@[simp] theorem State.modSec_recal (f : Sec → Sec) : (s.modSec f).recal = s.recal := rfl
@[simp] theorem State.modSec_ports (f : Sec → Sec) : (s.modSec f).ports = s.ports := rfl
@[simp] theorem State.modSec_colls (f : Sec → Sec) : (s.modSec f).colls = s.colls := rfl
@[simp] theorem State.modSec_sendNo (f : Sec → Sec) : (s.modSec f).sendNo = s.sendNo := rfl
@[simp] theorem State.modSec_recvNo (f : Sec → Sec) : (s.modSec f).recvNo = s.recvNo := rfl
@[simp] theorem State.modSec_stp (f : Sec → Sec) : (s.modSec f).stp = s.stp := rfl
@[simp] theorem State.modSec_snp (f : Sec → Sec) : (s.modSec f).snp = s.snp := rfl
@[simp] theorem State.modSec_nextOrder (f : Sec → Sec) : (s.modSec f).nextOrder = s.nextOrder := rfl
@[simp] theorem State.modSec_windows (f : Sec → Sec) : (s.modSec f).windows = s.windows := rfl
@[simp] theorem State.modSec_chk (f : Sec → Sec) : (s.modSec f).chk = s.chk := rfl
@[simp] theorem State.modSec_pwr (f : Sec → Sec) : (s.modSec f).pwr = s.pwr := rfl
@[simp] theorem State.modSec_sen (f : Sec → Sec) : (s.modSec f).sen = s.sen := rfl
@[simp] theorem State.modSec_pins (f : Sec → Sec) : (s.modSec f).pins = s.pins := rfl
@[simp] theorem State.modSec_msix (f : Sec → Sec) : (s.modSec f).msix = s.msix := rfl
@[simp] theorem State.modSec_msixPending (f : Sec → Sec) : (s.modSec f).msixPending = s.msixPending := rfl
@[simp] theorem State.modSec_free (f : Sec → Sec) : (s.modSec f).free = s.free := rfl
@[simp] theorem State.modSec_resp (f : Sec → Sec) : (s.modSec f).resp = s.resp := rfl
@[simp] theorem State.modSec_pending (f : Sec → Sec) : (s.modSec f).pending = s.pending := rfl
@[simp] theorem State.modSec_sec (f : Sec → Sec) : (s.modSec f).sec = f s.sec := rfl

/-! ### State.modPwr -/

@[simp] theorem State.modPwr_regs (f : Pwr → Pwr) : (s.modPwr f).regs = s.regs := rfl
@[simp] theorem State.modPwr_mem (f : Pwr → Pwr) : (s.modPwr f).mem = s.mem := rfl
@[simp] theorem State.modPwr_memKey (f : Pwr → Pwr) : (s.modPwr f).memKey = s.memKey := rfl
@[simp] theorem State.modPwr_veils (f : Pwr → Pwr) : (s.modPwr f).veils = s.veils := rfl
@[simp] theorem State.modPwr_caches (f : Pwr → Pwr) : (s.modPwr f).caches = s.caches := rfl
@[simp] theorem State.modPwr_hbmLost (f : Pwr → Pwr) : (s.modPwr f).hbmLost = s.hbmLost := rfl
@[simp] theorem State.modPwr_ddrLost (f : Pwr → Pwr) : (s.modPwr f).ddrLost = s.ddrLost := rfl
@[simp] theorem State.modPwr_ctxs (f : Pwr → Pwr) : (s.modPwr f).ctxs = s.ctxs := rfl
@[simp] theorem State.modPwr_queues (f : Pwr → Pwr) : (s.modPwr f).queues = s.queues := rfl
@[simp] theorem State.modPwr_cls (f : Pwr → Pwr) : (s.modPwr f).cls = s.cls := rfl
@[simp] theorem State.modPwr_flights (f : Pwr → Pwr) : (s.modPwr f).flights = s.flights := rfl
@[simp] theorem State.modPwr_nextFlight (f : Pwr → Pwr) : (s.modPwr f).nextFlight = s.nextFlight := rfl
@[simp] theorem State.modPwr_bootEpoch (f : Pwr → Pwr) : (s.modPwr f).bootEpoch = s.bootEpoch := rfl
@[simp] theorem State.modPwr_shared (f : Pwr → Pwr) : (s.modPwr f).shared = s.shared := rfl
@[simp] theorem State.modPwr_pools (f : Pwr → Pwr) : (s.modPwr f).pools = s.pools := rfl
@[simp] theorem State.modPwr_pagesLeft (f : Pwr → Pwr) : (s.modPwr f).pagesLeft = s.pagesLeft := rfl
@[simp] theorem State.modPwr_recal (f : Pwr → Pwr) : (s.modPwr f).recal = s.recal := rfl
@[simp] theorem State.modPwr_ports (f : Pwr → Pwr) : (s.modPwr f).ports = s.ports := rfl
@[simp] theorem State.modPwr_colls (f : Pwr → Pwr) : (s.modPwr f).colls = s.colls := rfl
@[simp] theorem State.modPwr_sendNo (f : Pwr → Pwr) : (s.modPwr f).sendNo = s.sendNo := rfl
@[simp] theorem State.modPwr_recvNo (f : Pwr → Pwr) : (s.modPwr f).recvNo = s.recvNo := rfl
@[simp] theorem State.modPwr_stp (f : Pwr → Pwr) : (s.modPwr f).stp = s.stp := rfl
@[simp] theorem State.modPwr_snp (f : Pwr → Pwr) : (s.modPwr f).snp = s.snp := rfl
@[simp] theorem State.modPwr_sec (f : Pwr → Pwr) : (s.modPwr f).sec = s.sec := rfl
@[simp] theorem State.modPwr_nextOrder (f : Pwr → Pwr) : (s.modPwr f).nextOrder = s.nextOrder := rfl
@[simp] theorem State.modPwr_windows (f : Pwr → Pwr) : (s.modPwr f).windows = s.windows := rfl
@[simp] theorem State.modPwr_chk (f : Pwr → Pwr) : (s.modPwr f).chk = s.chk := rfl
@[simp] theorem State.modPwr_sen (f : Pwr → Pwr) : (s.modPwr f).sen = s.sen := rfl
@[simp] theorem State.modPwr_pins (f : Pwr → Pwr) : (s.modPwr f).pins = s.pins := rfl
@[simp] theorem State.modPwr_msix (f : Pwr → Pwr) : (s.modPwr f).msix = s.msix := rfl
@[simp] theorem State.modPwr_msixPending (f : Pwr → Pwr) : (s.modPwr f).msixPending = s.msixPending := rfl
@[simp] theorem State.modPwr_free (f : Pwr → Pwr) : (s.modPwr f).free = s.free := rfl
@[simp] theorem State.modPwr_resp (f : Pwr → Pwr) : (s.modPwr f).resp = s.resp := rfl
@[simp] theorem State.modPwr_pending (f : Pwr → Pwr) : (s.modPwr f).pending = s.pending := rfl
@[simp] theorem State.modPwr_pwr (f : Pwr → Pwr) : (s.modPwr f).pwr = f s.pwr := rfl

/-! ### State.modSen -/

@[simp] theorem State.modSen_regs (f : Sen → Sen) : (s.modSen f).regs = s.regs := rfl
@[simp] theorem State.modSen_mem (f : Sen → Sen) : (s.modSen f).mem = s.mem := rfl
@[simp] theorem State.modSen_memKey (f : Sen → Sen) : (s.modSen f).memKey = s.memKey := rfl
@[simp] theorem State.modSen_veils (f : Sen → Sen) : (s.modSen f).veils = s.veils := rfl
@[simp] theorem State.modSen_caches (f : Sen → Sen) : (s.modSen f).caches = s.caches := rfl
@[simp] theorem State.modSen_hbmLost (f : Sen → Sen) : (s.modSen f).hbmLost = s.hbmLost := rfl
@[simp] theorem State.modSen_ddrLost (f : Sen → Sen) : (s.modSen f).ddrLost = s.ddrLost := rfl
@[simp] theorem State.modSen_ctxs (f : Sen → Sen) : (s.modSen f).ctxs = s.ctxs := rfl
@[simp] theorem State.modSen_queues (f : Sen → Sen) : (s.modSen f).queues = s.queues := rfl
@[simp] theorem State.modSen_cls (f : Sen → Sen) : (s.modSen f).cls = s.cls := rfl
@[simp] theorem State.modSen_flights (f : Sen → Sen) : (s.modSen f).flights = s.flights := rfl
@[simp] theorem State.modSen_nextFlight (f : Sen → Sen) : (s.modSen f).nextFlight = s.nextFlight := rfl
@[simp] theorem State.modSen_bootEpoch (f : Sen → Sen) : (s.modSen f).bootEpoch = s.bootEpoch := rfl
@[simp] theorem State.modSen_shared (f : Sen → Sen) : (s.modSen f).shared = s.shared := rfl
@[simp] theorem State.modSen_pools (f : Sen → Sen) : (s.modSen f).pools = s.pools := rfl
@[simp] theorem State.modSen_pagesLeft (f : Sen → Sen) : (s.modSen f).pagesLeft = s.pagesLeft := rfl
@[simp] theorem State.modSen_recal (f : Sen → Sen) : (s.modSen f).recal = s.recal := rfl
@[simp] theorem State.modSen_ports (f : Sen → Sen) : (s.modSen f).ports = s.ports := rfl
@[simp] theorem State.modSen_colls (f : Sen → Sen) : (s.modSen f).colls = s.colls := rfl
@[simp] theorem State.modSen_sendNo (f : Sen → Sen) : (s.modSen f).sendNo = s.sendNo := rfl
@[simp] theorem State.modSen_recvNo (f : Sen → Sen) : (s.modSen f).recvNo = s.recvNo := rfl
@[simp] theorem State.modSen_stp (f : Sen → Sen) : (s.modSen f).stp = s.stp := rfl
@[simp] theorem State.modSen_snp (f : Sen → Sen) : (s.modSen f).snp = s.snp := rfl
@[simp] theorem State.modSen_sec (f : Sen → Sen) : (s.modSen f).sec = s.sec := rfl
@[simp] theorem State.modSen_nextOrder (f : Sen → Sen) : (s.modSen f).nextOrder = s.nextOrder := rfl
@[simp] theorem State.modSen_windows (f : Sen → Sen) : (s.modSen f).windows = s.windows := rfl
@[simp] theorem State.modSen_chk (f : Sen → Sen) : (s.modSen f).chk = s.chk := rfl
@[simp] theorem State.modSen_pwr (f : Sen → Sen) : (s.modSen f).pwr = s.pwr := rfl
@[simp] theorem State.modSen_pins (f : Sen → Sen) : (s.modSen f).pins = s.pins := rfl
@[simp] theorem State.modSen_msix (f : Sen → Sen) : (s.modSen f).msix = s.msix := rfl
@[simp] theorem State.modSen_msixPending (f : Sen → Sen) : (s.modSen f).msixPending = s.msixPending := rfl
@[simp] theorem State.modSen_free (f : Sen → Sen) : (s.modSen f).free = s.free := rfl
@[simp] theorem State.modSen_resp (f : Sen → Sen) : (s.modSen f).resp = s.resp := rfl
@[simp] theorem State.modSen_pending (f : Sen → Sen) : (s.modSen f).pending = s.pending := rfl
@[simp] theorem State.modSen_sen (f : Sen → Sen) : (s.modSen f).sen = f s.sen := rfl

/-! ### State.modPins -/

@[simp] theorem State.modPins_regs (f : Pins → Pins) : (s.modPins f).regs = s.regs := rfl
@[simp] theorem State.modPins_mem (f : Pins → Pins) : (s.modPins f).mem = s.mem := rfl
@[simp] theorem State.modPins_memKey (f : Pins → Pins) : (s.modPins f).memKey = s.memKey := rfl
@[simp] theorem State.modPins_veils (f : Pins → Pins) : (s.modPins f).veils = s.veils := rfl
@[simp] theorem State.modPins_caches (f : Pins → Pins) : (s.modPins f).caches = s.caches := rfl
@[simp] theorem State.modPins_hbmLost (f : Pins → Pins) : (s.modPins f).hbmLost = s.hbmLost := rfl
@[simp] theorem State.modPins_ddrLost (f : Pins → Pins) : (s.modPins f).ddrLost = s.ddrLost := rfl
@[simp] theorem State.modPins_ctxs (f : Pins → Pins) : (s.modPins f).ctxs = s.ctxs := rfl
@[simp] theorem State.modPins_queues (f : Pins → Pins) : (s.modPins f).queues = s.queues := rfl
@[simp] theorem State.modPins_cls (f : Pins → Pins) : (s.modPins f).cls = s.cls := rfl
@[simp] theorem State.modPins_flights (f : Pins → Pins) : (s.modPins f).flights = s.flights := rfl
@[simp] theorem State.modPins_nextFlight (f : Pins → Pins) : (s.modPins f).nextFlight = s.nextFlight := rfl
@[simp] theorem State.modPins_bootEpoch (f : Pins → Pins) : (s.modPins f).bootEpoch = s.bootEpoch := rfl
@[simp] theorem State.modPins_shared (f : Pins → Pins) : (s.modPins f).shared = s.shared := rfl
@[simp] theorem State.modPins_pools (f : Pins → Pins) : (s.modPins f).pools = s.pools := rfl
@[simp] theorem State.modPins_pagesLeft (f : Pins → Pins) : (s.modPins f).pagesLeft = s.pagesLeft := rfl
@[simp] theorem State.modPins_recal (f : Pins → Pins) : (s.modPins f).recal = s.recal := rfl
@[simp] theorem State.modPins_ports (f : Pins → Pins) : (s.modPins f).ports = s.ports := rfl
@[simp] theorem State.modPins_colls (f : Pins → Pins) : (s.modPins f).colls = s.colls := rfl
@[simp] theorem State.modPins_sendNo (f : Pins → Pins) : (s.modPins f).sendNo = s.sendNo := rfl
@[simp] theorem State.modPins_recvNo (f : Pins → Pins) : (s.modPins f).recvNo = s.recvNo := rfl
@[simp] theorem State.modPins_stp (f : Pins → Pins) : (s.modPins f).stp = s.stp := rfl
@[simp] theorem State.modPins_snp (f : Pins → Pins) : (s.modPins f).snp = s.snp := rfl
@[simp] theorem State.modPins_sec (f : Pins → Pins) : (s.modPins f).sec = s.sec := rfl
@[simp] theorem State.modPins_nextOrder (f : Pins → Pins) : (s.modPins f).nextOrder = s.nextOrder := rfl
@[simp] theorem State.modPins_windows (f : Pins → Pins) : (s.modPins f).windows = s.windows := rfl
@[simp] theorem State.modPins_chk (f : Pins → Pins) : (s.modPins f).chk = s.chk := rfl
@[simp] theorem State.modPins_pwr (f : Pins → Pins) : (s.modPins f).pwr = s.pwr := rfl
@[simp] theorem State.modPins_sen (f : Pins → Pins) : (s.modPins f).sen = s.sen := rfl
@[simp] theorem State.modPins_msix (f : Pins → Pins) : (s.modPins f).msix = s.msix := rfl
@[simp] theorem State.modPins_msixPending (f : Pins → Pins) : (s.modPins f).msixPending = s.msixPending := rfl
@[simp] theorem State.modPins_free (f : Pins → Pins) : (s.modPins f).free = s.free := rfl
@[simp] theorem State.modPins_resp (f : Pins → Pins) : (s.modPins f).resp = s.resp := rfl
@[simp] theorem State.modPins_pending (f : Pins → Pins) : (s.modPins f).pending = s.pending := rfl
@[simp] theorem State.modPins_pins (f : Pins → Pins) : (s.modPins f).pins = f s.pins := rfl

/-! ### State.modChk -/

@[simp] theorem State.modChk_regs (f : Chk → Chk) : (s.modChk f).regs = s.regs := rfl
@[simp] theorem State.modChk_mem (f : Chk → Chk) : (s.modChk f).mem = s.mem := rfl
@[simp] theorem State.modChk_memKey (f : Chk → Chk) : (s.modChk f).memKey = s.memKey := rfl
@[simp] theorem State.modChk_veils (f : Chk → Chk) : (s.modChk f).veils = s.veils := rfl
@[simp] theorem State.modChk_caches (f : Chk → Chk) : (s.modChk f).caches = s.caches := rfl
@[simp] theorem State.modChk_hbmLost (f : Chk → Chk) : (s.modChk f).hbmLost = s.hbmLost := rfl
@[simp] theorem State.modChk_ddrLost (f : Chk → Chk) : (s.modChk f).ddrLost = s.ddrLost := rfl
@[simp] theorem State.modChk_ctxs (f : Chk → Chk) : (s.modChk f).ctxs = s.ctxs := rfl
@[simp] theorem State.modChk_queues (f : Chk → Chk) : (s.modChk f).queues = s.queues := rfl
@[simp] theorem State.modChk_cls (f : Chk → Chk) : (s.modChk f).cls = s.cls := rfl
@[simp] theorem State.modChk_flights (f : Chk → Chk) : (s.modChk f).flights = s.flights := rfl
@[simp] theorem State.modChk_nextFlight (f : Chk → Chk) : (s.modChk f).nextFlight = s.nextFlight := rfl
@[simp] theorem State.modChk_bootEpoch (f : Chk → Chk) : (s.modChk f).bootEpoch = s.bootEpoch := rfl
@[simp] theorem State.modChk_shared (f : Chk → Chk) : (s.modChk f).shared = s.shared := rfl
@[simp] theorem State.modChk_pools (f : Chk → Chk) : (s.modChk f).pools = s.pools := rfl
@[simp] theorem State.modChk_pagesLeft (f : Chk → Chk) : (s.modChk f).pagesLeft = s.pagesLeft := rfl
@[simp] theorem State.modChk_recal (f : Chk → Chk) : (s.modChk f).recal = s.recal := rfl
@[simp] theorem State.modChk_ports (f : Chk → Chk) : (s.modChk f).ports = s.ports := rfl
@[simp] theorem State.modChk_colls (f : Chk → Chk) : (s.modChk f).colls = s.colls := rfl
@[simp] theorem State.modChk_sendNo (f : Chk → Chk) : (s.modChk f).sendNo = s.sendNo := rfl
@[simp] theorem State.modChk_recvNo (f : Chk → Chk) : (s.modChk f).recvNo = s.recvNo := rfl
@[simp] theorem State.modChk_stp (f : Chk → Chk) : (s.modChk f).stp = s.stp := rfl
@[simp] theorem State.modChk_snp (f : Chk → Chk) : (s.modChk f).snp = s.snp := rfl
@[simp] theorem State.modChk_sec (f : Chk → Chk) : (s.modChk f).sec = s.sec := rfl
@[simp] theorem State.modChk_nextOrder (f : Chk → Chk) : (s.modChk f).nextOrder = s.nextOrder := rfl
@[simp] theorem State.modChk_windows (f : Chk → Chk) : (s.modChk f).windows = s.windows := rfl
@[simp] theorem State.modChk_pwr (f : Chk → Chk) : (s.modChk f).pwr = s.pwr := rfl
@[simp] theorem State.modChk_sen (f : Chk → Chk) : (s.modChk f).sen = s.sen := rfl
@[simp] theorem State.modChk_pins (f : Chk → Chk) : (s.modChk f).pins = s.pins := rfl
@[simp] theorem State.modChk_msix (f : Chk → Chk) : (s.modChk f).msix = s.msix := rfl
@[simp] theorem State.modChk_msixPending (f : Chk → Chk) : (s.modChk f).msixPending = s.msixPending := rfl
@[simp] theorem State.modChk_free (f : Chk → Chk) : (s.modChk f).free = s.free := rfl
@[simp] theorem State.modChk_resp (f : Chk → Chk) : (s.modChk f).resp = s.resp := rfl
@[simp] theorem State.modChk_pending (f : Chk → Chk) : (s.modChk f).pending = s.pending := rfl
@[simp] theorem State.modChk_chk (f : Chk → Chk) : (s.modChk f).chk = f s.chk := rfl

/-! ### Drawing a free value -/

@[simp] theorem State.draw_regs : s.draw.2.regs = s.regs := rfl
@[simp] theorem State.draw_mem : s.draw.2.mem = s.mem := rfl
@[simp] theorem State.draw_memKey : s.draw.2.memKey = s.memKey := rfl
@[simp] theorem State.draw_veils : s.draw.2.veils = s.veils := rfl
@[simp] theorem State.draw_caches : s.draw.2.caches = s.caches := rfl
@[simp] theorem State.draw_hbmLost : s.draw.2.hbmLost = s.hbmLost := rfl
@[simp] theorem State.draw_ddrLost : s.draw.2.ddrLost = s.ddrLost := rfl
@[simp] theorem State.draw_ctxs : s.draw.2.ctxs = s.ctxs := rfl
@[simp] theorem State.draw_queues : s.draw.2.queues = s.queues := rfl
@[simp] theorem State.draw_cls : s.draw.2.cls = s.cls := rfl
@[simp] theorem State.draw_flights : s.draw.2.flights = s.flights := rfl
@[simp] theorem State.draw_nextFlight : s.draw.2.nextFlight = s.nextFlight := rfl
@[simp] theorem State.draw_bootEpoch : s.draw.2.bootEpoch = s.bootEpoch := rfl
@[simp] theorem State.draw_shared : s.draw.2.shared = s.shared := rfl
@[simp] theorem State.draw_pools : s.draw.2.pools = s.pools := rfl
@[simp] theorem State.draw_pagesLeft : s.draw.2.pagesLeft = s.pagesLeft := rfl
@[simp] theorem State.draw_recal : s.draw.2.recal = s.recal := rfl
@[simp] theorem State.draw_ports : s.draw.2.ports = s.ports := rfl
@[simp] theorem State.draw_colls : s.draw.2.colls = s.colls := rfl
@[simp] theorem State.draw_sendNo : s.draw.2.sendNo = s.sendNo := rfl
@[simp] theorem State.draw_recvNo : s.draw.2.recvNo = s.recvNo := rfl
@[simp] theorem State.draw_stp : s.draw.2.stp = s.stp := rfl
@[simp] theorem State.draw_snp : s.draw.2.snp = s.snp := rfl
@[simp] theorem State.draw_sec : s.draw.2.sec = s.sec := rfl
@[simp] theorem State.draw_nextOrder : s.draw.2.nextOrder = s.nextOrder := rfl
@[simp] theorem State.draw_windows : s.draw.2.windows = s.windows := rfl
@[simp] theorem State.draw_chk : s.draw.2.chk = s.chk := rfl
@[simp] theorem State.draw_pwr : s.draw.2.pwr = s.pwr := rfl
@[simp] theorem State.draw_sen : s.draw.2.sen = s.sen := rfl
@[simp] theorem State.draw_pins : s.draw.2.pins = s.pins := rfl
@[simp] theorem State.draw_msix : s.draw.2.msix = s.msix := rfl
@[simp] theorem State.draw_msixPending : s.draw.2.msixPending = s.msixPending := rfl
@[simp] theorem State.draw_free : s.draw.2.free = s.free + 1 := rfl
@[simp] theorem State.draw_resp : s.draw.2.resp = s.resp := rfl
@[simp] theorem State.draw_pending : s.draw.2.pending = s.pending := rfl

/-! ### Tables read back what was written -/

@[simp] theorem State.setCtx_ctx_same (n : Nat) (c : Ctx) : (s.setCtx n c).ctx n = c :=
  Tab.getD_put_same _ _ _ _
theorem State.setCtx_ctx_ne {n j : Nat} (c : Ctx) (h : j ≠ n) : (s.setCtx n c).ctx j = s.ctx j :=
  Tab.getD_put_ne _ _ _ h
@[simp] theorem State.modCtx_ctx_same (n : Nat) (f : Ctx → Ctx) : (s.modCtx n f).ctx n = f (s.ctx n) :=
  Tab.getD_put_same _ _ _ _
theorem State.modCtx_ctx_ne {n j : Nat} (f : Ctx → Ctx) (h : j ≠ n) : (s.modCtx n f).ctx j = s.ctx j :=
  Tab.getD_put_ne _ _ _ h
@[simp] theorem State.setCl_cl_same (g : Nat) (c : Cluster) : (s.setCl g c).cl g = c :=
  Tab.getD_put_same _ _ _ _
theorem State.setCl_cl_ne {g j : Nat} (c : Cluster) (h : j ≠ g) : (s.setCl g c).cl j = s.cl j :=
  Tab.getD_put_ne _ _ _ h
@[simp] theorem State.modCl_cl_same (g : Nat) (f : Cluster → Cluster) : (s.modCl g f).cl g = f (s.cl g) :=
  Tab.getD_put_same _ _ _ _
theorem State.modCl_cl_ne {g j : Nat} (f : Cluster → Cluster) (h : j ≠ g) : (s.modCl g f).cl j = s.cl j :=
  Tab.getD_put_ne _ _ _ h
@[simp] theorem State.setQueue_queue_same (q : Nat) (c : Queue) : (s.setQueue q c).queue q = c :=
  Tab.getD_put_same _ _ _ _
theorem State.setQueue_queue_ne {q j : Nat} (c : Queue) (h : j ≠ q) : (s.setQueue q c).queue j = s.queue j :=
  Tab.getD_put_ne _ _ _ h
@[simp] theorem State.modQueue_queue_same (q : Nat) (f : Queue → Queue) : (s.modQueue q f).queue q = f (s.queue q) :=
  Tab.getD_put_same _ _ _ _
theorem State.modQueue_queue_ne {q j : Nat} (f : Queue → Queue) (h : j ≠ q) : (s.modQueue q f).queue j = s.queue j :=
  Tab.getD_put_ne _ _ _ h
@[simp] theorem State.setPort_port_same (m : Nat) (p : Port) : (s.setPort m p).port m = p :=
  Tab.getD_put_same _ _ _ _
theorem State.setPort_port_ne {m j : Nat} (p : Port) (h : j ≠ m) : (s.setPort m p).port j = s.port j :=
  Tab.getD_put_ne _ _ _ h
@[simp] theorem State.modPort_port_same (m : Nat) (f : Port → Port) : (s.modPort m f).port m = f (s.port m) :=
  Tab.getD_put_same _ _ _ _
theorem State.modPort_port_ne {m j : Nat} (f : Port → Port) (h : j ≠ m) : (s.modPort m f).port j = s.port j :=
  Tab.getD_put_ne _ _ _ h
@[simp] theorem State.setPool_pool_same (k : Nat) (p : Pool) : (s.setPool k p).pool k = p :=
  Tab.getD_setD_same _ _ _ _
theorem State.setPool_pool_ne {k j : Nat} (p : Pool) (h : j ≠ k) : (s.setPool k p).pool j = s.pool j :=
  Tab.getD_setD_ne _ _ _ h

/-! ### Registers are not touched by the other updates -/

@[simp] theorem State.setCtx_reg (n : Nat) (c : Ctx) (off : Nat) : (s.setCtx n c).reg off = s.reg off := rfl
@[simp] theorem State.setCtx_get (n : Nat) (c : Ctx) (off hi lo : Nat) : (s.setCtx n c).get off hi lo = s.get off hi lo := rfl
@[simp] theorem State.setCtx_cl_of (n : Nat) (c : Ctx) (j : Nat) : (s.setCtx n c).cl j = s.cl j := rfl
@[simp] theorem State.setCtx_queue_of (n : Nat) (c : Ctx) (j : Nat) : (s.setCtx n c).queue j = s.queue j := rfl
@[simp] theorem State.setCtx_port_of (n : Nat) (c : Ctx) (j : Nat) : (s.setCtx n c).port j = s.port j := rfl
@[simp] theorem State.modCtx_reg (n : Nat) (f : Ctx → Ctx) (off : Nat) : (s.modCtx n f).reg off = s.reg off := rfl
@[simp] theorem State.modCtx_get (n : Nat) (f : Ctx → Ctx) (off hi lo : Nat) : (s.modCtx n f).get off hi lo = s.get off hi lo := rfl
@[simp] theorem State.modCtx_cl_of (n : Nat) (f : Ctx → Ctx) (j : Nat) : (s.modCtx n f).cl j = s.cl j := rfl
@[simp] theorem State.modCtx_queue_of (n : Nat) (f : Ctx → Ctx) (j : Nat) : (s.modCtx n f).queue j = s.queue j := rfl
@[simp] theorem State.modCtx_port_of (n : Nat) (f : Ctx → Ctx) (j : Nat) : (s.modCtx n f).port j = s.port j := rfl
@[simp] theorem State.setCl_reg (g : Nat) (c : Cluster) (off : Nat) : (s.setCl g c).reg off = s.reg off := rfl
@[simp] theorem State.setCl_get (g : Nat) (c : Cluster) (off hi lo : Nat) : (s.setCl g c).get off hi lo = s.get off hi lo := rfl
@[simp] theorem State.setCl_ctx_of (g : Nat) (c : Cluster) (j : Nat) : (s.setCl g c).ctx j = s.ctx j := rfl
@[simp] theorem State.setCl_queue_of (g : Nat) (c : Cluster) (j : Nat) : (s.setCl g c).queue j = s.queue j := rfl
@[simp] theorem State.setCl_port_of (g : Nat) (c : Cluster) (j : Nat) : (s.setCl g c).port j = s.port j := rfl
@[simp] theorem State.modCl_reg (g : Nat) (f : Cluster → Cluster) (off : Nat) : (s.modCl g f).reg off = s.reg off := rfl
@[simp] theorem State.modCl_get (g : Nat) (f : Cluster → Cluster) (off hi lo : Nat) : (s.modCl g f).get off hi lo = s.get off hi lo := rfl
@[simp] theorem State.modCl_ctx_of (g : Nat) (f : Cluster → Cluster) (j : Nat) : (s.modCl g f).ctx j = s.ctx j := rfl
@[simp] theorem State.modCl_queue_of (g : Nat) (f : Cluster → Cluster) (j : Nat) : (s.modCl g f).queue j = s.queue j := rfl
@[simp] theorem State.modCl_port_of (g : Nat) (f : Cluster → Cluster) (j : Nat) : (s.modCl g f).port j = s.port j := rfl
@[simp] theorem State.setQueue_reg (q : Nat) (c : Queue) (off : Nat) : (s.setQueue q c).reg off = s.reg off := rfl
@[simp] theorem State.setQueue_get (q : Nat) (c : Queue) (off hi lo : Nat) : (s.setQueue q c).get off hi lo = s.get off hi lo := rfl
@[simp] theorem State.setQueue_ctx_of (q : Nat) (c : Queue) (j : Nat) : (s.setQueue q c).ctx j = s.ctx j := rfl
@[simp] theorem State.setQueue_cl_of (q : Nat) (c : Queue) (j : Nat) : (s.setQueue q c).cl j = s.cl j := rfl
@[simp] theorem State.setQueue_port_of (q : Nat) (c : Queue) (j : Nat) : (s.setQueue q c).port j = s.port j := rfl
@[simp] theorem State.modQueue_reg (q : Nat) (f : Queue → Queue) (off : Nat) : (s.modQueue q f).reg off = s.reg off := rfl
@[simp] theorem State.modQueue_get (q : Nat) (f : Queue → Queue) (off hi lo : Nat) : (s.modQueue q f).get off hi lo = s.get off hi lo := rfl
@[simp] theorem State.modQueue_ctx_of (q : Nat) (f : Queue → Queue) (j : Nat) : (s.modQueue q f).ctx j = s.ctx j := rfl
@[simp] theorem State.modQueue_cl_of (q : Nat) (f : Queue → Queue) (j : Nat) : (s.modQueue q f).cl j = s.cl j := rfl
@[simp] theorem State.modQueue_port_of (q : Nat) (f : Queue → Queue) (j : Nat) : (s.modQueue q f).port j = s.port j := rfl
@[simp] theorem State.setPort_reg (m : Nat) (p : Port) (off : Nat) : (s.setPort m p).reg off = s.reg off := rfl
@[simp] theorem State.setPort_get (m : Nat) (p : Port) (off hi lo : Nat) : (s.setPort m p).get off hi lo = s.get off hi lo := rfl
@[simp] theorem State.setPort_ctx_of (m : Nat) (p : Port) (j : Nat) : (s.setPort m p).ctx j = s.ctx j := rfl
@[simp] theorem State.setPort_cl_of (m : Nat) (p : Port) (j : Nat) : (s.setPort m p).cl j = s.cl j := rfl
@[simp] theorem State.setPort_queue_of (m : Nat) (p : Port) (j : Nat) : (s.setPort m p).queue j = s.queue j := rfl
@[simp] theorem State.modPort_reg (m : Nat) (f : Port → Port) (off : Nat) : (s.modPort m f).reg off = s.reg off := rfl
@[simp] theorem State.modPort_get (m : Nat) (f : Port → Port) (off hi lo : Nat) : (s.modPort m f).get off hi lo = s.get off hi lo := rfl
@[simp] theorem State.modPort_ctx_of (m : Nat) (f : Port → Port) (j : Nat) : (s.modPort m f).ctx j = s.ctx j := rfl
@[simp] theorem State.modPort_cl_of (m : Nat) (f : Port → Port) (j : Nat) : (s.modPort m f).cl j = s.cl j := rfl
@[simp] theorem State.modPort_queue_of (m : Nat) (f : Port → Port) (j : Nat) : (s.modPort m f).queue j = s.queue j := rfl
@[simp] theorem State.setPool_reg (k : Nat) (p : Pool) (off : Nat) : (s.setPool k p).reg off = s.reg off := rfl
@[simp] theorem State.setPool_get (k : Nat) (p : Pool) (off hi lo : Nat) : (s.setPool k p).get off hi lo = s.get off hi lo := rfl
@[simp] theorem State.setPool_ctx_of (k : Nat) (p : Pool) (j : Nat) : (s.setPool k p).ctx j = s.ctx j := rfl
@[simp] theorem State.setPool_cl_of (k : Nat) (p : Pool) (j : Nat) : (s.setPool k p).cl j = s.cl j := rfl
@[simp] theorem State.setPool_queue_of (k : Nat) (p : Pool) (j : Nat) : (s.setPool k p).queue j = s.queue j := rfl
@[simp] theorem State.setPool_port_of (k : Nat) (p : Pool) (j : Nat) : (s.setPool k p).port j = s.port j := rfl
@[simp] theorem State.modStp_reg (f : Stp → Stp) (off : Nat) : (s.modStp f).reg off = s.reg off := rfl
@[simp] theorem State.modStp_get (f : Stp → Stp) (off hi lo : Nat) : (s.modStp f).get off hi lo = s.get off hi lo := rfl
@[simp] theorem State.modStp_ctx_of (f : Stp → Stp) (j : Nat) : (s.modStp f).ctx j = s.ctx j := rfl
@[simp] theorem State.modStp_cl_of (f : Stp → Stp) (j : Nat) : (s.modStp f).cl j = s.cl j := rfl
@[simp] theorem State.modStp_queue_of (f : Stp → Stp) (j : Nat) : (s.modStp f).queue j = s.queue j := rfl
@[simp] theorem State.modStp_port_of (f : Stp → Stp) (j : Nat) : (s.modStp f).port j = s.port j := rfl
@[simp] theorem State.modSnp_reg (f : Snp → Snp) (off : Nat) : (s.modSnp f).reg off = s.reg off := rfl
@[simp] theorem State.modSnp_get (f : Snp → Snp) (off hi lo : Nat) : (s.modSnp f).get off hi lo = s.get off hi lo := rfl
@[simp] theorem State.modSnp_ctx_of (f : Snp → Snp) (j : Nat) : (s.modSnp f).ctx j = s.ctx j := rfl
@[simp] theorem State.modSnp_cl_of (f : Snp → Snp) (j : Nat) : (s.modSnp f).cl j = s.cl j := rfl
@[simp] theorem State.modSnp_queue_of (f : Snp → Snp) (j : Nat) : (s.modSnp f).queue j = s.queue j := rfl
@[simp] theorem State.modSnp_port_of (f : Snp → Snp) (j : Nat) : (s.modSnp f).port j = s.port j := rfl
@[simp] theorem State.modSec_reg (f : Sec → Sec) (off : Nat) : (s.modSec f).reg off = s.reg off := rfl
@[simp] theorem State.modSec_get (f : Sec → Sec) (off hi lo : Nat) : (s.modSec f).get off hi lo = s.get off hi lo := rfl
@[simp] theorem State.modSec_ctx_of (f : Sec → Sec) (j : Nat) : (s.modSec f).ctx j = s.ctx j := rfl
@[simp] theorem State.modSec_cl_of (f : Sec → Sec) (j : Nat) : (s.modSec f).cl j = s.cl j := rfl
@[simp] theorem State.modSec_queue_of (f : Sec → Sec) (j : Nat) : (s.modSec f).queue j = s.queue j := rfl
@[simp] theorem State.modSec_port_of (f : Sec → Sec) (j : Nat) : (s.modSec f).port j = s.port j := rfl
@[simp] theorem State.modPwr_reg (f : Pwr → Pwr) (off : Nat) : (s.modPwr f).reg off = s.reg off := rfl
@[simp] theorem State.modPwr_get (f : Pwr → Pwr) (off hi lo : Nat) : (s.modPwr f).get off hi lo = s.get off hi lo := rfl
@[simp] theorem State.modPwr_ctx_of (f : Pwr → Pwr) (j : Nat) : (s.modPwr f).ctx j = s.ctx j := rfl
@[simp] theorem State.modPwr_cl_of (f : Pwr → Pwr) (j : Nat) : (s.modPwr f).cl j = s.cl j := rfl
@[simp] theorem State.modPwr_queue_of (f : Pwr → Pwr) (j : Nat) : (s.modPwr f).queue j = s.queue j := rfl
@[simp] theorem State.modPwr_port_of (f : Pwr → Pwr) (j : Nat) : (s.modPwr f).port j = s.port j := rfl
@[simp] theorem State.modSen_reg (f : Sen → Sen) (off : Nat) : (s.modSen f).reg off = s.reg off := rfl
@[simp] theorem State.modSen_get (f : Sen → Sen) (off hi lo : Nat) : (s.modSen f).get off hi lo = s.get off hi lo := rfl
@[simp] theorem State.modSen_ctx_of (f : Sen → Sen) (j : Nat) : (s.modSen f).ctx j = s.ctx j := rfl
@[simp] theorem State.modSen_cl_of (f : Sen → Sen) (j : Nat) : (s.modSen f).cl j = s.cl j := rfl
@[simp] theorem State.modSen_queue_of (f : Sen → Sen) (j : Nat) : (s.modSen f).queue j = s.queue j := rfl
@[simp] theorem State.modSen_port_of (f : Sen → Sen) (j : Nat) : (s.modSen f).port j = s.port j := rfl
@[simp] theorem State.modPins_reg (f : Pins → Pins) (off : Nat) : (s.modPins f).reg off = s.reg off := rfl
@[simp] theorem State.modPins_get (f : Pins → Pins) (off hi lo : Nat) : (s.modPins f).get off hi lo = s.get off hi lo := rfl
@[simp] theorem State.modPins_ctx_of (f : Pins → Pins) (j : Nat) : (s.modPins f).ctx j = s.ctx j := rfl
@[simp] theorem State.modPins_cl_of (f : Pins → Pins) (j : Nat) : (s.modPins f).cl j = s.cl j := rfl
@[simp] theorem State.modPins_queue_of (f : Pins → Pins) (j : Nat) : (s.modPins f).queue j = s.queue j := rfl
@[simp] theorem State.modPins_port_of (f : Pins → Pins) (j : Nat) : (s.modPins f).port j = s.port j := rfl
@[simp] theorem State.modChk_reg (f : Chk → Chk) (off : Nat) : (s.modChk f).reg off = s.reg off := rfl
@[simp] theorem State.modChk_get (f : Chk → Chk) (off hi lo : Nat) : (s.modChk f).get off hi lo = s.get off hi lo := rfl
@[simp] theorem State.modChk_ctx_of (f : Chk → Chk) (j : Nat) : (s.modChk f).ctx j = s.ctx j := rfl
@[simp] theorem State.modChk_cl_of (f : Chk → Chk) (j : Nat) : (s.modChk f).cl j = s.cl j := rfl
@[simp] theorem State.modChk_queue_of (f : Chk → Chk) (j : Nat) : (s.modChk f).queue j = s.queue j := rfl
@[simp] theorem State.modChk_port_of (f : Chk → Chk) (j : Nat) : (s.modChk f).port j = s.port j := rfl
@[simp] theorem State.setReg_ctx_of (off v : Nat) (j : Nat) : (s.setReg off v).ctx j = s.ctx j := rfl
@[simp] theorem State.setReg_cl_of (off v : Nat) (j : Nat) : (s.setReg off v).cl j = s.cl j := rfl
@[simp] theorem State.setReg_queue_of (off v : Nat) (j : Nat) : (s.setReg off v).queue j = s.queue j := rfl
@[simp] theorem State.setReg_port_of (off v : Nat) (j : Nat) : (s.setReg off v).port j = s.port j := rfl
@[simp] theorem State.set_ctx_of (off hi lo v : Nat) (j : Nat) : (s.set off hi lo v).ctx j = s.ctx j := rfl
@[simp] theorem State.set_cl_of (off hi lo v : Nat) (j : Nat) : (s.set off hi lo v).cl j = s.cl j := rfl
@[simp] theorem State.set_queue_of (off hi lo v : Nat) (j : Nat) : (s.set off hi lo v).queue j = s.queue j := rfl
@[simp] theorem State.set_port_of (off hi lo v : Nat) (j : Nat) : (s.set off hi lo v).port j = s.port j := rfl
@[simp] theorem State.addSat_ctx_of (off hi lo n : Nat) (j : Nat) : (s.addSat off hi lo n).ctx j = s.ctx j := rfl
@[simp] theorem State.addSat_cl_of (off hi lo n : Nat) (j : Nat) : (s.addSat off hi lo n).cl j = s.cl j := rfl
@[simp] theorem State.addSat_queue_of (off hi lo n : Nat) (j : Nat) : (s.addSat off hi lo n).queue j = s.queue j := rfl
@[simp] theorem State.addSat_port_of (off hi lo n : Nat) (j : Nat) : (s.addSat off hi lo n).port j = s.port j := rfl
@[simp] theorem State.addWrap_ctx_of (off hi lo n : Nat) (j : Nat) : (s.addWrap off hi lo n).ctx j = s.ctx j := rfl
@[simp] theorem State.addWrap_cl_of (off hi lo n : Nat) (j : Nat) : (s.addWrap off hi lo n).cl j = s.cl j := rfl
@[simp] theorem State.addWrap_queue_of (off hi lo n : Nat) (j : Nat) : (s.addWrap off hi lo n).queue j = s.queue j := rfl
@[simp] theorem State.addWrap_port_of (off hi lo n : Nat) (j : Nat) : (s.addWrap off hi lo n).port j = s.port j := rfl
@[simp] theorem State.clearRegs_ctx_of (p : Nat → Bool) (j : Nat) : (s.clearRegs p).ctx j = s.ctx j := rfl
@[simp] theorem State.clearRegs_cl_of (p : Nat → Bool) (j : Nat) : (s.clearRegs p).cl j = s.cl j := rfl
@[simp] theorem State.clearRegs_queue_of (p : Nat → Bool) (j : Nat) : (s.clearRegs p).queue j = s.queue j := rfl
@[simp] theorem State.clearRegs_port_of (p : Nat → Bool) (j : Nat) : (s.clearRegs p).port j = s.port j := rfl

end Machine

end Sys2Proof
end

