-- ==== Sys2Proof/Laws/Access.lean ====
section
/-! SUPPORT. How a register access of the host reaches its register while the device is in service. -/

set_option Elab.async false
set_option linter.all false

namespace Sys2Proof

namespace Machine

variable {s : State}

theorem State.Up.running (h : s.Up) : s.running = true := by
  have := h.boot
  simp [State.running, h.trip, h.active, show s.sec.bootStep ≠ 0 by omega]

theorem State.Up.hostUp (h : s.Up) : s.hostUp = true := by
  have := h.boot
  simp [State.hostUp, State.port0Dark, h.trip, h.active, show 2 ≤ s.sec.bootStep by omega]

theorem State.Up.pwrAlive (h : s.Up) : s.pwrAlive = true := by
  have := h.boot
  simp [State.pwrAlive, h.trip, h.active, show s.sec.bootStep ≠ 0 by omega]

theorem State.Up.whenRunning (h : s.Up) (t : State) : s.whenRunning t = t := by simp [State.whenRunning, h.running]

theorem State.Up.fetchCmd (h : s.Up) (q : Nat) (accept : Nat → Bool) : s.fetchCmd q accept = s.fetchAny q accept := by
  simp [State.fetchCmd, h.running]

/-- An aligned access of 4 or 8 bytes within a block's range is made. -/
theorem State.Up.accessBad (h : s.Up) {off size : Nat} (hz : size = 4 ∨ size = 8) (ha : off % size = 0)
    (ho : (ownerViol off).isSome = true) : s.accessBad off size = none := by
  have hb := h.boot
  have h5 : ¬ s.sec.bootStep < 5 := by omega
  have hn : (ownerViol off).isNone = false := by cases hv : ownerViol off <;> simp_all
  rcases hz with rfl | rfl <;> simp [State.accessBad, ha, hn, h5, h.lit]

/-- A write of 4 bytes by the host at the start of a register. -/
theorem State.Up.write4 (h : s.Up) {off v : Nat} {r : RegRow} (hr : regAt off = some r) (ha : off % 4 = 0)
    (ho : (ownerViol off).isSome = true) :
    s.regWrite .host off 4 v = s.writeReg .host r off (2 ^ 32 - 1) (v % 2 ^ 32) := by
  have hb := h.accessBad (.inl rfl) ha ho
  simp [State.regWrite, State.barWrite, h.hostUp, State.accessViol, hb, isWide, State.writePart, regPart, hr, State.mayAccess]

/-- A write of 8 bytes by the host to a 64-bit register. -/
theorem State.Up.write8 (h : s.Up) {off v : Nat} {r : RegRow} (hr : regAt off = some r) (hw : r.width = 64)
    (ha : off % 8 = 0) (ho : (ownerViol off).isSome = true) :
    s.regWrite .host off 8 v = s.writeReg .host r off (2 ^ 64 - 1) (v % 2 ^ 64) := by
  have hb := h.accessBad (.inr rfl) ha ho
  simp [State.regWrite, State.barWrite, h.hostUp, State.accessViol, hb, isWide, State.writePart, regPart, hr, hw, State.mayAccess]

/-- A read of 8 bytes by the host of a 64-bit register. -/
theorem State.Up.read8 (h : s.Up) {off : Nat} {r : RegRow} (hr : regAt off = some r) (hw : r.width = 64)
    (ha : off % 8 = 0) (ho : (ownerViol off).isSome = true) :
    s.regRead .host off 8 =
      { (s.readReg .host r off).2 with resp := [(s.readReg .host r off).1 % 2 ^ 64] } := by
  have hb := h.accessBad (.inr rfl) ha ho
  simp [State.regRead, State.barRead, h.hostUp, State.accessViol, hb, isWide, State.readPart, regPart, hr, hw, State.mayAccess]

end Machine

end Sys2Proof
end

