-- ==== Sys2Proof/Laws/Balance.lean ====
section
/-! SUPPORT. The operations on ports, step control and pools keep the identities of R340, R358 and R259. -/

set_option Elab.async false
set_option linter.all false

namespace Sys2Proof

open Machine

variable {α : Type}

theorem Tab.mem_find {t : Tab α} {k : Nat} {v : α} (h : Tab.find t k = some v) : (k, v) ∈ t := by
  induction t with
  | nil => cases h
  | cons q rest ih =>
    obtain ⟨a, x⟩ := q
    unfold Tab.find at h
    split at h
    · next e => cases h; exact e ▸ List.mem_cons_self
    · exact List.mem_cons_of_mem _ (ih h)

/-- What holds of the default and of every entry holds of what a key gives. -/
theorem Tab.getD_of_all {P : α → Prop} {t : Tab α} {d : α} (hd : P d) (ht : ∀ x ∈ t, P x.2) (k : Nat) : P (Tab.getD d t k) := by
  unfold Tab.getD
  split
  · next v e => exact ht _ (Tab.mem_find e)
  · exact hd

theorem Tab.all_put {P : α → Prop} {t : Tab α} {v : α} (hv : P v) (ht : ∀ x ∈ t, P x.2) (k : Nat) :
    ∀ x ∈ Tab.put t k v, P x.2 := by
  intro x hx
  rcases Tab.mem_put hx with h | h
  · exact h ▸ hv
  · exact ht x h

theorem Tab.all_erase {P : α → Prop} {t : Tab α} (ht : ∀ x ∈ t, P x.2) (k : Nat) : ∀ x ∈ Tab.erase t k, P x.2 :=
  fun x hx => ht x (List.mem_filter.mp hx).1

theorem Tab.all_setD [DecidableEq α] {P : α → Prop} {t : Tab α} {v d : α} (hv : P v) (ht : ∀ x ∈ t, P x.2) (k : Nat) :
    ∀ x ∈ Tab.setD d t k v, P x.2 := by
  unfold Tab.setD
  split
  · exact Tab.all_erase ht k
  · exact Tab.all_put hv ht k

namespace Machine

/-! ### Ports (R340) -/

theorem Lane.Balanced.blank : Lane.blank.Balanced := ⟨rfl, rfl⟩
theorem Port.Balanced.blank : Port.blank.Balanced := fun _ h => (List.not_mem_nil h).elim

theorem Port.Balanced.lane {p : Port} (h : p.Balanced) (v : Nat) : (p.lane v).Balanced :=
  Tab.getD_of_all Lane.Balanced.blank h v

theorem Port.Balanced.setLane {p : Port} (h : p.Balanced) (v : Nat) {l : Lane} (hl : l.Balanced) : (p.setLane v l).Balanced :=
  Tab.all_put hl h v

theorem State.port_balanced {s : State} (h : creditsBalance s.ports) (m : Nat) : (s.port m).Balanced :=
  Tab.getD_of_all Port.Balanced.blank h m

theorem Port.Balanced.free {p : Port} (h : p.Balanced) (x : Parcel) : (p.free x).Balanced :=
  h.setLane _ ⟨(h.lane _).issued, (h.lane _).spent⟩

theorem Port.Balanced.sendOne {p : Port} (h : p.Balanced) (v : Nat) (hv : (p.lane v).held ≠ 0) : (p.sendOne v).Balanced := by
  unfold Port.sendOne
  split
  · exact h
  · have hl := h.lane v
    refine Port.Balanced.setLane h v ⟨?_, ?_⟩
    · have := hl.issued
      simp only
      omega
    · simp [hl.spent]

theorem Port.pick_held {p : Port} {v : Nat} (h : p.pick = some v) : (p.lane v).held ≠ 0 := by
  have key : p.canSend v = true := by
    unfold Port.pick at h
    split at h
    · next e => cases h; exact e
    · exact List.find?_some (p := fun v => p.canSend v) h
  simp only [Port.canSend, Bool.and_eq_true, bne_iff_ne] at key
  exact key.2

theorem Port.Balanced.pump {p : Port} (h : p.Balanced) (n : Nat) : (p.pump n).Balanced := by
  induction n generalizing p with
  | zero => exact h
  | succ k ih =>
    unfold Port.pump
    split
    · split
      · next v hv => exact ih (h.sendOne v (Port.pick_held hv))
      · exact h
    · exact h

theorem Port.Balanced.assemble {p : Port} (h : p.Balanced) (v : Nat) (f : Fu) : (p.assemble v f).1.Balanced := by
  have key : ∀ asm freed, (p.setLane v { p.lane v with asm := asm, freed := freed }).Balanced := fun _ _ =>
    h.setLane v ⟨(h.lane v).issued, (h.lane v).spent⟩
  unfold Port.assemble
  dsimp only
  repeat' split
  all_goals exact key _ _

theorem Port.Balanced.ack {p : Port} (h : p.Balanced) (a : Nat) : (p.ack a).Balanced := by
  unfold Port.ack
  dsimp only
  split <;> exact h

theorem Port.lane_setLane_ne {p : Port} {v w : Nat} (l : Lane) (h : w ≠ v) : (p.setLane v l).lane w = p.lane w :=
  Tab.getD_put_ne _ _ _ h

theorem Port.Balanced.returnsGo {fu : List Byte} (vs : List Nat) (nd : vs.Nodup) {p : Port} (h : p.Balanced)
    (ok : ∀ v ∈ vs, (p.lane v).returned (leAt fu (8 + 4 * v) 4) ≤ (p.lane v).inflight) :
    (vs.foldl (fun q v =>
      let l := q.lane v
      let ret := leAt fu (8 + 4 * v) 4
      q.setLane v { l with
        held := l.held + l.returned ret, inflight := l.inflight - l.returned ret, lastRet := ret
        spent := l.spent.drop (l.returned ret) }) p).Balanced := by
  induction vs generalizing p with
  | nil => exact h
  | cons v rest ih =>
    simp only [List.foldl_cons]
    have hl := h.lane v
    have hv := ok v List.mem_cons_self
    refine ih (List.nodup_cons.mp nd).2 (h.setLane v ⟨?_, ?_⟩) ?_
    · have := hl.issued
      simp only
      omega
    · simp [hl.spent]
    · intro w hw
      rw [Port.lane_setLane_ne _ (fun e : w = v => (List.nodup_cons.mp nd).1 (by rw [← e]; exact hw))]
      exact ok w (List.mem_cons_of_mem _ hw)

theorem Port.lane_ack (p : Port) (a v : Nat) : (p.ack a).lane v = p.lane v := by
  unfold Port.ack
  dsimp only
  split <;> rfl

theorem Port.Balanced.returns {p : Port} {fu : List Byte} (h : p.Balanced) (ok : p.overReturned fu = false) :
    (p.returns fu).Balanced := by
  refine Port.Balanced.returnsGo _ List.nodup_range h fun v hv => ?_
  have := List.any_eq_false.mp ok v hv
  simpa using this

theorem Port.overReturned_ack (p : Port) (a : Nat) (fu : List Byte) : (p.ack a).overReturned fu = p.overReturned fu := by
  simp only [Port.overReturned, Port.lane_ack]

theorem creditsBalance.rebuild {ports : Tab Port} (h : creditsBalance ports) (p : Nat) :
    creditsBalance (ports.map fun x => (x.1, { x.2 with lanes := x.2.lanes.map fun l => (l.1, l.2.rebuild p) })) := by
  intro x hx
  obtain ⟨y, hy, rfl⟩ := List.mem_map.mp hx
  intro l hl
  obtain ⟨z, hz, rfl⟩ := List.mem_map.mp hl
  have := h y hy z hz
  exact ⟨this.issued, by simpa [Lane.rebuild] using this.spent⟩

theorem creditsBalance.nil : creditsBalance [] := fun _ h => (List.not_mem_nil h).elim

/-! ### Pools (R259, R262) -/

theorem Pool.Sound.blank : Pool.blank.Sound := ⟨fun _ h => (List.not_mem_nil h).elim, fun _ h => (List.not_mem_nil h).elim⟩
theorem pagesSound.nil : pagesSound [] := fun _ h => (List.not_mem_nil h).elim

theorem State.pool_sound {s : State} (h : pagesSound s.pools) (k : Nat) : (s.pool k).Sound :=
  Tab.getD_of_all Pool.Sound.blank h k

theorem Pool.Sound.setRec {p : Pool} (h : p.Sound) (i : Nat) {r : PageRec} (hr : r.Sound) : (p.setRec i r).Sound :=
  ⟨Tab.all_put hr h.recs i, h.ops⟩

theorem PageRec.Sound.drop (r : PageRec) (now : Nat) : (r.drop now).Sound :=
  ⟨by simp [PageRec.drop], fun _ => rfl, Nat.zero_le _, fun _ e => by cases e⟩

theorem PageRec.Sound.new (tid ord : Nat) : (⟨tid, ord, 0, false, [], [], false, [], 0, false, 0, none⟩ : PageRec).Sound :=
  ⟨Nat.zero_le _, fun _ => rfl, Nat.zero_le _, fun _ e => by cases e⟩

theorem PageRec.Sound.withMove {r : PageRec} (h : r.Sound) {m : PageMove} (hm : m.Sound) : ({ r with move := some m }).Sound :=
  ⟨h.state, h.empty, h.held, fun _ e => by cases e; exact hm⟩

theorem PageRec.Sound.withPin {r : PageRec} (h : r.Sound) (b : Bool) : ({ r with pin := b }).Sound := ⟨h.state, h.empty, h.held, h.move⟩

theorem Pool.find_sound {p : Pool} (h : p.Sound) {i : Nat} {r : PageRec} (e : Tab.find p.recs i = some r) : r.Sound :=
  h.recs _ (Tab.mem_find e)

theorem Pool.findKey_sound {p : Pool} (h : p.Sound) {tid ord i : Nat} {r : PageRec} (e : p.findKey tid ord = some (i, r)) :
    r.Sound := h.recs _ (List.mem_of_find?_eq_some e)

theorem Pool.freeSlots_length (p : Pool) (t : Nat) : (p.freeSlots t).length ≤ reserve t := by
  unfold Pool.freeSlots
  rw [List.length_take]
  exact Nat.min_le_left _ _

theorem Pool.victim_mem {p : Pool} {t : Nat} {self : Option Nat} {x : Nat × PageRec} (e : p.victim t self = some x) : x ∈ p.recs := by
  have key : ∀ (l : List (Nat × PageRec)) (b : Option (Nat × PageRec)), (∀ y, b = some y → y ∈ p.recs) → (∀ y ∈ l, y ∈ p.recs) →
      ∀ y, l.foldl (fun b r => match b with
        | none => some r
        | some x => if r.2.since < x.2.since then some r else some x) b = some y → y ∈ p.recs := by
    intro l
    induction l with
    | nil => exact fun b hb _ y e => hb y e
    | cons z rest ih =>
      intro b hb hl y e
      refine ih _ ?_ (fun y hy => hl y (List.mem_cons_of_mem _ hy)) y e
      intro w hw
      dsimp only at hw
      split at hw
      · cases hw; exact hl _ List.mem_cons_self
      · next q =>
        split at hw
        · cases hw; exact hl _ List.mem_cons_self
        · cases hw; exact hb _ rfl
  exact key _ none (fun _ h => by cases h) (fun y hy => (List.mem_filter.mp hy).1) x e

theorem Pool.Sound.demote {p : Pool} (h : p.Sound) (i : Nat) {r : PageRec} (hr : r.Sound) {t : Nat} (h1 : 1 ≤ t) (h4 : t ≤ 4) :
    (p.demote i r t).Sound :=
  h.setRec i (hr.withMove ⟨h1, h4, Pool.freeSlots_length _ _⟩)

/-- Where a placement can have come to. -/
structure Placing.Sound (x : Placing) : Prop where
  pool : x.pool.Sound
  low : 1 ≤ x.tier
  high : x.tier ≤ 4
  path : ∀ y ∈ x.path, 1 ≤ y.2 ∧ y.2 ≤ 4

theorem Pool.Sound.place {size : Nat → Nat} {fuel : Nat} {lower : Bool} {p : Pool} (h : p.Sound) (self : Option Nat) {t : Nat}
    (h1 : 1 ≤ t) (h4 : t ≤ 4) {path : List (Nat × Nat)} (hp : ∀ y ∈ path, 1 ≤ y.2 ∧ y.2 ≤ 4) :
    (Pool.place size fuel lower p self t path).Sound := by
  induction fuel generalizing lower p self t path with
  | zero => exact ⟨h, h1, h4, hp⟩
  | succ k ih =>
    have below : ∀ (i : Nat) (r : PageRec) (u : Nat) (rest : List (Nat × Nat)), r.Sound → 1 ≤ u → u ≤ 4 →
        (∀ y ∈ rest, 1 ≤ y.2 ∧ y.2 ≤ 4) →
        (if (Pool.place size k true p (some i) u rest).room then
          (⟨(Pool.place size k true p (some i) u rest).pool.demote i r (Pool.place size k true p (some i) u rest).tier, false, t,
            [(i, (Pool.place size k true p (some i) u rest).tier)]⟩ : Placing)
        else ⟨(Pool.place size k true p (some i) u rest).pool, false, t,
          (i, (Pool.place size k true p (some i) u rest).tier) :: (Pool.place size k true p (some i) u rest).path⟩).Sound := by
      intro i r u rest hr hu1 hu4 hrest
      have q := ih (lower := true) h (some i) hu1 hu4 hrest
      split
      · exact ⟨q.pool.demote i hr q.low q.high, h1, h4, fun y hy => by
          rw [List.mem_singleton] at hy; subst hy; exact ⟨q.low, q.high⟩⟩
      · exact ⟨q.pool, h1, h4, fun y hy => by
          rcases List.mem_cons.mp hy with e | e
          · subst e; exact ⟨q.low, q.high⟩
          · exact q.path y e⟩
    have nil : ∀ y ∈ ([] : List (Nat × Nat)), 1 ≤ y.2 ∧ y.2 ≤ 4 := fun _ e => (List.not_mem_nil e).elim
    unfold Pool.place
    dsimp only
    split
    · next i u rest =>
      have hu := hp (i, u) List.mem_cons_self
      have hrest : ∀ y ∈ rest, 1 ≤ y.2 ∧ y.2 ≤ 4 := fun y hy => hp y (List.mem_cons_of_mem _ hy)
      split
      · next r e =>
        split
        · exact ⟨h, h1, h4, hp⟩
        · split
          · exact below i r u rest (Pool.find_sound h e) hu.1 hu.2 hrest
          · exact ih h self h1 h4 nil
      · exact ih h self h1 h4 nil
    · split
      · exact ⟨h, h1, h4, nil⟩
      · split
        · exact ⟨h, h1, h4, nil⟩
        · split
          · next i r e => exact below i r (t + 1) [] (h.recs _ (Pool.victim_mem e)) (by omega) (by omega) nil
          · split
            · exact ih h self (by omega) (by omega) nil
            · exact ⟨h, h1, h4, nil⟩

theorem Pool.Sound.takeRec {p : Pool} (h : p.Sound) {size tid ord i : Nat} {r : PageRec} {q : Pool}
    (e : p.takeRec size tid ord = some (i, r, q)) : r.Sound ∧ q.Sound := by
  unfold Pool.takeRec at e
  dsimp only at e
  split at e
  · next hk => cases e; exact ⟨Pool.findKey_sound h hk, h⟩
  · split at e
    · cases e; exact ⟨.new _ _, h⟩
    · split at e
      · cases e; exact ⟨.new _ _, ⟨Tab.all_erase h.recs _, h.ops⟩⟩
      · cases e

/-- A placement of an operation whose tiers are tiers. -/
theorem PageOp.Sound.placing {p : Pool} (h : p.Sound) {o : PageOp} (ho : o.Sound) (size : Nat → Nat) (fuel : Nat) (lower : Bool)
    (self : Option Nat) {t : Nat} (h1 : 1 ≤ t) (h4 : t ≤ 4) :
    (Pool.place size fuel lower p self (o.tier.getD t) o.path).Sound := by
  cases e : o.tier with
  | none => exact h.place self h1 h4 ho.path
  | some u => exact h.place self (ho.tier u e).1 (ho.tier u e).2 ho.path

theorem State.placeFor_sound {s : State} {k : Nat} {o : PageOp} (h : (s.pool k).Sound) (ho : o.Sound) (self : Option Nat) {t : Nat}
    (lower : Bool) (h1 : 1 ≤ t) (h4 : t ≤ 4) :
    (s.placeFor k o self t lower).2.1.Sound ∧ ∀ u, (s.placeFor k o self t lower).1 = some u → 1 ≤ u ∧ u ≤ 4 := by
  have q := ho.placing h (s.tierSize k) 10 lower self h1 h4
  unfold State.placeFor
  refine ⟨⟨fun u e => ?_, q.path⟩, fun u e => ?_⟩
  · cases e
    exact ⟨q.low, q.high⟩
  · dsimp only at e
    split at e
    · cases e
      exact ⟨q.low, q.high⟩
    · cases e

/-- A record that a move has put into its tier holds what the tier reserves, and no more. -/
theorem PageRec.Sound.settled {m : PageMove} (hm : m.Sound) (r : PageRec) (n : Nat) (page : Memory 8) (raw : Bool) (ids : List Nat)
    (crc : Nat) (applied pin : Bool) (since : Nat) :
    ({ r with state := m.target, slots := m.slots.take n, page := page, raw := raw, ids := ids, crc := crc, applied := applied,
              pin := pin, since := since, move := none } : PageRec).Sound := by
  obtain ⟨h1, h4, hs⟩ := hm
  refine ⟨?_, fun e => ?_, ?_, fun _ e => by cases e⟩
  · dsimp only
    omega
  · dsimp only at e
    omega
  · rw [List.length_take]
    exact Nat.le_trans (Nat.min_le_right _ _) hs

end Machine

end Sys2Proof
end

