-- ==== Sys2Proof/Laws/HostRows.lean ====
section
/-! SUPPORT. Where the registers with commands of their own lie in the register map, and what a write of the host to one
comes to while the device is in service. -/

set_option Elab.async false
set_option linter.all false

namespace Sys2Proof

namespace Machine

variable {s : State}

/-- The row of the register map at an address. -/
def rowOf (off : Nat) : RegRow := (regAt off).getD ⟨0, [], 0, []⟩

theorem RegRow.at_cons_neg {r : RegRow} {rest : List RegRow} {off : Nat}
    (h : (decide (r.base ≤ off) && RegRow.hits r.dims (off - r.base)) = false) :
    RegRow.at? (r :: rest) off = RegRow.at? rest off := by
  simp [RegRow.at?, h]

theorem RegRow.at_append_some {a b : List RegRow} {off : Nat} {r : RegRow} (h : RegRow.at? a off = some r) :
    RegRow.at? (a ++ b) off = some r := by
  induction a with
  | nil => simp [RegRow.at?] at h
  | cons x xs ih =>
    simp only [List.cons_append, RegRow.at?] at h ⊢
    split
    · rename_i hx; simp [hx] at h; simp [h]
    · rename_i hx; simp [hx] at h; exact ih h

theorem RegRow.at_cons_pos {r : RegRow} {rest : List RegRow} {off : Nat}
    (h : (decide (r.base ≤ off) && RegRow.hits r.dims (off - r.base)) = true) : RegRow.at? (r :: rest) off = some r := by
  simp [RegRow.at?, h]

theorem regAt_cfgPartmap {p : Nat} (h0 : p < 64) : regAt (Reg.cfgPartmap p) = some (rowOf (Reg.cfgPartmap 1)) := by
  have e : Reg.cfgPartmap p = 0x1000 + 0x10 * p := rfl
  unfold regAt regRows
  rw [e]
  repeat (first | rw [if_neg (by omega)] | rw [if_pos (by omega)])
  refine RegRow.at_append_some (RegRow.at_append_some ?_)
  simp only [regsCfg]
  rw [RegRow.at_cons_neg (by simp [RegRow.hits])]
  repeat (first
    | rw [RegRow.at_cons_pos (by simp [RegRow.hits]; omega)] | rw [RegRow.at_cons_neg (by simp [RegRow.hits]; omega)])
  decide +kernel

theorem regAt_cfgPartctl {p : Nat} (h0 : p < 64) : regAt (Reg.cfgPartctl p) = some (rowOf (Reg.cfgPartctl 1)) := by
  have e : Reg.cfgPartctl p = 0x1008 + 0x10 * p := rfl
  unfold regAt regRows
  rw [e]
  repeat (first | rw [if_neg (by omega)] | rw [if_pos (by omega)])
  refine RegRow.at_append_some (RegRow.at_append_some ?_)
  simp only [regsCfg]
  rw [RegRow.at_cons_neg (by simp [RegRow.hits])]
  repeat (first
    | rw [RegRow.at_cons_pos (by simp [RegRow.hits]; omega)] | rw [RegRow.at_cons_neg (by simp [RegRow.hits]; omega)])
  decide +kernel

theorem regAt_ctxCtl {n : Nat} (h0 : 1 ≤ n) (h1 : n < 4096) : regAt (Reg.ctxCtl n) = some (rowOf (Reg.ctxCtl 1)) := by
  have e : Reg.ctxCtl n = 0x100000 + 0x100 * n := rfl
  unfold regAt regRows
  rw [e]
  repeat (first | rw [if_neg (by omega)] | rw [if_pos (by omega)])
  simp only [regsCtx]
  repeat (first
    | rw [RegRow.at_cons_pos (by simp [RegRow.hits]; omega)] | rw [RegRow.at_cons_neg (by simp [RegRow.hits]; omega)])
  decide +kernel

theorem regAt_queCtl {q : Nat} (h0 : q < 32768) : regAt (Reg.queCtl q) = some (rowOf (Reg.queCtl 1)) := by
  have e : Reg.queCtl q = 0x200000 + 0x40 * q := rfl
  unfold regAt regRows
  rw [e]
  repeat (first | rw [if_neg (by omega)] | rw [if_pos (by omega)])
  simp only [regsQue]
  repeat (first
    | rw [RegRow.at_cons_pos (by simp [RegRow.hits]; omega)] | rw [RegRow.at_cons_neg (by simp [RegRow.hits]; omega)])
  decide +kernel

theorem regAt_ldgPctl {t : Nat} {j : Nat} (h0 : t < 12) (h1 : j < 128) : regAt (Reg.ldgPctl t j) = some (rowOf (Reg.ldgPctl 1 1)) := by
  have e : Reg.ldgPctl t j = 0x800000 + 0x10000 * t + 0x40 * j := rfl
  unfold regAt regRows
  rw [e]
  repeat (first | rw [if_neg (by omega)] | rw [if_pos (by omega)])
  simp only [regsLdg]
  repeat (first
    | rw [RegRow.at_cons_pos (by simp [RegRow.hits]; omega)] | rw [RegRow.at_cons_neg (by simp [RegRow.hits]; omega)])
  decide +kernel

theorem regAt_ldgShbase {t : Nat} (h0 : t < 12) : regAt (Reg.ldgShbase t) = some (rowOf (Reg.ldgShbase 1)) := by
  have e : Reg.ldgShbase t = 0x804108 + 0x10000 * t := rfl
  unfold regAt regRows
  rw [e]
  repeat (first | rw [if_neg (by omega)] | rw [if_pos (by omega)])
  simp only [regsLdg]
  repeat (first
    | rw [RegRow.at_cons_pos (by simp [RegRow.hits]; omega)] | rw [RegRow.at_cons_neg (by simp [RegRow.hits]; omega)])
  decide +kernel

theorem regAt_hbmBwshare {p : Nat} (h0 : p < 64) : regAt (Reg.hbmBwshare p) = some (rowOf (Reg.hbmBwshare 1)) := by
  have e : Reg.hbmBwshare p = 0x900000 + 8 * p := rfl
  unfold regAt regRows
  rw [e]
  repeat (first | rw [if_neg (by omega)] | rw [if_pos (by omega)])
  simp only [regsHbm]
  repeat (first
    | rw [RegRow.at_cons_pos (by simp [RegRow.hits]; omega)] | rw [RegRow.at_cons_neg (by simp [RegRow.hits]; omega)])
  decide +kernel

theorem regAt_hbmRecal {t : Nat} (h0 : t < 12) : regAt (Reg.hbmRecal t) = some (rowOf (Reg.hbmRecal 1)) := by
  have e : Reg.hbmRecal t = 0x901000 + 0x40 * t := rfl
  unfold regAt regRows
  rw [e]
  repeat (first | rw [if_neg (by omega)] | rw [if_pos (by omega)])
  simp only [regsHbm]
  repeat (first
    | rw [RegRow.at_cons_pos (by simp [RegRow.hits]; omega)] | rw [RegRow.at_cons_neg (by simp [RegRow.hits]; omega)])
  decide +kernel

theorem regAt_mdlPctl {m : Nat} (h0 : m < 32) : regAt (Reg.mdlPctl m) = some (rowOf (Reg.mdlPctl 1)) := by
  have e : Reg.mdlPctl m = 0xa00000 + 0x100 * m := rfl
  unfold regAt regRows
  rw [e]
  repeat (first | rw [if_neg (by omega)] | rw [if_pos (by omega)])
  simp only [regsMdl]
  repeat (first
    | rw [RegRow.at_cons_pos (by simp [RegRow.hits]; omega)] | rw [RegRow.at_cons_neg (by simp [RegRow.hits]; omega)])
  decide +kernel

theorem regAt_pwrOpset : regAt Reg.pwrOpset = some (rowOf (Reg.pwrOpset)) := by decide +kernel

theorem regAt_pwrCap : regAt Reg.pwrCap = some (rowOf (Reg.pwrCap)) := by decide +kernel

theorem regAt_hifPushctl : regAt Reg.hifPushctl = some (rowOf (Reg.hifPushctl)) := by decide +kernel

theorem regAt_hifHdmwin : regAt Reg.hifHdmwin = some (rowOf (Reg.hifHdmwin)) := by decide +kernel

theorem regAt_hifReset : regAt Reg.hifReset = some (rowOf (Reg.hifReset)) := by decide +kernel

theorem regAt_senSlot {i : Nat} (h0 : i < 8) : regAt (Reg.senSlot i) = some (rowOf (Reg.senSlot 1)) := by
  have e : Reg.senSlot i = 0xd00010 + 8 * i := rfl
  unfold regAt regRows
  rw [e]
  repeat (first | rw [if_neg (by omega)] | rw [if_pos (by omega)])
  simp only [regsSen]
  repeat (first
    | rw [RegRow.at_cons_pos (by simp [RegRow.hits]; omega)] | rw [RegRow.at_cons_neg (by simp [RegRow.hits]; omega)])
  decide +kernel

theorem regAt_senCtl : regAt Reg.senCtl = some (rowOf (Reg.senCtl)) := by decide +kernel

theorem regAt_ldgPoolaud0 {t : Nat} {j : Nat} (h0 : t < 12) (h1 : j < 128) : regAt (Reg.ldgPoolaud0 t j) = some (rowOf (Reg.ldgPoolaud0 1 1)) := by
  have e : Reg.ldgPoolaud0 t j = 0x802000 + 0x10000 * t + 0x20 * j := rfl
  unfold regAt regRows
  rw [e]
  repeat (first | rw [if_neg (by omega)] | rw [if_pos (by omega)])
  simp only [regsLdg]
  repeat (first
    | rw [RegRow.at_cons_pos (by simp [RegRow.hits]; omega)] | rw [RegRow.at_cons_neg (by simp [RegRow.hits]; omega)])
  decide +kernel

theorem regAt_ldgShraud {t : Nat} (h0 : t < 12) : regAt (Reg.ldgShraud t) = some (rowOf (Reg.ldgShraud 1)) := by
  have e : Reg.ldgShraud t = 0x804100 + 0x10000 * t := rfl
  unfold regAt regRows
  rw [e]
  repeat (first | rw [if_neg (by omega)] | rw [if_pos (by omega)])
  simp only [regsLdg]
  repeat (first
    | rw [RegRow.at_cons_pos (by simp [RegRow.hits]; omega)] | rw [RegRow.at_cons_neg (by simp [RegRow.hits]; omega)])
  decide +kernel

theorem regAt_pwrTokaud : regAt Reg.pwrTokaud = some (rowOf (Reg.pwrTokaud)) := by decide +kernel

theorem regAt_mdlCredaud {m : Nat} {l : Nat} (h0 : m < 32) (h1 : l < 4) : regAt (Reg.mdlCredaud m l) = some (rowOf (Reg.mdlCredaud 1 1)) := by
  have e : Reg.mdlCredaud m l = 0xa00020 + 0x100 * m + 8 * l := rfl
  unfold regAt regRows
  rw [e]
  repeat (first | rw [if_neg (by omega)] | rw [if_pos (by omega)])
  simp only [regsMdl]
  repeat (first
    | rw [RegRow.at_cons_pos (by simp [RegRow.hits]; omega)] | rw [RegRow.at_cons_neg (by simp [RegRow.hits]; omega)])
  decide +kernel

theorem regAt_stpBaraud : regAt Reg.stpBaraud = some (rowOf (Reg.stpBaraud)) := by decide +kernel

theorem regAt_colContrib0 : regAt Reg.colContrib0 = some (rowOf (Reg.colContrib0)) := by decide +kernel

theorem regAt_chkEvent0 : regAt Reg.chkEvent0 = some (rowOf (Reg.chkEvent0)) := by decide +kernel

theorem regAt_senEvent : regAt Reg.senEvent = some (rowOf (Reg.senEvent)) := by decide +kernel

/-- A write of 8 bytes by the host to the register. -/
theorem State.Up.write_cfgPartmap (h : s.Up) {p : Nat} (h0 : p < 64) (v : Nat) :
    s.regWrite .host (Reg.cfgPartmap p) 8 v = (s.violateIf (v % 2 ^ 64 != v % 2 ^ 64 &&& (rowOf (Reg.cfgPartmap 1)).usedMask) Reg.cfgViolcnt .host).writePartmap .host p (2 ^ 64 - 1) (v % 2 ^ 64) := by
  have ho : ownerViol (Reg.cfgPartmap p) = some Reg.cfgViolcnt := by
    have e : Reg.cfgPartmap p = 0x1000 + 0x10 * p := rfl
    unfold ownerViol
    rw [e]
    repeat (first | rw [if_neg (by omega)] | rw [if_pos (by omega)])
    all_goals (first | rfl | (simp only [Reg.ldgViolcnt, Option.some.injEq]; omega))
  rw [State.Up.write8 h (regAt_cfgPartmap h0) (by decide +kernel) (by simp only [Reg.cfgPartmap]; omega) (by rw [ho]; rfl)]
  have hv : isViol (Reg.cfgPartmap p) = false := by
    have e : Reg.cfgPartmap p = 0x1000 + 0x10 * p := rfl
    rw [isViol, ho, e]
    simp [Reg.ctxViolcnt, Reg.queViolcnt, Reg.cfgViolcnt] <;> omega
  have hi : regIndex (rowOf (Reg.cfgPartmap 1)) (Reg.cfgPartmap p) = (p, 0) := by
    have hb : (rowOf (Reg.cfgPartmap 1)).base = 0x1000 := by decide +kernel
    have hd : (rowOf (Reg.cfgPartmap 1)).dims = [(64, 0x10)] := by decide +kernel
    have e : Reg.cfgPartmap p = 0x1000 + 0x10 * p := rfl
    unfold regIndex
    rw [hd]
    dsimp only
    rw [hb, e]
    refine Prod.ext ?_ ?_ <;> dsimp only <;> omega
  have hb : (rowOf (Reg.cfgPartmap 1)).base = 0x1000 := by decide +kernel
  simp only [State.writeReg, ho, hv, hi, hb, Nat.and_two_pow_sub_one_eq_mod, Nat.mod_mod, Option.getD_some]
  rfl

/-- A write of 4 bytes by the host to the register. -/
theorem State.Up.write_cfgPartctl (h : s.Up) {p : Nat} (h0 : p < 64) (v : Nat) :
    s.regWrite .host (Reg.cfgPartctl p) 4 v = (s.violateIf (v % 2 ^ 32 != v % 2 ^ 32 &&& (rowOf (Reg.cfgPartctl 1)).usedMask) Reg.cfgViolcnt .host).writePartctl p (v % 2 ^ 32) := by
  have ho : ownerViol (Reg.cfgPartctl p) = some Reg.cfgViolcnt := by
    have e : Reg.cfgPartctl p = 0x1008 + 0x10 * p := rfl
    unfold ownerViol
    rw [e]
    repeat (first | rw [if_neg (by omega)] | rw [if_pos (by omega)])
    all_goals (first | rfl | (simp only [Reg.ldgViolcnt, Option.some.injEq]; omega))
  rw [State.Up.write4 h (regAt_cfgPartctl h0) (by simp only [Reg.cfgPartctl]; omega) (by rw [ho]; rfl)]
  have hv : isViol (Reg.cfgPartctl p) = false := by
    have e : Reg.cfgPartctl p = 0x1008 + 0x10 * p := rfl
    rw [isViol, ho, e]
    simp [Reg.ctxViolcnt, Reg.queViolcnt, Reg.cfgViolcnt] <;> omega
  have hi : regIndex (rowOf (Reg.cfgPartctl 1)) (Reg.cfgPartctl p) = (p, 0) := by
    have hb : (rowOf (Reg.cfgPartctl 1)).base = 0x1008 := by decide +kernel
    have hd : (rowOf (Reg.cfgPartctl 1)).dims = [(64, 0x10)] := by decide +kernel
    have e : Reg.cfgPartctl p = 0x1008 + 0x10 * p := rfl
    unfold regIndex
    rw [hd]
    dsimp only
    rw [hb, e]
    refine Prod.ext ?_ ?_ <;> dsimp only <;> omega
  have hb : (rowOf (Reg.cfgPartctl 1)).base = 0x1008 := by decide +kernel
  simp only [State.writeReg, ho, hv, hi, hb, Nat.and_two_pow_sub_one_eq_mod, Nat.mod_mod, Option.getD_some]
  rfl

/-- A write of 4 bytes by the host to the register. -/
theorem State.Up.write_ctxCtl (h : s.Up) {n : Nat} (h0 : 1 ≤ n) (h1 : n < 4096) (v : Nat) :
    s.regWrite .host (Reg.ctxCtl n) 4 v = (s.violateIf (v % 2 ^ 32 != v % 2 ^ 32 &&& (rowOf (Reg.ctxCtl 1)).usedMask) Reg.ctxViolcnt .host).writeCtxCtl .host n (v % 2 ^ 32) := by
  have ho : ownerViol (Reg.ctxCtl n) = some Reg.ctxViolcnt := by
    have e : Reg.ctxCtl n = 0x100000 + 0x100 * n := rfl
    unfold ownerViol
    rw [e]
    repeat (first | rw [if_neg (by omega)] | rw [if_pos (by omega)])
    all_goals (first | rfl | (simp only [Reg.ldgViolcnt, Option.some.injEq]; omega))
  rw [State.Up.write4 h (regAt_ctxCtl h0 h1) (by simp only [Reg.ctxCtl]; omega) (by rw [ho]; rfl)]
  have hv : isViol (Reg.ctxCtl n) = false := by
    have e : Reg.ctxCtl n = 0x100000 + 0x100 * n := rfl
    rw [isViol, ho, e]
    simp [Reg.ctxViolcnt, Reg.queViolcnt, Reg.ctxViolcnt] <;> omega
  have hi : regIndex (rowOf (Reg.ctxCtl 1)) (Reg.ctxCtl n) = (n, 0) := by
    have hb : (rowOf (Reg.ctxCtl 1)).base = 0x100000 := by decide +kernel
    have hd : (rowOf (Reg.ctxCtl 1)).dims = [(4096, 0x100)] := by decide +kernel
    have e : Reg.ctxCtl n = 0x100000 + 0x100 * n := rfl
    unfold regIndex
    rw [hd]
    dsimp only
    rw [hb, e]
    refine Prod.ext ?_ ?_ <;> dsimp only <;> omega
  have hb : (rowOf (Reg.ctxCtl 1)).base = 0x100000 := by decide +kernel
  simp only [State.writeReg, ho, hv, hi, hb, Nat.and_two_pow_sub_one_eq_mod, Nat.mod_mod, Option.getD_some]
  have e : (Reg.ctxCtl n - 1048576) / 256 = n := by simp only [Reg.ctxCtl]; omega
  simp only [State.writeCore, e]
  rfl

/-- A write of 4 bytes by the host to the register. -/
theorem State.Up.write_queCtl (h : s.Up) {q : Nat} (h0 : q < 32768) (v : Nat) :
    s.regWrite .host (Reg.queCtl q) 4 v = (s.violateIf (v % 2 ^ 32 != v % 2 ^ 32 &&& (rowOf (Reg.queCtl 1)).usedMask) Reg.queViolcnt .host).writeQueCtl .host q (v % 2 ^ 32) := by
  have ho : ownerViol (Reg.queCtl q) = some Reg.queViolcnt := by
    have e : Reg.queCtl q = 0x200000 + 0x40 * q := rfl
    unfold ownerViol
    rw [e]
    repeat (first | rw [if_neg (by omega)] | rw [if_pos (by omega)])
    all_goals (first | rfl | (simp only [Reg.ldgViolcnt, Option.some.injEq]; omega))
  rw [State.Up.write4 h (regAt_queCtl h0) (by simp only [Reg.queCtl]; omega) (by rw [ho]; rfl)]
  have hv : isViol (Reg.queCtl q) = false := by
    have e : Reg.queCtl q = 0x200000 + 0x40 * q := rfl
    rw [isViol, ho, e]
    simp [Reg.ctxViolcnt, Reg.queViolcnt, Reg.queViolcnt] <;> omega
  have hi : regIndex (rowOf (Reg.queCtl 1)) (Reg.queCtl q) = (q, 0) := by
    have hb : (rowOf (Reg.queCtl 1)).base = 0x200000 := by decide +kernel
    have hd : (rowOf (Reg.queCtl 1)).dims = [(32768, 0x40)] := by decide +kernel
    have e : Reg.queCtl q = 0x200000 + 0x40 * q := rfl
    unfold regIndex
    rw [hd]
    dsimp only
    rw [hb, e]
    refine Prod.ext ?_ ?_ <;> dsimp only <;> omega
  have hb : (rowOf (Reg.queCtl 1)).base = 0x200000 := by decide +kernel
  simp only [State.writeReg, ho, hv, hi, hb, Nat.and_two_pow_sub_one_eq_mod, Nat.mod_mod, Option.getD_some]
  rfl

/-- A write of 8 bytes by the host to the register. -/
theorem State.Up.write_ldgPctl (h : s.Up) {t : Nat} {j : Nat} (h0 : t < 12) (h1 : j < 128) (v : Nat) :
    s.regWrite .host (Reg.ldgPctl t j) 8 v = (s.violateIf (v % 2 ^ 64 != v % 2 ^ 64 &&& (rowOf (Reg.ldgPctl 1 1)).usedMask) (Reg.ldgViolcnt t) .host).writePctl .host (128 * t + j) (2 ^ 64 - 1) (v % 2 ^ 64) := by
  have ho : ownerViol (Reg.ldgPctl t j) = some (Reg.ldgViolcnt t) := by
    have e : Reg.ldgPctl t j = 0x800000 + 0x10000 * t + 0x40 * j := rfl
    unfold ownerViol
    rw [e]
    repeat (first | rw [if_neg (by omega)] | rw [if_pos (by omega)])
    all_goals (first | rfl | (simp only [Reg.ldgViolcnt, Option.some.injEq]; omega))
  rw [State.Up.write8 h (regAt_ldgPctl h0 h1) (by decide +kernel) (by simp only [Reg.ldgPctl]; omega) (by rw [ho]; rfl)]
  have hv : isViol (Reg.ldgPctl t j) = false := by
    have e : Reg.ldgPctl t j = 0x800000 + 0x10000 * t + 0x40 * j := rfl
    rw [isViol, ho, e]
    simp [Reg.ctxViolcnt, Reg.queViolcnt, Reg.ldgViolcnt] <;> omega
  have hi : regIndex (rowOf (Reg.ldgPctl 1 1)) (Reg.ldgPctl t j) = (t, j) := by
    have hb : (rowOf (Reg.ldgPctl 1 1)).base = 0x800000 := by decide +kernel
    have hd : (rowOf (Reg.ldgPctl 1 1)).dims = [(12, 0x10000), (128, 0x40)] := by decide +kernel
    have e : Reg.ldgPctl t j = 0x800000 + 0x10000 * t + 0x40 * j := rfl
    unfold regIndex
    rw [hd]
    dsimp only
    rw [hb, e]
    refine Prod.ext ?_ ?_ <;> dsimp only <;> omega
  have hb : (rowOf (Reg.ldgPctl 1 1)).base = 0x800000 := by decide +kernel
  simp only [State.writeReg, ho, hv, hi, hb, Nat.and_two_pow_sub_one_eq_mod, Nat.mod_mod, Option.getD_some]
  rfl

/-- A write of 8 bytes by the host to the register. -/
theorem State.Up.write_ldgShbase (h : s.Up) {t : Nat} (h0 : t < 12) (v : Nat) :
    s.regWrite .host (Reg.ldgShbase t) 8 v = (s.violateIf (v % 2 ^ 64 != v % 2 ^ 64 &&& (rowOf (Reg.ldgShbase 1)).usedMask) (Reg.ldgViolcnt t) .host).writeShbase .host t (2 ^ 64 - 1) (v % 2 ^ 64) := by
  have ho : ownerViol (Reg.ldgShbase t) = some (Reg.ldgViolcnt t) := by
    have e : Reg.ldgShbase t = 0x804108 + 0x10000 * t := rfl
    unfold ownerViol
    rw [e]
    repeat (first | rw [if_neg (by omega)] | rw [if_pos (by omega)])
    all_goals (first | rfl | (simp only [Reg.ldgViolcnt, Option.some.injEq]; omega))
  rw [State.Up.write8 h (regAt_ldgShbase h0) (by decide +kernel) (by simp only [Reg.ldgShbase]; omega) (by rw [ho]; rfl)]
  have hv : isViol (Reg.ldgShbase t) = false := by
    have e : Reg.ldgShbase t = 0x804108 + 0x10000 * t := rfl
    rw [isViol, ho, e]
    simp [Reg.ctxViolcnt, Reg.queViolcnt, Reg.ldgViolcnt] <;> omega
  have hi : regIndex (rowOf (Reg.ldgShbase 1)) (Reg.ldgShbase t) = (t, 0) := by
    have hb : (rowOf (Reg.ldgShbase 1)).base = 0x804108 := by decide +kernel
    have hd : (rowOf (Reg.ldgShbase 1)).dims = [(12, 0x10000)] := by decide +kernel
    have e : Reg.ldgShbase t = 0x804108 + 0x10000 * t := rfl
    unfold regIndex
    rw [hd]
    dsimp only
    rw [hb, e]
    refine Prod.ext ?_ ?_ <;> dsimp only <;> omega
  have hb : (rowOf (Reg.ldgShbase 1)).base = 0x804108 := by decide +kernel
  simp only [State.writeReg, ho, hv, hi, hb, Nat.and_two_pow_sub_one_eq_mod, Nat.mod_mod, Option.getD_some]
  rfl

/-- A write of 8 bytes by the host to the register. -/
theorem State.Up.write_hbmBwshare (h : s.Up) {p : Nat} (h0 : p < 64) (v : Nat) :
    s.regWrite .host (Reg.hbmBwshare p) 8 v = (s.violateIf (v % 2 ^ 64 != v % 2 ^ 64 &&& (rowOf (Reg.hbmBwshare 1)).usedMask) Reg.hbmViolcnt .host).writeBwshare .host p (2 ^ 64 - 1) (v % 2 ^ 64) := by
  have ho : ownerViol (Reg.hbmBwshare p) = some Reg.hbmViolcnt := by
    have e : Reg.hbmBwshare p = 0x900000 + 8 * p := rfl
    unfold ownerViol
    rw [e]
    repeat (first | rw [if_neg (by omega)] | rw [if_pos (by omega)])
    all_goals (first | rfl | (simp only [Reg.ldgViolcnt, Option.some.injEq]; omega))
  rw [State.Up.write8 h (regAt_hbmBwshare h0) (by decide +kernel) (by simp only [Reg.hbmBwshare]; omega) (by rw [ho]; rfl)]
  have hv : isViol (Reg.hbmBwshare p) = false := by
    have e : Reg.hbmBwshare p = 0x900000 + 8 * p := rfl
    rw [isViol, ho, e]
    simp [Reg.ctxViolcnt, Reg.queViolcnt, Reg.hbmViolcnt] <;> omega
  have hi : regIndex (rowOf (Reg.hbmBwshare 1)) (Reg.hbmBwshare p) = (p, 0) := by
    have hb : (rowOf (Reg.hbmBwshare 1)).base = 0x900000 := by decide +kernel
    have hd : (rowOf (Reg.hbmBwshare 1)).dims = [(64, 8)] := by decide +kernel
    have e : Reg.hbmBwshare p = 0x900000 + 8 * p := rfl
    unfold regIndex
    rw [hd]
    dsimp only
    rw [hb, e]
    refine Prod.ext ?_ ?_ <;> dsimp only <;> omega
  have hb : (rowOf (Reg.hbmBwshare 1)).base = 0x900000 := by decide +kernel
  simp only [State.writeReg, ho, hv, hi, hb, Nat.and_two_pow_sub_one_eq_mod, Nat.mod_mod, Option.getD_some]
  rfl

/-- A write of 4 bytes by the host to the register. -/
theorem State.Up.write_hbmRecal (h : s.Up) {t : Nat} (h0 : t < 12) (v : Nat) :
    s.regWrite .host (Reg.hbmRecal t) 4 v = (s.violateIf (v % 2 ^ 32 != v % 2 ^ 32 &&& (rowOf (Reg.hbmRecal 1)).usedMask) Reg.hbmViolcnt .host).writeRecal .host t (v % 2 ^ 32) := by
  have ho : ownerViol (Reg.hbmRecal t) = some Reg.hbmViolcnt := by
    have e : Reg.hbmRecal t = 0x901000 + 0x40 * t := rfl
    unfold ownerViol
    rw [e]
    repeat (first | rw [if_neg (by omega)] | rw [if_pos (by omega)])
    all_goals (first | rfl | (simp only [Reg.ldgViolcnt, Option.some.injEq]; omega))
  rw [State.Up.write4 h (regAt_hbmRecal h0) (by simp only [Reg.hbmRecal]; omega) (by rw [ho]; rfl)]
  have hv : isViol (Reg.hbmRecal t) = false := by
    have e : Reg.hbmRecal t = 0x901000 + 0x40 * t := rfl
    rw [isViol, ho, e]
    simp [Reg.ctxViolcnt, Reg.queViolcnt, Reg.hbmViolcnt] <;> omega
  have hi : regIndex (rowOf (Reg.hbmRecal 1)) (Reg.hbmRecal t) = (t, 0) := by
    have hb : (rowOf (Reg.hbmRecal 1)).base = 0x901000 := by decide +kernel
    have hd : (rowOf (Reg.hbmRecal 1)).dims = [(12, 0x40)] := by decide +kernel
    have e : Reg.hbmRecal t = 0x901000 + 0x40 * t := rfl
    unfold regIndex
    rw [hd]
    dsimp only
    rw [hb, e]
    refine Prod.ext ?_ ?_ <;> dsimp only <;> omega
  have hb : (rowOf (Reg.hbmRecal 1)).base = 0x901000 := by decide +kernel
  simp only [State.writeReg, ho, hv, hi, hb, Nat.and_two_pow_sub_one_eq_mod, Nat.mod_mod, Option.getD_some]
  rfl

/-- A write of 4 bytes by the host to the register. -/
theorem State.Up.write_mdlPctl (h : s.Up) {m : Nat} (h0 : m < 32) (v : Nat) :
    s.regWrite .host (Reg.mdlPctl m) 4 v = (s.violateIf (v % 2 ^ 32 != v % 2 ^ 32 &&& (rowOf (Reg.mdlPctl 1)).usedMask) Reg.mdlViolcnt .host).writePortCtl .host m (2 ^ 32 - 1) (v % 2 ^ 32) (s.violateIf (v % 2 ^ 32 != v % 2 ^ 32 &&& (rowOf (Reg.mdlPctl 1)).usedMask) Reg.mdlViolcnt .host).locked := by
  have ho : ownerViol (Reg.mdlPctl m) = some Reg.mdlViolcnt := by
    have e : Reg.mdlPctl m = 0xa00000 + 0x100 * m := rfl
    unfold ownerViol
    rw [e]
    repeat (first | rw [if_neg (by omega)] | rw [if_pos (by omega)])
    all_goals (first | rfl | (simp only [Reg.ldgViolcnt, Option.some.injEq]; omega))
  rw [State.Up.write4 h (regAt_mdlPctl h0) (by simp only [Reg.mdlPctl]; omega) (by rw [ho]; rfl)]
  have hv : isViol (Reg.mdlPctl m) = false := by
    have e : Reg.mdlPctl m = 0xa00000 + 0x100 * m := rfl
    rw [isViol, ho, e]
    simp [Reg.ctxViolcnt, Reg.queViolcnt, Reg.mdlViolcnt] <;> omega
  have hi : regIndex (rowOf (Reg.mdlPctl 1)) (Reg.mdlPctl m) = (m, 0) := by
    have hb : (rowOf (Reg.mdlPctl 1)).base = 0xa00000 := by decide +kernel
    have hd : (rowOf (Reg.mdlPctl 1)).dims = [(32, 0x100)] := by decide +kernel
    have e : Reg.mdlPctl m = 0xa00000 + 0x100 * m := rfl
    unfold regIndex
    rw [hd]
    dsimp only
    rw [hb, e]
    refine Prod.ext ?_ ?_ <;> dsimp only <;> omega
  have hb : (rowOf (Reg.mdlPctl 1)).base = 0xa00000 := by decide +kernel
  simp only [State.writeReg, ho, hv, hi, hb, Nat.and_two_pow_sub_one_eq_mod, Nat.mod_mod, Option.getD_some]
  rfl

/-- A write of 4 bytes by the host to the register. -/
theorem State.Up.write_pwrOpset (h : s.Up) (v : Nat) :
    s.regWrite .host (Reg.pwrOpset) 4 v = (s.violateIf (v % 2 ^ 32 != v % 2 ^ 32 &&& (rowOf (Reg.pwrOpset)).usedMask) Reg.pwrViolcnt .host).writeOpset .host (2 ^ 32 - 1) (v % 2 ^ 32) := by
  have ho : ownerViol (Reg.pwrOpset) = some Reg.pwrViolcnt := by
    have e : Reg.pwrOpset = 0x3000 := rfl
    unfold ownerViol
    rw [e]
    repeat (first | rw [if_neg (by omega)] | rw [if_pos (by omega)])
    all_goals (first | rfl | (simp only [Reg.ldgViolcnt, Option.some.injEq]; omega))
  rw [State.Up.write4 h regAt_pwrOpset (by decide) (by rw [ho]; rfl)]
  have hv : isViol (Reg.pwrOpset) = false := by
    have e : Reg.pwrOpset = 0x3000 := rfl
    rw [isViol, ho, e]
    simp [Reg.ctxViolcnt, Reg.queViolcnt, Reg.pwrViolcnt] <;> omega
  have hi : regIndex (rowOf (Reg.pwrOpset)) (Reg.pwrOpset) = (0, 0) := by
    have hb : (rowOf (Reg.pwrOpset)).base = 0x3000 := by decide +kernel
    have hd : (rowOf (Reg.pwrOpset)).dims = [] := by decide +kernel
    have e : Reg.pwrOpset = 0x3000 := rfl
    unfold regIndex
    rw [hd]
  have hb : (rowOf (Reg.pwrOpset)).base = 0x3000 := by decide +kernel
  simp only [State.writeReg, ho, hv, hi, hb, Nat.and_two_pow_sub_one_eq_mod, Nat.mod_mod, Option.getD_some]
  rfl

/-- A write of 4 bytes by the host to the register. -/
theorem State.Up.write_pwrCap (h : s.Up) (v : Nat) :
    s.regWrite .host (Reg.pwrCap) 4 v = (s.violateIf (v % 2 ^ 32 != v % 2 ^ 32 &&& (rowOf (Reg.pwrCap)).usedMask) Reg.pwrViolcnt .host).writeCap .host (2 ^ 32 - 1) (v % 2 ^ 32) := by
  have ho : ownerViol (Reg.pwrCap) = some Reg.pwrViolcnt := by
    have e : Reg.pwrCap = 0x3004 := rfl
    unfold ownerViol
    rw [e]
    repeat (first | rw [if_neg (by omega)] | rw [if_pos (by omega)])
    all_goals (first | rfl | (simp only [Reg.ldgViolcnt, Option.some.injEq]; omega))
  rw [State.Up.write4 h regAt_pwrCap (by decide) (by rw [ho]; rfl)]
  have hv : isViol (Reg.pwrCap) = false := by
    have e : Reg.pwrCap = 0x3004 := rfl
    rw [isViol, ho, e]
    simp [Reg.ctxViolcnt, Reg.queViolcnt, Reg.pwrViolcnt] <;> omega
  have hi : regIndex (rowOf (Reg.pwrCap)) (Reg.pwrCap) = (0, 0) := by
    have hb : (rowOf (Reg.pwrCap)).base = 0x3004 := by decide +kernel
    have hd : (rowOf (Reg.pwrCap)).dims = [] := by decide +kernel
    have e : Reg.pwrCap = 0x3004 := rfl
    unfold regIndex
    rw [hd]
  have hb : (rowOf (Reg.pwrCap)).base = 0x3004 := by decide +kernel
  simp only [State.writeReg, ho, hv, hi, hb, Nat.and_two_pow_sub_one_eq_mod, Nat.mod_mod, Option.getD_some]
  rfl

/-- A write of 4 bytes by the host to the register. -/
theorem State.Up.write_hifPushctl (h : s.Up) (v : Nat) :
    s.regWrite .host (Reg.hifPushctl) 4 v = (s.violateIf (v % 2 ^ 32 != v % 2 ^ 32 &&& (rowOf (Reg.hifPushctl)).usedMask) Reg.hifViolcnt .host).writePushctl .host (2 ^ 32 - 1) (v % 2 ^ 32) := by
  have ho : ownerViol (Reg.hifPushctl) = some Reg.hifViolcnt := by
    have e : Reg.hifPushctl = 0xe10028 := rfl
    unfold ownerViol
    rw [e]
    repeat (first | rw [if_neg (by omega)] | rw [if_pos (by omega)])
    all_goals (first | rfl | (simp only [Reg.ldgViolcnt, Option.some.injEq]; omega))
  rw [State.Up.write4 h regAt_hifPushctl (by decide) (by rw [ho]; rfl)]
  have hv : isViol (Reg.hifPushctl) = false := by
    have e : Reg.hifPushctl = 0xe10028 := rfl
    rw [isViol, ho, e]
    simp [Reg.ctxViolcnt, Reg.queViolcnt, Reg.hifViolcnt] <;> omega
  have hi : regIndex (rowOf (Reg.hifPushctl)) (Reg.hifPushctl) = (0, 0) := by
    have hb : (rowOf (Reg.hifPushctl)).base = 0xe10028 := by decide +kernel
    have hd : (rowOf (Reg.hifPushctl)).dims = [] := by decide +kernel
    have e : Reg.hifPushctl = 0xe10028 := rfl
    unfold regIndex
    rw [hd]
  have hb : (rowOf (Reg.hifPushctl)).base = 0xe10028 := by decide +kernel
  simp only [State.writeReg, ho, hv, hi, hb, Nat.and_two_pow_sub_one_eq_mod, Nat.mod_mod, Option.getD_some]
  rfl

/-- A write of 8 bytes by the host to the register. -/
theorem State.Up.write_hifHdmwin (h : s.Up) (v : Nat) :
    s.regWrite .host (Reg.hifHdmwin) 8 v = (s.violateIf (v % 2 ^ 64 != v % 2 ^ 64 &&& (rowOf (Reg.hifHdmwin)).usedMask) Reg.hifViolcnt .host).unlessLocked ((s.violateIf (v % 2 ^ 64 != v % 2 ^ 64 &&& (rowOf (Reg.hifHdmwin)).usedMask) Reg.hifViolcnt .host).writeHdmwin .host (2 ^ 64 - 1) (v % 2 ^ 64)) := by
  have ho : ownerViol (Reg.hifHdmwin) = some Reg.hifViolcnt := by
    have e : Reg.hifHdmwin = 0xe10030 := rfl
    unfold ownerViol
    rw [e]
    repeat (first | rw [if_neg (by omega)] | rw [if_pos (by omega)])
    all_goals (first | rfl | (simp only [Reg.ldgViolcnt, Option.some.injEq]; omega))
  rw [State.Up.write8 h regAt_hifHdmwin (by decide +kernel) (by decide) (by rw [ho]; rfl)]
  have hv : isViol (Reg.hifHdmwin) = false := by
    have e : Reg.hifHdmwin = 0xe10030 := rfl
    rw [isViol, ho, e]
    simp [Reg.ctxViolcnt, Reg.queViolcnt, Reg.hifViolcnt] <;> omega
  have hi : regIndex (rowOf (Reg.hifHdmwin)) (Reg.hifHdmwin) = (0, 0) := by
    have hb : (rowOf (Reg.hifHdmwin)).base = 0xe10030 := by decide +kernel
    have hd : (rowOf (Reg.hifHdmwin)).dims = [] := by decide +kernel
    have e : Reg.hifHdmwin = 0xe10030 := rfl
    unfold regIndex
    rw [hd]
  have hb : (rowOf (Reg.hifHdmwin)).base = 0xe10030 := by decide +kernel
  simp only [State.writeReg, ho, hv, hi, hb, Nat.and_two_pow_sub_one_eq_mod, Nat.mod_mod, Option.getD_some]
  rfl

/-- A write of 4 bytes by the host to the register. -/
theorem State.Up.write_hifReset (h : s.Up) (v : Nat) :
    s.regWrite .host (Reg.hifReset) 4 v = (s.violateIf (v % 2 ^ 32 != v % 2 ^ 32 &&& (rowOf (Reg.hifReset)).usedMask) Reg.hifViolcnt .host).writeReset .host (v % 2 ^ 32) := by
  have ho : ownerViol (Reg.hifReset) = some Reg.hifViolcnt := by
    have e : Reg.hifReset = 0xe100d0 := rfl
    unfold ownerViol
    rw [e]
    repeat (first | rw [if_neg (by omega)] | rw [if_pos (by omega)])
    all_goals (first | rfl | (simp only [Reg.ldgViolcnt, Option.some.injEq]; omega))
  rw [State.Up.write4 h regAt_hifReset (by decide) (by rw [ho]; rfl)]
  have hv : isViol (Reg.hifReset) = false := by
    have e : Reg.hifReset = 0xe100d0 := rfl
    rw [isViol, ho, e]
    simp [Reg.ctxViolcnt, Reg.queViolcnt, Reg.hifViolcnt] <;> omega
  have hi : regIndex (rowOf (Reg.hifReset)) (Reg.hifReset) = (0, 0) := by
    have hb : (rowOf (Reg.hifReset)).base = 0xe100d0 := by decide +kernel
    have hd : (rowOf (Reg.hifReset)).dims = [] := by decide +kernel
    have e : Reg.hifReset = 0xe100d0 := rfl
    unfold regIndex
    rw [hd]
  have hb : (rowOf (Reg.hifReset)).base = 0xe100d0 := by decide +kernel
  simp only [State.writeReg, ho, hv, hi, hb, Nat.and_two_pow_sub_one_eq_mod, Nat.mod_mod, Option.getD_some]
  rfl

/-- A write of 4 bytes by the host to the register. -/
theorem State.Up.write_senSlot (h : s.Up) {i : Nat} (h0 : i < 8) (v : Nat) :
    s.regWrite .host (Reg.senSlot i) 4 v = (s.violateIf (v % 2 ^ 32 != v % 2 ^ 32 &&& (rowOf (Reg.senSlot 1)).usedMask) Reg.senViolcnt .host).writeSenSlot .host i (2 ^ 32 - 1) (v % 2 ^ 32) := by
  have ho : ownerViol (Reg.senSlot i) = some Reg.senViolcnt := by
    have e : Reg.senSlot i = 0xd00010 + 8 * i := rfl
    unfold ownerViol
    rw [e]
    repeat (first | rw [if_neg (by omega)] | rw [if_pos (by omega)])
    all_goals (first | rfl | (simp only [Reg.ldgViolcnt, Option.some.injEq]; omega))
  rw [State.Up.write4 h (regAt_senSlot h0) (by simp only [Reg.senSlot]; omega) (by rw [ho]; rfl)]
  have hv : isViol (Reg.senSlot i) = false := by
    have e : Reg.senSlot i = 0xd00010 + 8 * i := rfl
    rw [isViol, ho, e]
    simp [Reg.ctxViolcnt, Reg.queViolcnt, Reg.senViolcnt] <;> omega
  have hi : regIndex (rowOf (Reg.senSlot 1)) (Reg.senSlot i) = (i, 0) := by
    have hb : (rowOf (Reg.senSlot 1)).base = 0xd00010 := by decide +kernel
    have hd : (rowOf (Reg.senSlot 1)).dims = [(8, 8)] := by decide +kernel
    have e : Reg.senSlot i = 0xd00010 + 8 * i := rfl
    unfold regIndex
    rw [hd]
    dsimp only
    rw [hb, e]
    refine Prod.ext ?_ ?_ <;> dsimp only <;> omega
  have hb : (rowOf (Reg.senSlot 1)).base = 0xd00010 := by decide +kernel
  simp only [State.writeReg, ho, hv, hi, hb, Nat.and_two_pow_sub_one_eq_mod, Nat.mod_mod, Option.getD_some]
  rfl

/-- A write of 4 bytes by the host to the register. -/
theorem State.Up.write_senCtl (h : s.Up) (v : Nat) :
    s.regWrite .host (Reg.senCtl) 4 v = (s.violateIf (v % 2 ^ 32 != v % 2 ^ 32 &&& (rowOf (Reg.senCtl)).usedMask) Reg.senViolcnt .host).writeSenCtl (2 ^ 32 - 1) (v % 2 ^ 32) := by
  have ho : ownerViol (Reg.senCtl) = some Reg.senViolcnt := by
    have e : Reg.senCtl = 0xd00000 := rfl
    unfold ownerViol
    rw [e]
    repeat (first | rw [if_neg (by omega)] | rw [if_pos (by omega)])
    all_goals (first | rfl | (simp only [Reg.ldgViolcnt, Option.some.injEq]; omega))
  rw [State.Up.write4 h regAt_senCtl (by decide) (by rw [ho]; rfl)]
  have hv : isViol (Reg.senCtl) = false := by
    have e : Reg.senCtl = 0xd00000 := rfl
    rw [isViol, ho, e]
    simp [Reg.ctxViolcnt, Reg.queViolcnt, Reg.senViolcnt] <;> omega
  have hi : regIndex (rowOf (Reg.senCtl)) (Reg.senCtl) = (0, 0) := by
    have hb : (rowOf (Reg.senCtl)).base = 0xd00000 := by decide +kernel
    have hd : (rowOf (Reg.senCtl)).dims = [] := by decide +kernel
    have e : Reg.senCtl = 0xd00000 := rfl
    unfold regIndex
    rw [hd]
  have hb : (rowOf (Reg.senCtl)).base = 0xd00000 := by decide +kernel
  simp only [State.writeReg, ho, hv, hi, hb, Nat.and_two_pow_sub_one_eq_mod, Nat.mod_mod, Option.getD_some]
  rfl

/-- A read of 8 bytes by the host of the register. -/
theorem State.Up.read_ldgPoolaud0 (h : s.Up) {t : Nat} {j : Nat} (h0 : t < 12) (h1 : j < 128) :
    s.regRead .host (Reg.ldgPoolaud0 t j) 8 = { (s.latchPool (128 * t + j)) with resp := [(s.latchPool (128 * t + j)).reg (Reg.ldgPoolaud0 t j) % 2 ^ 64] } := by
  have ho : (ownerViol (Reg.ldgPoolaud0 t j)).isSome = true := by
    have e : Reg.ldgPoolaud0 t j = 0x802000 + 0x10000 * t + 0x20 * j := rfl
    unfold ownerViol
    rw [e]
    repeat (first | rw [if_neg (by omega)] | rw [if_pos (by omega)])
    all_goals rfl
  rw [State.Up.read8 h (regAt_ldgPoolaud0 h0 h1) (by decide +kernel) (by simp only [Reg.ldgPoolaud0]; omega) ho]
  have hi : regIndex (rowOf (Reg.ldgPoolaud0 1 1)) (Reg.ldgPoolaud0 t j) = (t, j) := by
    have hb : (rowOf (Reg.ldgPoolaud0 1 1)).base = 0x802000 := by decide +kernel
    have hd : (rowOf (Reg.ldgPoolaud0 1 1)).dims = [(12, 0x10000), (128, 0x20)] := by decide +kernel
    have e : Reg.ldgPoolaud0 t j = 0x802000 + 0x10000 * t + 0x20 * j := rfl
    unfold regIndex
    rw [hd]
    dsimp only
    rw [hb, e]
    refine Prod.ext ?_ ?_ <;> dsimp only <;> omega
  have hb : (rowOf (Reg.ldgPoolaud0 1 1)).base = 0x802000 := by decide +kernel
  simp only [State.readReg, hi, hb]
  rfl

/-- A read of 8 bytes by the host of the register. -/
theorem State.Up.read_ldgShraud (h : s.Up) {t : Nat} (h0 : t < 12) :
    s.regRead .host (Reg.ldgShraud t) 8 = { (s.latchShared t) with resp := [(s.latchShared t).reg (Reg.ldgShraud t) % 2 ^ 64] } := by
  have ho : (ownerViol (Reg.ldgShraud t)).isSome = true := by
    have e : Reg.ldgShraud t = 0x804100 + 0x10000 * t := rfl
    unfold ownerViol
    rw [e]
    repeat (first | rw [if_neg (by omega)] | rw [if_pos (by omega)])
    all_goals rfl
  rw [State.Up.read8 h (regAt_ldgShraud h0) (by decide +kernel) (by simp only [Reg.ldgShraud]; omega) ho]
  have hi : regIndex (rowOf (Reg.ldgShraud 1)) (Reg.ldgShraud t) = (t, 0) := by
    have hb : (rowOf (Reg.ldgShraud 1)).base = 0x804100 := by decide +kernel
    have hd : (rowOf (Reg.ldgShraud 1)).dims = [(12, 0x10000)] := by decide +kernel
    have e : Reg.ldgShraud t = 0x804100 + 0x10000 * t := rfl
    unfold regIndex
    rw [hd]
    dsimp only
    rw [hb, e]
    refine Prod.ext ?_ ?_ <;> dsimp only <;> omega
  have hb : (rowOf (Reg.ldgShraud 1)).base = 0x804100 := by decide +kernel
  simp only [State.readReg, hi, hb]
  rfl

/-- A read of 8 bytes by the host of the register. -/
theorem State.Up.read_pwrTokaud (h : s.Up) :
    s.regRead .host (Reg.pwrTokaud) 8 = { (s.latchTokens) with resp := [(s.latchTokens).reg (Reg.pwrTokaud) % 2 ^ 64] } := by
  have ho : (ownerViol (Reg.pwrTokaud)).isSome = true := by
    have e : Reg.pwrTokaud = 0x3010 := rfl
    unfold ownerViol
    rw [e]
    repeat (first | rw [if_neg (by omega)] | rw [if_pos (by omega)])
    all_goals rfl
  rw [State.Up.read8 h regAt_pwrTokaud (by decide +kernel) (by decide) ho]
  have hi : regIndex (rowOf (Reg.pwrTokaud)) (Reg.pwrTokaud) = (0, 0) := by
    have hb : (rowOf (Reg.pwrTokaud)).base = 0x3010 := by decide +kernel
    have hd : (rowOf (Reg.pwrTokaud)).dims = [] := by decide +kernel
    have e : Reg.pwrTokaud = 0x3010 := rfl
    unfold regIndex
    rw [hd]
  have hb : (rowOf (Reg.pwrTokaud)).base = 0x3010 := by decide +kernel
  simp only [State.readReg, hi, hb]
  rfl

/-- A read of 8 bytes by the host of the register. -/
theorem State.Up.read_mdlCredaud (h : s.Up) {m : Nat} {l : Nat} (h0 : m < 32) (h1 : l < 4) :
    s.regRead .host (Reg.mdlCredaud m l) 8 = { (s.setReg (Reg.mdlCredaud m l) (s.creditAudit m l)) with resp := [(s.setReg (Reg.mdlCredaud m l) (s.creditAudit m l)).reg (Reg.mdlCredaud m l) % 2 ^ 64] } := by
  have ho : (ownerViol (Reg.mdlCredaud m l)).isSome = true := by
    have e : Reg.mdlCredaud m l = 0xa00020 + 0x100 * m + 8 * l := rfl
    unfold ownerViol
    rw [e]
    repeat (first | rw [if_neg (by omega)] | rw [if_pos (by omega)])
    all_goals rfl
  rw [State.Up.read8 h (regAt_mdlCredaud h0 h1) (by decide +kernel) (by simp only [Reg.mdlCredaud]; omega) ho]
  have hi : regIndex (rowOf (Reg.mdlCredaud 1 1)) (Reg.mdlCredaud m l) = (m, l) := by
    have hb : (rowOf (Reg.mdlCredaud 1 1)).base = 0xa00020 := by decide +kernel
    have hd : (rowOf (Reg.mdlCredaud 1 1)).dims = [(32, 0x100), (4, 8)] := by decide +kernel
    have e : Reg.mdlCredaud m l = 0xa00020 + 0x100 * m + 8 * l := rfl
    unfold regIndex
    rw [hd]
    dsimp only
    rw [hb, e]
    refine Prod.ext ?_ ?_ <;> dsimp only <;> omega
  have hb : (rowOf (Reg.mdlCredaud 1 1)).base = 0xa00020 := by decide +kernel
  simp only [State.readReg, hi, hb]
  rfl

/-- A read of 8 bytes by the host of the register. -/
theorem State.Up.read_stpBaraud (h : s.Up) :
    s.regRead .host (Reg.stpBaraud) 8 = { (s.latchBaraud) with resp := [(s.latchBaraud).reg (Reg.stpBaraud) % 2 ^ 64] } := by
  have ho : (ownerViol (Reg.stpBaraud)).isSome = true := by
    have e : Reg.stpBaraud = 0xc00020 := rfl
    unfold ownerViol
    rw [e]
    repeat (first | rw [if_neg (by omega)] | rw [if_pos (by omega)])
    all_goals rfl
  rw [State.Up.read8 h regAt_stpBaraud (by decide +kernel) (by decide) ho]
  have hi : regIndex (rowOf (Reg.stpBaraud)) (Reg.stpBaraud) = (0, 0) := by
    have hb : (rowOf (Reg.stpBaraud)).base = 0xc00020 := by decide +kernel
    have hd : (rowOf (Reg.stpBaraud)).dims = [] := by decide +kernel
    have e : Reg.stpBaraud = 0xc00020 := rfl
    unfold regIndex
    rw [hd]
  have hb : (rowOf (Reg.stpBaraud)).base = 0xc00020 := by decide +kernel
  simp only [State.readReg, hi, hb]
  rfl

/-- A read of 8 bytes by the host of the register. -/
theorem State.Up.read_colContrib0 (h : s.Up) :
    s.regRead .host (Reg.colContrib0) 8 = { (s.latchContrib) with resp := [(s.latchContrib).reg (Reg.colContrib0) % 2 ^ 64] } := by
  have ho : (ownerViol (Reg.colContrib0)).isSome = true := by
    have e : Reg.colContrib0 = 0xa08000 := rfl
    unfold ownerViol
    rw [e]
    repeat (first | rw [if_neg (by omega)] | rw [if_pos (by omega)])
    all_goals rfl
  rw [State.Up.read8 h regAt_colContrib0 (by decide +kernel) (by decide) ho]
  have hi : regIndex (rowOf (Reg.colContrib0)) (Reg.colContrib0) = (0, 0) := by
    have hb : (rowOf (Reg.colContrib0)).base = 0xa08000 := by decide +kernel
    have hd : (rowOf (Reg.colContrib0)).dims = [] := by decide +kernel
    have e : Reg.colContrib0 = 0xa08000 := rfl
    unfold regIndex
    rw [hd]
  have hb : (rowOf (Reg.colContrib0)).base = 0xa08000 := by decide +kernel
  simp only [State.readReg, hi, hb]
  rfl

/-- A read of 8 bytes by the host of the register. -/
theorem State.Up.read_chkEvent0 (h : s.Up) :
    s.regRead .host (Reg.chkEvent0) 8 = { (s.popChk) with resp := [(s.popChk).reg (Reg.chkEvent0) % 2 ^ 64] } := by
  have ho : (ownerViol (Reg.chkEvent0)).isSome = true := by
    have e : Reg.chkEvent0 = 0xc01110 := rfl
    unfold ownerViol
    rw [e]
    repeat (first | rw [if_neg (by omega)] | rw [if_pos (by omega)])
    all_goals rfl
  rw [State.Up.read8 h regAt_chkEvent0 (by decide +kernel) (by decide) ho]
  have hi : regIndex (rowOf (Reg.chkEvent0)) (Reg.chkEvent0) = (0, 0) := by
    have hb : (rowOf (Reg.chkEvent0)).base = 0xc01110 := by decide +kernel
    have hd : (rowOf (Reg.chkEvent0)).dims = [] := by decide +kernel
    have e : Reg.chkEvent0 = 0xc01110 := rfl
    unfold regIndex
    rw [hd]
  have hb : (rowOf (Reg.chkEvent0)).base = 0xc01110 := by decide +kernel
  simp only [State.readReg, hi, hb]
  rfl

/-- A read of 8 bytes by the host of the register. -/
theorem State.Up.read_senEvent (h : s.Up) :
    s.regRead .host (Reg.senEvent) 8 = { (s.popSen) with resp := [(s.popSen).reg (Reg.senEvent) % 2 ^ 64] } := by
  have ho : (ownerViol (Reg.senEvent)).isSome = true := by
    have e : Reg.senEvent = 0xd00200 := rfl
    unfold ownerViol
    rw [e]
    repeat (first | rw [if_neg (by omega)] | rw [if_pos (by omega)])
    all_goals rfl
  rw [State.Up.read8 h regAt_senEvent (by decide +kernel) (by decide) ho]
  have hi : regIndex (rowOf (Reg.senEvent)) (Reg.senEvent) = (0, 0) := by
    have hb : (rowOf (Reg.senEvent)).base = 0xd00200 := by decide +kernel
    have hd : (rowOf (Reg.senEvent)).dims = [] := by decide +kernel
    have e : Reg.senEvent = 0xd00200 := rfl
    unfold regIndex
    rw [hd]
  have hb : (rowOf (Reg.senEvent)).base = 0xd00200 := by decide +kernel
  simp only [State.readReg, hi, hb]
  rfl

end Machine

end Sys2Proof
end

