-- ==== Sys2Proof/Laws/Keeps.lean ====
section
/-! SUPPORT. What every operation of the device keeps: the commands that wait, the canonical form of memory, the order in
which free values and the numbers of instructions are drawn, and the identities of credits, barrier tokens and page records. -/

set_option Elab.async false
set_option linter.all false

namespace Sys2Proof

namespace Machine

/-- From `s` to `t` the waiting commands stay, memory stays canonical, neither counter goes back, and the identities of R340,
R358 and R259 stay true. -/
structure Keeps (s t : State) : Prop where
  pending : t.pending = s.pending
  mem : s.mem.wf = true → t.mem.wf = true
  free : s.free ≤ t.free
  flight : s.nextFlight ≤ t.nextFlight
  credits : creditsBalance s.ports → creditsBalance t.ports
  tokens : s.stp.Balanced → t.stp.Balanced
  pages : pagesSound s.pools → pagesSound t.pools

variable {s₀ s t : State}

theorem Keeps.refl (s : State) : Keeps s s := ⟨rfl, id, Nat.le_refl _, Nat.le_refl _, id, id, id⟩

theorem Keeps.trans {r : State} (h : Keeps s t) (k : Keeps t r) : Keeps s r :=
  ⟨k.pending.trans h.pending, fun w => k.mem (h.mem w), Nat.le_trans h.free k.free, Nat.le_trans h.flight k.flight,
    fun w => k.credits (h.credits w), fun w => k.tokens (h.tokens w), fun w => k.pages (h.pages w)⟩

/-- What it means of a state given by its fields. -/
theorem Keeps.mk_iff {regs : Tab RegVal} {memKey : Tab Nat} {veils : List Veil} {caches : Tab (Tab Nat)}
    {hbmLost : Nat} {ddrLost : Nat} {ctxs : Tab Ctx} {queues : Tab Queue} {cls : Tab Cluster} {flights : Tab Flight}
    {bootEpoch : Nat} {shared : Tab (Tab SharedEntry)} {pools : Tab Pool} {pagesLeft : Tab Nat} {recal : Tab Recal}
    {ports : Tab Port} {colls : Tab Coll} {sendNo : Tab Nat} {recvNo : Tab Nat} {stp : Stp} {snp : Snp} {sec : Sec}
    {nextOrder : Nat} {windows : List Window} {chk : Chk} {pwr : Pwr} {sen : Sen} {pins : Pins} {msix : Tab Msix}
    {msixPending : List Nat} {resp : List Nat}
    {mem : Memory 8} {free nextFlight : Nat} {pending : List Instr} :
    Keeps s₀ ⟨regs, mem, memKey, veils, caches, hbmLost, ddrLost, ctxs, queues, cls, flights, nextFlight, bootEpoch,
      shared, pools, pagesLeft, recal, ports, colls, sendNo, recvNo, stp, snp, sec, nextOrder, windows, chk, pwr,
      sen, pins, msix, msixPending, free, resp, pending⟩ ↔
      (pending = s₀.pending ∧ (s₀.mem.wf = true → mem.wf = true) ∧ s₀.free ≤ free ∧ s₀.nextFlight ≤ nextFlight ∧
        (creditsBalance s₀.ports → creditsBalance ports) ∧ (s₀.stp.Balanced → stp.Balanced) ∧
        (pagesSound s₀.pools → pagesSound pools)) :=
  ⟨fun h => ⟨h.pending, h.mem, h.free, h.flight, h.credits, h.tokens, h.pages⟩,
    fun h => ⟨h.1, h.2.1, h.2.2.1, h.2.2.2.1, h.2.2.2.2.1, h.2.2.2.2.2.1, h.2.2.2.2.2.2⟩⟩

/-- The same of a state, field by field. -/
theorem Keeps.fields (h : Keeps s₀ s) :
    s.pending = s₀.pending ∧ (s₀.mem.wf = true → s.mem.wf = true) ∧ s₀.free ≤ s.free ∧ s₀.nextFlight ≤ s.nextFlight ∧
      (creditsBalance s₀.ports → creditsBalance s.ports) ∧ (s₀.stp.Balanced → s.stp.Balanced) ∧
      (pagesSound s₀.pools → pagesSound s.pools) :=
  ⟨h.pending, h.mem, h.free, h.flight, h.credits, h.tokens, h.pages⟩

/-- Another port table, step control or pool table that keeps its identity. -/
theorem Keeps.withPorts (h : Keeps s₀ s) {ports : Tab Port} (hp : creditsBalance s.ports → creditsBalance ports) :
    Keeps s₀ { s with ports := ports } :=
  ⟨h.pending, h.mem, h.free, h.flight, fun w => hp (h.credits w), h.tokens, h.pages⟩

theorem Keeps.withStp (h : Keeps s₀ s) {x : Stp} (hp : s.stp.Balanced → x.Balanced) : Keeps s₀ { s with stp := x } :=
  ⟨h.pending, h.mem, h.free, h.flight, h.credits, fun w => hp (h.tokens w), h.pages⟩

theorem Keeps.withPools (h : Keeps s₀ s) {pools : Tab Pool} (hp : pagesSound s.pools → pagesSound pools) :
    Keeps s₀ { s with pools := pools } :=
  ⟨h.pending, h.mem, h.free, h.flight, h.credits, h.tokens, fun w => hp (h.pages w)⟩

/-- A choice. -/
theorem Keeps.ite {c : Prop} [Decidable c] {a b : State} (ha : Keeps s₀ a) (hb : Keeps s₀ b) :
    Keeps s₀ (if c then a else b) := by
  split <;> assumption

/-- A fold of an operation that keeps. -/
theorem Keeps.foldl {α : Type} {f : State → α → State} {l : List α} (hf : ∀ t x, Keeps s₀ t → Keeps s₀ (f t x))
    (h : Keeps s₀ s) : Keeps s₀ (l.foldl f s) := by
  induction l generalizing s with
  | nil => exact h
  | cons x rest ih => exact ih (hf s x h)

/-- Folds whose accumulator holds the state beside something else. -/
theorem Keeps.foldl_fst {α β : Type} {f : State × β → α → State × β} {l : List α} {b : State × β}
    (hf : ∀ b x, Keeps s₀ b.1 → Keeps s₀ (f b x).1) (h : Keeps s₀ b.1) : Keeps s₀ (l.foldl f b).1 := by
  induction l generalizing b with
  | nil => exact h
  | cons x rest ih => exact ih (hf b x h)

theorem Keeps.foldl_snd {α β : Type} {f : β × State → α → β × State} {l : List α} {b : β × State}
    (hf : ∀ b x, Keeps s₀ b.2 → Keeps s₀ (f b x).2) (h : Keeps s₀ b.2) : Keeps s₀ (l.foldl f b).2 := by
  induction l generalizing b with
  | nil => exact h
  | cons x rest ih => exact ih (hf b x h)

theorem Keeps.foldl_mid {α β γ : Type} {f : β × State × γ → α → β × State × γ} {l : List α} {b : β × State × γ}
    (hf : ∀ b x, Keeps s₀ b.2.1 → Keeps s₀ (f b x).2.1) (h : Keeps s₀ b.2.1) : Keeps s₀ (l.foldl f b).2.1 := by
  induction l generalizing b with
  | nil => exact h
  | cons x rest ih => exact ih (hf b x h)

theorem Keeps.foldl_last {α β γ : Type} {f : β × γ × State → α → β × γ × State} {l : List α} {b : β × γ × State}
    (hf : ∀ b x, Keeps s₀ b.2.2 → Keeps s₀ (f b x).2.2) (h : Keeps s₀ b.2.2) : Keeps s₀ (l.foldl f b).2.2 := by
  induction l generalizing b with
  | nil => exact h
  | cons x rest ih => exact ih (hf b x h)

/-- A draw advances the counter. -/
theorem State.draw_keeps (h : Keeps s₀ s) : Keeps s₀ (State.draw s).2 :=
  h.trans ⟨rfl, id, Nat.le_succ _, Nat.le_refl _, id, id, id⟩

theorem State.draw_keeps' (h : Keeps s₀ s) {x : Nat} {t : State} (hE : State.draw s = (x, t)) : Keeps s₀ t := by
  have k := State.draw_keeps h
  rw [hE] at k
  exact k

theorem State.launchFlight_keeps (h : Keeps s₀ s) (f : Flight) : Keeps s₀ (State.launchFlight s f).2 :=
  h.trans ⟨rfl, id, Nat.le_refl _, Nat.le_succ _, id, id, id⟩

/-- A block that comes under another key. -/
theorem State.rekey_keeps (h : Keeps s₀ s) (key a : Nat) : Keeps s₀ (State.rekey s key a) := by
  unfold State.rekey
  split
  · exact h
  · exact h.trans ⟨rfl, fun w => Memory.wf_writeN _ _ w, Nat.le_refl _, Nat.le_refl _, id, id, id⟩

/-- Bytes written into a block. -/
theorem State.pokes_keeps (h : Keeps s₀ s) (key a : Nat) (vs : List Byte) : Keeps s₀ (State.pokes s key a vs) := by
  unfold State.pokes
  split
  · exact h.trans ⟨rfl, fun w => Memory.wf_writeN _ _ w, Nat.le_refl _, Nat.le_refl _, id, id, id⟩
  · have k := State.rekey_keeps h key a
    exact k.trans ⟨rfl, fun w => Memory.wf_writeN _ _ w, Nat.le_refl _, Nat.le_refl _, id, id, id⟩

theorem State.poke_keeps (h : Keeps s₀ s) (key a : Nat) (v : Byte) : Keeps s₀ (State.poke s key a v) :=
  State.pokes_keeps h _ _ _

/-- A stretch of open values. -/
theorem State.veil_keeps (h : Keeps s₀ s) (key lo hi : Nat) : Keeps s₀ (State.veil s key lo hi) := by
  unfold State.veil
  split
  · exact h
  · exact h.trans ⟨rfl, fun w => Memory.wf_keep (fun a => decide (a < lo) || decide (hi ≤ a)) w, Nat.le_succ _,
      Nat.le_refl _, id, id, id⟩

end Machine

end Sys2Proof
end

