-- ==== Sys2Proof/Laws/KeepsOps.lean ====
section
/-! SUPPORT. Every operation of Machine/Ops.lean keeps what Laws/Keeps.lean names. -/

set_option Elab.async false
set_option linter.all false

namespace Sys2Proof

namespace Machine

theorem State.setReg_keeps {s₀ s : State} (h : Keeps s₀ s) (off : Nat) (v : Nat)  : Keeps s₀ (State.setReg s off v) := by
  unfold State.setReg
  repeat' (first
    | with_reducible assumption | with_reducible exact Keeps.fields (by assumption) | with_reducible apply Keeps.fields
    | simp only [Keeps.mk_iff] | dsimp only)

theorem State.set_keeps {s₀ s : State} (h : Keeps s₀ s) (off : Nat) (hi : Nat) (lo : Nat) (v : Nat)  : Keeps s₀ (State.set s off hi lo v) := by
  unfold State.set
  repeat' (first
    | with_reducible assumption | with_reducible apply State.setReg_keeps | dsimp only)

theorem State.addSat_keeps {s₀ s : State} (h : Keeps s₀ s) (off : Nat) (hi : Nat) (lo : Nat) (n : Nat)  : Keeps s₀ (State.addSat s off hi lo n) := by
  unfold State.addSat
  repeat' (first
    | with_reducible assumption | with_reducible apply State.set_keeps | dsimp only)

theorem State.addWrap_keeps {s₀ s : State} (h : Keeps s₀ s) (off : Nat) (hi : Nat) (lo : Nat) (n : Nat)  : Keeps s₀ (State.addWrap s off hi lo n) := by
  unfold State.addWrap
  repeat' (first
    | with_reducible assumption | with_reducible apply State.set_keeps | dsimp only)

theorem State.clearRegs_keeps {s₀ s : State} (h : Keeps s₀ s) (p : Nat → Bool)  : Keeps s₀ (State.clearRegs s p) := by
  unfold State.clearRegs
  repeat' (first
    | with_reducible assumption | with_reducible exact Keeps.fields (by assumption) | with_reducible apply Keeps.fields
    | simp only [Keeps.mk_iff] | intro _ | dsimp only)

theorem State.violateN_keeps {s₀ s : State} (h : Keeps s₀ s) (viol : Nat) (o : Origin) (n : Nat)  : Keeps s₀ (State.violateN s viol o n) := by
  unfold State.violateN
  repeat' (first
    | with_reducible assumption | with_reducible apply State.addSat_keeps | with_reducible apply State.set_keeps
    | with_reducible exact Keeps.fields (by assumption) | with_reducible apply Keeps.fields | simp only [Keeps.mk_iff]
    | with_reducible apply Keeps.ite | split | dsimp only)

theorem State.violate_keeps {s₀ s : State} (h : Keeps s₀ s) (viol : Nat) (o : Origin)  : Keeps s₀ (State.violate s viol o) := by
  unfold State.violate
  repeat' (first
    | with_reducible assumption | with_reducible apply State.violateN_keeps | dsimp only)

theorem State.violateIf_keeps {s₀ s : State} (h : Keeps s₀ s) (b : Bool) (viol : Nat) (o : Origin)  : Keeps s₀ (State.violateIf s b viol o) := by
  unfold State.violateIf
  repeat' (first
    | with_reducible assumption | with_reducible apply State.violate_keeps | with_reducible apply Keeps.ite | split
    | dsimp only)

theorem State.addCycles_keeps {s₀ s : State} (h : Keeps s₀ s) (off : Nat) (n : Nat)  : Keeps s₀ (State.addCycles s off n) := by
  unfold State.addCycles
  repeat' (first
    | with_reducible assumption | with_reducible apply State.addSat_keeps | with_reducible apply State.draw_keeps
    | with_reducible refine State.draw_keeps' (hE := by assumption) ?_ | split | dsimp only)

theorem State.setCtx_keeps {s₀ s : State} (h : Keeps s₀ s) (n : Nat) (c : Ctx)  : Keeps s₀ (State.setCtx s n c) := by
  unfold State.setCtx
  repeat' (first
    | with_reducible assumption | with_reducible exact Keeps.fields (by assumption) | with_reducible apply Keeps.fields
    | simp only [Keeps.mk_iff] | dsimp only)

theorem State.modCtx_keeps {s₀ s : State} (h : Keeps s₀ s) (n : Nat) (f : Ctx → Ctx)  : Keeps s₀ (State.modCtx s n f) := by
  unfold State.modCtx
  repeat' (first
    | with_reducible assumption | with_reducible apply State.setCtx_keeps | dsimp only)

theorem State.setCl_keeps {s₀ s : State} (h : Keeps s₀ s) (g : Nat) (c : Cluster)  : Keeps s₀ (State.setCl s g c) := by
  unfold State.setCl
  repeat' (first
    | with_reducible assumption | with_reducible exact Keeps.fields (by assumption) | with_reducible apply Keeps.fields
    | simp only [Keeps.mk_iff] | dsimp only)

theorem State.modCl_keeps {s₀ s : State} (h : Keeps s₀ s) (g : Nat) (f : Cluster → Cluster)  : Keeps s₀ (State.modCl s g f) := by
  unfold State.modCl
  repeat' (first
    | with_reducible assumption | with_reducible apply State.setCl_keeps | dsimp only)

theorem State.setQueue_keeps {s₀ s : State} (h : Keeps s₀ s) (q : Nat) (c : Queue)  : Keeps s₀ (State.setQueue s q c) := by
  unfold State.setQueue
  repeat' (first
    | with_reducible assumption | with_reducible exact Keeps.fields (by assumption) | with_reducible apply Keeps.fields
    | simp only [Keeps.mk_iff] | dsimp only)

theorem State.modQueue_keeps {s₀ s : State} (h : Keeps s₀ s) (q : Nat) (f : Queue → Queue)  : Keeps s₀ (State.modQueue s q f) := by
  unfold State.modQueue
  repeat' (first
    | with_reducible assumption | with_reducible apply State.setQueue_keeps | dsimp only)

theorem State.modEng_keeps {s₀ s : State} (h : Keeps s₀ s) (g : Nat) (e : Nat) (f : Engine → Engine)  : Keeps s₀ (State.modEng s g e f) := by
  unfold State.modEng
  repeat' (first
    | with_reducible assumption | with_reducible apply State.modCl_keeps | intro _ | dsimp only)

theorem State.setCstate_keeps {s₀ s : State} (h : Keeps s₀ s) (n : Nat) (st : Nat) (last : Nat)  : Keeps s₀ (State.setCstate s n st last) := by
  unfold State.setCstate
  repeat' (first
    | with_reducible assumption | with_reducible apply State.set_keeps | dsimp only)

theorem State.whenRunning_keeps {s₀ s t : State} (h : Keeps s₀ s) (h1 : Keeps s₀ t)   : Keeps s₀ (State.whenRunning s t) := by
  unfold State.whenRunning
  repeat' (first
    | with_reducible assumption | with_reducible apply Keeps.ite | split | dsimp only)

theorem State.writeBlocks_keeps {s₀ s : State} (fuel : Nat) (h : Keeps s₀ s) (c a : Nat) (vs : List Byte) :
    Keeps s₀ (State.writeBlocks fuel s c a vs) := by
  induction fuel generalizing s a vs with
  | zero => exact h
  | succ k ih =>
    unfold State.writeBlocks
    split
    · exact h
    · apply ih
      split
      · exact State.pokes_keeps h _ _ _
      · exact h

theorem State.writePhys_keeps {s₀ s : State} (h : Keeps s₀ s) (c : Nat) (a : Nat) (vs : List Byte)  : Keeps s₀ (State.writePhys s c a vs) := by
  unfold State.writePhys
  repeat' (first
    | with_reducible assumption | with_reducible apply State.writeBlocks_keeps | dsimp only)

theorem State.remember_keeps {s₀ s : State} (h : Keeps s₀ s) (viol : Nat) (c : Nat) (vg : Nat)  : Keeps s₀ (State.remember s viol c vg) := by
  unfold State.remember
  repeat' (first
    | with_reducible assumption | with_reducible exact Keeps.fields (by assumption) | with_reducible apply Keeps.fields
    | simp only [Keeps.mk_iff] | with_reducible apply Keeps.ite | split | dsimp only)

theorem State.dropCaches_keeps {s₀ s : State} (h : Keeps s₀ s) (c : Nat)  : Keeps s₀ (State.dropCaches s c) := by
  unfold State.dropCaches
  repeat' (first
    | with_reducible assumption | with_reducible exact Keeps.fields (by assumption) | with_reducible apply Keeps.fields
    | simp only [Keeps.mk_iff] | intro _ | dsimp only)

theorem State.writeLanded_keeps {s₀ s : State} (h : Keeps s₀ s) (c : Nat) (ls : List (Nat × List Byte))  : Keeps s₀ (State.writeLanded s c ls) := by
  unfold State.writeLanded
  repeat' (first
    | with_reducible assumption | with_reducible apply Keeps.foldl | with_reducible apply State.writePhys_keeps | intro _
    | dsimp only)

theorem State.writeVa_keeps {s₀ s : State} (h : Keeps s₀ s) (viol : Nat) (c : Nat) (va : Nat) (vs : List Byte)  : Keeps s₀ (State.writeVa s viol c va vs) := by
  unfold State.writeVa
  repeat' (first
    | with_reducible assumption | with_reducible apply State.writeLanded_keeps | dsimp only)

theorem State.rememberAll_keeps {s₀ s : State} (h : Keeps s₀ s) (viol : Nat) (c : Nat) (runs : List (Nat × Nat))  : Keeps s₀ (State.rememberAll s viol c runs) := by
  unfold State.rememberAll
  repeat' (first
    | with_reducible assumption | with_reducible apply Keeps.foldl | with_reducible apply State.remember_keeps | intro _
    | dsimp only)

theorem State.load_keeps {s₀ s : State} (h : Keeps s₀ s) (viol : Nat) (c : Nat) (va : Nat) (n : Nat)  : Keeps s₀ (State.load s viol c va n).2 := by
  unfold State.load
  repeat' (first
    | with_reducible assumption | with_reducible apply State.rememberAll_keeps | with_reducible apply State.violateIf_keeps
    | split | dsimp only)

theorem State.load_keeps' {s₀ s : State} (h : Keeps s₀ s) {viol : Nat} {c : Nat} {va : Nat} {n : Nat}  {rX : _} {rT : State} (hE : State.load s viol c va n = (rX, rT)) : Keeps s₀ rT := by
  have k := State.load_keeps (s₀ := s₀) (s := s) h viol c va n
  rw [hE] at k
  exact k

theorem State.loadRuns_keeps {s₀ s : State} (h : Keeps s₀ s) (viol : Nat) (c : Nat) (runs : List (Nat × Nat))  : Keeps s₀ (State.loadRuns s viol c runs).2 := by
  unfold State.loadRuns
  repeat' (first
    | with_reducible assumption | with_reducible apply State.rememberAll_keeps | with_reducible apply State.violateIf_keeps
    | intro _ | dsimp only)

theorem State.loadRuns_keeps' {s₀ s : State} (h : Keeps s₀ s) {viol : Nat} {c : Nat} {runs : List (Nat × Nat)}  {rX : _} {rT : State} (hE : State.loadRuns s viol c runs = (rX, rT)) : Keeps s₀ rT := by
  have k := State.loadRuns_keeps (s₀ := s₀) (s := s) h viol c runs
  rw [hE] at k
  exact k

theorem State.storeRuns_keeps {s₀ s : State} (h : Keeps s₀ s) (viol : Nat) (c : Nat) (runs : List (Nat × List Byte))  : Keeps s₀ (State.storeRuns s viol c runs) := by
  unfold State.storeRuns
  repeat' (first
    | with_reducible assumption | with_reducible apply State.rememberAll_keeps | with_reducible apply State.violateIf_keeps
    | with_reducible apply State.writeLanded_keeps | intro _ | dsimp only)

theorem State.store_keeps {s₀ s : State} (h : Keeps s₀ s) (viol : Nat) (c : Nat) (va : Nat) (vs : List Byte)  : Keeps s₀ (State.store s viol c va vs) := by
  unfold State.store
  repeat' (first
    | with_reducible assumption | with_reducible apply State.storeRuns_keeps | dsimp only)

theorem State.addTag_keeps {s₀ s : State} (h : Keeps s₀ s) (n : Nat) (idx : Nat) (t : Nat) (k : Nat)  : Keeps s₀ (State.addTag s n idx t k) := by
  unfold State.addTag
  repeat' (first
    | with_reducible assumption | with_reducible apply State.modCl_keeps | with_reducible apply State.modCtx_keeps
    | with_reducible exact Keeps.fields (by assumption) | with_reducible apply Keeps.fields | simp only [Keeps.mk_iff]
    | intro _ | split | dsimp only)

theorem State.setSreg_keeps {s₀ s : State} (h : Keeps s₀ s) (g : Nat) (i : Nat) (v : Nat)  : Keeps s₀ (State.setSreg s g i v) := by
  unfold State.setSreg
  repeat' (first
    | with_reducible assumption | with_reducible apply State.modCl_keeps | with_reducible exact Keeps.fields (by assumption)
    | with_reducible apply Keeps.fields | simp only [Keeps.mk_iff] | intro _ | dsimp only)

theorem State.modFlight_keeps {s₀ s : State} (h : Keeps s₀ s) (i : Nat) (f : Flight → Flight)  : Keeps s₀ (State.modFlight s i f) := by
  unfold State.modFlight
  repeat' (first
    | with_reducible assumption | with_reducible exact Keeps.fields (by assumption) | with_reducible apply Keeps.fields
    | simp only [Keeps.mk_iff] | split | dsimp only)

theorem State.markReady_keeps {s₀ s : State} (h : Keeps s₀ s) (i : Nat)  : Keeps s₀ (State.markReady s i) := by
  unfold State.markReady
  repeat' (first
    | with_reducible assumption | with_reducible apply State.modFlight_keeps
    | with_reducible exact Keeps.fields (by assumption) | with_reducible apply Keeps.fields | simp only [Keeps.mk_iff]
    | intro _ | dsimp only)

theorem State.finishFlight_keeps {s₀ s : State} (h : Keeps s₀ s) (i : Nat) (st : Nat)  : Keeps s₀ (State.finishFlight s i st) := by
  unfold State.finishFlight
  repeat' (first
    | with_reducible assumption | with_reducible apply State.modFlight_keeps
    | with_reducible exact Keeps.fields (by assumption) | with_reducible apply Keeps.fields | simp only [Keeps.mk_iff]
    | intro _ | dsimp only)

end Machine

end Sys2Proof
end

