-- ==== Sys2Proof/Laws/KeepsOperands.lean ====
section
/-! SUPPORT. Every operation of Machine/Operands.lean keeps what Laws/Keeps.lean names. -/

set_option Elab.async false
set_option linter.all false

namespace Sys2Proof

namespace Machine

theorem State.gather_keeps {s₀ s : State} (h : Keeps s₀ s) (viol : Nat) (c : Nat) (size : Nat) (cells : List (Option Nat))  : Keeps s₀ (State.gather s viol c size cells).2 := by
  unfold State.gather
  repeat' (first
    | with_reducible assumption | with_reducible apply State.rememberAll_keeps | with_reducible apply State.violateIf_keeps
    | with_reducible exact Keeps.fields (by assumption) | with_reducible apply Keeps.fields | simp only [Keeps.mk_iff]
    | intro _ | split | dsimp only)

theorem State.gather_keeps' {s₀ s : State} (h : Keeps s₀ s) {viol : Nat} {c : Nat} {size : Nat} {cells : List (Option Nat)}  {rX : _} {rT : State} (hE : State.gather s viol c size cells = (rX, rT)) : Keeps s₀ rT := by
  have k := State.gather_keeps (s₀ := s₀) (s := s) h viol c size cells
  rw [hE] at k
  exact k

theorem State.scatter_keeps {s₀ s : State} (h : Keeps s₀ s) (viol : Nat) (c : Nat) (size : Nat) (cells : List (Option Nat)) (bs : List Byte)  : Keeps s₀ (State.scatter s viol c size cells bs) := by
  unfold State.scatter
  repeat' (first
    | with_reducible assumption | with_reducible apply State.storeRuns_keeps | dsimp only)

theorem State.readElems_keeps {s₀ s : State} (h : Keeps s₀ s) (viol : Nat) (c : Nat) (kt5 : Bool) (d : List Byte) (offs : List (Option Nat))  : Keeps s₀ (State.readElems s viol c kt5 d offs).st := by
  unfold State.readElems
  repeat' (first
    | with_reducible assumption | with_reducible apply State.gather_keeps
    | with_reducible refine State.gather_keeps' (hE := by assumption) ?_ | intro _ | split | dsimp only)

theorem State.tensorExp_keeps {s₀ s : State} (h : Keeps s₀ s) (g : Nat) (c : Nat) (d : List Byte)  : Keeps s₀ (State.tensorExp s g c d).2 := by
  unfold State.tensorExp
  repeat' (first
    | with_reducible assumption | with_reducible apply State.load_keeps
    | with_reducible refine State.load_keeps' (hE := by assumption) ?_ | with_reducible apply State.violateIf_keeps
    | with_reducible apply Keeps.ite | split | dsimp only)

theorem State.tensorExp_keeps' {s₀ s : State} (h : Keeps s₀ s) {g : Nat} {c : Nat} {d : List Byte}  {rX : _} {rT : State} (hE : State.tensorExp s g c d = (rX, rT)) : Keeps s₀ rT := by
  have k := State.tensorExp_keeps (s₀ := s₀) (s := s) h g c d
  rw [hE] at k
  exact k

theorem State.tallyScale_keeps {s₀ s : State} (h : Keeps s₀ s) (viol : Nat) (c : Nat) (d : List Byte) (t : Tally)  : Keeps s₀ (State.tallyScale s viol c d t) := by
  unfold State.tallyScale
  repeat' (first
    | with_reducible assumption | with_reducible apply State.load_keeps
    | with_reducible refine State.load_keeps' (hE := by assumption) ?_ | with_reducible apply State.store_keeps
    | with_reducible apply Keeps.ite | split | dsimp only)

theorem State.readTile_keeps {s₀ s : State} (h : Keeps s₀ s) (g : Nat) (c : Nat) (w : Store) (u : Nat) (n : Nat)  : Keeps s₀ (State.readTile s g c w u n).2 := by
  unfold State.readTile
  repeat' (first
    | with_reducible assumption | with_reducible apply State.violateIf_keeps | dsimp only)

theorem State.readTile_keeps' {s₀ s : State} (h : Keeps s₀ s) {g : Nat} {c : Nat} {w : Store} {u : Nat} {n : Nat}  {rX : _} {rT : State} (hE : State.readTile s g c w u n = (rX, rT)) : Keeps s₀ rT := by
  have k := State.readTile_keeps (s₀ := s₀) (s := s) h g c w u n
  rw [hE] at k
  exact k

theorem State.writeTileRuns_keeps {s₀ s : State} (h : Keeps s₀ s) (g : Nat) (c : Nat) (w : Store) (runs : List (Nat × List Byte))  : Keeps s₀ (State.writeTileRuns s g c w runs) := by
  unfold State.writeTileRuns
  repeat' (first
    | with_reducible assumption | with_reducible apply Keeps.foldl | with_reducible apply State.modCl_keeps
    | with_reducible apply State.violateIf_keeps | intro _ | dsimp only)

theorem State.vecCount_keeps {s₀ s : State} (h : Keeps s₀ s) (g : Nat) (sat : Nat) (nf : Nat)  : Keeps s₀ (State.vecCount s g sat nf) := by
  unfold State.vecCount
  repeat' (first
    | with_reducible assumption | with_reducible apply State.addSat_keeps | dsimp only)

theorem State.mxeCount_keeps {s₀ s : State} (h : Keeps s₀ s) (g : Nat) (e : Nat) (sat : Nat) (nf : Nat)  : Keeps s₀ (State.mxeCount s g e sat nf) := by
  unfold State.mxeCount
  repeat' (first
    | with_reducible assumption | with_reducible apply State.addSat_keeps | dsimp only)

theorem State.writeElems_keeps {s₀ s : State} (h : Keeps s₀ s) (viol : Nat) (c : Nat) (kt5 : Bool) (d : List Byte) (es : List ElemOut)  : Keeps s₀ (State.writeElems s viol c kt5 d es).2 := by
  unfold State.writeElems
  repeat' (first
    | with_reducible assumption | with_reducible apply State.gather_keeps
    | with_reducible refine State.gather_keeps' (hE := by assumption) ?_ | with_reducible apply State.scatter_keeps
    | intro _ | with_reducible apply Keeps.ite | split | dsimp only)

theorem State.writeElems_keeps' {s₀ s : State} (h : Keeps s₀ s) {viol : Nat} {c : Nat} {kt5 : Bool} {d : List Byte} {es : List ElemOut}  {rX : _} {rT : State} (hE : State.writeElems s viol c kt5 d es = (rX, rT)) : Keeps s₀ rT := by
  have k := State.writeElems_keeps (s₀ := s₀) (s := s) h viol c kt5 d es
  rw [hE] at k
  exact k

end Machine

end Sys2Proof
end

