-- ==== Sys2Proof/Laws/KeepsIssue.lean ====
section
/-! SUPPORT. Every operation of Machine/Issue.lean keeps what Laws/Keeps.lean names. -/

set_option Elab.async false
set_option linter.all false

namespace Sys2Proof

namespace Machine

theorem State.fetchInstr_keeps {s₀ s : State} (h : Keeps s₀ s) {g : Nat} {f : Fetch} (hE : State.fetchInstr s g = some f) :
    Keeps s₀ f.st := by
  unfold State.fetchInstr at hE
  split at hE
  · cases hE
  · cases hE
    exact State.load_keeps h _ _ _ _

theorem State.advance_keeps {s₀ s : State} (h : Keeps s₀ s) (g : Nat) (pc : Nat)  : Keeps s₀ (State.advance s g pc) := by
  unfold State.advance
  repeat' (first
    | with_reducible assumption | with_reducible apply State.addWrap_keeps | with_reducible apply State.set_keeps
    | dsimp only)

theorem State.endRun_keeps {s₀ s : State} (h : Keeps s₀ s) (g : Nat)  : Keeps s₀ (State.endRun s g) := by
  unfold State.endRun
  repeat' (first
    | with_reducible assumption | with_reducible apply State.modCl_keeps | with_reducible exact Keeps.fields (by assumption)
    | with_reducible apply Keeps.fields | simp only [Keeps.mk_iff] | intro _ | dsimp only)

theorem State.countReserved_keeps {s₀ s : State} (h : Keeps s₀ s) (g : Nat) (n : Nat) (w : Nat) (used : Nat)  : Keeps s₀ (State.countReserved s g n w used) := by
  unfold State.countReserved
  repeat' (first
    | with_reducible assumption | with_reducible apply State.violateIf_keeps | dsimp only)

theorem State.waitCycles_keeps {s₀ s : State} (h : Keeps s₀ s) (g : Nat)  : Keeps s₀ (State.waitCycles s g) := by
  unfold State.waitCycles
  repeat' (first
    | with_reducible assumption | with_reducible apply State.addCycles_keeps | dsimp only)

theorem State.recordWindow_keeps {s₀ s : State} (h : Keeps s₀ s) (w : Window)  : Keeps s₀ (State.recordWindow s w) := by
  unfold State.recordWindow
  repeat' (first
    | with_reducible assumption | with_reducible apply State.draw_keeps
    | with_reducible refine State.draw_keeps' (hE := by assumption) ?_ | with_reducible apply State.set_keeps | split
    | dsimp only)

theorem State.closeWindows_keeps {s₀ s : State} (h : Keeps s₀ s) (p : Window → Bool)  : Keeps s₀ (State.closeWindows s p) := by
  unfold State.closeWindows
  repeat' (first
    | with_reducible assumption | with_reducible apply Keeps.foldl | with_reducible apply State.recordWindow_keeps
    | with_reducible exact Keeps.fields (by assumption) | with_reducible apply Keeps.fields | simp only [Keeps.mk_iff]
    | intro _ | dsimp only)

theorem State.endsWindow_keeps {s₀ s : State} (h : Keeps s₀ s) (n : Nat)  : Keeps s₀ (State.endsWindow s n) := by
  unfold State.endsWindow
  repeat' (first
    | with_reducible assumption | with_reducible apply State.closeWindows_keeps | intro _ | dsimp only)

theorem Fetch.begin_keeps {s₀  : State}  (f : Fetch) (g : Nat) (hx : Keeps s₀ f.st) : Keeps s₀ (Fetch.begin f g) := by
  unfold Fetch.begin
  repeat' (first
    | with_reducible assumption | with_reducible apply State.advance_keeps | with_reducible apply State.endsWindow_keeps
    | dsimp only)

theorem State.issue_keeps {s₀ s : State} (h : Keeps s₀ s) (g : Nat) (accept : Nat → Bool) (regs : Fetch → List Nat) (unit : Nat → Unit) (used : Nat → Nat) (body : Fetch → State → State) (hb : ∀ x0 x1, Keeps s₀ x1 → Keeps s₀ (body x0 x1)) : Keeps s₀ (State.issue s g accept regs unit used body) := by
  unfold State.issue
  repeat' (first
    | with_reducible assumption | with_reducible apply State.addTag_keeps | with_reducible apply Fetch.begin_keeps
    | with_reducible apply State.countReserved_keeps | with_reducible apply State.endRun_keeps
    | with_reducible refine State.fetchInstr_keeps (hE := by assumption) ?_ | with_reducible apply State.waitCycles_keeps
    | with_reducible apply hb | with_reducible exact Keeps.fields (by assumption) | with_reducible apply Keeps.fields
    | simp only [Keeps.mk_iff] | intro _ | with_reducible apply Keeps.ite | split | dsimp only)

theorem State.tagNow_keeps {s₀ s : State} (h : Keeps s₀ s) (f : Fetch)  : Keeps s₀ (State.tagNow s f) := by
  unfold State.tagNow
  repeat' (first
    | with_reducible assumption | with_reducible apply State.addTag_keeps | dsimp only)

theorem State.reservedCode_keeps {s₀ s : State} (h : Keeps s₀ s) (g : Nat) (f : Fetch)  : Keeps s₀ (State.reservedCode s g f) := by
  unfold State.reservedCode
  repeat' (first
    | with_reducible assumption | with_reducible apply State.tagNow_keeps | with_reducible apply State.violate_keeps
    | dsimp only)

theorem State.readDesc_keeps {s₀ s : State} (h : Keeps s₀ s) (g : Nat) (n : Nat) (slot : Nat)  : Keeps s₀ (State.readDesc s g n slot).2 := by
  unfold State.readDesc
  repeat' (first
    | with_reducible assumption | with_reducible apply State.load_keeps
    | with_reducible refine State.load_keeps' (hE := by assumption) ?_ | dsimp only)

theorem State.readDesc_keeps' {s₀ s : State} (h : Keeps s₀ s) {g : Nat} {n : Nat} {slot : Nat}  {rX : _} {rT : State} (hE : State.readDesc s g n slot = (rX, rT)) : Keeps s₀ rT := by
  have k := State.readDesc_keeps (s₀ := s₀) (s := s) h g n slot
  rw [hE] at k
  exact k

theorem State.descIf_keeps {s₀ s : State} (h : Keeps s₀ s) (b : Bool) (g : Nat) (n : Nat) (slot : Nat)  : Keeps s₀ (State.descIf s b g n slot).2 := by
  unfold State.descIf
  repeat' (first
    | with_reducible assumption | with_reducible apply State.readDesc_keeps
    | with_reducible refine State.readDesc_keeps' (hE := by assumption) ?_ | with_reducible apply Keeps.ite | split
    | dsimp only)

theorem State.descIf_keeps' {s₀ s : State} (h : Keeps s₀ s) {b : Bool} {g : Nat} {n : Nat} {slot : Nat}  {rX : _} {rT : State} (hE : State.descIf s b g n slot = (rX, rT)) : Keeps s₀ rT := by
  have k := State.descIf_keeps (s₀ := s₀) (s := s) h b g n slot
  rw [hE] at k
  exact k

theorem State.descOpt_keeps {s₀ s : State} (h : Keeps s₀ s) (o : Option Nat) (g : Nat) (n : Nat)  : Keeps s₀ (State.descOpt s o g n).2 := by
  unfold State.descOpt
  repeat' (first
    | with_reducible assumption | with_reducible apply State.readDesc_keeps
    | with_reducible refine State.readDesc_keeps' (hE := by assumption) ?_
    | with_reducible exact Keeps.fields (by assumption) | with_reducible apply Keeps.fields | simp only [Keeps.mk_iff]
    | split | dsimp only)

theorem State.descOpt_keeps' {s₀ s : State} (h : Keeps s₀ s) {o : Option Nat} {g : Nat} {n : Nat}  {rX : _} {rT : State} (hE : State.descOpt s o g n = (rX, rT)) : Keeps s₀ rT := by
  have k := State.descOpt_keeps (s₀ := s₀) (s := s) h o g n
  rw [hE] at k
  exact k

theorem State.makeJob_keeps {s₀ s : State} (h : Keeps s₀ s) (g : Nat) (f : Fetch) (flight : Nat)  : Keeps s₀ (State.makeJob s g f flight).2 := by
  unfold State.makeJob
  repeat' (first
    | with_reducible assumption | with_reducible apply State.descIf_keeps
    | with_reducible refine State.descIf_keeps' (hE := by assumption) ?_ | with_reducible apply State.descOpt_keeps
    | with_reducible refine State.descOpt_keeps' (hE := by assumption) ?_ | split | dsimp only)

theorem State.makeJob_keeps' {s₀ s : State} (h : Keeps s₀ s) {g : Nat} {f : Fetch} {flight : Nat}  {rX : _} {rT : State} (hE : State.makeJob s g f flight = (rX, rT)) : Keeps s₀ rT := by
  have k := State.makeJob_keeps (s₀ := s₀) (s := s) h g f flight
  rw [hE] at k
  exact k

theorem State.dispatch_keeps {s₀ s : State} (h : Keeps s₀ s) (g : Nat) (f : Fetch) (u : Unit) (body : Job → State → State) (hb : ∀ x0 x1, Keeps s₀ x1 → Keeps s₀ (body x0 x1)) : Keeps s₀ (State.dispatch s g f u body) := by
  unfold State.dispatch
  repeat' (first
    | with_reducible assumption | with_reducible apply State.launchFlight_keeps
    | with_reducible refine State.launchFlight_keeps' (hE := by assumption) ?_ | with_reducible apply State.makeJob_keeps
    | with_reducible refine State.makeJob_keeps' (hE := by assumption) ?_ | with_reducible apply hb | split | dsimp only)

theorem State.dropReserved_keeps {s₀ s : State} (h : Keeps s₀ s) (j : Job)  : Keeps s₀ (State.dropReserved s j) := by
  unfold State.dropReserved
  repeat' (first
    | with_reducible assumption | with_reducible apply State.addTag_keeps | with_reducible apply State.violate_keeps
    | with_reducible exact Keeps.fields (by assumption) | with_reducible apply Keeps.fields | simp only [Keeps.mk_iff]
    | split | dsimp only)

theorem State.dropFormat_keeps {s₀ s : State} (h : Keeps s₀ s) (j : Job)  : Keeps s₀ (State.dropFormat s j) := by
  unfold State.dropFormat
  repeat' (first
    | with_reducible assumption | with_reducible apply State.markReady_keeps | with_reducible apply State.modFlight_keeps
    | with_reducible apply State.violate_keeps | with_reducible exact Keeps.fields (by assumption)
    | with_reducible apply Keeps.fields | simp only [Keeps.mk_iff] | intro _ | dsimp only)

theorem State.issueData_keeps {s₀ s : State} (h : Keeps s₀ s) (g : Nat) (accept : Nat → Bool) (regs : Fetch → List Nat) (unit : Nat → Unit) (used : Nat → Nat) (body : Job → State → State) (hb : ∀ x0 x1, Keeps s₀ x1 → Keeps s₀ (body x0 x1)) : Keeps s₀ (State.issueData s g accept regs unit used body) := by
  unfold State.issueData
  repeat' (first
    | with_reducible assumption | with_reducible apply State.dispatch_keeps | with_reducible apply State.issue_keeps
    | with_reducible apply hb | intro _ | dsimp only)

theorem State.setSregOf_keeps {s₀ s : State} (h : Keeps s₀ s) (n : Nat) (idx : Nat) (i : Nat) (v : Nat)  : Keeps s₀ (State.setSregOf s n idx i v) := by
  unfold State.setSregOf
  repeat' (first
    | with_reducible assumption | with_reducible apply State.modCtx_keeps | with_reducible apply State.setSreg_keeps
    | with_reducible exact Keeps.fields (by assumption) | with_reducible apply Keeps.fields | simp only [Keeps.mk_iff]
    | intro _ | with_reducible apply Keeps.ite | split | dsimp only)

theorem State.recordFail_keeps {s₀ s : State} (h : Keeps s₀ s) (n : Nat) (idx : Nat) (op : Nat) (st : Nat)  : Keeps s₀ (State.recordFail s n idx op st) := by
  unfold State.recordFail
  repeat' (first
    | with_reducible assumption | with_reducible apply State.modCtx_keeps | with_reducible apply State.set_keeps
    | with_reducible exact Keeps.fields (by assumption) | with_reducible apply Keeps.fields | simp only [Keeps.mk_iff]
    | intro _ | with_reducible apply Keeps.ite | split | dsimp only)

theorem State.settle_keeps {s₀ s : State} (h : Keeps s₀ s) (f : Flight)  : Keeps s₀ (State.settle s f) := by
  unfold State.settle
  repeat' (first
    | with_reducible assumption | with_reducible apply Keeps.foldl | with_reducible apply State.addTag_keeps
    | with_reducible apply State.recordFail_keeps | with_reducible apply State.setSregOf_keeps | intro _
    | with_reducible apply Keeps.ite | split | dsimp only)

end Machine

end Sys2Proof
end

