-- ==== Sys2Proof/Laws/KeepsCheck.lean ====
section
/-! SUPPORT. Every operation of Machine/Check.lean keeps what Laws/Keeps.lean names. -/

set_option Elab.async false
set_option linter.all false

namespace Sys2Proof

namespace Machine

theorem State.signal_keeps {s₀ s : State} (h : Keeps s₀ s) (v : Nat)  : Keeps s₀ (State.signal s v) := by
  unfold State.signal
  repeat' (first
    | with_reducible assumption | with_reducible apply State.writePhys_keeps
    | with_reducible exact Keeps.fields (by assumption) | with_reducible apply Keeps.fields | simp only [Keeps.mk_iff]
    | with_reducible apply Keeps.ite | split | dsimp only)

theorem State.signalEvent_keeps {s₀ s : State} (h : Keeps s₀ s)   : Keeps s₀ (State.signalEvent s) := by
  unfold State.signalEvent
  repeat' (first
    | with_reducible assumption | with_reducible apply State.signal_keeps | with_reducible apply Keeps.ite | split
    | dsimp only)

theorem State.queueFault_keeps {s₀ s : State} (h : Keeps s₀ s) (r : FaultRec)  : Keeps s₀ (State.queueFault s r) := by
  unfold State.queueFault
  repeat' (first
    | with_reducible assumption | with_reducible apply State.addSat_keeps | with_reducible apply State.signalEvent_keeps
    | with_reducible exact Keeps.fields (by assumption) | with_reducible apply Keeps.fields | simp only [Keeps.mk_iff]
    | with_reducible apply Keeps.ite | split | dsimp only)

theorem State.holdSuspect_keeps {s₀ s : State} (h : Keeps s₀ s) (st : Nat)  : Keeps s₀ (State.holdSuspect s st) := by
  unfold State.holdSuspect
  repeat' (first
    | with_reducible assumption | with_reducible apply State.set_keeps | with_reducible exact Keeps.fields (by assumption)
    | with_reducible apply Keeps.fields | simp only [Keeps.mk_iff] | with_reducible apply Keeps.ite | split | dsimp only)

theorem State.setFault_keeps {s₀ s : State} (h : Keeps s₀ s)   : Keeps s₀ (State.setFault s) := by
  unfold State.setFault
  repeat' (first
    | with_reducible assumption | with_reducible exact Keeps.fields (by assumption) | with_reducible apply Keeps.fields
    | simp only [Keeps.mk_iff] | dsimp only)

theorem State.confirm_keeps {s₀ s : State} (h : Keeps s₀ s) (unit : Nat) (loc : Nat) (step : Nat)  : Keeps s₀ (State.confirm s unit loc step) := by
  unfold State.confirm
  repeat' (first
    | with_reducible assumption | with_reducible apply State.queueFault_keeps | with_reducible apply State.set_keeps
    | with_reducible apply State.setFault_keeps | dsimp only)

theorem State.countOnce_keeps {s₀ s : State} (h : Keeps s₀ s) (e : Event)  : Keeps s₀ (State.countOnce s e) := by
  unfold State.countOnce
  repeat' (first
    | with_reducible assumption | with_reducible apply State.confirm_keeps
    | with_reducible exact Keeps.fields (by assumption) | with_reducible apply Keeps.fields | simp only [Keeps.mk_iff]
    | intro _ | with_reducible apply Keeps.ite | split | dsimp only)

theorem State.raiseEvent_keeps {s₀ s : State} (h : Keeps s₀ s) (e : Event)  : Keeps s₀ (State.raiseEvent s e) := by
  unfold State.raiseEvent
  repeat' (first
    | with_reducible assumption | with_reducible apply State.countOnce_keeps | with_reducible apply State.holdSuspect_keeps
    | with_reducible apply State.queueFault_keeps | with_reducible apply State.setFault_keeps
    | with_reducible apply Keeps.ite | split | dsimp only)

theorem State.setEngState_keeps {s₀ s : State} (h : Keeps s₀ s) (g : Nat) (e : Nat) (v : Nat)  : Keeps s₀ (State.setEngState s g e v) := by
  unfold State.setEngState
  repeat' (first
    | with_reducible assumption | with_reducible apply State.set_keeps | dsimp only)

theorem State.watchEngine_keeps {s₀ s : State} (h : Keeps s₀ s) (g : Nat) (e : Nat)  : Keeps s₀ (State.watchEngine s g e) := by
  unfold State.watchEngine
  repeat' (first
    | with_reducible assumption | with_reducible apply State.setEngState_keeps
    | with_reducible exact Keeps.fields (by assumption) | with_reducible apply Keeps.fields | simp only [Keeps.mk_iff]
    | dsimp only)

theorem State.confirmEngine_keeps {s₀ s : State} (h : Keeps s₀ s) (g : Nat) (e : Nat) (step : Nat)  : Keeps s₀ (State.confirmEngine s g e step) := by
  unfold State.confirmEngine
  repeat' (first
    | with_reducible assumption | with_reducible apply State.confirm_keeps | with_reducible apply State.setEngState_keeps
    | with_reducible apply Keeps.ite | split | dsimp only)

theorem State.checkFailure_keeps {s₀ s : State} (h : Keeps s₀ s) (g : Nat) (e : Nat)  : Keeps s₀ (State.checkFailure s g e) := by
  unfold State.checkFailure
  repeat' (first
    | with_reducible assumption | with_reducible apply State.confirmEngine_keeps
    | with_reducible apply State.raiseEvent_keeps | with_reducible apply State.watchEngine_keeps
    | with_reducible apply Keeps.ite | split | dsimp only)

theorem State.mismatchOn_keeps {s₀ s : State} (h : Keeps s₀ s) (g : Nat) (e : Nat) (step : Nat) (own : Bool) (other : Bool) (first : Bool)  : Keeps s₀ (State.mismatchOn s g e step own other first) := by
  unfold State.mismatchOn
  repeat' (first
    | with_reducible assumption | with_reducible apply State.confirmEngine_keeps
    | with_reducible apply State.watchEngine_keeps | with_reducible apply Keeps.ite | split | dsimp only)

theorem State.countLaunch_keeps {s₀ s : State} (h : Keeps s₀ s) (p : Nat)  : Keeps s₀ (State.countLaunch s p) := by
  unfold State.countLaunch
  repeat' (first
    | with_reducible assumption | with_reducible apply Keeps.foldl | with_reducible apply State.setEngState_keeps
    | with_reducible exact Keeps.fields (by assumption) | with_reducible apply Keeps.fields | simp only [Keeps.mk_iff]
    | intro _ | with_reducible apply Keeps.ite | split | dsimp only)

theorem State.detect_keeps {s₀ s : State} (h : Keeps s₀ s) (carrier : Option (Nat × Nat)) (es : List FaultIn)  : Keeps s₀ (State.detect s carrier es) := by
  unfold State.detect
  repeat' (first
    | with_reducible assumption | with_reducible apply Keeps.foldl | with_reducible apply State.addSat_keeps
    | with_reducible apply State.raiseEvent_keeps | with_reducible apply State.set_keeps
    | with_reducible exact Keeps.fields (by assumption) | with_reducible apply Keeps.fields | simp only [Keeps.mk_iff]
    | intro _ | with_reducible apply Keeps.ite | split | dsimp only)

end Machine

end Sys2Proof
end

