-- ==== Sys2Proof/Laws/KeepsQueue.lean ====
section
/-! SUPPORT. Every operation of Machine/Queue.lean keeps what Laws/Keeps.lean names. -/

set_option Elab.async false
set_option linter.all false

namespace Sys2Proof

namespace Machine

theorem State.writeCpl_keeps {s₀ s : State} (h : Keeps s₀ s) (q : Nat) (c : Cpl)  : Keeps s₀ (State.writeCpl s q c) := by
  unfold State.writeCpl
  repeat' (first
    | with_reducible assumption | with_reducible apply State.draw_keeps
    | with_reducible refine State.draw_keeps' (hE := by assumption) ?_ | with_reducible apply State.set_keeps
    | with_reducible apply State.signal_keeps | with_reducible apply State.store_keeps | with_reducible apply Keeps.ite
    | split | dsimp only)

theorem State.postCpl_keeps {s₀ s : State} (h : Keeps s₀ s) (q : Nat) (c : Cpl)  : Keeps s₀ (State.postCpl s q c) := by
  unfold State.postCpl
  repeat' (first
    | with_reducible assumption | with_reducible apply State.modQueue_keeps | with_reducible apply State.writeCpl_keeps
    | with_reducible exact Keeps.fields (by assumption) | with_reducible apply Keeps.fields | simp only [Keeps.mk_iff]
    | intro _ | with_reducible apply Keeps.ite | split | dsimp only)

theorem State.drainCpls_keeps {s₀ s : State} (h : Keeps s₀ s) (q : Nat) (cs : List Cpl) :
    Keeps s₀ (State.drainCpls s q cs) := by
  induction cs generalizing s with
  | nil => exact State.modQueue_keeps h _ _
  | cons c rest ih =>
    unfold State.drainCpls
    split
    · exact ih (State.writeCpl_keeps h _ _)
    · exact State.modQueue_keeps h _ _

theorem State.completeCmd_keeps {s₀ s : State} (h : Keeps s₀ s) (c : Cmd) (st : Nat)  : Keeps s₀ (State.completeCmd s c st) := by
  unfold State.completeCmd
  repeat' (first
    | with_reducible assumption | with_reducible apply State.modQueue_keeps | with_reducible apply State.postCpl_keeps
    | with_reducible exact Keeps.fields (by assumption) | with_reducible apply Keeps.fields | simp only [Keeps.mk_iff]
    | intro _ | with_reducible apply Keeps.ite | split | dsimp only)

theorem State.headEntry_keeps {s₀ s : State} (h : Keeps s₀ s) (q : Nat)  : Keeps s₀ (State.headEntry s q).2 := by
  unfold State.headEntry
  repeat' (first
    | with_reducible assumption | with_reducible apply State.load_keeps
    | with_reducible refine State.load_keeps' (hE := by assumption) ?_ | split | dsimp only)

theorem State.headEntry_keeps' {s₀ s : State} (h : Keeps s₀ s) {q : Nat}  {rX : _} {rT : State} (hE : State.headEntry s q = (rX, rT)) : Keeps s₀ rT := by
  have k := State.headEntry_keeps (s₀ := s₀) (s := s) h q
  rw [hE] at k
  exact k

theorem State.fetchAny_keeps {s₀ s : State} (h : Keeps s₀ s) {q : Nat} {accept : Nat → Bool} {c : Cmd} {t : State}
    (hE : State.fetchAny s q accept = some (c, t)) : Keeps s₀ t := by
  unfold State.fetchAny at hE
  split at hE
  · dsimp only at hE
    split at hE
    · cases hE
      apply State.modQueue_keeps
      split
      · exact State.modCtx_keeps (State.set_keeps (State.headEntry_keeps h _) _ _ _ _) _ _
      · exact State.set_keeps (State.headEntry_keeps h _) _ _ _ _
    · cases hE
  · cases hE

theorem State.fetchCmd_keeps {s₀ s : State} (h : Keeps s₀ s) {q : Nat} {accept : Nat → Bool} {c : Cmd} {t : State}
    (hE : State.fetchCmd s q accept = some (c, t)) : Keeps s₀ t := by
  unfold State.fetchCmd at hE
  split at hE
  · exact State.fetchAny_keeps h hE
  · cases hE

theorem State.command_keeps {s₀ s : State} (h : Keeps s₀ s) (q : Nat) (accept : Nat → Bool) (body : Cmd → State → State) (hb : ∀ x0 x1, Keeps s₀ x1 → Keeps s₀ (body x0 x1)) : Keeps s₀ (State.command s q accept body) := by
  unfold State.command
  repeat' (first
    | with_reducible assumption | with_reducible refine State.fetchCmd_keeps (hE := by assumption) ?_
    | with_reducible apply hb | with_reducible exact Keeps.fields (by assumption) | with_reducible apply Keeps.fields
    | simp only [Keeps.mk_iff] | split | dsimp only)

theorem State.service_keeps {s₀ s : State} (h : Keeps s₀ s) (q : Nat) (code : Nat) (body : Cmd → State → State) (hb : ∀ x0 x1, Keeps s₀ x1 → Keeps s₀ (body x0 x1)) : Keeps s₀ (State.service s q code body) := by
  unfold State.service
  repeat' (first
    | with_reducible assumption | with_reducible apply State.command_keeps | with_reducible apply hb | intro _
    | with_reducible apply Keeps.ite | split | dsimp only)

theorem execNop_keeps {s₀ s : State} (h : Keeps s₀ s) (q : Nat) : ∃ r, execNop q s = .next r ∧ Keeps s₀ r := by
  unfold execNop
  refine ⟨_, rfl, ?_⟩
  repeat' (first
    | with_reducible assumption | with_reducible apply State.command_keeps | with_reducible apply State.completeCmd_keeps
    | intro _ | dsimp only)

theorem execReservedCommand_keeps {s₀ s : State} (h : Keeps s₀ s) (q : Nat) : ∃ r, execReservedCommand q s = .next r ∧ Keeps s₀ r := by
  unfold execReservedCommand
  refine ⟨_, rfl, ?_⟩
  repeat' (first
    | with_reducible assumption | with_reducible apply State.command_keeps | with_reducible apply State.completeCmd_keeps
    | with_reducible apply State.violate_keeps | intro _ | dsimp only)

theorem State.copyDescs_keeps {s₀ s : State} (h : Keeps s₀ s) (n src slot count : Nat) :
    Keeps s₀ (State.copyDescs s n src slot count) := by
  induction count generalizing s src slot with
  | zero => exact h
  | succ k ih =>
    unfold State.copyDescs
    split
    · exact ih (State.store_keeps (State.load_keeps h _ _ _ _) _ _ _ _) _ _
    · exact h

theorem State.descw_keeps {s₀ s : State} (h : Keeps s₀ s) (c : Cmd)  : Keeps s₀ (State.descw s c) := by
  unfold State.descw
  repeat' (first
    | with_reducible assumption | with_reducible apply State.copyDescs_keeps | with_reducible apply State.violate_keeps
    | with_reducible apply State.violateIf_keeps | with_reducible apply Keeps.ite | split | dsimp only)

theorem execDescw_keeps {s₀ s : State} (h : Keeps s₀ s) (q : Nat) : ∃ r, execDescw q s = .next r ∧ Keeps s₀ r := by
  unfold execDescw
  refine ⟨_, rfl, ?_⟩
  repeat' (first
    | with_reducible assumption | with_reducible apply State.command_keeps | with_reducible apply State.completeCmd_keeps
    | with_reducible apply State.descw_keeps | intro _ | with_reducible apply Keeps.ite | split | dsimp only)

theorem execFence_keeps {s₀ s : State} (h : Keeps s₀ s) (q : Nat) : ∃ r, execFence q s = .next r ∧ Keeps s₀ r := by
  unfold execFence
  refine ⟨_, rfl, ?_⟩
  repeat' (first
    | with_reducible assumption | with_reducible apply State.command_keeps | with_reducible apply State.completeCmd_keeps
    | intro _ | with_reducible apply Keeps.ite | split | dsimp only)

theorem State.endRestored_keeps {s₀ s : State} (h : Keeps s₀ s) (n : Nat)  : Keeps s₀ (State.endRestored s n) := by
  unfold State.endRestored
  repeat' (first
    | with_reducible assumption | with_reducible apply State.set_keeps | with_reducible apply Keeps.ite | split | dsimp only)

theorem State.resetWaiting_keeps {s₀ s : State} (h : Keeps s₀ s) (q : Nat)  : Keeps s₀ (State.resetWaiting s q) := by
  unfold State.resetWaiting
  repeat' (first
    | with_reducible assumption | with_reducible apply State.endRestored_keeps | with_reducible apply State.writeCpl_keeps
    | with_reducible exact Keeps.fields (by assumption) | with_reducible apply Keeps.fields | simp only [Keeps.mk_iff]
    | with_reducible apply Keeps.ite | split | dsimp only)

theorem State.disableQueue_keeps {s₀ s : State} (h : Keeps s₀ s) (q : Nat)  : Keeps s₀ (State.disableQueue s q) := by
  unfold State.disableQueue
  repeat' (first
    | with_reducible assumption | with_reducible apply State.modCtx_keeps | with_reducible apply State.resetWaiting_keeps
    | with_reducible apply State.set_keeps | with_reducible apply State.setQueue_keeps
    | with_reducible apply State.setReg_keeps | intro _ | dsimp only)

theorem State.disableQueues_keeps {s₀ s : State} (h : Keeps s₀ s) (n : Nat)  : Keeps s₀ (State.disableQueues s n) := by
  unfold State.disableQueues
  repeat' (first
    | with_reducible assumption | with_reducible apply Keeps.foldl | with_reducible apply State.disableQueue_keeps | intro _
    | with_reducible apply Keeps.ite | split | dsimp only)

theorem State.wakeEvent_keeps {s₀ s : State} (h : Keeps s₀ s) (highest : Nat)  : Keeps s₀ (State.wakeEvent s highest) := by
  unfold State.wakeEvent
  repeat' (first
    | with_reducible assumption | with_reducible apply State.set_keeps | with_reducible exact Keeps.fields (by assumption)
    | with_reducible apply Keeps.fields | simp only [Keeps.mk_iff] | with_reducible apply Keeps.ite | split | dsimp only)

theorem State.ringDoorbell_keeps {s₀ s : State} (h : Keeps s₀ s) (q : Nat) (v : Nat)  : Keeps s₀ (State.ringDoorbell s q v) := by
  unfold State.ringDoorbell
  repeat' (first
    | with_reducible assumption | with_reducible apply State.modCtx_keeps | with_reducible apply State.set_keeps
    | with_reducible apply State.violate_keeps | with_reducible apply State.wakeEvent_keeps
    | with_reducible exact Keeps.fields (by assumption) | with_reducible apply Keeps.fields | simp only [Keeps.mk_iff]
    | intro _ | with_reducible apply Keeps.ite | split | dsimp only)

end Machine

end Sys2Proof
end

