-- ==== Sys2Proof/Laws/KeepsContext.lean ====
section
/-! SUPPORT. Every operation of Machine/Context.lean keeps what Laws/Keeps.lean names. -/

set_option Elab.async false
set_option linter.all false

namespace Sys2Proof

namespace Machine

theorem State.makeRunnable_keeps {s₀ s : State} (h : Keeps s₀ s) (n : Nat)  : Keeps s₀ (State.makeRunnable s n) := by
  unfold State.makeRunnable
  repeat' (first
    | with_reducible assumption | with_reducible apply State.modCtx_keeps
    | with_reducible exact Keeps.fields (by assumption) | with_reducible apply Keeps.fields | simp only [Keeps.mk_iff]
    | intro _ | with_reducible apply Keeps.ite | split | dsimp only)

theorem State.stopRunnable_keeps {s₀ s : State} (h : Keeps s₀ s) (n : Nat)  : Keeps s₀ (State.stopRunnable s n) := by
  unfold State.stopRunnable
  repeat' (first
    | with_reducible assumption | with_reducible apply State.modCtx_keeps
    | with_reducible exact Keeps.fields (by assumption) | with_reducible apply Keeps.fields | simp only [Keeps.mk_iff]
    | intro _ | dsimp only)

theorem State.pick_keeps {s₀ s : State} (h : Keeps s₀ s) (p : Nat)  : Keeps s₀ (State.pick s p).2 := by
  unfold State.pick
  repeat' (first
    | with_reducible assumption | with_reducible apply State.draw_keeps
    | with_reducible refine State.draw_keeps' (hE := by assumption) ?_ | intro _ | with_reducible apply Keeps.ite | split
    | dsimp only)

theorem State.pick_keeps' {s₀ s : State} (h : Keeps s₀ s) {p : Nat}  {rX : _} {rT : State} (hE : State.pick s p = (rX, rT)) : Keeps s₀ rT := by
  have k := State.pick_keeps (s₀ := s₀) (s := s) h p
  rw [hE] at k
  exact k

theorem State.putSpare_keeps {s₀ s : State} (h : Keeps s₀ s) (p : Nat) (g : Nat)  : Keeps s₀ (State.putSpare s p g) := by
  unfold State.putSpare
  repeat' (first
    | with_reducible assumption | with_reducible exact Keeps.fields (by assumption) | with_reducible apply Keeps.fields
    | simp only [Keeps.mk_iff] | dsimp only)

theorem State.ensureSpare_keeps {s₀ s : State} (h : Keeps s₀ s) (p : Nat)  : Keeps s₀ (State.ensureSpare s p) := by
  unfold State.ensureSpare
  repeat' (first
    | with_reducible assumption | with_reducible apply State.putSpare_keeps
    | with_reducible exact Keeps.fields (by assumption) | with_reducible apply Keeps.fields | simp only [Keeps.mk_iff]
    | with_reducible apply Keeps.ite | split | dsimp only)

theorem State.rotateSpare_keeps {s₀ s : State} (h : Keeps s₀ s) (p : Nat)  : Keeps s₀ (State.rotateSpare s p) := by
  unfold State.rotateSpare
  repeat' (first
    | with_reducible assumption | with_reducible apply State.putSpare_keeps
    | with_reducible exact Keeps.fields (by assumption) | with_reducible apply Keeps.fields | simp only [Keeps.mk_iff]
    | with_reducible apply Keeps.ite | split | dsimp only)

theorem State.launchOn_keeps {s₀ s : State} (h : Keeps s₀ s) (n : Nat) (cnt : Nat) (cmd : Cmd) (gi : Nat × Nat)  : Keeps s₀ (State.launchOn s n cnt cmd gi) := by
  unfold State.launchOn
  repeat' (first
    | with_reducible assumption | with_reducible apply State.clearRegs_keeps | with_reducible apply State.set_keeps
    | with_reducible apply State.setCl_keeps | with_reducible apply State.violateN_keeps | dsimp only)

theorem State.emptyTray_keeps {s₀ s : State} (h : Keeps s₀ s) (g : Nat)  : Keeps s₀ (State.emptyTray s g) := by
  unfold State.emptyTray
  repeat' (first
    | with_reducible assumption | with_reducible apply State.clearRegs_keeps | with_reducible apply State.modCl_keeps
    | with_reducible exact Keeps.fields (by assumption) | with_reducible apply Keeps.fields | simp only [Keeps.mk_iff]
    | intro _ | dsimp only)

theorem State.zeroStores_keeps {s₀ s : State} (h : Keeps s₀ s) (n : Nat) (g : Nat)  : Keeps s₀ (State.zeroStores s n g) := by
  unfold State.zeroStores
  repeat' (first
    | with_reducible assumption | with_reducible apply State.emptyTray_keeps | with_reducible apply State.modCl_keeps
    | with_reducible exact Keeps.fields (by assumption) | with_reducible apply Keeps.fields | simp only [Keeps.mk_iff]
    | intro _ | dsimp only)

theorem State.zeroRest_keeps {s₀ s : State} (h : Keeps s₀ s) (n : Nat) (p : Nat) (gs : List Nat) (resume : Bool)  : Keeps s₀ (State.zeroRest s n p gs resume) := by
  unfold State.zeroRest
  repeat' (first
    | with_reducible assumption | with_reducible apply Keeps.foldl | with_reducible apply State.zeroStores_keeps | intro _
    | dsimp only)

theorem State.readKey_keeps {s₀ s : State} (h : Keeps s₀ s) (n : Nat) (arg : Nat)  : Keeps s₀ (State.readKey s n arg) := by
  unfold State.readKey
  repeat' (first
    | with_reducible assumption | with_reducible apply State.load_keeps
    | with_reducible refine State.load_keeps' (hE := by assumption) ?_ | with_reducible apply State.modCtx_keeps
    | with_reducible exact Keeps.fields (by assumption) | with_reducible apply Keeps.fields | simp only [Keeps.mk_iff]
    | intro _ | split | dsimp only)

theorem State.closeUnless_keeps {s₀ s : State} (h : Keeps s₀ s) (p : Nat)  : Keeps s₀ (State.closeUnless s p) := by
  unfold State.closeUnless
  repeat' (first
    | with_reducible assumption | with_reducible apply State.closeWindows_keeps | intro _ | dsimp only)

theorem State.takeLevel_keeps {s₀ s : State} (h : Keeps s₀ s) (p : Nat)  : Keeps s₀ (State.takeLevel s p) := by
  unfold State.takeLevel
  repeat' (first
    | with_reducible assumption | with_reducible exact Keeps.fields (by assumption) | with_reducible apply Keeps.fields
    | simp only [Keeps.mk_iff] | dsimp only)

theorem State.endAdded_keeps {s₀ s : State} (h : Keeps s₀ s) (p : Nat)  : Keeps s₀ (State.endAdded s p) := by
  unfold State.endAdded
  repeat' (first
    | with_reducible assumption | with_reducible exact Keeps.fields (by assumption) | with_reducible apply Keeps.fields
    | simp only [Keeps.mk_iff] | intro _ | dsimp only)

theorem State.startLaunch_keeps {s₀ s : State} (h : Keeps s₀ s) (n : Nat) (p : Nat) (c : Cmd)  : Keeps s₀ (State.startLaunch s n p c) := by
  unfold State.startLaunch
  repeat' (first
    | with_reducible assumption | with_reducible apply Keeps.foldl | with_reducible apply State.endAdded_keeps
    | with_reducible apply State.launchOn_keeps | with_reducible apply State.modCtx_keeps
    | with_reducible apply State.readKey_keeps | with_reducible apply State.setCstate_keeps
    | with_reducible apply State.takeLevel_keeps | with_reducible apply State.zeroRest_keeps
    | with_reducible exact Keeps.fields (by assumption) | with_reducible apply Keeps.fields | simp only [Keeps.mk_iff]
    | intro _ | with_reducible apply Keeps.ite | split | dsimp only)

theorem State.takeArrival_keeps {s₀ s : State} (h : Keeps s₀ s) {n : Nat} {c : Cmd} {t : State}
    (hE : State.takeArrival s n = some (c, t)) : Keeps s₀ t := by
  unfold State.takeArrival at hE
  split at hE
  · cases hE
  · split at hE
    · cases hE
    · cases hE
      exact State.modQueue_keeps (State.modCtx_keeps h _ _) _ _

theorem State.refreshRunnable_keeps {s₀ s : State} (h : Keeps s₀ s) (n : Nat)  : Keeps s₀ (State.refreshRunnable s n) := by
  unfold State.refreshRunnable
  repeat' (first
    | with_reducible assumption | with_reducible apply State.makeRunnable_keeps
    | with_reducible apply State.stopRunnable_keeps | with_reducible apply Keeps.ite | split | dsimp only)

theorem State.refuseLaunch_keeps {s₀ s : State} (h : Keeps s₀ s) (c : Cmd) (st : Nat)  : Keeps s₀ (State.refuseLaunch s c st) := by
  unfold State.refuseLaunch
  repeat' (first
    | with_reducible assumption | with_reducible apply State.completeCmd_keeps
    | with_reducible apply State.endRestored_keeps | dsimp only)

theorem State.selectBound_keeps {s₀ s : State} (h : Keeps s₀ s) (n : Nat) (p : Nat)  : Keeps s₀ (State.selectBound s n p) := by
  unfold State.selectBound
  repeat' (first
    | with_reducible assumption | with_reducible apply State.closeUnless_keeps
    | with_reducible apply State.ensureSpare_keeps | with_reducible apply State.refreshRunnable_keeps
    | with_reducible apply State.refuseLaunch_keeps | with_reducible apply State.startLaunch_keeps
    | with_reducible apply State.stopRunnable_keeps | with_reducible refine State.takeArrival_keeps (hE := by assumption) ?_
    | with_reducible exact Keeps.fields (by assumption) | with_reducible apply Keeps.fields | simp only [Keeps.mk_iff]
    | with_reducible apply Keeps.ite | split | dsimp only)

theorem State.selectCocooned_keeps {s₀ s : State} (h : Keeps s₀ s) (n : Nat) (p : Nat)  : Keeps s₀ (State.selectCocooned s n p) := by
  unfold State.selectCocooned
  repeat' (first
    | with_reducible assumption | with_reducible apply Keeps.foldl | with_reducible apply State.clearRegs_keeps
    | with_reducible apply State.closeUnless_keeps | with_reducible apply State.endAdded_keeps
    | with_reducible apply State.ensureSpare_keeps | with_reducible apply State.modCl_keeps
    | with_reducible apply State.set_keeps | with_reducible apply State.setCstate_keeps
    | with_reducible apply State.stopRunnable_keeps | with_reducible apply State.zeroRest_keeps
    | with_reducible exact Keeps.fields (by assumption) | with_reducible apply Keeps.fields | simp only [Keeps.mk_iff]
    | intro _ | with_reducible apply Keeps.ite | split | dsimp only)

theorem State.select_keeps {s₀ s : State} (h : Keeps s₀ s) (p : Nat)  : Keeps s₀ (State.select s p) := by
  unfold State.select
  repeat' (first
    | with_reducible assumption | with_reducible apply State.pick_keeps
    | with_reducible refine State.pick_keeps' (hE := by assumption) ?_ | with_reducible apply State.selectBound_keeps
    | with_reducible apply State.selectCocooned_keeps | with_reducible exact Keeps.fields (by assumption)
    | with_reducible apply Keeps.fields | simp only [Keeps.mk_iff] | with_reducible apply Keeps.ite | split | dsimp only)

theorem execContextSelect_keeps {s₀ s : State} (h : Keeps s₀ s) (p : Nat) : ∃ r, execContextSelect p s = .next r ∧ Keeps s₀ r := by
  unfold execContextSelect
  refine ⟨_, rfl, ?_⟩
  repeat' (first
    | with_reducible assumption | with_reducible apply State.select_keeps | with_reducible apply State.whenRunning_keeps
    | dsimp only)

theorem State.launchCmd_keeps {s₀ s : State} (h : Keeps s₀ s) (c : Cmd)  : Keeps s₀ (State.launchCmd s c) := by
  unfold State.launchCmd
  repeat' (first
    | with_reducible assumption | with_reducible apply State.makeRunnable_keeps | with_reducible apply State.modCtx_keeps
    | with_reducible apply State.modQueue_keeps | with_reducible apply State.refuseLaunch_keeps
    | with_reducible apply State.select_keeps | with_reducible exact Keeps.fields (by assumption)
    | with_reducible apply Keeps.fields | simp only [Keeps.mk_iff] | intro _ | with_reducible apply Keeps.ite | split
    | dsimp only)

theorem execLaunch_keeps {s₀ s : State} (h : Keeps s₀ s) (q : Nat) : ∃ r, execLaunch q s = .next r ∧ Keeps s₀ r := by
  unfold execLaunch
  refine ⟨_, rfl, ?_⟩
  repeat' (first
    | with_reducible assumption | with_reducible apply State.command_keeps | with_reducible apply State.launchCmd_keeps
    | intro _ | with_reducible apply Keeps.ite | split | dsimp only)

theorem State.releaseClusters_keeps {s₀ s : State} (h : Keeps s₀ s) (n : Nat)  : Keeps s₀ (State.releaseClusters s n) := by
  unfold State.releaseClusters
  repeat' (first
    | with_reducible assumption | with_reducible apply Keeps.foldl | with_reducible apply State.modCl_keeps | intro _
    | dsimp only)

theorem State.stepBoundary_keeps {s₀ s : State} (h : Keeps s₀ s) (p : Nat)  : Keeps s₀ (State.stepBoundary s p) := by
  unfold State.stepBoundary
  repeat' (first
    | with_reducible assumption | with_reducible apply State.countLaunch_keeps
    | with_reducible apply State.rotateSpare_keeps | with_reducible apply State.takeLevel_keeps | dsimp only)

theorem State.endLaunch_keeps {s₀ s : State} (h : Keeps s₀ s) (n : Nat)  : Keeps s₀ (State.endLaunch s n) := by
  unfold State.endLaunch
  repeat' (first
    | with_reducible assumption | with_reducible apply State.closeWindows_keeps
    | with_reducible apply State.completeCmd_keeps | with_reducible apply State.endRestored_keeps
    | with_reducible apply State.modCtx_keeps | with_reducible apply State.refreshRunnable_keeps
    | with_reducible apply State.releaseClusters_keeps | with_reducible apply State.setCstate_keeps
    | with_reducible apply State.stepBoundary_keeps | with_reducible exact Keeps.fields (by assumption)
    | with_reducible apply Keeps.fields | simp only [Keeps.mk_iff] | intro _ | with_reducible apply Keeps.ite | split
    | dsimp only)

theorem State.endStream_keeps {s₀ s : State} (h : Keeps s₀ s) (g : Nat) (n : Nat)  : Keeps s₀ (State.endStream s g n) := by
  unfold State.endStream
  repeat' (first
    | with_reducible assumption | with_reducible apply State.endLaunch_keeps | with_reducible apply State.set_keeps
    | with_reducible apply Keeps.ite | split | dsimp only)

theorem State.park_keeps {s₀ s : State} (h : Keeps s₀ s) (n : Nat) (byPreempt : Bool)  : Keeps s₀ (State.park s n byPreempt) := by
  unfold State.park
  repeat' (first
    | with_reducible assumption | with_reducible apply State.modCtx_keeps | with_reducible apply State.setCstate_keeps
    | with_reducible exact Keeps.fields (by assumption) | with_reducible apply Keeps.fields | simp only [Keeps.mk_iff]
    | intro _ | with_reducible apply Keeps.ite | split | dsimp only)

theorem execQuantumExpiry_keeps {s₀ s : State} (h : Keeps s₀ s) (p : Nat) : ∃ r, execQuantumExpiry p s = .next r ∧ Keeps s₀ r := by
  unfold execQuantumExpiry
  refine ⟨_, rfl, ?_⟩
  repeat' (first
    | with_reducible assumption | with_reducible apply State.park_keeps | with_reducible apply State.whenRunning_keeps
    | with_reducible exact Keeps.fields (by assumption) | with_reducible apply Keeps.fields | simp only [Keeps.mk_iff]
    | with_reducible apply Keeps.ite | split | dsimp only)

theorem State.writeCocoon_keeps {s₀ s : State} (h : Keeps s₀ s) (n : Nat) (bytes : Nat)  : Keeps s₀ (State.writeCocoon s n bytes) := by
  unfold State.writeCocoon
  repeat' (first
    | with_reducible assumption | with_reducible apply Keeps.foldl | with_reducible apply State.veil_keeps
    | with_reducible apply State.violateIf_keeps | intro _ | dsimp only)

theorem State.readMap_keeps {s₀ s : State} (h : Keeps s₀ s) (g : Nat) (n : Nat) (a : Nat)  : Keeps s₀ (State.readMap s g n a).2 := by
  unfold State.readMap
  repeat' (first
    | with_reducible assumption | with_reducible apply State.load_keeps
    | with_reducible refine State.load_keeps' (hE := by assumption) ?_ | with_reducible apply State.violateIf_keeps | split
    | dsimp only)

theorem State.readMap_keeps' {s₀ s : State} (h : Keeps s₀ s) {g : Nat} {n : Nat} {a : Nat}  {rX : _} {rT : State} (hE : State.readMap s g n a = (rX, rT)) : Keeps s₀ rT := by
  have k := State.readMap_keeps (s₀ := s₀) (s := s) h g n a
  rw [hE] at k
  exact k

theorem State.imageOf_keeps {s₀ s : State} (h : Keeps s₀ s) (n : Nat) (g : Nat)  : Keeps s₀ (State.imageOf s n g).2.2 := by
  unfold State.imageOf
  repeat' (first
    | with_reducible assumption | with_reducible apply State.readMap_keeps
    | with_reducible refine State.readMap_keeps' (hE := by assumption) ?_
    | with_reducible exact Keeps.fields (by assumption) | with_reducible apply Keeps.fields | simp only [Keeps.mk_iff]
    | with_reducible apply Keeps.ite | split | dsimp only)

theorem State.imageOf_keeps' {s₀ s : State} (h : Keeps s₀ s) {n : Nat} {g : Nat}  {rX : _} {rY : _} {rT : State} (hE : State.imageOf s n g = (rX, rY, rT)) : Keeps s₀ rT := by
  have k := State.imageOf_keeps (s₀ := s₀) (s := s) h n g
  rw [hE] at k
  exact k

theorem State.imagesOf_keeps {s₀ s : State} (h : Keeps s₀ s) (n : Nat) (gs : List Nat) :
    Keeps s₀ (State.imagesOf s n gs).2.2 := by
  induction gs generalizing s with
  | nil => exact h
  | cons g rest ih => exact ih (State.imageOf_keeps h n g)

theorem State.imagesOf_keeps' {s₀ s : State} (h : Keeps s₀ s) {n : Nat} {gs : List Nat} {x : List Image} {y : Nat} {t : State}
    (hE : State.imagesOf s n gs = (x, y, t)) : Keeps s₀ t := by
  have k := State.imagesOf_keeps h n gs
  rw [hE] at k
  exact k

theorem State.formCocoon_keeps {s₀ s : State} (h : Keeps s₀ s) (n : Nat) (gs : List Nat)  : Keeps s₀ (State.formCocoon s n gs).2 := by
  unfold State.formCocoon
  repeat' (first
    | with_reducible assumption | with_reducible apply State.imagesOf_keeps
    | with_reducible refine State.imagesOf_keeps' (hE := by assumption) ?_ | with_reducible apply State.load_keeps
    | with_reducible refine State.load_keeps' (hE := by assumption) ?_ | intro _ | split | dsimp only)

theorem State.formCocoon_keeps' {s₀ s : State} (h : Keeps s₀ s) {n : Nat} {gs : List Nat}  {rX : _} {rT : State} (hE : State.formCocoon s n gs = (rX, rT)) : Keeps s₀ rT := by
  have k := State.formCocoon_keeps (s₀ := s₀) (s := s) h n gs
  rw [hE] at k
  exact k

theorem execParkDrained_keeps {s₀ s : State} (h : Keeps s₀ s) (n : Nat) : ∃ r, execParkDrained n s = .next r ∧ Keeps s₀ r := by
  unfold execParkDrained
  refine ⟨_, rfl, ?_⟩
  repeat' (first
    | with_reducible assumption | with_reducible apply State.endLaunch_keeps | with_reducible apply State.formCocoon_keeps
    | with_reducible refine State.formCocoon_keeps' (hE := by assumption) ?_ | with_reducible apply State.modCtx_keeps
    | with_reducible apply State.whenRunning_keeps | with_reducible exact Keeps.fields (by assumption)
    | with_reducible apply Keeps.fields | simp only [Keeps.mk_iff] | intro _ | with_reducible apply Keeps.ite | split
    | dsimp only)

theorem execCocoonWritten_keeps {s₀ s : State} (h : Keeps s₀ s) (n : Nat) : ∃ r, execCocoonWritten n s = .next r ∧ Keeps s₀ r := by
  unfold execCocoonWritten
  refine ⟨_, rfl, ?_⟩
  repeat' (first
    | with_reducible assumption | with_reducible apply State.addWrap_keeps | with_reducible apply State.closeUnless_keeps
    | with_reducible apply State.makeRunnable_keeps | with_reducible apply State.modCtx_keeps
    | with_reducible apply State.releaseClusters_keeps | with_reducible apply State.set_keeps
    | with_reducible apply State.setCstate_keeps | with_reducible apply State.whenRunning_keeps
    | with_reducible apply State.writeCocoon_keeps | with_reducible exact Keeps.fields (by assumption)
    | with_reducible apply Keeps.fields | simp only [Keeps.mk_iff] | intro _ | with_reducible apply Keeps.ite | split
    | dsimp only)

theorem State.restoreImage_keeps {s₀ s : State} (h : Keeps s₀ s) (n : Nat) (g : Nat) (idx : Nat) (im : Image)  : Keeps s₀ (State.restoreImage s n g idx im) := by
  unfold State.restoreImage
  repeat' (first
    | with_reducible assumption | with_reducible apply Keeps.foldl | with_reducible apply State.clearRegs_keeps
    | with_reducible apply State.modCl_keeps | with_reducible apply State.setReg_keeps
    | with_reducible exact Keeps.fields (by assumption) | with_reducible apply Keeps.fields | simp only [Keeps.mk_iff]
    | intro _ | dsimp only)

theorem State.rehome_keeps {s₀ s : State} (h : Keeps s₀ s) (n : Nat)  : Keeps s₀ (State.rehome s n) := by
  unfold State.rehome
  repeat' (first
    | with_reducible assumption | with_reducible exact Keeps.fields (by assumption) | with_reducible apply Keeps.fields
    | simp only [Keeps.mk_iff] | intro _ | with_reducible apply Keeps.ite | split | dsimp only)

theorem State.parkForced_keeps {s₀ s : State} (h : Keeps s₀ s) (n : Nat)  : Keeps s₀ (State.parkForced s n) := by
  unfold State.parkForced
  repeat' (first
    | with_reducible assumption | with_reducible apply State.park_keeps | intro _ | with_reducible apply Keeps.ite | split
    | dsimp only)

theorem execCocoonRead_keeps {s₀ s : State} (h : Keeps s₀ s) (n : Nat) : ∃ r, execCocoonRead n s = .next r ∧ Keeps s₀ r := by
  unfold execCocoonRead
  refine ⟨_, rfl, ?_⟩
  repeat' (first
    | with_reducible assumption | with_reducible apply Keeps.foldl | with_reducible apply State.dropCaches_keeps
    | with_reducible apply State.modCtx_keeps | with_reducible apply State.parkForced_keeps
    | with_reducible apply State.readKey_keeps | with_reducible apply State.rehome_keeps
    | with_reducible apply State.restoreImage_keeps | with_reducible apply State.set_keeps
    | with_reducible apply State.setCstate_keeps | with_reducible apply State.whenRunning_keeps
    | with_reducible exact Keeps.fields (by assumption) | with_reducible apply Keeps.fields | simp only [Keeps.mk_iff]
    | intro _ | with_reducible apply Keeps.ite | split | dsimp only)

end Machine

end Sys2Proof
end

