-- ==== Sys2Proof/Laws/KeepsControl.lean ====
section
/-! SUPPORT. Every operation of Machine/Control.lean keeps what Laws/Keeps.lean names. -/

set_option Elab.async false
set_option linter.all false

namespace Sys2Proof

namespace Machine

theorem State.control_keeps {s₀ s : State} (h : Keeps s₀ s) (g : Nat) (op : Nat) (used : Nat) (regs : Nat → List Nat) (body : Fetch → State → State) (hb : ∀ x0 x1, Keeps s₀ x1 → Keeps s₀ (body x0 x1)) : Keeps s₀ (State.control s g op used regs body) := by
  unfold State.control
  repeat' (first
    | with_reducible assumption | with_reducible apply State.issue_keeps | with_reducible apply hb | intro _ | dsimp only)

theorem State.bra_keeps {s₀ s : State} (h : Keeps s₀ s) (g : Nat) (f : Fetch)  : Keeps s₀ (State.bra s g f) := by
  unfold State.bra
  repeat' (first
    | with_reducible assumption | with_reducible apply State.modCl_keeps | with_reducible apply State.reservedCode_keeps
    | with_reducible apply State.set_keeps | with_reducible apply State.tagNow_keeps
    | with_reducible apply State.violateIf_keeps | with_reducible exact Keeps.fields (by assumption)
    | with_reducible apply Keeps.fields | simp only [Keeps.mk_iff] | intro _ | with_reducible apply Keeps.ite | split
    | dsimp only)

theorem execBra_keeps {s₀ s : State} (h : Keeps s₀ s) (g : Nat) : ∃ r, execBra g s = .next r ∧ Keeps s₀ r := by
  unfold execBra
  refine ⟨_, rfl, ?_⟩
  repeat' (first
    | with_reducible assumption | with_reducible apply State.bra_keeps | with_reducible apply State.control_keeps | intro _
    | dsimp only)

theorem State.loop_keeps {s₀ s : State} (h : Keeps s₀ s) (g : Nat) (f : Fetch)  : Keeps s₀ (State.loop s g f) := by
  unfold State.loop
  repeat' (first
    | with_reducible assumption | with_reducible apply State.set_keeps | with_reducible apply State.setSreg_keeps
    | with_reducible apply State.tagNow_keeps | with_reducible apply Keeps.ite | split | dsimp only)

theorem execLoop_keeps {s₀ s : State} (h : Keeps s₀ s) (g : Nat) : ∃ r, execLoop g s = .next r ∧ Keeps s₀ r := by
  unfold execLoop
  refine ⟨_, rfl, ?_⟩
  repeat' (first
    | with_reducible assumption | with_reducible apply State.control_keeps | with_reducible apply State.loop_keeps | intro _
    | dsimp only)

theorem State.waitOn_keeps {s₀ s : State} (h : Keeps s₀ s) (g : Nat) (f : Fetch)  : Keeps s₀ (State.waitOn s g f) := by
  unfold State.waitOn
  repeat' (first
    | with_reducible assumption | with_reducible apply State.modCl_keeps | with_reducible apply State.reservedCode_keeps
    | with_reducible apply State.tagNow_keeps | with_reducible exact Keeps.fields (by assumption)
    | with_reducible apply Keeps.fields | simp only [Keeps.mk_iff] | intro _ | with_reducible apply Keeps.ite | split
    | dsimp only)

theorem execWait_keeps {s₀ s : State} (h : Keeps s₀ s) (g : Nat) : ∃ r, execWait g s = .next r ∧ Keeps s₀ r := by
  unfold execWait
  refine ⟨_, rfl, ?_⟩
  repeat' (first
    | with_reducible assumption | with_reducible apply State.control_keeps | with_reducible apply State.waitOn_keeps
    | intro _ | dsimp only)

theorem execWaitSatisfied_keeps {s₀ s : State} (h : Keeps s₀ s) (g : Nat) : ∃ r, execWaitSatisfied g s = .next r ∧ Keeps s₀ r := by
  unfold execWaitSatisfied
  refine ⟨_, rfl, ?_⟩
  repeat' (first
    | with_reducible assumption | with_reducible apply State.addTag_keeps | with_reducible apply State.modCl_keeps
    | with_reducible apply State.waitCycles_keeps | with_reducible exact Keeps.fields (by assumption)
    | with_reducible apply Keeps.fields | simp only [Keeps.mk_iff] | intro _ | with_reducible apply Keeps.ite | split
    | dsimp only)

theorem State.signalIssue_keeps {s₀ s : State} (h : Keeps s₀ s) (g : Nat) (f : Fetch)  : Keeps s₀ (State.signalIssue s g f) := by
  unfold State.signalIssue
  repeat' (first
    | with_reducible assumption | with_reducible apply State.launchFlight_keeps
    | with_reducible refine State.launchFlight_keeps' (hE := by assumption) ?_
    | with_reducible apply State.reservedCode_keeps | with_reducible apply State.violateIf_keeps
    | with_reducible exact Keeps.fields (by assumption) | with_reducible apply Keeps.fields | simp only [Keeps.mk_iff]
    | with_reducible apply Keeps.ite | split | dsimp only)

theorem execSignal_keeps {s₀ s : State} (h : Keeps s₀ s) (g : Nat) : ∃ r, execSignal g s = .next r ∧ Keeps s₀ r := by
  unfold execSignal
  refine ⟨_, rfl, ?_⟩
  repeat' (first
    | with_reducible assumption | with_reducible apply State.control_keeps | with_reducible apply State.signalIssue_keeps
    | intro _ | dsimp only)

theorem State.complete_keeps {s₀ s : State} (h : Keeps s₀ s) (i : Nat) (f : Flight)  : Keeps s₀ (State.complete s i f) := by
  unfold State.complete
  repeat' (first
    | with_reducible assumption | with_reducible apply State.settle_keeps
    | with_reducible exact Keeps.fields (by assumption) | with_reducible apply Keeps.fields | simp only [Keeps.mk_iff]
    | dsimp only)

theorem execSignalRelease_keeps {s₀ s : State} (h : Keeps s₀ s) (i : Nat) : ∃ r, execSignalRelease i s = .next r ∧ Keeps s₀ r := by
  unfold execSignalRelease
  refine ⟨_, rfl, ?_⟩
  repeat' (first
    | with_reducible assumption | with_reducible apply State.complete_keeps | with_reducible apply State.whenRunning_keeps
    | with_reducible exact Keeps.fields (by assumption) | with_reducible apply Keeps.fields | simp only [Keeps.mk_iff]
    | with_reducible apply Keeps.ite | split | dsimp only)

theorem State.yieldAt_keeps {s₀ s : State} (h : Keeps s₀ s) (g : Nat) (f : Fetch)  : Keeps s₀ (State.yieldAt s g f) := by
  unfold State.yieldAt
  repeat' (first
    | with_reducible assumption | with_reducible apply State.modCl_keeps | with_reducible apply State.tagNow_keeps
    | with_reducible exact Keeps.fields (by assumption) | with_reducible apply Keeps.fields | simp only [Keeps.mk_iff]
    | intro _ | with_reducible apply Keeps.ite | split | dsimp only)

theorem execYield_keeps {s₀ s : State} (h : Keeps s₀ s) (g : Nat) : ∃ r, execYield g s = .next r ∧ Keeps s₀ r := by
  unfold execYield
  refine ⟨_, rfl, ?_⟩
  repeat' (first
    | with_reducible assumption | with_reducible apply State.control_keeps | with_reducible apply State.yieldAt_keeps
    | intro _ | with_reducible apply Keeps.ite | split | dsimp only)

theorem State.beginRelease_keeps {s₀ s : State} (h : Keeps s₀ s) (n : Nat) (st : Nat) (domain : Bool)  : Keeps s₀ (State.beginRelease s n st domain) := by
  unfold State.beginRelease
  repeat' (first
    | with_reducible assumption | with_reducible apply State.modCtx_keeps
    | with_reducible exact Keeps.fields (by assumption) | with_reducible apply Keeps.fields | simp only [Keeps.mk_iff]
    | intro _ | dsimp only)

theorem State.barrierAt_keeps {s₀ s : State} (h : Keeps s₀ s) (g : Nat) (f : Fetch)  : Keeps s₀ (State.barrierAt s g f) := by
  unfold State.barrierAt
  repeat' (first
    | with_reducible assumption | with_reducible apply State.beginRelease_keeps | with_reducible apply State.modCl_keeps
    | with_reducible exact Keeps.fields (by assumption) | with_reducible apply Keeps.fields | simp only [Keeps.mk_iff]
    | intro _ | with_reducible apply Keeps.ite | split | dsimp only)

theorem execBarrier_keeps {s₀ s : State} (h : Keeps s₀ s) (g : Nat) : ∃ r, execBarrier g s = .next r ∧ Keeps s₀ r := by
  unfold execBarrier
  refine ⟨_, rfl, ?_⟩
  repeat' (first
    | with_reducible assumption | with_reducible apply State.barrierAt_keeps | with_reducible apply State.issue_keeps
    | with_reducible apply State.reservedCode_keeps | intro _ | with_reducible apply Keeps.ite | split | dsimp only)

theorem State.releaseOne_keeps {s₀ s : State} (h : Keeps s₀ s) (n : Nat) (st : Nat) (g : Nat)  : Keeps s₀ (State.releaseOne s n st g) := by
  unfold State.releaseOne
  repeat' (first
    | with_reducible assumption | with_reducible apply State.addTag_keeps | with_reducible apply State.modCl_keeps
    | with_reducible apply State.recordFail_keeps | with_reducible apply State.setSreg_keeps
    | with_reducible apply State.waitCycles_keeps | with_reducible exact Keeps.fields (by assumption)
    | with_reducible apply Keeps.fields | simp only [Keeps.mk_iff] | intro _ | with_reducible apply Keeps.ite | split
    | dsimp only)

theorem State.consumeToken_keeps {s₀ s : State} (h : Keeps s₀ s) : Keeps s₀ (State.consumeToken s) := by
  unfold State.consumeToken
  split
  · exact h.withStp fun _ => Nat.le_refl _
  · exact h

theorem execBarrierWave_keeps {s₀ s : State} (h : Keeps s₀ s) (p : Nat) : ∃ r, execBarrierWave p s = .next r ∧ Keeps s₀ r := by
  unfold execBarrierWave
  refine ⟨_, rfl, ?_⟩
  repeat' (first
    | with_reducible assumption | with_reducible apply Keeps.foldl | with_reducible apply State.consumeToken_keeps
    | with_reducible apply State.modCtx_keeps | with_reducible apply State.releaseOne_keeps
    | with_reducible apply State.whenRunning_keeps | with_reducible exact Keeps.fields (by assumption)
    | with_reducible apply Keeps.fields | simp only [Keeps.mk_iff] | intro _ | with_reducible apply Keeps.ite | split
    | dsimp only)

theorem State.tryEnd_keeps {s₀ s : State} (h : Keeps s₀ s) (g : Nat) (n : Nat)  : Keeps s₀ (State.tryEnd s g n) := by
  unfold State.tryEnd
  repeat' (first
    | with_reducible assumption | with_reducible apply State.addTag_keeps | with_reducible apply State.endStream_keeps
    | with_reducible exact Keeps.fields (by assumption) | with_reducible apply Keeps.fields | simp only [Keeps.mk_iff]
    | with_reducible apply Keeps.ite | split | dsimp only)

theorem State.haltAt_keeps {s₀ s : State} (h : Keeps s₀ s) (g : Nat) (f : Fetch)  : Keeps s₀ (State.haltAt s g f) := by
  unfold State.haltAt
  repeat' (first
    | with_reducible assumption | with_reducible apply State.modCl_keeps | with_reducible apply State.tryEnd_keeps
    | with_reducible apply State.violateIf_keeps | with_reducible exact Keeps.fields (by assumption)
    | with_reducible apply Keeps.fields | simp only [Keeps.mk_iff] | intro _ | with_reducible apply Keeps.ite | split
    | dsimp only)

theorem execHalt_keeps {s₀ s : State} (h : Keeps s₀ s) (g : Nat) : ∃ r, execHalt g s = .next r ∧ Keeps s₀ r := by
  unfold execHalt
  refine ⟨_, rfl, ?_⟩
  repeat' (first
    | with_reducible assumption | with_reducible apply State.control_keeps | with_reducible apply State.haltAt_keeps
    | intro _ | with_reducible apply Keeps.ite | split | dsimp only)

theorem execStreamEnd_keeps {s₀ s : State} (h : Keeps s₀ s) (g : Nat) : ∃ r, execStreamEnd g s = .next r ∧ Keeps s₀ r := by
  unfold execStreamEnd
  refine ⟨_, rfl, ?_⟩
  repeat' (first
    | with_reducible assumption | with_reducible apply State.tryEnd_keeps
    | with_reducible exact Keeps.fields (by assumption) | with_reducible apply Keeps.fields | simp only [Keeps.mk_iff]
    | with_reducible apply Keeps.ite | split | dsimp only)

theorem State.reservedOp_keeps {s₀ s : State} (h : Keeps s₀ s) (g : Nat) (f : Fetch) (hf : Keeps s₀ f.st) :
    Keeps s₀ (State.reservedOp s g f) := by
  unfold State.reservedOp
  repeat' (first
    | exact hf
    | with_reducible apply State.addTag_keeps
    | with_reducible apply State.modCl_keeps
    | with_reducible apply State.violateIf_keeps
    | with_reducible apply Fetch.begin_keeps
    | dsimp only)

theorem execReservedOpcode_keeps {s₀ s : State} (h : Keeps s₀ s) (g : Nat) :
    ∃ r, execReservedOpcode g s = .next r ∧ Keeps s₀ r := by
  refine ⟨_, rfl, ?_⟩
  split
  · exact h
  · next f hE =>
    split
    · exact h
    · exact State.reservedOp_keeps h g f (State.fetchInstr_keeps h hE)

theorem execReservedRunHalt_keeps {s₀ s : State} (h : Keeps s₀ s) (g : Nat) : ∃ r, execReservedRunHalt g s = .next r ∧ Keeps s₀ r := by
  unfold execReservedRunHalt
  refine ⟨_, rfl, ?_⟩
  repeat' (first
    | with_reducible assumption | with_reducible apply State.modCl_keeps | with_reducible apply State.tryEnd_keeps
    | with_reducible exact Keeps.fields (by assumption) | with_reducible apply Keeps.fields | simp only [Keeps.mk_iff]
    | intro _ | with_reducible apply Keeps.ite | split | dsimp only)

end Machine

end Sys2Proof
end

