-- ==== Sys2Proof/Laws/KeepsLink.lean ====
section
/-! SUPPORT. Every operation of Machine/Link.lean keeps what Laws/Keeps.lean names. -/

set_option Elab.async false
set_option linter.all false

namespace Sys2Proof

namespace Machine

theorem State.setPort_keeps {s₀ s : State} (h : Keeps s₀ s) (m : Nat) (p : Port) (hp : creditsBalance s.ports → p.Balanced) :
    Keeps s₀ (State.setPort s m p) :=
  h.withPorts fun w => Tab.all_put (hp w) w m

theorem State.modPort_keeps {s₀ s : State} (h : Keeps s₀ s) (m : Nat) (f : Port → Port)
    (hf : ∀ p : Port, p.Balanced → (f p).Balanced) : Keeps s₀ (State.modPort s m f) :=
  State.setPort_keeps h m _ fun w => hf _ (State.port_balanced w m)

theorem State.setLink_keeps {s₀ s : State} (h : Keeps s₀ s) (m : Nat) (st : Nat)  : Keeps s₀ (State.setLink s m st) := by
  unfold State.setLink
  repeat' (first
    | with_reducible assumption | with_reducible apply State.set_keeps | dsimp only)

theorem State.takeParcel_keeps {s₀ s : State} (h : Keeps s₀ s) {m : Nat} {f : Parcel → Bool} {x : Parcel} {t : State}
    (hE : State.takeParcel s m f = some (x, t)) : Keeps s₀ t := by
  unfold State.takeParcel at hE
  split at hE
  · cases hE
  · cases hE
    exact State.modPort_keeps h _ _ fun _ k => k.free _

theorem State.mdlViolate_keeps {s₀ s : State} (h : Keeps s₀ s)   : Keeps s₀ (State.mdlViolate s) := by
  unfold State.mdlViolate
  repeat' (first
    | with_reducible assumption | with_reducible apply State.violate_keeps | dsimp only)

theorem State.onPacket_keeps {s₀ s : State} (h : Keeps s₀ s) (m : Nat) (op : Nat) (want : State → Packet → Bool) (body : Packet → State → State) (hb : ∀ x0 x1, Keeps s₀ x1 → Keeps s₀ (body x0 x1)) : Keeps s₀ (State.onPacket s m op want body) := by
  unfold State.onPacket
  repeat' (first
    | with_reducible assumption | with_reducible refine State.takeParcel_keeps (hE := by assumption) ?_
    | with_reducible apply hb | with_reducible exact Keeps.fields (by assumption) | with_reducible apply Keeps.fields
    | simp only [Keeps.mk_iff] | intro _ | split | dsimp only)

theorem State.pump_keeps {s₀ s : State} (h : Keeps s₀ s) (m : Nat)  : Keeps s₀ (State.pump s m) := by
  unfold State.pump
  repeat' (first
    | with_reducible assumption | exact fun _ => Port.Balanced.blank | exact fun _ k => k | exact fun _ k => k.free _
    | exact fun _ k => k.pump _ | exact fun _ k => k.setLane _ ⟨(k.lane _).issued, (k.lane _).spent⟩
    | exact fun k => State.port_balanced k _ | with_reducible apply State.modPort_keeps | intro _
    | with_reducible apply Keeps.ite | split | dsimp only)

theorem State.sendOn_keeps {s₀ s : State} (h : Keeps s₀ s) (m : Nat) (v : Nat) (part : Option Nat) (bytes : List Byte)  : Keeps s₀ (State.sendOn s m v part bytes).1 := by
  unfold State.sendOn
  repeat' (first
    | with_reducible assumption | exact fun _ => Port.Balanced.blank | exact fun _ k => k | exact fun _ k => k.free _
    | exact fun _ k => k.pump _ | exact fun _ k => k.setLane _ ⟨(k.lane _).issued, (k.lane _).spent⟩
    | exact fun k => State.port_balanced k _ | with_reducible apply State.modPort_keeps
    | with_reducible apply State.pump_keeps | with_reducible exact Keeps.fields (by assumption)
    | with_reducible apply Keeps.fields | simp only [Keeps.mk_iff] | intro _ | with_reducible apply Keeps.ite | split
    | dsimp only)

theorem State.sendOn_keeps' {s₀ s : State} (h : Keeps s₀ s) {m : Nat} {v : Nat} {part : Option Nat} {bytes : List Byte}  {rX : _} {rT : State} (hE : State.sendOn s m v part bytes = (rT, rX)) : Keeps s₀ rT := by
  have k := State.sendOn_keeps (s₀ := s₀) (s := s) h m v part bytes
  rw [hE] at k
  exact k

theorem State.send_keeps {s₀ s : State} (h : Keeps s₀ s) (part : Option Nat) (p : Packet)  : Keeps s₀ (State.send s part p).1 := by
  unfold State.send
  repeat' (first
    | with_reducible assumption | exact fun _ => Port.Balanced.blank | exact fun _ k => k | exact fun _ k => k.free _
    | exact fun _ k => k.pump _ | exact fun _ k => k.setLane _ ⟨(k.lane _).issued, (k.lane _).spent⟩
    | exact fun k => State.port_balanced k _ | with_reducible apply State.mdlViolate_keeps
    | with_reducible apply State.modPort_keeps | with_reducible apply State.sendOn_keeps
    | with_reducible refine State.sendOn_keeps' (hE := by assumption) ?_ | with_reducible exact Keeps.fields (by assumption)
    | with_reducible apply Keeps.fields | simp only [Keeps.mk_iff] | intro _ | with_reducible apply Keeps.ite | split
    | dsimp only)

theorem State.send_keeps' {s₀ s : State} (h : Keeps s₀ s) {part : Option Nat} {p : Packet}  {rX : _} {rT : State} (hE : State.send s part p = (rT, rX)) : Keeps s₀ rT := by
  have k := State.send_keeps (s₀ := s₀) (s := s) h part p
  rw [hE] at k
  exact k

theorem State.messageFor_keeps {s₀ s : State} (h : Keeps s₀ s) (part : Option Nat) (dst : Nat) (op : Nat) (arg : Nat) (last : Bool) (data : List Byte)  : Keeps s₀ (State.messageFor s part dst op arg last data).1 := by
  unfold State.messageFor
  repeat' (first
    | with_reducible assumption | with_reducible apply State.send_keeps
    | with_reducible refine State.send_keeps' (hE := by assumption) ?_ | dsimp only)

theorem State.messageFor_keeps' {s₀ s : State} (h : Keeps s₀ s) {part : Option Nat} {dst : Nat} {op : Nat} {arg : Nat} {last : Bool} {data : List Byte}  {rX : _} {rT : State} (hE : State.messageFor s part dst op arg last data = (rT, rX)) : Keeps s₀ rT := by
  have k := State.messageFor_keeps (s₀ := s₀) (s := s) h part dst op arg last data
  rw [hE] at k
  exact k

theorem State.message_keeps {s₀ s : State} (h : Keeps s₀ s) (dst : Nat) (op : Nat) (arg : Nat) (last : Bool) (data : List Byte)  : Keeps s₀ (State.message s dst op arg last data).1 := by
  unfold State.message
  repeat' (first
    | with_reducible assumption | with_reducible apply State.messageFor_keeps
    | with_reducible refine State.messageFor_keeps' (hE := by assumption) ?_ | dsimp only)

theorem State.message_keeps' {s₀ s : State} (h : Keeps s₀ s) {dst : Nat} {op : Nat} {arg : Nat} {last : Bool} {data : List Byte}  {rX : _} {rT : State} (hE : State.message s dst op arg last data = (rT, rX)) : Keeps s₀ rT := by
  have k := State.message_keeps (s₀ := s₀) (s := s) h dst op arg last data
  rw [hE] at k
  exact k

theorem State.tell_keeps {s₀ s : State} (h : Keeps s₀ s) (dst : Nat) (op : Nat) (arg : Nat) (data : List Byte)  : Keeps s₀ (State.tell s dst op arg data) := by
  unfold State.tell
  repeat' (first
    | with_reducible assumption | with_reducible apply State.message_keeps
    | with_reducible refine State.message_keeps' (hE := by assumption) ?_ | dsimp only)

theorem State.receiveData_keeps {s₀ s : State} (h : Keeps s₀ s) (m : Nat) (fu : List Byte) :
    Keeps s₀ (State.receiveData s m fu) := by
  have key : ∀ (v : Nat) (f : Fu) (e : Nat), Keeps s₀ (s.setPort m ({ s.port m with expect := e }.assemble v f).1) := fun v f e =>
    State.setPort_keeps h _ _ fun w => Port.Balanced.assemble (p := { s.port m with expect := e }) (State.port_balanced w m) _ _
  unfold State.receiveData
  dsimp only
  split
  · split
    · exact State.mdlViolate_keeps (key _ _ _)
    · exact key _ _ _
  · split
    · exact h
    · split
      · exact State.modPort_keeps h _ (fun p => { p with nak := true }) fun _ k => k
      · exact State.addSat_keeps (State.modPort_keeps h _ (fun p => { p with nak := true }) fun _ k => k) _ _ _ _

theorem execDataFu_keeps {s₀ s : State} (h : Keeps s₀ s) (m : Nat) (fu : List Byte) : ∃ r, execDataFu m fu s = .next r ∧ Keeps s₀ r := by
  unfold execDataFu
  refine ⟨_, rfl, ?_⟩
  repeat' (first
    | with_reducible assumption | with_reducible apply State.receiveData_keeps | with_reducible apply Keeps.ite | split
    | dsimp only)

theorem execReservedFu_keeps {s₀ s : State} (h : Keeps s₀ s) (m : Nat) (fu : List Byte) : ∃ r, execReservedFu m fu s = .next r ∧ Keeps s₀ r := by
  unfold execReservedFu
  refine ⟨_, rfl, ?_⟩
  repeat' (first
    | with_reducible assumption | with_reducible apply State.mdlViolate_keeps | with_reducible apply Keeps.ite | split
    | dsimp only)

theorem execMalformedPacket_keeps {s₀ s : State} (h : Keeps s₀ s) (m : Nat) : ∃ r, execMalformedPacket m s = .next r ∧ Keeps s₀ r := by
  unfold execMalformedPacket
  refine ⟨_, rfl, ?_⟩
  repeat' (first
    | with_reducible assumption | with_reducible apply State.mdlViolate_keeps
    | with_reducible refine State.takeParcel_keeps (hE := by assumption) ?_
    | with_reducible exact Keeps.fields (by assumption) | with_reducible apply Keeps.fields | simp only [Keeps.mk_iff]
    | intro _ | split | dsimp only)

theorem execPacketForward_keeps {s₀ s : State} (h : Keeps s₀ s) (m : Nat) : ∃ r, execPacketForward m s = .next r ∧ Keeps s₀ r := by
  unfold execPacketForward
  refine ⟨_, rfl, ?_⟩
  repeat' (first
    | with_reducible assumption | with_reducible apply State.mdlViolate_keeps | with_reducible apply State.sendOn_keeps
    | with_reducible refine State.sendOn_keeps' (hE := by assumption) ?_
    | with_reducible refine State.takeParcel_keeps (hE := by assumption) ?_
    | with_reducible exact Keeps.fields (by assumption) | with_reducible apply Keeps.fields | simp only [Keeps.mk_iff]
    | intro _ | split | dsimp only)

theorem execControlFuSend_keeps {s₀ s : State} (h : Keeps s₀ s) (m : Nat) : ∃ r, execControlFuSend m s = .next r ∧ Keeps s₀ r := by
  unfold execControlFuSend
  refine ⟨_, rfl, ?_⟩
  repeat' (first
    | with_reducible assumption | exact fun _ => Port.Balanced.blank | exact fun _ k => k | exact fun _ k => k.free _
    | exact fun _ k => k.pump _ | exact fun _ k => k.setLane _ ⟨(k.lane _).issued, (k.lane _).spent⟩
    | exact fun k => State.port_balanced k _ | with_reducible apply State.modPort_keeps
    | with_reducible exact Keeps.fields (by assumption) | with_reducible apply Keeps.fields | simp only [Keeps.mk_iff]
    | intro _ | with_reducible apply Keeps.ite | split | dsimp only)

theorem State.tryUp_keeps {s₀ s : State} (h : Keeps s₀ s) (m : Nat) : Keeps s₀ (State.tryUp s m) := by
  unfold State.tryUp
  split
  · exact h
  · split
    · exact h
    · refine State.setLink_keeps (State.setPort_keeps h _ _ fun _ l hl => ?_) _ _
      obtain ⟨v, _, rfl⟩ := List.mem_map.mp hl
      exact ⟨rfl, rfl⟩

theorem State.startTraining_keeps {s₀ s : State} (h : Keeps s₀ s) (m : Nat)  : Keeps s₀ (State.startTraining s m) := by
  unfold State.startTraining
  repeat' (first
    | with_reducible assumption | exact fun _ => Port.Balanced.blank | exact fun _ k => k | exact fun _ k => k.free _
    | exact fun _ k => k.pump _ | exact fun _ k => k.setLane _ ⟨(k.lane _).issued, (k.lane _).spent⟩
    | exact fun k => State.port_balanced k _ | with_reducible apply State.setLink_keeps
    | with_reducible apply State.setPort_keeps | dsimp only)

theorem execLaneTrainingDone_keeps {s₀ s : State} (h : Keeps s₀ s) (m : Nat) (lanes : Nat) : ∃ r, execLaneTrainingDone m lanes s = .next r ∧ Keeps s₀ r := by
  unfold execLaneTrainingDone
  refine ⟨_, rfl, ?_⟩
  repeat' (first
    | with_reducible assumption | exact fun _ => Port.Balanced.blank | exact fun _ k => k | exact fun _ k => k.free _
    | exact fun _ k => k.pump _ | exact fun _ k => k.setLane _ ⟨(k.lane _).issued, (k.lane _).spent⟩
    | exact fun k => State.port_balanced k _ | with_reducible apply State.modPort_keeps
    | with_reducible apply State.set_keeps | with_reducible apply State.tryUp_keeps
    | with_reducible exact Keeps.fields (by assumption) | with_reducible apply Keeps.fields | simp only [Keeps.mk_iff]
    | intro _ | with_reducible apply Keeps.ite | split | dsimp only)

theorem execTrainingTimeout_keeps {s₀ s : State} (h : Keeps s₀ s) (m : Nat) : ∃ r, execTrainingTimeout m s = .next r ∧ Keeps s₀ r := by
  unfold execTrainingTimeout
  refine ⟨_, rfl, ?_⟩
  repeat' (first
    | with_reducible assumption | exact fun _ => Port.Balanced.blank | exact fun _ k => k | exact fun _ k => k.free _
    | exact fun _ k => k.pump _ | exact fun _ k => k.setLane _ ⟨(k.lane _).issued, (k.lane _).spent⟩
    | exact fun k => State.port_balanced k _ | with_reducible apply State.addSat_keeps
    | with_reducible apply State.setLink_keeps | with_reducible apply State.setPort_keeps | with_reducible apply Keeps.ite
    | split | dsimp only)

theorem execDownRetry_keeps {s₀ s : State} (h : Keeps s₀ s) (m : Nat) : ∃ r, execDownRetry m s = .next r ∧ Keeps s₀ r := by
  unfold execDownRetry
  refine ⟨_, rfl, ?_⟩
  repeat' (first
    | with_reducible assumption | with_reducible apply State.startTraining_keeps | with_reducible apply Keeps.ite | split
    | dsimp only)

theorem State.clearPort_keeps {s₀ s : State} (h : Keeps s₀ s) (m : Nat)  : Keeps s₀ (State.clearPort s m) := by
  unfold State.clearPort
  repeat' (first
    | with_reducible assumption | exact fun _ => Port.Balanced.blank | exact fun _ k => k | exact fun _ k => k.free _
    | exact fun _ k => k.pump _ | exact fun _ k => k.setLane _ ⟨(k.lane _).issued, (k.lane _).spent⟩
    | exact fun k => State.port_balanced k _ | with_reducible apply State.setLink_keeps
    | with_reducible apply State.setPort_keeps | dsimp only)

theorem State.rebuildCredits_keeps {s₀ s : State} (h : Keeps s₀ s) (p : Nat) : Keeps s₀ (State.rebuildCredits s p) :=
  h.withPorts fun w => w.rebuild p

end Machine

end Sys2Proof
end

