-- ==== Sys2Proof/Laws/KeepsMovement.lean ====
section
/-! SUPPORT. Every operation of Machine/Movement.lean keeps what Laws/Keeps.lean names. -/

set_option Elab.async false
set_option linter.all false

namespace Sys2Proof

namespace Machine

theorem State.meet_keeps {s₀ s : State} (h : Keeps s₀ s) (g : Nat) (es : List FaultIn)  : Keeps s₀ (State.meet s g es) := by
  unfold State.meet
  repeat' (first
    | with_reducible assumption | with_reducible apply State.detect_keeps | dsimp only)

theorem State.tload_keeps {s₀ s : State} (h : Keeps s₀ s) (j : Job)  : Keeps s₀ (State.tload s j) := by
  unfold State.tload
  repeat' (first
    | with_reducible assumption | with_reducible apply State.dropFormat_keeps
    | with_reducible apply State.dropReserved_keeps | with_reducible apply State.gather_keeps
    | with_reducible refine State.gather_keeps' (hE := by assumption) ?_ | with_reducible apply State.markReady_keeps
    | with_reducible apply State.writeTileRuns_keeps | with_reducible apply Keeps.ite | split | dsimp only)

theorem execTload_keeps {s₀ s : State} (h : Keeps s₀ s) (g : Nat) (events : List FaultIn) : ∃ r, execTload g events s = .next r ∧ Keeps s₀ r := by
  unfold execTload
  refine ⟨_, rfl, ?_⟩
  repeat' (first
    | with_reducible assumption | with_reducible apply State.issueData_keeps | with_reducible apply State.meet_keeps
    | with_reducible apply State.tload_keeps | intro _ | dsimp only)

theorem State.tloadScalar_keeps {s₀ s : State} (h : Keeps s₀ s) (j : Job)  : Keeps s₀ (State.tloadScalar s j) := by
  unfold State.tloadScalar
  repeat' (first
    | with_reducible assumption | with_reducible apply Keeps.foldl | with_reducible apply Keeps.foldl_fst
    | with_reducible apply Keeps.foldl_snd | with_reducible apply Keeps.foldl_mid | with_reducible apply Keeps.foldl_last
    | with_reducible apply State.dropReserved_keeps | with_reducible apply State.load_keeps
    | with_reducible refine State.load_keeps' (hE := by assumption) ?_ | with_reducible apply State.modFlight_keeps
    | with_reducible apply State.setSreg_keeps | with_reducible apply State.violateIf_keeps
    | with_reducible exact Keeps.fields (by assumption) | with_reducible apply Keeps.fields | simp only [Keeps.mk_iff]
    | intro _ | with_reducible apply Keeps.ite | split | dsimp only)

theorem execTloadScalar_keeps {s₀ s : State} (h : Keeps s₀ s) (g : Nat) (events : List FaultIn) : ∃ r, execTloadScalar g events s = .next r ∧ Keeps s₀ r := by
  unfold execTloadScalar
  refine ⟨_, rfl, ?_⟩
  repeat' (first
    | with_reducible assumption | with_reducible apply State.issueData_keeps | with_reducible apply State.meet_keeps
    | with_reducible apply State.tloadScalar_keeps | intro _ | with_reducible apply Keeps.ite | split | dsimp only)

theorem State.tstore_keeps {s₀ s : State} (h : Keeps s₀ s) (j : Job)  : Keeps s₀ (State.tstore s j) := by
  unfold State.tstore
  repeat' (first
    | with_reducible assumption | with_reducible apply State.dropFormat_keeps
    | with_reducible apply State.dropReserved_keeps | with_reducible apply State.markReady_keeps
    | with_reducible apply State.readTile_keeps | with_reducible refine State.readTile_keeps' (hE := by assumption) ?_
    | with_reducible apply State.scatter_keeps | with_reducible apply State.violate_keeps | with_reducible apply Keeps.ite
    | split | dsimp only)

theorem execTstore_keeps {s₀ s : State} (h : Keeps s₀ s) (g : Nat) (events : List FaultIn) : ∃ r, execTstore g events s = .next r ∧ Keeps s₀ r := by
  unfold execTstore
  refine ⟨_, rfl, ?_⟩
  repeat' (first
    | with_reducible assumption | with_reducible apply State.issueData_keeps | with_reducible apply State.meet_keeps
    | with_reducible apply State.tstore_keeps | intro _ | dsimp only)

theorem State.txfer_keeps {s₀ s : State} (h : Keeps s₀ s) (j : Job)  : Keeps s₀ (State.txfer s j) := by
  unfold State.txfer
  repeat' (first
    | with_reducible assumption | with_reducible apply State.dropReserved_keeps | with_reducible apply State.modCl_keeps
    | with_reducible apply State.modFlight_keeps | with_reducible apply State.readTile_keeps
    | with_reducible refine State.readTile_keeps' (hE := by assumption) ?_ | with_reducible apply State.violateIf_keeps
    | with_reducible exact Keeps.fields (by assumption) | with_reducible apply Keeps.fields | simp only [Keeps.mk_iff]
    | intro _ | with_reducible apply Keeps.ite | split | dsimp only)

theorem execTxfer_keeps {s₀ s : State} (h : Keeps s₀ s) (g : Nat) (events : List FaultIn) : ∃ r, execTxfer g events s = .next r ∧ Keeps s₀ r := by
  unfold execTxfer
  refine ⟨_, rfl, ?_⟩
  repeat' (first
    | with_reducible assumption | with_reducible apply State.issueData_keeps | with_reducible apply State.meet_keeps
    | with_reducible apply State.txfer_keeps | intro _ | dsimp only)

theorem State.transSource_keeps {s₀ s : State} (h : Keeps s₀ s) (j : Job) : Keeps s₀ (State.transSource s j).2 := by
  unfold State.transSource
  dsimp only
  split
  · dsimp only
    exact State.readTile_keeps h _ _ _ _ _
  · split
    · dsimp only
      exact State.readElems_keeps h _ _ _ _ _
    · dsimp only
      exact State.gather_keeps h _ _ _ _

theorem State.transSource_keeps' {s₀ s : State} (h : Keeps s₀ s) {j : Job} {x : _} {t : State}
    (hE : State.transSource s j = (x, t)) : Keeps s₀ t := by
  have k := State.transSource_keeps h j
  rw [hE] at k
  exact k

theorem State.ttrans_keeps {s₀ s : State} (h : Keeps s₀ s) (j : Job)  : Keeps s₀ (State.ttrans s j) := by
  unfold State.ttrans
  repeat' (first
    | with_reducible assumption | with_reducible apply State.addSat_keeps | with_reducible apply State.dropFormat_keeps
    | with_reducible apply State.dropReserved_keeps | with_reducible apply State.markReady_keeps
    | with_reducible apply State.transSource_keeps | with_reducible refine State.transSource_keeps' (hE := by assumption) ?_
    | with_reducible apply State.writeTileRuns_keeps | with_reducible apply Keeps.ite | split | dsimp only)

theorem execTtrans_keeps {s₀ s : State} (h : Keeps s₀ s) (g : Nat) (events : List FaultIn) : ∃ r, execTtrans g events s = .next r ∧ Keeps s₀ r := by
  unfold execTtrans
  refine ⟨_, rfl, ?_⟩
  repeat' (first
    | with_reducible assumption | with_reducible apply State.issueData_keeps | with_reducible apply State.meet_keeps
    | with_reducible apply State.ttrans_keeps | intro _ | dsimp only)

end Machine

end Sys2Proof
end

