-- ==== Sys2Proof/Laws/KeepsCollective.lean ====
section
/-! SUPPORT. Every operation of Machine/Collective.lean keeps what Laws/Keeps.lean names. -/

set_option Elab.async false
set_option linter.all false

namespace Sys2Proof

namespace Machine

theorem State.planRecord_keeps {s₀ s : State} (h : Keeps s₀ s) (n : Nat) (plan : Nat)  : Keeps s₀ (State.planRecord s n plan).2 := by
  unfold State.planRecord
  repeat' (first
    | with_reducible assumption | with_reducible apply State.load_keeps
    | with_reducible refine State.load_keeps' (hE := by assumption) ?_ | dsimp only)

theorem State.planRecord_keeps' {s₀ s : State} (h : Keeps s₀ s) {n : Nat} {plan : Nat}  {rX : _} {rT : State} (hE : State.planRecord s n plan = (rX, rT)) : Keeps s₀ rT := by
  have k := State.planRecord_keeps (s₀ := s₀) (s := s) h n plan
  rw [hE] at k
  exact k

theorem State.setColl_keeps {s₀ s : State} (h : Keeps s₀ s) (i : Nat) (c : Coll)  : Keeps s₀ (State.setColl s i c) := by
  unfold State.setColl
  repeat' (first
    | with_reducible assumption | with_reducible exact Keeps.fields (by assumption) | with_reducible apply Keeps.fields
    | simp only [Keeps.mk_iff] | dsimp only)

theorem State.dropColl_keeps {s₀ s : State} (h : Keeps s₀ s) (i : Nat)  : Keeps s₀ (State.dropColl s i) := by
  unfold State.dropColl
  repeat' (first
    | with_reducible assumption | with_reducible exact Keeps.fields (by assumption) | with_reducible apply Keeps.fields
    | simp only [Keeps.mk_iff] | dsimp only)

theorem State.recordVoted_keeps {s₀ s : State} (h : Keeps s₀ s) (c : Coll) (ok : Bool) : Keeps s₀ (State.recordVoted s c ok) := by
  have a : ∀ v, Keeps s₀ { s with stp := { s.stp with voted := v } } := fun _ => h.withStp fun k => k
  unfold State.recordVoted
  split
  · exact h
  · generalize c.final.getD (0, 0) = x
    obtain ⟨n, d⟩ := x
    dsimp only
    split <;> split <;> first | exact (a _).withStp fun k => k | exact h.withStp fun k => k | exact a _ | exact h

theorem State.endColl_keeps {s₀ s : State} (h : Keeps s₀ s) (i : Nat) (st : Nat)  : Keeps s₀ (State.endColl s i st) := by
  unfold State.endColl
  repeat' (first
    | with_reducible assumption | with_reducible apply State.dropColl_keeps | with_reducible apply State.finishFlight_keeps
    | with_reducible apply State.recordVoted_keeps | with_reducible apply State.setColl_keeps
    | with_reducible exact Keeps.fields (by assumption) | with_reducible apply Keeps.fields | simp only [Keeps.mk_iff]
    | with_reducible apply Keeps.ite | split | dsimp only)

theorem State.tidyColl_keeps {s₀ s : State} (h : Keeps s₀ s) (i : Nat)  : Keeps s₀ (State.tidyColl s i) := by
  unfold State.tidyColl
  repeat' (first
    | with_reducible assumption | with_reducible apply State.dropColl_keeps
    | with_reducible exact Keeps.fields (by assumption) | with_reducible apply Keeps.fields | simp only [Keeps.mk_iff]
    | with_reducible apply Keeps.ite | split | dsimp only)

theorem State.collSend_keeps {s₀ s : State} (h : Keeps s₀ s) (c : Nat) (dst : Nat) (op : Nat) (arg : Nat) (last : Bool) (data : List Byte)  : Keeps s₀ (State.collSend s c dst op arg last data).1 := by
  unfold State.collSend
  repeat' (first
    | with_reducible assumption | with_reducible apply State.addSat_keeps | with_reducible apply State.messageFor_keeps
    | with_reducible refine State.messageFor_keeps' (hE := by assumption) ?_ | dsimp only)

theorem State.collSend_keeps' {s₀ s : State} (h : Keeps s₀ s) {c : Nat} {dst : Nat} {op : Nat} {arg : Nat} {last : Bool} {data : List Byte}  {rX : _} {rT : State} (hE : State.collSend s c dst op arg last data = (rT, rX)) : Keeps s₀ rT := by
  have k := State.collSend_keeps (s₀ := s₀) (s := s) h c dst op arg last data
  rw [hE] at k
  exact k

theorem State.sendSegs_keeps {s₀ s : State} (h : Keeps s₀ s) (c : Nat) (dst : Nat) (op : Nat) (argHi : Nat) (segs : List (List Byte))  : Keeps s₀ (State.sendSegs s c dst op argHi segs).1 := by
  unfold State.sendSegs
  repeat' (first
    | with_reducible assumption | with_reducible apply Keeps.foldl | with_reducible apply Keeps.foldl_fst
    | with_reducible apply Keeps.foldl_snd | with_reducible apply Keeps.foldl_mid | with_reducible apply Keeps.foldl_last
    | with_reducible apply State.collSend_keeps | with_reducible refine State.collSend_keeps' (hE := by assumption) ?_
    | intro _ | dsimp only)

theorem State.sendSegs_keeps' {s₀ s : State} (h : Keeps s₀ s) {c : Nat} {dst : Nat} {op : Nat} {argHi : Nat} {segs : List (List Byte)}  {rX : _} {rT : State} (hE : State.sendSegs s c dst op argHi segs = (rT, rX)) : Keeps s₀ rT := by
  have k := State.sendSegs_keeps (s₀ := s₀) (s := s) h c dst op argHi segs
  rw [hE] at k
  exact k

theorem State.sendAll_keeps {s₀ s : State} (h : Keeps s₀ s) (c : Nat) (dsts : List Nat) (op : Nat) (arg : Nat) (last : Bool) (data : List Byte)  : Keeps s₀ (State.sendAll s c dsts op arg last data).1 := by
  unfold State.sendAll
  repeat' (first
    | with_reducible assumption | with_reducible apply Keeps.foldl | with_reducible apply Keeps.foldl_fst
    | with_reducible apply Keeps.foldl_snd | with_reducible apply Keeps.foldl_mid | with_reducible apply Keeps.foldl_last
    | with_reducible apply State.collSend_keeps | with_reducible refine State.collSend_keeps' (hE := by assumption) ?_
    | intro _ | dsimp only)

theorem State.sendAll_keeps' {s₀ s : State} (h : Keeps s₀ s) {c : Nat} {dsts : List Nat} {op : Nat} {arg : Nat} {last : Bool} {data : List Byte}  {rX : _} {rT : State} (hE : State.sendAll s c dsts op arg last data = (rT, rX)) : Keeps s₀ rT := by
  have k := State.sendAll_keeps (s₀ := s₀) (s := s) h c dsts op arg last data
  rw [hE] at k
  exact k

theorem State.writeOwned_keeps {s₀ s : State} (h : Keeps s₀ s) (c : Coll) (j : Nat) (bs : List Byte)  : Keeps s₀ (State.writeOwned s c j bs) := by
  unfold State.writeOwned
  repeat' (first
    | with_reducible assumption | with_reducible apply State.scatter_keeps | with_reducible apply Keeps.ite | split
    | dsimp only)

theorem State.checkCred_keeps {s₀ s : State} (h : Keeps s₀ s) (i : Nat)  : Keeps s₀ (State.checkCred s i) := by
  unfold State.checkCred
  repeat' (first
    | with_reducible assumption | with_reducible apply State.complete_keeps | with_reducible apply State.cred_keeps
    | with_reducible apply State.endColl_keeps | with_reducible apply State.store_keeps
    | with_reducible apply State.tidyColl_keeps | with_reducible exact Keeps.fields (by assumption)
    | with_reducible apply Keeps.fields | simp only [Keeps.mk_iff] | with_reducible apply Keeps.ite | split | dsimp only)

theorem State.takeResult_keeps {s₀ s : State} (h : Keeps s₀ s) (i : Nat) (c : Coll) (j : Nat) (bs : List Byte)  : Keeps s₀ (State.takeResult s i c j bs).2 := by
  unfold State.takeResult
  repeat' (first
    | with_reducible assumption | with_reducible apply State.setColl_keeps | with_reducible apply State.writeOwned_keeps
    | with_reducible exact Keeps.fields (by assumption) | with_reducible apply Keeps.fields | simp only [Keeps.mk_iff]
    | with_reducible apply Keeps.ite | split | dsimp only)

theorem State.takeResult_keeps' {s₀ s : State} (h : Keeps s₀ s) {i : Nat} {c : Coll} {j : Nat} {bs : List Byte}  {rX : _} {rT : State} (hE : State.takeResult s i c j bs = (rX, rT)) : Keeps s₀ rT := by
  have k := State.takeResult_keeps (s₀ := s₀) (s := s) h i c j bs
  rw [hE] at k
  exact k

theorem State.countUp_keeps {s₀ s : State} (h : Keeps s₀ s) (i : Nat) (c : Coll) (k : Nat) (n : Node)  : Keeps s₀ (State.countUp s i c k n).2.1 := by
  unfold State.countUp
  repeat' (first
    | with_reducible assumption | with_reducible apply State.collSend_keeps
    | with_reducible refine State.collSend_keeps' (hE := by assumption) ?_ | with_reducible apply State.setColl_keeps
    | with_reducible exact Keeps.fields (by assumption) | with_reducible apply Keeps.fields | simp only [Keeps.mk_iff]
    | with_reducible apply Keeps.ite | split | dsimp only)

theorem State.countUp_keeps' {s₀ s : State} (h : Keeps s₀ s) {i : Nat} {c : Coll} {k : Nat} {n : Node}  {rX : _} {rY : _} {rT : State} (hE : State.countUp s i c k n = (rX, rT, rY)) : Keeps s₀ rT := by
  have k := State.countUp_keeps (s₀ := s₀) (s := s) h i c k n
  rw [hE] at k
  exact k

theorem State.rootResults_keeps {s₀ s : State} (h : Keeps s₀ s) (i : Nat) (c : Coll) (n : Node) (bs : List Byte)  : Keeps s₀ (State.rootResults s i c n bs).1 := by
  unfold State.rootResults
  repeat' (first
    | with_reducible assumption | with_reducible apply Keeps.foldl | with_reducible apply Keeps.foldl_fst
    | with_reducible apply Keeps.foldl_snd | with_reducible apply Keeps.foldl_mid | with_reducible apply Keeps.foldl_last
    | with_reducible apply State.sendAll_keeps | with_reducible refine State.sendAll_keeps' (hE := by assumption) ?_
    | with_reducible apply State.sendSegs_keeps | with_reducible refine State.sendSegs_keeps' (hE := by assumption) ?_
    | with_reducible apply State.setColl_keeps | with_reducible apply State.takeResult_keeps
    | with_reducible refine State.takeResult_keeps' (hE := by assumption) ?_
    | with_reducible exact Keeps.fields (by assumption) | with_reducible apply Keeps.fields | simp only [Keeps.mk_iff]
    | intro _ | split | dsimp only)

theorem State.rootResults_keeps' {s₀ s : State} (h : Keeps s₀ s) {i : Nat} {c : Coll} {n : Node} {bs : List Byte}  {rX : _} {rT : State} (hE : State.rootResults s i c n bs = (rT, rX)) : Keeps s₀ rT := by
  have k := State.rootResults_keeps (s₀ := s₀) (s := s) h i c n bs
  rw [hE] at k
  exact k

theorem State.dataUp_keeps {s₀ s : State} (h : Keeps s₀ s) (i : Nat) (c : Coll) (k : Nat) (n : Node)  : Keeps s₀ (State.dataUp s i c k n).2.1 := by
  unfold State.dataUp
  repeat' (first
    | with_reducible assumption | with_reducible apply State.addSat_keeps | with_reducible apply State.countUp_keeps
    | with_reducible refine State.countUp_keeps' (hE := by assumption) ?_ | with_reducible apply State.rootResults_keeps
    | with_reducible refine State.rootResults_keeps' (hE := by assumption) ?_ | with_reducible apply State.sendSegs_keeps
    | with_reducible refine State.sendSegs_keeps' (hE := by assumption) ?_ | with_reducible apply State.setColl_keeps
    | with_reducible apply State.violateIf_keeps | with_reducible exact Keeps.fields (by assumption)
    | with_reducible apply Keeps.fields | simp only [Keeps.mk_iff] | intro _ | with_reducible apply Keeps.ite | split
    | dsimp only)

theorem State.dataUp_keeps' {s₀ s : State} (h : Keeps s₀ s) {i : Nat} {c : Coll} {k : Nat} {n : Node}  {rX : _} {rY : _} {rT : State} (hE : State.dataUp s i c k n = (rX, rT, rY)) : Keeps s₀ rT := by
  have k := State.dataUp_keeps (s₀ := s₀) (s := s) h i c k n
  rw [hE] at k
  exact k

theorem State.advanceCred_keeps {s₀ s : State} (h : Keeps s₀ s) (i : Nat)  : Keeps s₀ (State.advanceCred s i) := by
  unfold State.advanceCred
  repeat' (first
    | with_reducible assumption | with_reducible apply Keeps.foldl | with_reducible apply Keeps.foldl_fst
    | with_reducible apply Keeps.foldl_snd | with_reducible apply Keeps.foldl_mid | with_reducible apply Keeps.foldl_last
    | with_reducible apply State.checkCred_keeps | with_reducible apply State.countUp_keeps
    | with_reducible refine State.countUp_keeps' (hE := by assumption) ?_ | with_reducible apply State.dataUp_keeps
    | with_reducible refine State.dataUp_keeps' (hE := by assumption) ?_ | with_reducible apply State.endColl_keeps
    | with_reducible exact Keeps.fields (by assumption) | with_reducible apply Keeps.fields | simp only [Keeps.mk_iff]
    | intro _ | with_reducible apply Keeps.ite | split | dsimp only)

theorem State.latchPresence_keeps {s₀ s : State} (h : Keeps s₀ s) (step round : Nat) :
    Keeps s₀ (State.latchPresence s step round) := by
  unfold State.latchPresence
  exact h.withStp fun k => k

theorem State.nextInstance_keeps {s₀ s : State} (h : Keeps s₀ s) (n : Nat) (plan : Nat)  : Keeps s₀ (State.nextInstance s n plan) := by
  unfold State.nextInstance
  repeat' (first
    | with_reducible assumption | with_reducible apply State.modCtx_keeps
    | with_reducible exact Keeps.fields (by assumption) | with_reducible apply Keeps.fields | simp only [Keeps.mk_iff]
    | intro _ | dsimp only)

theorem State.sendLeaf_keeps {s₀ s : State} (h : Keeps s₀ s) (c : Coll) (present : Bool)  : Keeps s₀ (State.sendLeaf s c present).1 := by
  unfold State.sendLeaf
  repeat' (first
    | with_reducible assumption | with_reducible apply State.collSend_keeps
    | with_reducible refine State.collSend_keeps' (hE := by assumption) ?_ | with_reducible apply State.gather_keeps
    | with_reducible refine State.gather_keeps' (hE := by assumption) ?_ | with_reducible apply State.sendSegs_keeps
    | with_reducible refine State.sendSegs_keeps' (hE := by assumption) ?_ | intro _ | with_reducible apply Keeps.ite
    | split | dsimp only)

theorem State.sendLeaf_keeps' {s₀ s : State} (h : Keeps s₀ s) {c : Coll} {present : Bool}  {rX : _} {rT : State} (hE : State.sendLeaf s c present = (rT, rX)) : Keeps s₀ rT := by
  have k := State.sendLeaf_keeps (s₀ := s₀) (s := s) h c present
  rw [hE] at k
  exact k

theorem State.cred_keeps {s₀ s : State} (h : Keeps s₀ s) (j : Job)  : Keeps s₀ (State.cred s j) := by
  unfold State.cred
  repeat' (first
    | with_reducible assumption | with_reducible apply State.checkCred_keeps | with_reducible apply State.dropFormat_keeps
    | with_reducible apply State.dropReserved_keeps | with_reducible apply State.endColl_keeps
    | with_reducible apply State.latchPresence_keeps | with_reducible apply State.modFlight_keeps
    | with_reducible apply State.nextInstance_keeps | with_reducible apply State.planRecord_keeps
    | with_reducible refine State.planRecord_keeps' (hE := by assumption) ?_ | with_reducible apply State.sendLeaf_keeps
    | with_reducible refine State.sendLeaf_keeps' (hE := by assumption) ?_ | with_reducible apply State.setColl_keeps
    | with_reducible apply State.violateIf_keeps | with_reducible exact Keeps.fields (by assumption)
    | with_reducible apply Keeps.fields | simp only [Keeps.mk_iff] | intro _ | with_reducible apply Keeps.ite | split
    | dsimp only)

theorem execCred_keeps {s₀ s : State} (h : Keeps s₀ s) (g : Nat) : ∃ r, execCred g s = .next r ∧ Keeps s₀ r := by
  unfold execCred
  refine ⟨_, rfl, ?_⟩
  repeat' (first
    | with_reducible assumption | with_reducible apply State.cred_keeps | with_reducible apply State.issueData_keeps
    | intro _ | dsimp only)

theorem State.writeSegment_keeps {s₀ s : State} (h : Keeps s₀ s) (c : Coll) (j : Nat) (bs : List Byte)  : Keeps s₀ (State.writeSegment s c j bs) := by
  unfold State.writeSegment
  repeat' (first
    | with_reducible assumption | with_reducible apply State.scatter_keeps | with_reducible apply Keeps.ite | split
    | dsimp only)

theorem State.readSegments_keeps {s₀ s : State} (h : Keeps s₀ s) (c : Coll)  : Keeps s₀ (State.readSegments s c).2 := by
  unfold State.readSegments
  repeat' (first
    | with_reducible assumption | with_reducible apply State.gather_keeps
    | with_reducible refine State.gather_keeps' (hE := by assumption) ?_ | split | dsimp only)

theorem State.readSegments_keeps' {s₀ s : State} (h : Keeps s₀ s) {c : Coll}  {rX : _} {rT : State} (hE : State.readSegments s c = (rX, rT)) : Keeps s₀ rT := by
  have k := State.readSegments_keeps (s₀ := s₀) (s := s) h c
  rw [hE] at k
  exact k

theorem State.cbcastFrom_keeps {s₀ s : State} (h : Keeps s₀ s) (j : Job) (c : Coll) (arg : Nat)  : Keeps s₀ (State.cbcastFrom s j c arg) := by
  unfold State.cbcastFrom
  repeat' (first
    | with_reducible assumption | with_reducible apply Keeps.foldl | with_reducible apply Keeps.foldl_fst
    | with_reducible apply Keeps.foldl_snd | with_reducible apply Keeps.foldl_mid | with_reducible apply Keeps.foldl_last
    | with_reducible apply State.endColl_keeps | with_reducible apply State.readSegments_keeps
    | with_reducible refine State.readSegments_keeps' (hE := by assumption) ?_ | with_reducible apply State.sendSegs_keeps
    | with_reducible refine State.sendSegs_keeps' (hE := by assumption) ?_ | with_reducible apply State.setColl_keeps
    | with_reducible exact Keeps.fields (by assumption) | with_reducible apply Keeps.fields | simp only [Keeps.mk_iff]
    | intro _ | with_reducible apply Keeps.ite | split | dsimp only)

theorem State.cbcast_keeps {s₀ s : State} (h : Keeps s₀ s) (j : Job)  : Keeps s₀ (State.cbcast s j) := by
  unfold State.cbcast
  repeat' (first
    | with_reducible assumption | with_reducible apply State.cbcastFrom_keeps | with_reducible apply State.dropFormat_keeps
    | with_reducible apply State.dropReserved_keeps | with_reducible apply State.modFlight_keeps
    | with_reducible apply State.nextInstance_keeps | with_reducible apply State.planRecord_keeps
    | with_reducible refine State.planRecord_keeps' (hE := by assumption) ?_ | with_reducible apply State.setColl_keeps
    | with_reducible apply State.violateIf_keeps | with_reducible exact Keeps.fields (by assumption)
    | with_reducible apply Keeps.fields | simp only [Keeps.mk_iff] | intro _ | with_reducible apply Keeps.ite | split
    | dsimp only)

theorem execCbcast_keeps {s₀ s : State} (h : Keeps s₀ s) (g : Nat) : ∃ r, execCbcast g s = .next r ∧ Keeps s₀ r := by
  unfold execCbcast
  refine ⟨_, rfl, ?_⟩
  repeat' (first
    | with_reducible assumption | with_reducible apply State.cbcast_keeps | with_reducible apply State.issueData_keeps
    | intro _ | dsimp only)

theorem State.csend_keeps {s₀ s : State} (h : Keeps s₀ s) (j : Job)  : Keeps s₀ (State.csend s j) := by
  unfold State.csend
  repeat' (first
    | with_reducible assumption | with_reducible apply State.dropFormat_keeps | with_reducible apply State.endColl_keeps
    | with_reducible apply State.modFlight_keeps | with_reducible apply State.readSegments_keeps
    | with_reducible refine State.readSegments_keeps' (hE := by assumption) ?_ | with_reducible apply State.sendSegs_keeps
    | with_reducible refine State.sendSegs_keeps' (hE := by assumption) ?_ | with_reducible apply State.setColl_keeps
    | with_reducible exact Keeps.fields (by assumption) | with_reducible apply Keeps.fields | simp only [Keeps.mk_iff]
    | intro _ | with_reducible apply Keeps.ite | split | dsimp only)

theorem execCsend_keeps {s₀ s : State} (h : Keeps s₀ s) (g : Nat) : ∃ r, execCsend g s = .next r ∧ Keeps s₀ r := by
  unfold execCsend
  refine ⟨_, rfl, ?_⟩
  repeat' (first
    | with_reducible assumption | with_reducible apply State.csend_keeps | with_reducible apply State.issueData_keeps
    | intro _ | dsimp only)

theorem State.crecv_keeps {s₀ s : State} (h : Keeps s₀ s) (j : Job)  : Keeps s₀ (State.crecv s j) := by
  unfold State.crecv
  repeat' (first
    | with_reducible assumption | with_reducible apply State.dropFormat_keeps | with_reducible apply State.endColl_keeps
    | with_reducible apply State.modFlight_keeps | with_reducible apply State.setColl_keeps
    | with_reducible apply State.violateIf_keeps | with_reducible exact Keeps.fields (by assumption)
    | with_reducible apply Keeps.fields | simp only [Keeps.mk_iff] | intro _ | with_reducible apply Keeps.ite | split
    | dsimp only)

theorem execCrecv_keeps {s₀ s : State} (h : Keeps s₀ s) (g : Nat) : ∃ r, execCrecv g s = .next r ∧ Keeps s₀ r := by
  unfold execCrecv
  refine ⟨_, rfl, ?_⟩
  repeat' (first
    | with_reducible assumption | with_reducible apply State.crecv_keeps | with_reducible apply State.issueData_keeps
    | intro _ | dsimp only)

theorem State.sdata_keeps {s₀ s : State} (h : Keeps s₀ s) (p : Packet)  : Keeps s₀ (State.sdata s p) := by
  unfold State.sdata
  repeat' (first
    | with_reducible assumption | with_reducible apply State.crecv_keeps | with_reducible apply State.endColl_keeps
    | with_reducible apply State.messageFor_keeps | with_reducible refine State.messageFor_keeps' (hE := by assumption) ?_
    | with_reducible apply State.setColl_keeps | with_reducible apply State.violateIf_keeps
    | with_reducible apply State.writeSegment_keeps | with_reducible exact Keeps.fields (by assumption)
    | with_reducible apply Keeps.fields | simp only [Keeps.mk_iff] | with_reducible apply Keeps.ite | split | dsimp only)

theorem execSdata_keeps {s₀ s : State} (h : Keeps s₀ s) (m : Nat) : ∃ r, execSdata m s = .next r ∧ Keeps s₀ r := by
  unfold execSdata
  refine ⟨_, rfl, ?_⟩
  repeat' (first
    | with_reducible assumption | with_reducible apply State.onPacket_keeps | with_reducible apply State.sdata_keeps
    | intro _ | dsimp only)

theorem execSack_keeps {s₀ s : State} (h : Keeps s₀ s) (m : Nat) : ∃ r, execSack m s = .next r ∧ Keeps s₀ r := by
  unfold execSack
  refine ⟨_, rfl, ?_⟩
  repeat' (first
    | with_reducible assumption | with_reducible apply State.csend_keeps | with_reducible apply State.endColl_keeps
    | with_reducible apply State.onPacket_keeps | with_reducible exact Keeps.fields (by assumption)
    | with_reducible apply Keeps.fields | simp only [Keeps.mk_iff] | intro _ | split | dsimp only)

theorem State.rcount_keeps {s₀ s : State} (h : Keeps s₀ s) (p : Packet)  : Keeps s₀ (State.rcount s p) := by
  unfold State.rcount
  repeat' (first
    | with_reducible assumption | with_reducible apply State.advanceCred_keeps | with_reducible apply State.cred_keeps
    | with_reducible apply State.setColl_keeps | with_reducible exact Keeps.fields (by assumption)
    | with_reducible apply Keeps.fields | simp only [Keeps.mk_iff] | intro _ | split | dsimp only)

theorem execRcount_keeps {s₀ s : State} (h : Keeps s₀ s) (m : Nat) : ∃ r, execRcount m s = .next r ∧ Keeps s₀ r := by
  unfold execRcount
  refine ⟨_, rfl, ?_⟩
  repeat' (first
    | with_reducible assumption | with_reducible apply State.cred_keeps | with_reducible apply State.onPacket_keeps
    | with_reducible apply State.rcount_keeps | intro _ | dsimp only)

theorem State.rpart_keeps {s₀ s : State} (h : Keeps s₀ s) (p : Packet)  : Keeps s₀ (State.rpart s p) := by
  unfold State.rpart
  repeat' (first
    | with_reducible assumption | with_reducible apply State.advanceCred_keeps | with_reducible apply State.cred_keeps
    | with_reducible apply State.setColl_keeps | with_reducible exact Keeps.fields (by assumption)
    | with_reducible apply Keeps.fields | simp only [Keeps.mk_iff] | intro _ | with_reducible apply Keeps.ite | split
    | dsimp only)

theorem execRpart_keeps {s₀ s : State} (h : Keeps s₀ s) (m : Nat) : ∃ r, execRpart m s = .next r ∧ Keeps s₀ r := by
  unfold execRpart
  refine ⟨_, rfl, ?_⟩
  repeat' (first
    | with_reducible assumption | with_reducible apply State.onPacket_keeps | with_reducible apply State.rpart_keeps
    | intro _ | dsimp only)

theorem State.rresult_keeps {s₀ s : State} (h : Keeps s₀ s) (p : Packet)  : Keeps s₀ (State.rresult s p) := by
  unfold State.rresult
  repeat' (first
    | with_reducible assumption | with_reducible apply State.checkCred_keeps | with_reducible apply State.cred_keeps
    | with_reducible apply State.endColl_keeps | with_reducible apply State.sendAll_keeps
    | with_reducible refine State.sendAll_keeps' (hE := by assumption) ?_ | with_reducible apply State.setColl_keeps
    | with_reducible apply State.takeResult_keeps | with_reducible refine State.takeResult_keeps' (hE := by assumption) ?_
    | with_reducible exact Keeps.fields (by assumption) | with_reducible apply Keeps.fields | simp only [Keeps.mk_iff]
    | intro _ | with_reducible apply Keeps.ite | split | dsimp only)

theorem execRresult_keeps {s₀ s : State} (h : Keeps s₀ s) (m : Nat) : ∃ r, execRresult m s = .next r ∧ Keeps s₀ r := by
  unfold execRresult
  refine ⟨_, rfl, ?_⟩
  repeat' (first
    | with_reducible assumption | with_reducible apply State.cred_keeps | with_reducible apply State.onPacket_keeps
    | with_reducible apply State.rresult_keeps | intro _ | dsimp only)

theorem State.rfinal_keeps {s₀ s : State} (h : Keeps s₀ s) (p : Packet)  : Keeps s₀ (State.rfinal s p) := by
  unfold State.rfinal
  repeat' (first
    | with_reducible assumption | with_reducible apply State.checkCred_keeps | with_reducible apply State.cred_keeps
    | with_reducible apply State.endColl_keeps | with_reducible apply State.sendAll_keeps
    | with_reducible refine State.sendAll_keeps' (hE := by assumption) ?_ | with_reducible apply State.setColl_keeps
    | with_reducible exact Keeps.fields (by assumption) | with_reducible apply Keeps.fields | simp only [Keeps.mk_iff]
    | intro _ | with_reducible apply Keeps.ite | split | dsimp only)

theorem execRfinal_keeps {s₀ s : State} (h : Keeps s₀ s) (m : Nat) : ∃ r, execRfinal m s = .next r ∧ Keeps s₀ r := by
  unfold execRfinal
  refine ⟨_, rfl, ?_⟩
  repeat' (first
    | with_reducible assumption | with_reducible apply State.cred_keeps | with_reducible apply State.onPacket_keeps
    | with_reducible apply State.rfinal_keeps | intro _ | dsimp only)

theorem State.bdata_keeps {s₀ s : State} (h : Keeps s₀ s) (p : Packet)  : Keeps s₀ (State.bdata s p) := by
  unfold State.bdata
  repeat' (first
    | with_reducible assumption | with_reducible apply State.cbcast_keeps | with_reducible apply State.endColl_keeps
    | with_reducible apply State.sendAll_keeps | with_reducible refine State.sendAll_keeps' (hE := by assumption) ?_
    | with_reducible apply State.setColl_keeps | with_reducible apply State.tidyColl_keeps
    | with_reducible apply State.writeSegment_keeps | with_reducible exact Keeps.fields (by assumption)
    | with_reducible apply Keeps.fields | simp only [Keeps.mk_iff] | intro _ | with_reducible apply Keeps.ite | split
    | dsimp only)

theorem execBdata_keeps {s₀ s : State} (h : Keeps s₀ s) (m : Nat) : ∃ r, execBdata m s = .next r ∧ Keeps s₀ r := by
  unfold execBdata
  refine ⟨_, rfl, ?_⟩
  repeat' (first
    | with_reducible assumption | with_reducible apply State.bdata_keeps | with_reducible apply State.cbcast_keeps
    | with_reducible apply State.onPacket_keeps | intro _ | dsimp only)

theorem execChildTimeout_keeps {s₀ s : State} (h : Keeps s₀ s) (c : Nat) : ∃ r, execChildTimeout c s = .next r ∧ Keeps s₀ r := by
  unfold execChildTimeout
  refine ⟨_, rfl, ?_⟩
  repeat' (first
    | with_reducible assumption | with_reducible apply State.endColl_keeps | with_reducible apply State.whenRunning_keeps
    | dsimp only)

theorem State.collLinkDown_keeps {s₀ s : State} (h : Keeps s₀ s) (m : Nat)  : Keeps s₀ (State.collLinkDown s m) := by
  unfold State.collLinkDown
  repeat' (first
    | with_reducible assumption | with_reducible apply Keeps.foldl | with_reducible apply State.endColl_keeps | intro _
    | dsimp only)

theorem State.abandonColls_keeps {s₀ s : State} (h : Keeps s₀ s) (n : Nat)  : Keeps s₀ (State.abandonColls s n) := by
  unfold State.abandonColls
  repeat' (first
    | with_reducible assumption | with_reducible apply Keeps.foldl | with_reducible apply State.dropColl_keeps
    | with_reducible apply State.recordVoted_keeps | intro _ | with_reducible apply Keeps.ite | split | dsimp only)

theorem State.latchContrib_keeps {s₀ s : State} (h : Keeps s₀ s)   : Keeps s₀ (State.latchContrib s) := by
  unfold State.latchContrib
  repeat' (first
    | with_reducible assumption | with_reducible apply State.setReg_keeps | split | dsimp only)

end Machine

end Sys2Proof
end

