-- ==== Sys2Proof/Laws/KeepsDomain.lean ====
section
/-! SUPPORT. Every operation of Machine/Domain.lean keeps what Laws/Keeps.lean names. -/

set_option Elab.async false
set_option linter.all false

namespace Sys2Proof

namespace Machine

theorem State.modStp_keeps {s₀ s : State} (h : Keeps s₀ s) (f : Stp → Stp) (hf : ∀ x : Stp, x.Balanced → (f x).Balanced) :
    Keeps s₀ (State.modStp s f) := h.withStp fun w => hf _ w

theorem State.stpViolate_keeps {s₀ s : State} (h : Keeps s₀ s)   : Keeps s₀ (State.stpViolate s) := by
  unfold State.stpViolate
  repeat' (first
    | with_reducible assumption | with_reducible apply State.violate_keeps | dsimp only)

theorem State.sendJoin_keeps {s₀ s : State} (h : Keeps s₀ s)   : Keeps s₀ (State.sendJoin s) := by
  unfold State.sendJoin
  repeat' (first
    | with_reducible assumption | exact fun _ k => k | exact fun _ _ => Nat.le_refl _ | exact fun _ _ => Nat.zero_le _
    | with_reducible apply State.modStp_keeps | with_reducible apply State.tell_keeps
    | with_reducible exact Keeps.fields (by assumption) | with_reducible apply Keeps.fields | simp only [Keeps.mk_iff]
    | intro _ | with_reducible apply Keeps.ite | split | dsimp only)

theorem State.formTables_keeps {s₀ s : State} (h : Keeps s₀ s)   : Keeps s₀ (State.formTables s) := by
  unfold State.formTables
  repeat' (first
    | with_reducible assumption | exact fun _ k => k | exact fun _ _ => Nat.le_refl _ | exact fun _ _ => Nat.zero_le _
    | with_reducible apply State.modStp_keeps | with_reducible apply State.set_keeps
    | with_reducible apply State.setReg_keeps | with_reducible exact Keeps.fields (by assumption)
    | with_reducible apply Keeps.fields | simp only [Keeps.mk_iff] | intro _ | with_reducible apply Keeps.ite | split
    | dsimp only)

theorem State.rootJoin_keeps {s₀ s : State} (h : Keeps s₀ s) (p : Packet)  : Keeps s₀ (State.rootJoin s p) := by
  unfold State.rootJoin
  repeat' (first
    | with_reducible assumption | exact fun _ k => k | exact fun _ _ => Nat.le_refl _ | exact fun _ _ => Nat.zero_le _
    | with_reducible apply State.addSat_keeps | with_reducible apply State.modStp_keeps
    | with_reducible apply State.setReg_keeps | with_reducible apply State.tell_keeps
    | with_reducible exact Keeps.fields (by assumption) | with_reducible apply Keeps.fields | simp only [Keeps.mk_iff]
    | intro _ | with_reducible apply Keeps.ite | split | dsimp only)

theorem State.join_keeps {s₀ s : State} (h : Keeps s₀ s) (p : Packet)  : Keeps s₀ (State.join s p) := by
  unfold State.join
  repeat' (first
    | with_reducible assumption | exact fun _ k => k | exact fun _ _ => Nat.le_refl _ | exact fun _ _ => Nat.zero_le _
    | with_reducible apply State.modStp_keeps | with_reducible apply State.rootJoin_keeps
    | with_reducible apply State.stpViolate_keeps | with_reducible apply State.tell_keeps
    | with_reducible exact Keeps.fields (by assumption) | with_reducible apply Keeps.fields | simp only [Keeps.mk_iff]
    | intro _ | with_reducible apply Keeps.ite | split | dsimp only)

theorem execJoin_keeps {s₀ s : State} (h : Keeps s₀ s) (m : Nat) : ∃ r, execJoin m s = .next r ∧ Keeps s₀ r := by
  unfold execJoin
  refine ⟨_, rfl, ?_⟩
  repeat' (first
    | with_reducible assumption | with_reducible apply State.join_keeps | with_reducible apply State.onPacket_keeps
    | intro _ | dsimp only)

theorem State.joinAck_keeps {s₀ s : State} (h : Keeps s₀ s) (p : Packet)  : Keeps s₀ (State.joinAck s p) := by
  unfold State.joinAck
  repeat' (first
    | with_reducible assumption | exact fun _ k => k | exact fun _ _ => Nat.le_refl _ | exact fun _ _ => Nat.zero_le _
    | with_reducible apply State.join_keeps | with_reducible apply State.modStp_keeps
    | with_reducible apply State.setReg_keeps | with_reducible apply State.stpViolate_keeps
    | with_reducible apply State.tell_keeps | with_reducible exact Keeps.fields (by assumption)
    | with_reducible apply Keeps.fields | simp only [Keeps.mk_iff] | intro _ | with_reducible apply Keeps.ite | split
    | dsimp only)

theorem execJoinack_keeps {s₀ s : State} (h : Keeps s₀ s) (m : Nat) : ∃ r, execJoinack m s = .next r ∧ Keeps s₀ r := by
  unfold execJoinack
  refine ⟨_, rfl, ?_⟩
  repeat' (first
    | with_reducible assumption | with_reducible apply State.joinAck_keeps | with_reducible apply State.onPacket_keeps
    | intro _ | dsimp only)

theorem State.releaseTo_keeps {s₀ s : State} (h : Keeps s₀ s) (ds : List Nat) (g st : Nat) :
    Keeps s₀ (State.releaseTo s ds g st) := by
  unfold State.releaseTo
  refine Keeps.foldl (fun t d ht => ?_) (State.modStp_keeps h _ fun x k => ?_)
  · dsimp only
    split
    · exact State.message_keeps ht _ _ _ _ _
    · exact State.modStp_keeps (State.message_keeps ht _ _ _ _ _) _ fun _ k => k
  · unfold Stp.Balanced at *
    dsimp only
    split
    · exact Nat.zero_le _
    · exact k

theorem State.barrierLost_keeps {s₀ s : State} (h : Keeps s₀ s)   : Keeps s₀ (State.barrierLost s) := by
  unfold State.barrierLost
  repeat' (first
    | with_reducible assumption | with_reducible apply State.releaseTo_keeps | with_reducible apply Keeps.ite | split
    | dsimp only)

theorem State.checkArrived_keeps {s₀ s : State} (h : Keeps s₀ s)   : Keeps s₀ (State.checkArrived s) := by
  unfold State.checkArrived
  repeat' (first
    | with_reducible assumption | with_reducible apply State.barrierLost_keeps | with_reducible apply State.releaseTo_keeps
    | with_reducible apply State.tell_keeps | with_reducible apply Keeps.ite | split | dsimp only)

theorem State.barArrive_keeps {s₀ s : State} (h : Keeps s₀ s) (p : Packet)  : Keeps s₀ (State.barArrive s p) := by
  unfold State.barArrive
  repeat' (first
    | with_reducible assumption | exact fun _ k => k | exact fun _ _ => Nat.le_refl _ | exact fun _ _ => Nat.zero_le _
    | with_reducible apply State.checkArrived_keeps | with_reducible apply State.modStp_keeps
    | with_reducible apply State.stpViolate_keeps | with_reducible apply State.tell_keeps
    | with_reducible exact Keeps.fields (by assumption) | with_reducible apply Keeps.fields | simp only [Keeps.mk_iff]
    | intro _ | with_reducible apply Keeps.ite | split | dsimp only)

theorem execBararrive_keeps {s₀ s : State} (h : Keeps s₀ s) (m : Nat) : ∃ r, execBararrive m s = .next r ∧ Keeps s₀ r := by
  unfold execBararrive
  refine ⟨_, rfl, ?_⟩
  repeat' (first
    | with_reducible assumption | with_reducible apply State.barArrive_keeps | with_reducible apply State.onPacket_keeps
    | intro _ | dsimp only)

theorem State.releaseWaiting_keeps {s₀ s : State} (h : Keeps s₀ s) (st : Nat)  : Keeps s₀ (State.releaseWaiting s st) := by
  unfold State.releaseWaiting
  repeat' (first
    | with_reducible assumption | exact fun _ k => k | exact fun _ _ => Nat.le_refl _ | exact fun _ _ => Nat.zero_le _
    | with_reducible apply Keeps.foldl | with_reducible apply State.beginRelease_keeps
    | with_reducible apply State.modStp_keeps | with_reducible exact Keeps.fields (by assumption)
    | with_reducible apply Keeps.fields | simp only [Keeps.mk_iff] | intro _ | dsimp only)

theorem State.takeRelease_keeps {s₀ s : State} (h : Keeps s₀ s) (src g st : Nat) :
    Keeps s₀ (State.takeRelease s src g st) := by
  have b : ∀ x : Stp, ({ x with audGen := g, granted := 1, consumed := if x.waiting.isEmpty then 1 else 0 } : Stp).Balanced := fun x => by
    unfold Stp.Balanced
    dsimp only
    split <;> decide
  unfold State.takeRelease
  split
  · exact State.releaseWaiting_keeps h _
  · have a : ∀ v, Keeps s₀ ((if (s.message src 0x0A g false []).2 then (s.message src 0x0A g false []).1
        else (s.message src 0x0A g false []).1.modStp fun x => { x with restart := true }).set Reg.stpBargen 15 0 v) := fun v => by
      refine State.set_keeps ?_ _ _ _ _
      split
      · exact State.message_keeps h _ _ _ _ _
      · exact State.modStp_keeps (State.message_keeps h _ _ _ _ _) _ fun _ k => k
    dsimp only
    refine State.releaseWaiting_keeps ?_ _
    split
    · exact State.modStp_keeps (a _) _ fun x _ => b x
    · exact a _

theorem State.barRelease_keeps {s₀ s : State} (h : Keeps s₀ s) (p : Packet)  : Keeps s₀ (State.barRelease s p) := by
  unfold State.barRelease
  repeat' (first
    | with_reducible assumption | with_reducible apply State.releaseTo_keeps | with_reducible apply State.stpViolate_keeps
    | with_reducible apply State.takeRelease_keeps | with_reducible apply State.tell_keeps | with_reducible apply Keeps.ite
    | split | dsimp only)

theorem execBarrelease_keeps {s₀ s : State} (h : Keeps s₀ s) (m : Nat) : ∃ r, execBarrelease m s = .next r ∧ Keeps s₀ r := by
  unfold execBarrelease
  refine ⟨_, rfl, ?_⟩
  repeat' (first
    | with_reducible assumption | with_reducible apply State.barRelease_keeps | with_reducible apply State.onPacket_keeps
    | intro _ | dsimp only)

theorem State.barDone_keeps {s₀ s : State} (h : Keeps s₀ s) (p : Packet) : Keeps s₀ (State.barDone s p) := by
  unfold State.barDone
  split
  · exact State.stpViolate_keeps h
  · split
    · next e =>
      refine h.withStp fun _ => ?_
      simp only [Bool.and_eq_true, decide_eq_true_eq] at e
      exact e.2
    · exact h

theorem execBardone_keeps {s₀ s : State} (h : Keeps s₀ s) (m : Nat) : ∃ r, execBardone m s = .next r ∧ Keeps s₀ r := by
  unfold execBardone
  refine ⟨_, rfl, ?_⟩
  repeat' (first
    | with_reducible assumption | with_reducible apply State.barDone_keeps | with_reducible apply State.onPacket_keeps
    | intro _ | dsimp only)

theorem State.latchBaraud_keeps {s₀ s : State} (h : Keeps s₀ s)   : Keeps s₀ (State.latchBaraud s) := by
  unfold State.latchBaraud
  repeat' (first
    | with_reducible assumption | with_reducible apply State.setReg_keeps | dsimp only)

theorem State.domainBarrierAt_keeps {s₀ s : State} (h : Keeps s₀ s) (g : Nat) (f : Fetch)  : Keeps s₀ (State.domainBarrierAt s g f) := by
  unfold State.domainBarrierAt
  repeat' (first
    | with_reducible assumption | exact fun _ k => k | exact fun _ _ => Nat.le_refl _ | exact fun _ _ => Nat.zero_le _
    | with_reducible apply State.message_keeps | with_reducible refine State.message_keeps' (hE := by assumption) ?_
    | with_reducible apply State.modCl_keeps | with_reducible apply State.modStp_keeps
    | with_reducible apply State.releaseWaiting_keeps | with_reducible apply State.setSreg_keeps
    | with_reducible apply State.tagNow_keeps | with_reducible exact Keeps.fields (by assumption)
    | with_reducible apply Keeps.fields | simp only [Keeps.mk_iff] | intro _ | with_reducible apply Keeps.ite | split
    | dsimp only)

theorem execBarrierDomain_keeps {s₀ s : State} (h : Keeps s₀ s) (g : Nat) : ∃ r, execBarrierDomain g s = .next r ∧ Keeps s₀ r := by
  unfold execBarrierDomain
  refine ⟨_, rfl, ?_⟩
  repeat' (first
    | with_reducible assumption | with_reducible apply State.domainBarrierAt_keeps | with_reducible apply State.issue_keeps
    | intro _ | dsimp only)

theorem execBarrierTimeout_keeps {s₀ s : State} (h : Keeps s₀ s) (g : Nat) : ∃ r, execBarrierTimeout g s = .next r ∧ Keeps s₀ r := by
  unfold execBarrierTimeout
  refine ⟨_, rfl, ?_⟩
  repeat' (first
    | with_reducible assumption | exact fun _ k => k | exact fun _ _ => Nat.le_refl _ | exact fun _ _ => Nat.zero_le _
    | with_reducible apply State.modStp_keeps | with_reducible apply State.releaseOne_keeps
    | with_reducible apply State.whenRunning_keeps | with_reducible exact Keeps.fields (by assumption)
    | with_reducible apply Keeps.fields | simp only [Keeps.mk_iff] | intro _ | with_reducible apply Keeps.ite | split
    | dsimp only)

theorem State.endCvote_keeps {s₀ s : State} (h : Keeps s₀ s) (v : CVote) (st : Nat)  : Keeps s₀ (State.endCvote s v st) := by
  unfold State.endCvote
  repeat' (first
    | with_reducible assumption | exact fun _ k => k | exact fun _ _ => Nat.le_refl _ | exact fun _ _ => Nat.zero_le _
    | with_reducible apply State.draw_keeps | with_reducible refine State.draw_keeps' (hE := by assumption) ?_
    | with_reducible apply State.finishFlight_keeps | with_reducible apply State.modCtx_keeps
    | with_reducible apply State.modStp_keeps | with_reducible apply State.setReg_keeps
    | with_reducible apply State.store_keeps | with_reducible exact Keeps.fields (by assumption)
    | with_reducible apply Keeps.fields | simp only [Keeps.mk_iff] | intro _ | with_reducible apply Keeps.ite | split
    | dsimp only)

theorem State.endCvotes_keeps {s₀ s : State} (h : Keeps s₀ s) (p : CVote → Bool) (st : CVote → Nat)  : Keeps s₀ (State.endCvotes s p st) := by
  unfold State.endCvotes
  repeat' (first
    | with_reducible assumption | with_reducible apply Keeps.foldl | with_reducible apply State.endCvote_keeps | intro _
    | dsimp only)

theorem State.cvote_keeps {s₀ s : State} (h : Keeps s₀ s) (j : Job)  : Keeps s₀ (State.cvote s j) := by
  unfold State.cvote
  repeat' (first
    | with_reducible assumption | exact fun _ k => k | exact fun _ _ => Nat.le_refl _ | exact fun _ _ => Nat.zero_le _
    | with_reducible apply State.endCvote_keeps | with_reducible apply State.load_keeps
    | with_reducible refine State.load_keeps' (hE := by assumption) ?_ | with_reducible apply State.message_keeps
    | with_reducible refine State.message_keeps' (hE := by assumption) ?_ | with_reducible apply State.modFlight_keeps
    | with_reducible apply State.modStp_keeps | with_reducible exact Keeps.fields (by assumption)
    | with_reducible apply Keeps.fields | simp only [Keeps.mk_iff] | intro _ | with_reducible apply Keeps.ite | split
    | dsimp only)

theorem execCvote_keeps {s₀ s : State} (h : Keeps s₀ s) (g : Nat) : ∃ r, execCvote g s = .next r ∧ Keeps s₀ r := by
  unfold execCvote
  refine ⟨_, rfl, ?_⟩
  repeat' (first
    | with_reducible assumption | with_reducible apply State.cvote_keeps | with_reducible apply State.issueData_keeps
    | intro _ | dsimp only)

theorem execCvoteTimeout_keeps {s₀ s : State} (h : Keeps s₀ s)  : ∃ r, execCvoteTimeout s = .next r ∧ Keeps s₀ r := by
  unfold execCvoteTimeout
  refine ⟨_, rfl, ?_⟩
  repeat' (first
    | with_reducible assumption | with_reducible apply State.endCvotes_keeps | with_reducible apply State.whenRunning_keeps
    | intro _ | dsimp only)

theorem State.recadence_keeps {s₀ s : State} (h : Keeps s₀ s)   : Keeps s₀ (State.recadence s) := by
  unfold State.recadence
  repeat' (first
    | with_reducible assumption | with_reducible apply State.draw_keeps
    | with_reducible refine State.draw_keeps' (hE := by assumption) ?_ | with_reducible apply State.setReg_keeps | split
    | dsimp only)

theorem State.applyAnswer_keeps {s₀ s : State} (h : Keeps s₀ s) (step : Nat) (round : Nat) (st : Nat) (drops : List Nat)  : Keeps s₀ (State.applyAnswer s step round st drops) := by
  unfold State.applyAnswer
  repeat' (first
    | with_reducible assumption | exact fun _ k => k | exact fun _ _ => Nat.le_refl _ | exact fun _ _ => Nat.zero_le _
    | with_reducible apply State.endCvotes_keeps | with_reducible apply State.modStp_keeps
    | with_reducible apply State.recadence_keeps | with_reducible apply State.set_keeps
    | with_reducible apply State.setReg_keeps | with_reducible apply State.stpViolate_keeps
    | with_reducible exact Keeps.fields (by assumption) | with_reducible apply Keeps.fields | simp only [Keeps.mk_iff]
    | intro _ | with_reducible apply Keeps.ite | split | dsimp only)

theorem State.sendAnswer_keeps {s₀ s : State} (h : Keeps s₀ s) (ds : List Nat) (step : Nat) (round : Nat) (st : Nat) (data : List Byte)  : Keeps s₀ (State.sendAnswer s ds step round st data) := by
  unfold State.sendAnswer
  repeat' (first
    | with_reducible assumption | with_reducible apply Keeps.foldl | with_reducible apply State.tell_keeps | intro _
    | dsimp only)

theorem State.answer_keeps {s₀ s : State} (h : Keeps s₀ s) (p : Packet)  : Keeps s₀ (State.answer s p) := by
  unfold State.answer
  repeat' (first
    | with_reducible assumption | exact fun _ k => k | exact fun _ _ => Nat.le_refl _ | exact fun _ _ => Nat.zero_le _
    | with_reducible apply State.applyAnswer_keeps | with_reducible apply State.modStp_keeps
    | with_reducible apply State.sendAnswer_keeps | with_reducible exact Keeps.fields (by assumption)
    | with_reducible apply Keeps.fields | simp only [Keeps.mk_iff] | intro _ | with_reducible apply Keeps.ite | split
    | dsimp only)

theorem execAnswer_keeps {s₀ s : State} (h : Keeps s₀ s) (m : Nat) : ∃ r, execAnswer m s = .next r ∧ Keeps s₀ r := by
  unfold execAnswer
  refine ⟨_, rfl, ?_⟩
  repeat' (first
    | with_reducible assumption | with_reducible apply State.answer_keeps | with_reducible apply State.onPacket_keeps
    | intro _ | dsimp only)

theorem State.rootAnswer_keeps {s₀ s : State} (h : Keeps s₀ s)   : Keeps s₀ (State.rootAnswer s) := by
  unfold State.rootAnswer
  repeat' (first
    | with_reducible assumption | exact fun _ k => k | exact fun _ _ => Nat.le_refl _ | exact fun _ _ => Nat.zero_le _
    | with_reducible apply State.modStp_keeps | with_reducible apply State.sendAnswer_keeps
    | with_reducible exact Keeps.fields (by assumption) | with_reducible apply Keeps.fields | simp only [Keeps.mk_iff]
    | intro _ | with_reducible apply Keeps.ite | split | dsimp only)

theorem State.sendGvote_keeps {s₀ s : State} (h : Keeps s₀ s)   : Keeps s₀ (State.sendGvote s) := by
  unfold State.sendGvote
  repeat' (first
    | with_reducible assumption | exact fun _ k => k | exact fun _ _ => Nat.le_refl _ | exact fun _ _ => Nat.zero_le _
    | with_reducible apply State.modStp_keeps | with_reducible apply State.tell_keeps
    | with_reducible exact Keeps.fields (by assumption) | with_reducible apply Keeps.fields | simp only [Keeps.mk_iff]
    | intro _ | dsimp only)

theorem State.checkVotes_keeps {s₀ s : State} (h : Keeps s₀ s)   : Keeps s₀ (State.checkVotes s) := by
  unfold State.checkVotes
  repeat' (first
    | with_reducible assumption | with_reducible apply State.rootAnswer_keeps | with_reducible apply State.sendGvote_keeps
    | with_reducible apply Keeps.ite | split | dsimp only)

theorem State.selfAnswers_keeps {s₀ s : State} (h : Keeps s₀ s) (fuel : Nat) : Keeps s₀ (State.selfAnswers s fuel) := by
  induction fuel generalizing s with
  | zero => exact h
  | succ k ih =>
    unfold State.selfAnswers
    split
    · exact h
    · next hE => exact ih (State.answer_keeps (State.takeParcel_keeps h hE) _)

theorem State.takeVote_keeps {s₀ s : State} (h : Keeps s₀ s) (p : Packet) (fromMgr : Bool)  : Keeps s₀ (State.takeVote s p fromMgr) := by
  unfold State.takeVote
  repeat' (first
    | with_reducible assumption | exact fun _ k => k | exact fun _ _ => Nat.le_refl _ | exact fun _ _ => Nat.zero_le _
    | with_reducible apply State.checkVotes_keeps | with_reducible apply State.modStp_keeps
    | with_reducible apply State.selfAnswers_keeps | with_reducible apply State.sendAnswer_keeps
    | with_reducible apply State.stpViolate_keeps | with_reducible exact Keeps.fields (by assumption)
    | with_reducible apply Keeps.fields | simp only [Keeps.mk_iff] | intro _ | with_reducible apply Keeps.ite | split
    | dsimp only)

theorem execVote_keeps {s₀ s : State} (h : Keeps s₀ s) (m : Nat) : ∃ r, execVote m s = .next r ∧ Keeps s₀ r := by
  unfold execVote
  refine ⟨_, rfl, ?_⟩
  repeat' (first
    | with_reducible assumption | with_reducible apply State.onPacket_keeps | with_reducible apply State.takeVote_keeps
    | intro _ | dsimp only)

theorem execGvote_keeps {s₀ s : State} (h : Keeps s₀ s) (m : Nat) : ∃ r, execGvote m s = .next r ∧ Keeps s₀ r := by
  unfold execGvote
  refine ⟨_, rfl, ?_⟩
  repeat' (first
    | with_reducible assumption | with_reducible apply State.onPacket_keeps | with_reducible apply State.takeVote_keeps
    | intro _ | dsimp only)

theorem execVoteTimeout_keeps {s₀ s : State} (h : Keeps s₀ s)  : ∃ r, execVoteTimeout s = .next r ∧ Keeps s₀ r := by
  unfold execVoteTimeout
  refine ⟨_, rfl, ?_⟩
  repeat' (first
    | with_reducible assumption | with_reducible apply State.rootAnswer_keeps | with_reducible apply State.sendGvote_keeps
    | with_reducible apply State.whenRunning_keeps | with_reducible apply Keeps.ite | split | dsimp only)

theorem execHeartbeat_keeps {s₀ s : State} (h : Keeps s₀ s) (m : Nat) : ∃ r, execHeartbeat m s = .next r ∧ Keeps s₀ r := by
  unfold execHeartbeat
  refine ⟨_, rfl, ?_⟩
  repeat' (first
    | with_reducible assumption | with_reducible apply State.onPacket_keeps | intro _ | dsimp only)

theorem execHeartbeatSend_keeps {s₀ s : State} (h : Keeps s₀ s)  : ∃ r, execHeartbeatSend s = .next r ∧ Keeps s₀ r := by
  unfold execHeartbeatSend
  refine ⟨_, rfl, ?_⟩
  repeat' (first
    | with_reducible assumption | with_reducible apply Keeps.foldl | with_reducible apply State.join_keeps
    | with_reducible apply State.sendJoin_keeps | with_reducible apply State.tell_keeps
    | with_reducible apply State.whenRunning_keeps | intro _ | with_reducible apply Keeps.ite | split | dsimp only)

theorem execMemberLost_keeps {s₀ s : State} (h : Keeps s₀ s) (i : Nat) : ∃ r, execMemberLost i s = .next r ∧ Keeps s₀ r := by
  unfold execMemberLost
  refine ⟨_, rfl, ?_⟩
  repeat' (first
    | with_reducible assumption | with_reducible apply State.barrierLost_keeps | with_reducible apply State.checkVotes_keeps
    | with_reducible apply State.set_keeps | with_reducible apply State.whenRunning_keeps | with_reducible apply Keeps.ite
    | split | dsimp only)

theorem State.domainLinkDown_keeps {s₀ s : State} (h : Keeps s₀ s) (m : Nat) (ops : List Nat)  : Keeps s₀ (State.domainLinkDown s m ops) := by
  unfold State.domainLinkDown
  repeat' (first
    | with_reducible assumption | exact fun _ k => k | exact fun _ _ => Nat.le_refl _ | exact fun _ _ => Nat.zero_le _
    | with_reducible apply State.endCvotes_keeps | with_reducible apply State.modStp_keeps
    | with_reducible apply State.releaseWaiting_keeps | with_reducible exact Keeps.fields (by assumption)
    | with_reducible apply Keeps.fields | simp only [Keeps.mk_iff] | intro _ | with_reducible apply Keeps.ite | split
    | dsimp only)

end Machine

end Sys2Proof
end

