-- ==== Sys2Proof/Laws/KeepsMatrix.lean ====
section
/-! SUPPORT. Every operation of Machine/Matrix.lean keeps what Laws/Keeps.lean names. -/

set_option Elab.async false
set_option linter.all false

namespace Sys2Proof

namespace Machine

theorem State.failCheck_keeps {s₀ s : State} (h : Keeps s₀ s) (g : Nat) (e : Nat) (w : Nat) (kind : Nat) (index : Nat)  : Keeps s₀ (State.failCheck s g e w kind index) := by
  unfold State.failCheck
  repeat' (first
    | with_reducible assumption | with_reducible apply State.addSat_keeps | with_reducible apply State.checkFailure_keeps
    | with_reducible apply State.setReg_keeps | with_reducible apply Keeps.ite | split | dsimp only)

theorem State.failChecks_keeps {s₀ s : State} (h : Keeps s₀ s) (g : Nat) (e : Nat) (w : Nat) (kind : Nat) (is : List Nat)  : Keeps s₀ (State.failChecks s g e w kind is) := by
  unfold State.failChecks
  repeat' (first
    | with_reducible assumption | with_reducible apply Keeps.foldl | with_reducible apply State.failCheck_keeps | intro _
    | dsimp only)

theorem State.setAccum_keeps {s₀ s : State} (h : Keeps s₀ s) (g : Nat) (e : Nat) (w : Nat) (a : Accum)  : Keeps s₀ (State.setAccum s g e w a) := by
  unfold State.setAccum
  repeat' (first
    | with_reducible assumption | with_reducible apply State.modEng_keeps | intro _ | dsimp only)

theorem State.spill_keeps {s₀ s : State} (h : Keeps s₀ s) (g : Nat) (e : Nat) (w : Nat) (kt5 : Bool) (interval : Nat)  : Keeps s₀ (State.spill s g e w kt5 interval) := by
  unfold State.spill
  repeat' (first
    | with_reducible assumption | with_reducible apply State.failChecks_keeps | with_reducible apply State.modCl_keeps
    | with_reducible apply State.setAccum_keeps | with_reducible exact Keeps.fields (by assumption)
    | with_reducible apply Keeps.fields | simp only [Keeps.mk_iff] | intro _ | dsimp only)

theorem State.disturb_keeps {s₀ s : State} (h : Keeps s₀ s) (g : Nat) (e : Nat) (w : Nat) (fs : List Flip)  : Keeps s₀ (State.disturb s g e w fs) := by
  unfold State.disturb
  repeat' (first
    | with_reducible assumption | with_reducible apply State.setAccum_keeps
    | with_reducible exact Keeps.fields (by assumption) | with_reducible apply Keeps.fields | simp only [Keeps.mk_iff]
    | intro _ | with_reducible apply Keeps.ite | split | dsimp only)

theorem State.takeOrdinal_keeps {s₀ s : State} (h : Keeps s₀ s) (g : Nat) (e : Nat)  : Keeps s₀ (State.takeOrdinal s g e) := by
  unfold State.takeOrdinal
  repeat' (first
    | with_reducible assumption | with_reducible apply State.modCl_keeps | with_reducible exact Keeps.fields (by assumption)
    | with_reducible apply Keeps.fields | simp only [Keeps.mk_iff] | intro _ | split | dsimp only)

theorem State.openUnit_keeps {s₀ s : State} (h : Keeps s₀ s) {g e : Nat} {j : Job} {t : State}
    (hE : State.openUnit s g e j = some t) : Keeps s₀ t := by
  unfold State.openUnit at hE
  dsimp only at hE
  split at hE
  · cases hE
  · split at hE
    · cases hE
    · cases hE
      exact State.setAccum_keeps (State.modCl_keeps h _ _) _ _ _ _

theorem State.enterShadow_keeps {s₀ s : State} (h : Keeps s₀ s) {g e : Nat} {j : Job} {t : State}
    (hE : State.enterShadow s g e j = some t) : Keeps s₀ t := by
  unfold State.enterShadow at hE
  split at hE
  · split at hE
    · cases hE
      exact h
    · split at hE
      · cases hE
      · cases hE
        exact State.modFlight_keeps h _ _
  · cases hE
    exact h

theorem State.switchPath_keeps {s₀ s : State} (h : Keeps s₀ s) (g : Nat) (e : Nat) (j : Job)  : Keeps s₀ (State.switchPath s g e j) := by
  unfold State.switchPath
  repeat' (first
    | with_reducible assumption | with_reducible apply State.setAccum_keeps | with_reducible apply State.spill_keeps
    | with_reducible exact Keeps.fields (by assumption) | with_reducible apply Keeps.fields | simp only [Keeps.mk_iff]
    | with_reducible apply Keeps.ite | split | dsimp only)

theorem State.trayEnter_keeps {s₀ s : State} (h : Keeps s₀ s) (g : Nat)  : Keeps s₀ (State.trayEnter s g) := by
  unfold State.trayEnter
  repeat' (first
    | with_reducible assumption | with_reducible apply State.addWrap_keeps | with_reducible apply State.markReady_keeps
    | with_reducible apply State.setCl_keeps | with_reducible exact Keeps.fields (by assumption)
    | with_reducible apply Keeps.fields | simp only [Keeps.mk_iff] | with_reducible apply Keeps.ite | split | dsimp only)

theorem State.biasRow_keeps {s₀ s : State} (h : Keeps s₀ s) (g : Nat) (e : Nat) (j : Job)  : Keeps s₀ (State.biasRow s g e j).2 := by
  unfold State.biasRow
  repeat' (first
    | with_reducible assumption | with_reducible apply State.mxeCount_keeps | with_reducible apply State.readElems_keeps
    | with_reducible refine State.readElems_keeps' (hE := by assumption) ?_ | with_reducible apply State.tensorExp_keeps
    | with_reducible refine State.tensorExp_keeps' (hE := by assumption) ?_ | intro _ | with_reducible apply Keeps.ite
    | split | dsimp only)

theorem State.biasRow_keeps' {s₀ s : State} (h : Keeps s₀ s) {g : Nat} {e : Nat} {j : Job}  {rX : _} {rT : State} (hE : State.biasRow s g e j = (rX, rT)) : Keeps s₀ rT := by
  have k := State.biasRow_keeps (s₀ := s₀) (s := s) h g e j
  rw [hE] at k
  exact k

theorem State.exportTile_keeps {s₀ s : State} (h : Keeps s₀ s) (g : Nat) (j : Job) (rows : Nat) (v : Nat → Nat → Fp)  : Keeps s₀ (State.exportTile s g j rows v) := by
  unfold State.exportTile
  repeat' (first
    | with_reducible assumption | with_reducible apply State.writeTileRuns_keeps | intro _ | dsimp only)

theorem State.convertTile_keeps {s₀ s : State} (h : Keeps s₀ s) (g : Nat) (e : Nat) (j : Job) (xs : List (List EpiVal))  : Keeps s₀ (State.convertTile s g e j xs) := by
  unfold State.convertTile
  repeat' (first
    | with_reducible assumption | with_reducible apply State.mxeCount_keeps | with_reducible apply State.tallyScale_keeps
    | with_reducible apply State.tensorExp_keeps | with_reducible refine State.tensorExp_keeps' (hE := by assumption) ?_
    | with_reducible apply State.writeTileRuns_keeps | intro _ | with_reducible apply Keeps.ite | split | dsimp only)

theorem State.outputTile_keeps {s₀ s : State} (h : Keeps s₀ s) (g : Nat) (e : Nat) (w : Nat) (j : Job) (xs : List (List EpiVal))  : Keeps s₀ (State.outputTile s g e w j xs) := by
  unfold State.outputTile
  repeat' (first
    | with_reducible assumption | with_reducible apply State.modEng_keeps | with_reducible apply State.trayEnter_keeps
    | intro _ | dsimp only)

theorem State.epilogue_keeps {s₀ s : State} (h : Keeps s₀ s) (g : Nat) (e : Nat) (j : Job)  : Keeps s₀ (State.epilogue s g e j) := by
  unfold State.epilogue
  repeat' (first
    | with_reducible assumption | with_reducible apply Keeps.foldl | with_reducible apply Keeps.foldl_fst
    | with_reducible apply Keeps.foldl_snd | with_reducible apply Keeps.foldl_mid | with_reducible apply Keeps.foldl_last
    | with_reducible apply State.biasRow_keeps | with_reducible refine State.biasRow_keeps' (hE := by assumption) ?_
    | with_reducible apply State.convertTile_keeps | with_reducible apply State.exportTile_keeps
    | with_reducible apply State.markReady_keeps | with_reducible apply State.mxeCount_keeps
    | with_reducible apply State.outputTile_keeps | with_reducible apply State.tensorExp_keeps
    | with_reducible refine State.tensorExp_keeps' (hE := by assumption) ?_ | with_reducible apply State.violateN_keeps
    | intro _ | with_reducible apply Keeps.ite | split | dsimp only)

theorem State.lastChecks_keeps {s₀ s : State} (h : Keeps s₀ s) (g : Nat) (e : Nat) (w : Nat) (kt5 : Bool)  : Keeps s₀ (State.lastChecks s g e w kt5) := by
  unfold State.lastChecks
  repeat' (first
    | with_reducible assumption | with_reducible apply State.failChecks_keeps | with_reducible apply State.setAccum_keeps
    | with_reducible exact Keeps.fields (by assumption) | with_reducible apply Keeps.fields | simp only [Keeps.mk_iff]
    | intro _ | with_reducible apply Keeps.ite | split | dsimp only)

theorem State.endShadow_keeps {s₀ s : State} (h : Keeps s₀ s) (g : Nat) (e : Nat) (w : Nat) (x : Accum) (j : Job)  : Keeps s₀ (State.endShadow s g e w x j) := by
  unfold State.endShadow
  repeat' (first
    | with_reducible assumption | with_reducible apply State.mma_keeps | with_reducible apply State.modCl_keeps
    | with_reducible exact Keeps.fields (by assumption) | with_reducible apply Keeps.fields | simp only [Keeps.mk_iff]
    | intro _ | with_reducible apply Keeps.ite | split | dsimp only)

theorem State.closeUnit_keeps {s₀ s : State} (h : Keeps s₀ s) (g : Nat) (e : Nat) (j : Job)  : Keeps s₀ (State.closeUnit s g e j) := by
  unfold State.closeUnit
  repeat' (first
    | with_reducible assumption | with_reducible apply State.endShadow_keeps | with_reducible apply State.epilogue_keeps
    | with_reducible apply State.lastChecks_keeps | with_reducible apply State.modCl_keeps
    | with_reducible apply State.setAccum_keeps | with_reducible apply State.spill_keeps
    | with_reducible exact Keeps.fields (by assumption) | with_reducible apply Keeps.fields | simp only [Keeps.mk_iff]
    | intro _ | dsimp only)

theorem State.consume_keeps {s₀ s : State} (h : Keeps s₀ s) (g : Nat) (e : Nat) (j : Job) (pos : Nat) (n : Nat)  : Keeps s₀ (State.consume s g e j pos n) := by
  unfold State.consume
  repeat' (first
    | with_reducible assumption | with_reducible apply Keeps.foldl | with_reducible apply State.addCycles_keeps
    | with_reducible apply State.addWrap_keeps | with_reducible apply State.mxeCount_keeps
    | with_reducible apply State.setAccum_keeps | with_reducible apply State.violateN_keeps
    | with_reducible exact Keeps.fields (by assumption) | with_reducible apply Keeps.fields | simp only [Keeps.mk_iff]
    | intro _ | split | dsimp only)

theorem State.popEngine_keeps {s₀ s : State} (h : Keeps s₀ s) (g : Nat) (e : Nat)  : Keeps s₀ (State.popEngine s g e) := by
  unfold State.popEngine
  repeat' (first
    | with_reducible assumption | with_reducible apply State.modEng_keeps
    | with_reducible exact Keeps.fields (by assumption) | with_reducible apply Keeps.fields | simp only [Keeps.mk_iff]
    | intro _ | dsimp only)

theorem State.noteSpill_keeps {s₀ s : State} (h : Keeps s₀ s) (g : Nat) (e : Nat) (j : Job)  : Keeps s₀ (State.noteSpill s g e j) := by
  unfold State.noteSpill
  repeat' (first
    | with_reducible assumption | with_reducible apply State.setAccum_keeps
    | with_reducible exact Keeps.fields (by assumption) | with_reducible apply Keeps.fields | simp only [Keeps.mk_iff]
    | dsimp only)

theorem State.runHead_keeps {s₀ s : State} (h : Keeps s₀ s) (g : Nat) (e : Nat) (j : Job) (fs : List Flip)  : Keeps s₀ (State.runHead s g e j fs).1 := by
  unfold State.runHead
  repeat' (first
    | with_reducible assumption | with_reducible apply State.closeUnit_keeps | with_reducible apply State.consume_keeps
    | with_reducible apply State.disturb_keeps | with_reducible apply State.markReady_keeps
    | with_reducible apply State.modEng_keeps | with_reducible apply State.noteSpill_keeps
    | with_reducible apply State.popEngine_keeps | with_reducible exact Keeps.fields (by assumption)
    | with_reducible apply Keeps.fields | simp only [Keeps.mk_iff] | intro _ | with_reducible apply Keeps.ite | split
    | dsimp only)

theorem State.runHead_keeps' {s₀ s : State} (h : Keeps s₀ s) {g : Nat} {e : Nat} {j : Job} {fs : List Flip}  {rX : _} {rT : State} (hE : State.runHead s g e j fs = (rT, rX)) : Keeps s₀ rT := by
  have k := State.runHead_keeps (s₀ := s₀) (s := s) h g e j fs
  rw [hE] at k
  exact k

theorem State.dropMma_keeps {s₀ s : State} (h : Keeps s₀ s) (g : Nat) (e : Nat) (j : Job)  : Keeps s₀ (State.dropMma s g e j) := by
  unfold State.dropMma
  repeat' (first
    | with_reducible assumption | with_reducible apply State.dropReserved_keeps | with_reducible apply State.modCl_keeps
    | with_reducible apply State.popEngine_keeps | with_reducible exact Keeps.fields (by assumption)
    | with_reducible apply Keeps.fields | simp only [Keeps.mk_iff] | intro _ | dsimp only)

theorem State.runShadowed_keeps {s₀ s : State} (h : Keeps s₀ s) (g : Nat) (e : Nat) (j : Job) (switch : Bool) (fs : List Flip)  : Keeps s₀ (State.runShadowed s g e j switch fs).1 := by
  unfold State.runShadowed
  repeat' (first
    | with_reducible assumption | with_reducible refine State.enterShadow_keeps (hE := by assumption) ?_
    | with_reducible apply State.runHead_keeps | with_reducible refine State.runHead_keeps' (hE := by assumption) ?_
    | with_reducible apply State.switchPath_keeps | with_reducible exact Keeps.fields (by assumption)
    | with_reducible apply Keeps.fields | simp only [Keeps.mk_iff] | with_reducible apply Keeps.ite | split | dsimp only)

theorem State.runShadowed_keeps' {s₀ s : State} (h : Keeps s₀ s) {g : Nat} {e : Nat} {j : Job} {switch : Bool} {fs : List Flip}  {rX : _} {rT : State} (hE : State.runShadowed s g e j switch fs = (rT, rX)) : Keeps s₀ rT := by
  have k := State.runShadowed_keeps (s₀ := s₀) (s := s) h g e j switch fs
  rw [hE] at k
  exact k

theorem State.engineGo_keeps {s₀ s : State} (h : Keeps s₀ s) (g : Nat) (e : Nat) (fuel : Nat) (fs : List Flip)  : Keeps s₀ (State.engineGo s g e fuel fs) := by
  induction fuel generalizing s fs with
  | zero => exact h
  | succ k ih =>
    unfold State.engineGo
    repeat' (first
      | with_reducible assumption | with_reducible apply ih | with_reducible apply State.dropMma_keeps
      | with_reducible refine State.openUnit_keeps (hE := by assumption) ?_ | with_reducible apply State.runShadowed_keeps
      | with_reducible refine State.runShadowed_keeps' (hE := by assumption) ?_
      | with_reducible apply State.takeOrdinal_keeps | with_reducible exact Keeps.fields (by assumption)
      | with_reducible apply Keeps.fields | simp only [Keeps.mk_iff] | with_reducible apply Keeps.ite | split | dsimp only)

theorem State.engineRun_keeps {s₀ s : State} (h : Keeps s₀ s) (g : Nat) (e : Nat) (fs : List Flip)  : Keeps s₀ (State.engineRun s g e fs) := by
  unfold State.engineRun
  repeat' (first
    | with_reducible assumption | with_reducible apply State.engineGo_keeps | dsimp only)

theorem State.runEngines_keeps {s₀ s : State} (h : Keeps s₀ s) (g : Nat)  : Keeps s₀ (State.runEngines s g) := by
  unfold State.runEngines
  repeat' (first
    | with_reducible assumption | with_reducible apply Keeps.foldl | with_reducible apply State.engineRun_keeps | intro _
    | dsimp only)

theorem State.mma_keeps {s₀ s : State} (h : Keeps s₀ s) (j : Job) (fs : List Flip)  : Keeps s₀ (State.mma s j fs) := by
  unfold State.mma
  repeat' (first
    | with_reducible assumption | with_reducible apply State.dropFormat_keeps
    | with_reducible apply State.dropReserved_keeps | with_reducible apply State.engineRun_keeps
    | with_reducible apply State.modCl_keeps | with_reducible exact Keeps.fields (by assumption)
    | with_reducible apply Keeps.fields | simp only [Keeps.mk_iff] | intro _ | with_reducible apply Keeps.ite | split
    | dsimp only)

theorem execMma_keeps {s₀ s : State} (h : Keeps s₀ s) (g : Nat) (flips : List Flip) : ∃ r, execMma g flips s = .next r ∧ Keeps s₀ r := by
  unfold execMma
  refine ⟨_, rfl, ?_⟩
  repeat' (first
    | with_reducible assumption | with_reducible apply State.issueData_keeps | with_reducible apply State.mma_keeps
    | intro _ | dsimp only)

theorem execLaminationSpill_keeps {s₀ s : State} (h : Keeps s₀ s) (g : Nat) (e : Nat) (flips : List Flip) : ∃ r, execLaminationSpill g e flips s = .next r ∧ Keeps s₀ r := by
  unfold execLaminationSpill
  refine ⟨_, rfl, ?_⟩
  repeat' (first
    | with_reducible assumption | with_reducible apply State.disturb_keeps | with_reducible apply State.engineRun_keeps
    | with_reducible apply State.spill_keeps | with_reducible apply State.whenRunning_keeps | with_reducible apply Keeps.ite
    | split | dsimp only)

theorem execTrayEntry_keeps {s₀ s : State} (h : Keeps s₀ s) (g : Nat) : ∃ r, execTrayEntry g s = .next r ∧ Keeps s₀ r := by
  unfold execTrayEntry
  refine ⟨_, rfl, ?_⟩
  repeat' (first
    | with_reducible assumption | with_reducible apply State.addCycles_keeps | with_reducible apply State.runEngines_keeps
    | with_reducible apply State.trayEnter_keeps | with_reducible apply State.whenRunning_keeps
    | with_reducible exact Keeps.fields (by assumption) | with_reducible apply Keeps.fields | simp only [Keeps.mk_iff]
    | with_reducible apply Keeps.ite | split | dsimp only)

end Machine

end Sys2Proof
end

