-- ==== Sys2Proof/Laws/KeepsVector.lean ====
section
/-! SUPPORT. Every operation of Machine/Vector.lean keeps what Laws/Keeps.lean names. -/

set_option Elab.async false
set_option linter.all false

namespace Sys2Proof

namespace Machine

theorem State.popTray_keeps {s₀ s : State} (h : Keeps s₀ s) {g : Nat} {x : List (BitVec 32)} {t : State}
    (hE : State.popTray s g = some (x, t)) : Keeps s₀ t := by
  unfold State.popTray at hE
  split at hE
  · cases hE
  · simp only [Option.some.injEq, Prod.mk.injEq] at hE
    obtain ⟨_, rfl⟩ := hE
    exact State.addWrap_keeps (State.modCl_keeps h _ _) _ _ _ _

theorem State.vecBusy_keeps {s₀ s : State} (h : Keeps s₀ s) (g : Nat) (n : Nat) (cyc : Nat)  : Keeps s₀ (State.vecBusy s g n cyc) := by
  unfold State.vecBusy
  repeat' (first
    | with_reducible assumption | with_reducible apply State.addCycles_keeps | dsimp only)

theorem State.countExp_keeps {s₀ s : State} (h : Keeps s₀ s) (g : Nat) (n : Nat) (d : List Byte)  : Keeps s₀ (State.countExp s g n d) := by
  unfold State.countExp
  repeat' (first
    | with_reducible assumption | with_reducible apply State.tensorExp_keeps
    | with_reducible refine State.tensorExp_keeps' (hE := by assumption) ?_ | dsimp only)

theorem State.vecTile_keeps {s₀ s : State} (h : Keeps s₀ s) (j : Job) (d : List Byte) (i : Nat)  : Keeps s₀ (State.vecTile s j d i).st := by
  unfold State.vecTile
  repeat' (first
    | with_reducible assumption | with_reducible apply Keeps.foldl | with_reducible apply Keeps.foldl_fst
    | with_reducible apply Keeps.foldl_snd | with_reducible apply Keeps.foldl_mid | with_reducible apply Keeps.foldl_last
    | with_reducible apply State.readTile_keeps | with_reducible refine State.readTile_keeps' (hE := by assumption) ?_
    | intro _ | split | dsimp only)

theorem State.vecGroup_keeps {s₀ s : State} (h : Keeps s₀ s) (j : Job) (v : Nat)  : Keeps s₀ (State.vecGroup s j v).st := by
  unfold State.vecGroup
  repeat' (first
    | with_reducible assumption | with_reducible apply State.violateIf_keeps | intro _ | dsimp only)

theorem State.vecSource_keeps {s₀ s : State} (h : Keeps s₀ s) {j : Job} {src v : Nat} {d : List Byte} {i : Nat} {x : TileIn}
    (hE : State.vecSource s j src v d i = some x) : Keeps s₀ x.st := by
  unfold State.vecSource at hE
  split at hE
  · obtain rfl := Option.some.inj hE
    exact State.vecTile_keeps h _ _ _
  · split at hE
    · split at hE
      · cases hE
      · next hP =>
        obtain rfl := Option.some.inj hE
        exact State.popTray_keeps h hP
    · obtain rfl := Option.some.inj hE
      exact State.vecGroup_keeps h _ _

theorem State.vecSecond_keeps {s₀ s : State} (h : Keeps s₀ s) (j : Job) (i : Nat)  : Keeps s₀ (State.vecSecond s j i).st := by
  unfold State.vecSecond
  repeat' (first
    | with_reducible assumption | with_reducible apply State.readElems_keeps
    | with_reducible refine State.readElems_keeps' (hE := by assumption) ?_ | dsimp only)

theorem State.vecMasks_keeps {s₀ s : State} (h : Keeps s₀ s) (j : Job) (i : Nat)  : Keeps s₀ (State.vecMasks s j i).2 := by
  unfold State.vecMasks
  repeat' (first
    | with_reducible assumption | with_reducible apply State.readTile_keeps
    | with_reducible refine State.readTile_keeps' (hE := by assumption) ?_ | intro _ | with_reducible apply Keeps.ite
    | split | dsimp only)

theorem State.vecMasks_keeps' {s₀ s : State} (h : Keeps s₀ s) {j : Job} {i : Nat}  {rX : _} {rT : State} (hE : State.vecMasks s j i = (rX, rT)) : Keeps s₀ rT := by
  have k := State.vecMasks_keeps (s₀ := s₀) (s := s) h j i
  rw [hE] at k
  exact k

theorem State.vecConv_keeps {s₀ s : State} (h : Keeps s₀ s) (j : Job) (tally : Bool) (cs : List Cnt) (amax : Nat)  : Keeps s₀ (State.vecConv s j tally cs amax) := by
  unfold State.vecConv
  repeat' (first
    | with_reducible assumption | with_reducible apply State.tallyScale_keeps | with_reducible apply State.vecCount_keeps
    | with_reducible apply Keeps.ite | split | dsimp only)

theorem State.chainToTile_keeps {s₀ s : State} (h : Keeps s₀ s) (j : Job) (i : Nat) (ps : List (BitVec 32))  : Keeps s₀ (State.chainToTile s j i ps) := by
  unfold State.chainToTile
  repeat' (first
    | with_reducible assumption | with_reducible apply State.vecConv_keeps | with_reducible apply State.writeTileRuns_keeps
    | intro _ | dsimp only)

theorem State.chainToTensor_keeps {s₀ s : State} (h : Keeps s₀ s) (j : Job) (i : Nat) (ps : List (BitVec 32))  : Keeps s₀ (State.chainToTensor s j i ps) := by
  unfold State.chainToTensor
  repeat' (first
    | with_reducible assumption | with_reducible apply Keeps.foldl | with_reducible apply State.vecConv_keeps
    | with_reducible apply State.writeElems_keeps | with_reducible refine State.writeElems_keeps' (hE := by assumption) ?_
    | with_reducible exact Keeps.fields (by assumption) | with_reducible apply Keeps.fields | simp only [Keeps.mk_iff]
    | intro _ | with_reducible apply Keeps.ite | split | dsimp only)

theorem State.chainToRegs_keeps {s₀ s : State} (h : Keeps s₀ s) (j : Job) (i : Nat) (ps : List (BitVec 32))  : Keeps s₀ (State.chainToRegs s j i ps) := by
  unfold State.chainToRegs
  repeat' (first
    | with_reducible assumption | with_reducible apply State.modCl_keeps | with_reducible apply State.violateIf_keeps
    | intro _ | dsimp only)

theorem State.chainTile_keeps {s₀ s : State} (h : Keeps s₀ s) (j : Job) (i : Nat) (x : TileIn) (hx : Keeps s₀ x.st) : Keeps s₀ (State.chainTile s j i x) := by
  unfold State.chainTile
  repeat' (first
    | with_reducible assumption | with_reducible apply Keeps.foldl | with_reducible apply Keeps.foldl_fst
    | with_reducible apply Keeps.foldl_snd | with_reducible apply Keeps.foldl_mid | with_reducible apply Keeps.foldl_last
    | with_reducible apply State.addWrap_keeps | with_reducible apply State.chainToRegs_keeps
    | with_reducible apply State.chainToTensor_keeps | with_reducible apply State.chainToTile_keeps
    | with_reducible apply State.vecBusy_keeps | with_reducible apply State.vecCount_keeps
    | with_reducible apply State.vecMasks_keeps | with_reducible refine State.vecMasks_keeps' (hE := by assumption) ?_
    | with_reducible apply State.vecSecond_keeps | with_reducible refine State.vecSecond_keeps' (hE := by assumption) ?_
    | intro _ | with_reducible apply Keeps.ite | split | dsimp only)

theorem State.chainStart_keeps {s₀ s : State} (h : Keeps s₀ s) (j : Job)  : Keeps s₀ (State.chainStart s j) := by
  unfold State.chainStart
  repeat' (first
    | with_reducible assumption | with_reducible apply State.countExp_keeps | with_reducible apply State.violateIf_keeps
    | with_reducible apply Keeps.ite | split | dsimp only)

theorem State.vchainStep_keeps {s₀ s : State} (h : Keeps s₀ s) (j : Job)  : Keeps s₀ (State.vchainStep s j).1 := by
  unfold State.vchainStep
  repeat' (first
    | with_reducible assumption | with_reducible apply State.chainStart_keeps | with_reducible apply State.chainTile_keeps
    | with_reducible refine State.vecSource_keeps (hE := by assumption) ?_
    | with_reducible exact Keeps.fields (by assumption) | with_reducible apply Keeps.fields | simp only [Keeps.mk_iff]
    | with_reducible apply Keeps.ite | split | dsimp only)

theorem State.vchainStep_keeps' {s₀ s : State} (h : Keeps s₀ s) {j : Job}  {rX : _} {rT : State} (hE : State.vchainStep s j = (rT, rX)) : Keeps s₀ rT := by
  have k := State.vchainStep_keeps (s₀ := s₀) (s := s) h j
  rw [hE] at k
  exact k

theorem State.redPlace_keeps {s₀ s : State} (h : Keeps s₀ s) (j : Job) (rs : List (BitVec 32))  : Keeps s₀ (State.redPlace s j rs) := by
  unfold State.redPlace
  repeat' (first
    | with_reducible assumption | with_reducible apply State.modCl_keeps | with_reducible apply State.writeTileRuns_keeps
    | with_reducible exact Keeps.fields (by assumption) | with_reducible apply Keeps.fields | simp only [Keeps.mk_iff]
    | intro _ | with_reducible apply Keeps.ite | split | dsimp only)

theorem State.vredStep_keeps {s₀ s : State} (h : Keeps s₀ s) (j : Job)  : Keeps s₀ (State.vredStep s j).1 := by
  unfold State.vredStep
  repeat' (first
    | with_reducible assumption | with_reducible apply State.countExp_keeps | with_reducible apply State.modCl_keeps
    | with_reducible apply State.redPlace_keeps | with_reducible apply State.vecBusy_keeps
    | with_reducible apply State.vecCount_keeps | with_reducible refine State.vecSource_keeps (hE := by assumption) ?_
    | with_reducible exact Keeps.fields (by assumption) | with_reducible apply Keeps.fields | simp only [Keeps.mk_iff]
    | intro _ | with_reducible apply Keeps.ite | split | dsimp only)

theorem State.vredStep_keeps' {s₀ s : State} (h : Keeps s₀ s) {j : Job}  {rX : _} {rT : State} (hE : State.vredStep s j = (rT, rX)) : Keeps s₀ rT := by
  have k := State.vredStep_keeps (s₀ := s₀) (s := s) h j
  rw [hE] at k
  exact k

theorem State.vshuf_keeps {s₀ s : State} (h : Keeps s₀ s) (j : Job)  : Keeps s₀ (State.vshuf s j) := by
  unfold State.vshuf
  repeat' (first
    | with_reducible assumption | with_reducible apply State.modCl_keeps | with_reducible apply State.vecBusy_keeps
    | with_reducible exact Keeps.fields (by assumption) | with_reducible apply Keeps.fields | simp only [Keeps.mk_iff]
    | intro _ | dsimp only)

theorem State.rmask_keeps {s₀ s : State} (h : Keeps s₀ s) (j : Job)  : Keeps s₀ (State.rmask s j) := by
  unfold State.rmask
  repeat' (first
    | with_reducible assumption | with_reducible apply State.vecBusy_keeps | with_reducible apply State.writeTileRuns_keeps
    | intro _ | dsimp only)

end Machine

end Sys2Proof
end

