-- ==== Sys2Proof/Laws/KeepsAttention.lean ====
section
/-! SUPPORT. Every operation of Machine/Attention.lean keeps what Laws/Keeps.lean names. -/

set_option Elab.async false
set_option linter.all false

namespace Sys2Proof

namespace Machine

theorem State.readTable_keeps {s₀ s : State} (h : Keeps s₀ s) (j : Job)  : Keeps s₀ (State.readTable s j).2 := by
  unfold State.readTable
  repeat' (first
    | with_reducible assumption | with_reducible apply State.load_keeps
    | with_reducible refine State.load_keeps' (hE := by assumption) ?_ | with_reducible exact Keeps.fields (by assumption)
    | with_reducible apply Keeps.fields | simp only [Keeps.mk_iff] | split | dsimp only)

theorem State.readTable_keeps' {s₀ s : State} (h : Keeps s₀ s) {j : Job}  {rX : _} {rT : State} (hE : State.readTable s j = (rX, rT)) : Keeps s₀ rT := by
  have k := State.readTable_keeps (s₀ := s₀) (s := s) h j
  rw [hE] at k
  exact k

theorem State.arrayCount_keeps {s₀ s : State} (h : Keeps s₀ s) (g : Nat) (e : Nat) (nf : Nat) (sat : Nat) (xs : List ArrayOut)  : Keeps s₀ (State.arrayCount s g e nf sat xs) := by
  unfold State.arrayCount
  repeat' (first
    | with_reducible assumption | with_reducible apply State.failChecks_keeps | with_reducible apply State.mxeCount_keeps
    | intro _ | dsimp only)

theorem State.ablkLast_keeps {s₀ s : State} (h : Keeps s₀ s) (j : Job) (rs : List RowState)  : Keeps s₀ (State.ablkLast s j rs) := by
  unfold State.ablkLast
  repeat' (first
    | with_reducible assumption | with_reducible apply State.modCl_keeps | with_reducible apply State.vecCount_keeps
    | with_reducible apply State.writeTileRuns_keeps | with_reducible exact Keeps.fields (by assumption)
    | with_reducible apply Keeps.fields | simp only [Keeps.mk_iff] | intro _ | dsimp only)

theorem State.blockCycles_keeps {s₀ s : State} (h : Keeps s₀ s) (j : Job) (rows : Nat) (e0 : Nat) (e1 : Nat)  : Keeps s₀ (State.blockCycles s j rows e0 e1) := by
  unfold State.blockCycles
  repeat' (first
    | with_reducible assumption | with_reducible apply Keeps.foldl | with_reducible apply State.addCycles_keeps | intro _
    | dsimp only)

theorem State.blockArgs_keeps {s₀ s : State} (h : Keeps s₀ s) (j : Job) (adms : List (List Bool)) (states : List RowState) (rows : Nat)  : Keeps s₀ (State.blockArgs s j adms states rows).2 := by
  unfold State.blockArgs
  repeat' (first
    | with_reducible assumption | with_reducible apply Keeps.foldl | with_reducible apply Keeps.foldl_fst
    | with_reducible apply Keeps.foldl_snd | with_reducible apply Keeps.foldl_mid | with_reducible apply Keeps.foldl_last
    | with_reducible apply State.tensorExp_keeps | with_reducible refine State.tensorExp_keeps' (hE := by assumption) ?_
    | with_reducible apply State.violateN_keeps | intro _ | split | dsimp only)

theorem State.blockArgs_keeps' {s₀ s : State} (h : Keeps s₀ s) {j : Job} {adms : List (List Bool)} {states : List RowState} {rows : Nat}  {rX : _} {rT : State} (hE : State.blockArgs s j adms states rows = (rX, rT)) : Keeps s₀ rT := by
  have k := State.blockArgs_keeps (s₀ := s₀) (s := s) h j adms states rows
  rw [hE] at k
  exact k

theorem State.ablkWork_keeps {s₀ s : State} (h : Keeps s₀ s) (j : Job) (adms : List (List Bool)) (states : List RowState) (top : Nat) (fs : List Flip)  : Keeps s₀ (State.ablkWork s j adms states top fs).2.2 := by
  unfold State.ablkWork
  repeat' (first
    | with_reducible assumption | with_reducible apply Keeps.foldl | with_reducible apply Keeps.foldl_fst
    | with_reducible apply Keeps.foldl_snd | with_reducible apply Keeps.foldl_mid | with_reducible apply Keeps.foldl_last
    | with_reducible apply State.arrayCount_keeps | with_reducible apply State.blockArgs_keeps
    | with_reducible refine State.blockArgs_keeps' (hE := by assumption) ?_ | with_reducible apply State.blockCycles_keeps
    | with_reducible apply State.fold_keeps | with_reducible apply State.vecBusy_keeps
    | with_reducible apply State.vecCount_keeps | intro _ | with_reducible apply Keeps.ite | split | dsimp only)

theorem State.ablkWork_keeps' {s₀ s : State} (h : Keeps s₀ s) {j : Job} {adms : List (List Bool)} {states : List RowState} {top : Nat} {fs : List Flip}  {rX : _} {rY : _} {rT : State} (hE : State.ablkWork s j adms states top fs = (rX, rY, rT)) : Keeps s₀ rT := by
  have k := State.ablkWork_keeps (s₀ := s₀) (s := s) h j adms states top fs
  rw [hE] at k
  exact k

theorem State.ablkShadow_keeps {s₀ s : State} (h : Keeps s₀ s) (j : Job) (sel : Bool) (fails : List Nat) (args : Option BlockArgs)  : Keeps s₀ (State.ablkShadow s j sel fails args) := by
  unfold State.ablkShadow
  repeat' (first
    | with_reducible assumption | with_reducible apply State.modCl_keeps | with_reducible apply State.modFlight_keeps
    | with_reducible exact Keeps.fields (by assumption) | with_reducible apply Keeps.fields | simp only [Keeps.mk_iff]
    | intro _ | with_reducible apply Keeps.ite | split | dsimp only)

theorem State.takeVord_keeps {s₀ s : State} (h : Keeps s₀ s) (g : Nat)  : Keeps s₀ (State.takeVord s g) := by
  unfold State.takeVord
  repeat' (first
    | with_reducible assumption | with_reducible apply State.modCl_keeps | with_reducible exact Keeps.fields (by assumption)
    | with_reducible apply Keeps.fields | simp only [Keeps.mk_iff] | intro _ | split | dsimp only)

theorem State.ablkStep_keeps {s₀ s : State} (h : Keeps s₀ s) (j : Job) (fs : List Flip)  : Keeps s₀ (State.ablkStep s j fs).1 := by
  unfold State.ablkStep
  repeat' (first
    | with_reducible assumption | with_reducible apply State.ablkLast_keeps | with_reducible apply State.ablkShadow_keeps
    | with_reducible apply State.ablkWork_keeps | with_reducible refine State.ablkWork_keeps' (hE := by assumption) ?_
    | with_reducible apply State.modCl_keeps | with_reducible apply State.takeVord_keeps
    | with_reducible apply State.violateIf_keeps | with_reducible exact Keeps.fields (by assumption)
    | with_reducible apply Keeps.fields | simp only [Keeps.mk_iff] | intro _ | with_reducible apply Keeps.ite | split
    | dsimp only)

theorem State.ablkStep_keeps' {s₀ s : State} (h : Keeps s₀ s) {j : Job} {fs : List Flip}  {rX : _} {rT : State} (hE : State.ablkStep s j fs = (rT, rX)) : Keeps s₀ rT := by
  have k := State.ablkStep_keeps (s₀ := s₀) (s := s) h j fs
  rw [hE] at k
  exact k

end Machine

end Sys2Proof
end

