-- ==== Sys2Proof/Laws/KeepsVideo.lean ====
section
/-! SUPPORT. Every operation of Machine/Video.lean keeps what Laws/Keeps.lean names. -/

set_option Elab.async false
set_option linter.all false

namespace Sys2Proof

namespace Machine

theorem State.vdwc_keeps {s₀ s : State} (h : Keeps s₀ s) (j : Job)  : Keeps s₀ (State.vdwc s j) := by
  unfold State.vdwc
  repeat' (first
    | with_reducible assumption | with_reducible apply Keeps.foldl | with_reducible apply Keeps.foldl_fst
    | with_reducible apply Keeps.foldl_snd | with_reducible apply Keeps.foldl_mid | with_reducible apply Keeps.foldl_last
    | with_reducible apply State.readElems_keeps | with_reducible refine State.readElems_keeps' (hE := by assumption) ?_
    | with_reducible apply State.tensorExp_keeps | with_reducible refine State.tensorExp_keeps' (hE := by assumption) ?_
    | with_reducible apply State.vecBusy_keeps | with_reducible apply State.vecCount_keeps
    | with_reducible apply State.violateN_keeps | with_reducible apply State.writeTileRuns_keeps
    | with_reducible exact Keeps.fields (by assumption) | with_reducible apply Keeps.fields | simp only [Keeps.mk_iff]
    | intro _ | split | dsimp only)

end Machine

end Sys2Proof
end

