-- ==== Sys2Proof/Laws/KeepsTraining.lean ====
section
/-! SUPPORT. Every operation of Machine/Training.lean keeps what Laws/Keeps.lean names. -/

set_option Elab.async false
set_option linter.all false

namespace Sys2Proof

namespace Machine

theorem State.normGroup_keeps {s₀ s : State} (h : Keeps s₀ s) (j : Job) (ex : Int) (i : Nat)  : Keeps s₀ (State.normGroup s j ex i) := by
  unfold State.normGroup
  repeat' (first
    | with_reducible assumption | with_reducible apply State.modCl_keeps | with_reducible apply State.readElems_keeps
    | with_reducible refine State.readElems_keeps' (hE := by assumption) ?_ | with_reducible apply State.vecCount_keeps
    | with_reducible exact Keeps.fields (by assumption) | with_reducible apply Keeps.fields | simp only [Keeps.mk_iff]
    | intro _ | dsimp only)

theorem State.normsq_keeps {s₀ s : State} (h : Keeps s₀ s) (j : Job)  : Keeps s₀ (State.normsq s j) := by
  unfold State.normsq
  repeat' (first
    | with_reducible assumption | with_reducible apply Keeps.foldl | with_reducible apply State.normGroup_keeps
    | with_reducible apply State.tensorExp_keeps | with_reducible refine State.tensorExp_keeps' (hE := by assumption) ?_
    | with_reducible apply State.vecBusy_keeps | intro _ | with_reducible apply Keeps.ite | split | dsimp only)

theorem State.normClose_keeps {s₀ s : State} (h : Keeps s₀ s) (j : Job)  : Keeps s₀ (State.normClose s j) := by
  unfold State.normClose
  repeat' (first
    | with_reducible assumption | with_reducible apply State.modCl_keeps | with_reducible apply State.tallyScale_keeps
    | with_reducible apply State.vecBusy_keeps | with_reducible apply State.vecCount_keeps
    | with_reducible apply State.violate_keeps | with_reducible apply State.writeElems_keeps
    | with_reducible refine State.writeElems_keeps' (hE := by assumption) ?_
    | with_reducible exact Keeps.fields (by assumption) | with_reducible apply Keeps.fields | simp only [Keeps.mk_iff]
    | intro _ | with_reducible apply Keeps.ite | split | dsimp only)

theorem State.foldGroup_keeps {s₀ s : State} (h : Keeps s₀ s) (j : Job) (ex : Int) (i : Nat)  : Keeps s₀ (State.foldGroup s j ex i) := by
  unfold State.foldGroup
  repeat' (first
    | with_reducible assumption | with_reducible apply State.readElems_keeps
    | with_reducible refine State.readElems_keeps' (hE := by assumption) ?_ | with_reducible apply State.tallyScale_keeps
    | with_reducible apply State.vecCount_keeps | with_reducible apply State.writeElems_keeps
    | with_reducible refine State.writeElems_keeps' (hE := by assumption) ?_ | intro _ | split | dsimp only)

theorem State.fold_keeps {s₀ s : State} (h : Keeps s₀ s) (j : Job)  : Keeps s₀ (State.fold s j) := by
  unfold State.fold
  repeat' (first
    | with_reducible assumption | with_reducible apply Keeps.foldl | with_reducible apply State.foldGroup_keeps
    | with_reducible apply State.tensorExp_keeps | with_reducible refine State.tensorExp_keeps' (hE := by assumption) ?_
    | with_reducible apply State.vecBusy_keeps | with_reducible apply State.violate_keeps | intro _
    | with_reducible apply Keeps.ite | split | dsimp only)

theorem State.stateLoad_keeps {s₀ s : State} (h : Keeps s₀ s) (j : Job) (runs : List (Nat × Nat))  : Keeps s₀ (State.stateLoad s j runs).2 := by
  unfold State.stateLoad
  repeat' (first
    | with_reducible assumption | with_reducible apply State.loadRuns_keeps
    | with_reducible refine State.loadRuns_keeps' (hE := by assumption) ?_ | intro _ | with_reducible apply Keeps.ite
    | split | dsimp only)

theorem State.stateLoad_keeps' {s₀ s : State} (h : Keeps s₀ s) {j : Job} {runs : List (Nat × Nat)}  {rX : _} {rT : State} (hE : State.stateLoad s j runs = (rX, rT)) : Keeps s₀ rT := by
  have k := State.stateLoad_keeps (s₀ := s₀) (s := s) h j runs
  rw [hE] at k
  exact k

theorem State.stateStore_keeps {s₀ s : State} (h : Keeps s₀ s) (j : Job) (runs : List (Nat × List Byte))  : Keeps s₀ (State.stateStore s j runs) := by
  unfold State.stateStore
  repeat' (first
    | with_reducible assumption | with_reducible apply State.storeRuns_keeps | with_reducible apply Keeps.ite | split
    | dsimp only)

theorem State.headerLoad_keeps {s₀ s : State} (h : Keeps s₀ s) (j : Job) (at_ : Nat)  : Keeps s₀ (State.headerLoad s j at_).2 := by
  unfold State.headerLoad
  repeat' (first
    | with_reducible assumption | with_reducible apply State.stateLoad_keeps
    | with_reducible refine State.stateLoad_keeps' (hE := by assumption) ?_ | split | dsimp only)

theorem State.headerLoad_keeps' {s₀ s : State} (h : Keeps s₀ s) {j : Job} {at_ : Nat}  {rX : _} {rT : State} (hE : State.headerLoad s j at_ = (rX, rT)) : Keeps s₀ rT := by
  have k := State.headerLoad_keeps (s₀ := s₀) (s := s) h j at_
  rw [hE] at k
  exact k

theorem State.updateRun_keeps {s₀ s : State} (h : Keeps s₀ s) (j : Job) (u : UpdCtx) (ea : Int) (eb : Int) (r : Span)  : Keeps s₀ (State.updateRun s j u ea eb r) := by
  unfold State.updateRun
  repeat' (first
    | with_reducible assumption | with_reducible apply Keeps.foldl | with_reducible apply Keeps.foldl_fst
    | with_reducible apply Keeps.foldl_snd | with_reducible apply Keeps.foldl_mid | with_reducible apply Keeps.foldl_last
    | with_reducible apply State.addWrap_keeps | with_reducible apply State.readElems_keeps
    | with_reducible refine State.readElems_keeps' (hE := by assumption) ?_ | with_reducible apply State.stateLoad_keeps
    | with_reducible refine State.stateLoad_keeps' (hE := by assumption) ?_ | with_reducible apply State.stateStore_keeps
    | with_reducible apply State.tallyScale_keeps | with_reducible apply State.vecCount_keeps
    | with_reducible apply State.writeElems_keeps | with_reducible refine State.writeElems_keeps' (hE := by assumption) ?_
    | intro _ | with_reducible apply Keeps.ite | split | dsimp only)

theorem State.updateGroups_keeps {s₀ s : State} (h : Keeps s₀ s) (j : Job) (sc : Sched) (k : Fp)  : Keeps s₀ (State.updateGroups s j sc k) := by
  unfold State.updateGroups
  repeat' (first
    | with_reducible assumption | with_reducible apply Keeps.foldl | with_reducible apply Keeps.foldl_fst
    | with_reducible apply Keeps.foldl_snd | with_reducible apply Keeps.foldl_mid | with_reducible apply Keeps.foldl_last
    | with_reducible apply State.headerLoad_keeps | with_reducible refine State.headerLoad_keeps' (hE := by assumption) ?_
    | with_reducible apply State.stateStore_keeps | with_reducible apply State.tensorExp_keeps
    | with_reducible refine State.tensorExp_keeps' (hE := by assumption) ?_ | with_reducible apply State.updateRun_keeps
    | with_reducible exact Keeps.fields (by assumption) | with_reducible apply Keeps.fields | simp only [Keeps.mk_iff]
    | intro _ | with_reducible apply Keeps.ite | split | dsimp only)

theorem State.updateRow_keeps {s₀ s : State} (h : Keeps s₀ s) (j : Job) (sc : Sched) (k : Fp) (ea : Int) (eb : Int) (i : Nat) (row : Nat)  : Keeps s₀ (State.updateRow s j sc k ea eb i row) := by
  unfold State.updateRow
  repeat' (first
    | with_reducible assumption | with_reducible apply State.addWrap_keeps | with_reducible apply State.headerLoad_keeps
    | with_reducible refine State.headerLoad_keeps' (hE := by assumption) ?_ | with_reducible apply State.stateStore_keeps
    | with_reducible apply State.updateRun_keeps | with_reducible apply State.violate_keeps
    | with_reducible exact Keeps.fields (by assumption) | with_reducible apply Keeps.fields | simp only [Keeps.mk_iff]
    | with_reducible apply Keeps.ite | split | dsimp only)

theorem State.updateRows_keeps {s₀ s : State} (h : Keeps s₀ s) (j : Job) (sc : Sched) (k : Fp)  : Keeps s₀ (State.updateRows s j sc k) := by
  unfold State.updateRows
  repeat' (first
    | with_reducible assumption | with_reducible apply Keeps.foldl | with_reducible apply Keeps.foldl_fst
    | with_reducible apply Keeps.foldl_snd | with_reducible apply Keeps.foldl_mid | with_reducible apply Keeps.foldl_last
    | with_reducible apply State.load_keeps | with_reducible refine State.load_keeps' (hE := by assumption) ?_
    | with_reducible apply State.tensorExp_keeps | with_reducible refine State.tensorExp_keeps' (hE := by assumption) ?_
    | with_reducible apply State.updateRow_keeps | intro _ | split | dsimp only)

theorem State.update_keeps {s₀ s : State} (h : Keeps s₀ s) (j : Job)  : Keeps s₀ (State.update s j) := by
  unfold State.update
  repeat' (first
    | with_reducible assumption | with_reducible apply State.addSat_keeps | with_reducible apply State.load_keeps
    | with_reducible refine State.load_keeps' (hE := by assumption) ?_ | with_reducible apply State.updateGroups_keeps
    | with_reducible apply State.updateRows_keeps | with_reducible apply State.vecBusy_keeps
    | with_reducible apply State.violate_keeps | with_reducible exact Keeps.fields (by assumption)
    | with_reducible apply Keeps.fields | simp only [Keeps.mk_iff] | with_reducible apply Keeps.ite | split | dsimp only)

end Machine

end Sys2Proof
end

