-- ==== Sys2Proof/Laws/KeepsNumerics.lean ====
section
/-! SUPPORT. Every operation of Machine/Numerics.lean keeps what Laws/Keeps.lean names. -/

set_option Elab.async false
set_option linter.all false

namespace Sys2Proof

namespace Machine

theorem State.scaleupd_keeps {s₀ s : State} (h : Keeps s₀ s) (j : Job)  : Keeps s₀ (State.scaleupd s j) := by
  unfold State.scaleupd
  repeat' (first
    | with_reducible assumption | with_reducible apply State.load_keeps
    | with_reducible refine State.load_keeps' (hE := by assumption) ?_ | with_reducible apply State.store_keeps
    | with_reducible apply State.vecBusy_keeps | with_reducible apply State.violateIf_keeps | with_reducible apply Keeps.ite
    | split | dsimp only)

theorem State.health_keeps {s₀ s : State} (h : Keeps s₀ s) (j : Job)  : Keeps s₀ (State.health s j) := by
  unfold State.health
  repeat' (first
    | with_reducible assumption | with_reducible apply State.readTile_keeps
    | with_reducible refine State.readTile_keeps' (hE := by assumption) ?_ | with_reducible apply State.tensorExp_keeps
    | with_reducible refine State.tensorExp_keeps' (hE := by assumption) ?_ | with_reducible apply State.vecBusy_keeps
    | with_reducible apply State.vecCount_keeps | with_reducible apply State.violate_keeps
    | with_reducible apply State.violateIf_keeps | with_reducible apply State.writePhys_keeps
    | with_reducible apply Keeps.ite | split | dsimp only)

end Machine

end Sys2Proof
end

