-- ==== Sys2Proof/Laws/KeepsVectorRun.lean ====
section
/-! SUPPORT. Every operation of Machine/VectorRun.lean keeps what Laws/Keeps.lean names. -/

set_option Elab.async false
set_option linter.all false

namespace Sys2Proof

namespace Machine

theorem State.vecStep_keeps {s₀ s : State} (h : Keeps s₀ s) (j : Job) (fs : List Flip)  : Keeps s₀ (State.vecStep s j fs).1 := by
  unfold State.vecStep
  repeat' (first
    | with_reducible assumption | with_reducible apply State.ablkStep_keeps
    | with_reducible refine State.ablkStep_keeps' (hE := by assumption) ?_ | with_reducible apply State.fold_keeps
    | with_reducible apply State.health_keeps | with_reducible apply State.normClose_keeps
    | with_reducible apply State.normsq_keeps | with_reducible apply State.rmask_keeps
    | with_reducible apply State.scaleupd_keeps | with_reducible apply State.update_keeps
    | with_reducible apply State.vchainStep_keeps | with_reducible refine State.vchainStep_keeps' (hE := by assumption) ?_
    | with_reducible apply State.vdwc_keeps | with_reducible apply State.vredStep_keeps
    | with_reducible refine State.vredStep_keeps' (hE := by assumption) ?_ | with_reducible apply State.vshuf_keeps
    | with_reducible exact Keeps.fields (by assumption) | with_reducible apply Keeps.fields | simp only [Keeps.mk_iff]
    | with_reducible apply Keeps.ite | split | dsimp only)

theorem State.vecStep_keeps' {s₀ s : State} (h : Keeps s₀ s) {j : Job} {fs : List Flip}  {rX : _} {rT : State} (hE : State.vecStep s j fs = (rT, rX)) : Keeps s₀ rT := by
  have k := State.vecStep_keeps (s₀ := s₀) (s := s) h j fs
  rw [hE] at k
  exact k

theorem State.popVector_keeps {s₀ s : State} (h : Keeps s₀ s) (g : Nat) (j : Job)  : Keeps s₀ (State.popVector s g j) := by
  unfold State.popVector
  repeat' (first
    | with_reducible assumption | with_reducible apply State.markReady_keeps | with_reducible apply State.modCl_keeps
    | with_reducible exact Keeps.fields (by assumption) | with_reducible apply Keeps.fields | simp only [Keeps.mk_iff]
    | intro _ | dsimp only)

theorem State.vecGo_keeps {s₀ s : State} (h : Keeps s₀ s) (g : Nat) (fs : List Flip) (fuel : Nat) :
    Keeps s₀ (State.vecGo s g fs fuel) := by
  induction fuel generalizing s fs with
  | zero => exact h
  | succ k ih =>
    unfold State.vecGo
    split
    · exact h
    · split
      · next hE => exact State.vecStep_keeps' h hE
      · next hE => exact ih (State.modCl_keeps (State.vecStep_keeps' h hE) _ _) _
      · next hE => exact ih (State.popVector_keeps (State.vecStep_keeps' h hE) _ _) _

theorem State.vectorRun_keeps {s₀ s : State} (h : Keeps s₀ s) (g : Nat)  : Keeps s₀ (State.vectorRun s g) := by
  unfold State.vectorRun
  repeat' (first
    | with_reducible assumption | with_reducible apply State.vecGo_keeps | dsimp only)

theorem State.vecEnqueue_keeps {s₀ s : State} (h : Keeps s₀ s) (j : Job) (fs : List Flip)  : Keeps s₀ (State.vecEnqueue s j fs) := by
  unfold State.vecEnqueue
  repeat' (first
    | with_reducible assumption | with_reducible apply State.modCl_keeps | with_reducible apply State.vecGo_keeps
    | with_reducible exact Keeps.fields (by assumption) | with_reducible apply Keeps.fields | simp only [Keeps.mk_iff]
    | intro _ | with_reducible apply Keeps.ite | split | dsimp only)

theorem State.vecIssue_keeps {s₀ s : State} (h : Keeps s₀ s) (reserved : Job → Bool) (formatBad : Job → Bool) (j : Job)  : Keeps s₀ (State.vecIssue s reserved formatBad j) := by
  unfold State.vecIssue
  repeat' (first
    | with_reducible assumption | with_reducible apply State.dropFormat_keeps
    | with_reducible apply State.dropReserved_keeps | with_reducible apply State.vecEnqueue_keeps
    | with_reducible apply Keeps.ite | split | dsimp only)

theorem State.vecCmd_keeps {s₀ s : State} (h : Keeps s₀ s) (g : Nat) (op : Nat) (regs : Fetch → List Nat) (used : Nat) (reserved : Job → Bool) (formatBad : Job → Bool)  : Keeps s₀ (State.vecCmd s g op regs used reserved formatBad) := by
  unfold State.vecCmd
  repeat' (first
    | with_reducible assumption | with_reducible apply State.issueData_keeps | with_reducible apply State.vecIssue_keeps
    | intro _ | dsimp only)

theorem execVchain_keeps {s₀ s : State} (h : Keeps s₀ s) (g : Nat) : ∃ r, execVchain g s = .next r ∧ Keeps s₀ r := by
  unfold execVchain
  refine ⟨_, rfl, ?_⟩
  repeat' (first
    | with_reducible assumption | with_reducible apply State.vecCmd_keeps | dsimp only)

theorem execVred_keeps {s₀ s : State} (h : Keeps s₀ s) (g : Nat) : ∃ r, execVred g s = .next r ∧ Keeps s₀ r := by
  unfold execVred
  refine ⟨_, rfl, ?_⟩
  repeat' (first
    | with_reducible assumption | with_reducible apply State.vecCmd_keeps | intro _ | dsimp only)

theorem execVshuf_keeps {s₀ s : State} (h : Keeps s₀ s) (g : Nat) : ∃ r, execVshuf g s = .next r ∧ Keeps s₀ r := by
  unfold execVshuf
  refine ⟨_, rfl, ?_⟩
  repeat' (first
    | with_reducible assumption | with_reducible apply State.vecCmd_keeps | intro _ | dsimp only)

theorem execVdwc_keeps {s₀ s : State} (h : Keeps s₀ s) (g : Nat) : ∃ r, execVdwc g s = .next r ∧ Keeps s₀ r := by
  unfold execVdwc
  refine ⟨_, rfl, ?_⟩
  repeat' (first
    | with_reducible assumption | with_reducible apply State.vecCmd_keeps | intro _ | dsimp only)

theorem execAblk_keeps {s₀ s : State} (h : Keeps s₀ s) (a : ArrayRun) : ∃ r, execAblk a s = .next r ∧ Keeps s₀ r := by
  unfold execAblk
  refine ⟨_, rfl, ?_⟩
  repeat' (first
    | with_reducible assumption | with_reducible apply State.dropFormat_keeps
    | with_reducible apply State.dropReserved_keeps | with_reducible apply State.issueData_keeps
    | with_reducible apply State.readTable_keeps | with_reducible refine State.readTable_keeps' (hE := by assumption) ?_
    | with_reducible apply State.vecEnqueue_keeps | intro _ | with_reducible apply Keeps.ite | split | dsimp only)

theorem execRmask_keeps {s₀ s : State} (h : Keeps s₀ s) (g : Nat) : ∃ r, execRmask g s = .next r ∧ Keeps s₀ r := by
  unfold execRmask
  refine ⟨_, rfl, ?_⟩
  repeat' (first
    | with_reducible assumption | with_reducible apply State.vecCmd_keeps | intro _ | dsimp only)

theorem State.updateIssue_keeps {s₀ s : State} (h : Keeps s₀ s) (g : Nat) (op : Nat)  : Keeps s₀ (State.updateIssue s g op) := by
  unfold State.updateIssue
  repeat' (first
    | with_reducible assumption | with_reducible apply State.issueData_keeps | with_reducible apply State.vecIssue_keeps
    | intro _ | dsimp only)

theorem execUpdate_keeps {s₀ s : State} (h : Keeps s₀ s) (g : Nat) : ∃ r, execUpdate g s = .next r ∧ Keeps s₀ r := by
  unfold execUpdate
  refine ⟨_, rfl, ?_⟩
  repeat' (first
    | with_reducible assumption | with_reducible apply State.updateIssue_keeps | dsimp only)

theorem execUpdsparse_keeps {s₀ s : State} (h : Keeps s₀ s) (g : Nat) : ∃ r, execUpdsparse g s = .next r ∧ Keeps s₀ r := by
  unfold execUpdsparse
  refine ⟨_, rfl, ?_⟩
  repeat' (first
    | with_reducible assumption | with_reducible apply State.updateIssue_keeps | dsimp only)

theorem execNormsq_keeps {s₀ s : State} (h : Keeps s₀ s) (g : Nat) : ∃ r, execNormsq g s = .next r ∧ Keeps s₀ r := by
  unfold execNormsq
  refine ⟨_, rfl, ?_⟩
  repeat' (first
    | with_reducible assumption | with_reducible apply State.issueData_keeps | with_reducible apply State.vecIssue_keeps
    | intro _ | dsimp only)

theorem execNormsqClose_keeps {s₀ s : State} (h : Keeps s₀ s) (g : Nat) : ∃ r, execNormsqClose g s = .next r ∧ Keeps s₀ r := by
  unfold execNormsqClose
  refine ⟨_, rfl, ?_⟩
  repeat' (first
    | with_reducible assumption | with_reducible apply State.issueData_keeps | with_reducible apply State.vecIssue_keeps
    | intro _ | dsimp only)

theorem execFold_keeps {s₀ s : State} (h : Keeps s₀ s) (g : Nat) : ∃ r, execFold g s = .next r ∧ Keeps s₀ r := by
  unfold execFold
  refine ⟨_, rfl, ?_⟩
  repeat' (first
    | with_reducible assumption | with_reducible apply State.vecCmd_keeps | intro _ | dsimp only)

theorem execScaleupd_keeps {s₀ s : State} (h : Keeps s₀ s) (g : Nat) : ∃ r, execScaleupd g s = .next r ∧ Keeps s₀ r := by
  unfold execScaleupd
  refine ⟨_, rfl, ?_⟩
  repeat' (first
    | with_reducible assumption | with_reducible apply State.vecCmd_keeps | intro _ | dsimp only)

theorem execHealth_keeps {s₀ s : State} (h : Keeps s₀ s) (g : Nat) : ∃ r, execHealth g s = .next r ∧ Keeps s₀ r := by
  unfold execHealth
  refine ⟨_, rfl, ?_⟩
  repeat' (first
    | with_reducible assumption | with_reducible apply State.vecCmd_keeps | intro _ | dsimp only)

theorem State.runWaiting_keeps {s₀ s : State} (h : Keeps s₀ s) (g : Nat)  : Keeps s₀ (State.runWaiting s g) := by
  unfold State.runWaiting
  repeat' (first
    | with_reducible assumption | with_reducible apply State.runEngines_keeps | with_reducible apply State.vectorRun_keeps
    | with_reducible exact Keeps.fields (by assumption) | with_reducible apply Keeps.fields | simp only [Keeps.mk_iff]
    | with_reducible apply Keeps.ite | split | dsimp only)

theorem execInstructionComplete_keeps {s₀ s : State} (h : Keeps s₀ s) (e : Ending) : ∃ r, execInstructionComplete e s = .next r ∧ Keeps s₀ r := by
  unfold execInstructionComplete
  refine ⟨_, rfl, ?_⟩
  repeat' (first
    | with_reducible assumption | with_reducible apply State.complete_keeps | with_reducible apply State.detect_keeps
    | with_reducible apply State.runWaiting_keeps | with_reducible exact Keeps.fields (by assumption)
    | with_reducible apply Keeps.fields | simp only [Keeps.mk_iff] | with_reducible apply Keeps.ite | split | dsimp only)

theorem execTrayPop_keeps {s₀ s : State} (h : Keeps s₀ s) (g : Nat) : ∃ r, execTrayPop g s = .next r ∧ Keeps s₀ r := by
  unfold execTrayPop
  refine ⟨_, rfl, ?_⟩
  repeat' (first
    | with_reducible assumption | with_reducible apply State.addCycles_keeps | with_reducible apply State.vectorRun_keeps
    | with_reducible apply State.whenRunning_keeps | with_reducible exact Keeps.fields (by assumption)
    | with_reducible apply Keeps.fields | simp only [Keeps.mk_iff] | with_reducible apply Keeps.ite | split | dsimp only)

end Machine

end Sys2Proof
end

