-- ==== Sys2Proof/Laws/KeepsLedger.lean ====
section
/-! SUPPORT. Every operation of Machine/Ledger.lean keeps what Laws/Keeps.lean names. -/

set_option Elab.async false
set_option linter.all false

namespace Sys2Proof

namespace Machine

theorem State.setPool_keeps {s₀ s : State} (h : Keeps s₀ s) (k : Nat) (p : Pool) (hp : pagesSound s.pools → p.Sound) :
    Keeps s₀ (State.setPool s k p) :=
  h.withPools fun w => Tab.all_setD (hp w) w k

theorem State.modPool_keeps {s₀ s : State} (h : Keeps s₀ s) (k : Nat) (f : Pool → Pool) (hf : ∀ p : Pool, p.Sound → (f p).Sound) :
    Keeps s₀ (State.modPool s k f) :=
  State.setPool_keeps h k _ fun w => hf _ (State.pool_sound w k)

theorem State.tableRead_keeps {s₀ s : State} (h : Keeps s₀ s) (k : Nat) (c : Nat) (a : Nat) (n : Nat)  : Keeps s₀ (State.tableRead s k c a n).2 := by
  unfold State.tableRead
  repeat' (first
    | with_reducible assumption | with_reducible apply State.violateIf_keeps | split | dsimp only)

theorem State.tableRead_keeps' {s₀ s : State} (h : Keeps s₀ s) {k : Nat} {c : Nat} {a : Nat} {n : Nat}  {rX : _} {rT : State} (hE : State.tableRead s k c a n = (rX, rT)) : Keeps s₀ rT := by
  have k := State.tableRead_keeps (s₀ := s₀) (s := s) h k c a n
  rw [hE] at k
  exact k

theorem State.policyGo_keeps {s₀ s : State} (h : Keeps s₀ s) (k c base t fuel lo hi : Nat) :
    Keeps s₀ (State.policyGo s k c base t fuel lo hi).2 := by
  induction fuel generalizing s lo hi with
  | zero => exact h
  | succ n ih =>
    unfold State.policyGo
    split
    · dsimp only
      split
      · exact ih (State.tableRead_keeps h _ _ _ _) _ _
      · exact ih (State.tableRead_keeps h _ _ _ _) _ _
    · exact h

theorem State.policyGo_keeps' {s₀ s : State} (h : Keeps s₀ s) {k c base t fuel lo hi rX : Nat} {rT : State}
    (hE : State.policyGo s k c base t fuel lo hi = (rX, rT)) : Keeps s₀ rT := by
  have k := State.policyGo_keeps h k c base t fuel lo hi
  rw [hE] at k
  exact k

theorem State.policy_keeps {s₀ s : State} (h : Keeps s₀ s) (k : Nat) (c : Nat) (t : Nat)  : Keeps s₀ (State.policy s k c t).2 := by
  unfold State.policy
  repeat' (first
    | with_reducible assumption | with_reducible apply State.policyGo_keeps
    | with_reducible refine State.policyGo_keeps' (hE := by assumption) ?_ | with_reducible apply State.tableRead_keeps
    | with_reducible refine State.tableRead_keeps' (hE := by assumption) ?_ | with_reducible apply Keeps.ite | split
    | dsimp only)

theorem State.policy_keeps' {s₀ s : State} (h : Keeps s₀ s) {k : Nat} {c : Nat} {t : Nat}  {rX : _} {rT : State} (hE : State.policy s k c t = (rX, rT)) : Keeps s₀ rT := by
  have k := State.policy_keeps (s₀ := s₀) (s := s) h k c t
  rw [hE] at k
  exact k

theorem State.writeFrame_keeps {s₀ s : State} (h : Keeps s₀ s) (k : Nat) (slots : List Nat) (page : Memory 8)  : Keeps s₀ (State.writeFrame s k slots page) := by
  unfold State.writeFrame
  repeat' (first
    | with_reducible assumption | with_reducible apply State.writePhys_keeps
    | with_reducible exact Keeps.fields (by assumption) | with_reducible apply Keeps.fields | simp only [Keeps.mk_iff]
    | split | dsimp only)

theorem State.writeChunks_keeps {s₀ s : State} (h : Keeps s₀ s) (k : Nat) (t : Nat) (slots : List Nat) (raw : Bool) (page : Memory 8)  : Keeps s₀ (State.writeChunks s k t slots raw page) := by
  unfold State.writeChunks
  repeat' (first
    | with_reducible assumption | with_reducible apply Keeps.foldl | with_reducible apply State.veil_keeps
    | with_reducible apply State.writePhys_keeps | intro _ | with_reducible apply Keeps.ite | split | dsimp only)

theorem State.writeCopy_keeps {s₀ s : State} (h : Keeps s₀ s) (k : Nat) (t : Nat) (slots : List Nat) (raw : Bool) (page : Memory 8)  : Keeps s₀ (State.writeCopy s k t slots raw page) := by
  unfold State.writeCopy
  repeat' (first
    | with_reducible assumption | with_reducible apply State.writeChunks_keeps | with_reducible apply State.writeFrame_keeps
    | with_reducible apply Keeps.ite | split | dsimp only)

theorem State.applyRecipe_keeps {s₀ s : State} (h : Keeps s₀ s) (k : Nat) (c : Nat) (n : Nat) (counted : Bool)  : Keeps s₀ (State.applyRecipe s k c n counted).2 := by
  unfold State.applyRecipe
  repeat' (first
    | with_reducible assumption | with_reducible apply State.tableRead_keeps
    | with_reducible refine State.tableRead_keeps' (hE := by assumption) ?_ | with_reducible apply State.violateIf_keeps
    | split | dsimp only)

theorem State.applyRecipe_keeps' {s₀ s : State} (h : Keeps s₀ s) {k : Nat} {c : Nat} {n : Nat} {counted : Bool}  {rX : _} {rT : State} (hE : State.applyRecipe s k c n counted = (rX, rT)) : Keeps s₀ rT := by
  have k := State.applyRecipe_keeps (s₀ := s₀) (s := s) h k c n counted
  rw [hE] at k
  exact k

theorem State.coding_keeps {s₀ s : State} (h : Keeps s₀ s) (k : Nat) (r : PageRec) (page : Memory 8)  : Keeps s₀ (State.coding s k r page).2 := by
  unfold State.coding
  repeat' (first
    | with_reducible assumption | with_reducible apply State.applyRecipe_keeps
    | with_reducible refine State.applyRecipe_keeps' (hE := by assumption) ?_ | with_reducible apply State.draw_keeps
    | with_reducible refine State.draw_keeps' (hE := by assumption) ?_ | with_reducible apply State.policy_keeps
    | with_reducible refine State.policy_keeps' (hE := by assumption) ?_ | with_reducible apply Keeps.ite | split
    | dsimp only)

theorem State.coding_keeps' {s₀ s : State} (h : Keeps s₀ s) {k : Nat} {r : PageRec} {page : Memory 8}  {rX : _} {rT : State} (hE : State.coding s k r page = (rX, rT)) : Keeps s₀ rT := by
  have k := State.coding_keeps (s₀ := s₀) (s := s) h k r page
  rw [hE] at k
  exact k

/-- Another pool that is sound where the pools were sound before. -/
theorem State.setPool_keeps_of {s₀ s : State} (h : Keeps s₀ s) (k : Nat) (p : Pool) (hp : pagesSound s₀.pools → p.Sound) :
    Keeps s₀ (State.setPool s k p) :=
  ⟨h.pending, h.mem, h.free, h.flight, h.credits, h.tokens, fun w => Tab.all_setD (hp w) (h.pages w) k⟩

/-- A record that is sound where the pools were sound before. -/
theorem State.setRec_keeps_of {s₀ s : State} (h : Keeps s₀ s) (k i : Nat) (r : PageRec) (hr : pagesSound s₀.pools → r.Sound) :
    Keeps s₀ (s.modPool k fun p => p.setRec i r) :=
  State.setPool_keeps_of h k _ fun w => (State.pool_sound (h.pages w) k).setRec i (hr w)

theorem Keeps.pool {s₀ s : State} (h : Keeps s₀ s) (w : pagesSound s₀.pools) (k : Nat) : (s.pool k).Sound :=
  State.pool_sound (h.pages w) k

theorem State.placeFor_keeps {s₀ s : State} (h : Keeps s₀ s) (k : Nat) (o : PageOp) (self : Option Nat) (t : Nat) (lower : Bool)
    (ho : pagesSound s₀.pools → o.Sound) (h1 : 1 ≤ t) (h4 : t ≤ 4) : Keeps s₀ (State.placeFor s k o self t lower).2.2 :=
  State.setPool_keeps_of h k _ fun w => ((ho w).placing (h.pool w k) _ _ _ _ h1 h4).pool

theorem State.pageDone_keeps {s₀ s : State} (h : Keeps s₀ s) (f : Nat)  : Keeps s₀ (State.pageDone s f) := by
  unfold State.pageDone
  repeat' (first
    | with_reducible assumption | with_reducible apply State.markReady_keeps
    | with_reducible exact Keeps.fields (by assumption) | with_reducible apply Keeps.fields | simp only [Keeps.mk_iff]
    | with_reducible apply Keeps.ite | split | dsimp only)

theorem State.etLedger_keeps {s₀ s : State} (h : Keeps s₀ s) (c : Nat)  : Keeps s₀ (State.etLedger s c) := by
  unfold State.etLedger
  repeat' (first
    | with_reducible assumption | with_reducible apply State.addSat_keeps | dsimp only)

theorem State.codecBusy_keeps {s₀ s : State} (h : Keeps s₀ s) (k : Nat)  : Keeps s₀ (State.codecBusy s k) := by
  unfold State.codecBusy
  repeat' (first
    | with_reducible assumption | with_reducible apply State.addCycles_keeps | dsimp only)

theorem State.crcFail_keeps {s₀ s : State} (h : Keeps s₀ s) (k : Nat) (c : Nat × Nat)  : Keeps s₀ (State.crcFail s k c) := by
  unfold State.crcFail
  repeat' (first
    | with_reducible assumption | with_reducible apply State.addSat_keeps | with_reducible apply State.draw_keeps
    | with_reducible refine State.draw_keeps' (hE := by assumption) ?_ | with_reducible apply State.raiseEvent_keeps | split
    | dsimp only)

theorem State.parkPage_keeps {s₀ s : State} (h : Keeps s₀ s) (k : Nat) (o : PageOp) (t : Nat)  : Keeps s₀ (State.parkPage s k o t).2.2 := by
  unfold State.parkPage
  repeat' (first
    | with_reducible assumption | with_reducible apply State.addSat_keeps | with_reducible apply State.applyRecipe_keeps
    | with_reducible refine State.applyRecipe_keeps' (hE := by assumption) ?_ | with_reducible apply State.etLedger_keeps
    | with_reducible apply State.load_keeps | with_reducible refine State.load_keeps' (hE := by assumption) ?_
    | with_reducible apply Keeps.ite | split | dsimp only)

theorem State.parkPage_keeps' {s₀ s : State} (h : Keeps s₀ s) {k : Nat} {o : PageOp} {t : Nat}  {rX : _} {rY : _} {rT : State} (hE : State.parkPage s k o t = (rX, rY, rT)) : Keeps s₀ rT := by
  have k := State.parkPage_keeps (s₀ := s₀) (s := s) h k o t
  rw [hE] at k
  exact k

theorem State.parkIn_keeps {s₀ s : State} (h : Keeps s₀ s) (k : Nat) (o : PageOp) (i : Nat) (r : PageRec) (t : Nat)
    (hr : pagesSound s₀.pools → r.Sound) (ht : pagesSound s₀.pools → 1 ≤ t ∧ t ≤ 4) : Keeps s₀ (State.parkIn s k o i r t) := by
  have a : Keeps s₀ (s.parkPage k o t).2.2.draw.2 := State.draw_keeps (State.parkPage_keeps h k o t)
  unfold State.parkIn
  dsimp only
  refine State.setRec_keeps_of ?_ k i _ fun w => (hr w).withMove ⟨(ht w).1, (ht w).2, Pool.freeSlots_length _ _⟩
  split
  · exact a
  · exact State.codecBusy_keeps a k

theorem State.parkOne_keeps {s₀ s : State} (h : Keeps s₀ s) (k : Nat) (o : PageOp) (ho : pagesSound s₀.pools → o.Sound) :
    Keeps s₀ (State.parkOne s k o).st ∧ ∀ x, (State.parkOne s k o).waits = some x → pagesSound s₀.pools → x.Sound := by
  have none : ∀ x : PageOp, (none : Option PageOp) = some x → pagesSound s₀.pools → x.Sound := fun _ e => by cases e
  have same : ∀ x, some o = some x → pagesSound s₀.pools → x.Sound := fun _ e => by cases e; exact ho
  have viol : Keeps s₀ (s.violate (Reg.ldgViolcnt (poolStack k)) (.ctx o.ctx)) := State.violate_keeps h _ _
  unfold State.parkOne
  dsimp only
  split
  · exact ⟨viol, none⟩
  · next hact =>
    have h4 : polAction o.entry + 1 ≤ 4 + 1 := by
      simp only [Bool.or_eq_true, Bool.and_eq_true, decide_eq_true_eq, not_or] at hact
      omega
    split
    · exact ⟨h, same⟩
    · next i r p hk =>
      have hrp : pagesSound s₀.pools → r.Sound ∧ p.Sound := fun w => Pool.Sound.takeRec (h.pool w k) hk
      split
      · exact ⟨h, same⟩
      · split
        · exact ⟨State.setPool_keeps_of (State.etLedger_keeps (State.load_keeps h _ _ _ _) _) k _ fun w =>
            ⟨((hrp w).2.setRec i (PageRec.Sound.drop _ _)).recs, (hrp w).2.ops⟩, none⟩
        · next hn =>
          have ha : Keeps s₀ (s.setPool k (p.setRec i r)) := State.setPool_keeps_of h k _ fun w => (hrp w).2.setRec i (hrp w).1
          have b := State.placeFor_keeps ha k o (some i) (polAction o.entry + 1) true ho (by omega) (by omega)
          have c := fun w => State.placeFor_sound (ha.pool w k) (ho w) (some i) (t := polAction o.entry + 1) true (by omega) (by omega)
          split
          · next t q s1 e =>
            rw [e] at b c
            exact ⟨State.parkIn_keeps b _ _ _ _ _ (fun w => (hrp w).1) fun w => (c w).2 _ rfl, none⟩
          · next q s1 e =>
            rw [e] at b c
            exact ⟨b, fun x ex w => by cases ex; exact (c w).1⟩

theorem State.fetchOne_keeps {s₀ s : State} (h : Keeps s₀ s) (k : Nat) (o : PageOp)  : Keeps s₀ (State.fetchOne s k o) := by
  unfold State.fetchOne
  repeat' (first
    | with_reducible assumption | with_reducible apply State.addSat_keeps | with_reducible apply State.codecBusy_keeps
    | with_reducible apply State.crcFail_keeps | with_reducible apply State.etLedger_keeps
    | with_reducible apply State.store_keeps | with_reducible apply State.violate_keeps
    | with_reducible exact Keeps.fields (by assumption) | with_reducible apply Keeps.fields | simp only [Keeps.mk_iff]
    | intro _ | with_reducible apply Keeps.ite | split | dsimp only)

theorem State.dropOne_keeps {s₀ s : State} (h : Keeps s₀ s) (k : Nat) (o : PageOp) : Keeps s₀ (State.dropOne s k o) := by
  have a : ∀ (i : Nat) (r : PageRec), Keeps s₀ (s.setPool k { (s.pool k).setRec i (r.drop (s.pool k).clock) with
      clock := (s.pool k).clock + 1 }) := fun i r =>
    State.setPool_keeps_of h k _ fun w => ⟨((h.pool w k).setRec i (PageRec.Sound.drop _ _)).recs, (h.pool w k).ops⟩
  unfold State.dropOne
  dsimp only
  split
  · exact h
  · split
    · exact h
    · split
      · exact State.pageDone_keeps (a _ _) _
      · exact a _ _

theorem State.pinOne_keeps {s₀ s : State} (h : Keeps s₀ s) (k : Nat) (o : PageOp) (ho : pagesSound s₀.pools → o.Sound) :
    Keeps s₀ (State.pinOne s k o).st ∧ ∀ x, (State.pinOne s k o).waits = some x → pagesSound s₀.pools → x.Sound := by
  have none : ∀ x : PageOp, (none : Option PageOp) = some x → pagesSound s₀.pools → x.Sound := fun _ e => by cases e
  have same : ∀ x, some o = some x → pagesSound s₀.pools → x.Sound := fun _ e => by cases e; exact ho
  have viol : Keeps s₀ (s.violate (Reg.ldgViolcnt (poolStack k)) (.ctx o.ctx)) := State.violate_keeps h _ _
  unfold State.pinOne
  dsimp only
  split
  · exact ⟨viol, none⟩
  · next i r hk =>
    have hr : pagesSound s₀.pools → r.Sound := fun w => Pool.findKey_sound (h.pool w k) hk
    have pin : ∀ b, Keeps s₀ (s.setPool k ((s.pool k).setRec i { r with pin := b })) := fun b =>
      State.setPool_keeps_of h k _ fun w => (h.pool w k).setRec i ((hr w).withPin b)
    split
    · exact ⟨h, same⟩
    · split
      · exact ⟨viol, none⟩
      · split
        · exact ⟨pin _, none⟩
        · split
          · exact ⟨pin _, none⟩
          · have b := State.placeFor_keeps h k o (some i) 1 false ho (by omega) (by omega)
            have c := fun w => State.placeFor_sound (h.pool w k) (ho w) (some i) (t := 1) false (by omega) (by omega)
            split
            · next q s1 e =>
              rw [e] at b c
              exact ⟨b, fun x ex w => by cases ex; exact (c w).1⟩
            · next q s1 e =>
              rw [e] at b
              exact ⟨State.codecBusy_keeps (State.setRec_keeps_of b k i _ fun w =>
                (hr w).withMove ⟨Nat.le_refl 1, (by decide : (1 : Nat) ≤ 4), Pool.freeSlots_length _ _⟩) k, none⟩

theorem State.pageOver_keeps {s₀ s : State} (h : Keeps s₀ s) (k : Nat) (o : PageOp)  : Keeps s₀ (State.pageOver s k o) := by
  unfold State.pageOver
  repeat' (first
    | with_reducible assumption | with_reducible apply State.pageDone_keeps
    | with_reducible exact Keeps.fields (by assumption) | with_reducible apply Keeps.fields | simp only [Keeps.mk_iff]
    | intro _ | with_reducible apply Keeps.ite | split | dsimp only)

theorem State.pageOp_keeps {s₀ s : State} (h : Keeps s₀ s) (k : Nat) (o : PageOp) (ho : pagesSound s₀.pools → o.Sound) :
    Keeps s₀ (State.pageOp s k o).st ∧ ∀ x, (State.pageOp s k o).waits = some x → pagesSound s₀.pools → x.Sound := by
  have key : ∀ x : Tried, (Keeps s₀ x.st ∧ ∀ y, x.waits = some y → pagesSound s₀.pools → y.Sound) →
      Keeps s₀ (match x.waits with
        | some o1 => (⟨x.st, some o1⟩ : Tried)
        | none => ⟨x.st.pageOver k o, none⟩).st ∧
      ∀ y, (match x.waits with
        | some o1 => (⟨x.st, some o1⟩ : Tried)
        | none => ⟨x.st.pageOver k o, none⟩).waits = some y → pagesSound s₀.pools → y.Sound := by
    rintro ⟨st, _ | y⟩ ⟨a, b⟩
    · exact ⟨State.pageOver_keeps a _ _, fun _ e => by cases e⟩
    · exact ⟨a, fun z e => by cases e; exact b _ rfl⟩
  unfold State.pageOp
  dsimp only
  refine key _ ?_
  split
  · exact State.parkOne_keeps h k o ho
  · exact ⟨State.fetchOne_keeps h k o, fun _ e => by cases e⟩
  · exact ⟨State.dropOne_keeps h k o, fun _ e => by cases e⟩
  · exact State.pinOne_keeps h k o ho

theorem State.waitOp_keeps {s₀ s : State} (h : Keeps s₀ s) (k : Nat) (x : PageOp) (hx : pagesSound s₀.pools → x.Sound) :
    Keeps s₀ (s.modPool k fun p => { p with ops := p.ops ++ [x] }) :=
  State.setPool_keeps_of h k _ fun w => ⟨(h.pool w k).recs, fun y hy => by
    rcases List.mem_append.mp hy with e | e
    · exact (h.pool w k).ops y e
    · rw [List.mem_singleton.mp e]
      exact hx w⟩

theorem State.takeOp_keeps {s₀ s : State} (h : Keeps s₀ s) (k : Nat) (o : PageOp) (ho : pagesSound s₀.pools → o.Sound) :
    Keeps s₀ (State.takeOp s k o) := by
  unfold State.takeOp
  dsimp only
  split
  · exact State.waitOp_keeps h k o ho
  · obtain ⟨a, b⟩ := State.pageOp_keeps h k o ho
    split
    · next x e => exact State.waitOp_keeps a k x (b x e)
    · exact a

theorem State.runOps_keeps {s₀ s : State} (h : Keeps s₀ s) (k : Nat) (new : List PageOp)
    (hn : ∀ o ∈ new, o.Sound) : Keeps s₀ (State.runOps s k new) := by
  have go : ∀ (l : List PageOp) (t : State), Keeps s₀ t → (∀ o ∈ l, pagesSound s₀.pools → o.Sound) →
      Keeps s₀ (l.foldl (fun t o => t.takeOp k o) t) := by
    intro l
    induction l with
    | nil => exact fun t ht _ => ht
    | cons o rest ih =>
      exact fun t ht ho => ih _ (State.takeOp_keeps ht k o (ho o List.mem_cons_self)) fun x hx => ho x (List.mem_cons_of_mem _ hx)
  unfold State.runOps
  refine go _ _ ?_ fun o ho w => ?_
  · dsimp only
    split
    · exact h
    · exact State.modPool_keeps (State.addSat_keeps (State.draw_keeps h) _ _ _ _) _ _ fun p hp =>
        ⟨hp.recs, fun _ e => (List.not_mem_nil e).elim⟩
  · rcases List.mem_append.mp ho with e | e
    · exact (h.pool w k).ops o e
    · exact hn o e

theorem execLedgerWaitRelease_keeps {s₀ s : State} (h : Keeps s₀ s) (k : Nat) :
    ∃ r, execLedgerWaitRelease k s = .next r ∧ Keeps s₀ r :=
  ⟨_, rfl, State.whenRunning_keeps h (State.runOps_keeps h k [] fun _ e => (List.not_mem_nil e).elim)⟩

theorem State.moved_keeps {s₀ s : State} (h : Keeps s₀ s) (k : Nat) (r : PageRec) (m : PageMove)  : Keeps s₀ (State.moved s k r m).2 := by
  unfold State.moved
  repeat' (first
    | with_reducible assumption | with_reducible apply State.coding_keeps
    | with_reducible refine State.coding_keeps' (hE := by assumption) ?_ | with_reducible exact Keeps.fields (by assumption)
    | with_reducible apply Keeps.fields | simp only [Keeps.mk_iff] | with_reducible apply Keeps.ite | split | dsimp only)

theorem State.moved_keeps' {s₀ s : State} (h : Keeps s₀ s) {k : Nat} {r : PageRec} {m : PageMove}  {rX : _} {rT : State} (hE : State.moved s k r m = (rX, rT)) : Keeps s₀ rT := by
  have k := State.moved_keeps (s₀ := s₀) (s := s) h k r m
  rw [hE] at k
  exact k

theorem State.settleMove_keeps {s₀ s : State} (h : Keeps s₀ s) (k i : Nat) (r : PageRec) (m : PageMove)
    (hm : pagesSound s₀.pools → m.Sound) : Keeps s₀ (State.settleMove s k i r m) := by
  have a := State.moved_keeps h k r m
  have b : ∀ (t : State), Keeps s₀ t → ∀ (n now : Nat) (page : Memory 8) (raw : Bool) (ids : List Nat) (crc : Nat) (applied pin : Bool)
      (since : Nat), Keeps s₀ (t.modPool k fun p => { p.setRec i { r with
        state := m.target, slots := m.slots.take n, page := page, raw := raw, ids := ids, crc := crc, applied := applied,
        pin := pin, since := since, move := none } with clock := now }) := fun t ht n now page raw ids crc applied pin since =>
    State.setPool_keeps_of ht k _ fun w =>
      ⟨((ht.pool w k).setRec i (PageRec.Sound.settled (hm w) r n page raw ids crc applied pin since)).recs, (ht.pool w k).ops⟩
  unfold State.settleMove
  generalize s.moved k r m = y at a ⊢
  obtain ⟨x, s0⟩ := y
  dsimp only at a ⊢
  have c := b _ (State.writeCopy_keeps a k m.target (m.slots.take x.coding.held) x.plain x.page)
  repeat' (first
    | with_reducible apply State.codecBusy_keeps
    | with_reducible apply State.addSat_keeps
    | with_reducible apply State.addWrap_keeps
    | exact c _ _ _ _ _ _ _ _ _
    | split)

theorem State.moveComplete_keeps {s₀ s : State} (h : Keeps s₀ s) (k i : Nat) : Keeps s₀ (State.moveComplete s k i) := by
  unfold State.moveComplete
  split
  · exact h
  · next r m e =>
    obtain ⟨q, hq, hm⟩ := Option.bind_eq_some_iff.mp e
    obtain ⟨n, hn, e2⟩ := Option.map_eq_some_iff.mp hm
    obtain ⟨h1, h2⟩ := Prod.mk.inj e2
    rw [h1] at hq hn
    rw [h2] at hn
    have hr : pagesSound s₀.pools → r.Sound := fun w => Pool.find_sound (h.pool w k) hq
    have a : Keeps s₀ (s.modPool k fun p => p.setRec i { r with pin := true, move := none }) :=
      State.setRec_keeps_of h k i { r with pin := true, move := none } fun w =>
        ⟨(hr w).state, (hr w).empty, (hr w).held, fun _ e => by cases e⟩
    have b := State.crcFail_keeps a k m.by_
    have c := State.settleMove_keeps h k i r m fun w => (hr w).move m hn
    dsimp only
    generalize (s.modPool k fun p => p.setRec i { r with pin := true, move := none }).crcFail k m.by_ = x at b ⊢
    generalize s.settleMove k i r m = y at c ⊢
    split
    · apply State.pageDone_keeps
      split <;> assumption
    · split <;> assumption

theorem execLedgerMoveComplete_keeps {s₀ s : State} (h : Keeps s₀ s) (k : Nat) (e : Ending) : ∃ r, execLedgerMoveComplete k e s = .next r ∧ Keeps s₀ r := by
  unfold execLedgerMoveComplete
  refine ⟨_, rfl, ?_⟩
  repeat' (first
    | with_reducible assumption | with_reducible apply State.detect_keeps | with_reducible apply State.moveComplete_keeps
    | with_reducible apply State.whenRunning_keeps | dsimp only)

theorem State.roundedBase_keeps {s₀ s : State} (h : Keeps s₀ s) (j : Job)  : Keeps s₀ (State.roundedBase s j) := by
  unfold State.roundedBase
  repeat' (first
    | with_reducible assumption | with_reducible apply State.violateIf_keeps | dsimp only)

theorem State.ledgerPages_keeps {s₀ s : State} (h : Keeps s₀ s) (j : Job) (kind : Nat) (flips : List Flip) :
    Keeps s₀ (State.ledgerPages s j kind flips) := by
  have run : ∀ (t : State) (k : Nat) (o : PageOp), o.tier = none → o.path = [] → Keeps s₀ t → Keeps s₀ (t.runOps k [o]) :=
    fun t k o h1 h2 ht => State.runOps_keeps ht k [o] fun x hx => by
      rw [List.mem_singleton.mp hx]
      exact ⟨fun u e => (by rw [h1] at e; cases e), fun y hy => (by rw [h2] at hy; exact (List.not_mem_nil hy).elim)⟩
  have p0 : Keeps s₀ { (s.roundedBase j) with pagesLeft := Tab.put (s.roundedBase j).pagesLeft j.flight j.fn } := by
    simpa only [Keeps.mk_iff] using (State.roundedBase_keeps h j).fields
  unfold State.ledgerPages
  dsimp only
  refine Keeps.foldl (fun t i ht => ?_) p0
  split
  · exact State.pageDone_keeps ht _
  · split
    · exact State.pageDone_keeps (State.violate_keeps ht _ _) _
    · refine run _ _ _ rfl rfl ?_
      split
      · exact State.policy_keeps ht _ _ _
      · exact ht

theorem State.zeroHomes_keeps {s₀ s : State} (h : Keeps s₀ s) (j : Job)  : Keeps s₀ (State.zeroHomes s j) := by
  unfold State.zeroHomes
  repeat' (first
    | with_reducible assumption | with_reducible apply Keeps.foldl | with_reducible apply State.etLedger_keeps
    | with_reducible apply State.roundedBase_keeps | with_reducible apply State.store_keeps
    | with_reducible apply State.violate_keeps | intro _ | with_reducible apply Keeps.ite | split | dsimp only)

theorem State.ledger_keeps {s₀ s : State} (h : Keeps s₀ s) (j : Job) (kind : Nat) (flips : List Flip)  : Keeps s₀ (State.ledger s j kind flips) := by
  unfold State.ledger
  repeat' (first
    | with_reducible assumption | with_reducible apply State.dropFormat_keeps
    | with_reducible apply State.dropReserved_keeps | with_reducible apply State.ledgerPages_keeps
    | with_reducible apply State.markReady_keeps | with_reducible apply State.violate_keeps
    | with_reducible apply State.zeroHomes_keeps | with_reducible apply Keeps.ite | split | dsimp only)

theorem State.ledgerCmd_keeps {s₀ s : State} (h : Keeps s₀ s) (g : Nat) (op : Nat) (used : Nat) (kind : Job → Nat) (flips : List Flip)  : Keeps s₀ (State.ledgerCmd s g op used kind flips) := by
  unfold State.ledgerCmd
  repeat' (first
    | with_reducible assumption | with_reducible apply State.issueData_keeps | with_reducible apply State.ledger_keeps
    | intro _ | dsimp only)

theorem execLpark_keeps {s₀ s : State} (h : Keeps s₀ s) (g : Nat) : ∃ r, execLpark g s = .next r ∧ Keeps s₀ r := by
  unfold execLpark
  refine ⟨_, rfl, ?_⟩
  repeat' (first
    | with_reducible assumption | with_reducible apply State.ledgerCmd_keeps | intro _ | dsimp only)

theorem execLfetch_keeps {s₀ s : State} (h : Keeps s₀ s) (g : Nat) (flips : List Flip) : ∃ r, execLfetch g flips s = .next r ∧ Keeps s₀ r := by
  unfold execLfetch
  refine ⟨_, rfl, ?_⟩
  repeat' (first
    | with_reducible assumption | with_reducible apply State.ledgerCmd_keeps | intro _ | dsimp only)

theorem execLdrop_keeps {s₀ s : State} (h : Keeps s₀ s) (g : Nat) : ∃ r, execLdrop g s = .next r ∧ Keeps s₀ r := by
  unfold execLdrop
  refine ⟨_, rfl, ?_⟩
  repeat' (first
    | with_reducible assumption | with_reducible apply State.ledgerCmd_keeps | intro _ | dsimp only)

theorem execLpin_keeps {s₀ s : State} (h : Keeps s₀ s) (g : Nat) (flips : List Flip) : ∃ r, execLpin g flips s = .next r ∧ Keeps s₀ r := by
  unfold execLpin
  refine ⟨_, rfl, ?_⟩
  repeat' (first
    | with_reducible assumption | with_reducible apply State.ledgerCmd_keeps | intro _ | with_reducible apply Keeps.ite
    | split | dsimp only)

theorem State.latchPool_keeps {s₀ s : State} (h : Keeps s₀ s) (k : Nat)  : Keeps s₀ (State.latchPool s k) := by
  unfold State.latchPool
  repeat' (first
    | with_reducible assumption | with_reducible apply State.setReg_keeps | dsimp only)

theorem State.clearPool_keeps {s₀ s : State} (h : Keeps s₀ s) (k : Nat)  : Keeps s₀ (State.clearPool s k) := by
  unfold State.clearPool
  repeat' (first
    | with_reducible assumption | exact fun _ => Pool.Sound.blank | with_reducible apply State.setPool_keeps | dsimp only)

theorem State.clearStats_keeps {s₀ s : State} (h : Keeps s₀ s) (k : Nat)  : Keeps s₀ (State.clearStats s k) := by
  unfold State.clearStats
  repeat' (first
    | with_reducible assumption | with_reducible apply State.setReg_keeps | dsimp only)

theorem State.enablePool_keeps {s₀ s : State} (h : Keeps s₀ s) (o : Origin) (k : Nat) (old : Pctl) (c : Pctl)  : Keeps s₀ (State.enablePool s o k old c) := by
  unfold State.enablePool
  repeat' (first
    | with_reducible assumption | exact fun _ => Pool.Sound.blank | with_reducible apply State.clearStats_keeps
    | with_reducible apply State.setPool_keeps | with_reducible apply State.setReg_keeps
    | with_reducible apply State.violate_keeps | with_reducible apply State.violateIf_keeps
    | with_reducible exact Keeps.fields (by assumption) | with_reducible apply Keeps.fields | simp only [Keeps.mk_iff]
    | intro _ | with_reducible apply Keeps.ite | split | dsimp only)

theorem State.disablePool_keeps {s₀ s : State} (h : Keeps s₀ s) (o : Origin) (k : Nat) (old : Pctl) (c : Pctl)  : Keeps s₀ (State.disablePool s o k old c) := by
  unfold State.disablePool
  repeat' (first
    | with_reducible assumption | with_reducible apply State.clearPool_keeps | with_reducible apply State.setReg_keeps
    | with_reducible apply State.violate_keeps | with_reducible apply State.violateIf_keeps | with_reducible apply Keeps.ite
    | split | dsimp only)

theorem State.keepPool_keeps {s₀ s : State} (h : Keeps s₀ s) (o : Origin) (k : Nat) (enWritten : Bool) (old : Pctl) (c : Pctl)  : Keeps s₀ (State.keepPool s o k enWritten old c) := by
  unfold State.keepPool
  repeat' (first
    | with_reducible assumption | with_reducible apply State.clearStats_keeps | with_reducible apply State.setReg_keeps
    | with_reducible apply State.violateIf_keeps | with_reducible exact Keeps.fields (by assumption)
    | with_reducible apply Keeps.fields | simp only [Keeps.mk_iff] | with_reducible apply Keeps.ite | split | dsimp only)

theorem State.writePctl_keeps {s₀ s : State} (h : Keeps s₀ s) (o : Origin) (k : Nat) (mask : Nat) (v : Nat)  : Keeps s₀ (State.writePctl s o k mask v) := by
  unfold State.writePctl
  repeat' (first
    | with_reducible assumption | with_reducible apply State.disablePool_keeps | with_reducible apply State.enablePool_keeps
    | with_reducible apply State.keepPool_keeps | with_reducible apply State.violateIf_keeps
    | with_reducible exact Keeps.fields (by assumption) | with_reducible apply Keeps.fields | simp only [Keeps.mk_iff]
    | with_reducible apply Keeps.ite | split | dsimp only)

end Machine

end Sys2Proof
end

