-- ==== Sys2Proof/Laws/KeepsMemService.lean ====
section
/-! SUPPORT. Every operation of Machine/MemService.lean keeps what Laws/Keeps.lean names. -/

set_option Elab.async false
set_option linter.all false

namespace Sys2Proof

namespace Machine

theorem execTlbinv_keeps {s₀ s : State} (h : Keeps s₀ s) (q : Nat) : ∃ r, execTlbinv q s = .next r ∧ Keeps s₀ r := by
  unfold execTlbinv
  refine ⟨_, rfl, ?_⟩
  repeat' (first
    | with_reducible assumption | with_reducible apply State.completeCmd_keeps | with_reducible apply State.dropCaches_keeps
    | with_reducible apply State.service_keeps | intro _ | dsimp only)

theorem State.modShared_keeps {s₀ s : State} (h : Keeps s₀ s) (t : Nat) (f : Tab SharedEntry → Tab SharedEntry)  : Keeps s₀ (State.modShared s t f) := by
  unfold State.modShared
  repeat' (first
    | with_reducible assumption | with_reducible exact Keeps.fields (by assumption) | with_reducible apply Keeps.fields
    | simp only [Keeps.mk_iff] | dsimp only)

theorem State.writeMap_keeps {s₀ s : State} (h : Keeps s₀ s) (t : Nat) (i : Nat) (o : Nat) (vs : List Byte)  : Keeps s₀ (State.writeMap s t i o vs) := by
  unfold State.writeMap
  repeat' (first
    | with_reducible assumption | with_reducible apply State.violateIf_keeps | with_reducible apply State.writePhys_keeps
    | dsimp only)

theorem State.countMapReads_keeps {s₀ s : State} (h : Keeps s₀ s) (c : Nat) (gs : List Nat)  : Keeps s₀ (State.countMapReads s c gs) := by
  unfold State.countMapReads
  repeat' (first
    | with_reducible assumption | with_reducible apply Keeps.foldl | with_reducible apply State.violateIf_keeps
    | with_reducible exact Keeps.fields (by assumption) | with_reducible apply Keeps.fields | simp only [Keeps.mk_iff]
    | intro _ | split | dsimp only)

theorem State.writeMapBit_keeps {s₀ s : State} (h : Keeps s₀ s) (t : Nat) (i : Nat) (c : Nat) (v : Bool)  : Keeps s₀ (State.writeMapBit s t i c v) := by
  unfold State.writeMapBit
  repeat' (first
    | with_reducible assumption | with_reducible apply State.writeMap_keeps | dsimp only)

theorem State.attach_keeps {s₀ s : State} (h : Keeps s₀ s) (t : Nat) (c : Nat) (gran : Nat)  : Keeps s₀ (State.attach s t c gran) := by
  unfold State.attach
  repeat' (first
    | with_reducible assumption | with_reducible apply State.modShared_keeps | with_reducible apply State.writeMap_keeps
    | with_reducible apply State.writeMapBit_keeps | with_reducible exact Keeps.fields (by assumption)
    | with_reducible apply Keeps.fields | simp only [Keeps.mk_iff] | intro _ | with_reducible apply Keeps.ite | split
    | dsimp only)

theorem State.detach_keeps {s₀ s : State} (h : Keeps s₀ s) (t : Nat) (c : Nat) (gran : Nat)  : Keeps s₀ (State.detach s t c gran) := by
  unfold State.detach
  repeat' (first
    | with_reducible assumption | with_reducible apply State.modShared_keeps | with_reducible apply State.writeMapBit_keeps
    | with_reducible exact Keeps.fields (by assumption) | with_reducible apply Keeps.fields | simp only [Keeps.mk_iff]
    | intro _ | with_reducible apply Keeps.ite | split | dsimp only)

theorem State.shareReads_keeps {s₀ s : State} (h : Keeps s₀ s) (c : Cmd)  : Keeps s₀ (State.shareReads s c) := by
  unfold State.shareReads
  repeat' (first
    | with_reducible assumption | with_reducible apply State.countMapReads_keeps | with_reducible apply Keeps.ite | split
    | dsimp only)

theorem execShattach_keeps {s₀ s : State} (h : Keeps s₀ s) (q : Nat) : ∃ r, execShattach q s = .next r ∧ Keeps s₀ r := by
  unfold execShattach
  refine ⟨_, rfl, ?_⟩
  repeat' (first
    | with_reducible assumption | with_reducible apply Keeps.foldl | with_reducible apply State.attach_keeps
    | with_reducible apply State.completeCmd_keeps | with_reducible apply State.service_keeps
    | with_reducible apply State.shareReads_keeps | intro _ | with_reducible apply Keeps.ite | split | dsimp only)

theorem execShdetach_keeps {s₀ s : State} (h : Keeps s₀ s) (q : Nat) : ∃ r, execShdetach q s = .next r ∧ Keeps s₀ r := by
  unfold execShdetach
  refine ⟨_, rfl, ?_⟩
  repeat' (first
    | with_reducible assumption | with_reducible apply Keeps.foldl | with_reducible apply State.completeCmd_keeps
    | with_reducible apply State.detach_keeps | with_reducible apply State.service_keeps
    | with_reducible apply State.shareReads_keeps | intro _ | with_reducible apply Keeps.ite | split | dsimp only)

theorem State.detachAll_keeps {s₀ s : State} (h : Keeps s₀ s) (c : Nat)  : Keeps s₀ (State.detachAll s c) := by
  unfold State.detachAll
  repeat' (first
    | with_reducible assumption | with_reducible apply Keeps.foldl | with_reducible apply State.countMapReads_keeps
    | with_reducible apply State.detach_keeps | intro _ | dsimp only)

theorem State.countMap_keeps {s₀ s : State} (h : Keeps s₀ s) (t : Nat) (i : Nat)  : Keeps s₀ (State.countMap s t i) := by
  unfold State.countMap
  repeat' (first
    | with_reducible assumption | with_reducible apply State.violateIf_keeps | dsimp only)

theorem State.recountShared_keeps {s₀ s : State} (h : Keeps s₀ s) (p : Nat)  : Keeps s₀ (State.recountShared s p) := by
  unfold State.recountShared
  repeat' (first
    | with_reducible assumption | with_reducible apply Keeps.foldl | with_reducible apply State.countMap_keeps
    | with_reducible apply State.modShared_keeps | with_reducible exact Keeps.fields (by assumption)
    | with_reducible apply Keeps.fields | simp only [Keeps.mk_iff] | intro _ | with_reducible apply Keeps.ite | split
    | dsimp only)

theorem State.latchShared_keeps {s₀ s : State} (h : Keeps s₀ s) (t : Nat)  : Keeps s₀ (State.latchShared s t) := by
  unfold State.latchShared
  repeat' (first
    | with_reducible assumption | with_reducible apply State.countMap_keeps | with_reducible apply State.setReg_keeps
    | with_reducible exact Keeps.fields (by assumption) | with_reducible apply Keeps.fields | simp only [Keeps.mk_iff]
    | split | dsimp only)

theorem State.writeShbase_keeps {s₀ s : State} (h : Keeps s₀ s) (o : Origin) (t : Nat) (mask : Nat) (v : Nat)  : Keeps s₀ (State.writeShbase s o t mask v) := by
  unfold State.writeShbase
  repeat' (first
    | with_reducible assumption | with_reducible apply State.setReg_keeps | with_reducible apply State.violate_keeps
    | with_reducible apply Keeps.ite | split | dsimp only)

theorem State.writeShare_keeps {s₀ s : State} (h : Keeps s₀ s) (o : Origin) (p : Nat) (mask : Nat) (v : Nat) (hi : Nat) (lo : Nat)  : Keeps s₀ (State.writeShare s o p mask v hi lo) := by
  unfold State.writeShare
  repeat' (first
    | with_reducible assumption | with_reducible apply State.set_keeps | with_reducible apply State.violate_keeps
    | with_reducible apply Keeps.ite | split | dsimp only)

theorem State.writeBwshare_keeps {s₀ s : State} (h : Keeps s₀ s) (o : Origin) (p : Nat) (mask : Nat) (v : Nat)  : Keeps s₀ (State.writeBwshare s o p mask v) := by
  unfold State.writeBwshare
  repeat' (first
    | with_reducible assumption | with_reducible apply State.writeShare_keeps | dsimp only)

theorem State.openWindow_keeps {s₀ s : State} (h : Keeps s₀ s) (t : Nat) (group : Nat) (left : Nat) (next : Nat)  : Keeps s₀ (State.openWindow s t group left next) := by
  unfold State.openWindow
  repeat' (first
    | with_reducible assumption | with_reducible apply State.set_keeps | with_reducible exact Keeps.fields (by assumption)
    | with_reducible apply Keeps.fields | simp only [Keeps.mk_iff] | dsimp only)

theorem State.rotateWindow_keeps {s₀ s : State} (h : Keeps s₀ s) (t : Nat) (left : Nat)  : Keeps s₀ (State.rotateWindow s t left) := by
  unfold State.rotateWindow
  repeat' (first
    | with_reducible assumption | with_reducible apply State.openWindow_keeps | dsimp only)

theorem State.recalNow_keeps {s₀ s : State} (h : Keeps s₀ s) (o : Origin) (t : Nat)  : Keeps s₀ (State.recalNow s o t) := by
  unfold State.recalNow
  repeat' (first
    | with_reducible assumption | with_reducible apply State.rotateWindow_keeps | with_reducible apply State.violate_keeps
    | with_reducible apply Keeps.ite | split | dsimp only)

theorem State.writeRecal_keeps {s₀ s : State} (h : Keeps s₀ s) (o : Origin) (t : Nat) (v : Nat)  : Keeps s₀ (State.writeRecal s o t v) := by
  unfold State.writeRecal
  repeat' (first
    | with_reducible assumption | with_reducible apply State.recalNow_keeps | with_reducible apply State.set_keeps
    | with_reducible apply State.violateIf_keeps | with_reducible apply Keeps.ite | split | dsimp only)

theorem execRecalPeriodic_keeps {s₀ s : State} (h : Keeps s₀ s) (t : Nat) : ∃ r, execRecalPeriodic t s = .next r ∧ Keeps s₀ r := by
  unfold execRecalPeriodic
  refine ⟨_, rfl, ?_⟩
  repeat' (first
    | with_reducible assumption | with_reducible apply State.rotateWindow_keeps
    | with_reducible apply State.whenRunning_keeps | with_reducible apply Keeps.ite | split | dsimp only)

theorem execRecalDrift_keeps {s₀ s : State} (h : Keeps s₀ s) (t : Nat) (group : Nat) : ∃ r, execRecalDrift t group s = .next r ∧ Keeps s₀ r := by
  unfold execRecalDrift
  refine ⟨_, rfl, ?_⟩
  repeat' (first
    | with_reducible assumption | with_reducible apply State.openWindow_keeps | with_reducible apply State.whenRunning_keeps
    | with_reducible apply Keeps.ite | split | dsimp only)

theorem execRecalWindowEnd_keeps {s₀ s : State} (h : Keeps s₀ s) (t : Nat) : ∃ r, execRecalWindowEnd t s = .next r ∧ Keeps s₀ r := by
  unfold execRecalWindowEnd
  refine ⟨_, rfl, ?_⟩
  repeat' (first
    | with_reducible assumption | with_reducible apply State.addWrap_keeps | with_reducible apply State.rotateWindow_keeps
    | with_reducible apply State.set_keeps | with_reducible apply State.whenRunning_keeps
    | with_reducible exact Keeps.fields (by assumption) | with_reducible apply Keeps.fields | simp only [Keeps.mk_iff]
    | with_reducible apply Keeps.ite | split | dsimp only)

end Machine

end Sys2Proof
end

