-- ==== Sys2Proof/Laws/KeepsSnapshot.lean ====
section
/-! SUPPORT. Every operation of Machine/Snapshot.lean keeps what Laws/Keeps.lean names. -/

set_option Elab.async false
set_option linter.all false

namespace Sys2Proof

namespace Machine

theorem State.modSnp_keeps {s₀ s : State} (h : Keeps s₀ s) (f : Snp → Snp)  : Keeps s₀ (State.modSnp s f) := by
  unfold State.modSnp
  repeat' (first
    | with_reducible assumption | with_reducible exact Keeps.fields (by assumption) | with_reducible apply Keeps.fields
    | simp only [Keeps.mk_iff] | dsimp only)

theorem State.setSlotState_keeps {s₀ s : State} (h : Keeps s₀ s) (k : Nat) (v : Nat)  : Keeps s₀ (State.setSlotState s k v) := by
  unfold State.setSlotState
  repeat' (first
    | with_reducible assumption | with_reducible apply State.set_keeps | dsimp only)

theorem State.writeSlot_keeps {s₀ s : State} (h : Keeps s₀ s) (c : Nat) (k : Nat) (es : List (Nat × Nat × Nat × Nat))  : Keeps s₀ (State.writeSlot s c k es) := by
  unfold State.writeSlot
  repeat' (first
    | with_reducible assumption | with_reducible apply Keeps.foldl | with_reducible apply State.veil_keeps | intro _
    | dsimp only)

theorem State.snapList_keeps {s₀ s : State} (h : Keeps s₀ s) (c : Nat) (a : Nat)  : Keeps s₀ (State.snapList s c a).2.2 := by
  unfold State.snapList
  repeat' (first
    | with_reducible assumption | with_reducible apply State.load_keeps
    | with_reducible refine State.load_keeps' (hE := by assumption) ?_ | split | dsimp only)

theorem State.snapList_keeps' {s₀ s : State} (h : Keeps s₀ s) {c : Nat} {a : Nat}  {rX : _} {rY : _} {rT : State} (hE : State.snapList s c a = (rX, rY, rT)) : Keeps s₀ rT := by
  have k := State.snapList_keeps (s₀ := s₀) (s := s) h c a
  rw [hE] at k
  exact k

theorem State.snaptake_keeps {s₀ s : State} (h : Keeps s₀ s) (c : Cmd)  : Keeps s₀ (State.snaptake s c) := by
  unfold State.snaptake
  repeat' (first
    | with_reducible assumption | with_reducible apply State.completeCmd_keeps | with_reducible apply State.modSnp_keeps
    | with_reducible apply State.setReg_keeps | with_reducible apply State.snapList_keeps
    | with_reducible refine State.snapList_keeps' (hE := by assumption) ?_
    | with_reducible exact Keeps.fields (by assumption) | with_reducible apply Keeps.fields | simp only [Keeps.mk_iff]
    | intro _ | with_reducible apply Keeps.ite | split | dsimp only)

theorem execSnaptake_keeps {s₀ s : State} (h : Keeps s₀ s) (q : Nat) : ∃ r, execSnaptake q s = .next r ∧ Keeps s₀ r := by
  unfold execSnaptake
  refine ⟨_, rfl, ?_⟩
  repeat' (first
    | with_reducible assumption | with_reducible apply State.service_keeps | with_reducible apply State.snaptake_keeps
    | intro _ | dsimp only)

theorem State.endTake_keeps {s₀ s : State} (h : Keeps s₀ s) (k : Nat) (c : Cmd) (st : Nat)  : Keeps s₀ (State.endTake s k c st) := by
  unfold State.endTake
  repeat' (first
    | with_reducible assumption | with_reducible apply State.completeCmd_keeps | with_reducible apply State.modSnp_keeps
    | with_reducible apply State.setSlotState_keeps | with_reducible exact Keeps.fields (by assumption)
    | with_reducible apply Keeps.fields | simp only [Keeps.mk_iff] | intro _ | dsimp only)

theorem State.holdTake_keeps {s₀ s : State} (h : Keeps s₀ s) (k : Nat) (t : Take)  : Keeps s₀ (State.holdTake s k t) := by
  unfold State.holdTake
  repeat' (first
    | with_reducible assumption | with_reducible apply State.completeCmd_keeps | with_reducible apply State.draw_keeps
    | with_reducible refine State.draw_keeps' (hE := by assumption) ?_ | with_reducible apply State.modSnp_keeps
    | with_reducible apply State.setReg_keeps | with_reducible apply State.setSlotState_keeps
    | with_reducible apply State.writeSlot_keeps | with_reducible exact Keeps.fields (by assumption)
    | with_reducible apply Keeps.fields | simp only [Keeps.mk_iff] | intro _ | split | dsimp only)

theorem State.failTakes_keeps {s₀ s : State} (h : Keeps s₀ s) (es : List FaultIn)  : Keeps s₀ (State.failTakes s es) := by
  unfold State.failTakes
  repeat' (first
    | with_reducible assumption | with_reducible apply Keeps.foldl | with_reducible apply State.endTake_keeps | intro _
    | with_reducible apply Keeps.ite | split | dsimp only)

theorem execTakeComplete_keeps {s₀ s : State} (h : Keeps s₀ s)  : ∃ r, execTakeComplete s = .next r ∧ Keeps s₀ r := by
  unfold execTakeComplete
  refine ⟨_, rfl, ?_⟩
  repeat' (first
    | with_reducible assumption | with_reducible apply State.holdTake_keeps | with_reducible apply State.whenRunning_keeps
    | with_reducible exact Keeps.fields (by assumption) | with_reducible apply Keeps.fields | simp only [Keeps.mk_iff]
    | split | dsimp only)

theorem State.storeSend_keeps {s₀ s : State} (h : Keeps s₀ s) (m : Nat) (op : Nat) (slot : Nat) (epoch : Nat) (obj : Nat) (off : Nat) (slen : Nat) (size : Nat) (data : List Byte)  : Keeps s₀ (State.storeSend s m op slot epoch obj off slen size data).2 := by
  unfold State.storeSend
  repeat' (first
    | with_reducible assumption | with_reducible apply State.modSnp_keeps | with_reducible apply State.sendOn_keeps
    | with_reducible refine State.sendOn_keeps' (hE := by assumption) ?_ | with_reducible exact Keeps.fields (by assumption)
    | with_reducible apply Keeps.fields | simp only [Keeps.mk_iff] | intro _ | dsimp only)

theorem State.storeSend_keeps' {s₀ s : State} (h : Keeps s₀ s) {m : Nat} {op : Nat} {slot : Nat} {epoch : Nat} {obj : Nat} {off : Nat} {slen : Nat} {size : Nat} {data : List Byte}  {rX : _} {rT : State} (hE : State.storeSend s m op slot epoch obj off slen size data = (rX, rT)) : Keeps s₀ rT := by
  have k := State.storeSend_keeps (s₀ := s₀) (s := s) h m op slot epoch obj off slen size data
  rw [hE] at k
  exact k

theorem State.sendAsk_keeps {s₀ s : State} (h : Keeps s₀ s) (m : Nat) (a : StoreAsk)  : Keeps s₀ (State.sendAsk s m a) := by
  unfold State.sendAsk
  repeat' (first
    | with_reducible assumption | with_reducible apply State.modSnp_keeps | with_reducible apply State.storeSend_keeps
    | with_reducible refine State.storeSend_keeps' (hE := by assumption) ?_
    | with_reducible exact Keeps.fields (by assumption) | with_reducible apply Keeps.fields | simp only [Keeps.mk_iff]
    | intro _ | split | dsimp only)

theorem State.pumpAsks_keeps {s₀ s : State} (h : Keeps s₀ s) (fuel : Nat) : Keeps s₀ (State.pumpAsks s fuel) := by
  induction fuel generalizing s with
  | zero => exact h
  | succ n ih =>
    unfold State.pumpAsks
    split
    · exact ih (State.sendAsk_keeps (State.modSnp_keeps h _) _ _)
    · exact h

theorem State.ask_keeps {s₀ s : State} (h : Keeps s₀ s) (a : StoreAsk)  : Keeps s₀ (State.ask s a) := by
  unfold State.ask
  repeat' (first
    | with_reducible assumption | with_reducible apply State.modSnp_keeps | with_reducible apply State.pumpAsks_keeps
    | with_reducible exact Keeps.fields (by assumption) | with_reducible apply Keeps.fields | simp only [Keeps.mk_iff]
    | intro _ | dsimp only)

theorem State.forgetReads_keeps {s₀ s : State} (h : Keeps s₀ s)   : Keeps s₀ (State.forgetReads s) := by
  unfold State.forgetReads
  repeat' (first
    | with_reducible assumption | with_reducible apply State.modSnp_keeps
    | with_reducible exact Keeps.fields (by assumption) | with_reducible apply Keeps.fields | simp only [Keeps.mk_iff]
    | intro _ | dsimp only)

theorem State.dropTxn_keeps {s₀ s : State} (h : Keeps s₀ s) (xid : Nat)  : Keeps s₀ (State.dropTxn s xid) := by
  unfold State.dropTxn
  repeat' (first
    | with_reducible assumption | with_reducible apply State.modSnp_keeps
    | with_reducible exact Keeps.fields (by assumption) | with_reducible apply Keeps.fields | simp only [Keeps.mk_iff]
    | intro _ | dsimp only)

theorem State.pumpDrain_keeps {s₀ s : State} (h : Keeps s₀ s) (k fuel : Nat) : Keeps s₀ (State.pumpDrain s k fuel) := by
  induction fuel generalizing s with
  | zero => exact h
  | succ n ih =>
    unfold State.pumpDrain
    split
    · exact h
    · split
      · exact ih (State.storeSend_keeps (State.modSnp_keeps h _) _ _ _ _ _ _ _ _ _)
      · split
        · exact State.storeSend_keeps (State.modSnp_keeps h _) _ _ _ _ _ _ _ _ _
        · exact h
      · exact h

theorem State.drainOn_keeps {s₀ s : State} (h : Keeps s₀ s) (k : Nat)  : Keeps s₀ (State.drainOn s k) := by
  unfold State.drainOn
  repeat' (first
    | with_reducible assumption | with_reducible apply State.pumpDrain_keeps | intro _ | dsimp only)

theorem State.pumpStore_keeps {s₀ s : State} (h : Keeps s₀ s)   : Keeps s₀ (State.pumpStore s) := by
  unfold State.pumpStore
  repeat' (first
    | with_reducible assumption | with_reducible apply State.drainOn_keeps | with_reducible apply State.pumpAsks_keeps
    | dsimp only)

theorem State.failDrain_keeps {s₀ s : State} (h : Keeps s₀ s) (k : Nat) (st : Nat)  : Keeps s₀ (State.failDrain s k st) := by
  unfold State.failDrain
  repeat' (first
    | with_reducible assumption | with_reducible apply State.completeCmd_keeps | with_reducible apply State.modSnp_keeps
    | with_reducible apply State.setSlotState_keeps | with_reducible exact Keeps.fields (by assumption)
    | with_reducible apply Keeps.fields | simp only [Keeps.mk_iff] | intro _ | split | dsimp only)

theorem State.snapdrain_keeps {s₀ s : State} (h : Keeps s₀ s) (c : Cmd)  : Keeps s₀ (State.snapdrain s c) := by
  unfold State.snapdrain
  repeat' (first
    | with_reducible assumption | with_reducible apply State.completeCmd_keeps | with_reducible apply State.drainOn_keeps
    | with_reducible apply State.failDrain_keeps | with_reducible apply State.modSnp_keeps
    | with_reducible apply State.setReg_keeps | with_reducible apply State.setSlotState_keeps
    | with_reducible exact Keeps.fields (by assumption) | with_reducible apply Keeps.fields | simp only [Keeps.mk_iff]
    | intro _ | with_reducible apply Keeps.ite | split | dsimp only)

theorem execSnapdrain_keeps {s₀ s : State} (h : Keeps s₀ s) (q : Nat) : ∃ r, execSnapdrain q s = .next r ∧ Keeps s₀ r := by
  unfold execSnapdrain
  refine ⟨_, rfl, ?_⟩
  repeat' (first
    | with_reducible assumption | with_reducible apply State.service_keeps | with_reducible apply State.snapdrain_keeps
    | intro _ | dsimp only)

theorem State.onReply_keeps {s₀ s : State} (h : Keeps s₀ s) (m : Nat) (op : Nat) (req : Nat) (body : Packet → Txn → State → State) (hb : ∀ x0 x1 x2, Keeps s₀ x2 → Keeps s₀ (body x0 x1 x2)) : Keeps s₀ (State.onReply s m op req body) := by
  unfold State.onReply
  repeat' (first
    | with_reducible assumption | with_reducible apply State.mdlViolate_keeps | with_reducible apply State.onPacket_keeps
    | with_reducible apply State.pumpStore_keeps | with_reducible apply hb
    | with_reducible exact Keeps.fields (by assumption) | with_reducible apply Keeps.fields | simp only [Keeps.mk_iff]
    | intro _ | split | dsimp only)

theorem execSwack_keeps {s₀ s : State} (h : Keeps s₀ s) (m : Nat) : ∃ r, execSwack m s = .next r ∧ Keeps s₀ r := by
  unfold execSwack
  refine ⟨_, rfl, ?_⟩
  repeat' (first
    | with_reducible assumption | with_reducible apply State.addSat_keeps | with_reducible apply State.dropTxn_keeps
    | with_reducible apply State.failDrain_keeps | with_reducible apply State.onReply_keeps | intro _
    | with_reducible apply Keeps.ite | split | dsimp only)

theorem execSmack_keeps {s₀ s : State} (h : Keeps s₀ s) (m : Nat) : ∃ r, execSmack m s = .next r ∧ Keeps s₀ r := by
  unfold execSmack
  refine ⟨_, rfl, ?_⟩
  repeat' (first
    | with_reducible assumption | with_reducible apply State.addSat_keeps | with_reducible apply State.completeCmd_keeps
    | with_reducible apply State.draw_keeps | with_reducible refine State.draw_keeps' (hE := by assumption) ?_
    | with_reducible apply State.dropTxn_keeps | with_reducible apply State.modSnp_keeps
    | with_reducible apply State.onReply_keeps | with_reducible apply State.setSlotState_keeps
    | with_reducible exact Keeps.fields (by assumption) | with_reducible apply Keeps.fields | simp only [Keeps.mk_iff]
    | intro _ | split | dsimp only)

theorem execStquery_keeps {s₀ s : State} (h : Keeps s₀ s) (q : Nat) : ∃ r, execStquery q s = .next r ∧ Keeps s₀ r := by
  unfold execStquery
  refine ⟨_, rfl, ?_⟩
  repeat' (first
    | with_reducible assumption | with_reducible apply State.ask_keeps | with_reducible apply State.completeCmd_keeps
    | with_reducible apply State.service_keeps | intro _ | with_reducible apply Keeps.ite | split | dsimp only)

theorem State.endQuery_keeps {s₀ s : State} (h : Keeps s₀ s) (xid : Nat) (st : Nat)  : Keeps s₀ (State.endQuery s xid st) := by
  unfold State.endQuery
  repeat' (first
    | with_reducible assumption | with_reducible apply State.completeCmd_keeps | with_reducible apply State.modSnp_keeps
    | with_reducible exact Keeps.fields (by assumption) | with_reducible apply Keeps.fields | simp only [Keeps.mk_iff]
    | intro _ | split | dsimp only)

theorem execSqinfo_keeps {s₀ s : State} (h : Keeps s₀ s) (m : Nat) : ∃ r, execSqinfo m s = .next r ∧ Keeps s₀ r := by
  unfold execSqinfo
  refine ⟨_, rfl, ?_⟩
  repeat' (first
    | with_reducible assumption | with_reducible apply State.dropTxn_keeps | with_reducible apply State.endQuery_keeps
    | with_reducible apply State.onReply_keeps | with_reducible apply State.setReg_keeps | intro _
    | with_reducible apply Keeps.ite | split | dsimp only)

theorem State.failRestore_keeps {s₀ s : State} (h : Keeps s₀ s) (st : Nat)  : Keeps s₀ (State.failRestore s st) := by
  unfold State.failRestore
  repeat' (first
    | with_reducible assumption | with_reducible apply State.completeCmd_keeps
    | with_reducible apply State.forgetReads_keeps | with_reducible apply State.modSnp_keeps
    | with_reducible apply State.restore_keeps | with_reducible apply State.set_keeps
    | with_reducible exact Keeps.fields (by assumption) | with_reducible apply Keeps.fields | simp only [Keeps.mk_iff]
    | intro _ | split | dsimp only)

theorem State.beginRestore_keeps {s₀ s : State} (h : Keeps s₀ s) (e : Nat)  : Keeps s₀ (State.beginRestore s e) := by
  unfold State.beginRestore
  repeat' (first
    | with_reducible assumption | with_reducible apply Keeps.foldl | with_reducible apply State.clearPool_keeps
    | with_reducible apply State.detachAll_keeps | with_reducible apply State.setReg_keeps | intro _ | dsimp only)

theorem State.restoreRead_keeps {s₀ s : State} (h : Keeps s₀ s) (e : Nat) (obj : Nat) (off : Nat) (n : Nat)  : Keeps s₀ (State.restoreRead s e obj off n) := by
  unfold State.restoreRead
  repeat' (first
    | with_reducible assumption | with_reducible apply State.ask_keeps | with_reducible apply State.failRestore_keeps
    | with_reducible apply Keeps.ite | split | dsimp only)

theorem State.reattach_keeps {s₀ s : State} (h : Keeps s₀ s) (c : Nat) (gs : List (Option Nat))  : Keeps s₀ (State.reattach s c gs).1 := by
  unfold State.reattach
  repeat' (first
    | with_reducible assumption | with_reducible apply Keeps.foldl | with_reducible apply Keeps.foldl_fst
    | with_reducible apply Keeps.foldl_snd | with_reducible apply Keeps.foldl_mid | with_reducible apply Keeps.foldl_last
    | with_reducible apply State.attach_keeps | with_reducible apply State.countMapReads_keeps | intro _
    | with_reducible apply Keeps.ite | split | dsimp only)

theorem State.reattach_keeps' {s₀ s : State} (h : Keeps s₀ s) {c : Nat} {gs : List (Option Nat)}  {rX : _} {rT : State} (hE : State.reattach s c gs = (rT, rX)) : Keeps s₀ rT := by
  have k := State.reattach_keeps (s₀ := s₀) (s := s) h c gs
  rw [hE] at k
  exact k

theorem State.restoreSlot_keeps {s₀ s : State} (h : Keeps s₀ s) (c : Nat) (bs : List Byte) (i : Nat)  : Keeps s₀ (State.restoreSlot s c bs i) := by
  unfold State.restoreSlot
  repeat' (first
    | with_reducible assumption | with_reducible apply State.writePhys_keeps | with_reducible apply Keeps.ite | split
    | dsimp only)

theorem State.restoreHealth_keeps {s₀ s : State} (h : Keeps s₀ s) (c : Nat) (bs : List Byte)  : Keeps s₀ (State.restoreHealth s c bs).1 := by
  unfold State.restoreHealth
  repeat' (first
    | with_reducible assumption | with_reducible apply Keeps.foldl | with_reducible apply Keeps.foldl_fst
    | with_reducible apply Keeps.foldl_snd | with_reducible apply Keeps.foldl_mid | with_reducible apply Keeps.foldl_last
    | with_reducible apply State.restoreSlot_keeps | intro _ | dsimp only)

theorem State.restoreHealth_keeps' {s₀ s : State} (h : Keeps s₀ s) {c : Nat} {bs : List Byte}  {rX : _} {rT : State} (hE : State.restoreHealth s c bs = (rT, rX)) : Keeps s₀ rT := by
  have k := State.restoreHealth_keeps (s₀ := s₀) (s := s) h c bs
  rw [hE] at k
  exact k

theorem State.placeShared_keeps {s₀ s : State} (h : Keeps s₀ s) (gs : List (Option Nat)) (dig : List Byte)  : Keeps s₀ (State.placeShared s gs dig).1 := by
  unfold State.placeShared
  repeat' (first
    | with_reducible assumption | with_reducible apply State.reattach_keeps
    | with_reducible refine State.reattach_keeps' (hE := by assumption) ?_
    | with_reducible exact Keeps.fields (by assumption) | with_reducible apply Keeps.fields | simp only [Keeps.mk_iff]
    | intro _ | with_reducible apply Keeps.ite | split | dsimp only)

theorem State.placeShared_keeps' {s₀ s : State} (h : Keeps s₀ s) {gs : List (Option Nat)} {dig : List Byte}  {rX : _} {rT : State} (hE : State.placeShared s gs dig = (rT, rX)) : Keeps s₀ rT := by
  have k := State.placeShared_keeps (s₀ := s₀) (s := s) h gs dig
  rw [hE] at k
  exact k

theorem State.placeBytes_keeps {s₀ s : State} (h : Keeps s₀ s) (j : Nat) (no : Nat) (base : Nat) (bs : List Byte)  : Keeps s₀ (State.placeBytes s j no base bs) := by
  unfold State.placeBytes
  repeat' (first
    | with_reducible assumption | with_reducible apply State.store_keeps | with_reducible apply Keeps.ite | split
    | dsimp only)

theorem State.placeObject_keeps {s₀ s : State} (h : Keeps s₀ s) (rc : List Byte) (bs : List Byte)  : Keeps s₀ (State.placeObject s rc bs).1 := by
  unfold State.placeObject
  repeat' (first
    | with_reducible assumption | with_reducible apply State.placeBytes_keeps | with_reducible apply State.placeShared_keeps
    | with_reducible refine State.placeShared_keeps' (hE := by assumption) ?_ | with_reducible apply Keeps.ite | split
    | dsimp only)

theorem State.placeObject_keeps' {s₀ s : State} (h : Keeps s₀ s) {rc : List Byte} {bs : List Byte}  {rX : _} {rT : State} (hE : State.placeObject s rc bs = (rT, rX)) : Keeps s₀ rT := by
  have k := State.placeObject_keeps (s₀ := s₀) (s := s) h rc bs
  rw [hE] at k
  exact k

theorem State.restoreGo_keeps {s₀ s : State} (h : Keeps s₀ s) (get : Nat → Option (List Byte)) (fuel : Nat) :
    Keeps s₀ (State.restoreGo s get fuel) := by
  induction fuel generalizing s with
  | zero => exact h
  | succ n ih =>
    unfold State.restoreGo
    repeat' (first
      | with_reducible assumption
      | with_reducible apply ih
      | with_reducible apply State.modSnp_keeps
      | with_reducible apply State.failRestore_keeps
      | with_reducible apply State.restoreHealth_keeps
      | with_reducible apply State.restoreRead_keeps
      | with_reducible apply State.placeObject_keeps
      | with_reducible apply Keeps.ite
      | dsimp only
      | split)

theorem State.restoreOn_keeps {s₀ s : State} (h : Keeps s₀ s) (get : Nat → Option (List Byte))  : Keeps s₀ (State.restoreOn s get) := by
  unfold State.restoreOn
  repeat' (first
    | with_reducible assumption | with_reducible apply State.restoreGo_keeps | dsimp only)

theorem State.restore_keeps {s₀ s : State} (h : Keeps s₀ s) (c : Cmd)  : Keeps s₀ (State.restore s c) := by
  unfold State.restore
  repeat' (first
    | with_reducible assumption | with_reducible apply State.beginRestore_keeps
    | with_reducible apply State.completeCmd_keeps | with_reducible apply State.failRestore_keeps
    | with_reducible apply State.modSnp_keeps | with_reducible apply State.restoreOn_keeps
    | with_reducible apply State.restoreRead_keeps | with_reducible exact Keeps.fields (by assumption)
    | with_reducible apply Keeps.fields | simp only [Keeps.mk_iff] | intro _ | with_reducible apply Keeps.ite | split
    | dsimp only)

theorem execRestore_keeps {s₀ s : State} (h : Keeps s₀ s) (q : Nat) : ∃ r, execRestore q s = .next r ∧ Keeps s₀ r := by
  unfold execRestore
  refine ⟨_, rfl, ?_⟩
  repeat' (first
    | with_reducible assumption | with_reducible apply State.restore_keeps | with_reducible apply State.service_keeps
    | intro _ | dsimp only)

theorem State.manifestData_keeps {s₀ s : State} (h : Keeps s₀ s) (r : Restore) (last : Bool)  : Keeps s₀ (State.manifestData s r last) := by
  unfold State.manifestData
  repeat' (first
    | with_reducible assumption | with_reducible apply State.failRestore_keeps | with_reducible apply State.restoreOn_keeps
    | with_reducible apply State.restoreRead_keeps | with_reducible apply Keeps.ite | split | dsimp only)

theorem State.srdata_keeps {s₀ s : State} (h : Keeps s₀ s) (p : Packet) (last : Bool)  : Keeps s₀ (State.srdata s p last) := by
  unfold State.srdata
  repeat' (first
    | with_reducible assumption | with_reducible apply State.beginRestore_keeps
    | with_reducible apply State.completeCmd_keeps | with_reducible apply State.failRestore_keeps
    | with_reducible apply State.forgetReads_keeps | with_reducible apply State.manifestData_keeps
    | with_reducible apply State.modSnp_keeps | with_reducible apply State.restore_keeps
    | with_reducible apply State.restoreOn_keeps | with_reducible exact Keeps.fields (by assumption)
    | with_reducible apply Keeps.fields | simp only [Keeps.mk_iff] | intro _ | with_reducible apply Keeps.ite | split
    | dsimp only)

theorem execSrdata_keeps {s₀ s : State} (h : Keeps s₀ s) (m : Nat) : ∃ r, execSrdata m s = .next r ∧ Keeps s₀ r := by
  unfold execSrdata
  refine ⟨_, rfl, ?_⟩
  repeat' (first
    | with_reducible assumption | with_reducible apply State.dropTxn_keeps | with_reducible apply State.onReply_keeps
    | with_reducible apply State.srdata_keeps | intro _ | with_reducible apply Keeps.ite | split | dsimp only)

theorem execRestoreComplete_keeps {s₀ s : State} (h : Keeps s₀ s)  : ∃ r, execRestoreComplete s = .next r ∧ Keeps s₀ r := by
  unfold execRestoreComplete
  refine ⟨_, rfl, ?_⟩
  repeat' (first
    | with_reducible assumption | exact fun _ k => k | exact fun _ _ => Nat.le_refl _ | exact fun _ _ => Nat.zero_le _
    | with_reducible apply Keeps.foldl | with_reducible apply State.completeCmd_keeps
    | with_reducible apply State.modCtx_keeps | with_reducible apply State.modSnp_keeps
    | with_reducible apply State.modStp_keeps | with_reducible apply State.restore_keeps
    | with_reducible apply State.set_keeps | with_reducible apply State.setReg_keeps
    | with_reducible apply State.whenRunning_keeps | with_reducible exact Keeps.fields (by assumption)
    | with_reducible apply Keeps.fields | simp only [Keeps.mk_iff] | intro _ | with_reducible apply Keeps.ite | split
    | dsimp only)

theorem execSnpverify_keeps {s₀ s : State} (h : Keeps s₀ s) (q : Nat) : ∃ r, execSnpverify q s = .next r ∧ Keeps s₀ r := by
  unfold execSnpverify
  refine ⟨_, rfl, ?_⟩
  repeat' (first
    | with_reducible assumption | with_reducible apply State.completeCmd_keeps | with_reducible apply State.service_keeps
    | with_reducible apply State.set_keeps | intro _ | with_reducible apply Keeps.ite | split | dsimp only)

theorem State.endTxn_keeps {s₀ s : State} (h : Keeps s₀ s) (xid : Nat) (st : Nat)  : Keeps s₀ (State.endTxn s xid st) := by
  unfold State.endTxn
  repeat' (first
    | with_reducible assumption | with_reducible apply State.dropTxn_keeps | with_reducible apply State.endQuery_keeps
    | with_reducible apply State.failDrain_keeps | with_reducible apply State.failRestore_keeps
    | with_reducible exact Keeps.fields (by assumption) | with_reducible apply Keeps.fields | simp only [Keeps.mk_iff]
    | with_reducible apply Keeps.ite | split | dsimp only)

theorem execStoreTimeout_keeps {s₀ s : State} (h : Keeps s₀ s)  : ∃ r, execStoreTimeout s = .next r ∧ Keeps s₀ r := by
  unfold execStoreTimeout
  refine ⟨_, rfl, ?_⟩
  repeat' (first
    | with_reducible assumption | with_reducible apply State.endTxn_keeps | with_reducible apply State.modSnp_keeps
    | with_reducible apply State.pumpStore_keeps | with_reducible apply State.sendOn_keeps
    | with_reducible refine State.sendOn_keeps' (hE := by assumption) ?_ | with_reducible apply State.whenRunning_keeps
    | with_reducible exact Keeps.fields (by assumption) | with_reducible apply Keeps.fields | simp only [Keeps.mk_iff]
    | intro _ | with_reducible apply Keeps.ite | split | dsimp only)

theorem State.dropWaiting_keeps {s₀ s : State} (h : Keeps s₀ s)   : Keeps s₀ (State.dropWaiting s) := by
  unfold State.dropWaiting
  repeat' (first
    | with_reducible assumption | with_reducible apply Keeps.foldl | with_reducible apply State.completeCmd_keeps
    | with_reducible apply State.failDrain_keeps | with_reducible apply State.failRestore_keeps
    | with_reducible apply State.modSnp_keeps | with_reducible exact Keeps.fields (by assumption)
    | with_reducible apply Keeps.fields | simp only [Keeps.mk_iff] | intro _ | split | dsimp only)

theorem State.storeLinkDown_keeps {s₀ s : State} (h : Keeps s₀ s) (m : Nat)  : Keeps s₀ (State.storeLinkDown s m) := by
  unfold State.storeLinkDown
  repeat' (first
    | with_reducible assumption | with_reducible apply Keeps.foldl | with_reducible apply State.dropWaiting_keeps
    | with_reducible apply State.endTxn_keeps | with_reducible apply State.pumpStore_keeps | intro _
    | with_reducible apply Keeps.ite | split | dsimp only)

theorem State.resetSnapshots_keeps {s₀ s : State} (h : Keeps s₀ s)   : Keeps s₀ (State.resetSnapshots s) := by
  unfold State.resetSnapshots
  repeat' (first
    | with_reducible assumption | with_reducible apply Keeps.foldl | with_reducible apply State.endTake_keeps
    | with_reducible apply State.failRestore_keeps | intro _ | dsimp only)

theorem State.emptySlots_keeps {s₀ s : State} (h : Keeps s₀ s)   : Keeps s₀ (State.emptySlots s) := by
  unfold State.emptySlots
  repeat' (first
    | with_reducible assumption | with_reducible apply Keeps.foldl | with_reducible apply State.modSnp_keeps
    | with_reducible apply State.setReg_keeps | with_reducible exact Keeps.fields (by assumption)
    | with_reducible apply Keeps.fields | simp only [Keeps.mk_iff] | intro _ | dsimp only)

end Machine

end Sys2Proof
end

