-- ==== Sys2Proof/Laws/KeepsLinkReset.lean ====
section
/-! SUPPORT. Every operation of Machine/LinkReset.lean keeps what Laws/Keeps.lean names. -/

set_option Elab.async false
set_option linter.all false

namespace Sys2Proof

namespace Machine

theorem State.linkReset_keeps {s₀ s : State} (h : Keeps s₀ s) (m : Nat)  : Keeps s₀ (State.linkReset s m) := by
  unfold State.linkReset
  repeat' (first
    | with_reducible assumption | with_reducible apply State.clearPort_keeps | with_reducible apply State.collLinkDown_keeps
    | with_reducible apply State.domainLinkDown_keeps | with_reducible apply State.storeLinkDown_keeps
    | with_reducible apply Keeps.ite | split | dsimp only)

theorem State.linkLost_keeps {s₀ s : State} (h : Keeps s₀ s) (m : Nat)  : Keeps s₀ (State.linkLost s m) := by
  unfold State.linkLost
  repeat' (first
    | with_reducible assumption | with_reducible apply State.addSat_keeps | with_reducible apply State.linkReset_keeps
    | dsimp only)

theorem State.retransmit_keeps {s₀ s : State} (h : Keeps s₀ s) (m : Nat)  : Keeps s₀ (State.retransmit s m) := by
  unfold State.retransmit
  repeat' (first
    | with_reducible assumption | exact fun _ => Port.Balanced.blank | exact fun _ k => k | exact fun _ k => k.free _
    | exact fun _ k => k.pump _ | exact fun _ k => k.setLane _ ⟨(k.lane _).issued, (k.lane _).spent⟩
    | exact fun k => State.port_balanced k _ | with_reducible apply State.addSat_keeps
    | with_reducible apply State.linkLost_keeps | with_reducible apply State.setPort_keeps
    | with_reducible exact Keeps.fields (by assumption) | with_reducible apply Keeps.fields | simp only [Keeps.mk_iff]
    | with_reducible apply Keeps.ite | split | dsimp only)

theorem execReplayTimeout_keeps {s₀ s : State} (h : Keeps s₀ s) (m : Nat) : ∃ r, execReplayTimeout m s = .next r ∧ Keeps s₀ r := by
  unfold execReplayTimeout
  refine ⟨_, rfl, ?_⟩
  repeat' (first
    | with_reducible assumption | with_reducible apply State.retransmit_keeps | with_reducible apply Keeps.ite | split
    | dsimp only)

theorem execLivenessTimeout_keeps {s₀ s : State} (h : Keeps s₀ s) (m : Nat) : ∃ r, execLivenessTimeout m s = .next r ∧ Keeps s₀ r := by
  unfold execLivenessTimeout
  refine ⟨_, rfl, ?_⟩
  repeat' (first
    | with_reducible assumption | with_reducible apply State.linkLost_keeps | with_reducible apply Keeps.ite | split
    | dsimp only)

theorem execControlFu_keeps {s₀ s : State} (h : Keeps s₀ s) (m : Nat) (fu : List Byte) :
    ∃ r, execControlFu m fu s = .next r ∧ Keeps s₀ r := by
  refine ⟨_, rfl, ?_⟩
  split
  · split
    · exact State.linkLost_keeps h m
    · next ov =>
      have a : Keeps s₀ (s.modPort m fun p => (p.ack (leAt fu 4 3)).returns fu) := State.setPort_keeps h _ _ fun w => by
        refine Port.Balanced.returns (Port.Balanced.ack (State.port_balanced w m) _) ?_
        rw [Port.overReturned_ack]
        exact Bool.eq_false_iff.mpr ov
      refine State.pump_keeps ?_ m
      split
      · exact State.retransmit_keeps a m
      · exact a
  · exact h

theorem execInitFu_keeps {s₀ s : State} (h : Keeps s₀ s) (m : Nat) (fu : List Byte) : ∃ r, execInitFu m fu s = .next r ∧ Keeps s₀ r := by
  unfold execInitFu
  refine ⟨_, rfl, ?_⟩
  repeat' (first
    | with_reducible assumption | exact fun _ => Port.Balanced.blank | exact fun _ k => k | exact fun _ k => k.free _
    | exact fun _ k => k.pump _ | exact fun _ k => k.setLane _ ⟨(k.lane _).issued, (k.lane _).spent⟩
    | exact fun k => State.port_balanced k _ | with_reducible apply State.linkLost_keeps
    | with_reducible apply State.modPort_keeps | with_reducible apply State.set_keeps
    | with_reducible apply State.tryUp_keeps | with_reducible exact Keeps.fields (by assumption)
    | with_reducible apply Keeps.fields | simp only [Keeps.mk_iff] | intro _ | with_reducible apply Keeps.ite | split
    | dsimp only)

theorem State.writePortCtl_keeps {s₀ s : State} (h : Keeps s₀ s) (o : Origin) (m : Nat) (mask : Nat) (v : Nat) (locked : Bool)  : Keeps s₀ (State.writePortCtl s o m mask v locked) := by
  unfold State.writePortCtl
  repeat' (first
    | with_reducible assumption | with_reducible apply State.linkReset_keeps | with_reducible apply State.set_keeps
    | with_reducible apply State.startTraining_keeps | with_reducible apply State.store_keeps
    | with_reducible apply State.violate_keeps | intro _ | with_reducible apply Keeps.ite | split | dsimp only)

theorem State.writePgrant_keeps {s₀ s : State} (h : Keeps s₀ s) (o : Origin) (m : Nat) (mask : Nat) (v : Nat)  : Keeps s₀ (State.writePgrant s o m mask v) := by
  unfold State.writePgrant
  repeat' (first
    | with_reducible assumption | with_reducible apply State.setReg_keeps | with_reducible apply State.violate_keeps
    | with_reducible apply Keeps.ite | split | dsimp only)

end Machine

end Sys2Proof
end

