-- ==== Sys2Proof/Laws/KeepsReset.lean ====
section
/-! SUPPORT. Every operation of Machine/Reset.lean keeps what Laws/Keeps.lean names. -/

set_option Elab.async false
set_option linter.all false

namespace Sys2Proof

namespace Machine

theorem State.resetCommands_keeps {s₀ s : State} (h : Keeps s₀ s) (n : Nat)  : Keeps s₀ (State.resetCommands s n) := by
  unfold State.resetCommands
  repeat' (first
    | with_reducible assumption | with_reducible apply Keeps.foldl | with_reducible apply State.completeCmd_keeps
    | with_reducible apply State.endRestored_keeps | with_reducible apply State.modCtx_keeps
    | with_reducible apply State.modQueue_keeps | with_reducible exact Keeps.fields (by assumption)
    | with_reducible apply Keeps.fields | simp only [Keeps.mk_iff] | intro _ | with_reducible apply Keeps.ite | split
    | dsimp only)

theorem State.abandon_keeps {s₀ s : State} (h : Keeps s₀ s) (n : Nat) : Keeps s₀ (State.abandon s n) := by
  have a := State.abandonColls_keeps h n
  unfold State.abandon
  dsimp only
  apply State.modCtx_keeps
  refine State.modStp_keeps ?_ _ ?_
  rotate_left
  · exact fun _ k => k
  refine Keeps.mk_iff.mpr ⟨a.pending, a.mem, a.free, a.flight, a.credits, a.tokens, fun w x hx => ?_⟩
  obtain ⟨y, hy, rfl⟩ := List.mem_map.mp hx
  exact ⟨(a.pages w y hy).recs, fun o ho => (a.pages w y hy).ops o (List.mem_filter.mp ho).1⟩

theorem State.abandonLedger_keeps {s₀ s : State} (h : Keeps s₀ s) (n : Nat)  : Keeps s₀ (State.abandonLedger s n) := by
  unfold State.abandonLedger
  repeat' (first
    | with_reducible assumption | with_reducible apply State.ledger_keeps
    | with_reducible exact Keeps.fields (by assumption) | with_reducible apply Keeps.fields | simp only [Keeps.mk_iff]
    | intro _ | dsimp only)

theorem State.resetContext_keeps {s₀ s : State} (h : Keeps s₀ s) (n : Nat)  : Keeps s₀ (State.resetContext s n) := by
  unfold State.resetContext
  repeat' (first
    | with_reducible assumption | with_reducible apply State.abandon_keeps | with_reducible apply State.abandonLedger_keeps
    | with_reducible apply State.dropCaches_keeps | with_reducible apply State.modCtx_keeps
    | with_reducible apply State.releaseClusters_keeps | with_reducible apply State.resetCommands_keeps
    | with_reducible apply State.setCstate_keeps | with_reducible exact Keeps.fields (by assumption)
    | with_reducible apply Keeps.fields | simp only [Keeps.mk_iff] | intro _ | with_reducible apply Keeps.ite | split
    | dsimp only)

theorem State.resetCluster_keeps {s₀ s : State} (h : Keeps s₀ s) (g : Nat)  : Keeps s₀ (State.resetCluster s g) := by
  unfold State.resetCluster
  repeat' (first
    | with_reducible assumption | with_reducible apply State.clearRegs_keeps | with_reducible apply State.modCl_keeps
    | dsimp only)

theorem State.resetPartition_keeps {s₀ s : State} (h : Keeps s₀ s) (p : Nat)  : Keeps s₀ (State.resetPartition s p) := by
  unfold State.resetPartition
  repeat' (first
    | with_reducible assumption | with_reducible apply Keeps.foldl | with_reducible apply State.clearPool_keeps
    | with_reducible apply State.rebuildCredits_keeps | with_reducible apply State.recountShared_keeps
    | with_reducible apply State.resetCluster_keeps | with_reducible apply State.resetContext_keeps
    | with_reducible apply State.resetSnapshots_keeps | with_reducible exact Keeps.fields (by assumption)
    | with_reducible apply Keeps.fields | simp only [Keeps.mk_iff] | intro _ | with_reducible apply Keeps.ite | split
    | dsimp only)

end Machine

end Sys2Proof
end

