-- ==== Sys2Proof/Laws/KeepsReliability.lean ====
section
/-! SUPPORT. Every operation of Machine/Reliability.lean keeps what Laws/Keeps.lean names. -/

set_option Elab.async false
set_option linter.all false

namespace Sys2Proof

namespace Machine

theorem State.shadowMismatch_keeps {s₀ s : State} (h : Keeps s₀ s) (g : Nat) (u : ShadowUnit) (failed : Bool)  : Keeps s₀ (State.shadowMismatch s g u failed) := by
  unfold State.shadowMismatch
  repeat' (first
    | with_reducible assumption | with_reducible apply Keeps.foldl | with_reducible apply State.addSat_keeps
    | with_reducible apply State.mismatchOn_keeps | with_reducible apply State.queueFault_keeps
    | with_reducible apply State.raiseEvent_keeps | intro _ | with_reducible apply Keeps.ite | split | dsimp only)

theorem State.shadowBusycyc_keeps {s₀ s : State} (h : Keeps s₀ s) (u : ShadowUnit)  : Keeps s₀ (State.shadowBusycyc s u) := by
  unfold State.shadowBusycyc
  repeat' (first
    | with_reducible assumption | with_reducible apply State.blockCycles_keeps
    | with_reducible exact Keeps.fields (by assumption) | with_reducible apply Keeps.fields | simp only [Keeps.mk_iff]
    | split | dsimp only)

theorem State.endUnit_keeps {s₀ s : State} (h : Keeps s₀ s) (g : Nat) (u : ShadowUnit) (flips : List Flip)  : Keeps s₀ (State.endUnit s g u flips) := by
  unfold State.endUnit
  repeat' (first
    | with_reducible assumption | with_reducible apply State.addWrap_keeps | with_reducible apply State.modCl_keeps
    | with_reducible apply State.shadowBusycyc_keeps | with_reducible apply State.shadowMismatch_keeps
    | with_reducible exact Keeps.fields (by assumption) | with_reducible apply Keeps.fields | simp only [Keeps.mk_iff]
    | intro _ | with_reducible apply Keeps.ite | split | dsimp only)

theorem State.shadowCompare_keeps {s₀ s : State} (h : Keeps s₀ s) (g : Nat) (e : Nat) (flips : List Flip) (events : List FaultIn)  : Keeps s₀ (State.shadowCompare s g e flips events) := by
  unfold State.shadowCompare
  repeat' (first
    | with_reducible assumption | with_reducible apply State.detect_keeps | with_reducible apply State.endUnit_keeps
    | with_reducible exact Keeps.fields (by assumption) | with_reducible apply Keeps.fields | simp only [Keeps.mk_iff]
    | intro _ | with_reducible apply Keeps.ite | split | dsimp only)

theorem execShadowCompare_keeps {s₀ s : State} (h : Keeps s₀ s) (g : Nat) (e : Nat) (flips : List Flip) (events : List FaultIn) : ∃ r, execShadowCompare g e flips events s = .next r ∧ Keeps s₀ r := by
  unfold execShadowCompare
  refine ⟨_, rfl, ?_⟩
  repeat' (first
    | with_reducible assumption | with_reducible apply State.runWaiting_keeps
    | with_reducible apply State.shadowCompare_keeps | with_reducible apply State.whenRunning_keeps | dsimp only)

theorem execPatrolScrub_keeps {s₀ s : State} (h : Keeps s₀ s) (events : List FaultIn) : ∃ r, execPatrolScrub events s = .next r ∧ Keeps s₀ r := by
  unfold execPatrolScrub
  refine ⟨_, rfl, ?_⟩
  repeat' (first
    | with_reducible assumption | with_reducible apply State.detect_keeps | with_reducible apply State.failTakes_keeps
    | with_reducible apply State.whenRunning_keeps | dsimp only)

theorem State.setTest_keeps {s₀ s : State} (h : Keeps s₀ s) (g : Nat) (v : Nat)  : Keeps s₀ (State.setTest s g v) := by
  unfold State.setTest
  repeat' (first
    | with_reducible assumption | with_reducible apply State.set_keeps | dsimp only)

theorem State.modChk_keeps {s₀ s : State} (h : Keeps s₀ s) (f : Chk → Chk)  : Keeps s₀ (State.modChk s f) := by
  unfold State.modChk
  repeat' (first
    | with_reducible assumption | with_reducible exact Keeps.fields (by assumption) | with_reducible apply Keeps.fields
    | simp only [Keeps.mk_iff] | dsimp only)

theorem State.startTest_keeps {s₀ s : State} (h : Keeps s₀ s) (g : Nat)  : Keeps s₀ (State.startTest s g) := by
  unfold State.startTest
  repeat' (first
    | with_reducible assumption | with_reducible apply State.draw_keeps
    | with_reducible refine State.draw_keeps' (hE := by assumption) ?_ | with_reducible apply State.emptyTray_keeps
    | with_reducible apply State.modCl_keeps | with_reducible apply State.setTest_keeps
    | with_reducible exact Keeps.fields (by assumption) | with_reducible apply Keeps.fields | simp only [Keeps.mk_iff]
    | intro _ | split | dsimp only)

theorem execInfieldTestStart_keeps {s₀ s : State} (h : Keeps s₀ s) (g : Nat) : ∃ r, execInfieldTestStart g s = .next r ∧ Keeps s₀ r := by
  unfold execInfieldTestStart
  refine ⟨_, rfl, ?_⟩
  repeat' (first
    | with_reducible assumption | with_reducible apply State.startTest_keeps | with_reducible apply State.whenRunning_keeps
    | with_reducible apply Keeps.ite | split | dsimp only)

theorem State.endCltests_keeps {s₀ s : State} (h : Keeps s₀ s) (g : Nat) (st : Nat)  : Keeps s₀ (State.endCltests s g st) := by
  unfold State.endCltests
  repeat' (first
    | with_reducible assumption | with_reducible apply Keeps.foldl | with_reducible apply State.completeCmd_keeps
    | with_reducible apply State.modChk_keeps | with_reducible exact Keeps.fields (by assumption)
    | with_reducible apply Keeps.fields | simp only [Keeps.mk_iff] | intro _ | dsimp only)

theorem State.abandonTest_keeps {s₀ s : State} (h : Keeps s₀ s) (g : Nat)  : Keeps s₀ (State.abandonTest s g) := by
  unfold State.abandonTest
  repeat' (first
    | with_reducible assumption | with_reducible apply State.endCltests_keeps | with_reducible apply State.setTest_keeps
    | with_reducible apply Keeps.ite | split | dsimp only)

theorem State.failCluster_keeps {s₀ s : State} (h : Keeps s₀ s) (g : Nat)  : Keeps s₀ (State.failCluster s g) := by
  unfold State.failCluster
  repeat' (first
    | with_reducible assumption | with_reducible apply Keeps.foldl | with_reducible apply State.confirm_keeps
    | with_reducible apply State.raiseEvent_keeps | with_reducible apply State.setEngState_keeps
    | with_reducible apply State.setTest_keeps | intro _ | dsimp only)

theorem execInfieldTestDone_keeps {s₀ s : State} (h : Keeps s₀ s) (g : Nat) (pass : Bool) : ∃ r, execInfieldTestDone g pass s = .next r ∧ Keeps s₀ r := by
  unfold execInfieldTestDone
  refine ⟨_, rfl, ?_⟩
  repeat' (first
    | with_reducible assumption | with_reducible apply State.abandonTest_keeps | with_reducible apply State.endCltests_keeps
    | with_reducible apply State.failCluster_keeps | with_reducible apply State.modChk_keeps
    | with_reducible apply State.set_keeps | with_reducible apply State.setTest_keeps
    | with_reducible apply State.whenRunning_keeps | with_reducible exact Keeps.fields (by assumption)
    | with_reducible apply Keeps.fields | simp only [Keeps.mk_iff] | intro _ | with_reducible apply Keeps.ite | split
    | dsimp only)

theorem execTestDue_keeps {s₀ s : State} (h : Keeps s₀ s) (g : Nat) : ∃ r, execTestDue g s = .next r ∧ Keeps s₀ r := by
  unfold execTestDue
  refine ⟨_, rfl, ?_⟩
  repeat' (first
    | with_reducible assumption | with_reducible apply State.set_keeps | with_reducible apply State.setTest_keeps
    | with_reducible apply Keeps.ite | split | dsimp only)

theorem execTestOverdue_keeps {s₀ s : State} (h : Keeps s₀ s) (g : Nat) : ∃ r, execTestOverdue g s = .next r ∧ Keeps s₀ r := by
  unfold execTestOverdue
  refine ⟨_, rfl, ?_⟩
  repeat' (first
    | with_reducible assumption | with_reducible apply State.modChk_keeps | with_reducible apply State.park_keeps
    | with_reducible apply State.queueFault_keeps | with_reducible exact Keeps.fields (by assumption)
    | with_reducible apply Keeps.fields | simp only [Keeps.mk_iff] | intro _ | with_reducible apply Keeps.ite | split
    | dsimp only)

theorem execSelftest_keeps {s₀ s : State} (h : Keeps s₀ s) (q : Nat) : ∃ r, execSelftest q s = .next r ∧ Keeps s₀ r := by
  unfold execSelftest
  refine ⟨_, rfl, ?_⟩
  repeat' (first
    | with_reducible assumption | with_reducible apply State.completeCmd_keeps | with_reducible apply State.modChk_keeps
    | with_reducible apply State.service_keeps | with_reducible exact Keeps.fields (by assumption)
    | with_reducible apply Keeps.fields | simp only [Keeps.mk_iff] | intro _ | with_reducible apply Keeps.ite | split
    | dsimp only)

theorem State.selfFail_keeps {s₀ s : State} (h : Keeps s₀ s) (e : FaultIn)  : Keeps s₀ (State.selfFail s e) := by
  unfold State.selfFail
  repeat' (first
    | with_reducible assumption | with_reducible apply State.confirm_keeps | with_reducible apply State.failCluster_keeps
    | with_reducible apply Keeps.ite | split | dsimp only)

theorem execSelftestComplete_keeps {s₀ s : State} (h : Keeps s₀ s) (failed : List FaultIn) : ∃ r, execSelftestComplete failed s = .next r ∧ Keeps s₀ r := by
  unfold execSelftestComplete
  refine ⟨_, rfl, ?_⟩
  repeat' (first
    | with_reducible assumption | with_reducible apply Keeps.foldl | with_reducible apply State.completeCmd_keeps
    | with_reducible apply State.modChk_keeps | with_reducible apply State.selfFail_keeps
    | with_reducible apply State.whenRunning_keeps | with_reducible exact Keeps.fields (by assumption)
    | with_reducible apply Keeps.fields | simp only [Keeps.mk_iff] | intro _ | with_reducible apply Keeps.ite | split
    | dsimp only)

theorem State.awaitTest_keeps {s₀ s : State} (h : Keeps s₀ s) (g : Nat) (c : Cmd)  : Keeps s₀ (State.awaitTest s g c) := by
  unfold State.awaitTest
  repeat' (first
    | with_reducible assumption | with_reducible apply State.modChk_keeps
    | with_reducible exact Keeps.fields (by assumption) | with_reducible apply Keeps.fields | simp only [Keeps.mk_iff]
    | intro _ | dsimp only)

theorem execCltest_keeps {s₀ s : State} (h : Keeps s₀ s) (q : Nat) : ∃ r, execCltest q s = .next r ∧ Keeps s₀ r := by
  unfold execCltest
  refine ⟨_, rfl, ?_⟩
  repeat' (first
    | with_reducible assumption | with_reducible apply State.awaitTest_keeps | with_reducible apply State.completeCmd_keeps
    | with_reducible apply State.service_keeps | with_reducible apply State.startTest_keeps | intro _
    | with_reducible apply Keeps.ite | split | dsimp only)

theorem execRegionPathFailure_keeps {s₀ s : State} (h : Keeps s₀ s) (k : Nat) (host : Bool) : ∃ r, execRegionPathFailure k host s = .next r ∧ Keeps s₀ r := by
  unfold execRegionPathFailure
  refine ⟨_, rfl, ?_⟩
  repeat' (first
    | with_reducible assumption | with_reducible apply State.resetPartition_keeps | intro _ | with_reducible apply Keeps.ite
    | split | dsimp only)

theorem execDrainReset_keeps {s₀ s : State} (h : Keeps s₀ s)  : ∃ r, execDrainReset s = .next r ∧ Keeps s₀ r := by
  unfold execDrainReset
  refine ⟨_, rfl, ?_⟩
  repeat' (first
    | with_reducible assumption | exact fun _ k => k | exact fun _ _ => Nat.le_refl _ | exact fun _ _ => Nat.zero_le _
    | with_reducible apply Keeps.foldl | with_reducible apply State.abandonTest_keeps
    | with_reducible apply State.modStp_keeps | with_reducible apply State.resetPartition_keeps
    | with_reducible apply State.set_keeps | with_reducible apply State.whenRunning_keeps
    | with_reducible exact Keeps.fields (by assumption) | with_reducible apply Keeps.fields | simp only [Keeps.mk_iff]
    | intro _ | with_reducible apply Keeps.ite | split | dsimp only)

end Machine

end Sys2Proof
end

