-- ==== Sys2Proof/Laws/KeepsPower.lean ====
section
/-! SUPPORT. Every operation of Machine/Power.lean keeps what Laws/Keeps.lean names. -/

set_option Elab.async false
set_option linter.all false

namespace Sys2Proof

namespace Machine

theorem State.modPwr_keeps {s₀ s : State} (h : Keeps s₀ s) (f : Pwr → Pwr)  : Keeps s₀ (State.modPwr s f) := by
  unfold State.modPwr
  repeat' (first
    | with_reducible assumption | with_reducible exact Keeps.fields (by assumption) | with_reducible apply Keeps.fields
    | simp only [Keeps.mk_iff] | dsimp only)

theorem State.refreshCap_keeps {s₀ s : State} (h : Keeps s₀ s)   : Keeps s₀ (State.refreshCap s) := by
  unfold State.refreshCap
  repeat' (first
    | with_reducible assumption | with_reducible apply State.set_keeps | with_reducible apply Keeps.ite | split | dsimp only)

theorem State.writeField_keeps {s₀ s : State} (h : Keeps s₀ s) (off : Nat) (hi : Nat) (lo : Nat) (mask : Nat) (v : Nat) (ok : Nat → Bool)  : Keeps s₀ (State.writeField s off hi lo mask v ok) := by
  unfold State.writeField
  repeat' (first
    | with_reducible assumption | with_reducible apply State.set_keeps | with_reducible apply Keeps.ite | split | dsimp only)

theorem State.writeCap_keeps {s₀ s : State} (h : Keeps s₀ s) (o : Origin) (mask : Nat) (v : Nat)  : Keeps s₀ (State.writeCap s o mask v) := by
  unfold State.writeCap
  repeat' (first
    | with_reducible assumption | with_reducible apply State.modPwr_keeps | with_reducible apply State.refreshCap_keeps
    | with_reducible apply State.violateIf_keeps | with_reducible apply State.writeField_keeps
    | with_reducible exact Keeps.fields (by assumption) | with_reducible apply Keeps.fields | simp only [Keeps.mk_iff]
    | intro _ | with_reducible apply Keeps.ite | split | dsimp only)

theorem State.writeOpset_keeps {s₀ s : State} (h : Keeps s₀ s) (o : Origin) (mask : Nat) (v : Nat)  : Keeps s₀ (State.writeOpset s o mask v) := by
  unfold State.writeOpset
  repeat' (first
    | with_reducible assumption | with_reducible apply State.violateIf_keeps | with_reducible apply State.writeField_keeps
    | intro _ | dsimp only)

theorem execCaplimN_keeps {s₀ s : State} (h : Keeps s₀ s) (level : Bool) : ∃ r, execCaplimN level s = .next r ∧ Keeps s₀ r := by
  unfold execCaplimN
  refine ⟨_, rfl, ?_⟩
  repeat' (first
    | with_reducible assumption | with_reducible apply State.refreshCap_keeps | with_reducible apply State.set_keeps
    | with_reducible exact Keeps.fields (by assumption) | with_reducible apply Keeps.fields | simp only [Keeps.mk_iff]
    | with_reducible apply Keeps.ite | split | dsimp only)

theorem State.relock_keeps {s₀ s : State} (h : Keeps s₀ s)   : Keeps s₀ (State.relock s) := by
  unfold State.relock
  repeat' (first
    | with_reducible assumption | with_reducible apply State.set_keeps | dsimp only)

theorem State.driveVcore_keeps {s₀ s : State} (h : Keeps s₀ s) (op : Nat)  : Keeps s₀ (State.driveVcore s op) := by
  unfold State.driveVcore
  repeat' (first
    | with_reducible assumption | with_reducible apply State.modPwr_keeps
    | with_reducible exact Keeps.fields (by assumption) | with_reducible apply Keeps.fields | simp only [Keeps.mk_iff]
    | intro _ | dsimp only)

theorem State.startSwitch_keeps {s₀ s : State} (h : Keeps s₀ s) (b : Nat)  : Keeps s₀ (State.startSwitch s b) := by
  unfold State.startSwitch
  repeat' (first
    | with_reducible assumption | with_reducible apply State.driveVcore_keeps | with_reducible apply State.modPwr_keeps
    | with_reducible apply State.relock_keeps | with_reducible exact Keeps.fields (by assumption)
    | with_reducible apply Keeps.fields | simp only [Keeps.mk_iff] | intro _ | with_reducible apply Keeps.ite | split
    | dsimp only)

theorem State.finishSwitch_keeps {s₀ s : State} (h : Keeps s₀ s) (b : Nat)  : Keeps s₀ (State.finishSwitch s b) := by
  unfold State.finishSwitch
  repeat' (first
    | with_reducible assumption | with_reducible apply State.driveVcore_keeps | with_reducible apply State.modPwr_keeps
    | with_reducible apply State.set_keeps | with_reducible exact Keeps.fields (by assumption)
    | with_reducible apply Keeps.fields | simp only [Keeps.mk_iff] | intro _ | with_reducible apply Keeps.ite | split
    | dsimp only)

theorem execOpSwitchComplete_keeps {s₀ s : State} (h : Keeps s₀ s)  : ∃ r, execOpSwitchComplete s = .next r ∧ Keeps s₀ r := by
  unfold execOpSwitchComplete
  refine ⟨_, rfl, ?_⟩
  repeat' (first
    | with_reducible assumption | with_reducible apply State.finishSwitch_keeps
    | with_reducible exact Keeps.fields (by assumption) | with_reducible apply Keeps.fields | simp only [Keeps.mk_iff]
    | with_reducible apply Keeps.ite | split | dsimp only)

theorem State.settleDie_keeps {s₀ s : State} (h : Keeps s₀ s) (die : Nat)  : Keeps s₀ (State.settleDie s die) := by
  unfold State.settleDie
  repeat' (first
    | with_reducible assumption | with_reducible apply State.modPwr_keeps
    | with_reducible exact Keeps.fields (by assumption) | with_reducible apply Keeps.fields | simp only [Keeps.mk_iff]
    | intro _ | with_reducible apply Keeps.ite | split | dsimp only)

theorem execVoltageWriteComplete_keeps {s₀ s : State} (h : Keeps s₀ s) (die : Nat) : ∃ r, execVoltageWriteComplete die s = .next r ∧ Keeps s₀ r := by
  unfold execVoltageWriteComplete
  refine ⟨_, rfl, ?_⟩
  repeat' (first
    | with_reducible assumption | with_reducible apply State.modPwr_keeps | with_reducible apply State.relock_keeps
    | with_reducible apply State.settleDie_keeps | with_reducible exact Keeps.fields (by assumption)
    | with_reducible apply Keeps.fields | simp only [Keeps.mk_iff] | intro _ | with_reducible apply Keeps.ite | split
    | dsimp only)

theorem State.closeAudit_keeps {s₀ s : State} (h : Keeps s₀ s)   : Keeps s₀ (State.closeAudit s) := by
  unfold State.closeAudit
  repeat' (first
    | with_reducible assumption | with_reducible apply State.setReg_keeps
    | with_reducible exact Keeps.fields (by assumption) | with_reducible apply Keeps.fields | simp only [Keeps.mk_iff]
    | intro _ | dsimp only)

theorem State.grantTo_keeps {s₀ s : State} (h : Keeps s₀ s) (n : Nat) (g : Nat)  : Keeps s₀ (State.grantTo s n g) := by
  unfold State.grantTo
  repeat' (first
    | with_reducible assumption | with_reducible apply State.modCl_keeps | with_reducible apply State.modPwr_keeps
    | with_reducible exact Keeps.fields (by assumption) | with_reducible apply Keeps.fields | simp only [Keeps.mk_iff]
    | intro _ | dsimp only)

theorem State.grantAll_keeps {s₀ s : State} (h : Keeps s₀ s)   : Keeps s₀ (State.grantAll s) := by
  unfold State.grantAll
  repeat' (first
    | with_reducible assumption | with_reducible apply Keeps.foldl | with_reducible apply State.grantTo_keeps | intro _
    | dsimp only)

theorem State.takeToken_keeps {s₀ s : State} (h : Keeps s₀ s) (g : Nat) (u : Nat)  : Keeps s₀ (State.takeToken s g u) := by
  unfold State.takeToken
  repeat' (first
    | with_reducible assumption | with_reducible apply State.modCl_keeps | with_reducible apply State.modPwr_keeps
    | with_reducible exact Keeps.fields (by assumption) | with_reducible apply Keeps.fields | simp only [Keeps.mk_iff]
    | intro _ | with_reducible apply Keeps.ite | split | dsimp only)

theorem execTokenTake_keeps {s₀ s : State} (h : Keeps s₀ s) (g : Nat) (u : Nat) : ∃ r, execTokenTake g u s = .next r ∧ Keeps s₀ r := by
  unfold execTokenTake
  refine ⟨_, rfl, ?_⟩
  repeat' (first
    | with_reducible assumption | with_reducible apply State.takeToken_keeps | with_reducible apply Keeps.ite | split
    | dsimp only)

theorem State.latchTokens_keeps {s₀ s : State} (h : Keeps s₀ s)   : Keeps s₀ (State.latchTokens s) := by
  unfold State.latchTokens
  repeat' (first
    | with_reducible assumption | with_reducible apply State.setReg_keeps | dsimp only)

theorem State.readPower_keeps {s₀ s : State} (h : Keeps s₀ s) (w : Nat)  : Keeps s₀ (State.readPower s w) := by
  unfold State.readPower
  repeat' (first
    | with_reducible assumption | with_reducible apply State.draw_keeps
    | with_reducible refine State.draw_keeps' (hE := by assumption) ?_ | with_reducible apply State.modPwr_keeps
    | with_reducible apply State.set_keeps | with_reducible exact Keeps.fields (by assumption)
    | with_reducible apply Keeps.fields | simp only [Keeps.mk_iff] | intro _ | with_reducible apply Keeps.ite | split
    | dsimp only)

theorem State.readTemps_keeps {s₀ s : State} (h : Keeps s₀ s) (temps : List Nat)  : Keeps s₀ (State.readTemps s temps) := by
  unfold State.readTemps
  repeat' (first
    | with_reducible assumption | with_reducible apply State.modPwr_keeps | with_reducible apply State.set_keeps
    | with_reducible exact Keeps.fields (by assumption) | with_reducible apply Keeps.fields | simp only [Keeps.mk_iff]
    | intro _ | dsimp only)

theorem State.countEpochs_keeps {s₀ s : State} (h : Keeps s₀ s) (w : Nat)  : Keeps s₀ (State.countEpochs s w) := by
  unfold State.countEpochs
  repeat' (first
    | with_reducible assumption | with_reducible apply State.modPwr_keeps
    | with_reducible exact Keeps.fields (by assumption) | with_reducible apply Keeps.fields | simp only [Keeps.mk_iff]
    | intro _ | with_reducible apply Keeps.ite | split | dsimp only)

theorem State.setPhi_keeps {s₀ s : State} (h : Keeps s₀ s) (w : Nat)  : Keeps s₀ (State.setPhi s w) := by
  unfold State.setPhi
  repeat' (first
    | with_reducible assumption | with_reducible apply State.draw_keeps
    | with_reducible refine State.draw_keeps' (hE := by assumption) ?_ | with_reducible apply State.set_keeps
    | with_reducible apply Keeps.ite | split | dsimp only)

theorem State.chooseOp_keeps {s₀ s : State} (h : Keeps s₀ s) (w : Nat)  : Keeps s₀ (State.chooseOp s w) := by
  unfold State.chooseOp
  repeat' (first
    | with_reducible assumption | with_reducible apply State.modPwr_keeps | with_reducible apply State.set_keeps
    | with_reducible apply State.startSwitch_keeps | with_reducible exact Keeps.fields (by assumption)
    | with_reducible apply Keeps.fields | simp only [Keeps.mk_iff] | intro _ | with_reducible apply Keeps.ite | split
    | dsimp only)

theorem State.showBoosts_keeps {s₀ s : State} (h : Keeps s₀ s)   : Keeps s₀ (State.showBoosts s) := by
  unfold State.showBoosts
  repeat' (first
    | with_reducible assumption | with_reducible apply State.driveVcore_keeps | with_reducible apply State.set_keeps
    | intro _ | dsimp only)

theorem State.dropBoosts_keeps {s₀ s : State} (h : Keeps s₀ s) (p : Boost → Bool)  : Keeps s₀ (State.dropBoosts s p) := by
  unfold State.dropBoosts
  repeat' (first
    | with_reducible assumption | with_reducible apply State.modPwr_keeps | with_reducible apply State.showBoosts_keeps
    | with_reducible exact Keeps.fields (by assumption) | with_reducible apply Keeps.fields | simp only [Keeps.mk_iff]
    | intro _ | dsimp only)

theorem State.ageBoosts_keeps {s₀ s : State} (h : Keeps s₀ s)   : Keeps s₀ (State.ageBoosts s) := by
  unfold State.ageBoosts
  repeat' (first
    | with_reducible assumption | with_reducible apply State.modPwr_keeps
    | with_reducible exact Keeps.fields (by assumption) | with_reducible apply Keeps.fields | simp only [Keeps.mk_iff]
    | intro _ | dsimp only)

theorem State.governorEpoch_keeps {s₀ s : State} (h : Keeps s₀ s) (power : Nat) (temps : List Nat)  : Keeps s₀ (State.governorEpoch s power temps) := by
  unfold State.governorEpoch
  repeat' (first
    | with_reducible assumption | with_reducible apply State.ageBoosts_keeps | with_reducible apply State.chooseOp_keeps
    | with_reducible apply State.closeAudit_keeps | with_reducible apply State.countEpochs_keeps
    | with_reducible apply State.dropBoosts_keeps | with_reducible apply State.grantAll_keeps
    | with_reducible apply State.modPwr_keeps | with_reducible apply State.readPower_keeps
    | with_reducible apply State.readTemps_keeps | with_reducible apply State.setPhi_keeps
    | with_reducible exact Keeps.fields (by assumption) | with_reducible apply Keeps.fields | simp only [Keeps.mk_iff]
    | intro _ | dsimp only)

theorem execGovernorEpoch_keeps {s₀ s : State} (h : Keeps s₀ s) (power : Nat) (temps : List Nat) : ∃ r, execGovernorEpoch power temps s = .next r ∧ Keeps s₀ r := by
  unfold execGovernorEpoch
  refine ⟨_, rfl, ?_⟩
  repeat' (first
    | with_reducible assumption | with_reducible apply State.governorEpoch_keeps | with_reducible apply Keeps.ite | split
    | dsimp only)

theorem execThermalTrip_keeps {s₀ s : State} (h : Keeps s₀ s) (die : Nat) (temp : Nat) : ∃ r, execThermalTrip die temp s = .next r ∧ Keeps s₀ r := by
  unfold execThermalTrip
  refine ⟨_, rfl, ?_⟩
  repeat' (first
    | with_reducible assumption | with_reducible apply State.setReg_keeps
    | with_reducible exact Keeps.fields (by assumption) | with_reducible apply Keeps.fields | simp only [Keeps.mk_iff]
    | with_reducible apply Keeps.ite | split | dsimp only)

theorem execDroopTrip_keeps {s₀ s : State} (h : Keeps s₀ s) (die : Nat) : ∃ r, execDroopTrip die s = .next r ∧ Keeps s₀ r := by
  unfold execDroopTrip
  refine ⟨_, rfl, ?_⟩
  repeat' (first
    | with_reducible assumption | with_reducible apply State.addSat_keeps | with_reducible apply State.whenRunning_keeps
    | with_reducible exact Keeps.fields (by assumption) | with_reducible apply Keeps.fields | simp only [Keeps.mk_iff]
    | with_reducible apply Keeps.ite | split | dsimp only)

theorem execStretchEnd_keeps {s₀ s : State} (h : Keeps s₀ s) (die : Nat) (cycles : Nat) : ∃ r, execStretchEnd die cycles s = .next r ∧ Keeps s₀ r := by
  unfold execStretchEnd
  refine ⟨_, rfl, ?_⟩
  repeat' (first
    | with_reducible assumption | with_reducible apply State.addSat_keeps | with_reducible apply State.modPwr_keeps
    | with_reducible apply State.whenRunning_keeps | with_reducible exact Keeps.fields (by assumption)
    | with_reducible apply Keeps.fields | simp only [Keeps.mk_iff] | intro _ | with_reducible apply Keeps.ite | split
    | dsimp only)

theorem execUnitInactive_keeps {s₀ s : State} (h : Keeps s₀ s) (g : Nat) (u : Nat) : ∃ r, execUnitInactive g u s = .next r ∧ Keeps s₀ r := by
  unfold execUnitInactive
  refine ⟨_, rfl, ?_⟩
  repeat' (first
    | with_reducible assumption | with_reducible apply State.modCl_keeps | with_reducible apply State.whenRunning_keeps
    | with_reducible exact Keeps.fields (by assumption) | with_reducible apply Keeps.fields | simp only [Keeps.mk_iff]
    | intro _ | with_reducible apply Keeps.ite | split | dsimp only)

theorem State.activate_keeps {s₀ s : State} (h : Keeps s₀ s) (die : Nat)  : Keeps s₀ (State.activate s die) := by
  unfold State.activate
  repeat' (first
    | with_reducible assumption | with_reducible apply Keeps.foldl | with_reducible apply State.addCycles_keeps
    | with_reducible apply State.modCl_keeps | with_reducible exact Keeps.fields (by assumption)
    | with_reducible apply Keeps.fields | simp only [Keeps.mk_iff] | intro _ | with_reducible apply Keeps.ite | split
    | dsimp only)

theorem execActivationGrant_keeps {s₀ s : State} (h : Keeps s₀ s)  : ∃ r, execActivationGrant s = .next r ∧ Keeps s₀ r := by
  unfold execActivationGrant
  refine ⟨_, rfl, ?_⟩
  repeat' (first
    | with_reducible assumption | with_reducible apply Keeps.foldl | with_reducible apply State.activate_keeps
    | with_reducible apply State.whenRunning_keeps | intro _ | dsimp only)

theorem State.requestBoost_keeps {s₀ s : State} (h : Keeps s₀ s) (p : Nat) (lead : Nat)  : Keeps s₀ (State.requestBoost s p lead) := by
  unfold State.requestBoost
  repeat' (first
    | with_reducible assumption | with_reducible apply State.addSat_keeps | with_reducible apply State.modPwr_keeps
    | with_reducible exact Keeps.fields (by assumption) | with_reducible apply Keeps.fields | simp only [Keeps.mk_iff]
    | intro _ | with_reducible apply Keeps.ite | split | dsimp only)

theorem State.hint_keeps {s₀ s : State} (h : Keeps s₀ s) (g : Nat) (f : Fetch)  : Keeps s₀ (State.hint s g f) := by
  unfold State.hint
  repeat' (first
    | with_reducible assumption | with_reducible apply State.modPwr_keeps | with_reducible apply State.requestBoost_keeps
    | with_reducible apply State.reservedCode_keeps | with_reducible apply State.tagNow_keeps
    | with_reducible exact Keeps.fields (by assumption) | with_reducible apply Keeps.fields | simp only [Keeps.mk_iff]
    | intro _ | with_reducible apply Keeps.ite | split | dsimp only)

theorem execHint_keeps {s₀ s : State} (h : Keeps s₀ s) (g : Nat) : ∃ r, execHint g s = .next r ∧ Keeps s₀ r := by
  unfold execHint
  refine ⟨_, rfl, ?_⟩
  repeat' (first
    | with_reducible assumption | with_reducible apply State.control_keeps | with_reducible apply State.hint_keeps | intro _
    | dsimp only)

theorem execBoostStart_keeps {s₀ s : State} (h : Keeps s₀ s) (p : Nat) : ∃ r, execBoostStart p s = .next r ∧ Keeps s₀ r := by
  unfold execBoostStart
  refine ⟨_, rfl, ?_⟩
  repeat' (first
    | with_reducible assumption | with_reducible apply State.modPwr_keeps | with_reducible apply State.showBoosts_keeps
    | with_reducible exact Keeps.fields (by assumption) | with_reducible apply Keeps.fields | simp only [Keeps.mk_iff]
    | intro _ | with_reducible apply Keeps.ite | split | dsimp only)

theorem execBoostEnd_keeps {s₀ s : State} (h : Keeps s₀ s) (p : Nat) : ∃ r, execBoostEnd p s = .next r ∧ Keeps s₀ r := by
  unfold execBoostEnd
  refine ⟨_, rfl, ?_⟩
  repeat' (first
    | with_reducible assumption | with_reducible apply State.dropBoosts_keeps | intro _ | with_reducible apply Keeps.ite
    | split | dsimp only)

end Machine

end Sys2Proof
end

