-- ==== Sys2Proof/Laws/KeepsSentinel.lean ====
section
/-! SUPPORT. Every operation of Machine/Sentinel.lean keeps what Laws/Keeps.lean names. -/

set_option Elab.async false
set_option linter.all false

namespace Sys2Proof

namespace Machine

theorem State.modSen_keeps {s₀ s : State} (h : Keeps s₀ s) (f : Sen → Sen)  : Keeps s₀ (State.modSen s f) := by
  unfold State.modSen
  repeat' (first
    | with_reducible assumption | with_reducible exact Keeps.fields (by assumption) | with_reducible apply Keeps.fields
    | simp only [Keeps.mk_iff] | dsimp only)

theorem State.senEvent_keeps {s₀ s : State} (h : Keeps s₀ s) (slot : Nat) (decision : Nat) (tag : Nat)  : Keeps s₀ (State.senEvent s slot decision tag) := by
  unfold State.senEvent
  repeat' (first
    | with_reducible assumption | with_reducible apply State.addSat_keeps | with_reducible apply State.decision_keeps
    | with_reducible apply State.draw_keeps | with_reducible refine State.draw_keeps' (hE := by assumption) ?_
    | with_reducible apply State.modSen_keeps | with_reducible apply State.signalEvent_keeps
    | with_reducible exact Keeps.fields (by assumption) | with_reducible apply Keeps.fields | simp only [Keeps.mk_iff]
    | intro _ | with_reducible apply Keeps.ite | split | dsimp only)

theorem State.popSen_keeps {s₀ s : State} (h : Keeps s₀ s)   : Keeps s₀ (State.popSen s) := by
  unfold State.popSen
  repeat' (first
    | with_reducible assumption | with_reducible apply State.modSen_keeps | with_reducible apply State.senEvent_keeps
    | with_reducible apply State.setReg_keeps | with_reducible exact Keeps.fields (by assumption)
    | with_reducible apply Keeps.fields | simp only [Keeps.mk_iff] | intro _ | split | dsimp only)

theorem State.setSenCap_keeps {s₀ s : State} (h : Keeps s₀ s) (w : Nat)  : Keeps s₀ (State.setSenCap s w) := by
  unfold State.setSenCap
  repeat' (first
    | with_reducible assumption | with_reducible apply State.refreshCap_keeps | with_reducible apply State.set_keeps
    | dsimp only)

theorem State.clearSenCap_keeps {s₀ s : State} (h : Keeps s₀ s)   : Keeps s₀ (State.clearSenCap s) := by
  unfold State.clearSenCap
  repeat' (first
    | with_reducible assumption | with_reducible apply State.refreshCap_keeps | with_reducible apply State.set_keeps
    | dsimp only)

theorem State.setFr_keeps {s₀ s : State} (h : Keeps s₀ s) (i : Nat) (k : Nat) (v : Int)  : Keeps s₀ (State.setFr s i k v) := by
  unfold State.setFr
  repeat' (first
    | with_reducible assumption | with_reducible apply State.modSen_keeps
    | with_reducible exact Keeps.fields (by assumption) | with_reducible apply Keeps.fields | simp only [Keeps.mk_iff]
    | intro _ | dsimp only)

theorem State.senViolate_keeps {s₀ s : State} (h : Keeps s₀ s)   : Keeps s₀ (State.senViolate s) := by
  unfold State.senViolate
  repeat' (first
    | with_reducible assumption | with_reducible apply State.violate_keeps | dsimp only)

theorem State.decision_keeps {s₀ s : State} (h : Keeps s₀ s) (i : Nat) (code : Nat) (imm : Nat)  : Keeps s₀ (State.decision s i code imm) := by
  unfold State.decision
  repeat' (first
    | with_reducible assumption | with_reducible apply State.clearSenCap_keeps | with_reducible apply State.senEvent_keeps
    | with_reducible apply State.senViolate_keeps | with_reducible apply State.setSenCap_keeps
    | with_reducible apply State.wakeEvent_keeps | with_reducible apply Keeps.ite | split | dsimp only)

theorem State.readChannel_keeps {s₀ s : State} (h : Keeps s₀ s) (i : Nat) (d : Nat) (ch : Nat)  : Keeps s₀ (State.readChannel s i d ch) := by
  unfold State.readChannel
  repeat' (first
    | with_reducible assumption | with_reducible apply State.senViolate_keeps | with_reducible apply State.setFr_keeps
    | with_reducible apply Keeps.ite | split | dsimp only)

/-- A choice between two outcomes. -/
theorem Keeps.ite_last {s₀ : State} {β γ : Type} {c : Prop} [Decidable c] {a b : β × γ × State} (ha : Keeps s₀ a.2.2)
    (hb : Keeps s₀ b.2.2) : Keeps s₀ (if c then a else b).2.2 := by
  split <;> assumption

theorem State.senWord_keeps {s₀ s : State} (h : Keeps s₀ s) (i pc : Nat) (flag : Bool) :
    Keeps s₀ (State.senWord s i pc flag).2.2 := by
  unfold State.senWord
  dsimp only
  repeat' (first
    | with_reducible assumption
    | with_reducible apply Keeps.ite_last
    | with_reducible apply State.setFr_keeps
    | with_reducible apply State.readChannel_keeps
    | with_reducible apply State.decision_keeps
    | with_reducible apply State.senViolate_keeps
    | dsimp only
    | split)

theorem State.senWord_keeps' {s₀ s : State} (h : Keeps s₀ s) {i pc : Nat} {flag : Bool} {rX : Option Nat} {rY : Bool}
    {rT : State} (hE : State.senWord s i pc flag = (rX, rY, rT)) : Keeps s₀ rT := by
  have k := State.senWord_keeps h i pc flag
  rw [hE] at k
  exact k

theorem State.senRun_keeps {s₀ s : State} (h : Keeps s₀ s) (i fuel pc : Nat) (flag : Bool) :
    Keeps s₀ (State.senRun s i fuel pc flag).2 := by
  induction fuel generalizing s pc flag with
  | zero => exact h
  | succ k ih =>
    unfold State.senRun
    split
    · exact h
    · split
      · next hE => exact State.senWord_keeps' h hE
      · next hE => exact ih (State.senWord_keeps' h hE) _ _

theorem State.senRun_keeps' {s₀ s : State} (h : Keeps s₀ s) {i fuel pc : Nat} {flag : Bool} {rX : Bool} {rT : State}
    (hE : State.senRun s i fuel pc flag = (rX, rT)) : Keeps s₀ rT := by
  have k := State.senRun_keeps h i fuel pc flag
  rw [hE] at k
  exact k

theorem State.senSlot_keeps {s₀ s : State} (h : Keeps s₀ s) (i : Nat)  : Keeps s₀ (State.senSlot s i) := by
  unfold State.senSlot
  repeat' (first
    | with_reducible assumption | with_reducible apply State.senRun_keeps
    | with_reducible refine State.senRun_keeps' (hE := by assumption) ?_ | with_reducible apply State.set_keeps
    | with_reducible apply Keeps.ite | split | dsimp only)

theorem State.sentinelTick_keeps {s₀ s : State} (h : Keeps s₀ s) (samples : List Nat)  : Keeps s₀ (State.sentinelTick s samples) := by
  unfold State.sentinelTick
  repeat' (first
    | with_reducible assumption | with_reducible apply Keeps.foldl | with_reducible apply State.modSen_keeps
    | with_reducible apply State.senSlot_keeps | with_reducible apply State.setReg_keeps
    | with_reducible exact Keeps.fields (by assumption) | with_reducible apply Keeps.fields | simp only [Keeps.mk_iff]
    | intro _ | dsimp only)

theorem execSentinelTick_keeps {s₀ s : State} (h : Keeps s₀ s) (samples : List Nat) : ∃ r, execSentinelTick samples s = .next r ∧ Keeps s₀ r := by
  unfold execSentinelTick
  refine ⟨_, rfl, ?_⟩
  repeat' (first
    | with_reducible assumption | with_reducible apply State.sentinelTick_keeps | dsimp only)

theorem State.writeSenSlot_keeps {s₀ s : State} (h : Keeps s₀ s) (o : Origin) (i : Nat) (mask : Nat) (v : Nat)  : Keeps s₀ (State.writeSenSlot s o i mask v) := by
  unfold State.writeSenSlot
  repeat' (first
    | with_reducible assumption | with_reducible apply State.modSen_keeps | with_reducible apply State.senSlot_keeps
    | with_reducible apply State.violateIf_keeps | with_reducible apply State.writeField_keeps
    | with_reducible exact Keeps.fields (by assumption) | with_reducible apply Keeps.fields | simp only [Keeps.mk_iff]
    | intro _ | with_reducible apply Keeps.ite | split | dsimp only)

theorem State.writeSenCtl_keeps {s₀ s : State} (h : Keeps s₀ s) (mask : Nat) (v : Nat)  : Keeps s₀ (State.writeSenCtl s mask v) := by
  unfold State.writeSenCtl
  repeat' (first
    | with_reducible assumption | with_reducible apply State.clearSenCap_keeps | with_reducible apply Keeps.ite | split
    | dsimp only)

theorem State.writeProg_keeps {s₀ s : State} (h : Keeps s₀ s) (o : Origin) (i : Nat) (j : Nat) (mask : Nat) (v : Nat)  : Keeps s₀ (State.writeProg s o i j mask v) := by
  unfold State.writeProg
  repeat' (first
    | with_reducible assumption | with_reducible apply State.senSlot_keeps | with_reducible apply State.violate_keeps
    | with_reducible apply State.writeField_keeps | intro _ | with_reducible apply Keeps.ite | split | dsimp only)

theorem State.applySetstate_keeps {s₀ s : State} (h : Keeps s₀ s) (c : Cmd)  : Keeps s₀ (State.applySetstate s c) := by
  unfold State.applySetstate
  repeat' (first
    | with_reducible assumption | with_reducible apply State.completeCmd_keeps | with_reducible apply State.modPwr_keeps
    | with_reducible apply State.set_keeps | with_reducible apply State.violate_keeps
    | with_reducible apply State.wakeEvent_keeps | with_reducible exact Keeps.fields (by assumption)
    | with_reducible apply Keeps.fields | simp only [Keeps.mk_iff] | intro _ | with_reducible apply Keeps.ite | split
    | dsimp only)

theorem execSetstate_keeps {s₀ s : State} (h : Keeps s₀ s) (q : Nat) : ∃ r, execSetstate q s = .next r ∧ Keeps s₀ r := by
  unfold execSetstate
  refine ⟨_, rfl, ?_⟩
  repeat' (first
    | with_reducible assumption | with_reducible apply State.applySetstate_keeps
    | with_reducible refine State.fetchAny_keeps (hE := by assumption) ?_
    | with_reducible exact Keeps.fields (by assumption) | with_reducible apply Keeps.fields | simp only [Keeps.mk_iff]
    | with_reducible apply Keeps.ite | split | dsimp only)

theorem State.endSetstate_keeps {s₀ s : State} (h : Keeps s₀ s)   : Keeps s₀ (State.endSetstate s) := by
  unfold State.endSetstate
  repeat' (first
    | with_reducible assumption | with_reducible apply State.completeCmd_keeps | with_reducible apply State.modPwr_keeps
    | with_reducible exact Keeps.fields (by assumption) | with_reducible apply Keeps.fields | simp only [Keeps.mk_iff]
    | intro _ | split | dsimp only)

theorem State.enterLow_keeps {s₀ s : State} (h : Keeps s₀ s)   : Keeps s₀ (State.enterLow s) := by
  unfold State.enterLow
  repeat' (first
    | with_reducible assumption | with_reducible apply Keeps.foldl | with_reducible apply State.dropBoosts_keeps
    | with_reducible apply State.endSetstate_keeps | with_reducible apply State.linkReset_keeps
    | with_reducible apply State.modPwr_keeps | with_reducible apply State.set_keeps
    | with_reducible apply State.wakeEvent_keeps | with_reducible exact Keeps.fields (by assumption)
    | with_reducible apply Keeps.fields | simp only [Keeps.mk_iff] | intro _ | with_reducible apply Keeps.ite | split
    | dsimp only)

theorem execLowPowerEntered_keeps {s₀ s : State} (h : Keeps s₀ s)  : ∃ r, execLowPowerEntered s = .next r ∧ Keeps s₀ r := by
  unfold execLowPowerEntered
  refine ⟨_, rfl, ?_⟩
  repeat' (first
    | with_reducible assumption | with_reducible apply State.enterLow_keeps | with_reducible apply Keeps.ite | split
    | dsimp only)

theorem execSenWake_keeps {s₀ s : State} (h : Keeps s₀ s) (level : Bool) : ∃ r, execSenWake level s = .next r ∧ Keeps s₀ r := by
  unfold execSenWake
  refine ⟨_, rfl, ?_⟩
  repeat' (first
    | with_reducible assumption | with_reducible apply State.wakeEvent_keeps
    | with_reducible exact Keeps.fields (by assumption) | with_reducible apply Keeps.fields | simp only [Keeps.mk_iff]
    | with_reducible apply Keeps.ite | split | dsimp only)

theorem State.wakeParked_keeps {s₀ s : State} (h : Keeps s₀ s)   : Keeps s₀ (State.wakeParked s) := by
  unfold State.wakeParked
  repeat' (first
    | with_reducible assumption | with_reducible apply Keeps.foldl | with_reducible apply State.endSetstate_keeps
    | with_reducible apply State.modPwr_keeps | with_reducible apply State.refreshCap_keeps
    | with_reducible apply State.set_keeps | with_reducible apply State.startTraining_keeps
    | with_reducible exact Keeps.fields (by assumption) | with_reducible apply Keeps.fields | simp only [Keeps.mk_iff]
    | intro _ | with_reducible apply Keeps.ite | split | dsimp only)

end Machine

end Sys2Proof
end

