-- ==== Sys2Proof/Laws/KeepsBoot.lean ====
section
/-! SUPPORT. Every operation of Machine/Boot.lean keeps what Laws/Keeps.lean names. -/

set_option Elab.async false
set_option linter.all false

namespace Sys2Proof

namespace Machine

theorem State.modSec_keeps {s₀ s : State} (h : Keeps s₀ s) (f : Sec → Sec)  : Keeps s₀ (State.modSec s f) := by
  unfold State.modSec
  repeat' (first
    | with_reducible assumption | with_reducible exact Keeps.fields (by assumption) | with_reducible apply Keeps.fields
    | simp only [Keeps.mk_iff] | dsimp only)

theorem State.modPins_keeps {s₀ s : State} (h : Keeps s₀ s) (f : Pins → Pins)  : Keeps s₀ (State.modPins s f) := by
  unfold State.modPins
  repeat' (first
    | with_reducible assumption | with_reducible exact Keeps.fields (by assumption) | with_reducible apply Keeps.fields
    | simp only [Keeps.mk_iff] | dsimp only)

theorem State.setPhase_keeps {s₀ s : State} (h : Keeps s₀ s) (v : Nat)  : Keeps s₀ (State.setPhase s v) := by
  unfold State.setPhase
  repeat' (first
    | with_reducible assumption | with_reducible apply State.set_keeps | dsimp only)

theorem State.showSlot_keeps {s₀ s : State} (h : Keeps s₀ s)   : Keeps s₀ (State.showSlot s) := by
  unfold State.showSlot
  repeat' (first
    | with_reducible assumption | with_reducible apply State.set_keeps | with_reducible apply Keeps.ite | split | dsimp only)

theorem State.beginLoading_keeps {s₀ s : State} (h : Keeps s₀ s)   : Keeps s₀ (State.beginLoading s) := by
  unfold State.beginLoading
  repeat' (first
    | with_reducible assumption | with_reducible apply State.modSec_keeps | with_reducible apply State.setPhase_keeps
    | with_reducible apply State.showSlot_keeps | with_reducible exact Keeps.fields (by assumption)
    | with_reducible apply Keeps.fields | simp only [Keeps.mk_iff] | intro _ | dsimp only)

theorem State.tryBoot_keeps {s₀ s : State} (h : Keeps s₀ s)   : Keeps s₀ (State.tryBoot s) := by
  unfold State.tryBoot
  repeat' (first
    | with_reducible assumption | with_reducible apply State.beginLoading_keeps | with_reducible apply State.modSec_keeps
    | with_reducible apply State.set_keeps | with_reducible apply State.setPhase_keeps
    | with_reducible exact Keeps.fields (by assumption) | with_reducible apply Keeps.fields | simp only [Keeps.mk_iff]
    | intro _ | with_reducible apply Keeps.ite | split | dsimp only)

theorem Stp.Balanced.init : Stp.init.Balanced := Nat.le_refl 0

theorem State.coldReset_keeps {s₀ s : State} (h : Keeps s₀ s) : Keeps s₀ (State.coldReset s) := by
  unfold State.coldReset
  refine State.tryBoot_keeps (Keeps.mk_iff.mpr ⟨h.pending, h.mem, h.free, h.flight, fun _ => creditsBalance.nil,
    fun _ => Stp.Balanced.init, fun _ => pagesSound.nil⟩)

theorem State.warmReset_keeps {s₀ s : State} (h : Keeps s₀ s) : Keeps s₀ (State.warmReset s) := by
  have a : ∀ (regs : Tab RegVal) (veils : List Veil) (hbmLost : Nat) (chk : Chk) (snp : Snp) (sec : Sec), Keeps s₀ { State.reset with
      regs := regs, mem := s.mem, memKey := s.memKey, veils := veils, hbmLost := hbmLost, ddrLost := s.ddrLost,
      bootEpoch := s.bootEpoch, chk := chk, snp := snp, pins := s.pins, sec := sec, nextFlight := s.nextFlight, free := s.free,
      resp := s.resp, pending := s.pending } := fun _ _ _ _ _ _ =>
    Keeps.mk_iff.mpr ⟨h.pending, h.mem, h.free, h.flight, fun _ => creditsBalance.nil, fun _ => Stp.Balanced.init,
      fun _ => pagesSound.nil⟩
  unfold State.warmReset
  dsimp only
  refine State.tryBoot_keeps ?_
  refine Keeps.foldl (fun t k ht => State.setSlotState_keeps ht _ _) ?_
  refine Keeps.foldl (fun t g ht => ?_) (State.set_keeps (State.set_keeps (a _ _ _ _ _ _) _ _ _ _) _ _ _ _)
  split
  · exact State.setReg_keeps ht _ _
  · exact ht

theorem execWakeComplete_keeps {s₀ s : State} (h : Keeps s₀ s)  : ∃ r, execWakeComplete s = .next r ∧ Keeps s₀ r := by
  unfold execWakeComplete
  refine ⟨_, rfl, ?_⟩
  repeat' (first
    | with_reducible assumption | with_reducible apply State.refreshCap_keeps | with_reducible apply State.setReg_keeps
    | with_reducible apply State.wakeParked_keeps | with_reducible apply State.warmReset_keeps
    | with_reducible apply Keeps.ite | split | dsimp only)

theorem execPwrgoodDeassert_keeps {s₀ s : State} (h : Keeps s₀ s)  : ∃ r, execPwrgoodDeassert s = .next r ∧ Keeps s₀ r := by
  unfold execPwrgoodDeassert
  refine ⟨_, rfl, ?_⟩
  repeat' (first
    | with_reducible assumption | with_reducible apply State.coldReset_keeps | with_reducible apply State.draw_keeps
    | with_reducible refine State.draw_keeps' (hE := by assumption) ?_ | with_reducible apply State.modPins_keeps
    | with_reducible apply State.setReg_keeps | with_reducible exact Keeps.fields (by assumption)
    | with_reducible apply Keeps.fields | simp only [Keeps.mk_iff] | intro _ | with_reducible apply Keeps.ite | split
    | dsimp only)

theorem execPwrgoodAssert_keeps {s₀ s : State} (h : Keeps s₀ s)  : ∃ r, execPwrgoodAssert s = .next r ∧ Keeps s₀ r := by
  unfold execPwrgoodAssert
  refine ⟨_, rfl, ?_⟩
  repeat' (first
    | with_reducible assumption | with_reducible apply State.coldReset_keeps | with_reducible apply State.draw_keeps
    | with_reducible refine State.draw_keeps' (hE := by assumption) ?_ | with_reducible apply State.modPins_keeps
    | with_reducible apply State.tryBoot_keeps | with_reducible exact Keeps.fields (by assumption)
    | with_reducible apply Keeps.fields | simp only [Keeps.mk_iff] | intro _ | with_reducible apply Keeps.ite | split
    | dsimp only)

theorem execSupplyInTolerance_keeps {s₀ s : State} (h : Keeps s₀ s)  : ∃ r, execSupplyInTolerance s = .next r ∧ Keeps s₀ r := by
  unfold execSupplyInTolerance
  refine ⟨_, rfl, ?_⟩
  repeat' (first
    | with_reducible assumption | with_reducible apply State.modPins_keeps | with_reducible apply State.tryBoot_keeps
    | with_reducible exact Keeps.fields (by assumption) | with_reducible apply Keeps.fields | simp only [Keeps.mk_iff]
    | intro _ | with_reducible apply Keeps.ite | split | dsimp only)

theorem execResetNAssert_keeps {s₀ s : State} (h : Keeps s₀ s)  : ∃ r, execResetNAssert s = .next r ∧ Keeps s₀ r := by
  unfold execResetNAssert
  refine ⟨_, rfl, ?_⟩
  repeat' (first
    | with_reducible assumption | with_reducible apply State.modPins_keeps | with_reducible apply State.warmReset_keeps
    | with_reducible exact Keeps.fields (by assumption) | with_reducible apply Keeps.fields | simp only [Keeps.mk_iff]
    | intro _ | with_reducible apply Keeps.ite | split | dsimp only)

theorem execResetNDeassert_keeps {s₀ s : State} (h : Keeps s₀ s) (bootsrc : Nat) : ∃ r, execResetNDeassert bootsrc s = .next r ∧ Keeps s₀ r := by
  unfold execResetNDeassert
  refine ⟨_, rfl, ?_⟩
  repeat' (first
    | with_reducible assumption | with_reducible apply State.modPins_keeps | with_reducible apply State.tryBoot_keeps
    | with_reducible exact Keeps.fields (by assumption) | with_reducible apply Keeps.fields | simp only [Keeps.mk_iff]
    | intro _ | with_reducible apply Keeps.ite | split | dsimp only)

theorem execCxlConventionalReset_keeps {s₀ s : State} (h : Keeps s₀ s)  : ∃ r, execCxlConventionalReset s = .next r ∧ Keeps s₀ r := by
  unfold execCxlConventionalReset
  refine ⟨_, rfl, ?_⟩
  repeat' (first
    | with_reducible assumption | with_reducible apply State.warmReset_keeps | with_reducible apply Keeps.ite | split
    | dsimp only)

theorem State.deriveKeys_keeps {s₀ s : State} (h : Keeps s₀ s)   : Keeps s₀ (State.deriveKeys s) := by
  unfold State.deriveKeys
  repeat' (first
    | with_reducible assumption | with_reducible apply Keeps.foldl | with_reducible apply State.draw_keeps
    | with_reducible refine State.draw_keeps' (hE := by assumption) ?_ | with_reducible apply State.modSec_keeps
    | with_reducible apply State.setReg_keeps | with_reducible exact Keeps.fields (by assumption)
    | with_reducible apply Keeps.fields | simp only [Keeps.mk_iff] | intro _ | split | dsimp only)

theorem State.startImage_keeps {s₀ s : State} (h : Keeps s₀ s) (im : List Byte) (src : Nat)  : Keeps s₀ (State.startImage s im src) := by
  unfold State.startImage
  repeat' (first
    | with_reducible assumption | with_reducible apply State.modSec_keeps | with_reducible apply State.set_keeps
    | with_reducible apply State.setPhase_keeps | with_reducible exact Keeps.fields (by assumption)
    | with_reducible apply Keeps.fields | simp only [Keeps.mk_iff] | intro _ | dsimp only)

theorem State.loadSlot_keeps {s₀ s : State} (h : Keeps s₀ s)   : Keeps s₀ (State.loadSlot s) := by
  unfold State.loadSlot
  repeat' (first
    | with_reducible assumption | with_reducible apply State.modSec_keeps | with_reducible apply State.set_keeps
    | with_reducible apply State.startImage_keeps | with_reducible exact Keeps.fields (by assumption)
    | with_reducible apply Keeps.fields | simp only [Keeps.mk_iff] | intro _ | with_reducible apply Keeps.ite | split
    | dsimp only)

theorem State.finishInit_keeps {s₀ s : State} (h : Keeps s₀ s)   : Keeps s₀ (State.finishInit s) := by
  unfold State.finishInit
  repeat' (first
    | with_reducible assumption | with_reducible apply Keeps.foldl | with_reducible apply State.modSec_keeps
    | with_reducible apply State.refreshCap_keeps | with_reducible apply State.set_keeps
    | with_reducible apply State.setPhase_keeps | with_reducible apply State.setReg_keeps
    | with_reducible exact Keeps.fields (by assumption) | with_reducible apply Keeps.fields | simp only [Keeps.mk_iff]
    | intro _ | dsimp only)

theorem execBootStepComplete_keeps {s₀ s : State} (h : Keeps s₀ s)  : ∃ r, execBootStepComplete s = .next r ∧ Keeps s₀ r := by
  unfold execBootStepComplete
  refine ⟨_, rfl, ?_⟩
  repeat' (first
    | with_reducible assumption | with_reducible apply State.beginLoading_keeps
    | with_reducible apply State.deriveKeys_keeps | with_reducible apply State.finishInit_keeps
    | with_reducible apply State.loadSlot_keeps | with_reducible apply State.modSec_keeps
    | with_reducible exact Keeps.fields (by assumption) | with_reducible apply Keeps.fields | simp only [Keeps.mk_iff]
    | intro _ | with_reducible apply Keeps.ite | split | dsimp only)

theorem State.writePushctl_keeps {s₀ s : State} (h : Keeps s₀ s) (o : Origin) (mask : Nat) (v : Nat)  : Keeps s₀ (State.writePushctl s o mask v) := by
  unfold State.writePushctl
  repeat' (first
    | with_reducible assumption | with_reducible apply State.modSec_keeps | with_reducible apply State.setPhase_keeps
    | with_reducible apply State.violate_keeps | with_reducible apply State.writeField_keeps
    | with_reducible exact Keeps.fields (by assumption) | with_reducible apply Keeps.fields | simp only [Keeps.mk_iff]
    | intro _ | with_reducible apply Keeps.ite | split | dsimp only)

theorem execPushComplete_keeps {s₀ s : State} (h : Keeps s₀ s)  : ∃ r, execPushComplete s = .next r ∧ Keeps s₀ r := by
  unfold execPushComplete
  refine ⟨_, rfl, ?_⟩
  repeat' (first
    | with_reducible assumption | with_reducible apply State.modSec_keeps | with_reducible apply State.setPhase_keeps
    | with_reducible apply State.startImage_keeps | with_reducible exact Keeps.fields (by assumption)
    | with_reducible apply Keeps.fields | simp only [Keeps.mk_iff] | intro _ | with_reducible apply Keeps.ite | split
    | dsimp only)

theorem execFwslot_keeps {s₀ s : State} (h : Keeps s₀ s) (q : Nat) : ∃ r, execFwslot q s = .next r ∧ Keeps s₀ r := by
  unfold execFwslot
  refine ⟨_, rfl, ?_⟩
  repeat' (first
    | with_reducible assumption | with_reducible apply State.completeCmd_keeps | with_reducible apply State.load_keeps
    | with_reducible refine State.load_keeps' (hE := by assumption) ?_ | with_reducible apply State.modSec_keeps
    | with_reducible apply State.service_keeps | with_reducible exact Keeps.fields (by assumption)
    | with_reducible apply Keeps.fields | simp only [Keeps.mk_iff] | intro _ | with_reducible apply Keeps.ite | split
    | dsimp only)

theorem execFwslotComplete_keeps {s₀ s : State} (h : Keeps s₀ s)  : ∃ r, execFwslotComplete s = .next r ∧ Keeps s₀ r := by
  unfold execFwslotComplete
  refine ⟨_, rfl, ?_⟩
  repeat' (first
    | with_reducible assumption | with_reducible apply State.completeCmd_keeps | with_reducible apply State.draw_keeps
    | with_reducible refine State.draw_keeps' (hE := by assumption) ?_ | with_reducible apply State.modSec_keeps
    | with_reducible apply State.showSlot_keeps | with_reducible exact Keeps.fields (by assumption)
    | with_reducible apply Keeps.fields | simp only [Keeps.mk_iff] | intro _ | with_reducible apply Keeps.ite | split
    | dsimp only)

theorem execCoreupd_keeps {s₀ s : State} (h : Keeps s₀ s) (q : Nat) : ∃ r, execCoreupd q s = .next r ∧ Keeps s₀ r := by
  unfold execCoreupd
  refine ⟨_, rfl, ?_⟩
  repeat' (first
    | with_reducible assumption | with_reducible apply State.completeCmd_keeps | with_reducible apply State.load_keeps
    | with_reducible refine State.load_keeps' (hE := by assumption) ?_ | with_reducible apply State.modSec_keeps
    | with_reducible apply State.service_keeps | with_reducible apply State.set_keeps
    | with_reducible exact Keeps.fields (by assumption) | with_reducible apply Keeps.fields | simp only [Keeps.mk_iff]
    | intro _ | with_reducible apply Keeps.ite | split | dsimp only)

theorem execCoreupdComplete_keeps {s₀ s : State} (h : Keeps s₀ s)  : ∃ r, execCoreupdComplete s = .next r ∧ Keeps s₀ r := by
  unfold execCoreupdComplete
  refine ⟨_, rfl, ?_⟩
  repeat' (first
    | with_reducible assumption | with_reducible apply State.completeCmd_keeps | with_reducible apply State.modSec_keeps
    | with_reducible apply State.setReg_keeps | with_reducible exact Keeps.fields (by assumption)
    | with_reducible apply Keeps.fields | simp only [Keeps.mk_iff] | intro _ | with_reducible apply Keeps.ite | split
    | dsimp only)

end Machine

end Sys2Proof
end

