-- ==== Sys2Proof/Laws/KeepsAccess.lean ====
section
/-! SUPPORT. Every operation of Machine/Access.lean keeps what Laws/Keeps.lean names. -/

set_option Elab.async false
set_option linter.all false

namespace Sys2Proof

namespace Machine

theorem State.writeMapBitOf_keeps {s₀ s : State} (h : Keeps s₀ s) (o : Origin) (p : Nat) (mask : Nat) (v : Nat) (g : Nat)  : Keeps s₀ (State.writeMapBitOf s o p mask v g) := by
  unfold State.writeMapBitOf
  repeat' (first
    | with_reducible assumption | with_reducible apply State.modChk_keeps | with_reducible apply State.set_keeps
    | with_reducible apply State.violate_keeps | with_reducible exact Keeps.fields (by assumption)
    | with_reducible apply Keeps.fields | simp only [Keeps.mk_iff] | intro _ | with_reducible apply Keeps.ite | split
    | dsimp only)

theorem State.writePartmap_keeps {s₀ s : State} (h : Keeps s₀ s) (o : Origin) (p : Nat) (mask : Nat) (v : Nat)  : Keeps s₀ (State.writePartmap s o p mask v) := by
  unfold State.writePartmap
  repeat' (first
    | with_reducible assumption | with_reducible apply Keeps.foldl | with_reducible apply State.writeMapBitOf_keeps
    | intro _ | dsimp only)

theorem State.writePartctl_keeps {s₀ s : State} (h : Keeps s₀ s) (p : Nat) (v : Nat)  : Keeps s₀ (State.writePartctl s p v) := by
  unfold State.writePartctl
  repeat' (first
    | with_reducible assumption | with_reducible apply State.resetPartition_keeps | with_reducible apply State.set_keeps
    | with_reducible apply Keeps.ite | split | dsimp only)

theorem State.writePartemu_keeps {s₀ s : State} (h : Keeps s₀ s) (o : Origin) (p : Nat) (v : Nat)  : Keeps s₀ (State.writePartemu s o p v) := by
  unfold State.writePartemu
  repeat' (first
    | with_reducible assumption | with_reducible apply State.set_keeps | with_reducible apply State.violate_keeps
    | with_reducible apply Keeps.ite | split | dsimp only)

theorem State.freeContext_keeps {s₀ s : State} (h : Keeps s₀ s) (n : Nat)  : Keeps s₀ (State.freeContext s n) := by
  unfold State.freeContext
  repeat' (first
    | with_reducible assumption | with_reducible apply State.abandon_keeps | with_reducible apply State.closeUnless_keeps
    | with_reducible apply State.detachAll_keeps | with_reducible apply State.disableQueues_keeps
    | with_reducible apply State.dropCaches_keeps | with_reducible apply State.set_keeps
    | with_reducible apply State.setCstate_keeps | with_reducible apply State.setCtx_keeps | dsimp only)

theorem State.writeEnable_keeps {s₀ s : State} (h : Keeps s₀ s) (o : Origin) (n : Nat) (on : Bool)  : Keeps s₀ (State.writeEnable s o n on) := by
  unfold State.writeEnable
  repeat' (first
    | with_reducible assumption | with_reducible apply State.dropCaches_keeps | with_reducible apply State.freeContext_keeps
    | with_reducible apply State.set_keeps | with_reducible apply State.setCstate_keeps
    | with_reducible apply State.setCtx_keeps | with_reducible apply State.violate_keeps | with_reducible apply Keeps.ite
    | split | dsimp only)

theorem State.writePreempt_keeps {s₀ s : State} (h : Keeps s₀ s) (o : Origin) (n : Nat)  : Keeps s₀ (State.writePreempt s o n) := by
  unfold State.writePreempt
  repeat' (first
    | with_reducible assumption | with_reducible apply State.park_keeps | with_reducible apply State.violate_keeps
    | with_reducible apply Keeps.ite | split | dsimp only)

theorem State.writeResume_keeps {s₀ s : State} (h : Keeps s₀ s) (o : Origin) (n : Nat)  : Keeps s₀ (State.writeResume s o n) := by
  unfold State.writeResume
  repeat' (first
    | with_reducible assumption | with_reducible apply State.closeUnless_keeps
    | with_reducible apply State.makeRunnable_keeps | with_reducible apply State.modCtx_keeps
    | with_reducible apply State.select_keeps | with_reducible apply State.set_keeps
    | with_reducible apply State.stopRunnable_keeps | with_reducible apply State.violate_keeps
    | with_reducible exact Keeps.fields (by assumption) | with_reducible apply Keeps.fields | simp only [Keeps.mk_iff]
    | intro _ | with_reducible apply Keeps.ite | split | dsimp only)

theorem State.writeCtxCtl_keeps {s₀ s : State} (h : Keeps s₀ s) (o : Origin) (n : Nat) (v : Nat)  : Keeps s₀ (State.writeCtxCtl s o n v) := by
  unfold State.writeCtxCtl
  repeat' (first
    | with_reducible assumption | with_reducible apply State.set_keeps | with_reducible apply State.violate_keeps
    | with_reducible apply State.violateIf_keeps | with_reducible apply State.writeEnable_keeps
    | with_reducible apply State.writePreempt_keeps | with_reducible apply State.writeResume_keeps
    | with_reducible apply Keeps.ite | split | dsimp only)

theorem State.writeWhen_keeps {s₀ s : State} (h : Keeps s₀ s) (ok : Bool) (viol : Nat) (o : Origin) (off : Nat) (hi : Nat) (lo : Nat) (mask : Nat) (v : Nat)  : Keeps s₀ (State.writeWhen s ok viol o off hi lo mask v) := by
  unfold State.writeWhen
  repeat' (first
    | with_reducible assumption | with_reducible apply State.setReg_keeps | with_reducible apply State.violate_keeps
    | with_reducible apply Keeps.ite | split | dsimp only)

theorem State.writeCtxBase_keeps {s₀ s : State} (h : Keeps s₀ s) (o : Origin) (n : Nat) (off : Nat) (mask : Nat) (v : Nat)  : Keeps s₀ (State.writeCtxBase s o n off mask v) := by
  unfold State.writeCtxBase
  repeat' (first
    | with_reducible assumption | with_reducible apply State.writeWhen_keeps | with_reducible apply Keeps.ite | split
    | dsimp only)

theorem State.writeQueCtl_keeps {s₀ s : State} (h : Keeps s₀ s) (o : Origin) (q : Nat) (v : Nat)  : Keeps s₀ (State.writeQueCtl s o q v) := by
  unfold State.writeQueCtl
  repeat' (first
    | with_reducible assumption | with_reducible apply State.disableQueue_keeps | with_reducible apply State.set_keeps
    | with_reducible apply State.violate_keeps | with_reducible apply State.violateIf_keeps | with_reducible apply Keeps.ite
    | split | dsimp only)

theorem State.writeCplptr_keeps {s₀ s : State} (h : Keeps s₀ s) (q : Nat) (v : Nat)  : Keeps s₀ (State.writeCplptr s q v) := by
  unfold State.writeCplptr
  repeat' (first
    | with_reducible assumption | with_reducible apply State.drainCpls_keeps | with_reducible apply State.set_keeps
    | dsimp only)

theorem State.writeGovtab_keeps {s₀ s : State} (h : Keeps s₀ s) (o : Origin) (k : Nat) (mask : Nat) (v : Nat)  : Keeps s₀ (State.writeGovtab s o k mask v) := by
  unfold State.writeGovtab
  repeat' (first
    | with_reducible assumption | with_reducible apply State.violateIf_keeps | with_reducible apply State.writeField_keeps
    | intro _ | dsimp only)

theorem State.writeRange_keeps {s₀ s : State} (h : Keeps s₀ s) (o : Origin) (viol : Nat) (off : Nat) (hi : Nat) (lo : Nat) (mask : Nat) (v : Nat) (ok : Nat → Bool)  : Keeps s₀ (State.writeRange s o viol off hi lo mask v ok) := by
  unfold State.writeRange
  repeat' (first
    | with_reducible assumption | with_reducible apply State.violateIf_keeps | with_reducible apply State.writeField_keeps
    | dsimp only)

theorem State.writeLevel_keeps {s₀ s : State} (h : Keeps s₀ s) (o : Origin) (p : Nat) (v : Nat)  : Keeps s₀ (State.writeLevel s o p v) := by
  unfold State.writeLevel
  repeat' (first
    | with_reducible assumption | with_reducible apply State.modChk_keeps | with_reducible apply State.set_keeps
    | with_reducible apply State.violate_keeps | with_reducible exact Keeps.fields (by assumption)
    | with_reducible apply Keeps.fields | simp only [Keeps.mk_iff] | intro _ | with_reducible apply Keeps.ite | split
    | dsimp only)

theorem State.writeArea_keeps {s₀ s : State} (h : Keeps s₀ s) (c : Nat) (mask : Nat) (v : Nat)  : Keeps s₀ (State.writeArea s c mask v) := by
  unfold State.writeArea
  repeat' (first
    | with_reducible assumption | with_reducible apply State.emptySlots_keeps | with_reducible apply State.writeWhen_keeps
    | with_reducible apply Keeps.ite | split | dsimp only)

theorem State.writeRole_keeps {s₀ s : State} (h : Keeps s₀ s) (o : Origin) (mask : Nat) (v : Nat)  : Keeps s₀ (State.writeRole s o mask v) := by
  unfold State.writeRole
  repeat' (first
    | with_reducible assumption | with_reducible apply State.violateIf_keeps | with_reducible apply State.writeField_keeps
    | with_reducible apply State.writeWhen_keeps | intro _ | dsimp only)

theorem State.writeHdmwin_keeps {s₀ s : State} (h : Keeps s₀ s) (o : Origin) (mask : Nat) (v : Nat)  : Keeps s₀ (State.writeHdmwin s o mask v) := by
  unfold State.writeHdmwin
  repeat' (first
    | with_reducible assumption | with_reducible apply State.setReg_keeps | with_reducible apply State.violate_keeps
    | with_reducible apply Keeps.ite | split | dsimp only)

theorem State.writeReset_keeps {s₀ s : State} (h : Keeps s₀ s) (o : Origin) (v : Nat)  : Keeps s₀ (State.writeReset s o v) := by
  unfold State.writeReset
  repeat' (first
    | with_reducible assumption | with_reducible apply State.coldReset_keeps | with_reducible apply State.violate_keeps
    | with_reducible apply State.warmReset_keeps | with_reducible apply Keeps.ite | split | dsimp only)

theorem State.writeMgtCtl_keeps {s₀ s : State} (h : Keeps s₀ s) (v : Nat)  : Keeps s₀ (State.writeMgtCtl s v) := by
  unfold State.writeMgtCtl
  repeat' (first
    | with_reducible assumption | with_reducible apply State.set_keeps | with_reducible apply State.wakeEvent_keeps
    | with_reducible apply Keeps.ite | split | dsimp only)

theorem State.writeViol_keeps {s₀ s : State} (h : Keeps s₀ s) (off : Nat) (v : Nat)  : Keeps s₀ (State.writeViol s off v) := by
  unfold State.writeViol
  repeat' (first
    | with_reducible assumption | with_reducible apply State.setReg_keeps | with_reducible apply Keeps.ite | split
    | dsimp only)

theorem State.writeFieldOf_keeps {s₀ s : State} (h : Keeps s₀ s) (off : Nat) (mask : Nat) (v : Nat) (f : RegField)  : Keeps s₀ (State.writeFieldOf s off mask v f) := by
  unfold State.writeFieldOf
  repeat' (first
    | with_reducible assumption | with_reducible apply State.setReg_keeps
    | with_reducible exact Keeps.fields (by assumption) | with_reducible apply Keeps.fields | simp only [Keeps.mk_iff]
    | with_reducible apply Keeps.ite | split | dsimp only)

theorem State.writeFields_keeps {s₀ s : State} (h : Keeps s₀ s) (off : Nat) (mask : Nat) (v : Nat) (fs : List RegField)  : Keeps s₀ (State.writeFields s off mask v fs) := by
  unfold State.writeFields
  repeat' (first
    | with_reducible assumption | with_reducible apply Keeps.foldl | with_reducible apply State.writeFieldOf_keeps | intro _
    | with_reducible apply Keeps.ite | split | dsimp only)

theorem State.unlessLocked_keeps {s₀ s t : State} (h : Keeps s₀ s) (h1 : Keeps s₀ t)   : Keeps s₀ (State.unlessLocked s t) := by
  unfold State.unlessLocked
  repeat' (first
    | with_reducible assumption | with_reducible apply Keeps.ite | split | dsimp only)

/-- Choices between updates of which there may be none. -/
theorem Keeps.some_ite {s₀ : State} {c : Prop} [Decidable c] {a b : Option State} (ha : ∀ t, a = some t → Keeps s₀ t)
    (hb : ∀ t, b = some t → Keeps s₀ t) : ∀ t, (if c then a else b) = some t → Keeps s₀ t := by
  split <;> assumption

theorem Keeps.some_none {s₀ : State} : ∀ t, (none : Option State) = some t → Keeps s₀ t := fun _ h => nomatch h

theorem Keeps.some_some {s₀ s : State} (h : Keeps s₀ s) : ∀ t, some s = some t → Keeps s₀ t :=
  fun _ e => Option.some.inj e ▸ h

theorem State.writeCore_keeps {s₀ s : State} (h : Keeps s₀ s) {o : Origin} {b i off mask v : Nat} {t : State}
    (hE : State.writeCore s o b i off mask v = some t) : Keeps s₀ t := by
  suffices k : ∀ t, State.writeCore s o b i off mask v = some t → Keeps s₀ t from k t hE
  clear hE
  unfold State.writeCore
  repeat' (first
    | with_reducible refine Keeps.some_ite ?_ ?_
    | with_reducible exact Keeps.some_none
    | with_reducible refine Keeps.some_some ?_
    | with_reducible assumption
    | with_reducible apply State.writeCplptr_keeps
    | with_reducible apply State.writeCtxBase_keeps
    | with_reducible apply State.writeCtxCtl_keeps
    | with_reducible apply State.writePartctl_keeps
    | with_reducible apply State.writePartemu_keeps
    | with_reducible apply State.writePartmap_keeps
    | with_reducible apply State.writeQueCtl_keeps
    | with_reducible apply State.writeWhen_keeps)

theorem State.writePlatform_keeps {s₀ s : State} (h : Keeps s₀ s) {o : Origin} {b i j mask v : Nat} {t : State}
    (hE : State.writePlatform s o b i j mask v = some t) : Keeps s₀ t := by
  suffices k : ∀ t, State.writePlatform s o b i j mask v = some t → Keeps s₀ t from k t hE
  clear hE
  unfold State.writePlatform
  repeat' (first
    | with_reducible refine Keeps.some_ite ?_ ?_
    | with_reducible exact Keeps.some_none
    | with_reducible refine Keeps.some_some ?_
    | with_reducible assumption
    | with_reducible apply State.unlessLocked_keeps
    | with_reducible apply State.writeCap_keeps
    | with_reducible apply State.writeGovtab_keeps
    | with_reducible apply State.writeHdmwin_keeps
    | with_reducible apply State.writeMgtCtl_keeps
    | with_reducible apply State.writeOpset_keeps
    | with_reducible apply State.writeProg_keeps
    | with_reducible apply State.writePushctl_keeps
    | with_reducible apply State.writeRange_keeps
    | with_reducible apply State.writeReset_keeps
    | with_reducible apply State.writeSenCtl_keeps
    | with_reducible apply State.writeSenSlot_keeps)

theorem State.writeFabric_keeps {s₀ s : State} (h : Keeps s₀ s) {o : Origin} {b i j off mask v : Nat} {t : State}
    (hE : State.writeFabric s o b i j off mask v = some t) : Keeps s₀ t := by
  suffices k : ∀ t, State.writeFabric s o b i j off mask v = some t → Keeps s₀ t from k t hE
  clear hE
  unfold State.writeFabric
  repeat' (first
    | with_reducible refine Keeps.some_ite ?_ ?_
    | with_reducible exact Keeps.some_none
    | with_reducible refine Keeps.some_some ?_
    | with_reducible assumption
    | with_reducible apply State.unlessLocked_keeps
    | with_reducible apply State.writeArea_keeps
    | with_reducible apply State.writeBwshare_keeps
    | with_reducible apply State.writeLevel_keeps
    | with_reducible apply State.writePctl_keeps
    | with_reducible apply State.writePgrant_keeps
    | with_reducible apply State.writePortCtl_keeps
    | with_reducible apply State.writeRange_keeps
    | with_reducible apply State.writeRecal_keeps
    | with_reducible apply State.writeRole_keeps
    | with_reducible apply State.writeShbase_keeps
    | with_reducible apply State.writeWhen_keeps)

theorem State.writeReg_keeps {s₀ s : State} (h : Keeps s₀ s) (o : Origin) (r : RegRow) (off : Nat) (mask : Nat) (v : Nat)  : Keeps s₀ (State.writeReg s o r off mask v) := by
  unfold State.writeReg
  repeat' (first
    | with_reducible assumption | with_reducible apply State.violateIf_keeps
    | with_reducible refine State.writeCore_keeps (hE := by assumption) ?_
    | with_reducible refine State.writeFabric_keeps (hE := by assumption) ?_ | with_reducible apply State.writeFields_keeps
    | with_reducible refine State.writePlatform_keeps (hE := by assumption) ?_ | with_reducible apply State.writeViol_keeps
    | with_reducible exact Keeps.fields (by assumption) | with_reducible apply Keeps.fields | simp only [Keeps.mk_iff]
    | with_reducible apply Keeps.ite | split | dsimp only)

theorem State.popChk_keeps {s₀ s : State} (h : Keeps s₀ s)   : Keeps s₀ (State.popChk s) := by
  unfold State.popChk
  repeat' (first
    | with_reducible assumption | with_reducible apply State.modChk_keeps | with_reducible apply State.setReg_keeps
    | with_reducible exact Keeps.fields (by assumption) | with_reducible apply Keeps.fields | simp only [Keeps.mk_iff]
    | intro _ | split | dsimp only)

theorem State.beforeRead_keeps {s₀ s : State} (h : Keeps s₀ s) (o : Origin) (b : Nat) (i : Nat) (j : Nat) (off : Nat)  : Keeps s₀ (State.beforeRead s o b i j off) := by
  unfold State.beforeRead
  repeat' (first
    | with_reducible assumption | with_reducible apply State.addSat_keeps | with_reducible apply State.draw_keeps
    | with_reducible refine State.draw_keeps' (hE := by assumption) ?_ | with_reducible apply State.latchBaraud_keeps
    | with_reducible apply State.latchContrib_keeps | with_reducible apply State.latchPool_keeps
    | with_reducible apply State.latchShared_keeps | with_reducible apply State.latchTokens_keeps
    | with_reducible apply State.popChk_keeps | with_reducible apply State.popSen_keeps
    | with_reducible apply State.senEvent_keeps | with_reducible apply State.setReg_keeps
    | with_reducible apply State.violateIf_keeps | with_reducible apply Keeps.ite | split | dsimp only)

theorem State.readReg_keeps {s₀ s : State} (h : Keeps s₀ s) (o : Origin) (r : RegRow) (off : Nat)  : Keeps s₀ (State.readReg s o r off).2 := by
  unfold State.readReg
  repeat' (first
    | with_reducible assumption | with_reducible apply State.beforeRead_keeps | split | dsimp only)

theorem State.readReg_keeps' {s₀ s : State} (h : Keeps s₀ s) {o : Origin} {r : RegRow} {off : Nat}  {rX : _} {rT : State} (hE : State.readReg s o r off = (rX, rT)) : Keeps s₀ rT := by
  have k := State.readReg_keeps (s₀ := s₀) (s := s) h o r off
  rw [hE] at k
  exact k

theorem State.writePart_keeps {s₀ s : State} (h : Keeps s₀ s) (o : Origin) (off : Nat) (size : Nat) (v : Nat)  : Keeps s₀ (State.writePart s o off size v) := by
  unfold State.writePart
  repeat' (first
    | with_reducible assumption | with_reducible apply State.violate_keeps | with_reducible apply State.writeReg_keeps
    | with_reducible exact Keeps.fields (by assumption) | with_reducible apply Keeps.fields | simp only [Keeps.mk_iff]
    | with_reducible apply Keeps.ite | split | dsimp only)

theorem State.readPart_keeps {s₀ s : State} (h : Keeps s₀ s) (o : Origin) (off : Nat) (size : Nat)  : Keeps s₀ (State.readPart s o off size).2 := by
  unfold State.readPart
  repeat' (first
    | with_reducible assumption | with_reducible apply State.readReg_keeps
    | with_reducible refine State.readReg_keeps' (hE := by assumption) ?_ | with_reducible apply State.violate_keeps
    | with_reducible exact Keeps.fields (by assumption) | with_reducible apply Keeps.fields | simp only [Keeps.mk_iff]
    | with_reducible apply Keeps.ite | split | dsimp only)

theorem State.readPart_keeps' {s₀ s : State} (h : Keeps s₀ s) {o : Origin} {off : Nat} {size : Nat}  {rX : _} {rT : State} (hE : State.readPart s o off size = (rX, rT)) : Keeps s₀ rT := by
  have k := State.readPart_keeps (s₀ := s₀) (s := s) h o off size
  rw [hE] at k
  exact k

theorem State.barWrite_keeps {s₀ s : State} (h : Keeps s₀ s) (o : Origin) (off : Nat) (size : Nat) (v : Nat)  : Keeps s₀ (State.barWrite s o off size v) := by
  unfold State.barWrite
  repeat' (first
    | with_reducible assumption | with_reducible apply State.violate_keeps | with_reducible apply State.writePart_keeps
    | with_reducible exact Keeps.fields (by assumption) | with_reducible apply Keeps.fields | simp only [Keeps.mk_iff]
    | with_reducible apply Keeps.ite | split | dsimp only)

theorem State.barRead_keeps {s₀ s : State} (h : Keeps s₀ s) (o : Origin) (off : Nat) (size : Nat)  : Keeps s₀ (State.barRead s o off size).2 := by
  unfold State.barRead
  repeat' (first
    | with_reducible assumption | with_reducible apply State.readPart_keeps
    | with_reducible refine State.readPart_keeps' (hE := by assumption) ?_ | with_reducible apply State.violate_keeps
    | with_reducible exact Keeps.fields (by assumption) | with_reducible apply Keeps.fields | simp only [Keeps.mk_iff]
    | with_reducible apply Keeps.ite | split | dsimp only)

theorem State.barRead_keeps' {s₀ s : State} (h : Keeps s₀ s) {o : Origin} {off : Nat} {size : Nat}  {rX : _} {rT : State} (hE : State.barRead s o off size = (rX, rT)) : Keeps s₀ rT := by
  have k := State.barRead_keeps (s₀ := s₀) (s := s) h o off size
  rw [hE] at k
  exact k

end Machine

end Sys2Proof
end

