-- ==== Sys2Proof/Laws/KeepsHostPort.lean ====
section
/-! SUPPORT. Every operation of Machine/HostPort.lean keeps what Laws/Keeps.lean names. -/

set_option Elab.async false
set_option linter.all false

namespace Sys2Proof

namespace Machine

theorem State.deliver_keeps {s₀ s : State} (h : Keeps s₀ s) (v : Nat)  : Keeps s₀ (State.deliver s v) := by
  unfold State.deliver
  repeat' (first
    | with_reducible assumption | with_reducible apply State.signal_keeps
    | with_reducible exact Keeps.fields (by assumption) | with_reducible apply Keeps.fields | simp only [Keeps.mk_iff]
    | with_reducible apply Keeps.ite | split | dsimp only)

theorem State.writeMsix_keeps {s₀ s : State} (h : Keeps s₀ s) (off : Nat) (v : Nat)  : Keeps s₀ (State.writeMsix s off v) := by
  unfold State.writeMsix
  repeat' (first
    | with_reducible assumption | with_reducible apply State.deliver_keeps
    | with_reducible exact Keeps.fields (by assumption) | with_reducible apply Keeps.fields | simp only [Keeps.mk_iff]
    | with_reducible apply Keeps.ite | split | dsimp only)

theorem State.bar4Write_keeps {s₀ s : State} (h : Keeps s₀ s) (off : Nat) (size : Nat) (v : Nat)  : Keeps s₀ (State.bar4Write s off size v) := by
  unfold State.bar4Write
  repeat' (first
    | with_reducible assumption | with_reducible apply State.violate_keeps | with_reducible apply State.writeMsix_keeps
    | with_reducible apply Keeps.ite | split | dsimp only)

theorem State.bar4Read_keeps {s₀ s : State} (h : Keeps s₀ s) (off : Nat) (size : Nat)  : Keeps s₀ (State.bar4Read s off size) := by
  unfold State.bar4Read
  repeat' (first
    | with_reducible assumption | with_reducible apply State.violate_keeps
    | with_reducible exact Keeps.fields (by assumption) | with_reducible apply Keeps.fields | simp only [Keeps.mk_iff]
    | with_reducible apply Keeps.ite | split | dsimp only)

theorem State.mgmtWrite_keeps {s₀ s : State} (h : Keeps s₀ s) (off : Nat) (size : Nat) (v : Nat)  : Keeps s₀ (State.mgmtWrite s off size v) := by
  unfold State.mgmtWrite
  repeat' (first
    | with_reducible assumption | with_reducible apply State.violate_keeps | with_reducible apply State.writePart_keeps
    | with_reducible apply Keeps.ite | split | dsimp only)

theorem State.mgmtRead_keeps {s₀ s : State} (h : Keeps s₀ s) (off : Nat) (size : Nat)  : Keeps s₀ (State.mgmtRead s off size) := by
  unfold State.mgmtRead
  repeat' (first
    | with_reducible assumption | with_reducible apply State.readPart_keeps
    | with_reducible refine State.readPart_keeps' (hE := by assumption) ?_ | with_reducible apply State.violate_keeps
    | with_reducible exact Keeps.fields (by assumption) | with_reducible apply Keeps.fields | simp only [Keeps.mk_iff]
    | with_reducible apply Keeps.ite | split | dsimp only)

theorem State.regWrite_keeps {s₀ s : State} (h : Keeps s₀ s) (o : Origin) (off : Nat) (size : Nat) (v : Nat)  : Keeps s₀ (State.regWrite s o off size v) := by
  unfold State.regWrite
  repeat' (first
    | with_reducible assumption | with_reducible apply State.barWrite_keeps | with_reducible apply State.mgmtWrite_keeps
    | with_reducible apply Keeps.ite | split | dsimp only)

theorem State.regRead_keeps {s₀ s : State} (h : Keeps s₀ s) (o : Origin) (off : Nat) (size : Nat)  : Keeps s₀ (State.regRead s o off size) := by
  unfold State.regRead
  repeat' (first
    | with_reducible assumption | with_reducible apply State.barRead_keeps
    | with_reducible refine State.barRead_keeps' (hE := by assumption) ?_ | with_reducible apply State.mgmtRead_keeps
    | with_reducible exact Keeps.fields (by assumption) | with_reducible apply Keeps.fields | simp only [Keeps.mk_iff]
    | with_reducible apply Keeps.ite | split | dsimp only)

theorem execRegisterWrite_keeps {s₀ s : State} (h : Keeps s₀ s) (o : Origin) (off : Nat) (size : Nat) (v : Option Nat) : ∃ r, execRegisterWrite o off size v s = .next r ∧ Keeps s₀ r := by
  unfold execRegisterWrite
  refine ⟨_, rfl, ?_⟩
  repeat' (first
    | with_reducible assumption | with_reducible apply State.bar4Read_keeps | with_reducible apply State.bar4Write_keeps
    | with_reducible apply State.regRead_keeps | with_reducible apply State.regWrite_keeps
    | with_reducible exact Keeps.fields (by assumption) | with_reducible apply Keeps.fields | simp only [Keeps.mk_iff]
    | with_reducible apply Keeps.ite | split | dsimp only)

theorem execViolcntClr_keeps {s₀ s : State} (h : Keeps s₀ s) (o : Origin) (off : Nat) (v : Nat) : ∃ r, execViolcntClr o off v s = .next r ∧ Keeps s₀ r := by
  unfold execViolcntClr
  refine ⟨_, rfl, ?_⟩
  repeat' (first
    | with_reducible assumption | with_reducible apply State.regWrite_keeps | dsimp only)

theorem execPartmapWrite_keeps {s₀ s : State} (h : Keeps s₀ s) (o : Origin) (p : Nat) (v : Nat) : ∃ r, execPartmapWrite o p v s = .next r ∧ Keeps s₀ r := by
  unfold execPartmapWrite
  refine ⟨_, rfl, ?_⟩
  repeat' (first
    | with_reducible assumption | with_reducible apply State.regWrite_keeps | dsimp only)

theorem execPartitionReset_keeps {s₀ s : State} (h : Keeps s₀ s) (o : Origin) (p : Nat) (v : Nat) : ∃ r, execPartitionReset o p v s = .next r ∧ Keeps s₀ r := by
  unfold execPartitionReset
  refine ⟨_, rfl, ?_⟩
  repeat' (first
    | with_reducible assumption | with_reducible apply State.regWrite_keeps | dsimp only)

theorem execContextEnable_keeps {s₀ s : State} (h : Keeps s₀ s) (o : Origin) (n : Nat) (v : Nat) : ∃ r, execContextEnable o n v s = .next r ∧ Keeps s₀ r := by
  unfold execContextEnable
  refine ⟨_, rfl, ?_⟩
  repeat' (first
    | with_reducible assumption | with_reducible apply State.regWrite_keeps | dsimp only)

theorem execContextDisable_keeps {s₀ s : State} (h : Keeps s₀ s) (o : Origin) (n : Nat) (v : Nat) : ∃ r, execContextDisable o n v s = .next r ∧ Keeps s₀ r := by
  unfold execContextDisable
  refine ⟨_, rfl, ?_⟩
  repeat' (first
    | with_reducible assumption | with_reducible apply State.regWrite_keeps | dsimp only)

theorem execPreempt_keeps {s₀ s : State} (h : Keeps s₀ s) (o : Origin) (n : Nat) (v : Nat) : ∃ r, execPreempt o n v s = .next r ∧ Keeps s₀ r := by
  unfold execPreempt
  refine ⟨_, rfl, ?_⟩
  repeat' (first
    | with_reducible assumption | with_reducible apply State.regWrite_keeps | dsimp only)

theorem execResume_keeps {s₀ s : State} (h : Keeps s₀ s) (o : Origin) (n : Nat) (v : Nat) : ∃ r, execResume o n v s = .next r ∧ Keeps s₀ r := by
  unfold execResume
  refine ⟨_, rfl, ?_⟩
  repeat' (first
    | with_reducible assumption | with_reducible apply State.regWrite_keeps | dsimp only)

theorem execQueEnable_keeps {s₀ s : State} (h : Keeps s₀ s) (o : Origin) (q : Nat) (v : Nat) : ∃ r, execQueEnable o q v s = .next r ∧ Keeps s₀ r := by
  unfold execQueEnable
  refine ⟨_, rfl, ?_⟩
  repeat' (first
    | with_reducible assumption | with_reducible apply State.regWrite_keeps | dsimp only)

theorem execQueDisable_keeps {s₀ s : State} (h : Keeps s₀ s) (o : Origin) (q : Nat) (v : Nat) : ∃ r, execQueDisable o q v s = .next r ∧ Keeps s₀ r := by
  unfold execQueDisable
  refine ⟨_, rfl, ?_⟩
  repeat' (first
    | with_reducible assumption | with_reducible apply State.regWrite_keeps | dsimp only)

theorem execPoolEnable_keeps {s₀ s : State} (h : Keeps s₀ s) (o : Origin) (k : Nat) (v : Nat) : ∃ r, execPoolEnable o k v s = .next r ∧ Keeps s₀ r := by
  unfold execPoolEnable
  refine ⟨_, rfl, ?_⟩
  repeat' (first
    | with_reducible assumption | with_reducible apply State.regWrite_keeps | dsimp only)

theorem execPoolDisable_keeps {s₀ s : State} (h : Keeps s₀ s) (o : Origin) (k : Nat) (v : Nat) : ∃ r, execPoolDisable o k v s = .next r ∧ Keeps s₀ r := by
  unfold execPoolDisable
  refine ⟨_, rfl, ?_⟩
  repeat' (first
    | with_reducible assumption | with_reducible apply State.regWrite_keeps | dsimp only)

theorem execShbaseWrite_keeps {s₀ s : State} (h : Keeps s₀ s) (o : Origin) (t : Nat) (v : Nat) : ∃ r, execShbaseWrite o t v s = .next r ∧ Keeps s₀ r := by
  unfold execShbaseWrite
  refine ⟨_, rfl, ?_⟩
  repeat' (first
    | with_reducible assumption | with_reducible apply State.regWrite_keeps | dsimp only)

theorem execBwshareWrite_keeps {s₀ s : State} (h : Keeps s₀ s) (o : Origin) (p : Nat) (v : Nat) : ∃ r, execBwshareWrite o p v s = .next r ∧ Keeps s₀ r := by
  unfold execBwshareWrite
  refine ⟨_, rfl, ?_⟩
  repeat' (first
    | with_reducible assumption | with_reducible apply State.regWrite_keeps | dsimp only)

theorem execRecalNow_keeps {s₀ s : State} (h : Keeps s₀ s) (o : Origin) (t : Nat) (v : Nat) : ∃ r, execRecalNow o t v s = .next r ∧ Keeps s₀ r := by
  unfold execRecalNow
  refine ⟨_, rfl, ?_⟩
  repeat' (first
    | with_reducible assumption | with_reducible apply State.regWrite_keeps | dsimp only)

theorem execPortEnable_keeps {s₀ s : State} (h : Keeps s₀ s) (o : Origin) (m : Nat) (v : Nat) : ∃ r, execPortEnable o m v s = .next r ∧ Keeps s₀ r := by
  unfold execPortEnable
  refine ⟨_, rfl, ?_⟩
  repeat' (first
    | with_reducible assumption | with_reducible apply State.regWrite_keeps | dsimp only)

theorem execPortDisable_keeps {s₀ s : State} (h : Keeps s₀ s) (o : Origin) (m : Nat) (v : Nat) : ∃ r, execPortDisable o m v s = .next r ∧ Keeps s₀ r := by
  unfold execPortDisable
  refine ⟨_, rfl, ?_⟩
  repeat' (first
    | with_reducible assumption | with_reducible apply State.regWrite_keeps | dsimp only)

theorem execStorePortSelect_keeps {s₀ s : State} (h : Keeps s₀ s) (o : Origin) (m : Nat) (v : Nat) : ∃ r, execStorePortSelect o m v s = .next r ∧ Keeps s₀ r := by
  unfold execStorePortSelect
  refine ⟨_, rfl, ?_⟩
  repeat' (first
    | with_reducible assumption | with_reducible apply State.regWrite_keeps | dsimp only)

theorem execOperatingPointSet_keeps {s₀ s : State} (h : Keeps s₀ s) (o : Origin) (v : Nat) : ∃ r, execOperatingPointSet o v s = .next r ∧ Keeps s₀ r := by
  unfold execOperatingPointSet
  refine ⟨_, rfl, ?_⟩
  repeat' (first
    | with_reducible assumption | with_reducible apply State.regWrite_keeps | dsimp only)

theorem execRampLimitSet_keeps {s₀ s : State} (h : Keeps s₀ s) (o : Origin) (v : Nat) : ∃ r, execRampLimitSet o v s = .next r ∧ Keeps s₀ r := by
  unfold execRampLimitSet
  refine ⟨_, rfl, ?_⟩
  repeat' (first
    | with_reducible assumption | with_reducible apply State.regWrite_keeps | dsimp only)

theorem execPushGo_keeps {s₀ s : State} (h : Keeps s₀ s) (o : Origin) (v : Nat) : ∃ r, execPushGo o v s = .next r ∧ Keeps s₀ r := by
  unfold execPushGo
  refine ⟨_, rfl, ?_⟩
  repeat' (first
    | with_reducible assumption | with_reducible apply State.regWrite_keeps | dsimp only)

theorem execHdmwinWrite_keeps {s₀ s : State} (h : Keeps s₀ s) (o : Origin) (v : Nat) : ∃ r, execHdmwinWrite o v s = .next r ∧ Keeps s₀ r := by
  unfold execHdmwinWrite
  refine ⟨_, rfl, ?_⟩
  repeat' (first
    | with_reducible assumption | with_reducible apply State.regWrite_keeps | dsimp only)

theorem execHifResetCold_keeps {s₀ s : State} (h : Keeps s₀ s) (o : Origin) (v : Nat) : ∃ r, execHifResetCold o v s = .next r ∧ Keeps s₀ r := by
  unfold execHifResetCold
  refine ⟨_, rfl, ?_⟩
  repeat' (first
    | with_reducible assumption | with_reducible apply State.regWrite_keeps | dsimp only)

theorem execHifResetWarm_keeps {s₀ s : State} (h : Keeps s₀ s) (o : Origin) (v : Nat) : ∃ r, execHifResetWarm o v s = .next r ∧ Keeps s₀ r := by
  unfold execHifResetWarm
  refine ⟨_, rfl, ?_⟩
  repeat' (first
    | with_reducible assumption | with_reducible apply State.regWrite_keeps | dsimp only)

theorem execPoolaudLatch_keeps {s₀ s : State} (h : Keeps s₀ s) (o : Origin) (k : Nat) : ∃ r, execPoolaudLatch o k s = .next r ∧ Keeps s₀ r := by
  unfold execPoolaudLatch
  refine ⟨_, rfl, ?_⟩
  repeat' (first
    | with_reducible assumption | with_reducible apply State.regRead_keeps | dsimp only)

theorem execShraudLatch_keeps {s₀ s : State} (h : Keeps s₀ s) (o : Origin) (t : Nat) : ∃ r, execShraudLatch o t s = .next r ∧ Keeps s₀ r := by
  unfold execShraudLatch
  refine ⟨_, rfl, ?_⟩
  repeat' (first
    | with_reducible assumption | with_reducible apply State.regRead_keeps | dsimp only)

theorem execTokaudLatch_keeps {s₀ s : State} (h : Keeps s₀ s) (o : Origin) : ∃ r, execTokaudLatch o s = .next r ∧ Keeps s₀ r := by
  unfold execTokaudLatch
  refine ⟨_, rfl, ?_⟩
  repeat' (first
    | with_reducible assumption | with_reducible apply State.regRead_keeps | dsimp only)

theorem execCredaudLatch_keeps {s₀ s : State} (h : Keeps s₀ s) (o : Origin) (m : Nat) (l : Nat) : ∃ r, execCredaudLatch o m l s = .next r ∧ Keeps s₀ r := by
  unfold execCredaudLatch
  refine ⟨_, rfl, ?_⟩
  repeat' (first
    | with_reducible assumption | with_reducible apply State.regRead_keeps | dsimp only)

theorem execBaraudLatch_keeps {s₀ s : State} (h : Keeps s₀ s) (o : Origin) : ∃ r, execBaraudLatch o s = .next r ∧ Keeps s₀ r := by
  unfold execBaraudLatch
  refine ⟨_, rfl, ?_⟩
  repeat' (first
    | with_reducible assumption | with_reducible apply State.regRead_keeps | dsimp only)

theorem execContribLatch_keeps {s₀ s : State} (h : Keeps s₀ s) (o : Origin) : ∃ r, execContribLatch o s = .next r ∧ Keeps s₀ r := by
  unfold execContribLatch
  refine ⟨_, rfl, ?_⟩
  repeat' (first
    | with_reducible assumption | with_reducible apply State.regRead_keeps | dsimp only)

theorem execChkEventPop_keeps {s₀ s : State} (h : Keeps s₀ s) (o : Origin) : ∃ r, execChkEventPop o s = .next r ∧ Keeps s₀ r := by
  unfold execChkEventPop
  refine ⟨_, rfl, ?_⟩
  repeat' (first
    | with_reducible assumption | with_reducible apply State.regRead_keeps | dsimp only)

theorem State.bar2Read_keeps {s₀ s : State} (h : Keeps s₀ s) (off : Nat) (size : Nat)  : Keeps s₀ (State.bar2Read s off size) := by
  unfold State.bar2Read
  repeat' (first
    | with_reducible assumption | with_reducible apply State.violate_keeps
    | with_reducible exact Keeps.fields (by assumption) | with_reducible apply Keeps.fields | simp only [Keeps.mk_iff]
    | with_reducible apply Keeps.ite | split | dsimp only)

theorem State.doorbell_keeps {s₀ s : State} (h : Keeps s₀ s) (off : Nat) (size : Nat) (v : Nat)  : Keeps s₀ (State.doorbell s off size v) := by
  unfold State.doorbell
  repeat' (first
    | with_reducible assumption | with_reducible apply State.ringDoorbell_keeps | with_reducible apply State.violate_keeps
    | with_reducible apply State.violateIf_keeps | with_reducible apply Keeps.ite | split | dsimp only)

theorem execDoorbell_keeps {s₀ s : State} (h : Keeps s₀ s) (off : Nat) (size : Nat) (v : Option Nat) : ∃ r, execDoorbell off size v s = .next r ∧ Keeps s₀ r := by
  unfold execDoorbell
  refine ⟨_, rfl, ?_⟩
  repeat' (first
    | with_reducible assumption | with_reducible apply State.bar2Read_keeps | with_reducible apply State.doorbell_keeps
    | with_reducible exact Keeps.fields (by assumption) | with_reducible apply Keeps.fields | simp only [Keeps.mk_iff]
    | split | dsimp only)

theorem execHdmAccess_keeps {s₀ s : State} (h : Keeps s₀ s) (write : Bool) (addr : Nat) (size : Nat) (v : Nat) : ∃ r, execHdmAccess write addr size v s = .next r ∧ Keeps s₀ r := by
  unfold execHdmAccess
  refine ⟨_, rfl, ?_⟩
  repeat' (first
    | with_reducible assumption | with_reducible apply State.writePhys_keeps
    | with_reducible exact Keeps.fields (by assumption) | with_reducible apply Keeps.fields | simp only [Keeps.mk_iff]
    | intro _ | with_reducible apply Keeps.ite | split | dsimp only)

theorem execI3cTransaction_keeps {s₀ s : State} (h : Keeps s₀ s) (write : Bool) (addr : Nat) (size : Nat) (v : Nat) : ∃ r, execI3cTransaction write addr size v s = .next r ∧ Keeps s₀ r := by
  unfold execI3cTransaction
  refine ⟨_, rfl, ?_⟩
  repeat' (first
    | with_reducible assumption | with_reducible apply State.mgmtRead_keeps | with_reducible apply State.mgmtWrite_keeps
    | with_reducible apply Keeps.ite | split | dsimp only)

theorem execI3cWake_keeps {s₀ s : State} (h : Keeps s₀ s) (v : Nat) : ∃ r, execI3cWake v s = .next r ∧ Keeps s₀ r := by
  unfold execI3cWake
  refine ⟨_, rfl, ?_⟩
  repeat' (first
    | with_reducible assumption | with_reducible apply State.mgmtWrite_keeps | dsimp only)

theorem execCapWrite_keeps {s₀ s : State} (h : Keeps s₀ s) (o : Origin) (v : Nat) : ∃ r, execCapWrite o v s = .next r ∧ Keeps s₀ r := by
  unfold execCapWrite
  refine ⟨_, rfl, ?_⟩
  repeat' (first
    | with_reducible assumption | with_reducible apply State.regWrite_keeps | dsimp only)

theorem execSenSlotEnable_keeps {s₀ s : State} (h : Keeps s₀ s) (o : Origin) (i : Nat) (v : Nat) : ∃ r, execSenSlotEnable o i v s = .next r ∧ Keeps s₀ r := by
  unfold execSenSlotEnable
  refine ⟨_, rfl, ?_⟩
  repeat' (first
    | with_reducible assumption | with_reducible apply State.regWrite_keeps | with_reducible apply State.senSlot_keeps
    | dsimp only)

theorem execSenCtlCapclr_keeps {s₀ s : State} (h : Keeps s₀ s) (o : Origin) (v : Nat) : ∃ r, execSenCtlCapclr o v s = .next r ∧ Keeps s₀ r := by
  unfold execSenCtlCapclr
  refine ⟨_, rfl, ?_⟩
  repeat' (first
    | with_reducible assumption | with_reducible apply State.regWrite_keeps | dsimp only)

theorem execSenEventPop_keeps {s₀ s : State} (h : Keeps s₀ s) (o : Origin) : ∃ r, execSenEventPop o s = .next r ∧ Keeps s₀ r := by
  unfold execSenEventPop
  refine ⟨_, rfl, ?_⟩
  repeat' (first
    | with_reducible assumption | with_reducible apply State.regRead_keeps | with_reducible apply State.senEvent_keeps
    | dsimp only)

theorem State.applyItem_keeps {s₀ s : State} (h : Keeps s₀ s) (i : Item)  : Keeps s₀ (State.applyItem s i) := by
  unfold State.applyItem
  repeat' (first
    | with_reducible assumption | with_reducible apply State.barWrite_keeps | with_reducible apply State.modSec_keeps
    | with_reducible apply State.violate_keeps | with_reducible exact Keeps.fields (by assumption)
    | with_reducible apply Keeps.fields | simp only [Keeps.mk_iff] | intro _ | with_reducible apply Keeps.ite | split
    | dsimp only)

theorem State.applyItems_keeps {s₀ s : State} (h : Keeps s₀ s) (is : List Item) : Keeps s₀ (State.applyItems s is).2 := by
  induction is generalizing s with
  | nil => exact h
  | cons i rest ih =>
    unfold State.applyItems
    dsimp only
    split
    · exact ih (State.applyItem_keeps h i)
    · exact State.applyItem_keeps h i

theorem State.applyItems_keeps' {s₀ s : State} (h : Keeps s₀ s) {is : List Item} {x : Bool} {t : State}
    (hE : State.applyItems s is = (x, t)) : Keeps s₀ t := by
  have k := State.applyItems_keeps h is
  rw [hE] at k
  exact k

theorem State.putDefault_keeps {s₀ s : State} (h : Keeps s₀ s) (off : Nat) (hi : Nat) (lo : Nat) (v : Nat)  : Keeps s₀ (State.putDefault s off hi lo v) := by
  unfold State.putDefault
  repeat' (first
    | with_reducible assumption | with_reducible apply State.set_keeps | with_reducible apply Keeps.ite | split | dsimp only)

theorem State.partDefaults_keeps {s₀ s : State} (h : Keeps s₀ s) (p : Nat)  : Keeps s₀ (State.partDefaults s p) := by
  unfold State.partDefaults
  repeat' (first
    | with_reducible assumption | with_reducible apply State.putDefault_keeps | with_reducible apply Keeps.ite | split
    | dsimp only)

theorem State.codecDefaults_keeps {s₀ s : State} (h : Keeps s₀ s)   : Keeps s₀ (State.codecDefaults s) := by
  unfold State.codecDefaults
  repeat' (first
    | with_reducible assumption | with_reducible apply Keeps.foldl | with_reducible apply State.putDefault_keeps | intro _
    | dsimp only)

theorem State.blobDefaults_keeps {s₀ s : State} (h : Keeps s₀ s)   : Keeps s₀ (State.blobDefaults s) := by
  unfold State.blobDefaults
  repeat' (first
    | with_reducible assumption | with_reducible apply Keeps.foldl | with_reducible apply State.codecDefaults_keeps
    | with_reducible apply State.partDefaults_keeps | with_reducible apply State.putDefault_keeps | intro _ | dsimp only)

theorem State.blobApplied_keeps {s₀ s : State} (h : Keeps s₀ s) (b : List Byte) (is : List Item)  : Keeps s₀ (State.blobApplied s b is) := by
  unfold State.blobApplied
  repeat' (first
    | with_reducible assumption | with_reducible apply Keeps.foldl | with_reducible apply State.formTables_keeps
    | with_reducible apply State.modSec_keeps | with_reducible apply State.sendJoin_keeps
    | with_reducible apply State.set_keeps | with_reducible apply State.setPhase_keeps
    | with_reducible apply State.setReg_keeps | with_reducible exact Keeps.fields (by assumption)
    | with_reducible apply Keeps.fields | simp only [Keeps.mk_iff] | intro _ | dsimp only)

theorem State.endBlob_keeps {s₀ s : State} (h : Keeps s₀ s) (c : Cmd) (st : Nat)  : Keeps s₀ (State.endBlob s c st) := by
  unfold State.endBlob
  repeat' (first
    | with_reducible assumption | with_reducible apply State.completeCmd_keeps | with_reducible apply State.set_keeps
    | dsimp only)

theorem State.applyBlob_keeps {s₀ s : State} (h : Keeps s₀ s) (c : Cmd) (b : List Byte) (is : List Item)  : Keeps s₀ (State.applyBlob s c b is) := by
  unfold State.applyBlob
  repeat' (first
    | with_reducible assumption | with_reducible apply State.applyItems_keeps | with_reducible apply State.blobApplied_keeps
    | with_reducible apply State.blobDefaults_keeps | with_reducible apply State.endBlob_keeps
    | with_reducible apply Keeps.ite | split | dsimp only)

theorem State.blobRun_keeps {s₀ s : State} (h : Keeps s₀ s) (c : Cmd) (b : List Byte)  : Keeps s₀ (State.blobRun s c b) := by
  unfold State.blobRun
  repeat' (first
    | with_reducible assumption | with_reducible apply State.applyBlob_keeps | with_reducible apply State.endBlob_keeps
    | with_reducible exact Keeps.fields (by assumption) | with_reducible apply Keeps.fields | simp only [Keeps.mk_iff]
    | with_reducible apply Keeps.ite | split | dsimp only)

theorem execBlobapply_keeps {s₀ s : State} (h : Keeps s₀ s) (q : Nat) : ∃ r, execBlobapply q s = .next r ∧ Keeps s₀ r := by
  unfold execBlobapply
  refine ⟨_, rfl, ?_⟩
  repeat' (first
    | with_reducible assumption | with_reducible apply State.blobRun_keeps | with_reducible apply State.load_keeps
    | with_reducible refine State.load_keeps' (hE := by assumption) ?_ | with_reducible apply State.service_keeps | intro _
    | split | dsimp only)

end Machine

end Sys2Proof
end

