-- ==== Sys2Proof/Laws/KeepsAttest.lean ====
section
/-! SUPPORT. Every operation of Machine/Attest.lean keeps what Laws/Keeps.lean names. -/

set_option Elab.async false
set_option linter.all false

namespace Sys2Proof

namespace Machine

theorem execConfigurationRequest_keeps {s₀ s : State} (h : Keeps s₀ s) (write : Bool) (addr : Nat) (size : Nat) (v : Nat) : ∃ r, execConfigurationRequest write addr size v s = .next r ∧ Keeps s₀ r := by
  unfold execConfigurationRequest
  refine ⟨_, rfl, ?_⟩
  repeat' (first
    | with_reducible assumption | with_reducible apply State.modSec_keeps
    | with_reducible exact Keeps.fields (by assumption) | with_reducible apply Keeps.fields | simp only [Keeps.mk_iff]
    | intro _ | with_reducible apply Keeps.ite | split | dsimp only)

theorem State.doeAnswer_keeps {s₀ s : State} (h : Keeps s₀ s) (bs : List Byte)  : Keeps s₀ (State.doeAnswer s bs) := by
  unfold State.doeAnswer
  repeat' (first
    | with_reducible assumption | with_reducible exact Keeps.fields (by assumption) | with_reducible apply Keeps.fields
    | simp only [Keeps.mk_iff] | dsimp only)

theorem execDoeDiscovery_keeps {s₀ s : State} (h : Keeps s₀ s) (msg : List Byte) : ∃ r, execDoeDiscovery msg s = .next r ∧ Keeps s₀ r := by
  unfold execDoeDiscovery
  refine ⟨_, rfl, ?_⟩
  repeat' (first
    | with_reducible assumption | with_reducible apply State.doeAnswer_keeps | with_reducible apply Keeps.ite | split
    | dsimp only)

theorem execCdatRequest_keeps {s₀ s : State} (h : Keeps s₀ s) (msg : List Byte) : ∃ r, execCdatRequest msg s = .next r ∧ Keeps s₀ r := by
  unfold execCdatRequest
  refine ⟨_, rfl, ?_⟩
  repeat' (first
    | with_reducible assumption | with_reducible apply State.doeAnswer_keeps | with_reducible apply Keeps.ite | split
    | dsimp only)

theorem State.modSpdm_keeps {s₀ s : State} (h : Keeps s₀ s) (f : Spdm → Spdm)  : Keeps s₀ (State.modSpdm s f) := by
  unfold State.modSpdm
  repeat' (first
    | with_reducible assumption | with_reducible apply State.modSec_keeps | with_reducible apply State.spdm_keeps
    | with_reducible exact Keeps.fields (by assumption) | with_reducible apply Keeps.fields | simp only [Keeps.mk_iff]
    | intro _ | dsimp only)

theorem State.spdmReply_keeps {s₀ s : State} (h : Keeps s₀ s) (code : Nat) (body : List Byte)  : Keeps s₀ (State.spdmReply s code body) := by
  unfold State.spdmReply
  repeat' (first
    | with_reducible assumption | with_reducible apply State.doeAnswer_keeps | dsimp only)

theorem State.spdmError_keeps {s₀ s : State} (h : Keeps s₀ s) (e : Nat)  : Keeps s₀ (State.spdmError s e) := by
  unfold State.spdmError
  repeat' (first
    | with_reducible assumption | with_reducible apply State.doeAnswer_keeps | dsimp only)

theorem State.spdm_keeps {s₀ s : State} (h : Keeps s₀ s) (msg : List Byte) (code : Nat) (ver : Nat) (body : State → State) (hb : ∀ x0, Keeps s₀ x0 → Keeps s₀ (body x0)) : Keeps s₀ (State.spdm s msg code ver body) := by
  unfold State.spdm
  repeat' (first
    | with_reducible assumption | with_reducible apply State.spdmError_keeps | with_reducible apply hb
    | with_reducible apply Keeps.ite | split | dsimp only)

theorem State.spdmAfter_keeps {s₀ s : State} (h : Keeps s₀ s) (msg : List Byte) (code : Nat) (body : State → State) (hb : ∀ x0, Keeps s₀ x0 → Keeps s₀ (body x0)) : Keeps s₀ (State.spdmAfter s msg code body) := by
  unfold State.spdmAfter
  repeat' (first
    | with_reducible assumption | with_reducible apply State.spdm_keeps | with_reducible apply State.spdmError_keeps
    | with_reducible apply hb | intro _ | with_reducible apply Keeps.ite | split | dsimp only)

theorem State.spdmIn_keeps {s₀ s : State} (h : Keeps s₀ s) (msg : List Byte) (code : Nat) (body : State → State) (hb : ∀ x0, Keeps s₀ x0 → Keeps s₀ (body x0)) : Keeps s₀ (State.spdmIn s msg code body) := by
  unfold State.spdmIn
  repeat' (first
    | with_reducible assumption | with_reducible apply State.spdm_keeps | with_reducible apply State.spdmError_keeps
    | with_reducible apply hb | intro _ | with_reducible apply Keeps.ite | split | dsimp only)

theorem State.spdmOpen_keeps {s₀ s : State} (h : Keeps s₀ s) (code : Nat) (kind : Nat) (msg : List Byte)  : Keeps s₀ (State.spdmOpen s code kind msg) := by
  unfold State.spdmOpen
  repeat' (first
    | with_reducible assumption | with_reducible apply State.draw_keeps
    | with_reducible refine State.draw_keeps' (hE := by assumption) ?_ | with_reducible apply State.spdmReply_keeps | split
    | dsimp only)

theorem State.spdmSigned_keeps {s₀ s : State} (h : Keeps s₀ s) (code : Nat) (kind : Nat) (msg : List Byte) (pre : List Byte)  : Keeps s₀ (State.spdmSigned s code kind msg pre) := by
  unfold State.spdmSigned
  repeat' (first
    | with_reducible assumption | with_reducible apply State.draw_keeps
    | with_reducible refine State.draw_keeps' (hE := by assumption) ?_ | with_reducible apply State.spdmReply_keeps | split
    | dsimp only)

theorem execGetVersion_keeps {s₀ s : State} (h : Keeps s₀ s) (msg : List Byte) : ∃ r, execGetVersion msg s = .next r ∧ Keeps s₀ r := by
  unfold execGetVersion
  refine ⟨_, rfl, ?_⟩
  repeat' (first
    | with_reducible assumption | with_reducible apply State.doeAnswer_keeps | with_reducible apply State.modSpdm_keeps
    | with_reducible apply State.spdm_keeps | with_reducible exact Keeps.fields (by assumption)
    | with_reducible apply Keeps.fields | simp only [Keeps.mk_iff] | intro _ | dsimp only)

theorem execGetCapabilities_keeps {s₀ s : State} (h : Keeps s₀ s) (msg : List Byte) : ∃ r, execGetCapabilities msg s = .next r ∧ Keeps s₀ r := by
  unfold execGetCapabilities
  refine ⟨_, rfl, ?_⟩
  repeat' (first
    | with_reducible assumption | with_reducible apply State.modSpdm_keeps | with_reducible apply State.spdm_keeps
    | with_reducible apply State.spdmError_keeps | with_reducible apply State.spdmOpen_keeps
    | with_reducible exact Keeps.fields (by assumption) | with_reducible apply Keeps.fields | simp only [Keeps.mk_iff]
    | intro _ | with_reducible apply Keeps.ite | split | dsimp only)

theorem execNegotiateAlgorithms_keeps {s₀ s : State} (h : Keeps s₀ s) (msg : List Byte) : ∃ r, execNegotiateAlgorithms msg s = .next r ∧ Keeps s₀ r := by
  unfold execNegotiateAlgorithms
  refine ⟨_, rfl, ?_⟩
  repeat' (first
    | with_reducible assumption | with_reducible apply State.doeAnswer_keeps | with_reducible apply State.modSpdm_keeps
    | with_reducible apply State.spdm_keeps | with_reducible apply State.spdmError_keeps
    | with_reducible exact Keeps.fields (by assumption) | with_reducible apply Keeps.fields | simp only [Keeps.mk_iff]
    | intro _ | with_reducible apply Keeps.ite | split | dsimp only)

theorem execGetDigests_keeps {s₀ s : State} (h : Keeps s₀ s) (msg : List Byte) : ∃ r, execGetDigests msg s = .next r ∧ Keeps s₀ r := by
  unfold execGetDigests
  refine ⟨_, rfl, ?_⟩
  repeat' (first
    | with_reducible assumption | with_reducible apply State.doeAnswer_keeps | with_reducible apply State.spdmAfter_keeps
    | intro _ | dsimp only)

theorem execGetCertificate_keeps {s₀ s : State} (h : Keeps s₀ s) (msg : List Byte) : ∃ r, execGetCertificate msg s = .next r ∧ Keeps s₀ r := by
  unfold execGetCertificate
  refine ⟨_, rfl, ?_⟩
  repeat' (first
    | with_reducible assumption | with_reducible apply State.doeAnswer_keeps | with_reducible apply State.spdmAfter_keeps
    | with_reducible apply State.spdmError_keeps | intro _ | with_reducible apply Keeps.ite | split | dsimp only)

theorem execChallenge_keeps {s₀ s : State} (h : Keeps s₀ s) (msg : List Byte) : ∃ r, execChallenge msg s = .next r ∧ Keeps s₀ r := by
  unfold execChallenge
  refine ⟨_, rfl, ?_⟩
  repeat' (first
    | with_reducible assumption | with_reducible apply State.spdmAfter_keeps | with_reducible apply State.spdmError_keeps
    | with_reducible apply State.spdmSigned_keeps | intro _ | with_reducible apply Keeps.ite | split | dsimp only)

theorem execGetMeasurements_keeps {s₀ s : State} (h : Keeps s₀ s) (msg : List Byte) : ∃ r, execGetMeasurements msg s = .next r ∧ Keeps s₀ r := by
  unfold execGetMeasurements
  refine ⟨_, rfl, ?_⟩
  repeat' (first
    | with_reducible assumption | with_reducible apply State.doeAnswer_keeps | with_reducible apply State.spdmAfter_keeps
    | with_reducible apply State.spdmError_keeps | with_reducible apply State.spdmSigned_keeps | intro _
    | with_reducible apply Keeps.ite | split | dsimp only)

theorem execKeyExchange_keeps {s₀ s : State} (h : Keeps s₀ s) (msg : List Byte) : ∃ r, execKeyExchange msg s = .next r ∧ Keeps s₀ r := by
  unfold execKeyExchange
  refine ⟨_, rfl, ?_⟩
  repeat' (first
    | with_reducible assumption | with_reducible apply State.draw_keeps
    | with_reducible refine State.draw_keeps' (hE := by assumption) ?_ | with_reducible apply State.modSpdm_keeps
    | with_reducible apply State.spdm_keeps | with_reducible apply State.spdmAfter_keeps
    | with_reducible apply State.spdmError_keeps | with_reducible apply State.spdmSigned_keeps
    | with_reducible exact Keeps.fields (by assumption) | with_reducible apply Keeps.fields | simp only [Keeps.mk_iff]
    | intro _ | with_reducible apply Keeps.ite | split | dsimp only)

theorem execFinish_keeps {s₀ s : State} (h : Keeps s₀ s) (msg : List Byte) : ∃ r, execFinish msg s = .next r ∧ Keeps s₀ r := by
  unfold execFinish
  refine ⟨_, rfl, ?_⟩
  repeat' (first
    | with_reducible assumption | with_reducible apply State.modSpdm_keeps | with_reducible apply State.spdm_keeps
    | with_reducible apply State.spdmAfter_keeps | with_reducible apply State.spdmError_keeps
    | with_reducible apply State.spdmOpen_keeps | with_reducible exact Keeps.fields (by assumption)
    | with_reducible apply Keeps.fields | simp only [Keeps.mk_iff] | intro _ | with_reducible apply Keeps.ite | split
    | dsimp only)

theorem execKeyUpdate_keeps {s₀ s : State} (h : Keeps s₀ s) (msg : List Byte) : ∃ r, execKeyUpdate msg s = .next r ∧ Keeps s₀ r := by
  unfold execKeyUpdate
  refine ⟨_, rfl, ?_⟩
  repeat' (first
    | with_reducible assumption | with_reducible apply State.doeAnswer_keeps | with_reducible apply State.modSpdm_keeps
    | with_reducible apply State.spdmError_keeps | with_reducible apply State.spdmIn_keeps
    | with_reducible exact Keeps.fields (by assumption) | with_reducible apply Keeps.fields | simp only [Keeps.mk_iff]
    | intro _ | with_reducible apply Keeps.ite | split | dsimp only)

theorem execSpdmHeartbeat_keeps {s₀ s : State} (h : Keeps s₀ s) (msg : List Byte) : ∃ r, execSpdmHeartbeat msg s = .next r ∧ Keeps s₀ r := by
  unfold execSpdmHeartbeat
  refine ⟨_, rfl, ?_⟩
  repeat' (first
    | with_reducible assumption | with_reducible apply State.spdmIn_keeps | with_reducible apply State.spdmReply_keeps
    | intro _ | dsimp only)

theorem execEndSession_keeps {s₀ s : State} (h : Keeps s₀ s) (msg : List Byte) : ∃ r, execEndSession msg s = .next r ∧ Keeps s₀ r := by
  unfold execEndSession
  refine ⟨_, rfl, ?_⟩
  repeat' (first
    | with_reducible assumption | with_reducible apply State.modSpdm_keeps | with_reducible apply State.spdmIn_keeps
    | with_reducible apply State.spdmReply_keeps | with_reducible exact Keeps.fields (by assumption)
    | with_reducible apply Keeps.fields | simp only [Keeps.mk_iff] | intro _ | dsimp only)

theorem State.kmReply_keeps {s₀ s : State} (h : Keeps s₀ s) (msg : List Byte) (object : Nat)  : Keeps s₀ (State.kmReply s msg object) := by
  unfold State.kmReply
  repeat' (first
    | with_reducible assumption | with_reducible apply State.doeAnswer_keeps | dsimp only)

theorem State.keyProg_keeps {s₀ s : State} (h : Keeps s₀ s) (msg : List Byte)  : Keeps s₀ (State.keyProg s msg) := by
  unfold State.keyProg
  repeat' (first
    | with_reducible assumption | with_reducible apply State.modSec_keeps
    | with_reducible exact Keeps.fields (by assumption) | with_reducible apply Keeps.fields | simp only [Keeps.mk_iff]
    | intro _ | dsimp only)

theorem State.keyGo_keeps {s₀ s : State} (h : Keeps s₀ s) (msg : List Byte)  : Keeps s₀ (State.keyGo s msg) := by
  unfold State.keyGo
  repeat' (first
    | with_reducible assumption | with_reducible apply State.modSec_keeps
    | with_reducible exact Keeps.fields (by assumption) | with_reducible apply Keeps.fields | simp only [Keeps.mk_iff]
    | intro _ | with_reducible apply Keeps.ite | split | dsimp only)

theorem State.keyStop_keeps {s₀ s : State} (h : Keeps s₀ s) (msg : List Byte)  : Keeps s₀ (State.keyStop s msg) := by
  unfold State.keyStop
  repeat' (first
    | with_reducible assumption | with_reducible apply State.modSec_keeps
    | with_reducible exact Keeps.fields (by assumption) | with_reducible apply Keeps.fields | simp only [Keeps.mk_iff]
    | intro _ | dsimp only)

theorem execVendorDefined_keeps {s₀ s : State} (h : Keeps s₀ s) (msg : List Byte) : ∃ r, execVendorDefined msg s = .next r ∧ Keeps s₀ r := by
  unfold execVendorDefined
  refine ⟨_, rfl, ?_⟩
  repeat' (first
    | with_reducible assumption | with_reducible apply State.keyGo_keeps | with_reducible apply State.keyProg_keeps
    | with_reducible apply State.keyStop_keeps | with_reducible apply State.kmReply_keeps
    | with_reducible apply State.spdmError_keeps | with_reducible apply State.spdmIn_keeps
    | with_reducible apply State.spdmOpen_keeps | intro _ | with_reducible apply Keeps.ite | split | dsimp only)

theorem execBoundaryScan_keeps {s₀ s : State} (h : Keeps s₀ s) (tck : Bool) (tms : Bool) (_tdi : Bool) (trst : Bool) : ∃ r, execBoundaryScan tck tms _tdi trst s = .next r ∧ Keeps s₀ r := by
  unfold execBoundaryScan
  refine ⟨_, rfl, ?_⟩
  repeat' (first
    | with_reducible assumption | with_reducible apply State.draw_keeps
    | with_reducible refine State.draw_keeps' (hE := by assumption) ?_ | with_reducible apply State.modPins_keeps
    | with_reducible exact Keeps.fields (by assumption) | with_reducible apply Keeps.fields | simp only [Keeps.mk_iff]
    | intro _ | with_reducible apply Keeps.ite | split | dsimp only)

end Machine

end Sys2Proof
end

