-- ==== Sys2Proof/Tests/Slice0.lean ====
section
/-! SUPPORT. Small tests. A `witness_` theorem gives, clause by clause, states and operands that meet the hypotheses of a
statement; a `test_` theorem holds a result against an example or a sentence of the spec. -/

namespace Sys2Proof

namespace Tests

open Machine

set_option Elab.async false

/-- A device after boot, with nothing configured. -/
def up : State := { State.reset with sec := { Sec.init with bootStep := 5 }, pins := ⟨true, true, 0, true, false, false, true, true, none, false, 0⟩ }

theorem up_up : up.Up := ⟨by decide +kernel, by decide +kernel, by decide +kernel, by decide +kernel⟩

/-- Any state with these registers set is in service as long as PWR.STAT is not among them. -/
def State.with (s : State) (rs : List (Nat × Nat)) : State := rs.foldl (fun t r => t.setReg r.1 r.2) s

/-- Up, decided. -/
theorem up_of {s : State} (h : (decide (5 ≤ s.sec.bootStep) && !s.pins.thermtrip && s.powerState == 0 && !s.pwr.dark) = true) : s.Up := by
  simp only [Bool.and_eq_true, decide_eq_true_eq, Bool.not_eq_true', beq_iff_eq] at h
  exact ⟨h.1.1.1, h.1.1.2, h.1.2, h.2⟩

/-- A translation table at 30000h and 40000h that maps the first granule to the start of HBM. -/
def tables : Memory 8 :=
  Memory.writeN (Memory.writeN [] 0x30000 (leBytes 8 (2 ^ 63 + 0x40000))) 0x40000 (leBytes 8 (2 ^ 63 + 2 ^ 62))

/-- Partition 0 holds clusters 0 and 1, and context 1 is bound to it, with its first granule at the start of HBM. -/
def bound : State := State.with { up with mem := tables } [(Reg.cfgPartmap 0, 3), (Reg.ctxCtl 1, 2 ^ 31 + 1),
  (Reg.ctxStat 1, stBound), (Reg.ctxDescbase 1, 0x10000), (Reg.ctxPtbase 1, 0x30000),
  (Reg.chkTest 0, 0), (Reg.chkTest 1, 0)]

/-- Context 1 runs on clusters 0 and 1. -/
def live : State :=
  ((State.with bound [(Reg.ctxStat 1, stRunning), (Reg.seqPc 0, 0x1000), (Reg.seqPc 1, 0x1000)]).modCl 0
    fun c => { c with ctx := some 1, idx := 0, last := some 1 }).modCl 1
    fun c => { c with ctx := some 1, idx := 1, last := some 1 }

/-- The same with an instruction word at the program counter. -/
def atWord (w : Nat) (s : State := live) : State := { s with mem := s.mem.writeN 0x1000 (leBytes 16 w) }

/-- A descriptor in a slot of context 1. -/
def withDesc (slot : Nat) (d : List Byte) (s : State) : State := { s with mem := s.mem.writeN (0x10000 + 64 * slot) d }

/-- The conditions of `Ready` on a fetched instruction, decided. -/
def readyB (s : State) (g : Nat) (f : Fetch) (regs : List Nat) (u : Machine.Unit) : Bool :=
  s.clusterAt f.n f.idx == some g && guard (s.cl g).preds f.word && regs.all (fun r => !(s.pendingRegs f.n f.idx).contains r) &&
    s.hasRoom f.n f.idx u (enginesOf f.word)

theorem ready_of {s : State} {g : Nat} {f : Fetch} {regs : List Nat} {u : Machine.Unit} (hf : s.fetchInstr g = some f)
    (h : readyB s g f regs u = true) : s.Ready g f regs u := by
  simp only [readyB, Bool.and_eq_true, beq_iff_eq, List.all_eq_true, Bool.not_eq_true'] at h
  exact ⟨hf, h.1.1.1, h.1.1.2, h.1.2, h.2⟩

/-- What the fetch of a cluster gives, asked a question. -/
def fetchedB (s : State) (g : Nat) (p : Fetch → Bool) : Bool :=
  match s.fetchInstr g with
  | some f => p f
  | none => false

theorem ready_ex {s : State} {g : Nat} {regs : Fetch → List Nat} {u : Fetch → Machine.Unit} {p : Fetch → Bool}
    (h : fetchedB s g (fun f => readyB s g f (regs f) (u f) && p f) = true) :
    ∃ f, s.Ready g f (regs f) (u f) ∧ p f = true := by
  unfold fetchedB at h
  split at h
  · rename_i f hf
    rw [Bool.and_eq_true] at h
    exact ⟨f, ready_of hf h.1, h.2⟩
  · cases h

/-- In service, with something decided beside it. -/
theorem up_and {s : State} {p : Prop} [Decidable p]
    (h : (decide (5 ≤ s.sec.bootStep) && !s.pins.thermtrip && s.powerState == 0 && !s.pwr.dark && decide p) = true) : s.Up ∧ p := by
  rw [Bool.and_eq_true, decide_eq_true_eq] at h
  exact ⟨up_of h.1, h.2⟩

/-- A queue with one command in its ring: its code, arguments and the flags of byte 1. -/
def withCmd (s : State) (q code a0 a1 a2 : Nat) (flags : Nat := 0) : State :=
  State.with { s with mem := s.mem.writeN 0x20000 (leBytes 8 (code + 256 * flags) ++ leBytes 8 a0 ++ leBytes 8 a1 ++ leBytes 8 a2) }
    [(Reg.queCtl q, 2 ^ 31 + 4), (Reg.quePtr q, 2 ^ 16), (Reg.queBase q, 0x20000), (Reg.queCplbase q, 0x21000)]

/-- A command fetched, with something decided of it. -/
theorem cmd_ex {s : State} {q : Nat} {acc : Nat → Bool} {p : Cmd → State → Bool}
    (h : (match s.fetchCmd q acc with
      | some x => p x.1 x.2
      | none => false) = true) : ∃ c u, s.fetchCmd q acc = some (c, u) ∧ p c u = true := by
  split at h
  · rename_i x hx
    exact ⟨x.1, x.2, hx, h⟩
  · cases h

/-- An instruction word: opcode, tag and operands. -/
def word (op tag ops : Nat) : Nat := op * 2 ^ 120 + tag * 2 ^ 108 + ops

/-! ### The machine, registers, partitions and contexts -/

/-- A command waits, or none; memory that holds bytes. -/
theorem witness_Steps : up.pending = [] ∧ ({ up with pending := [.nop 7] }).pending ≠ [] ∧ live.Canonical ∧ live.mem ≠ [] := by
  refine ⟨by decide +kernel, by decide +kernel, ?_, by decide +kernel⟩
  unfold State.Canonical
  decide +kernel

/-- Credits and a token that are out, and a page in two chunks of PACK that moves to SPILL. -/
def balancing : State :=
  let p : PageMove := ⟨3, none, List.range 64, 2, false, false, none, none, false, (1, 7), true⟩
  { (up.modPort 3 fun p => p.setLane 2 { Lane.blank with issued := 5, held := 3, inflight := 2, spent := [none, some 0] }).setPool 4
      ⟨[(0, ⟨7, 9, 2, true, [0, 5], [], false, [1, 2], 0, false, 3, some p⟩)], [], 4⟩ with
    stp := { Stp.init with granted := 2, consumed := 1 } }

theorem witness_StepKeepsBalances : creditsBalance balancing.ports ∧ balancing.stp.Balanced ∧ pagesSound balancing.pools := by
  have hp : balancing.ports = [(3, Port.blank.setLane 2 { Lane.blank with issued := 5, held := 3, inflight := 2, spent := [none, some 0] })] := by
    decide +kernel
  have hl : (Port.blank.setLane 2 { Lane.blank with issued := 5, held := 3, inflight := 2, spent := [none, some 0] }).lanes =
      [(2, { Lane.blank with issued := 5, held := 3, inflight := 2, spent := [none, some 0] })] := by decide +kernel
  refine ⟨?_, by unfold Stp.Balanced; decide +kernel, ?_⟩
  · intro x hx l h
    rw [hp, List.mem_singleton] at hx
    subst hx
    rw [hl, List.mem_singleton] at h
    subst h
    exact ⟨rfl, rfl⟩
  · intro x hx
    have : balancing.pools = [(4, ⟨[(0, ⟨7, 9, 2, true, [0, 5], [], false, [1, 2], 0, false, 3,
      some ⟨3, none, List.range 64, 2, false, false, none, none, false, (1, 7), true⟩⟩)], [], 4⟩)] := by decide +kernel
    rw [this, List.mem_singleton] at hx
    subst hx
    refine ⟨fun r hr => ?_, fun o ho => (List.not_mem_nil ho).elim⟩
    rw [List.mem_singleton] at hr
    subst hr
    exact ⟨by decide, by decide, by decide, fun m hm => by cases hm; exact ⟨by decide, by decide, by decide⟩⟩

theorem witness_RegisterFields : up.Up ∧ ∃ r, regAt Reg.cfgHlthbase = some r ∧ Reg.cfgHlthbase % 4 = 0 ∧
    Reg.cfgHlthbase < bar4 ∧ ownerViol Reg.cfgHlthbase = some Reg.cfgViolcnt ∧ isViol Reg.cfgHlthbase = false ∧
    ownWrite r = false :=
  ⟨up_up, _, rfl, by decide +kernel, by decide +kernel, by decide +kernel, by decide +kernel, by decide +kernel⟩

theorem witness_ViolationCounters : up.Up ∧ ∃ r, regAt Reg.cfgViolcnt = some r ∧ Reg.cfgViolcnt % 4 = 0 ∧
    isViol Reg.cfgViolcnt = true ∧ (ownerViol Reg.cfgViolcnt).isSome = true :=
  ⟨up_up, _, rfl, by decide +kernel, by decide +kernel, by decide +kernel⟩

/-- Ends of what context 1 does not reach: other contexts' windows and queues, a partition, clusters, and the blocks beyond. -/
def beyond : List Nat := [0x100000, 0x100200, 0x1FFFFC, 0x200000, 0x3FFFFC, 0x1010, 0x13FC, 0x420000, 0x7F0000, 0x800000]

theorem witness_ContextsKeepApart : live.Up ∧ (∀ off ∈ beyond, off % 4 = 0 ∧ (ownerViol off).isSome = true) ∧
    (∀ off ∈ beyond, Foreign live 1 off false ∧ Foreign live 1 off true) ∧
    (Foreign live 1 0x400000 true ∧ (ownerViol 0x400000).isSome = true) ∧ notIn live 1 1 ∧ notIn live 2 0 := by
  refine ⟨up_of (by decide +kernel), by decide +kernel, ?_, ?_, ?_, ?_⟩
  · unfold Foreign notIn
    decide +kernel
  · unfold Foreign notIn
    decide +kernel
  · unfold notIn
    decide +kernel
  · unfold notIn
    decide +kernel

/-- A register of 64 bits and its second half, a register of the context's own and one of its cluster, a VIOLCNT, an offset with no
register, and the tables of BAR4. -/
theorem witness_RegisterReads : live.Up ∧ ((∀ off ∈ [Reg.cfgHlthbase, Reg.ctxPtbase 1, Reg.queBase 8, Reg.seqPc 0], ∃ r, regAt off = some r ∧
      off % 8 = 0 ∧ off < bar4 ∧ (ownerViol off).isSome = true ∧ setByRead r = false ∧ isViol off = false ∧ r.width = 64 ∧
      regAt (off + 4) = none ∧ (ownerViol (off + 4)).isSome = true) ∧
    ((Reg.ctxPtbase 1 - 0x100000) / 256 = 1 ∧ (Reg.queBase 8 - 0x200000) / 512 = 1 ∧ (live.cl ((Reg.seqPc 0 - 0x400000) / 0x10000)).ctx = some 1) ∧
    ((regAt Reg.cfgViolcnt).isSome = true ∧ isViol Reg.cfgViolcnt = true ∧ ownerViol Reg.cfgViolcnt = some Reg.cfgViolcnt) ∧
    (regPart 0x4FFC).isNone = true ∧ live.hostUp = true) := by
  refine ⟨up_of (by decide +kernel), fun off ho => ?_, by decide +kernel⟩
  have h : ∀ off ∈ [Reg.cfgHlthbase, Reg.ctxPtbase 1, Reg.queBase 8, Reg.seqPc 0], (match regAt off with
      | some r => off % 8 == 0 && decide (off < bar4) && (ownerViol off).isSome && !setByRead r && !isViol off && r.width == 64 &&
          (regAt (off + 4)).isNone && (ownerViol (off + 4)).isSome
      | none => false) = true := by decide +kernel
  have h := h off ho
  split at h
  · rename_i r hr
    simp only [Bool.and_eq_true, beq_iff_eq, decide_eq_true_eq, Bool.not_eq_true', Option.isNone_iff_eq_none] at h
    exact ⟨r, hr, h.1.1.1.1.1.1.1, h.1.1.1.1.1.1.2, h.1.1.1.1.1.2, h.1.1.1.1.2, h.1.1.1.2, h.1.1.2, h.1.2, h.2⟩
  · cases h

/-- Context 1 runs, its queue 8 and its pool 0 are on. -/
def closed : State := State.with live [(poolReg Reg.ldgPctl 0, 2 ^ 63 + 2 ^ 48 + 4), (Reg.queCtl 8, 2 ^ 31)]

/-- Registers that are open and closed: those of a FREE and of a RUNNING context, of a queue and of a pool that are off and on. -/
theorem witness_GatedRegisters : (∀ x ∈ gatedRegs live 2 16 3, live.mayAccess .host true x.off = true ∧ x.isOpen = true) ∧
    (∀ x ∈ gatedRegs closed 1 8 0, closed.mayAccess .host true x.off = true ∧ x.isOpen = false) ∧
    live.mayAccess (.ctx 1) true (Reg.ctxCocoon 1) = true ∧ live.Up :=
  ⟨by decide +kernel, by decide +kernel, by decide +kernel, up_of (by decide +kernel)⟩

/-- Ranged fields at the ends of what is accepted, and beyond; locked or not. -/
theorem witness_RangedRegisters : (∀ x ∈ rangedRegs 63, (∃ v, v < 2 ^ (x.2.1 + 1) ∧ x.2.2.1 v = true) ∧ x.2.2.1 0 = false) ∧
    (up.set Reg.secBlobstat 31 31 1).locked = true ∧ up.locked = false := by
  refine ⟨?_, by decide +kernel, by decide +kernel⟩
  have h : ∀ x ∈ rangedRegs 63, x.2.2.1 16 = true ∧ 4 ≤ x.2.1 ∧ x.2.2.1 0 = false := by decide +kernel
  exact fun x hx => ⟨⟨16, Nat.lt_of_lt_of_le (by decide) (Nat.pow_le_pow_right (by decide) (Nat.succ_le_succ (h x hx).2.1)),
    (h x hx).1⟩, (h x hx).2.2⟩

/-- The other conditions: a partition that is held and one that is not, a change of ROT, grants within and beyond the buffers, a
port that is DOWN and one that is UP, an area that a write changes and one that it leaves, and the registers of two halves. -/
theorem witness_ConditionalRegisters : live.Up ∧ (live.partHeld 0 = true ∧ live.partHeld 1 = false ∧ 4 / 4 ≠ live.get (Reg.chkLevel 0) 2 2 ∧
    (grantsOf 0x8002000).sum = 16384 ∧ (grantsOf 0x18002000).sum = 16385 ∧ live.linkState 31 = 0 ∧
    (State.with up [(Reg.mdlPstat 31, 2 ^ 31)]).linkState 31 = 2 ∧ up.reg (Reg.snpArea 0) = 0 ∧ (2 ^ 21 : Nat) % 2 ^ 26 ≠ 0 ∧
    fld (3 * 2 ^ 38 : Nat) 39 38 = 3 ∧ (3 * 2 ^ 38 : Nat) % 2 ^ 26 = 0 ∧ (Reg.cfgPartctl 0) % 8 = 0 ∧ isWide (Reg.cfgPartctl 0) 8 = false ∧
    (regPart (Reg.cfgPartctl 0)).isSome = true ∧ (regPart (Reg.cfgPartctl 0 + 4)).isSome = true ∧ (ownerViol (Reg.cfgPartctl 0)).isSome = true ∧
    (ownerViol (Reg.cfgPartctl 0 + 4)).isSome = true) := up_and (by decide +kernel)

/-- Cluster 0 is another partition's and runs a context. -/
theorem witness_PartmapBitByBit : live.Up ∧ mapRefused live 0 0 0 = true ∧ mapRefused live 63 1 0 = true ∧
    mapRefused live 63 (2 ^ 63) 63 = false := up_and (by decide +kernel)

theorem witness_PartitionReset : live.Up ∧ live.cstate 1 = stRunning ∧ 0 ∈ live.members 0 ∧ live.partOf 1 = 0 ∧
    (State.with live [(Reg.ctxStat 1, stParking)]).cstate 1 = stParking ∧
    (State.with live [(Reg.ctxStat 1, stWaking)]).cstate 1 = stWaking := up_and (by decide +kernel)

/-- Context 1 is bound; context 2 is FREE; partition 1 does not exist. -/
theorem witness_ContextBindAndFree : bound.Up ∧ bound.cstate 2 = stFree ∧ bound.get (Reg.ctxCtl 2) 31 31 = 0 ∧
    bound.partExists (fld (2 ^ 31) 21 16) = true ∧ bound.partExists (fld (2 ^ 31 + 2 ^ 16) 21 16) = false ∧
    bound.cstate 1 = stBound ∧ bound.get (Reg.ctxCtl 1) 31 31 = 1 ∧ live.cstate 1 = stRunning ∧
    live.get (Reg.ctxCtl 1) 31 31 = 1 ∧ bit (2 ^ 31 : Nat) 31 = true ∧ bit (2 ^ 31 : Nat) 30 = false ∧
    bit (2 ^ 31 : Nat) 29 = false := up_and (by decide +kernel)

/-- Two contexts of partition 0: 1 runs, 2 is bound and runnable, and a slice is set. -/
def sliced : State := (State.with live [(Reg.cfgPartctl 0, 5), (Reg.ctxCtl 2, 2 ^ 31 + 1), (Reg.ctxStat 2, stBound)]).modCtx 2
  fun x => { x with runnable := true }

theorem witness_ParkingStarts : sliced.Up ∧ sliced.get (Reg.ctxCtl 1) 31 31 = 1 ∧ bit (3 * 2 ^ 30 : Nat) 31 = true ∧
    bit (3 * 2 ^ 30 : Nat) 30 = true ∧ bit (3 * 2 ^ 30 : Nat) 29 = false ∧ sliced.cstate 1 = stRunning ∧
    sliced.cstate 2 ≠ stRunning ∧ sliced.running = true ∧ sliced.holder 0 = some 1 ∧ sliced.quantum 0 ≠ 0 ∧
    (sliced.runnables 0).any (· != 1) = true := up_and (by decide +kernel)

/-- Context 1 is cocooned from `n` clusters. -/
def cocooned (n : Nat) : State := State.with bound [(Reg.ctxStat 1, stCocooned + n * 2 ^ 8)]

theorem witness_ResumeMismatch : ((cocooned 3).Up ∧ (cocooned 3).get (Reg.ctxCtl 1) 31 31 = 1 ∧
    (cocooned 3).cstate 1 = stCocooned ∧ (cocooned 3).get (Reg.ctxStat 1) 15 8 ≠ ((cocooned 3).members 0).length ∧
    bit (2 ^ 31 + 2 ^ 29 : Nat) 30 = false ∧ bit (2 ^ 31 + 2 ^ 29 : Nat) 29 = true) ∧
    let s := (cocooned 3).modCtx 1 fun x => { x with runnable := true }
    s.running = true ∧ s.holder 0 = none ∧ s.testHolds 0 = false ∧ s.partExists 0 = true ∧ s.pick 0 = (some 1, s) ∧
    s.cstate 1 = stCocooned ∧ s.get (Reg.ctxStat 1) 15 8 ≠ (s.members 0).length :=
  ⟨up_and (by decide +kernel), by decide +kernel⟩

theorem witness_ResumeWakes : ((cocooned 2).Up ∧ (cocooned 2).get (Reg.ctxCtl 1) 31 31 = 1 ∧
    (cocooned 2).cstate 1 = stCocooned ∧ (cocooned 2).partOf 1 = 0 ∧
    (cocooned 2).get (Reg.ctxStat 1) 15 8 = ((cocooned 2).members 0).length ∧ (cocooned 2).holder 0 = none ∧
    (cocooned 2).testHolds 0 = false ∧ (cocooned 2).quantum 0 = 0 ∧ (cocooned 2).runnables 0 = [] ∧
    (cocooned 2).partExists 0 = true) ∧
    ((State.with live [(Reg.ctxStat 2, stCocooned + 2 * 2 ^ 8), (Reg.ctxCtl 2, 2 ^ 31)]).holder 0).isSome = true :=
  ⟨up_and (by decide +kernel), by decide +kernel⟩

/-! ### LAUNCH, cocoons, queues -/

/-- A LAUNCH of both clusters waits on queue 8. -/
def launching (n : Nat) : State :=
  let c : Cmd := ⟨8, 0, leBytes 8 1 ++ leBytes 8 0x1000 ++ leBytes 8 7 ++ leBytes 8 (9 + n * 2 ^ 48)⟩
  (bound.modQueue 8 fun x => { x with waiting := some c }).modCtx 1 fun x => { x with arrivals := [8], runnable := true }

theorem witness_LaunchStarts : let s := launching 2
    s.running = true ∧ s.holder 0 = none ∧ s.testHolds 0 = false ∧ s.partExists 0 = true ∧ s.pick 0 = (some 1, s) ∧
    s.cstate 1 = stBound ∧ (s.ctx 1).arrivals = [8] ∧ s.get Reg.chkStat 31 31 = 0 ∧
    (match (s.queue 8).waiting with
     | some c => s.launchMismatch 0 c == false
     | none => false) = true := by decide +kernel

theorem witness_LaunchCommand :
    (∃ c u, (State.with (withCmd bound 8 1 0 0 0) [(Reg.chkStat, 2 ^ 31)]).fetchCmd 8 (· == 1) = some (c, u) ∧
      decide (c.q = 8) = true) ∧
    (∃ c u, (withCmd live 8 1 0 0 0).fetchCmd 8 (· == 1) = some (c, u) ∧
      (decide (c.q = 8) && live.cstate 1 != stBound && live.get Reg.chkStat 31 31 == 0) = true) ∧
    ∃ c u, (withCmd bound 8 1 0x1000 0 0).fetchCmd 8 (· == 1) = some (c, u) ∧
      (let s := withCmd bound 8 1 0x1000 0 0
       s.get Reg.chkStat 31 31 == 0 && s.cstate 1 == stBound && (s.ctx 1).arrivals.isEmpty && (s.holder 0).isNone &&
        !s.testHolds 0 && s.quantum 0 == 0 && s.partExists 0 && (s.runnables 0).isEmpty && s.partOf 1 == 0) = true := by
  and_intros <;> exact cmd_ex (by decide +kernel)

/-- Context 1 parks, with its clusters at yield points or halted. -/
def parking (halted : Bool) : State :=
  if halted then State.with live [(Reg.ctxStat 1, stParking), (Reg.seqCstat 0, 1), (Reg.seqCstat 1, 1)]
  else ((State.with live [(Reg.ctxStat 1, stParking)]).modCl 0 fun c => { c with parked := true }).modCl 1
    fun c => { c with parked := true }

/-- A cocoon without images. -/
def emptyCocoon : Cocoon := ⟨[], [], [], 0, true⟩

theorem witness_Cocoons :
    (∀ h ∈ [false, true], (parking h).running = true ∧ (parking h).cstate 1 = stParking ∧ ((parking h).ctx 1).cocoon = none ∧
      ((parking h).clustersOf 1).all (parking h).atYield = true ∧ (parking h).inPartition 1 = false ∧
      (parking h).shadowsLeft 1 = false ∧ (parking h).allHalted 1 = h) ∧
    (let s := (parking false).modCtx 1 (fun x => { x with cocoon := some { emptyCocoon with written := false } })
     s.running = true ∧ s.cstate 1 = stParking ∧ (s.ctx 1).cocoon = some { emptyCocoon with written := false } ∧
      ∀ c, c < 12 → s.ddrBytes c ≤ 0x8000000000) ∧
    (let s := State.with (parking false) [(Reg.ddrChstat 0, 2 ^ 31 + 256), (Reg.ddrChstat 11, 2 ^ 31 + 512)]
     (∀ c, c < 12 → s.ddrBytes c ≤ 0x8000000000) ∧ s.cocoonChannels = [0, 11] ∧ ceilDiv 0x3000 4096 = 3) ∧
    let s := (State.with live [(Reg.ctxStat 1, stWaking)]).modCtx 1 (fun x => { x with cocoon := some emptyCocoon })
    s.running = true ∧ s.cstate 1 = stWaking ∧ (s.ctx 1).cocoon = some emptyCocoon := by decide +kernel

theorem witness_QueueEnable : (bound.Up ∧ bound.queOn 32767 = false ∧ bit (2 ^ 31 : Nat) 31 = true) ∧
    (withCmd bound 0 0 0 0 0).Up ∧ (withCmd bound 0 0 0 0 0).queOn 0 = true := ⟨up_and (by decide +kernel), up_and (by decide +kernel)⟩

/-- The ring of 16 entries holds at most 16: 16 more than HEAD are accepted, 17 are not. -/
theorem witness_Doorbell : (let s := State.with bound [(Reg.queCtl 8, 2 ^ 31 + 4)]
    s.Up ∧ (s.queOn 8 = true ∧ ¬ 2 ^ s.get (Reg.queCtl 8) 3 0 < (16 + 65536 - s.qHead 8) % 65536 ∧
      ¬ 2 ^ s.get (Reg.queCtl 8) 3 0 < (16 + 65536 - s.qTail 8) % 65536 ∧
      2 ^ s.get (Reg.queCtl 8) 3 0 < (17 + 65536 - s.qHead 8) % 65536)) := up_and (by decide +kernel)

theorem witness_FetchCommand : ∃ c u, (withCmd up 7 0 0 0 0).fetchCmd 7 (· == 0) = some (c, u) ∧ true = true :=
  cmd_ex (by decide +kernel)

/-- A command that runs on queue 0 and asks for an entry. -/
def ending : Cmd := ⟨0, 5, leBytes 8 0x100⟩

theorem witness_CompletionEntry : let s := (State.with up [(Reg.queCtl 0, 2 ^ 31 + 4)]).modQueue 0 (fun x => { x with running := [ending] })
    ending ∈ (s.queue 0).running ∧ ending.cpl = true ∧ (s.queue 0).cpls = [] ∧ s.cplRoom 0 = true ∧
      (State.with s [(Reg.queCplptr 0, 16)]).cplRoom 0 = false := by decide +kernel

theorem witness_PlainCommands :
    (∃ c u, (withCmd up 0 0 0 0 0).fetchCmd 0 (· == 0) = some (c, u) ∧ true = true) ∧
    (∃ c u, (withCmd up 0 0xFF 0 0 0).fetchCmd 0 (reservedCmd 0) = some (c, u) ∧ true = true) ∧
    (∃ c u, (withCmd live 15 4 0 0 0).fetchCmd 15 (reservedCmd 1) = some (c, u) ∧ true = true) ∧
    (∃ c u, (withCmd live 8 3 0 0 0).fetchCmd 8 (· == 3) = some (c, u) ∧ (withCmd live 8 3 0 0 0).allComplete 1 = true) ∧
    ((withCmd live 8 3 0 0 0).modQueue 9 fun x => { x with running := [ending] }).allComplete 1 = false ∧
    (∃ c u, (withCmd live 8 2 0 0 0).fetchCmd 8 (· == 2) = some (c, u) ∧ (fld c.arg1 20 10 == 0) = true) ∧
    (∃ c u, (withCmd live 8 2 0x4000 (8 * 2 ^ 10 + 1020) 0).fetchCmd 8 (· == 2) = some (c, u) ∧
      decide (1024 < fld c.arg1 9 0 + fld c.arg1 20 10) = true) ∧
    ∃ c u, (withCmd live 8 2 0x4000 (2 ^ 10 + 1023) 0).fetchCmd 8 (· == 2) = some (c, u) ∧ (fld c.arg1 20 10 == 1) = true := by
  and_intros <;> first | exact cmd_ex (by decide +kernel) | decide +kernel

/-! ### The sequencer -/

theorem fetch_ex {s : State} {g : Nat} {p : Fetch → Bool} (h : fetchedB s g p = true) :
    ∃ f, s.fetchInstr g = some f ∧ p f = true := by
  unfold fetchedB at h
  split at h
  · rename_i f hf; exact ⟨f, hf, h⟩
  · cases h

theorem witness_FetchInstruction : ∃ f, (atWord (word 8 0 0)).fetchInstr 0 = some f ∧ (f.n == 1 && f.pc == 0x1000) = true :=
  fetch_ex (by decide +kernel)

/-- A word for each of the rows that issue an instruction, in their order, with the guard p1, which is 0. -/
def offWords : List Nat :=
  [(0x01, 0), (0x02, 0), (0x03, 0), (0x04, 0), (0x05, 0), (0x06, 0), (0x06, 2 ^ 106), (0x07, 0), (0x08, 0), (0x10, 0),
    (0x10, 2 ^ 11), (0x11, 0), (0x12, 0), (0x13, 0), (0x20, 0), (0x21, 0), (0x22, 0), (0x23, 0), (0x30, 0), (0x40, 0), (0x41, 0),
    (0x42, 0), (0x43, 0), (0x50, 0), (0x58, 0), (0x60, 0), (0x61, 0), (0x62, 2 ^ 12), (0x62, 0), (0x63, 0), (0x70, 0), (0x71, 0),
    (0x72, 0), (0x73, 0), (0x74, 0), (0x80, 0), (0x81, 0)].map fun x : Nat × Nat => word x.1 3 x.2 + 2 ^ 115

theorem witness_PredicatedOff : offWords.length = (issueRows 0 [] []).length ∧
    ∀ x : Nat × (Nat → Bool), x ∈ offWords.zip ((issueRows 0 [] []).map (·.2)) → ∃ f, (atWord x.1).fetchInstr 0 = some f ∧
      ((atWord x.1).clusterAt f.n f.idx == some 0 && x.2 f.word && !guard ((atWord x.1).cl 0).preds f.word) = true := by
  refine ⟨by decide +kernel, fun x hx => fetch_ex ?_⟩
  have h : (offWords.zip ((issueRows 0 [] []).map (·.2))).all (fun (x : Nat × (Nat → Bool)) => fetchedB (atWord x.1) 0 fun f =>
      (atWord x.1).clusterAt f.n f.idx == some 0 && x.2 f.word && !guard ((atWord x.1).cl 0).preds f.word) = true := by
    decide +kernel
  exact List.all_eq_true.mp h x hx

/-- A BRA that compares and branches, and one that sets a predicate. -/
theorem witness_Branch : ∀ o ∈ [(6 : Nat) * 2 ^ 92 + 2 ^ 31, 5 * 2 ^ 92 + 2 ^ 91 + 15 * 2 ^ 87, 2 ^ 95], ∃ f,
    (atWord (word 1 127 o)).Ready 0 f (braRegs f.word) .none ∧ (opIs 0x01 f.word && fld f.word 94 92 != 7) = true :=
  fun o ho => ready_ex (p := fun f => opIs 0x01 f.word && fld f.word 94 92 != 7) (u := fun _ => .none)
    (by revert o ho; decide +kernel)

theorem witness_LoopStep : ∀ o ∈ [0, (63 : Nat) * 2 ^ 102 + 63 * 2 ^ 96 + 0xFFFF * 2 ^ 48 + 1, 2 ^ 95 + 0x7FFFFF * 2 ^ 24 + 2 ^ 23],
    ∃ f, (atWord (word 2 1 o)).Ready 0 f (loopRegs f.word) .none ∧ opIs 0x02 f.word = true :=
  fun o ho => ready_ex (p := fun f => opIs 0x02 f.word) (u := fun _ => .none) (by revert o ho; decide +kernel)

/-- A counter that has reached its target by 32,767, and one that lacks as much; a stalled WAIT of each kind. -/
theorem witness_WaitStalls :
    (∀ target ∈ [0, 0x8001, 0x8000, 1], ∃ f, (atWord (word 3 2 (5 * 2 ^ 101 + target * 2 ^ 78))).Ready 0 f (waitRegs f.word) .none ∧
      (opIs 0x03 f.word && fld f.word 107 101 != 0) = true) ∧
    ∀ target ∈ [0, 1], let s := live.modCl 0 (fun c => { c with stall := .wait 2 5 target true none })
      s.activeOn 0 = some 1 ∧ s.clusterAt 1 (s.cl 0).idx = some 0 ∧ (s.cl 0).stall = .wait 2 5 target true none ∧
      ((((s.cl 0).tags.read 5).toNat + 65536 - target) % 65536 < 32768 ↔ target = 0) :=
  ⟨fun t ht => ready_ex (p := fun f => opIs 0x03 f.word && fld f.word 107 101 != 0) (u := fun _ => .none)
    (by revert t ht; decide +kernel), by decide +kernel⟩

/-- An instruction of cluster 0 with status TIMEOUT for s9, which owes cluster 1 an addition. -/
def flight0 (op : Nat) (ready : Bool) : Flight :=
  { ctx := 1, g := 0, idx := 0, op := op, tag := 4, unit := .none, engs := [], ready := ready, outside := false, pend := [], sreg := 9,
    status := stTimeout, adds := [⟨1, 7, 255⟩] }

/-- It is in flight. -/
def flying (op : Nat) (ready : Bool) (s : State := live) : State :=
  { s with flights := Tab.put s.flights s.nextFlight (flight0 op ready), nextFlight := s.nextFlight + 1 }

theorem witness_SignalReleases :
    (∀ o ∈ [(127 : Nat) * 2 ^ 101 + 2 ^ 100 + 255 * 2 ^ 86, 2 ^ 101 + 1 * 2 ^ 94 + 2 ^ 86, 2 ^ 101 + 2 * 2 ^ 94 + 2 ^ 86], ∃ f,
      (atWord (word 4 1 o)).Ready 0 f [] .none ∧
        (opIs 0x04 f.word && fld f.word 107 101 != 0 && fld f.word 93 86 != 0) = true) ∧
    (flying 0x04 false).running = true ∧ (Tab.find (flying 0x04 false).flights 0).map (·.op) = some 0x04 ∧
    ((flying 0x04 false).ctx 1).cocoon = none ∧ (∀ p ∈ (flying 0x04 false).flights, 0 ≤ p.1) ∧
    ∃ p ∈ (flying 0x04 false (flying 0x10 false)).flights, p.2.ctx = 1 ∧ p.2.idx = 0 ∧ p.1 < 1 :=
  ⟨fun o ho => ready_ex (regs := fun _ => []) (p := fun f => opIs 0x04 f.word && fld f.word 107 101 != 0 && fld f.word 93 86 != 0)
    (u := fun _ => .none) (by revert o ho; decide +kernel), by decide +kernel, by decide +kernel, by decide +kernel, by decide +kernel,
    by decide +kernel⟩

theorem witness_InstructionCompletes : ∀ r ∈ [false, true], let s := flying 0x10 r
    s.running = true ∧ (Tab.find s.flights 0).map (·.ready) = some r ∧ (s.ctx 1).cocoon = none ∧ s.clusterAt 1 0 = some 0 ∧
      s.flightHeld (flight0 0x10 r) = false ∧ s.queueTurn 0 (flight0 0x10 r) = true ∧
      (∀ x ∈ (s.cl 0).engines, x.2.queue = []) ∧ (s.cl 0).vq = [] ∧ failedClass stTimeout = true ∧ failedClass stOk = false := by
  decide +kernel

/-- The vector engine holds its work; an earlier MMA of engine 3 has not run; an error is detected. -/
theorem witness_CompletionWaits : (let f := { flight0 0x40 true with unit := .vector }
    let s := (flying 0x10 false).modCl 0 fun c => { c with held := [16] }
    s.flightHeld f = true) ∧
    (let f := { flight0 0x50 true with unit := .vector, engs := [3] }
     let s := { live with flights := [(0, { flight0 0x30 false with unit := .engine 3 }), (1, f)] }
     s.queueTurn 1 f = false) ∧
    (live.detect (live.flightCarrier (flight0 0x10 true)) [⟨3, true, false, 0, 0, false, 0⟩]) ≠ live := by decide +kernel

theorem witness_YieldAndHint :
    (∀ s ∈ [live, State.with live [(Reg.ctxStat 1, stParking)]], ∃ f,
      (atWord (word 5 1 (63 * 2 ^ 102)) s).Ready 0 f (if fld f.word 107 102 = 0 then [] else [fld f.word 107 102]) .none ∧
        opIs 0x05 f.word = true) ∧
    ∃ f, (atWord (word 7 1 (2 ^ 104 + 0xFF * 2 ^ 80))).Ready 0 f [] .none ∧ opIs 0x07 f.word = true :=
  ⟨fun s hs => ready_ex (regs := fun f => if fld f.word 107 102 = 0 then [] else [fld f.word 107 102]) (p := fun f => opIs 0x05 f.word)
    (u := fun _ => .none) (by revert s hs; decide +kernel),
    ready_ex (regs := fun _ => []) (u := fun _ => .none) (p := fun f => opIs 0x07 f.word) (by decide +kernel)⟩

/-- Cluster 1 stands at a partition BARRIER. -/
def atBarrier : State := live.modCl 1 fun c => { c with stall := .barrier false 0 0 none }

/-- A release whose cluster 0 comes 4 ns after cluster 1. -/
def twoWaves : Release := ⟨stOk, false, [(1, 4), (0, 8)]⟩

theorem witness_PartitionBarrier :
    (∀ s ∈ [live, atBarrier], ∃ f, (atWord (word 6 1 (63 * 2 ^ 94)) s).Ready 0 f (barrierRegs f.word) .none ∧
      (opIs 0x06 f.word && barScope f.word == 0 && (s.ctx f.n).release.isNone) = true) ∧
    (∃ h ∈ live.clustersOf 1, h ≠ 0 ∧ (live.cl h).stall = .none) ∧
    (∀ h ∈ atBarrier.clustersOf 1, h ≠ 0 → (atBarrier.cl h).stall = .barrier false 0 0 none) ∧
    let s := atBarrier.modCtx 1 (fun x => { x with release := some twoWaves })
    s.running = true ∧ s.holder 0 = some 1 ∧ (s.ctx 1).release = some twoWaves ∧ (s.ctx 1).cocoon = none ∧
      s.clusterAt 1 (s.cl 1).idx = some 1 ∧ s.awaitsWave 1 0 = true ∧ s.awaitsWave 1 2 = false ∧ laterWaves twoWaves = [(0, 8)] ∧
      (1, 4) ∈ twoWaves.due ∧ (∀ x ∈ twoWaves.due, 4 ≤ x.2) ∧ ¬ ∀ x ∈ twoWaves.due, 8 ≤ x.2 :=
  ⟨fun s hs => ready_ex (p := fun f => opIs 0x06 f.word && barScope f.word == 0 && (s.ctx f.n).release.isNone) (u := fun _ => .none)
    (by revert s hs; decide +kernel), by decide +kernel, by decide +kernel, by decide +kernel⟩

/-- Cluster 0 has a shadow unit that is not compared yet. -/
def shadowing : State :=
  live.modCl 0 fun c => { c with shadows := [⟨2, 9, 0, [], [], .mma false (live.accum 0 2 0) [(0, 1)] 2048 false⟩] }

/-- With work in flight; with another stream that runs; with the other stream ended; with a shadow unit. -/
def halting : List State := [flying 0x10 false, live, State.with live [(Reg.seqCstat 1, 1)], shadowing]

theorem witness_HaltEndsStream :
    (∀ s ∈ halting, ∀ o ∈ [(0x13 : Nat) * 2 ^ 100, 0xFF * 2 ^ 100, 2 ^ 99 + 63 * 2 ^ 93], ∃ f,
      (atWord (word 8 1 o) s).Ready 0 f (if bit f.word 99 then [fld f.word 98 93] else []) .none ∧
        (opIs 0x08 f.word && s.cstate f.n == stRunning && f.n == 1) = true) ∧
    (flying 0x10 false).flightsOf 1 0 ≠ [] ∧ live.flightsOf 1 0 = [] ∧ live.clustersOf 1 = [0, 1] ∧ (shadowing.cl 0).shadows ≠ [] ∧ (live.cl 0).shadows = [] ∧
    live.get (Reg.seqCstat 1) 0 0 = 0 ∧ (State.with live [(Reg.seqCstat 1, 1)]).get (Reg.seqCstat 1) 0 0 = 1 ∧
    ∀ s ∈ halting, let t := s.modCl 0 (fun c => { c with stall := .halt 3 stIncomplete })
      t.activeOn 0 = some 1 ∧ t.clusterAt 1 (t.cl 0).idx = some 0 ∧ t.get (Reg.seqCstat 0) 0 0 = 0 :=
  ⟨fun s hs o ho => ready_ex (regs := fun f => if bit f.word 99 then [fld f.word 98 93] else [])
    (p := fun f => opIs 0x08 f.word && s.cstate f.n == stRunning && f.n == 1) (u := fun _ => .none)
    (by revert o ho; revert s hs; decide +kernel), by decide +kernel, by decide +kernel, by decide +kernel, by decide +kernel,
    by decide +kernel, by decide +kernel⟩

theorem witness_ReservedCodes :
    (∀ w ∈ [0, word 0xFF 1 0, word 9 1 0 + 2 ^ 115], ∃ f, (atWord w).fetchInstr 0 = some f ∧
      ((atWord w).clusterAt f.n f.idx == some 0 && !assignedOp (wOp f.word)) = true) ∧
    ∀ s ∈ halting, let t := s.modCl 0 (fun c => { c with resRun := 4096 })
      t.activeOn 0 = some 1 ∧ t.clusterAt 1 (t.cl 0).idx = some 0 ∧ 4096 ≤ (t.cl 0).resRun ∧ (t.cl 0).stall = .none ∧
        t.get (Reg.seqCstat 0) 0 0 = 0 :=
  ⟨fun w hw => fetch_ex (by revert w hw; decide +kernel), by decide +kernel⟩

/-- A reserved code of each control instruction that has one. -/
theorem witness_ReservedCodesInControl : ∀ o ∈ [((1, 7 * 2 ^ 92) : Nat × Nat), (3, 0), (4, 2 ^ 86), (4, 2 ^ 101), (6, 2 * 2 ^ 106), (6, 3 * 2 ^ 106),
      (7, 2 * 2 ^ 104), (7, 15 * 2 ^ 104)], ∃ f,
    (atWord (word o.1 1 o.2)).Ready 0 f (if o.1 = 1 then braRegs f.word else if o.1 = 3 then waitRegs f.word
      else if o.1 = 6 then barrierRegs f.word else []) .none ∧
    (opIs 0x01 f.word && fld f.word 94 92 == 7 || opIs 0x03 f.word && fld f.word 107 101 == 0 ||
      opIs 0x04 f.word && (fld f.word 107 101 == 0 || fld f.word 93 86 == 0) || opIs 0x06 f.word && decide (2 ≤ barScope f.word) ||
      opIs 0x07 f.word && decide (2 ≤ fld f.word 107 104)) = true :=
  fun o ho => ready_ex (regs := fun f => if o.1 = 1 then braRegs f.word else if o.1 = 3 then waitRegs f.word
      else if o.1 = 6 then barrierRegs f.word else []) (u := fun _ => .none)
    (p := fun f => opIs 0x01 f.word && fld f.word 94 92 == 7 || opIs 0x03 f.word && fld f.word 107 101 == 0 ||
      opIs 0x04 f.word && (fld f.word 107 101 == 0 || fld f.word 93 86 == 0) || opIs 0x06 f.word && decide (2 ≤ barScope f.word) ||
      opIs 0x07 f.word && decide (2 ≤ fld f.word 107 104)) (by revert o ho; decide +kernel)

/-! ### Memory and movement -/

theorem witness_TranslatedAccess : live.vaAddr (Reg.seqViolcnt 0) 1 false 0x1000 = some 0x1000 ∧ live.vaAddr (Reg.seqViolcnt 0) 1 true 0x1FFFFF = some 0x1FFFFF ∧
    live.vaAddr (Reg.seqViolcnt 0) 1 true 0x200000 = none ∧ live.vaAddr (Reg.seqViolcnt 0) 1 false 0x200000 = none := by decide +kernel

theorem witness_TranslationRights : (2 ^ 48 - 1 < 2 ^ vaWidth 1) ∧ live.entry (Reg.seqViolcnt 0) 1 0 = some (2 ^ 63 + 2 ^ 62) := by decide +kernel

/-- A descriptor: BASE, FMT, the flags of its word 10h, TENSORID, and extents 1 × 1 × 1 × `w` × 1 × `c`. -/
def desc (base fmt flags : Nat) (w : Nat := 64) (c : Nat := 64) (sp : Nat := 0) (tid : Nat := 0) : List Byte :=
  leBytes 8 base ++ leBytes 8 sp ++ leBytes 8 (fmt * 2 ^ 35 + flags + tid * 2 ^ 40) ++ leBytes 3 1 ++ leBytes 3 1 ++ leBytes 3 1 ++
    leBytes 3 w ++ leBytes 3 c ++ leBytes 3 1 ++ leBytes 4 (w * c) ++ leBytes 4 (w * c) ++ leBytes 4 (w * c) ++ leBytes 4 c ++ leBytes 4 c

/-- A word of the data form: DA, DB, DC, SA, SB, SC, TA, TB, FN and XT. -/
def dataWord (op tag : Nat) (da db dc sa sb sc ta tb fn xt : Nat := 0) : Nat :=
  word op tag (da * 2 ^ 98 + db * 2 ^ 88 + dc * 2 ^ 78 + sa * 2 ^ 72 + sb * 2 ^ 66 + sc * 2 ^ 60 + ta * 2 ^ 44 + tb * 2 ^ 28 +
    fn * 2 ^ 12 + xt)

/-- All 64 rows and columns in dimension W. -/
def fnAll : Nat := 63 * 1024 + 63 * 16 + 3 * 2

/-- Slot 1 holds an FP8 tensor, slot 2 a block tensor, slot 3 a frozen one. -/
def tensors : State := withDesc 3 (desc 0x50000 3 (2 ^ 31)) (withDesc 2 (desc 0x48000 9 0) (withDesc 1 (desc 0x40000 3 0) live))

theorem witness_TileLoad : ∀ x ∈ [(1, 0), (2, 0), (1, 0xFFFF)], ∃ f,
    (atWord (dataWord 0x10 5 (da := x.1) (ta := x.2) (fn := fnAll)) tensors).Ready 0 f (dataRegs true false false f.word) (.mover 0) ∧
      (let s := atWord (dataWord 0x10 5 (da := x.1) (ta := x.2) (fn := fnAll)) tensors
       let j := (s.begun 0 f (.mover 0) tloadUsed).1
       opIs 0x10 f.word && !bit f.word 11 && decide (fnDim j.fn ≤ 4) && fmtOk j.kt5 (Desc.fmt j.da) &&
         (Desc.fmt j.da == (if x.1 = 1 then 3 else 9)) && j.sa % 32 == 0) = true :=
  fun x hx => ready_ex (regs := fun f => dataRegs true false false f.word) (u := fun _ => .mover 0) (p := fun f =>
    let s := atWord (dataWord 0x10 5 (da := x.1) (ta := x.2) (fn := fnAll)) tensors
    let j := (s.begun 0 f (.mover 0) tloadUsed).1
    opIs 0x10 f.word && !bit f.word 11 && decide (fnDim j.fn ≤ 4) && fmtOk j.kt5 (Desc.fmt j.da) &&
      (Desc.fmt j.da == (if x.1 = 1 then 3 else 9)) && j.sa % 32 == 0) (by revert x hx; decide +kernel)

/-- Eight words to s60 onward, of which four are dropped. -/
theorem witness_ScalarLoad : ∃ f, (atWord (dataWord 0x10 5 (sa := 1) (xt := 2 ^ 11 + 7 * 2 ^ 8 + 60 * 4))).Ready 0 f
    (dataRegs true false false f.word ++ if fld f.word 7 2 = 0 then [] else scalarDst f.word) (.mover 0) ∧
      (opIs 0x10 f.word && bit f.word 11 && fld f.word 7 2 != 0) = true :=
  ready_ex (regs := fun f => dataRegs true false false f.word ++ if fld f.word 7 2 = 0 then [] else scalarDst f.word)
    (u := fun _ => .mover 0) (p := fun f => opIs 0x10 f.word && bit f.word 11 && fld f.word 7 2 != 0) (by decide +kernel)

theorem witness_TileStore : ∀ slot ∈ [1, 2, 3], ∃ f,
    (atWord (dataWord 0x11 5 (da := slot) (ta := 64) (fn := fnAll)) tensors).Ready 0 f (dataRegs true false false f.word) (.mover 0) ∧
      (let s := atWord (dataWord 0x11 5 (da := slot) (ta := 64) (fn := fnAll)) tensors
       let j := (s.begun 0 f (.mover 0) tstoreUsed).1
       opIs 0x11 f.word && decide (fnDim j.fn ≤ 4) && fmtOk j.kt5 (Desc.fmt j.da) && j.sa % 32 == 0 &&
         (Desc.frozen j.da == (slot == 3)) && (Format.block (Desc.fmt j.da) == (slot == 2))) = true :=
  fun slot hs => ready_ex (regs := fun f => dataRegs true false false f.word) (u := fun _ => .mover 0) (p := fun f =>
    let s := atWord (dataWord 0x11 5 (da := slot) (ta := 64) (fn := fnAll)) tensors
    let j := (s.begun 0 f (.mover 0) tstoreUsed).1
    opIs 0x11 f.word && decide (fnDim j.fn ≤ 4) && fmtOk j.kt5 (Desc.fmt j.da) && j.sa % 32 == 0 &&
      (Desc.frozen j.da == (slot == 3)) && (Format.block (Desc.fmt j.da) == (slot == 2))) (by revert slot hs; decide +kernel)

/-- To the other cluster, to itself, to none, and with no length; from the tensor, and from a tile. -/
theorem witness_TileMoves :
    (∀ fn ∈ [2 ^ 10 + 1023, 1, 2 * 2 ^ 10 + 1, 2 ^ 10], ∃ f, (atWord (dataWord 0x12 5 (fn := fn) (xt := 127))).Ready 0 f [] (.mover 0) ∧
      opIs 0x12 f.word = true) ∧ live.clusterAt 1 1 = some 1 ∧ live.clusterAt 1 0 = some 0 ∧ live.clusterAt 1 2 = none ∧
    ∀ xt ∈ [0, 1, 2, 3], ∃ f, (atWord (dataWord 0x13 5 (da := 1) (fn := fnAll) (xt := xt)) tensors).Ready 0 f
      (dataRegs (!bit f.word 1) false false f.word) (.mover 0) ∧
      (let j := ((atWord (dataWord 0x13 5 (da := 1) (fn := fnAll) (xt := xt)) tensors).begun 0 f (.mover 0) ttransUsed).1
       opIs 0x13 f.word && decide (wTB f.word < 0x800) && decide (fnDim j.fn ≤ 4) && fmtOk j.kt5 (Desc.fmt j.da) &&
         !Format.block (Desc.fmt j.da)) = true :=
  ⟨fun fn hf => ready_ex (regs := fun _ => []) (u := fun _ => .mover 0) (p := fun f => opIs 0x12 f.word) (by revert fn hf; decide +kernel),
    by decide +kernel, by decide +kernel, by decide +kernel,
    fun xt hx => ready_ex (regs := fun f => dataRegs (!bit f.word 1) false false f.word) (u := fun _ => .mover 0) (p := fun f =>
      let j := ((atWord (dataWord 0x13 5 (da := 1) (fn := fnAll) (xt := xt)) tensors).begun 0 f (.mover 0) ttransUsed).1
      opIs 0x13 f.word && decide (wTB f.word < 0x800) && decide (fnDim j.fn ≤ 4) && fmtOk j.kt5 (Desc.fmt j.da) &&
        !Format.block (Desc.fmt j.da)) (by revert xt hx; decide +kernel)⟩

/-! ### The engines of a cluster -/

/-- Slots 1 to 3 as in `tensors`; slot 4 holds an FP32 tensor, slot 5 one of a reserved format. The cluster is past its first
shadow unit, so that its next one is not selected at level CHK1 (R380). -/
def pool : State := (withDesc 5 (desc 0x80000 31 0) (withDesc 4 (desc 0x60000 0 0) tensors)).modCl 0 fun c => { c with ordinal := 1 }

/-- An MMA of one K-tile and of two rows on engine 2, slot 0; the same on engine 15, slot 1, with 32 K-tiles to the spill. -/
def mmas : List Nat := [dataWord 0x30 6 (da := 1) (db := 2) (fn := 8) (xt := 2 * 256 + 1),
  dataWord 0x30 6 (da := 1) (db := 1) (fn := 2 ^ 9 + 63 * 8) (xt := 15 * 256 + 32)]

theorem witness_MatrixOpens : ∀ w ∈ mmas, ∃ f, (atWord w pool).Ready 0 f (mmaRegs 0 f) (.engine (mmaEng f.word)) ∧
    (let s := atWord w pool
     let j := (s.begun 0 f (.engine (mmaEng f.word)) mmaUsed).1
     let u := (s.begun 0 f (.engine (mmaEng f.word)) mmaUsed).2
     let x := (s.cl 0).eng (mmaEng f.word)
     opIs 0x30 f.word && !mmaLast f.word && !mmaReserved j && !mmaFormatBad j && !j.kt5 && x.queue.isEmpty && !(s.cl 0).engineBefore (mmaEng f.word) s.nextFlight && x.pos == 0 &&
       !(s.accum 0 (mmaEng f.word) 0).spillDue && !(s.accum 0 (mmaEng f.word) 1).spillDue && s.opens 0 (mmaEng f.word) j &&
       (x.out (mmaSlot f.word)).isNone && (Epi.interval j.dc).isSome &&
       !u.selected 0 f.n (mmaEng f.word) (x.ord.getD (s.cl 0).ordinal) j.step &&
       decide (64 * mmaKt f.word ≤ (Epi.interval j.dc).getD 2048)) = true :=
  fun w hw => ready_ex (regs := fun f => mmaRegs 0 f) (u := fun f => .engine (mmaEng f.word)) (p := fun f =>
     let s := atWord w pool
     let j := (s.begun 0 f (.engine (mmaEng f.word)) mmaUsed).1
     let u := (s.begun 0 f (.engine (mmaEng f.word)) mmaUsed).2
     let x := (s.cl 0).eng (mmaEng f.word)
     opIs 0x30 f.word && !mmaLast f.word && !mmaReserved j && !mmaFormatBad j && !j.kt5 && x.queue.isEmpty && !(s.cl 0).engineBefore (mmaEng f.word) s.nextFlight && x.pos == 0 &&
       !(s.accum 0 (mmaEng f.word) 0).spillDue && !(s.accum 0 (mmaEng f.word) 1).spillDue && s.opens 0 (mmaEng f.word) j &&
       (x.out (mmaSlot f.word)).isNone && (Epi.interval j.dc).isSome &&
       !u.selected 0 f.n (mmaEng f.word) (x.ord.getD (s.cl 0).ordinal) j.step &&
       decide (64 * mmaKt f.word ≤ (Epi.interval j.dc).getD 2048)) (by revert w hw; decide +kernel)

/-- A spill is due in slot 1 of engine 3, with a partial at (63, 63). -/
def spilling : State := live.setAccum 0 3 1 { live.accum 0 3 1 with
  isOpen := true, interval := 64, mrows := 64, products := 64, spillDue := true, part := [(4095, 0x3F800000#32)] }

/-- A finished tile of engine 3 waits for the tray, which holds `n` tiles. -/
def forTray (n : Nat) : State := (flying 0x30 false).modCl 0 fun c =>
  { (c.setEng 3 { (c.eng 3) with out1 := some ⟨0, []⟩ }) with trayOrder := [0], tray := List.replicate n [] }

theorem witness_MatrixSpillsAndTray :
    (spilling.running = true ∧ ((spilling.cl 0).eng 3).queue = [] ∧ (spilling.accum 0 3 1).spillDue = true ∧
      (spilling.accum 0 3 0).spillDue = false ∧ (spilling.accum 0 3 1).part.wf = true ∧
      ∀ p ∈ (spilling.accum 0 3 1).part, p.1 < 4096) ∧
    ∀ n ∈ [0, 127, 128], (forTray n).running = true ∧ ((forTray n).cl 0).trayOrder = [0] ∧
      ((forTray n).cl 0).findOut 0 = some (3, 1, ⟨0, []⟩) ∧ (∀ k, k < 16 → (((forTray n).cl 0).eng k).queue = []) ∧
      Tab.find (forTray n).flights 0 = some (flight0 0x30 false) ∧ ((forTray n).cl 0).tray.length = n := by decide +kernel

/-- Words of the vector engine's rows, in their order: one that has its effect each. -/
def vecWords : List Nat :=
  [dataWord 0x42 7 (fn := 0x13 * 256) (xt := 63), dataWord 0x43 7 (da := 1) (db := 1) (ta := 16) (tb := 0x4000 - 64),
    dataWord 0x58 7 (da := 1) (sa := 9) (tb := 0x3FFF) (fn := 0x8000) (xt := 4 * 512 + 63 * 8), dataWord 0x60 7 (da := 4) (db := 4),
    dataWord 0x61 7 (da := 4) (db := 4), dataWord 0x62 7 (da := 1) (fn := 4095) (xt := 31), dataWord 0x62 7 (da := 4) (xt := 31),
    dataWord 0x63 7 (da := 4) (db := 4) (fn := 1), dataWord 0x80 7 (da := 1), dataWord 0x81 7 (da := 3) (ta := 0xFFFF)]

/-- Words of the same rows that hit a reserved code, or none where the row has none; and words with an excluded format. -/
def vecReserved : List Nat :=
  [dataWord 0x42 7 (fn := 0x14 * 256), dataWord 0x43 7 (da := 1) (db := 9), dataWord 0x58 7 (da := 1) (xt := 5 * 512),
    dataWord 0x60 7 (da := 4) (db := 4) (fn := 3 * 4096), dataWord 0x61 7 (da := 9) (db := 4) (fn := 3 * 4096)]

def vecBadFormat : List (Nat × Nat) :=
  [(1, dataWord 0x43 7 (da := 5) (db := 1)), (2, dataWord 0x58 7 (da := 5)), (3, dataWord 0x60 7 (da := 1) (db := 4)),
    (4, dataWord 0x61 7 (da := 4) (db := 1)), (5, dataWord 0x62 7 (da := 5) (fn := 1)), (6, dataWord 0x62 7 (da := 1)),
    (7, dataWord 0x63 7 (da := 1) (db := 4)), (8, dataWord 0x80 7 (da := 5)), (9, dataWord 0x81 7 (da := 5))]

theorem all_of {α : Type} {p : α → Bool} {l : List α} (h : l.all p = true) : ∀ x ∈ l, p x = true := List.all_eq_true.mp h

/-- What a row says of a word at the program counter. -/
def rowSays (r : VecRow) (w : Nat) (reserved bad : Bool) : Prop := ∃ f, (atWord w pool).Ready 0 f (r.regs f.word) .vector ∧
  (r.accept f.word && ((atWord w pool).cl 0).vq.isEmpty && r.reserved ((atWord w pool).begun 0 f .vector r.used).2 ((atWord w pool).begun 0 f .vector r.used).1 == reserved &&
    r.formatBad ((atWord w pool).begun 0 f .vector r.used).1 == bad) = true

def rowSaysB (r : VecRow) (w : Nat) (reserved bad : Bool) : Bool := fetchedB (atWord w pool) 0 fun f =>
  readyB (atWord w pool) 0 f (r.regs f.word) .vector && (r.accept f.word && ((atWord w pool).cl 0).vq.isEmpty &&
    r.reserved ((atWord w pool).begun 0 f .vector r.used).2 ((atWord w pool).begun 0 f .vector r.used).1 == reserved &&
    r.formatBad ((atWord w pool).begun 0 f .vector r.used).1 == bad)

theorem rowSays_of {r : VecRow} {w : Nat} {b c : Bool} (h : rowSaysB r w b c = true) : rowSays r w b c :=
  ready_ex (regs := fun f => r.regs f.word) (u := fun _ => .vector) h

theorem witness_VectorRows :
    (∀ x ∈ (vecRows 0).zip vecWords, rowSays x.1 x.2 false false) ∧ vecWords.length = (vecRows 0).length ∧
    (∀ x ∈ (vecRows 0).zip vecReserved, rowSays x.1 x.2 true false) ∧
    ∀ x ∈ vecBadFormat, ∃ r, (vecRows 0)[x.1]? = some r ∧ rowSays r x.2 false true := by
  refine ⟨fun x hx => rowSays_of (all_of (p := fun x : VecRow × Nat => rowSaysB x.1 x.2 false false)
      (l := (vecRows 0).zip vecWords) (by decide +kernel) x hx), by decide +kernel,
    fun x hx => rowSays_of (all_of (p := fun x : VecRow × Nat => rowSaysB x.1 x.2 true false)
      (l := (vecRows 0).zip vecReserved) (by decide +kernel) x hx), fun x hx => ?_⟩
  have h := all_of (p := fun x : Nat × Nat => match (vecRows 0)[x.1]? with
    | some r => rowSaysB r x.2 false true
    | none => false) (l := vecBadFormat) (by decide +kernel) x hx
  split at h
  · rename_i r hr; exact ⟨r, hr, rowSays_of h⟩
  · cases h

/-- Slot 8 holds a frozen FP32 tensor, slot 9 a shared one; the context has committed what is given. -/
def committed (c : Option Nat) : State :=
  (withDesc 9 (desc 0x60000 0 (2 ^ 28)) (withDesc 8 (desc 0x60000 0 (2 ^ 31)) pool)).modCtx 1 fun x => { x with commit := c }

/-- An UPDATE on a frozen, a shared and another tensor, whose record names the committed step and has no clip factor, or names
none. -/
theorem witness_UpdateSkips : ∀ x ∈ [(8, some 0), (9, some 0), (4, some 0), (4, none)], ∃ f,
    (atWord (dataWord 0x60 7 (da := x.1) (db := 4)) (committed x.2)).Ready 0 f (dataRegs true true true f.word) .vector ∧
    (let s := atWord (dataWord 0x60 7 (da := x.1) (db := 4)) (committed x.2)
     let j := (s.begun 0 f .vector updUsed).1
     let u := (s.begun 0 f .vector updUsed).2
     let rd := (u.modCl 0 fun c => { c with vq := [j] }).load (Reg.vecViolcnt 0) f.n (recordAt j) 64
     opIs 0x60 f.word && (s.cl 0).vq.isEmpty && !s.updateReserved j && !updFormatBad j && (Desc.frozen j.da == (x.1 == 8)) &&
       (Desc.shared j.da == (x.1 == 9)) && ((s.ctx f.n).commit == some (Sched.ofBytes j.kt5 rd.1).step) == x.2.isSome &&
       (clipFactor j.kt5 (Desc.trainable j.da) (rd.2.load (Reg.vecViolcnt 0) f.n j.sc 320).1).isNone) = true :=
  fun x hx => ready_ex (regs := fun f => dataRegs true true true f.word) (u := fun _ => .vector) (p := fun f =>
    let s := atWord (dataWord 0x60 7 (da := x.1) (db := 4)) (committed x.2)
    let j := (s.begun 0 f .vector updUsed).1
    let u := (s.begun 0 f .vector updUsed).2
    let rd := (u.modCl 0 fun c => { c with vq := [j] }).load (Reg.vecViolcnt 0) f.n (recordAt j) 64
    opIs 0x60 f.word && (s.cl 0).vq.isEmpty && !s.updateReserved j && !updFormatBad j && (Desc.frozen j.da == (x.1 == 8)) &&
      (Desc.shared j.da == (x.1 == 9)) && ((s.ctx f.n).commit == some (Sched.ofBytes j.kt5 rd.1).step) == x.2.isSome &&
      (clipFactor j.kt5 (Desc.trainable j.da) (rd.2.load (Reg.vecViolcnt 0) f.n j.sc 320).1).isNone) (by revert x hx; decide +kernel)

/-- The health table is on, at granule 5, and its record 3 is context 1's. -/
def tallied : State :=
  let s := State.with pool [(Reg.cfgHlthbase, 5 * 2 ^ 21 + 1)]
  { s with mem := s.mem.writeN (5 * 2 ^ 21 + 192) (leBytes 4 (2 ^ 31 + 1)) }

/-- HEALTH into its own record, into that of another, and into the bin; and with the table off. -/
theorem witness_HealthTable : (∀ fn ∈ [3, 4, 2 ^ 15 + 3], ∃ f,
      (atWord (dataWord 0x81 7 (da := 1) (fn := fn)) tallied).Ready 0 f [3] .vector ∧
      (opIs 0x81 f.word && tallied.healthOwner f.n (fld fn 13 0) == (fn % 2 ^ 14 == 3)) = true) ∧
    tallied.get Reg.cfgHlthbase 0 0 = 1 ∧ pool.get Reg.cfgHlthbase 0 0 = 0 ∧
    ∀ i ∈ [3, 16384], tallied.mapped (tallied.healthAddr i) = true ∧ tallied.mapped (tallied.healthAddr i + 63) = true :=
  ⟨fun fn hf => ready_ex (regs := fun _ => [3]) (u := fun _ => .vector) (p := fun f => opIs 0x81 f.word &&
      tallied.healthOwner f.n (fld fn 13 0) == (fn % 2 ^ 14 == 3)) (by revert fn hf; decide +kernel), by decide +kernel⟩

/-- A tile is in the tray. -/
def trayed (s : State) : State := s.modCl 0 fun c => { c with tray := [[]] }

/-- From registers to registers, from the tensor to a tile, and from the tray, which holds a tile. -/
theorem witness_VectorChains :
    (∀ w ∈ [dataWord 0x40 7 (dc := 9) (fn := 2 ^ 15 + 2 ^ 13 + 1) (xt := 63 * 64), dataWord 0x40 7 (da := 1) (dc := 9) (fn := 1),
      dataWord 0x40 7 (dc := 9) (fn := 2 ^ 14 + 2 ^ 13 + 1)], ∃ f, (atWord w (trayed pool)).Ready 0 f (vchainRegs 0 f) .vector ∧
      (let c := (atWord w (trayed pool)).cl 0
       let j := ((atWord w (trayed pool)).begun 0 f .vector vchainUsed).1
       opIs 0x40 f.word && c.vq.isEmpty && c.vpos == 0 && !vchainReserved j && !vchainFormatBad j && vcTiles f.word == 1 &&
         !c.tray.isEmpty) = true) ∧
    (∀ w ∈ [word 0x41 7 (2 ^ 98 * 4 + 2 ^ 97 + 1 * 2 ^ 12 + 63 * 64), word 0x41 7 (2 ^ 96 + 2 ^ 95 + 2 ^ 12)], ∃ f,
      (atWord w (trayed pool)).Ready 0 f [] .vector ∧
      (let c := (atWord w (trayed pool)).cl 0
       let j := ((atWord w (trayed pool)).begun 0 f .vector vredUsed).1
       opIs 0x41 f.word && c.vq.isEmpty && c.vpos == 0 && !vredReserved j && !vredFormatBad j && vcTiles f.word == 1 &&
         !c.tray.isEmpty) = true) ∧
    ∀ fn ∈ [0, 2 ^ 11, 2 ^ 12, 3 * 2 ^ 12 + 3 * 2 ^ 11 + 2 ^ 13], ∃ f,
      (atWord (dataWord 0x50 7 (da := 1) (db := 1) (fn := fn) (xt := 14 * 256 + 31)) pool).Ready 0 f
        (dataRegs true true false f.word) .vector ∧
      (let s := atWord (dataWord 0x50 7 (da := 1) (db := 1) (fn := fn) (xt := 14 * 256 + 31)) pool
       let u := (s.begun 0 f .vector ablkUsed).2
       let j := (u.readTable (s.begun 0 f .vector ablkUsed).1).1
       opIs 0x50 f.word && (s.cl 0).vq.isEmpty && !ablkReserved j && !ablkFormatBad j &&
         !u.selected 0 f.n (abEng f.word) ((s.cl 0).vord.getD (s.cl 0).ordinal) j.step && s.engState 0 (abEng f.word + 1) != 1 &&
         !(s.cl 0).engineBefore (abEng f.word) s.nextFlight && !(s.cl 0).engineBefore (abEng f.word + 1) s.nextFlight) = true := by
  refine ⟨fun w hw => ready_ex (regs := fun f => vchainRegs 0 f) (u := fun _ => .vector) (p := fun f =>
      let c := (atWord w (trayed pool)).cl 0
      let j := ((atWord w (trayed pool)).begun 0 f .vector vchainUsed).1
      opIs 0x40 f.word && c.vq.isEmpty && c.vpos == 0 && !vchainReserved j && !vchainFormatBad j && vcTiles f.word == 1 &&
         !c.tray.isEmpty) (by revert w hw; decide +kernel),
    fun w hw => ready_ex (regs := fun _ => []) (u := fun _ => .vector) (p := fun f =>
      let c := (atWord w (trayed pool)).cl 0
      let j := ((atWord w (trayed pool)).begun 0 f .vector vredUsed).1
      opIs 0x41 f.word && c.vq.isEmpty && c.vpos == 0 && !vredReserved j && !vredFormatBad j && vcTiles f.word == 1 &&
         !c.tray.isEmpty) (by revert w hw; decide +kernel),
    fun fn hw => ready_ex (regs := fun f => dataRegs true true false f.word) (u := fun _ => .vector) (p := fun f =>
      let s := atWord (dataWord 0x50 7 (da := 1) (db := 1) (fn := fn) (xt := 14 * 256 + 31)) pool
      let u := (s.begun 0 f .vector ablkUsed).2
      let j := (u.readTable (s.begun 0 f .vector ablkUsed).1).1
      opIs 0x50 f.word && (s.cl 0).vq.isEmpty && !ablkReserved j && !ablkFormatBad j &&
         !u.selected 0 f.n (abEng f.word) ((s.cl 0).vord.getD (s.cl 0).ordinal) j.step && s.engState 0 (abEng f.word + 1) != 1 &&
         !(s.cl 0).engineBefore (abEng f.word) s.nextFlight && !(s.cl 0).engineBefore (abEng f.word + 1) s.nextFlight)
      (by revert fn hw; decide +kernel)⟩

/-- A job of one tile that waits for the tray. -/
def trayJob (w : Nat) : Job :=
  { flight := 0, g := 0, ctx := 1, word := w, sregs := [], da := [], db := [], dc := [], dx := [], dy := [], kt5 := false, key := ⟨0, 0, 0, 0⟩ }

theorem witness_TrayPop : ∀ x ∈ [(0, dataWord 0x40 7 (fn := 2 ^ 14 + 1)), (1, word 0x41 7 (2 ^ 96 + 2 ^ 12))], ∀ t ∈ [[], [([] : Memory 32)]],
    let s := (flying 0x40 false).modCl 0 fun c => { c with vq := [trayJob x.2], tray := t }
    s.running = true ∧ (s.cl 0).vq = [trayJob x.2] ∧ (s.cl 0).vpos = 0 ∧
      (x.1 = 0 ∧ wOp x.2 = 0x40 ∧ vcSrc x.2 = 1 ∧ vcTiles x.2 = 1 ∨ x.1 = 1 ∧ wOp x.2 = 0x41 ∧ vrSrc x.2 = 1 ∧ vcTiles x.2 = 1) ∧
      ((s.cl 0).tray = [] ↔ t = []) ∧ (Tab.find s.flights 0).isSome := by decide +kernel

/-- Codes at the ends of their formats. -/
theorem witness_ElementCodes : (∀ x ∈ [(0, 0x7F7FFFFF), (0, 0x80000001), (1, 0xFF7F), (2, 1), (3, 0x7E), (4, 0xFB), (5, 0x80),
    (6, 0xFF), (7, 0x7F), (8, 0xFF)], x.1 < 9 ∧ (x.2 < 2 ^ Format.bits x.1 → (decodeElem false x.1 x.2).2 = false)) ∧
    (List.range 32).length = 32 := by decide +kernel

/-- One value in range and one beyond the largest for each wide format. -/
theorem witness_ElementCodesRound : ∀ f ∈ [Fmt.fp32, Fmt.bf16, Fmt.fp16, Fmt.fp64],
    (Fp.rnd f (.fin true 0x1FFFFFFFFFFFFFF 0)).2 = (f == .fp16) ∧ (Fp.rnd f (.fin false 1 0)).2 = false ∧
      (Fp.rnd f (.fin false 1 2000)).2 = true := by decide +kernel

/-! ### The ledger and the services of the memory system -/

/-- Slot 6 holds a ledger tensor, slot 7 one that is not the ledger's. -/
def withLedger (s : State) : State := withDesc 7 (desc 0x100000 3 0) (withDesc 6 (desc 0x100000 3 (2 ^ 29)) s)

/-- Pool 0 belongs to context 1, has eight frames, and parks with action `act`. -/
def ledger (act : Nat) (recs : Tab PageRec := []) (size : Nat := 4) : State :=
  (State.with (withLedger live) [(poolReg Reg.ldgPctl 0, 2 ^ 63 + 2 ^ 48 + size), (poolReg Reg.ldgPframe 0, 1),
    (poolReg Reg.ldgPdef 0, act * 2 ^ 37)]).setPool 0 ⟨recs, [], 9⟩

/-- A record of page 0 of tensor 0. -/
def rec0 (st : Nat) : PageRec := ⟨0, 0, st, false, if st = 1 then [0] else [], [], false, [], 0, false, 3, none⟩

/-- The four instructions, on one page. -/
def ledgerWord (op slot : Nat) : Nat := dataWord op 8 (da := slot) (fn := 1)

def poollessB (w : Nat) (x : Instr × Nat × Nat) : Bool :=
  fetchedB (atWord w (withLedger live)) 0 fun f =>
    readyB (atWord w (withLedger live)) 0 f (dataRegs true false false f.word) .ledger &&
    (let j := ((atWord w (withLedger live)).begun 0 f .ledger x.2.2).1
     let u := ((atWord w (withLedger live)).begun 0 f .ledger x.2.2).2
     opIs x.2.1 f.word && j.fn != 0 && fmtOk j.kt5 (Desc.fmt j.da) && !Desc.shared j.da && !Desc.frozen j.da &&
       Desc.ledger j.da == (wDA w == 6) && (u.servingPool j.ctx (Desc.tensorid j.da) j.sa).isNone &&
       (u.vaAddr (Reg.ldgViolcnt (u.countStack j)) f.n true (pageHome j j.sa)).isSome)

theorem witness_LedgerNoPool : ∀ slot ∈ [6, 7], ∀ x ∈ ledgerRows 0 [], ∃ f,
    (atWord (ledgerWord x.2.1 slot) (withLedger live)).Ready 0 f (dataRegs true false false f.word) .ledger ∧
    (let j := ((atWord (ledgerWord x.2.1 slot) (withLedger live)).begun 0 f .ledger x.2.2).1
     let u := ((atWord (ledgerWord x.2.1 slot) (withLedger live)).begun 0 f .ledger x.2.2).2
     opIs x.2.1 f.word && j.fn != 0 && fmtOk j.kt5 (Desc.fmt j.da) && !Desc.shared j.da && !Desc.frozen j.da &&
       Desc.ledger j.da == (wDA (ledgerWord x.2.1 slot) == 6) && (u.servingPool j.ctx (Desc.tensorid j.da) j.sa).isNone &&
       (u.vaAddr (Reg.ldgViolcnt (u.countStack j)) f.n true (pageHome j j.sa)).isSome) = true := by
  intro slot hs x hx
  refine ready_ex (regs := fun f => dataRegs true false false f.word) (u := fun _ => .ledger) ?_
  have h : ([6, 7].all fun slot => (ledgerRows 0 []).all fun x => poollessB (ledgerWord x.2.1 slot) x) = true := by decide +kernel
  exact all_of (all_of h slot hs) x hx

/-- `OnePage`, decided. -/
def onePageB (u : State) (j : Job) (k : Nat) : Bool :=
  j.fn == 1 && fmtOk j.kt5 (Desc.fmt j.da) && Desc.ledger j.da && !Desc.shared j.da && Desc.base j.da % pageBytes == 0 &&
    decide (j.sa < 2 ^ 32) && u.servingPool j.ctx (Desc.tensorid j.da) j.sa == some k && (u.pool k).ops.isEmpty

theorem onePage_of {u : State} {j : Job} {k : Nat} (h : onePageB u j k = true) : OnePage u j k := by
  simpa [onePageB, OnePage, and_assoc] using h

/-- A page instruction on a pool, and what is asked of its pool. -/
def pageB (s : State) (op used : Nat) (p : Pool → Bool) : Bool :=
  fetchedB s 0 fun f => readyB s 0 f (dataRegs true false false f.word) .ledger && (opIs op f.word &&
    onePageB (s.begun 0 f .ledger used).2 (s.begun 0 f .ledger used).1 0 && p ((s.begun 0 f .ledger used).2.pool 0))

theorem page_ex {s : State} {op used : Nat} {p : Pool → Bool} (h : pageB s op used p = true) :
    ∃ f, s.Ready 0 f (dataRegs true false false f.word) .ledger ∧ opIs op f.word = true ∧
      OnePage (s.begun 0 f .ledger used).2 (s.begun 0 f .ledger used).1 0 ∧ p ((s.begun 0 f .ledger used).2.pool 0) = true := by
  obtain ⟨f, hr, hp⟩ := ready_ex (regs := fun f => dataRegs true false false f.word) (u := fun _ => .ledger) h
  simp only [Bool.and_eq_true] at hp
  exact ⟨f, hr, hp.1.1, onePage_of hp.1.2, hp.2⟩

/-- LPARK on an empty pool with DROP and with FRAMES, on a full one whose record is GONE, and with the record listed. -/
def parkStates : List State :=
  [ledger 4, ledger 0, ledger 4 [(3, { rec0 5 with ord := 9 })] 1, ledger 0 [(0, rec0 2)]].map fun s => atWord (ledgerWord 0x20 6) s

theorem witness_LedgerParks : ∀ s ∈ parkStates, ∃ f, s.Ready 0 f (dataRegs true false false f.word) .ledger ∧
    opIs 0x20 f.word = true ∧ OnePage (s.begun 0 f .ledger ledgerUsed).2 (s.begun 0 f .ledger ledgerUsed).1 0 ∧
    (fun p : Pool => match p.takeRec (s.poolSize 0) 0 0 with
      | some (_, r, p) => r.move.isNone && s.poolCodec 0 == 0 && !s.poolKv 0 && (p.room (s.tierSize 0) 1) &&
          (polAction (s.policy 0 1 0).1 == 4 || polAction (s.policy 0 1 0).1 == 0)
      | none => false) ((s.begun 0 f .ledger ledgerUsed).2.pool 0) = true :=
  fun s hs => page_ex (p := fun p : Pool => match p.takeRec (s.poolSize 0) 0 0 with
      | some (_, r, p) => r.move.isNone && s.poolCodec 0 == 0 && !s.poolKv 0 && (p.room (s.tierSize 0) 1) &&
          (polAction (s.policy 0 1 0).1 == 4 || polAction (s.policy 0 1 0).1 == 0)
      | none => false) (by
    have h : (parkStates.all fun s => pageB s 0x20 ledgerUsed fun p : Pool => match p.takeRec (s.poolSize 0) 0 0 with
      | some (_, r, p) => r.move.isNone && s.poolCodec 0 == 0 && !s.poolKv 0 && (p.room (s.tierSize 0) 1) &&
          (polAction (s.policy 0 1 0).1 == 4 || polAction (s.policy 0 1 0).1 == 0)
      | none => false) = true := by decide +kernel
    exact all_of h s hs)

/-- LFETCH of a page that is not listed, GONE, and in FRAMES; LDROP and both forms of LPIN of a FRAMES record. -/
theorem witness_LedgerFetches :
    (∀ recs ∈ [[], [(0, rec0 5)], [(0, rec0 1)]], ∃ f, (atWord (ledgerWord 0x21 6) (ledger 0 recs)).Ready 0 f
      (dataRegs true false false f.word) .ledger ∧ opIs 0x21 f.word = true ∧
      OnePage ((atWord (ledgerWord 0x21 6) (ledger 0 recs)).begun 0 f .ledger ledgerUsed).2
        ((atWord (ledgerWord 0x21 6) (ledger 0 recs)).begun 0 f .ledger ledgerUsed).1 0 ∧
      (fun p : Pool => p.recs == recs && recs.all fun r => r.2.page.wf)
        (((atWord (ledgerWord 0x21 6) (ledger 0 recs)).begun 0 f .ledger ledgerUsed).2.pool 0) = true) ∧
    ∀ x ∈ [(ledgerWord 0x22 6, 0x22, ledgerUsed), (ledgerWord 0x23 6, 0x23, ledgerUsed + mXT 0 0),
        (ledgerWord 0x23 6 + 1, 0x23, ledgerUsed + mXT 0 0)],
      ∃ f, (atWord x.1 (ledger 0 [(0, rec0 1)])).Ready 0 f (dataRegs true false false f.word) .ledger ∧ opIs x.2.1 f.word = true ∧
      OnePage ((atWord x.1 (ledger 0 [(0, rec0 1)])).begun 0 f .ledger x.2.2).2
        ((atWord x.1 (ledger 0 [(0, rec0 1)])).begun 0 f .ledger x.2.2).1 0 ∧
      (fun p : Pool => p.findKey 0 0 == some (0, rec0 1) && (rec0 1).move.isNone)
        (((atWord x.1 (ledger 0 [(0, rec0 1)])).begun 0 f .ledger x.2.2).2.pool 0) = true := by
  refine ⟨fun recs hr => page_ex (p := fun p : Pool => p.recs == recs && recs.all fun r => r.2.page.wf) (by
      revert recs hr; decide +kernel), fun x hx => page_ex (p := fun p : Pool =>
        p.findKey 0 0 == some (0, rec0 1) && (rec0 1).move.isNone) (by revert x hx; decide +kernel)⟩

/-- A placement of record 2 that an instruction waits for; an LFETCH that waits. -/
def moving : State := (flying 0x20 false).setPool 5 ⟨[(2, { rec0 1 with move := some ⟨2, some [(1, 1)], [3], 1, true, false, none, some 0, false, (1, 7), false⟩ })], [], 0⟩

def fetchOp : PageOp := ⟨0, 1, 1, 0, 0, 0, 0, false, 0, none, []⟩

theorem witness_LedgerMoves :
    (let m : PageMove := ⟨2, some [(1, 1)], [3], 1, true, false, none, some 0, false, (1, 7), false⟩
     let s := { moving with pagesLeft := [(0, 1)] }
     s.running = true ∧ Tab.find (s.pool 5).recs 2 = some { rec0 1 with move := some m } ∧ Tab.find s.pagesLeft 0 = some 1 ∧
       Tab.find s.flights 0 = some (flight0 0x20 false)) ∧
    let s := { (flying 0x21 false).setPool 5 ⟨[], [fetchOp], 0⟩ with pagesLeft := [(0, 1)] }
    s.running = true ∧ (s.pool 5).ops = [fetchOp] ∧ Tab.find s.pagesLeft 0 = some 1 ∧ (s.pool 6).ops = [] ∧
      Tab.find s.flights 0 = some (flight0 0x21 false) ∧ (s.pool 5).findKey fetchOp.tid fetchOp.ord = none := by decide +kernel

/-- The CRC of a page of zeros, and a copy of one in PACK: it carries that CRC where `c` = 0, and another where `c` = 1. -/
def zeroCrc : Nat := (Crc.crc32c (List.replicate pageBytes 0)).toNat

def copy (c : Nat) (m : Option PageMove := none) : PageRec := { rec0 2 with crc := zeroCrc + c, move := m }

theorem copyBytes_empty (s : State) (k : Nat) (r : PageRec) (h : r.slots = []) :
    s.copyBytes k r = List.replicate pageBytes 0 := by
  unfold State.copyBytes
  rw [h]
  exact if_pos List.isEmpty_nil

theorem beq_add (z c : Nat) : (z == z + c) = (c == 0) := by
  cases c <;> simp

theorem crcOk_copy (s : State) (k c : Nat) (m : Option PageMove) : s.crcOk k (copy c m) = (c == 0) := by
  unfold State.crcOk
  rw [copyBytes_empty _ _ _ (by simp only [copy, rec0]; decide)]
  exact beq_add zeroCrc c

theorem broken_copy (s : State) (k c : Nat) : broken s k (copy c) = (c != 0) := by
  unfold broken
  rw [crcOk_copy]
  simp [copy, rec0, bne]

/-- LFETCH of a copy, whose decode succeeds or fails. -/
theorem witness_CopyFetches : ∀ c ∈ [0, 1], (∃ f, (atWord (ledgerWord 0x21 6) (ledger 0 [(0, copy c)])).Ready 0 f
      (dataRegs true false false f.word) .ledger ∧ opIs 0x21 f.word = true ∧
      OnePage ((atWord (ledgerWord 0x21 6) (ledger 0 [(0, copy c)])).begun 0 f .ledger ledgerUsed).2
        ((atWord (ledgerWord 0x21 6) (ledger 0 [(0, copy c)])).begun 0 f .ledger ledgerUsed).1 0 ∧
      (fun p : Pool => (p.findKey 0 0).any fun x => x.2.move.isNone)
        (((atWord (ledgerWord 0x21 6) (ledger 0 [(0, copy c)])).begun 0 f .ledger ledgerUsed).2.pool 0) = true) ∧
      ((ledger 0 [(0, copy c)]).pool 0).findKey 0 0 = some (0, copy c) ∧ (ledger 0).get Reg.hifIrqctl 31 31 = 0 ∧
      ∀ u : State, broken u 0 (copy c) = (c != 0) :=
  fun c hc => ⟨page_ex (p := fun p : Pool => (p.findKey 0 0).any fun x => x.2.move.isNone) (by revert c hc; decide +kernel),
    rfl, by decide +kernel, fun u => broken_copy u 0 c⟩

/-- The move of an LPIN that brings a copy to frame 2. -/
def pinning (fails : Bool) : PageMove := ⟨1, none, [2], 1, false, false, some true, some 0, fails, (1, 7), false⟩

/-- A move of pressure from tier to tier. -/
def pressed (target : Nat) : PageMove := ⟨target, none, [2], 1, false, false, none, none, false, (1, 7), true⟩

/-- Decodes that fail, by a flip and by the CRC; one that brings its page to frame 2, which memory holds; a demotion of a frame,
of a raw copy and of a coded one. -/
theorem witness_LedgerDecodes :
    (∀ x ∈ [(0, true), (1, false), (0, false)], let r := copy x.1 (some (pinning x.2)); let s := ledger 0 [(0, r)]
     s.running = true ∧ Tab.find (s.pool 0).recs 0 = some r ∧ r.move = some (pinning x.2) ∧
       ((pinning x.2).flight.isSome && ((pinning x.2).fails || !s.crcOk 0 r)) = !(x.1 == 0 && x.2 == false)) ∧
    (let m := pinning false
     m.target = 1 ∧ m.slots.take m.held = [2] ∧ (ledger 0).mapped ((ledger 0).slotAt 0 1 2) = true ∧
       (ledger 0).mapped ((ledger 0).slotAt 0 1 2 + (pageBytes - 1)) = true ∧ (ledger 0).poolOwner 0 = 1) ∧
    ∀ x ∈ [(1, 2, [0], false), (2, 3, [], true), (3, 4, [], false), (4, 2, [], false)],
      let r := { rec0 x.1 with slots := x.2.2.1, raw := x.2.2.2, move := some (pressed x.2.1) }
      let s := ledger 0 [(0, r)]
      s.running = true ∧ Tab.find (s.pool 0).recs 0 = some r ∧ (pressed x.2.1).flight = none ∧ (pressed x.2.1).page = none ∧
        (x.1 = 1 ∨ x.2.2.2 = true ∨ s.intact 0 r = true) := by
  refine ⟨fun x hx => ⟨?_, rfl, rfl, ?_⟩, by decide +kernel, by decide +kernel⟩
  · simp only [List.mem_cons, List.not_mem_nil, or_false] at hx
    obtain rfl | rfl | rfl := hx <;> exact rfl
  · rw [crcOk_copy]
    revert x hx; decide +kernel

/-- A write that enables a pool for context 1. -/
def enabling : Nat := 2 ^ 63 + 2 ^ 48 + 1048576

theorem witness_Pools :
    (bound.Up ∧ (fld (bound.pctl 1535) 63 63 = 0 ∧ bit enabling 63 = true ∧ 1 ≤ fld enabling 20 0 ∧ fld enabling 20 0 ≤ 1048576 ∧
      fld enabling 62 61 ≠ 3 ∧ fld enabling 59 48 ≠ 0 ∧ liveState (bound.cstate (fld enabling 59 48)) = false ∧
      bound.cstate (fld enabling 59 48) ≠ stCocooned ∧ ∀ t, t < 4 → bound.regionOk 1535 (t + 1) = true)) ∧
    (live.Up ∧ (fld (live.pctl 0) 63 63 = 0 ∧ liveState (live.cstate (fld enabling 59 48)) = true)) ∧
    (∀ st ∈ [stFree, stBound, stRunning, stCocooned], (State.with (ledger 0) [(Reg.ctxStat 1, st)]).Up ∧
      (fld ((State.with (ledger 0) [(Reg.ctxStat 1, st)]).pctl 0) 63 63 = 1 ∧ (ledger 0).poolOwner 0 = 1 ∧
        (State.with (ledger 0) [(Reg.ctxStat 1, st)]).cstate 1 = st)) := by
  refine ⟨up_and (by decide +kernel), up_and (by decide +kernel), fun st hs => up_and ?_⟩
  revert st hs; decide +kernel

/-- The owner may be cocooned; a code of 0 leaves the owner that the pool has, and with none the write is refused. -/
theorem witness_PoolOwners : ownerAfter (State.with bound [(poolReg Reg.ldgPctl 3, 2 ^ 48)]) 3 (2 ^ 63 + 1) = 1 ∧
    ownerAfter bound 3 (2 ^ 63 + 1) = 0 ∧ liveState stCocooned = false ∧
    (State.with bound [(Reg.ctxStat 1, stCocooned)]).cstate (ownerAfter bound 3 enabling) = stCocooned ∧
    ∀ t, t < 4 → bound.regionOk 3 (t + 1) = true := by decide +kernel

/-- The table of stack 0, its maps at granule `base`; a command on granule 5 for context 1. -/
def sharing (code : Nat) (tab : Tab SharedEntry) (base : Nat := 2 ^ 21) : State :=
  { withCmd (State.with bound [(Reg.ldgShbase 0, base)]) 0 code 1 (5 * 2 ^ 21) 1 with shared := [(0, tab)] }

/-- The map of entry 3 has the bit of context 1. -/
def sharedState : State :=
  { sharing 0x92 [(3, ⟨5 * 2 ^ 21, 1⟩)] with mem := (sharing 0x92 []).mem.write (2 ^ 21 + 512 * 3) 2 }

theorem witness_MemoryServices :
    (∃ c u, (withCmd up 7 0x90 0xFFF 0 0).fetchCmd 7 (· == 0x90) = some (c, u) ∧ (fld c.arg0 11 0 == 0xFFF) = true) ∧
    (∃ c u, (sharing 0x91 []).fetchCmd 0 (· == 0x91) = some (c, u) ∧
      (u.attachStatus c == stOk && fld c.arg2 15 0 == 1 && (u.sharedIndex (cmdStack c) (fld c.arg1 51 21 * granBytes)).isNone &&
        u.mapped (u.mapAddr (cmdStack c) (u.freeShared (cmdStack c))) && u.mapped (u.mapAddr (cmdStack c) (u.freeShared (cmdStack c)) + 511)) = true) ∧
    (∃ c u, (sharing 0x91 [] 0).fetchCmd 0 (· == 0x91) = some (c, u) ∧ (u.attachStatus c != stOk) = true) ∧
    (∃ c u, sharedState.fetchCmd 0 (· == 0x92) = some (c, u) ∧ (u.detachStatus c == stOk && fld c.arg2 15 0 == 1 &&
      decide (Tab.getD [] u.shared (cmdStack c) = [(3, ⟨5 * 2 ^ 21, 1⟩)])) = true) ∧
    (∃ c u, (sharing 0x92 []).fetchCmd 0 (· == 0x92) = some (c, u) ∧ (u.detachStatus c != stOk) = true) ∧
    (sharedState.Up ∧ (Tab.getD [] sharedState.shared 0 ≠ [] ∧ Tab.getD [] sharedState.shared 11 = [])) := by
  refine ⟨?_, ?_, ?_, ?_, ?_, up_and (by decide +kernel)⟩ <;> exact cmd_ex (by decide +kernel)

/-- A window closed with drift reporting, without it, and one open with none or three to follow. -/
theorem witness_Recalibration : (∀ v ∈ [0, 1, 2 ^ 29, 2 ^ 30], (State.with up [(Reg.hbmRecal 11, v)]).Up ∧
      (bit (2 ^ 31 : Nat) 31 = true ∧ (State.with up [(Reg.hbmRecal 11, v)]).running = true ∧
        (State.with up [(Reg.hbmRecal 11, v)]).get (Reg.hbmRecal 11) 30 30 = b2n (v == 2 ^ 30) ∧
        (State.with up [(Reg.hbmRecal 11, v)]).get (Reg.hbmRecal 11) 15 0 = b2n (v == 1) ∧
        (State.with up [(Reg.hbmRecal 11, v)]).get (Reg.hbmRecal 11) 29 29 = b2n (v == 2 ^ 29))) ∧
    ∀ n ∈ [0, 3], ((up.openWindow 11 3 n 0).recalOf 11).group = some 3 ∧ ((up.openWindow 11 3 n 0).recalOf 11).left = n ∧
      (up.openWindow 11 3 n 0).running = true :=
  ⟨fun v hv => up_and (by revert v hv; decide +kernel), by decide +kernel⟩

/-- Event queues that hold a record, shared entry 3 under the index of its register, and a port that is up. -/
def audited : State := State.with { sharedState with
    chk := { Chk.init with events := [⟨stSuspect, 4, 3, 7, 2 ^ 47, false, 2 ^ 51⟩] },
    sen := { Sen.init with events := [⟨0, 5, 0, 0⟩] } } [(Reg.ldgShraud 0, 3), (Reg.mdlPstat 31, 2 ^ 31)]

theorem witness_AuditsAndEvents : audited.Up ∧ (Tab.find (Tab.getD [] audited.shared 0) (audited.get (Reg.ldgShraud 0) 13 0) ≠ none ∧
    Tab.find (Tab.getD [] audited.shared 1) (audited.get (Reg.ldgShraud 1) 13 0) = none ∧ audited.chk.events ≠ [] ∧
    audited.sen.events ≠ [] ∧ audited.linkUp 31 = true) := up_and (by decide +kernel)

/-! ### The fabric -/

/-- A port in a state: 0 DOWN, 1 training, 2 UP. -/
def port (m st : Nat) (s : State := up) : State := State.with s [(Reg.mdlPctl m, 2 ^ 31), (Reg.mdlPstat m, st * 2 ^ 30)]

/-- A data flow unit that is a packet of its own, with a sequence number. -/
def oneFu (seq : Nat) : List Byte := makeFu (2 ^ 29 + 2 ^ 28 + seq) [1, 2, 3]

/-- A control flow unit: ACK, no NAK, and returns of `n` on every lane. -/
def ackFu (ack n : Nat) : List Byte := makeFu (2 ^ 26) (leBytes 4 ack ++ (leBytes 4 n ++ leBytes 4 n ++ leBytes 4 n ++ leBytes 4 n))

theorem witness_LinkPorts :
    ((port 31 0).Up ∧ ((port 31 0).linkState 31 = 0 ∧ (port 31 0).locked = false ∧ (port 31 0).portOn 31 = true ∧
      (port 31 0).running = true ∧ (port 31 2).linkState 31 ≠ 0)) ∧
    (∀ gs ∈ [none, some [1, 2, 3, 4]], let s := (port 31 1).modPort 31 fun p => { p with grants := gs }
      s.running = true ∧ s.linkState 31 = 1 ∧ (s.port 31).grants = gs) ∧
    (fuValid (makeFu (2 * 2 ^ 26) []) = true ∧ fuKind (makeFu (2 * 2 ^ 26) []) = 2 ∧ fuValid (makeFu (3 * 2 ^ 26) []) = true ∧
      fuKind (makeFu (3 * 2 ^ 26) []) = 3 ∧ fuValid [] = false) ∧
    (let s := (port 31 2).modPort 31 fun p => { p with expect := 5 }
     s.linkUp 31 = true ∧ (s.port 31).replay = [] ∧ (∀ q ∈ [5, 4], fuValid (oneFu q) = true ∧ fuKind (oneFu q) = 0 ∧ fuSeq (oneFu q) = q ∧
        bit (fuHead (oneFu q)) 28 = true ∧ bit (fuHead (oneFu q)) 29 = true ∧ ((s.port 31).lane (fuVl (oneFu q))).asm = []) ∧
      1 ≤ seqSub 5 4 ∧ seqSub 5 4 ≤ 2 ^ 23) ∧
    (∀ r ∈ [0, 7], let s := (port 31 2).modPort 31 fun p => { p with replay := [oneFu 0], repeats := r, seq := 1 }
      s.linkUp 31 = true ∧ (s.port 31).replay ≠ [] ∧ (s.port 31).repeats = r ∧ (s.port 31).repeatSeq = (s.port 31).acked ∧
        seqSub (leAt (ackFu 0 0) 4 3 + 1) (s.port 31).acked ≤ (s.port 31).replay.length) ∧
    ∀ n ∈ [0, 1], fuValid (ackFu 0 n) = true ∧ fuKind (ackFu 0 n) = 1 ∧ ((port 31 2).port 31).overReturned (ackFu 0 n) = (n == 1) ∧
      bit (leAt (ackFu 0 n) 7 1) 0 = false ∧ ∀ l, ((port 31 2).port 31).lanes = [] ∧ (((port 31 2).port 31).lane l).out = [] := by
  refine ⟨up_and (by decide +kernel), by decide +kernel, by decide +kernel, by decide +kernel, by decide +kernel, fun n hn => ?_⟩
  have h : ((port 31 2).port 31).lanes = [] := by decide +kernel
  have h2 : ∀ n ∈ [0, 1], fuValid (ackFu 0 n) = true ∧ fuKind (ackFu 0 n) = 1 ∧
      ((port 31 2).port 31).overReturned (ackFu 0 n) = (n == 1) ∧ bit (leAt (ackFu 0 n) 7 1) 0 = false := by decide +kernel
  exact ⟨(h2 n hn).1, (h2 n hn).2.1, (h2 n hn).2.2.1, (h2 n hn).2.2.2, fun l => ⟨h, by simp [Port.lane, h, Tab.getD, Tab.find, Lane.blank]⟩⟩

/-- Four store ports, and a fifth asked for; a flow unit that waits with no credit and with one. -/
theorem witness_StorePortsAndSending :
    (let s := State.with up [(Reg.mdlPctl 0, 2 ^ 30), (Reg.mdlPctl 1, 2 ^ 30), (Reg.mdlPctl 2, 2 ^ 30), (Reg.mdlPctl 31, 2 ^ 30)]
     fifthStore s 7 (3 * 2 ^ 30) = true ∧ fifthStore s 7 (2 ^ 31) = false ∧ fifthStore s 31 (3 * 2 ^ 30) = false) ∧
    ∀ h ∈ [0, 1], let p := Port.blank.setLane 3 { Lane.blank with held := h, issued := 1, out := [⟨true, true, none, List.replicate 56 7⟩] }
      p.seq < 2 ^ 24 ∧ (p.lane 3).held = h ∧ ((p.lane 3).out.map fun f => f.body.length) = [56] := by decide +kernel

/-- A packet as it lies in a port's inbox. -/
def parcel (op arg src : Nat) (last : Bool := true) (data : List Byte := []) (dst : Nat := 0) : Parcel :=
  let p : Packet := ⟨dst, src, opProf op, op, last, arg, data⟩
  ⟨opVl op, p.bytes.length / 56, p.bytes⟩

/-- It is the only one, in the device's own inbox or in that of store port 0. -/
def received (s : State) (x : Parcel) (m : Nat := 32) : State :=
  (if m = 32 then s else State.with s [(Reg.mdlPctl m, 3 * 2 ^ 30), (Reg.mdlPstat m, 2 ^ 31)]).modPort m fun p => { p with inbox := [x] }

theorem arrives_ex {s : State} {m op : Nat} {want : State → Packet → Bool} {q : Packet → State → Bool}
    (h : (match s.takeParcel m (fun x => x.op == op && s.mine m x && !x.malformed (s.isStore m) && want s x.packet) with
      | some x => q x.1.packet x.2
      | none => false) = true) : ∃ p u, Arrives s m op want p u ∧ q p u = true := by
  split at h
  · rename_i x hx
    exact ⟨x.1.packet, x.2, ⟨x.1, hx, rfl⟩, h⟩
  · cases h

/-- Plan 0 has depth 1 and hosts the root; plan 1 a leaf; CSEND and CRECV name device 0, which is the own one, and device 9, whose
route leads to a port that is DOWN. -/
def planned : State :=
  let s := State.with tensors [(Reg.mdlRoute 9, 2 ^ 31 + 7)]
  { s with mem := (s.mem.writeN 0x100 [1, 0]).writeN 0 ([1, 0, 0, 0, 0, 0, 0, 1] ++ List.replicate 24 0 ++ [0x81]) }

/-- The registers of a collective. -/
def collRegs (f : Fetch) : List Nat := if opIs 0x70 f.word then credRegs f else dataRegs true true true f.word

def collB (s : State) (p : Fetch → Bool) : Bool :=
  fetchedB s 0 fun f => readyB s 0 f (dataRegs true true true f.word) .collective && p f

/-- A context that votes: the job context, whose manager is device 0 itself or device 9; another context. With it: is it the job
context, and does its vote go out? -/
def voters : List (State × Bool × Bool) :=
  [(State.with planned [(Reg.stpRole, 2 ^ 26)], true, true), (State.with planned [(Reg.stpRole, 9 * 2 ^ 40 + 2 ^ 26)], true, false),
    (planned, false, true)]

def voterB (s : State) (f : Fetch) (job goes : Bool) : Bool :=
  let b := s.begun 0 f .collective (mSA + mSB + mSC)
  let rd := b.2.load Reg.colViolcnt f.n b.1.sa 64
  let body := rd.2.voteBody (b.1.sb % 2 ^ 48) s.curRound (bit (leAt rd.1 0 1) 0)
  let v : CVote := ⟨s.nextFlight, f.n, sregZ (s.cl 0).sregs (wSA f.word), sregZ (s.cl 0).sregs (wSB f.word) % 2 ^ 48, s.curRound,
    bit body.flags fPresent, body.pcount⟩
  let w := (rd.2.modFlight s.nextFlight fun x => { x with sreg := wSC f.word }).modStp fun x => { x with cvotes := x.cvotes ++ [v] }
  (f.n == s.jobCtx) == job && (w.message s.ownMgr 0x04 0 false body.bytes).2 == goes

theorem witness_CollectiveInstructions :
    (∀ x ∈ [(0x70, 0), (0x70, 1), (0x71, 0), (0x71, 1)], ∃ f,
      (atWord (dataWord x.1 9 (da := 1) (fn := 16 * x.2)) planned).Ready 0 f (collRegs f) .collective ∧
      (let s := atWord (dataWord x.1 9 (da := 1) (fn := 16 * x.2)) planned
       let jp := (s.begun 0 f .collective (collUsed + mFN 15 4)).1
       let r := ((s.begun 0 f .collective (collUsed + mFN 15 4)).2.planRecord f.n (fld (wFN f.word) 15 4)).1
       opIs x.1 f.word && !Plan.bad r && fmtOk jp.kt5 (Desc.fmt jp.da) && ((Plan.nodes r).any (·.root) == (x.2 == 0))) = true) ∧
    (∀ x ∈ [(0x72, 0), (0x73, 0), (0x73, 9)], ∃ f,
      (atWord (dataWord x.1 9 (da := 1) (fn := x.2)) planned).Ready 0 f (collRegs f) .collective ∧
      (let s := atWord (dataWord x.1 9 (da := 1) (fn := x.2)) planned
       let b := s.begun 0 f .collective (collUsed + mFN 11 0 + mXT 11 0)
       opIs x.1 f.word && fmtOk b.1.kt5 (Desc.fmt b.1.da) && (b.2.pathDown x.2 == (x.2 == 9))) = true) ∧
    ∀ x ∈ voters, ∃ f, (atWord (dataWord 0x74 9) x.1).Ready 0 f (collRegs f) .collective ∧
      (opIs 0x74 f.word && voterB (atWord (dataWord 0x74 9) x.1) f x.2.1 x.2.2) = true :=
  ⟨fun x hx => ready_ex (regs := fun f => collRegs f) (u := fun _ => .collective) (p := fun f =>
      let s := atWord (dataWord x.1 9 (da := 1) (fn := 16 * x.2)) planned
      let jp := (s.begun 0 f .collective (collUsed + mFN 15 4)).1
      let r := ((s.begun 0 f .collective (collUsed + mFN 15 4)).2.planRecord f.n (fld (wFN f.word) 15 4)).1
      opIs x.1 f.word && !Plan.bad r && fmtOk jp.kt5 (Desc.fmt jp.da) && ((Plan.nodes r).any (·.root) == (x.2 == 0)))
      (by revert x hx; decide +kernel),
    fun x hx => ready_ex (regs := fun f => collRegs f) (u := fun _ => .collective) (p := fun f =>
      let s := atWord (dataWord x.1 9 (da := 1) (fn := x.2)) planned
      let b := s.begun 0 f .collective (collUsed + mFN 11 0 + mXT 11 0)
      opIs x.1 f.word && fmtOk b.1.kt5 (Desc.fmt b.1.da) && (b.2.pathDown x.2 == (x.2 == 9))) (by revert x hx; decide +kernel),
    fun x hx => ready_ex (regs := fun f => collRegs f) (u := fun _ => .collective) (p := fun f => opIs 0x74 f.word &&
      voterB (atWord (dataWord 0x74 9) x.1) f x.2.1 x.2.2) (by revert x hx; decide +kernel)⟩

/-- An operation of flight 0, plan 3 and instance 4, with device 6. -/
def coll (k : CollKind) (nodes : List Node := []) (ohi : Nat := 0) (count : Nat := 1) : Coll :=
  { kind := k, ctx := 1, plan := 3, inst := 4, peer := 6, record := List.replicate 20 0 ++ leBytes 4 ohi, da := desc 0x40000 3 0,
    base := 0, count := count, kt5 := false, voted := false, step := 0, round := 0, nodes := nodes, wrote := [], got := 0,
    ended := false, final := none, odd := false, done := false }

/-- A hosted node with children 6 and 8. -/
def node6 (counts : Tab (Nat × Nat)) : Node :=
  { level := 1, root := true, pslot := 0, parent := 0, kids := [6, 8], counts := counts, parts := [], sent := [], ended := [],
    countUp := false, dataUp := false, segs := [], final := false }

/-- It is in progress and a packet has arrived. -/
def inColl (c : Coll) (x : Parcel) : State := received { flying 0x70 false with colls := [(0, c)] } x

def arg34 : Nat := 3 * 2 ^ 52 + 4 * 2 ^ 36

def collIs (c : Coll) (k : CollKind) (peer : Option Nat) (last : Bool) (p : Packet) (u : State) : Bool :=
  decide (Tab.find u.colls 0 = some c) && !c.done && decide (Tab.find u.flights 0 = some (flight0 0x70 false)) && p.last == last &&
    decide (u.collFor k (argPlan p.arg) (argInst p.arg) peer = some (0, c))

theorem witness_CollectivePackets :
    (∀ l ∈ [false, true], ∃ p u, Arrives (inColl (coll .crecv) (parcel 0x15 arg34 6 l [1])) 32 0x15 wantSdata p u ∧
      collIs (coll .crecv) .crecv (some p.src) l p u = true) ∧
    (∃ p u, Arrives (inColl (coll .csend) (parcel 0x16 arg34 6)) 32 0x16 anyPacket p u ∧
      collIs (coll .csend) .csend (some p.src) true p u = true) ∧
    (∀ l ∈ [false, true], ∃ p u, Arrives (inColl (coll .cbcast) (parcel 0x14 arg34 6 l [1])) 32 0x14 (wantPlan .cbcast) p u ∧
      collIs (coll .cbcast) .cbcast none l p u = true) ∧
    (∀ op ∈ [0x12, 0x13], ∀ n ∈ [0, 1], ∃ p u,
      Arrives (inColl (coll .cred [] n n) (parcel op arg34 6 true (leBytes 16 0))) 32 op (wantPlan .cred) p u ∧
        (collIs (coll .cred [] n n) .cred none true p u && (coll .cred [] n n).complete == (n == 0)) = true) ∧
    (∃ p u, Arrives (inColl (coll .cred [node6 []] 1) (parcel 0x11 arg34 6 true (leBytes 16 1))) 32 0x11 (wantPlan .cred) p u ∧
      (collIs (coll .cred [node6 []] 1) .cred none true p u && !(coll .cred [node6 []] 1).complete && argSlot p.arg == 0 &&
        (node6 []).kids[0]? == some p.src && !(node6 [(0, 1, 0)]).allCounted) = true) ∧
    (∀ l ∈ [false, true], ∃ p u,
      Arrives (inColl (coll .cred [node6 [(0, 1, 0)]] 1) (parcel 0x10 arg34 6 l (leBytes 4 7))) 32 0x10 wantRpart p u ∧
      (collIs (coll .cred [node6 [(0, 1, 0)]] 1) .cred none l p u && !(coll .cred [node6 [(0, 1, 0)]] 1).complete &&
        !(node6 [(0, 1, 0)]).allCounted && (node6 [(0, 1, 0)]).kids[0]? == some p.src) = true) ∧
    (inColl (coll .cbcast) (parcel 0 0 0)).running = true := by
  refine ⟨fun l hl => arrives_ex (q := fun p u => collIs (coll .crecv) .crecv (some p.src) l p u) ?_, arrives_ex
    (q := fun p u => collIs (coll .csend) .csend (some p.src) true p u) (by decide +kernel), fun l hl => arrives_ex
    (q := fun p u => collIs (coll .cbcast) .cbcast none l p u) ?_, fun op ho n hn => arrives_ex
    (q := fun p u => collIs (coll .cred [] n n) .cred none true p u && (coll .cred [] n n).complete == (n == 0)) ?_, arrives_ex
    (q := fun p u => collIs (coll .cred [node6 []] 1) .cred none true p u && !(coll .cred [node6 []] 1).complete && argSlot p.arg == 0 &&
        (node6 []).kids[0]? == some p.src && !(node6 [(0, 1, 0)]).allCounted) (by decide +kernel), fun l hl => arrives_ex
    (q := fun p u => collIs (coll .cred [node6 [(0, 1, 0)]] 1) .cred none l p u && !(coll .cred [node6 [(0, 1, 0)]] 1).complete &&
        !(node6 [(0, 1, 0)]).allCounted && (node6 [(0, 1, 0)]).kids[0]? == some p.src) ?_, by decide +kernel⟩
  · revert l hl; decide +kernel
  · revert l hl; decide +kernel
  · revert n hn; revert op ho; decide +kernel
  · revert l hl; decide +kernel

/-- A packet of a reserved operation, and packets for device 5: with no route, to a port that is DOWN, and to one that is UP. -/
theorem witness_PacketPaths :
    (∃ x u, (received up (parcel 0x0F 0 6)).takeParcel 32 (fun x => x.malformed false) = some (x, u) ∧ u.isStore 32 = false) ∧
    ∀ r ∈ [(0, 0), (2 ^ 31 + 7, 0), (2 ^ 31 + 7, 2)], let s := (port 7 r.2 (State.with up [(Reg.mdlRoute 5, r.1)])).modPort 3 fun p =>
        { p with inbox := [parcel 0x03 0 6 true [] 5] }
      ((s.takeParcel 3 fun x => !s.mine 3 x && !x.malformed (s.isStore 3)).map fun y => (y.2.route y.1.dst, y.2.linkUp 7)) =
        some (if r.1 = 0 then none else some 7, r.2 == 2) :=
  ⟨⟨_, _, by rfl, by decide +kernel⟩, by decide +kernel⟩

/-- A device of a role: 0 worker, 2 root with worker 6 and manager 7 in its tables. -/
def roled (r : Nat) (rest : Stp → Stp := id) : State :=
  let s := State.with (flying 0x74 false) ([(Reg.stpRole, r * 2 ^ 38 + 2 ^ 26)] ++
    if r = 0 then [] else [(Reg.secBlobstat, 2 ^ 31), (Reg.stpWtab 0, entMake 6), (Reg.stpWtab 5, entMake 8), (Reg.stpMtab 0, entMake 7)])
  { s with stp := rest { s.stp with beats := true } }

def vote0 : CVote := { flight := 0, ctx := 1, addr := 0, step := 1, round := 0, present := true, pcount := 1 }

/-- A message of step control has arrived, and something is decided of it. -/
def stpMsg (s : State) (x : Parcel) (op : Nat) (q : Packet → State → Bool) : Prop :=
  ∃ p u, Arrives (received s x) 32 op anyPacket p u ∧ q p u = true

theorem stpMsg_of {s : State} {x : Parcel} {op : Nat} {q : Packet → State → Bool}
    (h : (match (received s x).takeParcel 32 (fun y => y.op == op && (received s x).mine 32 y &&
        !y.malformed ((received s x).isStore 32) && anyPacket (received s x) y.packet) with
      | some y => q y.1.packet y.2
      | none => false) = true) : stpMsg s x op q := arrives_ex h

theorem witness_StepControlJoins :
    stpMsg (roled 0) (parcel 0x01 6 6) 0x01 (fun _ u => u.role == 0) ∧
    stpMsg (roled 2) (parcel 0x01 9 9) 0x01 (fun p u => u.role == 2 && u.manages && !bit p.arg 12 && p.src == fld p.arg 11 0 &&
      decide (u.get Reg.stpMembers 12 0 < 4096) && (u.joinVerdict 9 u.devid false).1 == stOk) ∧
    stpMsg (roled 0) (parcel 0x02 0 6) 0x02 (fun _ u => u.stp.joins.isEmpty) ∧
    stpMsg (roled 0 fun x => { x with joins := [0] }) (parcel 0x02 0 6) 0x02 (fun _ u => u.stp.joins == [u.devid]) ∧
    stpMsg (roled 0) (parcel 0x03 0 6) 0x03 (fun _ _ => true) ∧
    (let s := roled 0 fun x => { x with join := some (stOk, 1) }
     s.running = true ∧ s.stp.joinDue = false ∧ s.stp.beats = true ∧ s.role = 0 ∧ s.stp.join.map (·.1) = some stOk) ∧
    (roled 0 fun x => { x with beats := false }).stp.beats = false ∧
    let s := roled 2
    s.running = true ∧ s.manages = true ∧ entValid (s.reg (Reg.stpWtab 5)) = true ∧ entLost (s.reg (Reg.stpWtab 5)) = false ∧
      s.stp.arrived = [] ∧ s.stp.ballots = [] := by
  refine ⟨?_, ?_, ?_, ?_, ?_, by decide +kernel⟩ <;> exact stpMsg_of (by decide +kernel)

theorem witness_StepControlBarriers :
    (∀ o ∈ [2 ^ 106, 2 ^ 106 + 5 * 2 ^ 100], ∃ f, (atWord (word 6 1 o) (live.modCl 0 fun c => { c with sregs := [(5, 1)] })).Ready 0 f
      (barrierRegs f.word) .none ∧ (opIs 0x06 f.word && barScope f.word == 1) = true) ∧
    (∃ h ∈ live.clustersOf 1, h ≠ 0 ∧ (live.cl h).stall = .none) ∧ live.jobCtx ≠ 1 ∧ (roled 0).jobCtx = 1 ∧
    stpMsg (roled 0) (parcel 0x08 0 6) 0x08 (fun _ u => u.role == 0) ∧
    stpMsg (roled 2) (parcel 0x08 65535 6) 0x08 (fun p u => u.role != 0 && u.manages && behind u.gen (fld p.arg 15 0)) ∧
    stpMsg (roled 2) (parcel 0x08 0 6) 0x08 (fun p u => u.role != 0 && u.manages && fld p.arg 15 0 == u.gen &&
      u.releaseDests.contains p.src && u.stp.arrived.isEmpty && !u.anyLost && u.releaseDests.any (· != p.src)) ∧
    stpMsg (roled 0) (parcel 0x09 1 6) 0x09 (fun p u => fld p.arg 15 0 != u.gen) ∧
    stpMsg (roled 0 fun x => { x with waiting := [1] }) (parcel 0x09 0 6) 0x09 (fun p u =>
      fld p.arg 15 0 == u.gen && u.role == 0 && fld p.arg 23 16 == stOk && u.stp.waiting == [1]) ∧
    stpMsg (roled 2 fun x => { x with granted := 1 }) (parcel 0x0A 0 6) 0x0A (fun p u => u.role != 0 &&
      fld p.arg 15 0 == u.stp.audGen && decide (u.stp.consumed < u.stp.granted)) ∧
    let s := live.modCl 0 (fun c => { c with stall := .barrier true 1 9 none })
    s.activeOn 0 = some 1 ∧ s.clusterAt 1 (s.cl 0).idx = some 0 ∧ (s.cl 0).stall = .barrier true 1 9 none ∧
      s.awaitsWave 1 (s.cl 0).idx = false ∧ (s.ctx 1).cocoon = none ∧ s.running = true := by
  refine ⟨fun o ho => ready_ex (regs := fun f => barrierRegs f.word) (u := fun _ => .none) (p := fun f => opIs 0x06 f.word && barScope f.word == 1)
      (by revert o ho; decide +kernel), by decide +kernel, by decide +kernel, by decide +kernel, ?_⟩
  refine ⟨?_, ?_, ?_, ?_, ?_, ?_, by decide +kernel⟩ <;> exact stpMsg_of (by decide +kernel)

/-- A vote for step 1 or 2, round 0. -/
def votePacket (op src step : Nat) : Parcel := parcel op 0 src true (leBytes 32 step)

theorem witness_StepControlVotes :
    stpMsg (roled 0) (votePacket 0x04 6 1) 0x04 (fun _ u => u.role == 0) ∧
    (∀ step ∈ [1, 2], stpMsg (roled 2) (votePacket 0x04 6 step) 0x04 (fun p u => let b := Ballot.ofBytes p.src p.data
      u.role != 0 && inTable u.wtab p.src && u.manages && (u.port selfPort).inbox.isEmpty && (decide ((b.step, b.round) = (u.curStep, u.curRound)) == (step == 1)) &&
        !allVoted u.wtab (putBallot u.stp.ballots { b with ids := [] }))) ∧
    stpMsg (roled 0) (votePacket 0x05 7 1) 0x05 (fun _ u => u.role != 2) ∧
    stpMsg (roled 2) (votePacket 0x05 7 1) 0x05 (fun p u => let b := Ballot.ofBytes p.src p.data
      u.role == 2 && inTable u.mtab p.src && u.manages && (u.port selfPort).inbox.isEmpty && decide ((b.step, b.round) = (u.curStep, u.curRound)) && u.stp.ballots.isEmpty) ∧
    (∀ bs ∈ [[], [Ballot.ofBytes 6 (leBytes 32 1)]], let s := roled 2 fun x => { x with ballots := bs }
      s.running = true ∧ s.manages = true ∧ s.stp.ballots = bs ∧ s.stp.gballots = []) ∧
    (∀ st ∈ [stCommitted, stReplay, stRestart], stpMsg (roled 0 fun x => { x with cvotes := [vote0] })
      (parcel 0x06 (1 + st * 2 ^ 56) 6 true (if st = stReplay then List.replicate 512 0 else [])) 0x06 (fun p u => u.role == 0 &&
        decide (u.stp.cvotes = [vote0]) && vote0.ctx == u.jobCtx && vote0.step == fld p.arg 47 0 && vote0.round == fld p.arg 55 48 && fld p.arg 63 56 == st &&
          decide (Tab.find u.flights 0 = some (flight0 0x74 false)))) ∧
    let s := roled 0 fun x => { x with cvotes := [vote0] }
    s.running = true ∧ s.stp.cvotes = [vote0] ∧ Tab.find s.flights 0 = some (flight0 0x74 false) := by
  refine ⟨stpMsg_of (by decide +kernel), fun step hs => stpMsg_of ?_, stpMsg_of (by decide +kernel), stpMsg_of (by decide +kernel),
    by decide +kernel, fun st hs => stpMsg_of ?_, by decide +kernel⟩
  · revert step hs; decide +kernel
  · revert st hs; decide +kernel

theorem witness_AnswerAlone :
    stpMsg (roled 0) (parcel 0x06 (1 + stRestart * 2 ^ 56) 6) 0x06 (fun p u => u.role == 0 && u.stp.cvotes.isEmpty &&
      fld p.arg 63 56 == stRestart) ∧
    stpMsg (roled 0) (parcel 0x06 (1 + stCommitted * 2 ^ 56) 6) 0x06 (fun p u => u.role == 0 && u.stp.cvotes.isEmpty &&
      fld p.arg 63 56 == stCommitted) := by
  constructor <;> exact stpMsg_of (by decide +kernel)

/-! ### Reliability and snapshots -/

/-- An idle device whose clusters 40 on belong to no partition, with an interval and test states. -/
def testing (g st : Nat) (s : State := up) : State := State.with s [(Reg.chkTestcfg, 5), (Reg.chkTest g, st * 2 ^ 30)]

/-- A unit of one row of engine 2 with result `x`, whose shadow on engine 9 has the sum 1 in its first element. -/
def unitB (x : Memory 64) : ShadowUnit := ⟨2, 9, 0, x, [], .mma false { live.accum 0 2 0 with mrows := 1 } [(0, 1)] 2048 false⟩

theorem witness_Checking :
    (∀ x ∈ [[(0, 1)], [(0, 2)]], let s := live.modCl 0 fun c => { c with shadows := [unitB x] }
      s.running = true ∧ (unitB x).shEng < 16 ∧ (∀ n, (s.cl 0).ctx = some n → n < 4096) ∧
        ((∀ y ∈ (s.cl 0).engines, y.2.queue = []) ∧ (s.cl 0).vq = []) ∧ (s.cl 0).shadows.find? (fun y => y.eng == 2) = some (unitB x) ∧ (unitB x).engs.any (s.unitHeld 0) = false ∧
        (((unitB x).out (s.get (Reg.mxeChkctl 0) 4 0) []).result = (unitB x).orig ↔ x = [(0, 1)])) ∧
    (∀ src ∈ [2, 3, 4, 5], ∀ b ∈ [false, true], let e : FaultIn := { source := src, loc := 7, corrected := b, retry := false, unit := 0, cluster := false, addr := 0 }
      up.running = true ∧ 2 ≤ e.source ∧ e.source ≤ 5 ∧ e.corrected = b ∧ up.snp.takes = []) ∧
    (testing 63 0).testState 63 = 0 ∧ (testing 63 0).get Reg.chkTestcfg 15 0 ≠ 0 ∧
    (testing 63 1).running = true ∧ (testing 63 1).testable 63 = true ∧ (testing 63 1).testState 63 = 1 ∧
    (testing 63 1).chk.forced.contains 63 = false ∧
    (let s := { testing 1 0 bound with chk := { bound.chk with spares := [(0, 1)] } }
     s.testable 1 = true ∧ s.testState 1 = 0 ∧ s.isSpare 1 = true ∧ s.chk.spareTested.contains 1 = false) ∧
    ((testing 63 2).testState 63 = 2 ∧ (testing 63 2).get Reg.chkStat 30 30 = 0 ∧ Tab.find (testing 63 2).chk.cltests 63 = none) ∧
    (let s := testing 0 1 live
     s.testState 0 = 1 ∧ s.chk.forced.contains 0 = false ∧ (s.cl 0).ctx = some 1 ∧ s.cstate 1 = stRunning) := by
  refine ⟨fun x hx => ?_, by decide +kernel⟩
  have h : ∀ x ∈ [[(0, 1)], [(0, 2)]], let s := live.modCl 0 fun c => { c with shadows := [unitB x] }
      s.running = true ∧ (unitB x).shEng < 16 ∧ (s.cl 0).ctx = some 1 ∧
        ((∀ y ∈ (s.cl 0).engines, y.2.queue = []) ∧ (s.cl 0).vq = []) ∧ (s.cl 0).shadows.find? (fun y => y.eng == 2) = some (unitB x) ∧ (unitB x).engs.any (s.unitHeld 0) = false ∧
        (((unitB x).out (s.get (Reg.mxeChkctl 0) 4 0) []).result = (unitB x).orig ↔ x = [(0, 1)]) := by
    decide +kernel
  obtain ⟨h1, h2, h3, hq, h4, h5⟩ := h x hx
  exact ⟨h1, h2, fun n hn => by rw [h3] at hn; cases hn; decide, hq, h4, h5⟩

theorem witness_Tests :
    (∃ c u, (withCmd up 0 0xA0 0 0 0).fetchCmd 0 (· == 0xA0) = some (c, u) ∧ (!u.anyLive && u.get Reg.chkStat 31 31 == 0 && u.chk.selftest.isEmpty) = true) ∧
    (∃ c u, (withCmd live 0 0xA0 0 0 0).fetchCmd 0 (· == 0xA0) = some (c, u) ∧ u.anyLive = true) ∧
    (∀ g ∈ [0, 63], ∃ c u, (withCmd live 7 0xA1 g 0 0).fetchCmd 7 (· == 0xA1) = some (c, u) ∧
      (u.testable (fld c.arg0 5 0) == (g == 63) && u.testState (fld c.arg0 5 0) != 2) = true) ∧
    (∃ c u, (withCmd (testing 63 2) 7 0xA1 63 0 0).fetchCmd 7 (· == 0xA1) = some (c, u) ∧
      (u.testable (fld c.arg0 5 0) && u.testState (fld c.arg0 5 0) == 2) = true) ∧
    (let s := { up with chk := { up.chk with selftest := [ending] } }
     s.running = true ∧ s.chk.selftest = [ending]) ∧
    (∀ b ∈ [0, 1], (State.with up [(Reg.chkStat, b * 2 ^ 30)]).running = true ∧
      (State.with up [(Reg.chkStat, b * 2 ^ 30)]).get Reg.chkStat 30 30 = b) ∧
    ∀ st ∈ [3, 4], let s := ledger 0 [(0, rec0 st)]
      s.enabledPools.contains 0 = true ∧ (0, rec0 st) ∈ (s.pool 0).recs ∧ s.poolOwner 0 ≠ 0 ∧ s.cstate (s.poolOwner 0) ≠ stFree :=
  ⟨cmd_ex (by decide +kernel), cmd_ex (by decide +kernel), fun g hg => cmd_ex (p := fun c u =>
      u.testable (fld c.arg0 5 0) == (g == 63) && u.testState (fld c.arg0 5 0) != 2) (by revert g hg; decide +kernel),
    cmd_ex (by decide +kernel), by decide +kernel⟩

/-- The job context is 1 and has committed step 0; slot states and the epoch register as given. -/
def snappable (st0 st1 : Nat) (epoch : Nat := 0) (commit : Option Nat := some 0) (s : State := bound) : State :=
  (State.with s [(Reg.stpRole, 2 ^ 26), (Reg.snpSlot0 0, st0 * 2 ^ 61), (Reg.snpSlot0 1, st1 * 2 ^ 61), (Reg.snpEpoch, epoch), (Reg.snpArea 0, 4)]).modCtx 1
    fun x => { x with commit := commit }

theorem sum_map_le {α : Type} (f : α → Nat) (b : Nat) (h : ∀ x, f x ≤ b) (l : List α) : (l.map f).sum ≤ b * l.length := by
  induction l with
  | nil => simp
  | cons x l ih =>
    have := h x
    simp only [List.map_cons, List.sum_cons, List.length_cons, Nat.mul_add, Nat.mul_one]
    omega

/-- Object 2 has room in an area of 2 MiB. -/
theorem healthObject_fits (s : State) (c : Nat) : (s.healthObject c).length ≤ 68 * 16384 := by
  unfold State.healthObject
  rw [List.length_flatMap]
  have h := sum_map_le (fun i => (if s.healthOwner c i then leBytes 4 i ++ (s.readPhys 0 (s.healthAddr i) 64).1 else []).length) 68
    (by intro i; split <;> simp [State.readPhys, leBytes]) (List.range healthBin)
  rw [List.length_range] at h
  exact h

theorem areaSmall_empty {s : State} {c : Nat} (h : decide (68 * 16384 + 256 ≤ s.areaHalf 0) = true) : s.areaSmall c [] = false := by
  have := healthObject_fits s c
  have h := of_decide_eq_true h
  simp only [State.areaSmall, State.channelBytes, List.any_eq_false, decide_eq_true_eq, List.filter_nil, List.map_nil, List.sum_nil]
  intro ch _
  split
  · subst ch; omega
  · omega

/-- SNAPTAKE of epoch 6: not refused (`areaSmall_empty`); its slot in use; no newer than the last; and nothing committed. -/
theorem witness_SnapshotTakes :
    (∃ c u, (withCmd (snappable 0 0) 7 0xB0 6 0 0).fetchCmd 7 (· == 0xB0) = some (c, u) ∧
      (let l := u.snapList u.jobCtx (fld c.arg1 47 0)
       !u.takeBusy 0 && u.get Reg.snpEpoch 63 63 == 0 && (u.ctx u.jobCtx).commit == some (u.get Reg.stpStepcnt 47 0) &&
        decide (l.1 ≤ 4096) && l.2.1.isEmpty && decide (68 * 16384 + 256 ≤ l.2.2.areaHalf 0)) = true) ∧
    (∃ c u, (withCmd (snappable 2 0) 7 0xB0 6 0 0).fetchCmd 7 (· == 0xB0) = some (c, u) ∧ u.takeBusy (fld c.arg0 31 0 % 2) = true) ∧
    (∃ c u, (withCmd (snappable 0 0 (2 ^ 63 + 6)) 7 0xB0 6 0 0).fetchCmd 7 (· == 0xB0) = some (c, u) ∧
      (!u.takeBusy (fld c.arg0 31 0 % 2) && u.get Reg.snpEpoch 63 63 == 1 && !newer32 (fld c.arg0 31 0) (u.get Reg.snpEpoch 31 0)) = true) ∧
    (∃ c u, (withCmd (snappable 0 0 0 none) 7 0xB0 6 0 0).fetchCmd 7 (· == 0xB0) = some (c, u) ∧
      (!u.takeBusy (fld c.arg0 31 0 % 2) && u.get Reg.snpEpoch 63 63 == 0 && (u.ctx u.jobCtx).commit == none) = true) := by
  refine ⟨?_, ?_, ?_, ?_⟩ <;> exact cmd_ex (by decide +kernel)

/-- A take of one entry; health record 3, at granule 5, belongs to the job context. -/
def taking : State :=
  let s := State.with (snappable 1 0) [(Reg.cfgHlthbase, 5 * 2 ^ 21)]
  { s with snp := { Snp.init with takes := [(0, ⟨ending, 6, 0, [(3, 0x40000, 256, 0)]⟩)] },
           mem := s.mem.writeN (5 * 2 ^ 21 + 192) (leBytes 4 (2 ^ 31 + 1)) }

/-- Addresses that the take reads, by its list and by object 2, and others. -/
theorem witness_TakeErrors : taking.running = true ∧ taking.snp.takes = [(0, ⟨ending, 6, 0, [(3, 0x40000, 256, 0)]⟩)] ∧
    ∀ x ∈ [(0x40000, true), (0x400FF, true), (0x3FFFF, false), (0x40100, false), (5 * 2 ^ 21 + 191, false), (5 * 2 ^ 21 + 192, true),
        (5 * 2 ^ 21 + 255, true), (5 * 2 ^ 21 + 256, false)],
      (taking.detect none [⟨4, false, false, 0, 7, false, x.1⟩]).takeReads ⟨ending, 6, 0, [(3, 0x40000, 256, 0)]⟩ x.1 = x.2 := by
  decide +kernel

/-- Store port 0 is UP. -/
def stored (s : State) : State := State.with s [(Reg.mdlPctl 0, 3 * 2 ^ 30), (Reg.mdlPstat 0, 2 ^ 31)]

/-- A transaction of store port 0 with XID 3 and its reply. -/
def replied (op req st xid : Nat) (last : Bool := true) (d : Drain := ⟨ending, [], 0⟩) : State :=
  let n : Snp := { Snp.init with txns := [(3, ⟨0, req, 0, [], 4096, 3, 7⟩)], drains := [(0, d)], queries := [(3, ending)],
                                 restore := some ⟨ending, 6, [], 0, [], [], [], [], false⟩ }
  let s := { snappable slDraining 0 with snp := n }
  received s (parcel op xid 0 last (leBytes 4 0 ++ leBytes 13 1 ++ [BitVec.ofNat 8 st] ++ leBytes 14 0)) 0

/-- It is UP, and full. -/
def full (s : State) : State := { stored s with snp := { s.snp with txns := (List.range 256).map fun i => (i, ⟨0, 0x26, 0, [], 0, 0, i⟩) } }

theorem witness_Drains :
    (∀ st ∈ [slHeld, slIncomplete, slDraining], ∃ c u, (withCmd (snappable st 0) 7 0xB1 0 0 0).fetchCmd 7 (· == 0xB1) = some (c, u) ∧
      (u.slotState (c.arg0 % 2) == st && u.storeUp.isEmpty) = true) ∧
    (∃ c u, (withCmd (stored (snappable slHeld 0)) 7 0xB1 0 0 0).fetchCmd 7 (· == 0xB1) = some (c, u) ∧
      (u.slotState (c.arg0 % 2) == slHeld && !u.storeUp.isEmpty) = true) ∧
    (∀ st ∈ [stOk, stBusy], ∃ p u, Arrives (replied 0x21 0x20 st 3) 0 0x21 anyPacket p u ∧
      (p.status == st && decide (u.txnFor 0 p 0x20 = some ⟨0, 0x20, 0, [], 4096, 3, 7⟩) && (Tab.find u.snp.drains 0).isSome) = true) ∧
    (∃ p u, Arrives (replied 0x25 0x24 0 3) 0 0x25 anyPacket p u ∧
      (decide (u.txnFor 0 p 0x24 = some ⟨0, 0x24, 0, [], 4096, 3, 7⟩) && (Tab.find u.snp.drains 0).isSome) = true) ∧
    (∀ x ∈ [(0x21, 0x20), (0x25, 0x24), (0x23, 0x22), (0x27, 0x26)], ∃ p u, Arrives (replied x.1 x.2 0 4) 0 x.1 anyPacket p u ∧
      (u.txnFor 0 p x.2).isNone = true) ∧
    ∃ p u, Arrives (replied 0x27 0x26 0 3) 0 0x27 anyPacket p u ∧ ((u.txnFor 0 p 0x26).isSome &&
      decide (Tab.find u.snp.queries p.xid = some ending) && p.status != stStale) = true := by
  refine ⟨fun st h => cmd_ex (p := fun c u => u.slotState (c.arg0 % 2) == st && u.storeUp.isEmpty) ?_, cmd_ex (by decide +kernel),
    fun st h => arrives_ex (q := fun p u => p.status == st && decide (u.txnFor 0 p 0x20 = some ⟨0, 0x20, 0, [], 4096, 3, 7⟩) &&
      (Tab.find u.snp.drains 0).isSome) ?_, arrives_ex (q := fun p u => decide (u.txnFor 0 p 0x24 = some ⟨0, 0x24, 0, [], 4096, 3, 7⟩) &&
      (Tab.find u.snp.drains 0).isSome) (by decide +kernel), fun x h => arrives_ex (q := fun p u => (u.txnFor 0 p x.2).isNone) ?_,
    arrives_ex (q := fun p u => (u.txnFor 0 p 0x26).isSome && decide (Tab.find u.snp.queries p.xid = some ending) && p.status != stStale)
      (by decide +kernel)⟩
  · revert st h; decide +kernel
  · revert st h; decide +kernel
  · revert x h; decide +kernel

/-- RESTORE: refused; verified before; from a slot that is not there; with no store port; and with one. -/
theorem witness_Restores :
    (∃ p u, Arrives (replied 0x23 0x22 stStale 3) 0 0x23 anyPacket p u ∧ ((u.txnFor 0 p 0x22).isSome && u.snp.restore.isSome &&
      p.status == stStale && u.get Reg.snpRstat 55 53 != 1) = true) ∧
    (∃ p u, Arrives (replied 0x23 0x22 0 3 false) 0 0x23 anyPacket p u ∧ ((u.txnFor 0 p 0x22).isSome &&
      u.snp.restore.isSome && p.status != stStale && leAt p.data 4 4 != 0 && !p.last) = true) ∧
    (∃ c u, (withCmd (snappable 0 0 0 none live) 7 0xB2 6 0 0).fetchCmd 7 (· == 0xB2) = some (c, u) ∧ u.restoreBusy = true) ∧
    (∃ c u, (withCmd (State.with (snappable 0 0) [(Reg.snpRstat, 3 * 2 ^ 53 + 6)]) 7 0xB2 6 0 0).fetchCmd 7 (· == 0xB2) = some (c, u) ∧
      (!u.restoreBusy && u.get Reg.snpRstat 55 53 == 3 && u.get Reg.snpRstat 31 0 == fld c.arg0 31 0) = true) ∧
    (∃ c u, (withCmd (snappable 0 0) 7 0xB2 (2 ^ 32 + 6) 0 0).fetchCmd 7 (· == 0xB2) = some (c, u) ∧
      (!u.restoreBusy && u.get Reg.snpRstat 55 53 != 3 && bit c.arg0 32 && (u.slotWith (fld c.arg0 31 0)).isNone) = true) ∧
    (∃ c u, (withCmd (snappable 0 0) 7 0xB2 6 0 0).fetchCmd 7 (· == 0xB2) = some (c, u) ∧
      (!u.restoreBusy && u.get Reg.snpRstat 55 53 != 3 && !bit c.arg0 32 && u.storeUp.isEmpty) = true) ∧
    (∃ c u, (withCmd (stored (snappable 0 0)) 7 0xB2 6 0 0).fetchCmd 7 (· == 0xB2) = some (c, u) ∧
      (!u.restoreBusy && u.get Reg.snpRstat 55 53 != 3 && !bit c.arg0 32 && u.snp.asks.isEmpty && u.storePort == some 0) = true) ∧
    (∃ c u, (withCmd (full (snappable 0 0)) 7 0xB2 6 0 0).fetchCmd 7 (· == 0xB2) = some (c, u) ∧
      (!u.restoreBusy && u.get Reg.snpRstat 55 53 != 3 && !bit c.arg0 32 && !u.storeUp.isEmpty && u.storePort.isNone) = true) ∧
    (let r : Restore := ⟨ending, 6, [], 0, [], [], [], [], true⟩
     let s := { snappable 0 0 with snp := { Snp.init with restore := some r } }
     s.running = true ∧ s.snp.restore = some r ∧ r.ready = true ∧ r.epoch < 2 ^ 32) := by
  refine ⟨arrives_ex (q := fun p u => (u.txnFor 0 p 0x22).isSome && u.snp.restore.isSome && p.status == stStale &&
      u.get Reg.snpRstat 55 53 != 1) (by decide +kernel), arrives_ex (q := fun p u => (u.txnFor 0 p 0x22).isSome &&
      u.snp.restore.isSome && p.status != stStale && leAt p.data 4 4 != 0 && !p.last) (by decide +kernel),
    ?_, ?_, ?_, ?_, ?_, ?_, by decide +kernel⟩ <;> exact cmd_ex (by decide +kernel)

theorem witness_StoreCommands :
    (∀ st ∈ [0, 2, 3], ∃ c u, (withCmd (State.with (snappable 0 0) [(Reg.snpRstat, st * 2 ^ 53)]) 7 0xB3 6 0 0).fetchCmd 7 (· == 0xB3) =
      some (c, u) ∧ (u.get Reg.snpRstat 55 53 == st) = true) ∧
    (∃ c u, (withCmd up 7 0xB4 6 0 0).fetchCmd 7 (· == 0xB4) = some (c, u) ∧ u.storeUp.isEmpty = true) ∧
    (∃ c u, (withCmd (full up) 7 0xB4 6 0 0).fetchCmd 7 (· == 0xB4) = some (c, u) ∧ (!u.storeUp.isEmpty && u.storePort.isNone) = true) ∧
    (∃ c u, (withCmd (stored up) 7 0xB4 6 0 0).fetchCmd 7 (· == 0xB4) = some (c, u) ∧ (u.storePort == some 0 && u.snp.asks.isEmpty) = true) ∧
    up.running = true ∧ up.snp.txns = [] ∧
    ∀ n ∈ [0, 3], let x : Txn := ⟨0, 0x26, 0, [], 0, n, 7⟩
      let y : Txn := ⟨0, 0x20, 0, [], 4096, 0, 8⟩
      let s := { stored up with snp := { Snp.init with txns := [(1, y), (3, x)], queries := [(3, ending)] } }
      s.running = true ∧ Tab.find s.snp.txns 3 = some x ∧ (3, x) ∈ s.snp.txns ∧ (∀ z ∈ s.snp.txns, z ≠ (3, x) → x.sent < z.2.sent) ∧ Tab.find s.snp.queries 3 = some ending :=
  ⟨fun st h => cmd_ex (p := fun _ u => u.get Reg.snpRstat 55 53 == st) (by revert st h; decide +kernel), cmd_ex (by decide +kernel),
    cmd_ex (by decide +kernel), cmd_ex (by decide +kernel), by decide +kernel⟩

/-! ### Power, boot and the ports -/

/-- A state of power, with the low-power state that it enters or leaves. -/
def powered (st low : Nat) (s : State := up) : State :=
  { State.with s [(Reg.pwrStat, st * 2 ^ 29)] with pwr := { s.pwr with low := low } }

/-- Partition 0 asks for a boost, and for an operating point. -/
def boosting : State := { up with pwr := { up.pwr with boosts := [⟨0, [0], 20, 1, false, false⟩], switch := some ⟨2, [1]⟩ } }

theorem witness_PowerControl :
    (up.pwrAlive = true ∧ up.capInForce < 4000 ∧ 0 ≤ up.capInForce ∧ up.pwr.hot = []) ∧
    (up.idle 63 = true ∧ ∀ n ∈ [0, 5], let s := live.modCl 0 fun c => { c with pool := n }
      s.running = true ∧ s.idle 0 = false ∧ s.unitHeld 0 16 = false ∧ (s.cl 0).pool = n ∧ s.unitActive 0 16 = false ∧
        { s with flights := [(0, { flight0 0x40 true with unit := .vector })] }.unitActive 0 16 = true ∧
        (s.modCl 0 fun c => { c with shadows := [unitB [(0, 1)]] }).unitActive 0 9 = true) ∧
    (∀ v ∈ [0, 15], up.Up ∧ (v < 16 ∧ (v / 4 = 3 ↔ v = 15))) ∧
    (let s := { up with pwr := { up.pwr with switch := some ⟨3, []⟩ } }
     s.pwrAlive = true ∧ s.pwr.switch = some ⟨3, []⟩) ∧
    (let s := { up with pwr := { up.pwr with switch := some ⟨3, [0]⟩, boosts := [⟨0, [0], 20, 12, true, false⟩] } }
     s.pwrAlive = true ∧ s.pwr.switch = some ⟨3, [0]⟩ ∧ 0 ∈ s.boostedDies ∧ 0 ∉ s.pwr.settled) ∧
    (boosting.pwrAlive = true ∧ boosting.pwr.switch = some ⟨2, [1]⟩ ∧ ∃ b ∈ boosting.pwr.boosts, b.part = 0 ∧ b.started = false ∧ 1 ≤ b.age ∧ b.lead < 10 * (b.age + 1) + 20) ∧
    (let s := { up with pwr := { up.pwr with boosts := [⟨0, [0], 20, 12, true, false⟩] } }
     s.pwrAlive = true ∧ s.pwr.switch = none ∧ 0 ∈ s.boostedDies ∧ 0 ∉ s.pwr.settled ∧
       ∃ b ∈ s.pwr.boosts, b.part = 0 ∧ b.lead + 100 < 10 * (b.age + 1)) ∧
    (capOk (fld (0x4B0 + 0xBB8 * 2 ^ 16) 15 0) = true ∧ capOk (fld (0x4B0 + 0xBB8 * 2 ^ 16) 31 16) = true ∧ capOk (fld 0x4AF 15 0) = false) ∧
    (up.running = true ∧ 5 ≤ up.sec.bootStep ∧ up.pins.vio = true ∧ up.pins.pwrgood = true ∧ State.reset.pins.vio = false ∧
      State.reset.pins.pwrgood = false) ∧
    (let s := { up with pwr := { up.pwr with stretched := [3] } }
     s.running = true ∧ 3 ∈ s.pwr.stretched) ∧
    (live.running = true ∧ live.unitWorks 0 16 = false ∧ live.parkingAt 0 = false ∧ 16 ∉ (live.cl 0).inactive) ∧
    (let s := { (live.modCl 0 fun c => { c with inactive := [16] }) with flights := [(0, { flight0 0x40 false with unit := .vector })] }
     s.running = true ∧ (0, 16) ∈ s.waitingUnits 0) := by
  refine ⟨by decide +kernel, by decide +kernel, fun v hv => up_and ?_, by decide +kernel⟩
  revert v hv; decide +kernel

theorem anyCmd_ex {s : State} {q : Nat} {acc : Nat → Bool} {p : Cmd → State → Bool}
    (h : (match s.fetchAny q acc with
      | some x => p x.1 x.2
      | none => false) = true) : ∃ c u, s.fetchAny q acc = some (c, u) ∧ p c u = true := by
  split at h
  · rename_i x hx
    exact ⟨x.1, x.2, hx, h⟩
  · cases h

/-- A SETSTATE to each state, in Active and in Parked; with a context live; and while a drain is under way. -/
theorem witness_SetState :
    (∀ st ∈ [0, 1], ∀ target ∈ [0, 1, 2, 3], ∃ c u, (withCmd (powered st 1) 0 0xC0 target 0 0).fetchAny 0 (· == 0xC0) = some (c, u) ∧
      (fld c.arg0 1 0 == target && !u.anyLive && u.chk.selftest.isEmpty && u.chk.cltests.isEmpty && !u.snapBusy && u.powerState == st &&
        !u.pins.thermtrip && (withCmd (powered st 1) 0 0xC0 target 0 0).powerState == st) = true) ∧
    (∃ c u, (withCmd live 0 0xC0 2 0 0).fetchAny 0 (· == 0xC0) = some (c, u) ∧ (u.anyLive && fld c.arg0 1 0 == 2) = true) ∧
    ∃ c u, (withCmd { up with snp := { Snp.init with drains := [(0, ⟨ending, [], 0⟩)] } } 0 0xC0 2 0 0).fetchAny 0 (· == 0xC0) =
      some (c, u) ∧ (u.snapBusy && fld c.arg0 1 0 == 2 && !u.anyLive) = true := by
  refine ⟨fun st h target ht => anyCmd_ex (p := fun c u => fld c.arg0 1 0 == target && !u.anyLive && u.chk.selftest.isEmpty &&
      u.chk.cltests.isEmpty && !u.snapBusy && u.powerState == st && !u.pins.thermtrip &&
      (withCmd (powered st 1) 0 0xC0 target 0 0).powerState == st) ?_, anyCmd_ex (by decide +kernel), anyCmd_ex (by decide +kernel)⟩
  revert target ht; revert st h; decide +kernel

theorem witness_PowerStates :
    (∀ low ∈ [1, 2], (powered 3 low).powerState = 3 ∧ (powered 3 low).pins.thermtrip = false ∧ (powered 3 low).pwr.low = low ∧
      (powered 3 low).sec.bootStep ≠ 0 ∧ (powered 3 low).pins.vio = true) ∧
    (∀ st ∈ [1, 2], (powered st st).powerState = st ∧ (powered st st).pins.thermtrip = false ∧ 2 ≤ (powered st st).sec.bootStep) ∧
    (∀ low ∈ [1, 2], ∀ k ∈ [none, some 0xBB80BB8], let s := { powered 4 low with pwr := { (powered 4 low).pwr with capWas := k } }
      s.powerState = 4 ∧ s.pins.thermtrip = false ∧ s.pwr.low = low ∧ s.pwr.capWas = k) ∧
    (∀ i, i < 8 → up.get (Reg.senSlot i) 31 31 = 0) ∧
    fld ((State.with up [(Reg.senProg 7 63, 3 * 2 ^ 27)]).reg (Reg.senProg 7 63)) 31 27 = 3 ∧
    ((State.with up [(Reg.senSlot 7, 2 ^ 31)]).get (Reg.senSlot 7) 31 31 = 1 ∧ up.get (Reg.senSlot 7) 31 31 = 0) := by
  decide +kernel

/-- A step of boot. -/
def booting (n : Nat) (rest : Sec → Sec := id) : State := { State.reset with sec := rest { Sec.init with bootStep := n } }

theorem witness_Boot :
    (∀ n ∈ [1, 2, 4], (booting n).sec.bootStep = n ∧ (booting n).pins.thermtrip = false) ∧
    (let s := (booting 3).set Reg.hifBootstat 31 28 phLoading
     s.sec.bootStep = 3 ∧ s.sec.waitPush = false ∧ s.sec.pushing = false ∧ s.phase = phLoading ∧ s.pins.thermtrip = false) ∧
    (let s := (booting 3 fun x => { x with waitPush := true }).set Reg.hifBootstat 31 28 phLoading
     s.sec.bootStep = 3 ∧ s.pins.thermtrip = false ∧ s.powerState = 0 ∧ s.pushAllowed = true) ∧
    ((booting 3 fun x => { x with pushing := true }).sec.pushing = true ∧ (booting 3).pins.thermtrip = false) := by decide +kernel

/-- BLOBAPPLY, FWSLOT and COREUPD with nothing in their way, and with something. -/
theorem witness_Firmware :
    (∀ l ∈ [false, true], ∃ c u, (withCmd (if l then up.set Reg.secBlobstat 31 31 1 else up) 7 0xD0 0 0x100 0).fetchCmd 7 (· == 0xD0) =
      some (c, u) ∧ (u.load Reg.secViolcnt 0 (fld c.arg0 51 0) (fld c.arg1 19 0)).2.locked = l) ∧
    (∃ c u, (withCmd { up with mem := (((up.mem.writeN 0 (leBytes 4 0x4B434642 ++ leBytes 4 1)))) } 7 0xD0 0 0x100 0).fetchCmd 7
      (· == 0xD0) = some (c, u) ∧ (u.load Reg.secViolcnt 0 0 0x100).2.locked = false) ∧
    (∀ b ∈ [none, some (⟨ending, []⟩ : SlotWrite)], ∃ c u, (withCmd { up with sec := { up.sec with slotWrite := b } } 7 0xD1 0 0x100 0).fetchCmd 7
      (· == 0xD1) = some (c, u) ∧ decide (u.sec.slotWrite = b) = true) ∧
    (∃ c u, (withCmd up 7 0xD2 3 0 0x100).fetchCmd 7 (· == 0xD2) = some (c, u) ∧ u.coreBusy (fld c.arg0 2 0) = true) ∧
    (∃ c u, (withCmd (State.with up ((List.range 8).map fun i => (Reg.hifCorever i, 2 ^ 31))) 7 0xD2 3 0 0x100).fetchCmd 7 (· == 0xD2) =
      some (c, u) ∧ (!u.coreBusy (fld c.arg0 2 0)) = true) ∧
    (let s := { up with sec := { up.sec with slotWrite := some ⟨ending, []⟩, coreUpd := some ⟨ending, 7, [5]⟩ } }
     s.running = true ∧ s.sec.slotWrite = some ⟨ending, []⟩ ∧ s.sec.coreUpd = some ⟨ending, 7, [5]⟩) := by
  refine ⟨fun l hl => ?_, ?_, fun b hb => cmd_ex (p := fun _ u => decide (u.sec.slotWrite = b)) ?_, cmd_ex (by decide +kernel),
    cmd_ex (by decide +kernel), by decide +kernel⟩
  · exact (cmd_ex (p := fun c u => (u.load Reg.secViolcnt 0 (fld c.arg0 51 0) (fld c.arg1 19 0)).2.locked == l)
      (by revert l hl; decide +kernel)).imp fun _ h => h.imp fun _ h => ⟨h.1, by simpa using h.2⟩
  · exact (cmd_ex (p := fun _ u => (u.load Reg.secViolcnt 0 0 0x100).2.locked == false) (by decide +kernel)).imp
      fun _ h => h.imp fun _ h => ⟨h.1, by simpa using h.2⟩
  · revert b hb; decide +kernel

/-- The window of one unit at the start of DDR5 channel 0, where 1 GiB is installed. -/
def hdmWord : Nat := 2 ^ 63 + 0x40000000000 + 1

def installed : State := State.with up [(Reg.ddrChstat 0, 2 ^ 31 + 1), (Reg.hifHdmwin, hdmWord)]

theorem witness_HostPorts : (up.Up ∧ (installed.locked = false ∧ (up.set Reg.secBlobstat 31 31 1).locked = true ∧
      hdmWord = 1 * 2 ^ 63 + 0x4000 * 2 ^ 28 + 1 ∧ installed.hdmOk hdmWord = true ∧ up.hdmOk hdmWord = false)) ∧
    (installed.Up ∧ ((∀ i, i < 8 → installed.inHdm (0x40000000000 + i) = true))) ∧
    (up.mgmtUp = true ∧ up.mgmtOk true 0 8 = false ∧ up.mgmtOk false 0 8 = false ∧ up.pins.thermtrip = false ∧ up.powerState = 0) :=
  ⟨up_and (by decide +kernel), up_and (by decide +kernel), by decide +kernel⟩

/-- Pins: power good, RESET_N released, supplies in tolerance, VIO applied; boot held off. -/
def pinned (good rst sup : Bool) (vio : Bool := true) : State :=
  { booting 0 with pins := { (booting 0).pins with pwrgood := good, resetN := rst, supplies := sup, vio := vio } }

theorem witness_ResetsAndPins : up.Up ∧
    ((pinned true true true).pins.pwrgood = true ∧ (pinned false true false).pins.pwrgood = false ∧
      (pinned false true false).pins.thermtrip = false ∧ (pinned false true false).sec.bootStep = 0 ∧
      (pinned false true false).sec.cold = true ∧ (pinned true true false).pins.pwrgood = true ∧
      (pinned true false true).pins.resetN = false ∧ (pinned true false true).pins.supplies = true ∧
      (pinned true false true).pins.vio = true ∧ (pinned false false false false).pins.vio = false ∧
      up.pins.tck = false ∧ tapShifts 4 = true ∧ tapShifts 0 = false) := ⟨up_up, by decide +kernel⟩

/-- A request at a stage of the connection and of the session. -/
def spdmAt (stage session : Nat) (sealed : Bool := true) : State := { up with sec := { up.sec with spdm := ⟨stage, sealed, session, 7, 0⟩ } }

theorem leNat_word (x : BitVec 32) : leNat (leBytes 4 x.toNat) = x.toNat := by
  have := x.isLt
  simp [leBytes, leNat, List.range, List.range.loop]
  omega

/-- NEGOTIATE_ALGORITHMS: one extended entry, that of ML-DSA-65, where `sig`; SHA3-384; and `n` structures, of secp384r1 and
AES-256-GCM. -/
def offer (sig : Bool) (n : Nat) : List Byte :=
  [0x13, 0xE3, BitVec.ofNat 8 n, 0] ++ List.replicate 8 0 ++ leBytes 4 0x10 ++ List.replicate 12 0 ++ [if sig then 1 else 0, 0, 0, 0] ++
    leBytes 4 Config.mldsaEntry.toNat ++ [2, 0x20, 0x10, 0, 3, 0x20, 2, 0]

theorem witness_Offers : (∀ n ∈ [0, 2], offersSignature (offer true n) = true ∧ offersHash (offer true n) = true ∧
      (offersStruct (offer true n) 2 dheSecp384r1 && offersStruct (offer true n) 3 aeadAes256Gcm) = (n == 2)) ∧
    offersSignature (offer false 2) = false ∧ (spdmAt 2 0).hostUp = true ∧ (spdmAt 2 0).sec.spdm.stage = 2 := by
  refine ⟨fun n hn => ⟨?_, ?_⟩, by decide +kernel⟩
  · have h : words4 (leAt (offer true n) 28 1) ((offer true n).drop 32) = [leNat (leBytes 4 Config.mldsaEntry.toNat)] := rfl
    unfold offersSignature
    rw [h, leNat_word]
    simp
  · revert n hn; decide +kernel

theorem witness_Attestation :
    (spdmAt 0 0).hostUp = true ∧ leAt [0x10, 0x84, 0, 0] 0 1 = 0x10 ∧ leAt [0x10, 0x84, 0, 0] 1 1 = 0x84 ∧
    (∀ r ∈ spdmRows [], let m : List Byte := [0x13, BitVec.ofNat 8 r.1, 1, 0]
      leAt m 0 1 = 0x13 ∧ leAt m 1 1 = r.1 ∧ 1 ≤ leAt m 2 1 ∧ leAt m 2 1 ≤ 3 ∧ leAt (0x12 :: m.drop 1) 0 1 ≠ 0x13) ∧
    (∀ x ∈ [(1, 0), (2, 0), (3, 0), (3, 1), (3, 2)], ∀ b ∈ [false, true], (spdmAt x.1 x.2 b).hostUp = true ∧
      (spdmAt x.1 x.2 b).sec.spdm.stage = x.1 ∧ (spdmAt x.1 x.2 b).sec.spdm.session = x.2 ∧ (spdmAt x.1 x.2 b).sec.spdm.sealed = b) ∧
    (∀ x ∈ [(0, false), (2, true), (4, true), (5, true)], let m : List Byte := [0x13, 0xFE, 0, 0, if x.2 then 3 else 4, 0, 0, 0, 0, 8, 0, 0, BitVec.ofNat 8 x.1]
      leAt m 1 1 = 0xFE ∧ kmRequest m = x.2 ∧ kmObject m = x.1) ∧
    kmRequest [0x13, 0xFE, 0, 0, 3, 0, 0, 0, 0, 2, 0, 0, 0] = true ∧ (spdmAt 0 0).sec.bootStep ≠ 1 ∧
    (booting 1).sec.bootStep = 1 ∧ (booting 1).pins.thermtrip = false := by decide +kernel

/-! ### Worked examples of the spec -/

/-- An integer value. -/
def int (z : Int) : Fp := .fin (decide (z < 0)) z.natAbs 0

/-- The KF4 superblock of chapter 04: 81h E1h C6h 12h … 24h 09h 00h 00h 4Eh …. -/
theorem test_kf4_superblock :
    (encodeBlock false 15 (([20, -10, 5, 2, 0, 0, 0, 0, 0, 0, 0, 0, 0, 0, 0, 0, 12, 6, -3, 1, 0, 0, 0, 0, -28, 14, 0, 0, 0, 0, 0, 0].map
      fun z => ⟨int z, .rne⟩))).bytes 15 =
    [0x81, 0xE1, 0xC6, 0x12, 0, 0, 0, 0, 0, 0, 0x24, 0x09, 0, 0, 0x4E, 0, 0, 0] := by decide +kernel

/-- The same superblock reads back as the stored values of the example: 20, −10, 5, 2.5; 12, 6, −3, −0; −28, 14. -/
theorem test_kf4_reads_back :
    ((decodeUnit false 15 [0x81, 0xE1, 0xC6, 0x12, 0, 0, 0, 0, 0, 0, 0x24, 0x09, 0, 0, 0x4E, 0, 0, 0]).1.map fun x => to32 x.1) =
    [0x41A00000, 0xC1200000, 0x40A00000, 0x40200000, 0, 0, 0, 0, 0, 0, 0, 0, 0, 0, 0, 0, 0x41400000, 0x40C00000, 0xC0400000, 0,
      0, 0, 0, 0, 0xC1E00000, 0x41600000, 0, 0, 0, 0, 0, 0] := by decide +kernel

/-- R152: an E4M3 tensor whose history maximum is 3.0 receives E = 6; after a saturation in the next step it receives 4 and CORRECTIONS
gains one. -/
theorem test_scale_update :
    let r := scaleUpdate 3 7 (leBytes 8 0 ++ leBytes 4 0x40400000 ++ leBytes 116 0)
    let r2 := scaleUpdate 3 8 (r.take 4 ++ leBytes 4 1 ++ r.drop 8)
    toSigned 16 (leAt r 0 2) = 6 ∧ leAt r 0x50 4 = 0 ∧ toSigned 16 (leAt r2 0 2) = 4 ∧ leAt r2 0x50 4 = 1 := by decide +kernel

/-- Chapter 07: α of the example, 2^−0.5 = 3F35_04F3h. -/
theorem test_exp2 : to32 (Trans.exp2 (f32 0xBF000000)).1 = 0x3F3504F3 ∧ to32 (Trans.exp2 (f32 0)).1 = 0x3F800000 := by decide +kernel

/-- Chapter 07: l of the example, fp32(fp32(α × 1.5) + 1) = 8,643,035 × 2⁻²², and o, fp32(α × 4 + 1) = 16,057,587 × 2⁻²². -/
theorem test_online_softmax :
    let a := f32 0x3F3504F3
    let l := Fp.rv .fp32 (Fp.add (Fp.rv .fp32 (Fp.mul a (.fin false 3 (-1)))) .one)
    let o := Fp.rv .fp32 (Fp.add (Fp.rv .fp32 (Fp.mul a (.ofNat 4))) .one)
    to32 l = to32 (.fin false 8643035 (-22)) ∧ to32 o = to32 (.fin false 16057587 (-22)) := by decide +kernel

/-- Chapter 10: virtual address 1234_5678_9ABCh of a context whose tables are at 4_0000h and 8_0000h reads 80_7D18_9ABCh, in stack 4. -/
theorem test_translation :
    let s := State.with up [(Reg.ctxPtbase 1, 0x40000)]
    let m := s.mem.writeN (0x40000 + 0x1230) (leBytes 8 (2 ^ 63 + 0x80000))
    let t := { s with mem := m.writeN (0x80000 + 0x11598) (leBytes 8 (2 ^ 63 + 0x807D000000)) }
    t.vaAddr (Reg.seqViolcnt 0) 1 false 0x123456789ABC = some 0x807D189ABC ∧ hbmStack 0x807D189ABC = some 4 ∧ t.vaAddr (Reg.seqViolcnt 0) 1 true 0x123456789ABC = none := by
  decide +kernel

/-- Chapter 11: the clip factor of the example, 64 entries of 64.0, NCONTRIB 63 and MAXNORM 0.5: 3C00_0000h. -/
theorem test_clip_factor :
    (clipFactor false true ((List.replicate 64 (leBytes 4 0x42800000)).flatten ++ leBytes 4 63 ++ leBytes 4 0x3F000000)).map to32 =
      some 0x3C000000 := by decide +kernel

/-- Chapter 11: the first Adam update of the example gives p = 3FFF_DC00h, m = 0.125 and v = 2⁻⁸. -/
theorem test_first_update :
    let b := fun (v : Nat) => f32 (BitVec.ofNat 32 v)
    let sc : Sched := ⟨b 0x3A800000, b 0x3D800000, b 0x3F600000, b 0x3F7F0000, b 0x3E000000, b 0x3B800000, b 0x30800000, true, 0, 40001, 0⟩
    let e := updateOne false ⟨2, sc, b 0x3C000000, rbc false sc.beta1 1, rbc false sc.beta2 1⟩ ⟨b 0x40000000, .zero, .zero, Cnt.none⟩ (.ofNat 128)
    to32 e.p = 0x3FFFDC00 ∧ to32 e.m = 0x3E000000 ∧ to32 e.v = 0x3B800000 ∧ e.cnt = Cnt.none := by decide +kernel

/-- Chapter 15: 1,900 W and the estimate of 59 W for 960 W at 820 mV with 25 mV of boost are within a cap of 1,960 W, and above
one of 1,958 W. -/
theorem test_boost_estimate : ∀ cap ∈ [1960, 1958],
    let s := State.with up [(Reg.pwrCap, cap), (Reg.pwrPower, 1900), (Reg.senCh 0x14, 960), (Reg.senCh 0x18, 1000)]
    s.vset s.opEff = 820 ∧ s.vboost s.opEff = 25 ∧ s.boostTooMuch = (cap == 1958) := by decide +kernel

/-! ### Ill-formed commands: each fails one check -/

theorem test_ill_formed_1 : ∀ i ∈ ([
    .registerWrite (.ctx 4096) 0 8 none, .registerWrite .host (2 ^ 32) 8 none, .registerWrite .host 0 65 (some 0),
    .registerWrite .host 0 8 (some (2 ^ 64)), .violcntClr (.ctx 4096) 0 0, .violcntClr .host (2 ^ 32) 0,
    .violcntClr .host 0 (2 ^ 64), .partmapWrite (.ctx 4096) 0 0, .partmapWrite .host 64 0, .partmapWrite .host 0 (2 ^ 64),
    .partitionReset (.ctx 4096) 0 0, .partitionReset .host 64 0, .partitionReset .host 0 (2 ^ 64),
    .contextEnable (.ctx 4096) 0 0, .contextEnable .host 4096 0, .contextEnable .host 0 (2 ^ 64),
    .contextDisable (.ctx 4096) 0 0, .contextDisable .host 4096 0, .contextDisable .host 0 (2 ^ 64),
    .preempt (.ctx 4096) 0 0, .preempt .host 4096 0, .preempt .host 0 (2 ^ 64), .resume (.ctx 4096) 0 0,
    .resume .host 4096 0, .resume .host 0 (2 ^ 64), .quantumExpiry 64, .contextSelect 64, .parkDrained 4096,
    .cocoonWritten 4096, .cocoonRead 4096, .queEnable (.ctx 4096) 0 0, .queEnable .host 32768 0,
    .queEnable .host 0 (2 ^ 64), .queDisable (.ctx 4096) 0 0, .queDisable .host 32768 0, .queDisable .host 0 (2 ^ 64),
    .doorbell (2 ^ 32) 8 none, .doorbell 0 65 none,
    .doorbell 0 8 (some (2 ^ 64)), .instructionComplete ⟨0, [⟨9, false, false, 0, 0, false, 0⟩]⟩, .nop 32768, .launch 32768, .descw 32768, .fence 32768,
    .reservedCommand 32768, .bra 64, .loop 64, .wait 64, .waitSatisfied 64, .signal 64, .yield 64, .barrier 64,
    .barrierDomain 64, .barrierWave 64, .hint 64, .halt 64, .streamEnd 64, .reservedOpcode 64, .reservedRunHalt 64,
    .tload 64 [], .tload 0 [⟨9, false, false, 0, 0, false, 0⟩]] : List Instr), i.wf = false := by decide +kernel

theorem test_ill_formed_2 : ∀ i ∈ ([
    .tloadScalar 64 [], .tloadScalar 0 [⟨9, false, false, 0, 0, false, 0⟩], .tstore 64 [], .tstore 0 [⟨9, false, false, 0, 0, false, 0⟩],
    .txfer 64 [], .txfer 0 [⟨9, false, false, 0, 0, false, 0⟩], .ttrans 64 [], .ttrans 0 [⟨9, false, false, 0, 0, false, 0⟩], .lpark 64,
    .lfetch 64 [], .lfetch 0 [⟨12288, 0⟩], .ldrop 64, .lpin 64 [], .lpin 0 [⟨12288, 0⟩], .ledgerMoveComplete 1536 ⟨0, []⟩,
    .ledgerMoveComplete 0 ⟨0, [⟨9, false, false, 0, 0, false, 0⟩]⟩,
    .ledgerMoveComplete 0 ⟨2 ^ 21, []⟩, .ledgerWaitRelease 1536, .mma 64 [], .mma 0 [⟨12288, 0⟩], .laminationSpill 64 0 [],
    .laminationSpill 0 16 [], .laminationSpill 0 0 [⟨12288, 0⟩], .trayEntry 64, .trayPop 64, .vchain 64, .vred 64, .vshuf 64,
    .vdwc 64, .ablk ⟨64, []⟩, .ablk ⟨0, [⟨12288, 0⟩]⟩, .rmask 64, .update 64, .updsparse 64, .normsq 64, .normsqClose 64, .fold 64, .cred 64, .cbcast 64,
    .csend 64, .crecv 64, .cvote 64, .scaleupd 64, .health 64, .shadowCompare 64 0 [] [], .shadowCompare 0 16 [] [],
    .shadowCompare 0 0 [⟨12288, 0⟩] [],
    .shadowCompare 0 0 [] [⟨9, false, false, 0, 0, false, 0⟩], .patrolScrub [⟨9, false, false, 0, 0, false, 0⟩], .testDue 64, .infieldTestStart 64,
    .infieldTestDone 64 false, .testOverdue 64, .selftest 32768, .cltest 32768, .poolEnable (.ctx 4096) 0 0,
    .poolEnable .host 1536 0, .poolEnable .host 0 (2 ^ 64), .poolDisable (.ctx 4096) 0 0, .poolDisable .host 1536 0,
    .poolDisable .host 0 (2 ^ 64), .poolaudLatch (.ctx 4096) 0, .poolaudLatch .host 1536] : List Instr), i.wf = false := by decide +kernel

theorem test_ill_formed_3 : ∀ i ∈ ([
    .shraudLatch (.ctx 4096) 0, .shraudLatch .host 12, .shbaseWrite (.ctx 4096) 0 0, .shbaseWrite .host 12 0,
    .shbaseWrite .host 0 (2 ^ 64), .tlbinv 32768, .shattach 32768, .shdetach 32768, .bwshareWrite (.ctx 4096) 0 0,
    .bwshareWrite .host 64 0, .bwshareWrite .host 0 (2 ^ 64), .recalNow (.ctx 4096) 0 0, .recalNow .host 12 0,
    .recalNow .host 0 (2 ^ 64), .recalPeriodic 12, .recalDrift 12 0, .recalDrift 0 4, .recalWindowEnd 12,
    .portEnable (.ctx 4096) 0 0, .portEnable .host 32 0, .portEnable .host 0 (2 ^ 64), .portDisable (.ctx 4096) 0 0,
    .portDisable .host 32 0, .portDisable .host 0 (2 ^ 64), .storePortSelect (.ctx 4096) 0 0, .storePortSelect .host 32 0,
    .storePortSelect .host 0 (2 ^ 64), .laneTrainingDone 32 8, .laneTrainingDone 0 2, .trainingTimeout 32, .downRetry 32,
    .livenessTimeout 32, .replayTimeout 32, .dataFu 32 (List.replicate 64 0), .dataFu 0 [],
    .controlFu 32 (List.replicate 64 0), .controlFu 0 [], .initFu 32 (List.replicate 64 0), .initFu 0 [], .packetForward 32,
    .join 32, .joinack 32, .heartbeat 32, .memberLost 128, .vote 32, .gvote 32, .answer 32, .bararrive 32, .barrelease 32,
    .bardone 32, .barrierTimeout 64, .rpart 32, .rcount 32, .rresult 32, .rfinal 32, .bdata 32, .sdata 32, .sack 32,
    .swack 32, .smack 32] : List Instr), i.wf = false := by decide +kernel

theorem test_ill_formed_4 : ∀ i ∈ ([
    .srdata 32, .sqinfo 32, .snaptake 32768, .snapdrain 32768, .restore 32768, .snpverify 32768, .stquery 32768,
    .governorEpoch (2 ^ 16) [], .governorEpoch 0 (List.replicate 65 0), .governorEpoch 0 [2 ^ 16], .tokenTake 64 0,
    .tokenTake 0 17, .tokaudLatch (.ctx 4096), .operatingPointSet (.ctx 4096) 0, .operatingPointSet .host (2 ^ 64),
    .rampLimitSet (.ctx 4096) 0, .rampLimitSet .host (2 ^ 64), .capWrite (.ctx 4096) 0, .capWrite .host (2 ^ 64),
    .thermalTrip 32 0, .thermalTrip 0 (2 ^ 16), .droopTrip 4, .stretchEnd 4 0, .unitInactive 64 0, .unitInactive 0 17,
    .boostStart 64, .boostEnd 64, .setstate 32768, .i3cWake (2 ^ 64), .sentinelTick (List.replicate 65 0),
    .sentinelTick [2 ^ 32], .senSlotEnable (.ctx 4096) 0 0, .senSlotEnable .host 8 0, .senSlotEnable .host 0 (2 ^ 64),
    .senCtlCapclr (.ctx 4096) 0, .senCtlCapclr .host (2 ^ 64), .senEventPop (.ctx 4096), .chkEventPop (.ctx 4096),
    .credaudLatch (.ctx 4096) 0 0, .credaudLatch .host 32 0, .credaudLatch .host 0 4, .baraudLatch (.ctx 4096),
    .contribLatch (.ctx 4096), .blobapply 32768, .fwslot 32768, .coreupd 32768, .pushGo (.ctx 4096) 0,
    .pushGo .host (2 ^ 64), .hdmwinWrite (.ctx 4096) 0, .hdmwinWrite .host (2 ^ 64), .hdmAccess false (2 ^ 52) 8 0,
    .hdmAccess false 0 2 0, .hdmAccess false 0 8 (2 ^ 64), .i3cTransaction false (2 ^ 52) 8 0, .i3cTransaction false 0 2 0,
    .i3cTransaction false 0 8 (2 ^ 64), .hifResetCold (.ctx 4096) 0, .hifResetCold .host (2 ^ 64),
    .hifResetWarm (.ctx 4096) 0, .hifResetWarm .host (2 ^ 64)] : List Instr), i.wf = false := by decide +kernel

theorem test_ill_formed_5 : ∀ i ∈ ([
    .resetNDeassert 4, .getVersion (List.replicate 4097 0), .getCapabilities (List.replicate 4097 0),
    .negotiateAlgorithms (List.replicate 4097 0), .getDigests (List.replicate 4097 0),
    .getCertificate (List.replicate 4097 0), .challenge (List.replicate 4097 0), .getMeasurements (List.replicate 4097 0),
    .keyExchange (List.replicate 4097 0), .finish (List.replicate 4097 0), .keyUpdate (List.replicate 4097 0),
    .spdmHeartbeat (List.replicate 4097 0), .endSession (List.replicate 4097 0), .vendorDefined (List.replicate 4097 0),
    .regionPathFailure 1536 false, .voltageWriteComplete 4, .configurationRequest false (2 ^ 52) 8 0,
    .configurationRequest false 0 65 0, .configurationRequest false 0 8 (2 ^ 64), .doeDiscovery (List.replicate 4097 0),
    .cdatRequest (List.replicate 4097 0), .selftestComplete [⟨1, false, false, 0, 0, false, 0⟩], .malformedPacket 32,
    .reservedFu 32 (List.replicate 64 0), .reservedFu 0 [], .controlFuSend 32] : List Instr), i.wf = false := by decide +kernel

end Tests

end Sys2Proof
end

section
/-! Every command answers a next state, and a step takes one command from the queue (R17, R85). -/

namespace Sys2Proof

namespace Machine

/-- Every command answers a next state, and keeps what Laws/Keeps.lean names. -/
theorem exec_keeps {s₀ s : State} (h : Keeps s₀ s) (i : Instr) : ∃ t, exec i s = .next t ∧ Keeps s₀ t := by
  cases i with
  | registerWrite o off size v => exact execRegisterWrite_keeps h o off size v
  | violcntClr o off v => exact execViolcntClr_keeps h o off v
  | partmapWrite o p v => exact execPartmapWrite_keeps h o p v
  | partitionReset o p v => exact execPartitionReset_keeps h o p v
  | contextEnable o n v => exact execContextEnable_keeps h o n v
  | contextDisable o n v => exact execContextDisable_keeps h o n v
  | preempt o n v => exact execPreempt_keeps h o n v
  | resume o n v => exact execResume_keeps h o n v
  | quantumExpiry p => exact execQuantumExpiry_keeps h p
  | contextSelect p => exact execContextSelect_keeps h p
  | parkDrained n => exact execParkDrained_keeps h n
  | cocoonWritten n => exact execCocoonWritten_keeps h n
  | cocoonRead n => exact execCocoonRead_keeps h n
  | queEnable o q v => exact execQueEnable_keeps h o q v
  | queDisable o q v => exact execQueDisable_keeps h o q v
  | doorbell off size v => exact execDoorbell_keeps h off size v
  | nop q => exact execNop_keeps h q
  | launch q => exact execLaunch_keeps h q
  | descw q => exact execDescw_keeps h q
  | fence q => exact execFence_keeps h q
  | reservedCommand q => exact execReservedCommand_keeps h q
  | bra g => exact execBra_keeps h g
  | loop g => exact execLoop_keeps h g
  | wait g => exact execWait_keeps h g
  | waitSatisfied g => exact execWaitSatisfied_keeps h g
  | signal g => exact execSignal_keeps h g
  | signalRelease f => exact execSignalRelease_keeps h f
  | yield g => exact execYield_keeps h g
  | barrier g => exact execBarrier_keeps h g
  | barrierDomain g => exact execBarrierDomain_keeps h g
  | barrierWave p => exact execBarrierWave_keeps h p
  | hint g => exact execHint_keeps h g
  | halt g => exact execHalt_keeps h g
  | streamEnd g => exact execStreamEnd_keeps h g
  | reservedOpcode g => exact execReservedOpcode_keeps h g
  | reservedRunHalt g => exact execReservedRunHalt_keeps h g
  | instructionComplete f => exact execInstructionComplete_keeps h f
  | tload g events => exact execTload_keeps h g events
  | tloadScalar g events => exact execTloadScalar_keeps h g events
  | tstore g events => exact execTstore_keeps h g events
  | txfer g events => exact execTxfer_keeps h g events
  | ttrans g events => exact execTtrans_keeps h g events
  | lpark g => exact execLpark_keeps h g
  | lfetch g flips => exact execLfetch_keeps h g flips
  | ldrop g => exact execLdrop_keeps h g
  | lpin g flips => exact execLpin_keeps h g flips
  | ledgerMoveComplete k r => exact execLedgerMoveComplete_keeps h k r
  | ledgerWaitRelease k => exact execLedgerWaitRelease_keeps h k
  | mma g flips => exact execMma_keeps h g flips
  | laminationSpill g e flips => exact execLaminationSpill_keeps h g e flips
  | trayEntry g => exact execTrayEntry_keeps h g
  | trayPop g => exact execTrayPop_keeps h g
  | vchain g => exact execVchain_keeps h g
  | vred g => exact execVred_keeps h g
  | vshuf g => exact execVshuf_keeps h g
  | vdwc g => exact execVdwc_keeps h g
  | ablk g => exact execAblk_keeps h g
  | rmask g => exact execRmask_keeps h g
  | update g => exact execUpdate_keeps h g
  | updsparse g => exact execUpdsparse_keeps h g
  | normsq g => exact execNormsq_keeps h g
  | normsqClose g => exact execNormsqClose_keeps h g
  | fold g => exact execFold_keeps h g
  | cred g => exact execCred_keeps h g
  | cbcast g => exact execCbcast_keeps h g
  | csend g => exact execCsend_keeps h g
  | crecv g => exact execCrecv_keeps h g
  | cvote g => exact execCvote_keeps h g
  | scaleupd g => exact execScaleupd_keeps h g
  | health g => exact execHealth_keeps h g
  | shadowCompare g e flips events => exact execShadowCompare_keeps h g e flips events
  | drainReset => exact execDrainReset_keeps h
  | patrolScrub events => exact execPatrolScrub_keeps h events
  | testDue g => exact execTestDue_keeps h g
  | infieldTestStart g => exact execInfieldTestStart_keeps h g
  | infieldTestDone g pass => exact execInfieldTestDone_keeps h g pass
  | testOverdue g => exact execTestOverdue_keeps h g
  | selftest q => exact execSelftest_keeps h q
  | cltest q => exact execCltest_keeps h q
  | poolEnable o k v => exact execPoolEnable_keeps h o k v
  | poolDisable o k v => exact execPoolDisable_keeps h o k v
  | poolaudLatch o k => exact execPoolaudLatch_keeps h o k
  | shraudLatch o t => exact execShraudLatch_keeps h o t
  | shbaseWrite o t v => exact execShbaseWrite_keeps h o t v
  | tlbinv q => exact execTlbinv_keeps h q
  | shattach q => exact execShattach_keeps h q
  | shdetach q => exact execShdetach_keeps h q
  | bwshareWrite o p v => exact execBwshareWrite_keeps h o p v
  | recalNow o t v => exact execRecalNow_keeps h o t v
  | recalPeriodic t => exact execRecalPeriodic_keeps h t
  | recalDrift t group => exact execRecalDrift_keeps h t group
  | recalWindowEnd t => exact execRecalWindowEnd_keeps h t
  | portEnable o m v => exact execPortEnable_keeps h o m v
  | portDisable o m v => exact execPortDisable_keeps h o m v
  | storePortSelect o m v => exact execStorePortSelect_keeps h o m v
  | laneTrainingDone m lanes => exact execLaneTrainingDone_keeps h m lanes
  | trainingTimeout m => exact execTrainingTimeout_keeps h m
  | downRetry m => exact execDownRetry_keeps h m
  | livenessTimeout m => exact execLivenessTimeout_keeps h m
  | replayTimeout m => exact execReplayTimeout_keeps h m
  | dataFu m fu => exact execDataFu_keeps h m fu
  | controlFu m fu => exact execControlFu_keeps h m fu
  | initFu m fu => exact execInitFu_keeps h m fu
  | packetForward m => exact execPacketForward_keeps h m
  | join m => exact execJoin_keeps h m
  | joinack m => exact execJoinack_keeps h m
  | heartbeat m => exact execHeartbeat_keeps h m
  | heartbeatSend => exact execHeartbeatSend_keeps h
  | memberLost r => exact execMemberLost_keeps h r
  | vote m => exact execVote_keeps h m
  | voteTimeout => exact execVoteTimeout_keeps h
  | gvote m => exact execGvote_keeps h m
  | answer m => exact execAnswer_keeps h m
  | cvoteTimeout => exact execCvoteTimeout_keeps h
  | bararrive m => exact execBararrive_keeps h m
  | barrelease m => exact execBarrelease_keeps h m
  | bardone m => exact execBardone_keeps h m
  | barrierTimeout g => exact execBarrierTimeout_keeps h g
  | rpart m => exact execRpart_keeps h m
  | rcount m => exact execRcount_keeps h m
  | rresult m => exact execRresult_keeps h m
  | rfinal m => exact execRfinal_keeps h m
  | childTimeout c => exact execChildTimeout_keeps h c
  | bdata m => exact execBdata_keeps h m
  | sdata m => exact execSdata_keeps h m
  | sack m => exact execSack_keeps h m
  | swack m => exact execSwack_keeps h m
  | smack m => exact execSmack_keeps h m
  | srdata m => exact execSrdata_keeps h m
  | sqinfo m => exact execSqinfo_keeps h m
  | storeTimeout => exact execStoreTimeout_keeps h
  | snaptake q => exact execSnaptake_keeps h q
  | takeComplete => exact execTakeComplete_keeps h
  | snapdrain q => exact execSnapdrain_keeps h q
  | restore q => exact execRestore_keeps h q
  | restoreComplete => exact execRestoreComplete_keeps h
  | snpverify q => exact execSnpverify_keeps h q
  | stquery q => exact execStquery_keeps h q
  | governorEpoch power temps => exact execGovernorEpoch_keeps h power temps
  | tokenTake g u => exact execTokenTake_keeps h g u
  | tokaudLatch o => exact execTokaudLatch_keeps h o
  | operatingPointSet o v => exact execOperatingPointSet_keeps h o v
  | rampLimitSet o v => exact execRampLimitSet_keeps h o v
  | opSwitchComplete => exact execOpSwitchComplete_keeps h
  | capWrite o v => exact execCapWrite_keeps h o v
  | caplimN level => exact execCaplimN_keeps h level
  | thermalTrip die temp => exact execThermalTrip_keeps h die temp
  | droopTrip die => exact execDroopTrip_keeps h die
  | stretchEnd die cycles => exact execStretchEnd_keeps h die cycles
  | unitInactive g u => exact execUnitInactive_keeps h g u
  | activationGrant => exact execActivationGrant_keeps h
  | boostStart p => exact execBoostStart_keeps h p
  | boostEnd p => exact execBoostEnd_keeps h p
  | setstate q => exact execSetstate_keeps h q
  | lowPowerEntered => exact execLowPowerEntered_keeps h
  | senWake level => exact execSenWake_keeps h level
  | i3cWake v => exact execI3cWake_keeps h v
  | wakeComplete => exact execWakeComplete_keeps h
  | sentinelTick samples => exact execSentinelTick_keeps h samples
  | senSlotEnable o r v => exact execSenSlotEnable_keeps h o r v
  | senCtlCapclr o v => exact execSenCtlCapclr_keeps h o v
  | senEventPop o => exact execSenEventPop_keeps h o
  | chkEventPop o => exact execChkEventPop_keeps h o
  | credaudLatch o m l => exact execCredaudLatch_keeps h o m l
  | baraudLatch o => exact execBaraudLatch_keeps h o
  | contribLatch o => exact execContribLatch_keeps h o
  | blobapply q => exact execBlobapply_keeps h q
  | fwslot q => exact execFwslot_keeps h q
  | coreupd q => exact execCoreupd_keeps h q
  | pushGo o v => exact execPushGo_keeps h o v
  | pushComplete => exact execPushComplete_keeps h
  | bootStepComplete => exact execBootStepComplete_keeps h
  | hdmwinWrite o v => exact execHdmwinWrite_keeps h o v
  | hdmAccess write addr size v => exact execHdmAccess_keeps h write addr size v
  | i3cTransaction write addr size v => exact execI3cTransaction_keeps h write addr size v
  | hifResetCold o v => exact execHifResetCold_keeps h o v
  | hifResetWarm o v => exact execHifResetWarm_keeps h o v
  | pwrgoodDeassert => exact execPwrgoodDeassert_keeps h
  | pwrgoodAssert => exact execPwrgoodAssert_keeps h
  | resetNAssert => exact execResetNAssert_keeps h
  | resetNDeassert bootsrc => exact execResetNDeassert_keeps h bootsrc
  | cxlConventionalReset => exact execCxlConventionalReset_keeps h
  | getVersion msg => exact execGetVersion_keeps h msg
  | getCapabilities msg => exact execGetCapabilities_keeps h msg
  | negotiateAlgorithms msg => exact execNegotiateAlgorithms_keeps h msg
  | getDigests msg => exact execGetDigests_keeps h msg
  | getCertificate msg => exact execGetCertificate_keeps h msg
  | challenge msg => exact execChallenge_keeps h msg
  | getMeasurements msg => exact execGetMeasurements_keeps h msg
  | keyExchange msg => exact execKeyExchange_keeps h msg
  | finish msg => exact execFinish_keeps h msg
  | keyUpdate msg => exact execKeyUpdate_keeps h msg
  | spdmHeartbeat msg => exact execSpdmHeartbeat_keeps h msg
  | endSession msg => exact execEndSession_keeps h msg
  | vendorDefined msg => exact execVendorDefined_keeps h msg
  | regionPathFailure k host => exact execRegionPathFailure_keeps h k host
  | supplyInTolerance => exact execSupplyInTolerance_keeps h
  | voltageWriteComplete die => exact execVoltageWriteComplete_keeps h die
  | configurationRequest write addr size v => exact execConfigurationRequest_keeps h write addr size v
  | doeDiscovery msg => exact execDoeDiscovery_keeps h msg
  | cdatRequest msg => exact execCdatRequest_keeps h msg
  | boundaryScan tck tms tdi trst => exact execBoundaryScan_keeps h tck tms tdi trst
  | fwslotComplete => exact execFwslotComplete_keeps h
  | coreupdComplete => exact execCoreupdComplete_keeps h
  | selftestComplete failed => exact execSelftestComplete_keeps h failed
  | malformedPacket m => exact execMalformedPacket_keeps h m
  | reservedFu m fu => exact execReservedFu_keeps h m fu
  | controlFuSend m => exact execControlFuSend_keeps h m

/-- A step with a command at the front takes it from the queue and runs it. -/
theorem step_cons (s : State) {c : Instr} {rest : List Instr} (h : s.pending = c :: rest) :
    step s = exec c { s with pending := rest } := by
  simp [step, h]

/-- A step with no command waiting idles. -/
theorem step_nil (s : State) (h : s.pending = []) : step s = .next s := by
  simp [step, h]

/-- Settles O3: a command keeps the queue that it finds, and the step has taken the command itself from the front. -/
theorem everyStepCompletes : Obligations.EveryStepCompletes := by
  intro s
  cases hp : s.pending with
  | nil => exact ⟨s, step_nil s hp, hp⟩
  | cons c rest =>
    obtain ⟨t, ht, hk⟩ := exec_keeps (Keeps.refl { s with pending := rest }) c
    exact ⟨t, (step_cons s hp).trans ht, hk.pending⟩

end Machine

end Sys2Proof
end

section
/-! A write of a register by the access types of its fields (R13), and what counting a discarded access changes (R86). -/

namespace Sys2Proof

/-! ### Masks of bits -/

/-- The complement of a mask within 64 bits. -/
theorem testBit_complement (m i : Nat) (hm : m < 2 ^ 64) (hi : i < 64) : (2 ^ 64 - 1 - m).testBit i = !m.testBit i := by
  rw [show 2 ^ 64 - 1 - m = 2 ^ 64 - (m + 1) by omega, Nat.testBit_two_pow_sub_succ hm]
  simp [hi]

/-- A field of a number cut to `w` bits, below `w`. -/
theorem fld_mod_two_pow (v hi lo w : Nat) (h : hi < w) : fld (v % 2 ^ w) hi lo = fld v hi lo := by
  apply Nat.eq_of_testBit_eq
  intro i
  rw [testBit_fld, testBit_fld, Nat.testBit_mod_two_pow]
  by_cases hi' : i < hi + 1 - lo
  · simp [show lo + i < w by omega]
  · simp [hi']

/-- Two numbers that agree in the bits of a field agree in the field. -/
theorem fld_congr {a b hi lo : Nat} (h : ∀ i, lo ≤ i → i ≤ hi → a.testBit i = b.testBit i) : fld a hi lo = fld b hi lo := by
  apply Nat.eq_of_testBit_eq
  intro i
  rw [testBit_fld, testBit_fld]
  by_cases hi' : i < hi + 1 - lo
  · rw [h (lo + i) (by omega) (by omega)]
  · simp [hi']

/-- A field whose bits written as 1 have been cleared. -/
theorem fld_cleared {a x v hi lo : Nat} (h : ∀ i, lo ≤ i → i ≤ hi → a.testBit i = (x.testBit i && !v.testBit i)) :
    fld a hi lo = fld x hi lo &&& (2 ^ (hi + 1 - lo) - 1 - fld v hi lo) := by
  have hv := fld_lt v hi lo
  apply Nat.eq_of_testBit_eq
  intro i
  rw [show 2 ^ (hi + 1 - lo) - 1 - fld v hi lo = 2 ^ (hi + 1 - lo) - (fld v hi lo + 1) by omega, Nat.testBit_and,
    Nat.testBit_two_pow_sub_succ hv, testBit_fld, testBit_fld, testBit_fld]
  by_cases hi' : i < hi + 1 - lo
  · simp [hi', h (lo + i) (by omega) (by omega)]
  · simp [hi']

/-! ### Numbers by their digits -/

/-- The number of the digits `d 0`, …, `d (n - 1)` to a base. -/
def ofDigitFn (b : Nat) (d : Nat → Nat) (n : Nat) : Nat := (List.range n).foldl (fun a i => a + d i * b ^ i) 0

theorem ofDigitFn_succ (b : Nat) (d : Nat → Nat) (n : Nat) : ofDigitFn b d (n + 1) = ofDigitFn b d n + d n * b ^ n := by
  simp [ofDigitFn, List.range_succ]

theorem ofDigitFn_lt {b : Nat} {d : Nat → Nat} (hd : ∀ i, d i < b) (n : Nat) : ofDigitFn b d n < b ^ n := by
  induction n with
  | zero => simp [ofDigitFn]
  | succ n ih =>
    rw [ofDigitFn_succ]
    calc ofDigitFn b d n + d n * b ^ n < b ^ n + d n * b ^ n := by omega
      _ = (d n + 1) * b ^ n := by rw [Nat.add_one_mul, Nat.add_comm]
      _ ≤ b * b ^ n := Nat.mul_le_mul_right _ (hd n)
      _ = b ^ (n + 1) := (Nat.pow_succ' ..).symm

/-- Each digit reads back. -/
theorem ofDigitFn_digit {b : Nat} {d : Nat → Nat} (hd : ∀ i, d i < b) {n i : Nat} (hi : i < n) : ofDigitFn b d n / b ^ i % b = d i := by
  have hb : 0 < b := Nat.lt_of_le_of_lt (Nat.zero_le _) (hd 0)
  induction n with
  | zero => omega
  | succ n ih =>
    rw [ofDigitFn_succ]
    rcases Nat.lt_or_eq_of_le (Nat.le_of_lt_succ hi) with hlt | rfl
    · obtain ⟨k, rfl⟩ := Nat.exists_eq_add_of_lt hlt
      rw [show d (i + k + 1) * b ^ (i + k + 1) = b ^ i * (b * (d (i + k + 1) * b ^ k)) by ring, Nat.add_mul_div_left _ _ (Nat.pow_pos hb),
        Nat.add_mul_mod_self_left]
      exact ih hlt
    · rw [Nat.add_mul_div_right _ _ (Nat.pow_pos hb), Nat.div_eq_of_lt (ofDigitFn_lt hd i), Nat.zero_add, Nat.mod_eq_of_lt (hd i)]

/-! ### Access types -/

/-- What a bit of a field takes from the bit written to it, by the field's access type. -/
def Access.bitAfter (acc : Access) (locked old new : Bool) : Bool :=
  match acc with
  | .rw => new
  | .rwl => if locked then old else new
  | .w1c => old && !new
  | .ro => old
  | .wo => old

namespace Machine

/-- The bits of a field's mask are those of the field. -/
theorem testBit_bitsOf (hi lo i : Nat) (h : lo ≤ hi + 1) : (bitsOf hi lo).testBit i = decide (lo ≤ i ∧ i ≤ hi) := by
  have hm : bitsOf hi lo = 2 ^ lo * (2 ^ (hi + 1 - lo) - 1) := by
    rw [bitsOf, Nat.mul_sub, ← Nat.pow_add, Nat.mul_one, Nat.add_sub_cancel' h]
  rw [hm, Nat.testBit_two_pow_mul, Nat.testBit_two_pow_sub_one, Bool.eq_iff_iff]
  simp only [Bool.and_eq_true, decide_eq_true_eq]
  omega

theorem bitsOf_lt (hi lo : Nat) (h : hi < 64) : bitsOf hi lo < 2 ^ 64 := by
  have hp : 2 ^ (hi + 1) ≤ 2 ^ 64 := Nat.pow_le_pow_right (by omega) (by omega)
  have hl := Nat.two_pow_pos lo
  unfold bitsOf
  omega

/-! ### States that differ in registers alone -/

/-- From `s` to `t` nothing but registers has changed. -/
def RegsOnly (s t : State) : Prop := ∃ rs, t = { s with regs := rs }

theorem RegsOnly.refl (s : State) : RegsOnly s s := ⟨s.regs, rfl⟩

theorem RegsOnly.trans {s t u : State} (h : RegsOnly s t) (k : RegsOnly t u) : RegsOnly s u := by
  obtain ⟨_, rfl⟩ := h
  obtain ⟨rs, rfl⟩ := k
  exact ⟨rs, rfl⟩

theorem RegsOnly.rest {s t : State} (h : RegsOnly s t) : { t with regs := s.regs } = s := by
  obtain ⟨_, rfl⟩ := h
  rfl

theorem RegsOnly.setReg (s : State) (off v : Nat) : RegsOnly s (s.setReg off v) := ⟨_, rfl⟩

theorem RegsOnly.set (s : State) (off hi lo v : Nat) : RegsOnly s (s.set off hi lo v) := ⟨_, rfl⟩

/-- A fold of updates of registers. -/
theorem RegsOnly.foldl {α : Type} {f : State → α → State} (hf : ∀ t x, RegsOnly t (f t x)) (l : List α) (s : State) :
    RegsOnly s (l.foldl f s) := by
  induction l generalizing s with
  | nil => exact .refl s
  | cons x rest ih => exact (hf s x).trans (ih (f s x))

/-! ### Counting a discarded access (R86) -/

theorem RegsOnly.violate (s : State) (viol : Nat) (o : Origin) : RegsOnly s (s.violate viol o) := by
  cases o <;> exact ⟨_, rfl⟩

theorem RegsOnly.violateIf (s : State) (b : Bool) (viol : Nat) (o : Origin) : RegsOnly s (s.violateIf b viol o) := by
  cases b
  · exact .refl s
  · exact .violate s viol o

theorem State.reg_violate_ne (s : State) {viol off : Nat} (o : Origin) (h : off ≠ viol) : (s.violate viol o).reg off = s.reg off := by
  cases o <;> simp [State.violate, State.violateN, State.reg_set_ne _ _ _ _ h, State.reg_addSat_ne _ _ _ _ h]

theorem State.reg_violateIf_ne (s : State) (b : Bool) {viol off : Nat} (o : Origin) (h : off ≠ viol) :
    (s.violateIf b viol o).reg off = s.reg off := by
  cases b
  · rfl
  · exact s.reg_violate_ne o h

/-- An access of the host adds one to COUNT, which saturates. -/
theorem State.get_violate_host (s : State) (viol : Nat) : (s.violate viol .host).get viol 15 0 = min 65535 (s.get viol 15 0 + 1) := by
  simp only [State.violate, State.violateN, Nat.one_ne_zero, if_false]
  rw [State.get_set_ne _ _ _ _ _ _ _ (by decide) (by decide) (by decide), State.get_addSat _ _ _ _ _ (by decide) (by decide)]
  omega

theorem State.get_violateIf_host (s : State) (b : Bool) (viol : Nat) :
    (s.violateIf b viol .host).get viol 15 0 = if b then min 65535 (s.get viol 15 0 + 1) else s.get viol 15 0 := by
  cases b
  · rfl
  · exact s.get_violate_host viol

/-- The RWL lock is a bit of SEC.BLOBSTAT. -/
theorem State.locked_congr {s t : State} (h : t.reg Reg.secBlobstat = s.reg Reg.secBlobstat) : t.locked = s.locked := by
  simp only [State.locked, State.get, h]

/-! ### One field (R13) -/

theorem RegsOnly.writeFieldOf (s : State) (off mask v : Nat) (f : RegField) : RegsOnly s (s.writeFieldOf off mask v f) := by
  unfold State.writeFieldOf
  cases f.acc with
  | rw => exact .setReg s off _
  | rwl =>
    dsimp only
    split
    · exact .refl s
    · exact .setReg s off _
  | w1c => exact .setReg s off _
  | ro => exact .refl s
  | wo => exact .refl s

theorem State.reg_writeFieldOf_ne (s : State) {off o : Nat} (mask v : Nat) (f : RegField) (h : o ≠ off) :
    (s.writeFieldOf off mask v f).reg o = s.reg o := by
  unfold State.writeFieldOf
  cases f.acc with
  | rw => exact s.reg_setReg_ne _ h
  | rwl =>
    dsimp only
    split
    · rfl
    · exact s.reg_setReg_ne _ h
  | w1c => exact s.reg_setReg_ne _ h
  | ro => rfl
  | wo => rfl

/-- The register after the write of one field, bit by bit: the field's bits under the mask follow the access type, and all others
stay. -/
theorem State.testBit_writeFieldOf (s : State) (off mask v : Nat) (f : RegField) (i : Nat) (hf : f.lo ≤ f.hi) (hw : f.hi < 64)
    (hi : i < 64) :
    ((s.writeFieldOf off mask v f).reg off).testBit i =
      if mask.testBit i = true ∧ f.lo ≤ i ∧ i ≤ f.hi then f.acc.bitAfter s.locked ((s.reg off).testBit i) (v.testBit i)
      else (s.reg off).testBit i := by
  have hm : mask &&& bitsOf f.hi f.lo < 2 ^ 64 := Nat.and_lt_two_pow _ (bitsOf_lt _ _ hw)
  have hvm : v &&& (mask &&& bitsOf f.hi f.lo) < 2 ^ 64 := Nat.and_lt_two_pow _ hm
  have hb : (mask &&& bitsOf f.hi f.lo).testBit i = decide (mask.testBit i = true ∧ f.lo ≤ i ∧ i ≤ f.hi) := by
    simp [Nat.testBit_and, testBit_bitsOf _ _ _ (Nat.le_succ_of_le hf)]
  have hnew : (((s.reg off &&& (2 ^ 64 - 1 - (mask &&& bitsOf f.hi f.lo))) ||| (v &&& (mask &&& bitsOf f.hi f.lo))) % 2 ^ 64).testBit i =
      if mask.testBit i = true ∧ f.lo ≤ i ∧ i ≤ f.hi then v.testBit i else (s.reg off).testBit i := by
    rw [Nat.testBit_mod_two_pow, Nat.testBit_or, Nat.testBit_and, Nat.testBit_and, testBit_complement _ _ hm hi, hb]
    split <;> simp [*]
  unfold State.writeFieldOf
  cases f.acc with
  | rw => exact (congrArg (Nat.testBit · i) (s.reg_setReg_same off _)).trans hnew
  | rwl =>
    cases hl : s.locked with
    | true => simp [Access.bitAfter]
    | false => simpa [Access.bitAfter, State.reg_setReg_same] using hnew
  | w1c =>
    dsimp only [Access.bitAfter]
    rw [State.reg_setReg_same, Nat.testBit_mod_two_pow, Nat.testBit_and, testBit_complement _ _ hvm hi, Nat.testBit_and, hb]
    split <;> simp [*]
  | ro => simp [Access.bitAfter]
  | wo => simp [Access.bitAfter]

/-- The value of a field after a write of `v`, by its access type. -/
def State.fieldAfter (s : State) (off v : Nat) (f : RegField) : Nat :=
  match f.acc with
  | .rw => fld v f.hi f.lo
  | .rwl => if s.locked then s.get off f.hi f.lo else fld v f.hi f.lo
  | .w1c => s.get off f.hi f.lo &&& (2 ^ (f.hi + 1 - f.lo) - 1 - fld v f.hi f.lo)
  | .ro => s.get off f.hi f.lo
  | .wo => s.get off f.hi f.lo

/-- The field written, where the mask covers it. -/
theorem State.get_writeFieldOf_same (s : State) (off mask v : Nat) (f : RegField) (hf : f.lo ≤ f.hi) (hw : f.hi < 64)
    (hm : ∀ i, i ≤ f.hi → mask.testBit i = true) :
    (s.writeFieldOf off mask v f).get off f.hi f.lo = s.fieldAfter off v f := by
  have hbits : ∀ i, f.lo ≤ i → i ≤ f.hi → ((s.writeFieldOf off mask v f).reg off).testBit i =
      f.acc.bitAfter s.locked ((s.reg off).testBit i) (v.testBit i) := fun i h1 h2 => by
    rw [s.testBit_writeFieldOf off mask v f i hf hw (by omega), if_pos ⟨hm i h2, h1, h2⟩]
  simp only [State.get, State.fieldAfter]
  cases hacc : f.acc <;> rw [hacc] at hbits
  case rw => exact fld_congr hbits
  case rwl => cases hl : s.locked <;> (rw [hl] at hbits; exact fld_congr hbits)
  case w1c => exact fld_cleared hbits
  case ro => exact fld_congr hbits
  case wo => exact fld_congr hbits

/-- A field that does not meet the one written. -/
theorem State.get_writeFieldOf_ne (s : State) (off mask v : Nat) (f : RegField) {hi lo : Nat} (hf : f.lo ≤ f.hi) (hw : f.hi < 64)
    (hi64 : hi < 64) (hd : f.hi < lo ∨ hi < f.lo) : (s.writeFieldOf off mask v f).get off hi lo = s.get off hi lo :=
  fld_congr fun i h1 h2 => by
    rw [s.testBit_writeFieldOf off mask v f i hf hw (by omega), if_neg (by omega)]

/-! ### All fields of a register -/

/-- The fields of a register are within 64 bits and do not meet. -/
structure TidyFields (fs : List RegField) : Prop where
  within : ∀ f ∈ fs, f.lo ≤ f.hi ∧ f.hi < 64
  apart : fs.Pairwise fun f g => f.hi < g.lo ∨ g.hi < f.lo

theorem RegsOnly.writeFields (s : State) (off mask v : Nat) (fs : List RegField) : RegsOnly s (s.writeFields off mask v fs) := by
  unfold State.writeFields
  split
  · exact .refl s
  · exact .foldl (fun t f => .writeFieldOf t off mask v f) fs s

theorem State.reg_writeFields_ne (s : State) {off o : Nat} (mask v : Nat) (fs : List RegField) (h : o ≠ off) :
    (s.writeFields off mask v fs).reg o = s.reg o := by
  unfold State.writeFields
  split
  · rfl
  · induction fs generalizing s with
    | nil => rfl
    | cons f rest ih => exact (ih (s.writeFieldOf off mask v f)).trans (s.reg_writeFieldOf_ne mask v f h)

/-- Fields that meet none of those written keep their value. -/
theorem State.get_foldl_writeFieldOf_ne (off mask v : Nat) {hi lo : Nat} (hi64 : hi < 64) (fs : List RegField)
    (hw : ∀ f ∈ fs, f.lo ≤ f.hi ∧ f.hi < 64) (hd : ∀ f ∈ fs, f.hi < lo ∨ hi < f.lo) (s : State) :
    (fs.foldl (fun t f => t.writeFieldOf off mask v f) s).get off hi lo = s.get off hi lo := by
  induction fs generalizing s with
  | nil => rfl
  | cons f rest ih =>
    obtain ⟨hf, hf64⟩ := hw f List.mem_cons_self
    rw [List.foldl_cons, ih (fun g hg => hw g (List.mem_cons_of_mem f hg)) (fun g hg => hd g (List.mem_cons_of_mem f hg)),
      s.get_writeFieldOf_ne off mask v f hf hf64 hi64 (hd f List.mem_cons_self)]

/-- What a field will take depends on the lock and on the field's own value alone. -/
theorem State.fieldAfter_congr {s t : State} {off v : Nat} {f : RegField} (hg : t.get off f.hi f.lo = s.get off f.hi f.lo)
    (hl : f.acc = .rwl → t.locked = s.locked) : t.fieldAfter off v f = s.fieldAfter off v f := by
  unfold State.fieldAfter
  cases hacc : f.acc with
  | rwl => simp [hl hacc, hg]
  | rw => rfl
  | w1c => simp [hg]
  | ro => exact hg
  | wo => exact hg

/-- Every field that the mask covers takes what its access type says, where the RWL lock is not in the register itself. -/
theorem State.get_foldl_writeFieldOf (off mask v : Nat) {f : RegField} (fs : List RegField) (ht : TidyFields fs) (hmem : f ∈ fs)
    (hm : ∀ i, i ≤ f.hi → mask.testBit i = true) (hlock : f.acc = .rwl → off ≠ Reg.secBlobstat) (s : State) :
    (fs.foldl (fun t f => t.writeFieldOf off mask v f) s).get off f.hi f.lo = s.fieldAfter off v f := by
  induction fs generalizing s with
  | nil => cases hmem
  | cons g rest ih =>
    obtain ⟨hw, hp⟩ := ht
    obtain ⟨hg, hrest⟩ := List.pairwise_cons.mp hp
    obtain ⟨hglo, hg64⟩ := hw g List.mem_cons_self
    have hwrest : ∀ x ∈ rest, x.lo ≤ x.hi ∧ x.hi < 64 := fun x hx => hw x (List.mem_cons_of_mem g hx)
    rw [List.foldl_cons]
    rcases List.mem_cons.mp hmem with rfl | hf
    · rw [State.get_foldl_writeFieldOf_ne off mask v hg64 rest hwrest (fun x hx => (hg x hx).symm),
        s.get_writeFieldOf_same off mask v f hglo hg64 hm]
    · rw [ih ⟨hwrest, hrest⟩ hf]
      refine State.fieldAfter_congr (s.get_writeFieldOf_ne off mask v g hglo hg64 (hwrest f hf).2 (hg f hf)) fun hacc => ?_
      exact State.locked_congr (s.reg_writeFieldOf_ne mask v g (Ne.symm (hlock hacc)))

end Machine

end Sys2Proof
end

section
/-! The write of a register that has no command of its own (R13, R17). -/

namespace Sys2Proof

namespace Machine

/-! ### The register map -/

theorem RegRow.at_mem {rows : List RegRow} {off : Nat} {r : RegRow} (h : RegRow.at? rows off = some r) :
    r ∈ rows ∧ r.base ≤ off := by
  induction rows with
  | nil => cases h
  | cons x rest ih =>
    unfold RegRow.at? at h
    split at h
    · next hx =>
      obtain rfl := Option.some.inj h
      simp only [Bool.and_eq_true, decide_eq_true_eq] at hx
      exact ⟨List.mem_cons_self, hx.1⟩
    · obtain ⟨hm, hb⟩ := ih h
      exact ⟨List.mem_cons_of_mem x hm, hb⟩

/-- The register that starts at an offset is one of its block's table, and its array begins no later. -/
theorem regAt_mem {off : Nat} {r : RegRow} (h : regAt off = some r) : r ∈ regRows off ∧ r.base ≤ off := RegRow.at_mem h

theorem tidyFields_iff (fs : List RegField) : TidyFields fs ↔
    (∀ f ∈ fs, f.lo ≤ f.hi ∧ f.hi < 64) ∧ fs.Pairwise fun f g => f.hi < g.lo ∨ g.hi < f.lo :=
  ⟨fun h => ⟨h.within, h.apart⟩, fun h => ⟨h.1, h.2⟩⟩

/-- Every register of a table has tidy fields. -/
def TidyRows (rows : List RegRow) : Prop := ∀ r ∈ rows, TidyFields r.fields

theorem tidyRows_regRows (off : Nat) : TidyRows (regRows off) := by
  unfold regRows
  dsimp only
  repeat' refine iteInduction (motive := TidyRows) (fun _ => ?_) (fun _ => ?_)
  all_goals
    simp only [TidyRows, tidyFields_iff]
    decide +kernel

theorem tidyFields_regAt {off : Nat} {r : RegRow} (h : regAt off = some r) : TidyFields r.fields :=
  tidyRows_regRows off r (regAt_mem h).1

/-- No field of SEC.BLOBSTAT, which holds the lock, is locked itself. -/
theorem no_rwl_blobstat {r : RegRow} (h : regAt Reg.secBlobstat = some r) : ∀ f ∈ r.fields, f.acc ≠ .rwl := by
  have hd : ∀ f ∈ (rowOf Reg.secBlobstat).fields, f.acc ≠ .rwl := by decide +kernel
  rwa [rowOf, h] at hd

/-- No VIOLCNT is SEC.BLOBSTAT: those of the clusters' and stacks' windows differ from it in their last 16 bits. -/
theorem ownerViol_ne_blobstat (off : Nat) : ownerViol off ≠ some Reg.secBlobstat := by
  unfold ownerViol
  dsimp only
  repeat' refine iteInduction (motive := (· ≠ some Reg.secBlobstat)) (fun _ => ?_) (fun _ => ?_)
  all_goals
    simp [Reg.ctxViolcnt, Reg.queViolcnt, Reg.cfgViolcnt, Reg.clkViolcnt, Reg.pwrViolcnt, Reg.seqViolcnt, Reg.mxeViolcnt, Reg.vecViolcnt,
      Reg.tryViolcnt, Reg.ldgViolcnt, Reg.cdcViolcnt, Reg.hbmViolcnt, Reg.ddrViolcnt, Reg.mdlViolcnt, Reg.colViolcnt, Reg.stpViolcnt,
      Reg.chkViolcnt, Reg.snpViolcnt, Reg.senViolcnt, Reg.secViolcnt, Reg.hifViolcnt, Reg.mgtViolcnt, Reg.secBlobstat] <;> omega

theorem ownerViol_ne_self {off viol : Nat} (h : ownerViol off = some viol) (hv : isViol off = false) : viol ≠ off := by
  rintro rfl
  simp [isViol, h] at hv

/-! ### Registers without a write of their own -/

theorem State.writeCore_isSome (s t : State) (o o' : Origin) (b i off mask v i' off' mask' v' : Nat) :
    (s.writeCore o b i off mask v).isSome = (t.writeCore o' b i' off' mask' v').isSome := by
  unfold State.writeCore
  simp only [apply_ite Option.isSome, Option.isSome_some, Option.isSome_none]

theorem State.writePlatform_isSome (s t : State) (o o' : Origin) (b i j mask v i' j' mask' v' : Nat) :
    (s.writePlatform o b i j mask v).isSome = (t.writePlatform o' b i' j' mask' v').isSome := by
  unfold State.writePlatform
  simp only [apply_ite Option.isSome, Option.isSome_some, Option.isSome_none]

theorem State.writeFabric_isSome (s t : State) (o o' : Origin) (b i j off mask v i' j' off' mask' v' : Nat) :
    (s.writeFabric o b i j off mask v).isSome = (t.writeFabric o' b i' j' off' mask' v').isSome := by
  unfold State.writeFabric
  simp only [apply_ite Option.isSome, Option.isSome_some, Option.isSome_none]

/-- A register without a write of its own is written field by field, and set reserved bits count. -/
theorem State.writeReg_fields (s : State) (o : Origin) {r : RegRow} {off viol : Nat} (mask v : Nat) (ho : ownerViol off = some viol)
    (hv : isViol off = false) (hown : ownWrite r = false) :
    s.writeReg o r off mask v =
      (s.violateIf (v &&& mask != v &&& mask &&& r.usedMask) viol o).writeFields off mask v r.fields := by
  simp only [ownWrite, Bool.or_eq_false_iff] at hown
  obtain ⟨⟨hcore, hplat⟩, hfab⟩ := hown
  have h1 : ∀ (t : State) i, t.writeCore o r.base i off mask v = none := fun t i =>
    Option.isSome_eq_false_iff.mp ((State.writeCore_isSome ..).trans hcore) |> Option.isNone_iff_eq_none.mp
  have h2 : ∀ (t : State) i j, t.writePlatform o r.base i j mask v = none := fun t i j =>
    Option.isSome_eq_false_iff.mp ((State.writePlatform_isSome ..).trans hplat) |> Option.isNone_iff_eq_none.mp
  have h3 : ∀ (t : State) i j, t.writeFabric o r.base i j off mask v = none := fun t i j =>
    Option.isSome_eq_false_iff.mp ((State.writeFabric_isSome ..).trans hfab) |> Option.isNone_iff_eq_none.mp
  simp [State.writeReg, ho, hv, h1, h2, h3]

/-- REGISTER_WRITE of a value, below BAR4. -/
theorem exec_registerWrite_some (s : State) (o : Origin) {off : Nat} (size v : Nat) (h : off < bar4) :
    exec (.registerWrite o off size (some v)) s = .next (s.regWrite o off size v) := by
  simp [exec, execRegisterWrite, Nat.not_le.mpr h]

/-- The host's write of 4 bytes to a register without a write of its own. -/
theorem State.Up.write_fields {s : State} (h : s.Up) {r : RegRow} {off viol : Nat} (v : Nat) (hr : regAt off = some r)
    (ha : off % 4 = 0) (ho : ownerViol off = some viol) (hv : isViol off = false) (hown : ownWrite r = false) :
    s.regWrite .host off 4 v = (s.violateIf (v % 2 ^ 32 != v % 2 ^ 32 &&& r.usedMask) viol .host).writeFields off (2 ^ 32 - 1)
      (v % 2 ^ 32) r.fields := by
  rw [h.write4 hr ha (by rw [ho]; rfl), s.writeReg_fields .host _ _ ho hv hown]
  simp only [Nat.and_two_pow_sub_one_eq_mod, Nat.mod_mod]

/-- A field below bit 32 after a write of 4 bytes. -/
theorem State.get_writeFields_low (s : State) {r : RegRow} {off : Nat} (v : Nat) (hr : regAt off = some r) {f : RegField}
    (hf : f ∈ r.fields) (hlow : f.hi < 32) :
    (s.writeFields off (2 ^ 32 - 1) (v % 2 ^ 32) r.fields).get off f.hi f.lo = s.fieldAfter off v f := by
  have hm : ∀ i, i ≤ f.hi → (2 ^ 32 - 1).testBit i = true := fun i hi => by
    rw [Nat.testBit_two_pow_sub_one, decide_eq_true_eq]
    omega
  have hlock : f.acc = .rwl → off ≠ Reg.secBlobstat := fun hacc hoff => no_rwl_blobstat (hoff ▸ hr) f hf hacc
  rw [State.writeFields, if_neg (by decide), State.get_foldl_writeFieldOf off _ _ r.fields (tidyFields_regAt hr) hf hm hlock s]
  simp only [State.fieldAfter, fld_mod_two_pow v f.hi f.lo 32 hlow]

/-- Settles O7: reserved bits count first, in another register; then each field is written by its access type. -/
theorem registerFields : Obligations.RegisterFields := by
  intro s r off v viol hup hr ha hbar ho hv hown
  have hne : viol ≠ off := ownerViol_ne_self ho hv
  let s1 := s.violateIf (v % 2 ^ 32 != v % 2 ^ 32 &&& r.usedMask) viol .host
  refine ⟨s1.writeFields off (2 ^ 32 - 1) (v % 2 ^ 32) r.fields, ?_, fun f hf hlow => ?_, ?_, ?_, fun o hout => ?_⟩
  · rw [exec_registerWrite_some s .host 4 v hbar, hup.write_fields v hr ha ho hv hown]
  · have hreg : s1.get off f.hi f.lo = s.get off f.hi f.lo := congrArg (fld · f.hi f.lo) (s.reg_violateIf_ne _ .host hne.symm)
    have hlock : s1.locked = s.locked :=
      State.locked_congr (s.reg_violateIf_ne _ .host fun h => ownerViol_ne_blobstat off (ho.trans (congrArg some h.symm)))
    have hval : (s1.writeFields off (2 ^ 32 - 1) (v % 2 ^ 32) r.fields).get off f.hi f.lo = s.fieldAfter off v f := by
      rw [s1.get_writeFields_low v hr hf hlow, State.fieldAfter_congr hreg fun _ => hlock]
    obtain ⟨hi, lo, acc, rst⟩ := f
    cases acc <;> exact hval
  · have hkeep : (s1.writeFields off (2 ^ 32 - 1) (v % 2 ^ 32) r.fields).get viol 15 0 = s1.get viol 15 0 :=
      congrArg (fld · 15 0) (s1.reg_writeFields_ne _ _ _ hne)
    rw [hkeep, s.get_violateIf_host]
    by_cases he : v % 2 ^ 32 = v % 2 ^ 32 &&& r.usedMask
    · rw [if_pos he, if_neg (by simpa using he)]
    · rw [if_neg he, if_pos (by simpa using he)]
  · exact ((RegsOnly.violateIf s _ viol .host).trans (.writeFields s1 off _ _ _)).rest
  · simp only [Bool.or_eq_false_iff, beq_eq_false_iff_ne] at hout
    rw [s1.reg_writeFields_ne _ _ _ hout.1, s.reg_violateIf_ne _ .host hout.2]

end Machine

end Sys2Proof
end

section
/-! What reads of registers, of BAR2 and of the MSI-X window answer (R13, R17, R86, R450–R453). -/

namespace Sys2Proof

namespace Machine

/-! ### The register that an access reaches -/

/-- REGISTER_WRITE without a value, below BAR4: a read. -/
theorem exec_registerWrite_none (s : State) (o : Origin) {off : Nat} (size : Nat) (h : off < bar4) :
    exec (.registerWrite o off size none) s = .next (s.regRead o off size) := by
  simp [exec, execRegisterWrite, Nat.not_le.mpr h]

theorem regPart_of_regAt {off : Nat} {r : RegRow} (h : regAt off = some r) : regPart off = some (r, off, 0) := by simp [regPart, h]

/-- The second half of a 64-bit register. -/
theorem regPart_high {off : Nat} {r : RegRow} (h : regAt off = some r) (hw : r.width = 64) (hn : regAt (off + 4) = none) :
    regPart (off + 4) = some (r, off, 32) := by
  simp [regPart, hn, h, hw]

theorem State.mayAccess_host (s : State) (write : Bool) (off : Nat) : s.mayAccess .host write off = true := rfl

/-- A read of 4 bytes where the device is in service, for an origin that uses BAR0. -/
theorem State.Up.regRead4 {s : State} (h : s.Up) {o : Origin} (hom : o ≠ .mgmt) {off : Nat} (ha : off % 4 = 0)
    (ho : (ownerViol off).isSome = true) :
    s.regRead o off 4 = { (s.readPart o off 4).2 with resp := [(s.readPart o off 4).1] } := by
  simp [State.regRead, hom, State.barRead, h.hostUp, State.accessViol, h.accessBad (.inl rfl) ha ho, isWide]

/-- A part of a register that the origin may read. -/
theorem State.readPart_some (s : State) {o : Origin} {off base : Nat} {r : RegRow} (size : Nat) (hp : regPart off = some (r, base, 0))
    (hm : s.mayAccess o false base = true) :
    s.readPart o off size = ((s.readReg o r base).1 % 2 ^ (8 * size), (s.readReg o r base).2) := by
  simp [State.readPart, hp, hm]

/-- The second half of a register is read as it stands. -/
theorem State.readPart_high (s : State) {o : Origin} {off base : Nat} {r : RegRow} (size : Nat) (hp : regPart off = some (r, base, 32))
    (hm : s.mayAccess o false base = true) : s.readPart o off size = (s.reg base / 2 ^ 32 % 2 ^ (8 * size), s) := by
  simp [State.readPart, hp, hm]

/-- A read that the origin may not make. -/
theorem State.readPart_denied (s : State) {o : Origin} {off base sh viol : Nat} {r : RegRow} (size : Nat)
    (hp : regPart off = some (r, base, sh)) (hm : s.mayAccess o false base = false) (hv : ownerViol off = some viol) :
    s.readPart o off size = (0, s.violate viol o) := by
  simp [State.readPart, hp, hm, hv]

/-- A read where no register lies. -/
theorem State.readPart_none (s : State) (o : Origin) {off : Nat} (size : Nat) (hp : regPart off = none) :
    s.readPart o off size = (0, s.violate ((ownerViol off).getD Reg.hifViolcnt) o) := by
  simp [State.readPart, hp]

/-! ### Reads that change nothing -/

theorem State.beforeRead_eq_self (s : State) (o : Origin) {r : RegRow} (i j off : Nat) (h : setByRead r = false) :
    s.beforeRead o r.base i j off = s := by
  simp only [setByRead, List.contains_eq_mem, List.mem_cons, List.not_mem_nil, or_false, decide_eq_false_iff_not, not_or] at h
  simp [State.beforeRead, h]

theorem State.readReg_eq_self (s : State) (o : Origin) {r : RegRow} (off : Nat) (h : setByRead r = false) :
    s.readReg o r off = (s.reg off, s) := by
  simp [State.readReg, State.beforeRead_eq_self s o _ _ off h]

/-- Only the sentinel's channels count a read with its origin. -/
theorem State.readReg_origin (s : State) (o o' : Origin) {r : RegRow} (off : Nat) (h : r.base ≠ Reg.senCh 0) :
    s.readReg o r off = s.readReg o' r off := by
  simp [State.readReg, State.beforeRead, h]

/-! ### What a context reads -/

/-- A context reads its own window, its queues and the windows of its clusters, except for a VIOLCNT. -/
theorem State.mayAccess_ctx_read (s : State) {n off : Nat} (hn : n ≠ 0) (hv : isViol off = false)
    (h : 0x100000 ≤ off ∧ off < 0x200000 ∧ (off - 0x100000) / 256 = n ∨
      0x200000 ≤ off ∧ off < 0x400000 ∧ (off - 0x200000) / 512 = n ∨
      0x400000 ≤ off ∧ off < 0x800000 ∧ (s.cl ((off - 0x400000) / 0x10000)).ctx = some n) :
    s.mayAccess (.ctx n) false off = true := by
  obtain ⟨k, rfl⟩ := Nat.exists_eq_succ_of_ne_zero hn
  rcases h with ⟨h1, h2, h3⟩ | ⟨h1, h2, h3⟩ | ⟨h1, h2, h3⟩
  · simp [State.mayAccess, hv, h1, h2, h3]
  · simp [State.mayAccess, hv, h1, h2, h3, show ¬ off < 0x200000 by omega, Nat.div_div_eq_div_mul]
  · simp [State.mayAccess, hv, h1, h2, h3, show ¬ off < 0x200000 by omega, show ¬ off < 0x400000 by omega,
      show ¬ off < 0x1400 by omega, show ¬ off < 0x1000 by omega]

/-- A context other than 0 accesses no VIOLCNT (R86). -/
theorem State.mayAccess_ctx_viol (s : State) {n off : Nat} (write : Bool) (hn : n ≠ 0) (hv : isViol off = true) :
    s.mayAccess (.ctx n) write off = false := by
  obtain ⟨k, rfl⟩ := Nat.exists_eq_succ_of_ne_zero hn
  simp [State.mayAccess, hv]

/-- What a context reads in its own windows is what the host reads there. -/
theorem State.Up.regRead4_ctx {s : State} (h : s.Up) {r : RegRow} {off n : Nat} (hr : regAt off = some r) (ha : off % 4 = 0)
    (ho : (ownerViol off).isSome = true) (hm : s.mayAccess (.ctx n) false off = true) (hlow : off < 0x800000) :
    s.regRead (.ctx n) off 4 = s.regRead .host off 4 := by
  have hb : r.base ≠ Reg.senCh 0 := by
    have := (regAt_mem hr).2
    simp only [Reg.senCh]
    omega
  have hp := regPart_of_regAt hr
  rw [h.regRead4 (o := .ctx n) nofun ha ho, h.regRead4 (o := .host) nofun ha ho, s.readPart_some 4 hp hm,
    s.readPart_some 4 hp (s.mayAccess_host _ _), s.readReg_origin _ .host off hb]

/-! ### BAR4 (R450, R453) -/

/-- REGISTER_WRITE without a value, from BAR4 on. -/
theorem exec_registerWrite_bar4 (s : State) (o : Origin) (off size : Nat) :
    exec (.registerWrite o (bar4 + off) size none) s = .next (s.bar4Read off size) := by
  simp [exec, execRegisterWrite]

/-- A word of BAR4 that exists. -/
theorem State.bar4Read_word (s : State) {off : Nat} (hup : s.hostUp = true) (ha : off % 4 = 0) (hh : bar4Holds off = true) :
    s.bar4Read off 4 = { s with resp := [s.readMsix off] } := by
  simp [State.bar4Read, hup, bar4Bad, ha, hh]

/-- Two words of BAR4 that exist. -/
theorem State.bar4Read_pair (s : State) {off : Nat} (hup : s.hostUp = true) (ha : off % 8 = 0) (hh : bar4Holds off = true) :
    s.bar4Read off 8 = { s with resp := [s.readMsix off + s.readMsix (off + 4) * 2 ^ 32] } := by
  simp [State.bar4Read, hup, bar4Bad, ha, hh]

theorem inPba_table {off : Nat} (h : off < 0x1000) : inPba off = false := by
  simp [inPba]
  omega

/-- Word `k` of entry `v` of the MSI-X table. -/
theorem State.readMsix_entry (s : State) {v k : Nat} (hv : v < 256) (hk : k < 16) :
    s.readMsix (16 * v + k) =
      if k = 0 then (s.msixEntry v).addr % 2 ^ 32 else if k = 4 then (s.msixEntry v).addr / 2 ^ 32 % 2 ^ 32
      else if k = 8 then (s.msixEntry v).data % 2 ^ 32 else b2n (s.msixEntry v).masked := by
  have hq : (16 * v + k) / 16 = v := by omega
  have hm : (16 * v + k) % 16 = k := by omega
  simp [State.readMsix, inPba_table (show 16 * v + k < 0x1000 by omega), hq, hm]

/-- The two words of an entry's address. -/
theorem State.readMsix_addr (s : State) {v : Nat} (hv : v < 256) :
    s.readMsix (16 * v) + s.readMsix (16 * v + 4) * 2 ^ 32 = (s.msixEntry v).addr % 2 ^ 64 := by
  have hlow : s.readMsix (16 * v) = (s.msixEntry v).addr % 2 ^ 32 := s.readMsix_entry (k := 0) hv (by decide)
  have hhigh : s.readMsix (16 * v + 4) = (s.msixEntry v).addr / 2 ^ 32 % 2 ^ 32 := s.readMsix_entry hv (by decide)
  rw [hlow, hhigh]
  omega

theorem bar4Holds_entry {v k : Nat} (hv : v < 256) (hk : k < 16) : bar4Holds (16 * v + k) = true := by
  simp [bar4Holds, show 16 * v + k < 0x1000 by omega]

theorem bar4Holds_pba {k : Nat} (hk : k < 8) : bar4Holds (0x8000 + k * 4) = true := by
  simp [bar4Holds, inPba]
  omega

theorem b2n_lt_two (b : Bool) : b2n b < 2 := by cases b <;> decide

/-- A word of the pending bits: bit `i` of word `k` is that of vector 32k + i. -/
theorem State.testBit_readMsix_pba (s : State) {k i : Nat} (hk : k < 8) (hi : i < 32) :
    bit (s.readMsix (0x8000 + k * 4)) i = s.msixPending.contains (32 * k + i) := by
  have hp : inPba (0x8000 + k * 4) = true := by
    simp [inPba]
    omega
  have hword : s.readMsix (0x8000 + k * 4) = ofDigitFn 2 (fun i => b2n (s.msixPending.contains (8 * (k * 4) + i))) 32 := by
    rw [State.readMsix, if_pos hp, Nat.add_sub_cancel_left]
    rfl
  rw [bit, Nat.testBit_eq_decide_div_mod_eq, hword, ofDigitFn_digit (fun _ => b2n_lt_two _) hi,
    show 8 * (k * 4) + i = 32 * k + i by omega]
  cases s.msixPending.contains (32 * k + i) <;> rfl

/-! ### The statement's parts -/

/-- The host's reads: the whole register, or its second half. -/
theorem host_reads {s : State} (h : s.Up) {r : RegRow} {off : Nat} (hr : regAt off = some r) (ha : off % 4 = 0) (hbar : off < bar4)
    (ho : (ownerViol off).isSome = true) (hset : setByRead r = false) :
    exec (.registerWrite .host off 4 none) s = .next { s with resp := [s.reg off % 2 ^ 32] } ∧
    (r.width = 64 → off % 8 = 0 →
      exec (.registerWrite .host off 8 none) s = .next { s with resp := [s.reg off % 2 ^ 64] } ∧
      (regAt (off + 4) = none → (ownerViol (off + 4)).isSome = true →
        exec (.registerWrite .host (off + 4) 4 none) s = .next { s with resp := [s.reg off / 2 ^ 32 % 2 ^ 32] })) := by
  refine ⟨?_, fun hw ha8 => ⟨?_, fun hn ho4 => ?_⟩⟩
  · rw [exec_registerWrite_none s .host 4 hbar, h.regRead4 (o := .host) nofun ha ho,
      s.readPart_some 4 (regPart_of_regAt hr) (s.mayAccess_host _ _), s.readReg_eq_self .host off hset]
  · rw [exec_registerWrite_none s .host 8 hbar, h.read8 hr hw ha8 ho, s.readReg_eq_self .host off hset]
  · have hbar4 : off + 4 < bar4 := by
      simp only [bar4] at hbar ⊢
      omega
    rw [exec_registerWrite_none s .host 4 hbar4, h.regRead4 (o := .host) nofun (by omega) ho4,
      s.readPart_high 4 (regPart_high hr hw hn) (s.mayAccess_host _ _)]

/-- A read where no register lies, in a block's range or outside all of them. -/
theorem host_reads_hole {s : State} (h : s.Up) {off : Nat} (ha : off % 4 = 0) (hbar : off < bar4) (hp : regPart off = none) :
    exec (.registerWrite .host off 4 none) s =
      .next { s.violate ((ownerViol off).getD Reg.hifViolcnt) .host with resp := [0] } := by
  rw [exec_registerWrite_none s .host 4 hbar]
  cases ho : ownerViol off with
  | some viol => rw [h.regRead4 (o := .host) nofun ha (by rw [ho]; rfl), s.readPart_none .host 4 hp, ho]
  | none => simp [State.regRead, State.barRead, h.hostUp, State.accessViol, State.accessBad, ho]

/-- The host's reads of an MSI-X entry, and of the pending bit of its vector. -/
theorem host_reads_bar4 {s : State} {v : Nat} (hup : s.hostUp = true) (hv : v < 256) :
    exec (.registerWrite .host (bar4 + 16 * v) 8 none) s = .next { s with resp := [(s.msixEntry v).addr % 2 ^ 64] } ∧
    exec (.registerWrite .host (bar4 + 16 * v + 8) 4 none) s = .next { s with resp := [(s.msixEntry v).data % 2 ^ 32] } ∧
    exec (.registerWrite .host (bar4 + 16 * v + 12) 4 none) s = .next { s with resp := [b2n (s.msixEntry v).masked] } ∧
    ∃ w, exec (.registerWrite .host (bar4 + 0x8000 + v / 32 * 4) 4 none) s = .next { s with resp := [w] } ∧
      bit w (v % 32) = s.msixPending.contains v := by
  refine ⟨?_, ?_, ?_, s.readMsix (0x8000 + v / 32 * 4), ?_, ?_⟩
  · rw [exec_registerWrite_bar4, s.bar4Read_pair (off := 16 * v) hup (by omega) (bar4Holds_entry (k := 0) hv (by decide)),
      s.readMsix_addr hv]
  · rw [Nat.add_assoc, exec_registerWrite_bar4, s.bar4Read_word hup (by omega) (bar4Holds_entry hv (by decide)),
      s.readMsix_entry hv (by decide)]
    rfl
  · rw [Nat.add_assoc, exec_registerWrite_bar4, s.bar4Read_word hup (by omega) (bar4Holds_entry hv (by decide)),
      s.readMsix_entry hv (by decide)]
    rfl
  · rw [Nat.add_assoc, exec_registerWrite_bar4, s.bar4Read_word hup (by omega) (bar4Holds_pba (by omega))]
  · rw [s.testBit_readMsix_pba (by omega) (by omega), Nat.div_add_mod]

/-- A read of BAR2 by the host answers zero. -/
theorem host_reads_bar2 {s : State} {off : Nat} (hup : s.hostUp = true) (ha : off % 4 = 0) (hlt : off < 2 ^ 21) :
    exec (.doorbell off 4 none) s = .next { s with resp := [0] } := by
  have hbad : bar2Bad off 4 = false := by simpa [bar2Bad, ha] using hlt
  simp [exec, execDoorbell, State.bar2Read, hup, hbad]

/-- Settles O9: the reads of a register, of a context, of a VIOLCNT, of a hole, of BAR2 and of BAR4 in turn. -/
theorem registerReads : Obligations.RegisterReads := by
  refine ⟨fun s r off hup hr ha hbar ho => ⟨host_reads hup hr ha hbar ho, fun n hn hv hwin => ?_⟩,
    fun s r off viol n hup hr hv ha hbar ho hn => ?_, fun s off hup ha hbar hp => host_reads_hole hup ha hbar hp,
    fun s off hup ha hlt => host_reads_bar2 hup ha hlt, fun s v hup hv => host_reads_bar4 hup hv⟩
  · rw [exec_registerWrite_none s _ 4 hbar, exec_registerWrite_none s _ 4 hbar,
      hup.regRead4_ctx hr ha ho (s.mayAccess_ctx_read hn hv hwin) (by omega)]
  · rw [exec_registerWrite_none s _ 4 hbar, hup.regRead4 (o := .ctx n) nofun ha (by rw [ho]; rfl),
      s.readPart_denied 4 (regPart_of_regAt hr) (s.mayAccess_ctx_viol false hn hv) ho]

end Machine

end Sys2Proof
end

section
/-! Cold and warm resets, the pins that hold and release them, and the test port (R16, R457, R458, R480, R486, R488–R490). -/

namespace Sys2Proof

/-- The entries of a table whose keys a test keeps. -/
theorem Tab.find_filter_key {α : Type} (t : Tab α) (p : Nat → Bool) (k : Nat) :
    Tab.find (t.filter fun x => p x.1) k = if p k then Tab.find t k else none := by
  induction t with
  | nil => simp [Tab.find]
  | cons x rest ih =>
    obtain ⟨a, v⟩ := x
    by_cases hak : a = k
    · subst hak
      cases hp : p a with
      | true => simp [hp, Tab.find]
      | false => simpa [hp] using ih
    · cases hp : p a with
      | true => simpa [hp, Tab.find, hak] using ih
      | false => simpa [hp, Tab.find, hak] using ih

namespace Machine

/-! ### The start of boot (R457, R459, R488) -/

/-- Nothing holds the reset any more: no boot step is under way, power and every supply are good, RESET_N is released and no trip
stands. -/
def State.MayBoot (s : State) : Prop :=
  s.sec.bootStep = 0 ∧ s.pins.pwrgood = true ∧ s.pins.resetN = true ∧ s.pins.supplies = true ∧ s.pins.thermtrip = false

/-- The start of boot records in BOOTSTAT whether BOOTSRC was 2 or 3. -/
def State.bootSampled (s : State) : State := s.set Reg.hifBootstat 25 25 (b2n (decide (2 ≤ s.pins.bootsrc)))

theorem State.tryBoot_held {s : State} (h : ¬ s.MayBoot) : s.tryBoot = s := by
  unfold State.tryBoot
  rw [if_pos]
  by_contra hc
  exact h (by simpa [State.MayBoot, and_assoc] using hc)

theorem State.tryBoot_of_mayBoot {s : State} (h : s.MayBoot) :
    s.tryBoot = if s.sec.cold then (s.bootSampled.setPhase phRom).modSec fun x => { x with bootStep := 1 }
      else s.bootSampled.beginLoading := by
  obtain ⟨h0, h1, h2, h3, h4⟩ := h
  simp [State.tryBoot, h0, h1, h2, h3, h4, State.bootSampled]

/-- A start of boot changes registers, and of the security state the boot step and what the image loads wait for. -/
theorem State.tryBoot_shape (s : State) : ∃ rs step wait push, s.tryBoot =
    { s with regs := rs, sec := { s.sec with bootStep := step, waitPush := wait, pushing := push } } := by
  by_cases h : s.MayBoot
  · rw [State.tryBoot_of_mayBoot h]
    split
    · exact ⟨_, _, _, _, rfl⟩
    · exact ⟨_, _, _, _, rfl⟩
  · exact ⟨s.regs, _, _, _, State.tryBoot_held h⟩

/-- Boot starts at its first step, or at the third once keys are derived. -/
theorem State.tryBoot_bootStep {s : State} (h : s.MayBoot) : s.tryBoot.sec.bootStep = if s.sec.cold then 1 else 3 := by
  rw [State.tryBoot_of_mayBoot h]
  split <;> rfl

theorem State.reg_tryBoot_ne (s : State) {off : Nat} (h : off ≠ Reg.hifBootstat) (hfw : off = Reg.hifFwver → s.sec.cold = true) :
    s.tryBoot.reg off = s.reg off := by
  by_cases hb : s.MayBoot
  · rw [State.tryBoot_of_mayBoot hb]
    split
    · rw [State.modSec_reg, State.setPhase, State.reg_set_ne _ _ _ _ h, State.bootSampled, State.reg_set_ne _ _ _ _ h]
    · next hc =>
      have hne : off ≠ Reg.hifFwver := fun e => hc (hfw e)
      rw [State.beginLoading, State.modSec_reg, State.setPhase, State.reg_set_ne _ _ _ _ h, State.showSlot,
        State.reg_set_ne _ _ _ _ hne, State.bootSampled, State.reg_set_ne _ _ _ _ h]
  · rw [State.tryBoot_held hb]

/-- BOOTSTAT shows BOOTSRC as it was sampled. -/
theorem State.tryBoot_bootsrc {s : State} (h : s.MayBoot) :
    s.tryBoot.get Reg.hifBootstat 25 25 = if 2 ≤ s.pins.bootsrc then 1 else 0 := by
  have hs : s.bootSampled.get Reg.hifBootstat 25 25 = if 2 ≤ s.pins.bootsrc then 1 else 0 := by
    rw [State.bootSampled, State.get_set_same _ _ _ _ _ (by decide) (by decide), b2n]
    split <;> simp_all
  rw [State.tryBoot_of_mayBoot h]
  split
  · rw [State.modSec_get, State.setPhase, State.get_set_ne _ _ _ _ _ _ _ (by decide) (by decide) (by decide), hs]
  · rw [State.beginLoading, State.modSec_get, State.setPhase, State.get_set_ne _ _ _ _ _ _ _ (by decide) (by decide) (by decide),
      State.showSlot, State.get_set_ne_reg _ _ _ _ _ _ (by decide), hs]

theorem imageVersion_lt (im : List Byte) : imageVersion im < 2 ^ 24 := Nat.mod_lt _ (by decide)

/-- Once loading begins FWVER shows the version of the slot image. -/
theorem State.tryBoot_fwver {s : State} (h : s.MayBoot) (hc : s.sec.cold = false) :
    s.tryBoot.get Reg.hifFwver 23 0 = if imageValid s.sec.slot then imageVersion s.sec.slot else 0 := by
  rw [State.tryBoot_of_mayBoot h, hc, if_neg (by decide), State.beginLoading, State.modSec_get, State.setPhase,
    State.get_set_ne_reg _ _ _ _ _ _ (by decide), State.showSlot, State.get_set_same _ _ _ _ _ (by decide) (by decide)]
  refine Nat.mod_eq_of_lt ?_
  split
  · exact imageVersion_lt _
  · decide

/-! ### The cold reset (R457) -/

/-- The state that a cold reset holds until boot may start. -/
def State.coldHeld (s : State) : State :=
  { State.reset with
    mem := s.mem, memKey := s.memKey, veils := s.veils, hbmLost := s.hbmLost + 1, ddrLost := s.ddrLost + 1, bootEpoch := s.bootEpoch
    pins := { s.pins with thermtrip := false }
    sec := { Sec.init with slot := s.sec.slotKept }
    nextFlight := s.nextFlight, free := s.free, resp := s.resp, pending := s.pending }

theorem State.coldReset_eq (s : State) : s.coldReset = s.coldHeld.tryBoot := rfl

theorem State.coldHeld_mayBoot (s : State) :
    s.coldHeld.MayBoot ↔ s.pins.pwrgood = true ∧ s.pins.resetN = true ∧ s.pins.supplies = true := by
  simp [State.MayBoot, State.coldHeld, Sec.init]

theorem State.coldReset_bootStep (s : State) :
    s.coldReset.sec.bootStep = if s.pins.pwrgood ∧ s.pins.resetN ∧ s.pins.supplies then 1 else 0 := by
  rw [State.coldReset_eq]
  split
  · next h => exact State.tryBoot_bootStep (s.coldHeld_mayBoot.mpr h)
  · next h => rw [State.tryBoot_held (mt s.coldHeld_mayBoot.mp h)]; rfl

/-- With PWRGOOD deasserted the reset is held. -/
theorem State.coldReset_unpowered {s : State} (h : s.pins.pwrgood = false) : s.coldReset = s.coldHeld :=
  State.tryBoot_held fun hb => by simp [s.coldHeld_mayBoot.mp hb] at h

theorem State.reg_coldReset (s : State) {off : Nat} (h : off ≠ Reg.hifBootstat) : s.coldReset.reg off = regReset off :=
  s.coldHeld.reg_tryBoot_ne h fun _ => rfl

/-! ### The warm reset (R458) -/

/-- What a warm reset keeps: registers by `keptReg`, the slots, the fault records, the keys, DDR5 and host memory. -/
def State.warmKept (s : State) : State :=
  { State.reset with
    regs := s.regs.filter fun r => keptReg r.1
    mem := s.mem, memKey := s.memKey, veils := s.veils, hbmLost := s.hbmLost + 1, ddrLost := s.ddrLost, bootEpoch := s.bootEpoch
    chk := { Chk.init with events := s.chk.events }
    snp := { Snp.init with slots := s.snp.slots, nextXid := s.snp.nextXid }
    pins := s.pins
    sec := { Sec.init with slot := s.sec.slotKept, keys := s.sec.keys, cold := !s.sec.keys }
    nextFlight := s.nextFlight, free := s.free, resp := s.resp, pending := s.pending }

/-- FLAGGED and the peak power, which are fields of registers that are not kept whole. -/
def State.warmFields (s : State) : State :=
  (s.warmKept.set Reg.chkStat 31 31 (s.get Reg.chkStat 31 31)).set Reg.pwrPower 31 16 (s.get Reg.pwrPower 31 16)

/-- The engines of a cluster: confirmed ones stay so, watched ones are NORMAL. -/
def State.warmEngine (t : State) (g : Nat) : State :=
  if (Tab.find t.regs (Reg.chkEngstate g)).isSome then t.setReg (Reg.chkEngstate g) (engAfterWarm (t.reg (Reg.chkEngstate g))) else t

def State.warmEngines (s : State) : State := (List.range 64).foldl State.warmEngine s.warmFields

/-- A snapshot slot. -/
def State.warmSlot (t : State) (k : Nat) : State := t.setSlotState k (slotAfterWarm (t.slotState k))

/-- The state that a warm reset holds until boot may start. -/
def State.warmHeld (s : State) : State := (s.warmEngines.warmSlot 0).warmSlot 1

theorem State.warmReset_eq (s : State) : s.warmReset = s.warmHeld.tryBoot := rfl

theorem RegsOnly.warmEngine (t : State) (g : Nat) : RegsOnly t (t.warmEngine g) := by
  unfold State.warmEngine
  split
  · exact .setReg t _ _
  · exact .refl t

theorem RegsOnly.warmHeld (s : State) : RegsOnly s.warmKept s.warmHeld :=
  (((RegsOnly.set _ _ _ _ _).trans (.set _ _ _ _ _)).trans (.foldl RegsOnly.warmEngine _ _)).trans
    ((RegsOnly.set _ _ _ _ _).trans (.set _ _ _ _ _))

/-! ### Registers over a warm reset -/

theorem State.reg_warmKept (s : State) (off : Nat) : s.warmKept.reg off = if keptReg off then s.reg off else regReset off := by
  simp only [State.reg, State.warmKept, Tab.find_filter_key]
  cases keptReg off <;> rfl

theorem State.reg_warmFields_ne (s : State) {off : Nat} (hc : off ≠ Reg.chkStat) (hp : off ≠ Reg.pwrPower) :
    s.warmFields.reg off = if keptReg off then s.reg off else regReset off := by
  rw [State.warmFields, State.reg_set_ne _ _ _ _ hp, State.reg_set_ne _ _ _ _ hc, s.reg_warmKept]

theorem State.reg_warmEngine_ne (t : State) {g off : Nat} (h : off ≠ Reg.chkEngstate g) : (t.warmEngine g).reg off = t.reg off := by
  unfold State.warmEngine
  split
  · exact t.reg_setReg_ne _ h
  · rfl

theorem State.reg_foldl_warmEngine_ne {off : Nat} (l : List Nat) (h : ∀ g ∈ l, off ≠ Reg.chkEngstate g) (t : State) :
    (l.foldl State.warmEngine t).reg off = t.reg off := by
  induction l generalizing t with
  | nil => rfl
  | cons g rest ih =>
    rw [List.foldl_cons, ih (fun k hk => h k (List.mem_cons_of_mem g hk)), t.reg_warmEngine_ne (h g List.mem_cons_self)]

theorem State.reg_warmEngines_ne (s : State) {off : Nat} (h : ∀ g, g < 64 → off ≠ Reg.chkEngstate g) :
    s.warmEngines.reg off = s.warmFields.reg off :=
  State.reg_foldl_warmEngine_ne _ (fun g hg => h g (List.mem_range.mp hg)) _

theorem State.reg_warmSlot_ne (t : State) {k off : Nat} (h : off ≠ Reg.snpSlot0 k) : (t.warmSlot k).reg off = t.reg off :=
  t.reg_set_ne _ _ _ h

theorem State.reg_warmHeld_ne (s : State) {off : Nat} (h0 : off ≠ Reg.snpSlot0 0) (h1 : off ≠ Reg.snpSlot0 1) :
    s.warmHeld.reg off = s.warmEngines.reg off := by
  rw [State.warmHeld, State.reg_warmSlot_ne _ h1, State.reg_warmSlot_ne _ h0]

/-- A register that the warm reset has no rule of its own for. -/
theorem State.reg_warmReset (s : State) {off : Nat} (hb : off ≠ Reg.hifBootstat) (hf : off ≠ Reg.hifFwver) (hc : off ≠ Reg.chkStat)
    (hp : off ≠ Reg.pwrPower) (h0 : off ≠ Reg.snpSlot0 0) (h1 : off ≠ Reg.snpSlot0 1) (he : ∀ g, g < 64 → off ≠ Reg.chkEngstate g) :
    s.warmReset.reg off = if keptReg off then s.reg off else regReset off := by
  rw [State.warmReset_eq, State.reg_tryBoot_ne _ hb (fun e => absurd e hf), s.reg_warmHeld_ne h0 h1, s.reg_warmEngines_ne he,
    s.reg_warmFields_ne hc hp]

/-- Boot leaves the registers below its own as the reset left them. -/
theorem State.reg_warmReset_low (s : State) {off : Nat} (h : off < 0xe10000) : s.warmReset.reg off = s.warmHeld.reg off :=
  s.warmHeld.reg_tryBoot_ne (Nat.ne_of_lt h) fun e => absurd (e ▸ h) (by decide)

/-- Beyond the engines' registers the engines' step has left what is kept. -/
theorem State.reg_warmEngines_above (s : State) {off : Nat} (h : 0xc01240 ≤ off) :
    s.warmEngines.reg off = if keptReg off then s.reg off else regReset off := by
  rw [s.reg_warmEngines_ne fun g hg => by simp only [Reg.chkEngstate]; omega, s.reg_warmFields_ne]
  · simp only [Reg.chkStat]
    omega
  · simp only [Reg.pwrPower]
    omega

/-- A register before those of the engines and slots keeps what `warmFields` gave it. -/
theorem State.get_warmReset_below (s : State) {off : Nat} (hi lo : Nat) (h : off < 0xc01140) :
    s.warmReset.get off hi lo = s.warmFields.get off hi lo := by
  have hne : ∀ x, 0xc01140 ≤ x → off ≠ x := fun x hx => by omega
  rw [State.get, s.reg_warmReset_low (by omega), s.reg_warmHeld_ne (hne _ (by decide)) (hne _ (by decide)),
    s.reg_warmEngines_ne fun g _ => hne _ (Nat.le_add_right _ _), State.get]

theorem State.warmReset_flagged (s : State) : s.warmReset.get Reg.chkStat 31 31 = s.get Reg.chkStat 31 31 := by
  rw [s.get_warmReset_below 31 31 (by decide), State.warmFields, State.get_set_ne_reg _ _ _ _ _ _ (by decide),
    State.get_set_same _ _ _ _ _ (by decide) (by decide)]
  exact Nat.mod_eq_of_lt (s.get_lt _ 31 31)

theorem State.warmReset_peak (s : State) : s.warmReset.get Reg.pwrPower 31 16 = s.get Reg.pwrPower 31 16 := by
  rw [s.get_warmReset_below 31 16 (by decide), State.warmFields, State.get_set_same _ _ _ _ _ (by decide) (by decide)]
  exact Nat.mod_eq_of_lt (s.get_lt _ 31 16)

/-! ### Slots over a warm reset (R405) -/

theorem slotAfterWarm_lt {st : Nat} (h : st < 8) : slotAfterWarm st < 8 := by
  unfold slotAfterWarm
  split_ifs
  · decide
  · decide
  · exact h

theorem keptReg_snpSlot0 : ∀ k, k < 2 → keptReg (Reg.snpSlot0 k) = true := by decide

theorem keptReg_snpSlot1 : ∀ k, k < 2 → keptReg (Reg.snpSlot1 k) = true := by decide

/-- The slots' registers come to their own step whole. -/
theorem State.reg_warmEngines_slot (s : State) {k : Nat} (hk : k < 2) : s.warmEngines.reg (Reg.snpSlot0 k) = s.reg (Reg.snpSlot0 k) := by
  rw [s.reg_warmEngines_above (by simp only [Reg.snpSlot0]; omega), if_pos (keptReg_snpSlot0 k hk)]

theorem State.slotState_warmSlot (t : State) (k : Nat) : (t.warmSlot k).slotState k = slotAfterWarm (t.slotState k) := by
  rw [State.warmSlot, State.slotState, State.setSlotState, State.get_set_same _ _ _ _ _ (by decide) (by decide)]
  exact Nat.mod_eq_of_lt (slotAfterWarm_lt (t.get_lt _ 63 61))

theorem State.slotStep_warmSlot (t : State) (k : Nat) : (t.warmSlot k).slotStep k = t.slotStep k :=
  t.get_set_ne _ _ _ _ _ _ (by decide) (by decide) (by decide)

/-- A slot's own step does not touch the other slot's register. -/
theorem State.reg_warmHeld_slot (s : State) {k : Nat} (hk : k < 2) :
    s.warmHeld.reg (Reg.snpSlot0 k) = (s.warmEngines.warmSlot k).reg (Reg.snpSlot0 k) := by
  obtain rfl | rfl : k = 0 ∨ k = 1 := by omega
  · exact State.reg_warmSlot_ne _ (by decide)
  · have h1 : (s.warmEngines.warmSlot 0).reg (Reg.snpSlot0 1) = s.warmEngines.reg (Reg.snpSlot0 1) := State.reg_warmSlot_ne _ (by decide)
    simp only [State.warmHeld, State.warmSlot, State.setSlotState, State.slotState, State.set, State.get, State.reg_setReg_same] at h1 ⊢
    rw [h1]

theorem State.get_warmReset_slot (s : State) {k : Nat} (hi lo : Nat) (hk : k < 2) :
    s.warmReset.get (Reg.snpSlot0 k) hi lo = (s.warmEngines.warmSlot k).get (Reg.snpSlot0 k) hi lo := by
  rw [State.get, s.reg_warmReset_low (by simp only [Reg.snpSlot0]; omega), s.reg_warmHeld_slot hk, State.get]

/-- The register of a slot's epoch is kept. -/
theorem State.reg_warmReset_epoch (s : State) {k : Nat} (hk : k < 2) : s.warmReset.reg (Reg.snpSlot1 k) = s.reg (Reg.snpSlot1 k) := by
  have hslot : ∀ j, Reg.snpSlot1 k ≠ Reg.snpSlot0 j := fun j => by
    simp only [Reg.snpSlot1, Reg.snpSlot0]
    omega
  rw [s.reg_warmReset_low (by simp only [Reg.snpSlot1]; omega), s.reg_warmHeld_ne (hslot 0) (hslot 1),
    s.reg_warmEngines_above (by simp only [Reg.snpSlot1]; omega), if_pos (keptReg_snpSlot1 k hk)]

theorem State.warmReset_slot (s : State) {k : Nat} (hk : k < 2) :
    s.warmReset.slotState k = slotAfterWarm (s.slotState k) ∧ s.warmReset.slotStep k = s.slotStep k ∧
      s.warmReset.slotEpoch k = s.slotEpoch k := by
  have hreg := s.reg_warmEngines_slot hk
  refine ⟨?_, ?_, congrArg (fld · 31 0) (s.reg_warmReset_epoch hk)⟩
  · calc s.warmReset.slotState k = (s.warmEngines.warmSlot k).slotState k := s.get_warmReset_slot 63 61 hk
      _ = slotAfterWarm (s.warmEngines.slotState k) := s.warmEngines.slotState_warmSlot k
      _ = slotAfterWarm (s.slotState k) := congrArg (fun x => slotAfterWarm (fld x 63 61)) hreg
  · calc s.warmReset.slotStep k = (s.warmEngines.warmSlot k).slotStep k := s.get_warmReset_slot 47 0 hk
      _ = s.warmEngines.slotStep k := s.warmEngines.slotStep_warmSlot k
      _ = s.slotStep k := congrArg (fld · 47 0) hreg

/-! ### Engines over a warm reset (R384, R387) -/

/-- The states of a cluster's engines after a warm reset, as digits to the base 4. -/
theorem engAfterWarm_eq (v : Nat) : engAfterWarm v = ofDigitFn 4 (fun e => if fld v (2 * e + 1) (2 * e) = 2 then 2 else 0) 16 := by
  unfold engAfterWarm ofDigitFn
  refine congrArg (fun f => List.foldl f 0 (List.range 16)) (funext fun a => funext fun e => ?_)
  split <;> simp [*]

/-- A confirmed engine stays so; every other one is NORMAL. -/
theorem fld_engAfterWarm (v : Nat) {e : Nat} (he : e < 16) :
    fld (engAfterWarm v) (2 * e + 1) (2 * e) = if fld v (2 * e + 1) (2 * e) = 2 then 2 else 0 := by
  have hd : ∀ i, (if fld v (2 * i + 1) (2 * i) = 2 then 2 else 0) < 4 := fun i => by split <;> decide
  rw [engAfterWarm_eq, fld, Nat.shiftRight_eq_div_pow, Nat.pow_mul, show 2 * e + 1 + 1 - 2 * e = 2 by omega]
  exact ofDigitFn_digit hd he

theorem State.find_warmEngine_same (t : State) (g : Nat) :
    Tab.find (t.warmEngine g).regs (Reg.chkEngstate g) =
      (Tab.find t.regs (Reg.chkEngstate g)).map fun v => BitVec.ofNat 64 (engAfterWarm v.toNat) := by
  unfold State.warmEngine
  cases hv : Tab.find t.regs (Reg.chkEngstate g) with
  | none => simp [hv]
  | some v => simp [State.setReg, State.reg, hv]

theorem State.find_warmEngine_ne (t : State) {g k : Nat} (h : k ≠ g) :
    Tab.find (t.warmEngine g).regs (Reg.chkEngstate k) = Tab.find t.regs (Reg.chkEngstate k) := by
  have hne : Reg.chkEngstate k ≠ Reg.chkEngstate g := by
    simp only [Reg.chkEngstate]
    omega
  unfold State.warmEngine
  split
  · exact Tab.find_put_ne _ _ hne
  · rfl

theorem State.find_foldl_warmEngine_ne (l : List Nat) {g : Nat} (h : g ∉ l) (t : State) :
    Tab.find (l.foldl State.warmEngine t).regs (Reg.chkEngstate g) = Tab.find t.regs (Reg.chkEngstate g) := by
  induction l generalizing t with
  | nil => rfl
  | cons k rest ih =>
    obtain ⟨hk, hrest⟩ := not_or.mp (mt List.mem_cons.mpr h)
    rw [List.foldl_cons, ih hrest, t.find_warmEngine_ne hk]

theorem State.find_foldl_warmEngine (l : List Nat) (hl : l.Nodup) {g : Nat} (h : g ∈ l) (t : State) :
    Tab.find (l.foldl State.warmEngine t).regs (Reg.chkEngstate g) =
      (Tab.find t.regs (Reg.chkEngstate g)).map fun v => BitVec.ofNat 64 (engAfterWarm v.toNat) := by
  induction l generalizing t with
  | nil => cases h
  | cons k rest ih =>
    obtain ⟨hk, hrest⟩ := List.nodup_cons.mp hl
    rw [List.foldl_cons]
    by_cases hgk : g = k
    · subst hgk
      rw [State.find_foldl_warmEngine_ne rest hk, t.find_warmEngine_same]
    · rw [ih hrest (List.mem_of_ne_of_mem hgk h), t.find_warmEngine_ne hgk]

theorem keptReg_chkEngstate : ∀ g, g < 64 → keptReg (Reg.chkEngstate g) = true := by decide +kernel

theorem regReset_chkEngstate : ∀ g, g < 64 → regReset (Reg.chkEngstate g) = 0 := by decide +kernel

/-- The warm reset's own fields leave the engines' registers as they were. -/
theorem State.find_warmFields_engine (s : State) {g : Nat} (hg : g < 64) :
    Tab.find s.warmFields.regs (Reg.chkEngstate g) = Tab.find s.regs (Reg.chkEngstate g) := by
  have hp : Reg.chkEngstate g ≠ Reg.pwrPower := by
    simp only [Reg.chkEngstate, Reg.pwrPower]
    omega
  have hc : Reg.chkEngstate g ≠ Reg.chkStat := by
    simp only [Reg.chkEngstate, Reg.chkStat]
    omega
  simp only [State.warmFields, State.set, State.setReg, Tab.find_put_ne _ _ hp, Tab.find_put_ne _ _ hc, State.warmKept,
    Tab.find_filter_key, keptReg_chkEngstate g hg, if_true]

/-- The register of a cluster's engines: nothing where none was listed, otherwise the states after a warm reset. -/
theorem State.reg_warmReset_engine (s : State) {g : Nat} (hg : g < 64) : s.warmReset.reg (Reg.chkEngstate g) =
    (Tab.find s.regs (Reg.chkEngstate g)).elim 0 fun v => engAfterWarm v.toNat % 2 ^ 64 := by
  have hslot : ∀ k, Reg.chkEngstate g ≠ Reg.snpSlot0 k := fun k => by
    simp only [Reg.chkEngstate, Reg.snpSlot0]
    omega
  rw [s.reg_warmReset_low (by simp only [Reg.chkEngstate]; omega), s.reg_warmHeld_ne (hslot 0) (hslot 1), State.reg, State.warmEngines,
    State.find_foldl_warmEngine _ List.nodup_range (List.mem_range.mpr hg), s.find_warmFields_engine hg]
  cases Tab.find s.regs (Reg.chkEngstate g) with
  | none => exact regReset_chkEngstate g hg
  | some v => rfl

theorem State.warmReset_engState (s : State) {g e : Nat} (hg : g < 64) (he : e < 16) :
    s.warmReset.engState g e = if s.engState g e = 2 then 2 else 0 := by
  rw [State.engState, State.get, s.reg_warmReset_engine hg, State.engState, State.get, State.reg]
  cases Tab.find s.regs (Reg.chkEngstate g) with
  | none => simp [regReset_chkEngstate g hg, fld]
  | some v => simp only [Option.elim_some, State.fld_mod _ _ _ (show 2 * e + 1 < 64 by omega), fld_engAfterWarm _ he]

/-! ### Boot after a warm reset -/

/-- A warm reset keeps what `warmKept` names, but for registers and for how far boot has come. -/
theorem State.warmReset_shape (s : State) : ∃ rs step wait push, s.warmReset =
    { s.warmKept with regs := rs, sec := { s.warmKept.sec with bootStep := step, waitPush := wait, pushing := push } } := by
  obtain ⟨rs, hrs⟩ := RegsOnly.warmHeld s
  obtain ⟨rs', step, wait, push, hboot⟩ := s.warmHeld.tryBoot_shape
  refine ⟨rs', step, wait, push, ?_⟩
  rw [State.warmReset_eq, hboot, hrs]

theorem State.warmHeld_sec (s : State) : s.warmHeld.sec = s.warmKept.sec := by
  obtain ⟨rs, hrs⟩ := RegsOnly.warmHeld s
  rw [hrs]

theorem State.warmHeld_pins (s : State) : s.warmHeld.pins = s.pins := by
  obtain ⟨rs, hrs⟩ := RegsOnly.warmHeld s
  rw [hrs]
  rfl

theorem State.warmHeld_mayBoot (s : State) :
    s.warmHeld.MayBoot ↔ s.pins.pwrgood = true ∧ s.pins.resetN = true ∧ s.pins.supplies = true ∧ s.pins.thermtrip = false := by
  simp [State.MayBoot, s.warmHeld_sec, s.warmHeld_pins, State.warmKept, Sec.init]

theorem State.warmHeld_cold (s : State) : s.warmHeld.sec.cold = !s.sec.keys := by rw [s.warmHeld_sec]; rfl

theorem State.warmReset_bootStep (s : State) : s.warmReset.sec.bootStep =
    if s.pins.pwrgood ∧ s.pins.resetN ∧ s.pins.supplies ∧ s.pins.thermtrip = false then (if s.sec.keys then 3 else 1) else 0 := by
  rw [State.warmReset_eq]
  split
  · next h =>
    rw [State.tryBoot_bootStep (s.warmHeld_mayBoot.mpr h), s.warmHeld_cold]
    cases s.sec.keys <;> rfl
  · next h => rw [State.tryBoot_held (mt s.warmHeld_mayBoot.mp h), s.warmHeld_sec]; rfl

/-- Where boot is at step 3 the reset has begun to load, and shows the slot image. -/
theorem State.warmReset_fwver (s : State) (h : s.warmReset.sec.bootStep = 3) :
    s.warmReset.get Reg.hifFwver 23 0 = if imageValid s.warmReset.sec.slot then imageVersion s.warmReset.sec.slot else 0 := by
  have hslot : s.warmReset.sec.slot = s.warmHeld.sec.slot := by
    obtain ⟨_, _, _, _, hs⟩ := s.warmReset_shape
    rw [hs, s.warmHeld_sec]
  rw [s.warmReset_bootStep] at h
  obtain ⟨hpins, hkeys⟩ : (s.pins.pwrgood ∧ s.pins.resetN ∧ s.pins.supplies ∧ s.pins.thermtrip = false) ∧ s.sec.keys = true := by
    split_ifs at h with hpins hkeys
    · exact ⟨hpins, hkeys⟩
    · cases h
  rw [hslot, State.warmReset_eq]
  exact State.tryBoot_fwver (s.warmHeld_mayBoot.mpr hpins) (by rw [s.warmHeld_cold, hkeys]; rfl)

/-! ### The commands that reset -/

theorem State.Up.hifResetCold {s : State} (h : s.Up) : exec (.hifResetCold .host (2 ^ 31)) s = .next s.coldReset := by
  have hused : (2 ^ 31 % 2 ^ 32 != 2 ^ 31 % 2 ^ 32 &&& (rowOf Reg.hifReset).usedMask) = false := by decide +kernel
  have hbits : bit (2 ^ 31 % 2 ^ 32) 31 = true ∧ bit (2 ^ 31 % 2 ^ 32) 30 = false := by decide +kernel
  rw [exec, execHifResetCold, h.write_hifReset, hused]
  simp only [State.violateIf, State.writeReset, hbits, Bool.false_eq_true, Bool.and_false, if_false, if_true]

theorem State.Up.hifResetWarm {s : State} (h : s.Up) : exec (.hifResetWarm .host (2 ^ 30)) s = .next s.warmReset := by
  have hused : (2 ^ 30 % 2 ^ 32 != 2 ^ 30 % 2 ^ 32 &&& (rowOf Reg.hifReset).usedMask) = false := by decide +kernel
  have hbits : bit (2 ^ 30 % 2 ^ 32) 31 = false ∧ bit (2 ^ 30 % 2 ^ 32) 30 = true := by decide +kernel
  rw [exec, execHifResetWarm, h.write_hifReset, hused]
  simp only [State.violateIf, State.writeReset, hbits, Bool.false_eq_true, Bool.and_true, if_false, if_true]

theorem State.Up.cxlConventionalReset {s : State} (h : s.Up) : exec .cxlConventionalReset s = .next s.warmReset := by
  have hb : s.sec.bootStep ≠ 0 := by
    have := h.boot
    omega
  simp [exec, execCxlConventionalReset, hb]

/-! ### The pins (R457, R480, R486, R488, R490) -/

/-- The pins as PWRGOOD is deasserted: TDO is high-impedance, and VIO stays or goes. -/
def State.powerLost (s : State) : State :=
  s.draw.2.modPins fun p => { p with pwrgood := false, tdo := none, vio := p.vio && s.draw.1 / 2 % 2 == 1 }

/-- PWRGOOD deasserted: the cold reset, held, with a trip of the same moment kept or not. -/
theorem pwrgoodDeassert_next (s : State) : exec .pwrgoodDeassert s = .next (
    if s.pins.thermtrip && s.draw.1 % 2 == 1 then
      (s.powerLost.coldHeld.modPins fun p => { p with thermtrip := true }).setReg Reg.senTrip (s.reg Reg.senTrip)
    else s.powerLost.coldHeld) := by
  have hheld : s.powerLost.coldReset = s.powerLost.coldHeld := State.coldReset_unpowered rfl
  rw [← hheld]
  rfl

/-- With PWRGOOD deasserted ALERT_N is released. -/
theorem State.alertN_unpowered {s : State} (h : s.pins.pwrgood = false) : s.alertN = false := by simp [State.alertN, h]

theorem pwrgoodDeassert_spec (s : State) : ∃ t, exec .pwrgoodDeassert s = .next t ∧ t.pins.pwrgood = false ∧ t.pins.tdo = none ∧
    t.alertN = false ∧ t.sec.bootStep = 0 ∧ t.sec.keys = false ∧ t.mem = s.mem ∧ t.hbmLost = s.hbmLost + 1 ∧
    t.ddrLost = s.ddrLost + 1 ∧ (s.pins.thermtrip = false → t.pins.thermtrip = false) := by
  refine ⟨_, pwrgoodDeassert_next s, ?_⟩
  split
  · next h =>
    exact ⟨rfl, rfl, State.alertN_unpowered rfl, rfl, rfl, rfl, rfl, rfl, fun ht => by simp [ht] at h⟩
  · exact ⟨rfl, rfl, State.alertN_unpowered rfl, rfl, rfl, rfl, rfl, rfl, fun _ => rfl⟩

/-- A start of boot touches neither the pins nor memory. -/
theorem State.tryBoot_pins_mem (s : State) : s.tryBoot.pins = s.pins ∧ s.tryBoot.mem = s.mem := by
  obtain ⟨_, _, _, _, h⟩ := s.tryBoot_shape
  rw [h]
  exact ⟨rfl, rfl⟩

theorem pwrgoodAssert_spec (s : State) : (s.pins.pwrgood = true → exec .pwrgoodAssert s = .next s) ∧
    (s.pins.pwrgood = false → s.pins.thermtrip = false → s.sec.bootStep = 0 → s.sec.cold = true →
      ∃ t, exec .pwrgoodAssert s = .next t ∧ t.pins.pwrgood = true ∧ t.pins.vio = true ∧ t.mem = s.mem ∧
        t.sec.bootStep = if t.pins.supplies ∧ s.pins.resetN then 1 else 0) := by
  refine ⟨fun h => by simp [exec, execPwrgoodAssert, h], fun hp ht hb hc => ?_⟩
  let u := s.draw.2.modPins fun p => { p with pwrgood := true, vio := true, supplies := s.draw.1 % 2 == 1 }
  obtain ⟨hpins, hmem⟩ := u.tryBoot_pins_mem
  have hmay : u.MayBoot ↔ u.pins.supplies = true ∧ s.pins.resetN = true := by
    simp [State.MayBoot, u, State.modPins, State.draw, hb, ht, and_comm]
  refine ⟨u.tryBoot, by simp [exec, execPwrgoodAssert, hp, ht, u], by rw [hpins]; rfl, by rw [hpins]; rfl, hmem, ?_⟩
  rw [hpins]
  split
  · next h => rw [State.tryBoot_bootStep (hmay.mpr h), if_pos (show u.sec.cold = true from hc)]
  · next h => rw [State.tryBoot_held (mt hmay.mp h)]; exact hb

theorem supplyInTolerance_spec (s : State) : (s.pins.pwrgood = false → exec .supplyInTolerance s = .next s) ∧
    (s.pins.pwrgood = true → s.pins.thermtrip = false → s.sec.bootStep = 0 → ∃ t, exec .supplyInTolerance s = .next t ∧
      t.pins = { s.pins with supplies := true } ∧ t.mem = s.mem ∧
      t.sec.bootStep = if s.pins.resetN then (if s.sec.cold then 1 else 3) else 0) := by
  refine ⟨fun h => by simp [exec, execSupplyInTolerance, h], fun hp ht hb => ?_⟩
  let u := s.modPins fun p => { p with supplies := true }
  obtain ⟨hpins, hmem⟩ := u.tryBoot_pins_mem
  have hmay : u.MayBoot ↔ s.pins.resetN = true := by simp [State.MayBoot, u, State.modPins, hb, ht, hp]
  refine ⟨u.tryBoot, by simp [exec, execSupplyInTolerance, hp, u], hpins, hmem, ?_⟩
  split
  · next h => exact State.tryBoot_bootStep (hmay.mpr h)
  · next h => rw [State.tryBoot_held (mt hmay.mp h)]; exact hb

theorem resetNAssert_spec (s : State) : exec .resetNAssert s = .next (
    if s.pins.vio = false then s
    else if s.pins.pwrgood ∧ s.sec.bootStep ≠ 0 then (s.modPins fun p => { p with resetN := false }).warmReset
    else s.modPins fun p => { p with resetN := false }) := by
  simp [exec, execResetNAssert]

theorem resetNDeassert_spec (s : State) (src : Nat) :
    (s.pins.resetN = true ∨ s.pins.vio = false → exec (.resetNDeassert src) s = .next s) ∧
    (s.pins.resetN = false → s.pins.vio = true → ∃ t, exec (.resetNDeassert src) s = .next t ∧
      t.pins = { s.pins with resetN := true, bootsrc := src % 4 } ∧ t.mem = s.mem ∧
      (s.pins.pwrgood = true → s.pins.supplies = true → s.pins.thermtrip = false → s.sec.bootStep = 0 →
        t.sec.bootStep = (if s.sec.cold then 1 else 3) ∧ t.get Reg.hifBootstat 25 25 = if 2 ≤ src % 4 then 1 else 0)) := by
  refine ⟨fun h => by rcases h with h | h <;> simp [exec, execResetNDeassert, h], fun hr hv => ?_⟩
  let u := s.modPins fun p => { p with resetN := true, bootsrc := src % 4 }
  obtain ⟨hpins, hmem⟩ := u.tryBoot_pins_mem
  refine ⟨u.tryBoot, by simp [exec, execResetNDeassert, hr, hv, u], hpins, hmem, fun hp hs ht hb => ?_⟩
  have hmay : u.MayBoot := ⟨hb, hp, rfl, hs, ht⟩
  exact ⟨State.tryBoot_bootStep hmay, State.tryBoot_bootsrc hmay⟩

/-! ### The test port (R480, R486, R488) -/

/-- A falling edge of TCK: TDO is driven while PWRGOOD is asserted and the controller shifts. -/
theorem boundaryScan_fall (s : State) (tms tdi : Bool) (hv : s.pins.vio = true) :
    ∃ t, exec (.boundaryScan false tms tdi true) s = .next t ∧ t.pins.tap = s.pins.tap ∧ t.pins.tck = false ∧
      { t with pins := s.pins, free := s.free } = s ∧
      (s.pins.tck = true → (t.pins.tdo.isSome = true ↔ s.pins.pwrgood = true ∧ tapShifts s.pins.tap = true)) := by
  cases hk : s.pins.tck with
  | false => exact ⟨s, by simp [exec, execBoundaryScan, hv, hk], rfl, hk, rfl, nofun⟩
  | true =>
    refine ⟨s.draw.2.modPins fun p => { p with
        tck := false, tdo := if p.pwrgood && tapShifts p.tap then some (s.draw.1 % 2 == 1) else none },
      by simp [exec, execBoundaryScan, hv, hk], rfl, rfl, rfl, fun _ => ?_⟩
    rw [← Bool.and_eq_true]
    cases hd : s.pins.pwrgood && tapShifts s.pins.tap <;> simp [State.modPins, State.draw, hd]

theorem boundaryScan_spec (s : State) (tms tdi : Bool) :
    (s.pins.vio = false → ∀ tck trst, exec (.boundaryScan tck tms tdi trst) s = .next s) ∧
    (s.pins.vio = true →
      (∀ tck, exec (.boundaryScan tck tms tdi false) s = .next { s with pins := { s.pins with tap := 0, tck := tck, tdo := none } }) ∧
      (s.pins.tck = false → exec (.boundaryScan true tms tdi true) s =
        .next { s with pins := { s.pins with tap := tapNext s.pins.tap tms, tck := true } }) ∧
      ∃ t, exec (.boundaryScan false tms tdi true) s = .next t ∧ t.pins.tap = s.pins.tap ∧ t.pins.tck = false ∧
        { t with pins := s.pins, free := s.free } = s ∧
        (s.pins.tck = true → (t.pins.tdo.isSome = true ↔ s.pins.pwrgood = true ∧ tapShifts s.pins.tap = true))) := by
  refine ⟨fun hv tck trst => by simp [exec, execBoundaryScan, hv], fun hv => ⟨fun tck => ?_, fun hk => ?_, ?_⟩⟩
  · simp [exec, execBoundaryScan, hv, State.modPins]
  · simp [exec, execBoundaryScan, hv, hk, State.modPins]
  · exact boundaryScan_fall s tms tdi hv

/-- Five clocks with TMS high reach Test-Logic-Reset from every state. -/
theorem tapNext_five : ∀ st, st < 16 → tapNext (tapNext (tapNext (tapNext (tapNext st true) true) true) true) true = 0 := by decide

/-! ### The statement -/

theorem coldReset_spec (s : State) :
    let t := s.coldReset
    t.mem = s.mem ∧ t.hbmLost = s.hbmLost + 1 ∧ t.ddrLost = s.ddrLost + 1 ∧ t.pending = s.pending ∧
    (∀ off, off ≠ Reg.hifBootstat → t.reg off = regReset off) ∧ t.ctxs = [] ∧ t.queues = [] ∧ t.cls = [] ∧ t.flights = [] ∧
    t.pools = [] ∧ t.ports = [] ∧ t.stp = .init ∧ t.snp = .init ∧ t.chk = .init ∧ t.pwr = .init ∧ t.sen = .init ∧
    t.sec.keys = false ∧ t.sec.storeKey = [] ∧ t.pins.thermtrip = false ∧
    t.sec.bootStep = (if s.pins.pwrgood ∧ s.pins.resetN ∧ s.pins.supplies then 1 else 0) := by
  have hreg := fun off => s.reg_coldReset (off := off)
  have hboot := s.coldReset_bootStep
  obtain ⟨rs, step, wait, push, h⟩ := s.coldHeld.tryBoot_shape
  rw [State.coldReset_eq, h] at hreg hboot ⊢
  exact ⟨rfl, rfl, rfl, rfl, hreg, rfl, rfl, rfl, rfl, rfl, rfl, rfl, rfl, rfl, rfl, rfl, rfl, rfl, rfl, hboot⟩

/-- What a warm reset keeps and loses outside the registers. -/
theorem warmReset_state (s : State) :
    let t := s.warmReset
    t.mem = s.mem ∧ t.hbmLost = s.hbmLost + 1 ∧ t.ddrLost = s.ddrLost ∧ t.pending = s.pending ∧ t.ctxs = [] ∧ t.queues = [] ∧
    t.cls = [] ∧ t.flights = [] ∧ t.pools = [] ∧ t.ports = [] ∧ t.stp = .init ∧ t.pwr = .init ∧ t.sen = .init ∧
    t.chk = { Chk.init with events := s.chk.events } ∧ t.snp = { Snp.init with slots := s.snp.slots, nextXid := s.snp.nextXid } := by
  obtain ⟨rs, step, wait, push, h⟩ := s.warmReset_shape
  rw [h]
  exact ⟨rfl, rfl, rfl, rfl, rfl, rfl, rfl, rfl, rfl, rfl, rfl, rfl, rfl, rfl, rfl⟩

theorem warmReset_keys_pins (s : State) :
    s.warmReset.sec.keys = s.sec.keys ∧ s.warmReset.sec.storeKey = [] ∧ s.warmReset.pins = s.pins := by
  obtain ⟨rs, step, wait, push, h⟩ := s.warmReset_shape
  rw [h]
  exact ⟨rfl, rfl, rfl⟩

/-- Settles O59: the commands, the two resets, the pins and the test port in turn. -/
theorem resetsAndPins : Obligations.ResetsAndPins := by
  refine ⟨fun s h => ⟨h.hifResetCold, h.hifResetWarm, h.cxlConventionalReset⟩, coldReset_spec, fun s => ?_, pwrgoodDeassert_spec,
    pwrgoodAssert_spec, supplyInTolerance_spec, resetNAssert_spec, resetNDeassert_spec, boundaryScan_spec, tapNext_five⟩
  obtain ⟨hmem, hhbm, hddr, hpend, hctx, hque, hcl, hfl, hpool, hport, hstp, hpwr, hsen, hchk, hsnp⟩ := warmReset_state s
  obtain ⟨hkeys, hstore, hpins⟩ := warmReset_keys_pins s
  refine ⟨hmem, hhbm, hddr, hpend, hctx, hque, hcl, hfl, hpool, hport, hstp, hpwr, hsen, hchk, hsnp, fun off hoff => ?_,
    s.warmReset_flagged, s.warmReset_peak, fun k hk => s.warmReset_slot hk, fun g e hg he => s.warmReset_engState hg he, hkeys, hstore,
    hpins, s.warmReset_fwver, s.warmReset_bootStep⟩
  simp only [not_or, not_exists, not_and] at hoff
  obtain ⟨hb, hf, hc, hp, h0, h1, he⟩ := hoff
  exact s.reg_warmReset hb hf hc hp h0 h1 he

end Machine

end Sys2Proof
end

section
/-! The cycles of an ABLK's shadow run, counted by the context that its job names, and a job that names none (R382, R383, R398). -/

namespace Sys2Proof

namespace Machine

/-! ### Cycle counters -/

/-- A cycle counter is at least what is added to it, as far as its width goes. -/
theorem State.le_get_addCycles (s : State) (off n : Nat) : min n (2 ^ 64 - 1) ≤ (s.addCycles off n).get off 63 0 := by
  have h : (s.addCycles off n).get off 63 0 = min (s.draw.2.get off 63 0 + (n + s.draw.1)) (2 ^ 64 - 1) :=
    s.draw.2.get_addSat off 63 0 (n + s.draw.1) (by decide) (by decide)
  omega

/-- The shadow pair's cycles of an ABLK are added to the context's counter. -/
theorem State.le_get_blockCycles (s : State) (j : Job) (rows e0 e1 : Nat) :
    min (j.headDim / 64 * pairCycles j.kt5 (pFormat (Desc.fmt j.db)).1 (Desc.fmt j.db) rows) (2 ^ 64 - 1) ≤
      (s.blockCycles j rows e0 e1).get (Reg.ctxEtmxe j.ctx) 63 0 :=
  State.le_get_addCycles _ (Reg.ctxEtmxe j.ctx) _

/-! ### A cluster without instructions -/

theorem State.engineRun_idle {s : State} {g e : Nat} (fs : List Flip) (h : ((s.cl g).eng e).queue = []) :
    s.engineRun g e fs = s := by
  simp [State.engineRun, State.engineGo, h]

theorem State.runEngines_idle {s : State} {g : Nat} (h : (s.cl g).engines = []) : s.runEngines g = s := by
  have hrun : ∀ e, s.engineRun g e [] = s := fun e => State.engineRun_idle [] (by simp [Cluster.eng, h, Tab.getD, Tab.find, Engine.idle])
  unfold State.runEngines
  induction List.range 16 with
  | nil => rfl
  | cons e rest ih => rw [List.foldl_cons, hrun, ih]

/-- Nothing goes on where nothing is queued. -/
theorem State.runWaiting_idle {s : State} {g : Nat} (he : (s.cl g).engines = []) (hq : (s.cl g).vq = []) : s.runWaiting g = s := by
  unfold State.runWaiting
  rw [State.runEngines_idle he]
  dsimp only
  split
  · next hj => simp [hq] at hj
  · rfl

/-! ### The counterexample -/

/-- An ABLK of head dimension 64 whose job names context 45,073, which the device does not have: the place of its ETMXE is that
of CHK.SHADOWS. -/
def strayJob : Job := ⟨0, 0, 45073, 0, [], [], List.replicate 0x24 0 ++ [64], [], [], [], false, Quad.ofNat 0⟩

/-- Its shadow run, which agrees with the unit's. -/
def strayUnit : ShadowUnit := ⟨0, 2, 0, [], [], .ablk (some ⟨strayJob, [], [], [], [], [], 0, 0⟩)⟩

/-- A running device whose cluster 0 holds nothing but this shadow unit. -/
def strayState : State :=
  { State.reset with sec := { Sec.init with bootStep := 5 }, cls := [(0, { Cluster.blank with shadows := [strayUnit] })] }

theorem ctxEtmxe_stray : Reg.ctxEtmxe strayJob.ctx = Reg.chkShadows := rfl

theorem strayJob_cycles :
    strayJob.headDim / 64 * pairCycles strayJob.kt5 (pFormat (Desc.fmt strayJob.db)).1 (Desc.fmt strayJob.db) 0 = 1 * 64 := by
  decide +kernel

/-- The state in which the comparison leaves the device. -/
def strayCompared : State :=
  ((strayState.modCl 0 fun c => { c with shadows := [] }).blockCycles strayJob 0 2 3).addWrap Reg.chkShadows 63 0 1

theorem strayUnit_agrees (tolexp : Nat) : (strayUnit.out tolexp []).result = strayUnit.orig := by
  simp [ShadowUnit.out, strayUnit, BlockArgs.shadow, writeRows, Memory.write, Tab.setD, Tab.erase]

theorem shadowCompare_stray : strayState.shadowCompare 0 0 [] [] = strayCompared := by
  have hu : (strayState.cl 0).shadows.find? (fun u => u.eng == 0) = some strayUnit := rfl
  have hh : strayUnit.engs.any (strayState.unitHeld 0) = false := rfl
  simp only [State.shadowCompare, hu, hh, State.endUnit, strayUnit_agrees]
  rfl

/-- The comparison runs and nothing is left to go on. -/
theorem exec_shadowCompare_stray : exec (.shadowCompare 0 0 [] []) strayState = .next strayCompared := by
  have hrun : strayState.running = true := by decide +kernel
  have hidle : strayCompared.runWaiting 0 = strayCompared := State.runWaiting_idle rfl rfl
  simp only [exec, execShadowCompare, State.whenRunning, hrun, if_true, shadowCompare_stray, hidle]

/-- The cycles of the shadow pair have been added to the register that counts the runs. -/
theorem chkShadows_stray : strayCompared.get Reg.chkShadows 63 0 ≠ 1 := by
  let t := (strayState.modCl 0 fun c => { c with shadows := [] }).blockCycles strayJob 0 2 3
  have hcyc : min (1 * 64) (2 ^ 64 - 1) ≤ t.get Reg.chkShadows 63 0 := by
    rw [← ctxEtmxe_stray, ← strayJob_cycles]
    exact State.le_get_blockCycles _ strayJob 0 2 3
  have hlt : t.get Reg.chkShadows 63 0 < 2 ^ 64 := t.get_lt _ _ _
  have hget : strayCompared.get Reg.chkShadows 63 0 = (t.get Reg.chkShadows 63 0 + 1) % 2 ^ 64 :=
    t.get_addWrap Reg.chkShadows 63 0 1 (by decide) (by decide)
  omega

/-- Refutes O54: the statement bounds the context of each cluster, but not the one that the job of a waiting ABLK shadow names. With
context 45,073 there, which the statement does not exclude, the comparison adds the pair's cycles at the place of
CHK.SHADOWS, and that register gains more than one. -/
theorem not_checkingAndTests : ¬ Obligations.CheckingAndTests := by
  rintro ⟨hshadow, -⟩
  obtain ⟨t, -, hidle, -, hcount, -⟩ := hshadow strayState 0 0 [] [] strayUnit (by decide +kernel) (by decide) (by decide)
    (fun n hn => by cases hn) rfl rfl
  have ht : strayCompared = t := by
    simpa [exec_shadowCompare_stray] using hidle (fun x hx => by cases hx) rfl
  have hzero : (strayState.detect (strayState.carrier 0) []).get Reg.chkShadows 63 0 = 0 := by decide +kernel
  rw [← ht, hzero] at hcount
  exact chkShadows_stray hcount

end Machine

end Sys2Proof
end

section
/-! Where the elements of an array of registers lie in the register map, and which block owns them (R11, R12, R17). -/

namespace Sys2Proof

/-! ### Arrays within a table -/

/-- Does a distance `D` beyond an element of an array with these dimensions stay within the element's stride? -/
def RegRow.room (dims : List (Nat × Nat)) (D : Nat) : Bool :=
  match dims with
  | [] => true
  | [(_, st)] => decide (D < st)
  | (_, st) :: (n, st') :: rest => decide (n * st' ≤ st) && RegRow.room ((n, st') :: rest) D

/-- One dimension: a distance within the stride does not reach the next element. -/
theorem RegRow.hits_cons_add {n st d D : Nat} (tail : List (Nat × Nat)) (hq : d / st < n) (hin : d % st + D < st) :
    RegRow.hits ((n, st) :: tail) (d + D) = RegRow.hits tail (d % st + D) ∧ d + D < n * st := by
  have hsum : d + D = (d % st + D) + st * (d / st) := by
    have := Nat.div_add_mod d st
    omega
  have hdiv : (d + D) / st = d / st := by
    rw [hsum, Nat.add_mul_div_left _ _ (by omega), Nat.div_eq_of_lt hin, Nat.zero_add]
  have hmod : (d + D) % st = d % st + D := by
    rw [hsum, Nat.add_mul_mod_self_left, Nat.mod_eq_of_lt hin]
  refine ⟨by simp [RegRow.hits, hdiv, hmod, hq], ?_⟩
  calc d + D < st + st * (d / st) := by omega
    _ = (d / st + 1) * st := by ring
    _ ≤ n * st := Nat.mul_le_mul_right _ hq

/-- A distance within an element goes on to the dimensions that lie in it, and stays within the array. -/
theorem RegRow.hits_add {dims : List (Nat × Nat)} {d D : Nat} (rest : List (Nat × Nat)) (hr : RegRow.room dims D = true)
    (hd : RegRow.hits dims d = true) :
    RegRow.hits (dims ++ rest) (d + D) = RegRow.hits rest D ∧ ∀ x tail, dims = x :: tail → d + D < x.1 * x.2 := by
  induction dims generalizing d with
  | nil => simp_all [RegRow.hits]
  | cons x tail ih =>
    obtain ⟨n, st⟩ := x
    simp only [RegRow.hits, Bool.and_eq_true, decide_eq_true_eq] at hd
    obtain ⟨hq, ht⟩ := hd
    have htail : d % st + D < st ∧ RegRow.hits (tail ++ rest) (d % st + D) = RegRow.hits rest D := by
      cases tail with
      | nil =>
        have hz : d % st = 0 := by simpa [RegRow.hits] using ht
        simpa [RegRow.room, hz] using hr
      | cons y tl =>
        simp only [RegRow.room, Bool.and_eq_true, decide_eq_true_eq] at hr
        obtain ⟨hst, hr⟩ := hr
        obtain ⟨hhits, hin⟩ := ih hr ht
        exact ⟨Nat.lt_of_lt_of_le (hin y tl rfl) hst, hhits⟩
    obtain ⟨hhits, hlt⟩ := RegRow.hits_cons_add (tail ++ rest) hq htail.1
    exact ⟨hhits.trans htail.2, fun x tl hx => by cases hx; exact hlt⟩

/-- A row that holds no element of the array `r`: a register before it, or an array with the same strides (and dimensions within
them) none of whose elements lies as far on as those of `r`. -/
def RegRow.passedBy (x r : RegRow) : Bool :=
  (x.dims.isEmpty && decide (x.base < r.base)) ||
    (decide (x.base ≤ r.base) && r.dims.isPrefixOf x.dims && RegRow.room r.dims (r.base - x.base) &&
      !RegRow.hits (x.dims.drop r.dims.length) (r.base - x.base))

theorem RegRow.misses_of_passedBy {x r : RegRow} {d : Nat} (h : x.passedBy r = true) (hd : RegRow.hits r.dims d = true) :
    (decide (x.base ≤ r.base + d) && RegRow.hits x.dims (r.base + d - x.base)) = false := by
  simp only [RegRow.passedBy, Bool.or_eq_true, Bool.and_eq_true, decide_eq_true_eq, List.isPrefixOf_iff_prefix, Bool.not_eq_true',
    List.isEmpty_iff] at h
  rcases h with ⟨hdims, hb⟩ | ⟨⟨⟨hb, tail, htail⟩, hroom⟩, hmiss⟩
  · simp [hdims, RegRow.hits]
    omega
  · rw [← htail, List.drop_left] at hmiss
    rw [← htail, show r.base + d - x.base = d + (r.base - x.base) by omega, (RegRow.hits_add tail hroom hd).1, hmiss, Bool.and_false]

/-- An element of an array is found where every row before the array's own passes it by. -/
theorem RegRow.at_array {rows : List RegRow} {r : RegRow} {d : Nat} (hf : rows.find? (fun x => !x.passedBy r) = some r)
    (hd : RegRow.hits r.dims d = true) : RegRow.at? rows (r.base + d) = some r := by
  induction rows with
  | nil => cases hf
  | cons x rest ih =>
    cases hx : x.passedBy r with
    | true =>
      rw [List.find?_cons, hx] at hf
      rw [Machine.RegRow.at_cons_neg (RegRow.misses_of_passedBy hx hd), ih hf]
    | false =>
      rw [List.find?_cons, hx] at hf
      obtain rfl : x = r := Option.some.inj hf
      exact Machine.RegRow.at_cons_pos (by simp [hd])

namespace Machine

/-! ### One register of the map -/

/-- The array of the map that begins at `base`: its dimensions, its width, a range of bits that its fields cover, and that the
rows before it pass it by. -/
def isArray (base : Nat) (dims : List (Nat × Nat)) (width hi lo : Nat) : Bool :=
  (rowOf base).base == base && (rowOf base).dims == dims && (rowOf base).width == width &&
    (bitsOf hi lo &&& (rowOf base).usedMask == bitsOf hi lo) &&
    ((regRows base).find? (fun x => !x.passedBy (rowOf base)) == some (rowOf base))

/-- The place of a register: the array it belongs to and its index there, the VIOLCNT of its block, its width, and a range of
bits that its fields cover. -/
structure RegPlace (off base viol i j width hi lo : Nat) : Prop where
  row : regAt off = some (rowOf base)
  base_eq : (rowOf base).base = base
  width_eq : (rowOf base).width = width
  used : bitsOf hi lo &&& (rowOf base).usedMask = bitsOf hi lo
  index : regIndex (rowOf base) off = (i, j)
  owner : ownerViol off = some viol
  notViol : isViol off = false
  below : off < bar4

/-- An offset beyond block CFG's VIOLCNTs, which is not that of its own block's. -/
theorem isViol_false {off viol : Nat} (ho : ownerViol off = some viol) (hv : off ≠ viol) (hq : Reg.queViolcnt < off) :
    isViol off = false := by
  have hc : off ≠ Reg.ctxViolcnt := by
    simp only [Reg.queViolcnt, Reg.ctxViolcnt] at hq ⊢
    omega
  simp [isViol, ho, hc, Nat.ne_of_gt hq, hv.symm]

/-- The rows of a block at an offset, and the VIOLCNT that the offset counts in. -/
def InBlock (off : Nat) (rows : List RegRow) (viol : Nat) : Prop := regRows off = rows ∧ ownerViol off = some viol

/-- An element of an array of one dimension. -/
theorem RegPlace.of_array {off base viol i n st width hi lo : Nat} (ha : isArray base [(n, st)] width hi lo = true) (hi' : i < n)
    (hst : 0 < st) (hoff : off = base + st * i) {rows : List RegRow} (hblk : InBlock off rows viol) (hrows : regRows base = rows)
    (hout : off ≠ viol ∧ Reg.queViolcnt < off ∧ off < bar4) : RegPlace off base viol i 0 width hi lo := by
  simp only [isArray, Bool.and_eq_true, beq_iff_eq] at ha
  obtain ⟨⟨⟨⟨hbase, hdims⟩, hwidth⟩, hused⟩, hfind⟩ := ha
  have hdist : off - base = st * i := by omega
  have hhit : RegRow.hits (rowOf base).dims (st * i) = true := by
    simp [hdims, RegRow.hits, Nat.mul_div_cancel_left _ hst, hi']
  refine ⟨?_, hbase, hwidth, hused, ?_, hblk.2, isViol_false hblk.2 hout.1 hout.2.1, hout.2.2⟩
  · have := RegRow.at_array hfind hhit
    rwa [hbase, ← hoff, hrows, ← hblk.1] at this
  · simp [regIndex, hdims, hbase, hdist, Nat.mul_div_cancel_left _ hst]

/-- An element of an array of two dimensions. -/
theorem RegPlace.of_array2 {off base viol i j n m st st2 width hi lo : Nat} (ha : isArray base [(n, st), (m, st2)] width hi lo = true)
    (hi' : i < n) (hj : j < m) (hst2 : 0 < st2) (hfit : m * st2 ≤ st) (hoff : off = base + (st * i + st2 * j))
    {rows : List RegRow} (hblk : InBlock off rows viol) (hrows : regRows base = rows)
    (hout : off ≠ viol ∧ Reg.queViolcnt < off ∧ off < bar4) :
    RegPlace off base viol i j width hi lo := by
  simp only [isArray, Bool.and_eq_true, beq_iff_eq] at ha
  obtain ⟨⟨⟨⟨hbase, hdims⟩, hwidth⟩, hused⟩, hfind⟩ := ha
  have hlt : st2 * j < st := by
    calc st2 * j < st2 * m := Nat.mul_lt_mul_of_pos_left hj hst2
      _ = m * st2 := Nat.mul_comm _ _
      _ ≤ st := hfit
  have hdiv : (st * i + st2 * j) / st = i := by
    rw [Nat.mul_add_div (by omega), Nat.div_eq_of_lt hlt, Nat.add_zero]
  have hmod : (st * i + st2 * j) % st = st2 * j := by
    rw [Nat.mul_add_mod, Nat.mod_eq_of_lt hlt]
  have hdist : off - base = st * i + st2 * j := by omega
  have hhit : RegRow.hits (rowOf base).dims (st * i + st2 * j) = true := by
    simp [hdims, RegRow.hits, hdiv, hmod, Nat.mul_div_cancel_left _ hst2, hi', hj]
  refine ⟨?_, hbase, hwidth, hused, ?_, hblk.2, isViol_false hblk.2 hout.1 hout.2.1, hout.2.2⟩
  · have := RegRow.at_array hfind hhit
    rwa [hbase, ← hoff, hrows, ← hblk.1] at this
  · simp [regIndex, hdims, hbase, hdist, hdiv, hmod, Nat.mul_div_cancel_left _ hst2]

/-- A register that is no array. -/
theorem RegPlace.of_single {off viol width hi lo : Nat} (ha : isArray off [] width hi lo = true) (ho : ownerViol off = some viol)
    (hv : isViol off = false) (hb : off < bar4) : RegPlace off off viol 0 0 width hi lo := by
  simp only [isArray, Bool.and_eq_true, beq_iff_eq] at ha
  obtain ⟨⟨⟨⟨hbase, hdims⟩, hwidth⟩, hused⟩, hfind⟩ := ha
  refine ⟨?_, hbase, hwidth, hused, by simp [regIndex, hdims], ho, hv, hb⟩
  have := RegRow.at_array (d := 0) hfind (by simp [hdims, RegRow.hits])
  rwa [hbase] at this

/-! ### The blocks' ranges -/

theorem inBlock_ctx {off : Nat} (h0 : 0x100000 ≤ off) (h1 : off < 0x200000) : InBlock off regsCtx Reg.ctxViolcnt := by
  constructor <;> simp (disch := omega) only [regRows, ownerViol, if_neg, if_pos]

theorem inBlock_que {off : Nat} (h0 : 0x200000 ≤ off) (h1 : off < 0x400000) : InBlock off regsQue Reg.queViolcnt := by
  constructor <;> simp (disch := omega) only [regRows, ownerViol, if_neg, if_pos]

theorem inBlock_ldg {t o : Nat} (ht : t < 12) (ho : o < 0x8000) : InBlock (0x800000 + 0x10000 * t + o) regsLdg (Reg.ldgViolcnt t) := by
  have hdiv : (0x800000 + 0x10000 * t + o - 0x800000) / 0x10000 = t := by omega
  constructor <;> simp (disch := omega) only [regRows, ownerViol, if_neg, if_pos, hdiv]

theorem inBlock_chkctl {g : Nat} (hg : g < 64) : InBlock (Reg.mxeChkctl g) regsMxe (Reg.mxeViolcnt g) := by
  unfold Reg.mxeChkctl
  have hdiv : (0x401800 + 0x10000 * g - 0x400000) / 0x10000 = g := by omega
  have hmod : (0x401800 + 0x10000 * g) % 0x10000 = 0x1800 := by omega
  constructor <;> simp (disch := omega) only [regRows, ownerViol, if_neg, if_pos, hdiv, hmod]
  · rfl

theorem inBlock_mdl {off : Nat} (h0 : 0xa00000 ≤ off) (h1 : off < 0xa08000) : InBlock off regsMdl Reg.mdlViolcnt := by
  constructor <;> simp (disch := omega) only [regRows, ownerViol, if_neg, if_pos]

theorem inBlock_plantab {off : Nat} (h0 : 0xa10000 ≤ off) (h1 : off < 0xa18000) : InBlock off regsCol Reg.colViolcnt := by
  constructor <;> simp (disch := omega) only [regRows, ownerViol, if_neg, if_pos]

theorem inBlock_chk {off : Nat} (h0 : 0xc01000 ≤ off) (h1 : off < 0xc02000) : InBlock off regsChk Reg.chkViolcnt := by
  constructor <;> simp (disch := omega) only [regRows, ownerViol, if_neg, if_pos]

theorem inBlock_snp {off : Nat} (h0 : 0xc02000 ≤ off) (h1 : off < 0xc03000) : InBlock off regsSnp Reg.snpViolcnt := by
  constructor <;> simp (disch := omega) only [regRows, ownerViol, if_neg, if_pos]

theorem inBlock_part {off : Nat} (h0 : 0x1000 ≤ off) (h1 : off < 0x2000) : InBlock off (regRows 0x1000) Reg.cfgViolcnt := by
  constructor <;> simp (disch := omega) only [regRows, ownerViol, if_neg, if_pos]

/-! ### The registers with conditions -/

theorem place_ctx {base n hi lo : Nat} (ha : isArray base [(4096, 0x100)] 64 hi lo = true) (h0 : 0x100000 ≤ base)
    (h1 : base < 0x100100) (hn : n < 4096) : RegPlace (base + 0x100 * n) base Reg.ctxViolcnt n 0 64 hi lo := by
  have hblk : InBlock (base + 0x100 * n) regsCtx Reg.ctxViolcnt := inBlock_ctx (by omega) (by omega)
  refine .of_array ha hn (by decide) rfl hblk (inBlock_ctx h0 (by omega)).1 ?_
  simp only [Reg.ctxViolcnt, Reg.queViolcnt, bar4]
  omega

theorem place_que {base q hi lo : Nat} (ha : isArray base [(32768, 0x40)] 64 hi lo = true) (h0 : 0x200000 ≤ base)
    (h1 : base < 0x200040) (hq : q < 32768) : RegPlace (base + 0x40 * q) base Reg.queViolcnt q 0 64 hi lo := by
  have hblk : InBlock (base + 0x40 * q) regsQue Reg.queViolcnt := inBlock_que (by omega) (by omega)
  refine .of_array ha hq (by decide) rfl hblk (inBlock_que h0 (by omega)).1 ?_
  simp only [Reg.queViolcnt, bar4]
  omega

/-- A register `d` bytes into the window of each pool. -/
theorem place_pool {d k hi lo : Nat} (ha : isArray (0x800000 + d) [(12, 0x10000), (128, 0x40)] 64 hi lo = true) (hd : d < 0x40)
    (hk : k < 1536) : RegPlace (0x800000 + d + 0x10000 * (k / 128) + 0x40 * (k % 128)) (0x800000 + d) (Reg.ldgViolcnt (k / 128))
      (k / 128) (k % 128) 64 hi lo := by
  have hoff : 0x800000 + d + 0x10000 * (k / 128) + 0x40 * (k % 128) = 0x800000 + 0x10000 * (k / 128) + (d + 0x40 * (k % 128)) := by
    omega
  have hblk : InBlock (0x800000 + d + 0x10000 * (k / 128) + 0x40 * (k % 128)) regsLdg (Reg.ldgViolcnt (k / 128)) :=
    hoff ▸ inBlock_ldg (by omega) (by omega)
  refine .of_array2 ha (by omega) (by omega) (by decide) (by decide) (by omega) hblk (inBlock_ldg (t := 0) (by decide) (by omega)).1 ?_
  simp only [Reg.queViolcnt, Reg.ldgViolcnt, bar4]
  omega

theorem place_plantab {n : Nat} (hn : n < 4096) : RegPlace (Reg.colPlantab n) (Reg.colPlantab 0) Reg.colViolcnt n 0 64 47 12 := by
  have hoff : Reg.colPlantab n = 0xa10000 + 8 * n := rfl
  have hblk : InBlock (Reg.colPlantab n) regsCol Reg.colViolcnt := inBlock_plantab (by omega) (by omega)
  refine .of_array (by decide +kernel) hn (by decide) hoff hblk rfl ?_
  simp only [Reg.queViolcnt, Reg.colViolcnt, bar4]
  omega

theorem place_chkctl {g : Nat} (hg : g < 64) : RegPlace (Reg.mxeChkctl g) (Reg.mxeChkctl 0) (Reg.mxeViolcnt g) g 0 32 4 0 := by
  refine .of_array (by decide +kernel) hg (by decide) rfl (inBlock_chkctl hg) rfl ?_
  simp only [Reg.mxeChkctl, Reg.queViolcnt, Reg.mxeViolcnt, bar4]
  omega

theorem place_partemu {p : Nat} (hp : p < 64) : RegPlace (Reg.cfgPartemu p) (Reg.cfgPartemu 0) Reg.cfgViolcnt p 0 32 0 0 := by
  have hoff : Reg.cfgPartemu p = 0x100c + 0x10 * p := rfl
  refine .of_array (by decide +kernel) hp (by decide) hoff (inBlock_part (by omega) (by omega)) rfl ?_
  simp only [Reg.queViolcnt, Reg.cfgViolcnt, bar4]
  omega

theorem place_level {p : Nat} (hp : p < 64) : RegPlace (Reg.chkLevel p) (Reg.chkLevel 0) Reg.chkViolcnt p 0 32 2 0 := by
  have hoff : Reg.chkLevel p = 0xc01000 + 4 * p := rfl
  refine .of_array (by decide +kernel) hp (by decide) hoff (inBlock_chk (by omega) (by omega)) rfl ?_
  simp only [Reg.queViolcnt, Reg.chkViolcnt, bar4]
  omega

theorem place_pgrant {m : Nat} (hm : m < 32) : RegPlace (Reg.mdlPgrant m) (Reg.mdlPgrant 0) Reg.mdlViolcnt m 0 64 55 0 := by
  have hoff : Reg.mdlPgrant m = 0xa00008 + 0x100 * m := rfl
  refine .of_array (by decide +kernel) hm (by decide) hoff (inBlock_mdl (by omega) (by omega)) rfl ?_
  simp only [Reg.queViolcnt, Reg.mdlViolcnt, bar4]
  omega

theorem place_area {c : Nat} (hc : c < 12) : RegPlace (Reg.snpArea c) (Reg.snpArea 0) Reg.snpViolcnt c 0 64 51 0 := by
  have hoff : Reg.snpArea c = 0xc02008 + 8 * c := rfl
  refine .of_array (by decide +kernel) hc (by decide) hoff (inBlock_snp (by omega) (by omega)) rfl ?_
  simp only [Reg.queViolcnt, Reg.snpViolcnt, bar4]
  omega

theorem place_storecfg : RegPlace Reg.mdlStorecfg Reg.mdlStorecfg Reg.mdlViolcnt 0 0 32 15 0 :=
  .of_single (by decide +kernel) (by decide +kernel) (by decide +kernel) (by decide)

theorem place_watch : RegPlace Reg.chkWatch Reg.chkWatch Reg.chkViolcnt 0 0 32 15 0 :=
  .of_single (by decide +kernel) (by decide +kernel) (by decide +kernel) (by decide)

theorem place_droopcfg : RegPlace Reg.clkDroopcfg Reg.clkDroopcfg Reg.clkViolcnt 0 0 32 7 0 :=
  .of_single (by decide +kernel) (by decide +kernel) (by decide +kernel) (by decide)

theorem place_role : RegPlace Reg.stpRole Reg.stpRole Reg.stpViolcnt 0 0 64 63 26 :=
  .of_single (by decide +kernel) (by decide +kernel) (by decide +kernel) (by decide)

theorem place_govtab {k : Nat} (hk : k < 4) : RegPlace (Reg.pwrGovtab k) (Reg.pwrGovtab k) Reg.pwrViolcnt 0 0 64 47 0 := by
  have hrow : ∀ k < 4, isArray (Reg.pwrGovtab k) [] 64 47 0 = true ∧ ownerViol (Reg.pwrGovtab k) = some Reg.pwrViolcnt ∧
      isViol (Reg.pwrGovtab k) = false ∧ Reg.pwrGovtab k < bar4 := by decide +kernel
  obtain ⟨ha, ho, hv, hb⟩ := hrow k hk
  exact .of_single ha ho hv hb

end Machine

end Sys2Proof
end

section
/-! The write of a register with a condition of its own, and of the fields that it takes or refuses (R13, R17, R53, R446). -/

namespace Sys2Proof

/-! ### Bits of a field -/

/-- A number that lies within bits [hi:lo] is covered by their mask. -/
theorem and_bitsOf_eq_self {v hi lo : Nat} (hlo : v % 2 ^ lo = 0) (hhi : v < 2 ^ (hi + 1)) (h : lo ≤ hi + 1) :
    v &&& Machine.bitsOf hi lo = v := by
  apply Nat.eq_of_testBit_eq
  intro i
  rw [Nat.testBit_and, Machine.testBit_bitsOf _ _ _ h]
  by_cases hin : lo ≤ i ∧ i ≤ hi
  · simp [hin]
  · have hv : v.testBit i = false := by
      rcases Nat.lt_or_ge i lo with hl | hl
      · have := Nat.testBit_mod_two_pow v lo i
        simpa [hlo, hl] using this.symm
      · exact Nat.testBit_lt_two_pow (Nat.lt_of_lt_of_le hhi (Nat.pow_le_pow_right (by decide) (by omega)))
    simp [hv]

/-- A mask of ones covers every field that it reaches. -/
theorem fld_ones_ne_zero {w hi lo : Nat} (h : lo ≤ hi) (hw : lo < w) : fld (2 ^ w - 1) hi lo ≠ 0 := by
  intro h0
  have hbit := testBit_fld (2 ^ w - 1) hi lo 0
  rw [h0, Nat.testBit_two_pow_sub_one] at hbit
  simp only [Nat.zero_testBit, Nat.add_zero, hw, decide_true, Bool.and_true] at hbit
  exact absurd hbit.symm (by simpa using h)

theorem fld_eq_self {v hi : Nat} (h : v < 2 ^ (hi + 1)) : fld v hi 0 = v := by
  simpa [fld] using Nat.mod_eq_of_lt h

namespace Machine

/-! ### The register that a write reaches -/

/-- The write of a register that has one of its own. -/
def State.writeOwn (s : State) (o : Origin) (b i j off mask v : Nat) : Option State :=
  (s.writeCore o b i off mask v).or ((s.writePlatform o b i j mask v).or (s.writeFabric o b i j off mask v))

/-- Where no reserved bit is set, a write is the register's own, or that of its fields where it has none. -/
theorem State.writeReg_clean (s : State) (o : Origin) {off base viol i j width hi lo mask v : Nat}
    (p : RegPlace off base viol i j width hi lo) (hv : v &&& mask &&& (rowOf base).usedMask = v &&& mask) :
    s.writeReg o (rowOf base) off mask v =
      (s.writeOwn o base i j off mask v).getD (s.writeFields off mask v (rowOf base).fields) := by
  have hclean : ∀ viol', s.violateIf (v &&& mask != v &&& mask &&& (rowOf base).usedMask) viol' o = s := fun _ => by
    simp [hv, State.violateIf]
  simp only [State.writeReg, p.notViol, p.index, p.base_eq, hclean, State.writeOwn]
  cases s.writeCore o base i off mask v with
  | some u => rfl
  | none =>
    cases s.writePlatform o base i j mask v with
    | some u => rfl
    | none => cases s.writeFabric o base i j off mask v <;> rfl

/-- Bits within the range of a register's fields are none that it reserves. -/
theorem RegPlace.covers {off base viol i j width hi lo v : Nat} (p : RegPlace off base viol i j width hi lo) (h : lo ≤ hi + 1)
    (hlo : v % 2 ^ lo = 0) (hhi : v < 2 ^ (hi + 1)) : v &&& (rowOf base).usedMask = v := by
  have hb : v &&& bitsOf hi lo = v := and_bitsOf_eq_self hlo hhi h
  calc v &&& (rowOf base).usedMask = v &&& (bitsOf hi lo &&& (rowOf base).usedMask) := by rw [← Nat.and_assoc, hb]
    _ = v := by rw [p.used, hb]

/-- A write of 8 bytes to a 64-bit register, by an origin that uses BAR0 and may write it. -/
theorem State.Up.regWrite8 {s : State} (h : s.Up) {o : Origin} (hom : o ≠ .mgmt) {off v : Nat} {r : RegRow} (hr : regAt off = some r)
    (hw : r.width = 64) (ha : off % 8 = 0) (ho : (ownerViol off).isSome = true) (hm : s.mayAccess o true off = true) :
    s.regWrite o off 8 v = s.writeReg o r off (2 ^ 64 - 1) (v % 2 ^ 64) := by
  simp [State.regWrite, hom, State.barWrite, h.hostUp, State.accessViol, h.accessBad (.inr rfl) ha ho, isWide, State.writePart, regPart,
    hr, hw, hm]

/-- REGISTER_WRITE of 8 bytes to a register with a write of its own. -/
theorem State.Up.exec_write8 {s t : State} (h : s.Up) {off base viol i j hi lo v : Nat} (p : RegPlace off base viol i j 64 hi lo)
    (ha : off % 8 = 0) {o : Origin} (hom : o ≠ .mgmt) (hm : s.mayAccess o true off = true) (hord : lo ≤ hi) (hi64 : hi < 64)
    (hlo : v % 2 ^ lo = 0) (hhi : v < 2 ^ (hi + 1)) (hw : s.writeOwn o base i j off (2 ^ 64 - 1) v = some t) :
    exec (.registerWrite o off 8 (some v)) s = .next t := by
  have hv64 : v < 2 ^ 64 := Nat.lt_of_lt_of_le hhi (Nat.pow_le_pow_right (by decide) hi64)
  have hclean : v &&& (2 ^ 64 - 1) &&& (rowOf base).usedMask = v &&& (2 ^ 64 - 1) := by
    rw [Nat.and_two_pow_sub_one_eq_mod, Nat.mod_eq_of_lt hv64, p.covers (by omega) hlo hhi]
  rw [exec_registerWrite_some s o 8 v p.below, h.regWrite8 hom p.row (p.base_eq ▸ p.width_eq) ha (by rw [p.owner]; rfl) hm,
    Nat.mod_eq_of_lt hv64, s.writeReg_clean o p hclean, hw, Option.getD_some]

/-- REGISTER_WRITE of 4 bytes by the host to a register with a write of its own. -/
theorem State.Up.exec_write4 {s t : State} (h : s.Up) {off base viol i j width hi v : Nat} (p : RegPlace off base viol i j width hi 0)
    (ha : off % 4 = 0) (hi32 : hi < 32) (hhi : v < 2 ^ (hi + 1)) (hw : s.writeOwn .host base i j off (2 ^ 32 - 1) v = some t) :
    exec (.registerWrite .host off 4 (some v)) s = .next t := by
  have hv32 : v < 2 ^ 32 := Nat.lt_of_lt_of_le hhi (Nat.pow_le_pow_right (by decide) hi32)
  have hclean : v &&& (2 ^ 32 - 1) &&& (rowOf base).usedMask = v &&& (2 ^ 32 - 1) := by
    rw [Nat.and_two_pow_sub_one_eq_mod, Nat.mod_eq_of_lt hv32, p.covers (by omega) (by simp [Nat.mod_one]) hhi]
  rw [exec_registerWrite_some s .host 4 v p.below, h.write4 p.row ha (by rw [p.owner]; rfl), Nat.mod_eq_of_lt hv32,
    s.writeReg_clean .host p hclean, hw, Option.getD_some]

/-! ### A field taken or refused -/

theorem RegsOnly.onlyRegs {s t : State} (h : RegsOnly s t) {p : Nat → Bool} (hr : ∀ off, p off = false → t.reg off = s.reg off) :
    s.OnlyRegs p t := ⟨h.rest, hr⟩

theorem State.writeWhen_closed (s : State) {viol : Nat} {o : Origin} {off hi lo mask v : Nat} (h : fld mask hi lo ≠ 0) :
    s.writeWhen false viol o off hi lo mask v = s.violate viol o := by
  simp [State.writeWhen, h]

/-- An accepted write is that of a field of type RW. -/
theorem State.writeWhen_open (s : State) {viol : Nat} {o : Origin} {off hi lo mask v : Nat} (h : fld mask hi lo ≠ 0) :
    s.writeWhen true viol o off hi lo mask v = s.writeFieldOf off mask v ⟨hi, lo, .rw, 0⟩ := by
  simp [State.writeWhen, h, State.writeFieldOf, Nat.and_assoc]

theorem State.writeField_eq (s : State) {off hi lo mask v : Nat} {ok : Nat → Bool} (h : fld mask hi lo ≠ 0) :
    s.writeField off hi lo mask v ok = if ok (fld v hi lo) then s.set off hi lo (fld v hi lo) else s := by
  simp [State.writeField, h]

theorem badField_eq {hi lo mask v : Nat} {ok : Nat → Bool} (h : fld mask hi lo ≠ 0) : badField mask v hi lo ok = !ok (fld v hi lo) := by
  simp [badField, h]

theorem RegsOnly.writeField (s : State) (off hi lo mask v : Nat) (ok : Nat → Bool) : RegsOnly s (s.writeField off hi lo mask v ok) := by
  unfold State.writeField
  split
  · exact .set s off hi lo _
  · exact .refl s

theorem State.reg_writeField_ne (s : State) {off o : Nat} (hi lo mask v : Nat) (ok : Nat → Bool) (h : o ≠ off) :
    (s.writeField off hi lo mask v ok).reg o = s.reg o := by
  unfold State.writeField
  split
  · exact s.reg_set_ne hi lo _ h
  · rfl

/-- The field takes the value written where it is accepted, and keeps its own where it is not. -/
theorem State.get_writeField_same (s : State) {off hi lo mask v : Nat} {ok : Nat → Bool} (h : fld mask hi lo ≠ 0) (hlo : lo ≤ hi)
    (h64 : hi < 64) :
    (s.writeField off hi lo mask v ok).get off hi lo = if ok (fld v hi lo) then fld v hi lo else s.get off hi lo := by
  rw [s.writeField_eq h]
  split
  · rw [s.get_set_same _ _ _ _ hlo h64, Nat.mod_eq_of_lt (fld_lt v hi lo)]
  · rfl

/-- A field that does not meet the one written. -/
theorem State.get_writeField_ne (s : State) {off hi lo hi' lo' : Nat} (mask v : Nat) (ok : Nat → Bool) (hlo : lo ≤ hi + 1) (h64 : hi' < 64)
    (hd : hi < lo' ∨ hi' < lo) : (s.writeField off hi lo mask v ok).get off hi' lo' = s.get off hi' lo' := by
  unfold State.writeField
  split
  · exact s.get_set_ne _ _ _ _ _ _ hlo h64 hd
  · rfl

/-! ### Gated registers (R53, R58, R274, R275, R371) -/

/-- A gated register of the map, whose write is one of its bits while it is open. -/
structure GateWrite (s : State) (off hi lo : Nat) (isOpen : Bool) (viol base own i j : Nat) : Prop where
  place : RegPlace off base own i j 64 hi lo
  aligned : off % 8 = 0
  field : lo ≤ hi ∧ hi < 64
  write : ∀ o mask v, s.writeOwn o base i j off mask v = some (s.writeWhen isOpen viol o off hi lo mask v)

theorem place_ptbase {n : Nat} (hn : n < 4096) : RegPlace (Reg.ctxPtbase n) (Reg.ctxPtbase 0) Reg.ctxViolcnt n 0 64 51 12 :=
  place_ctx (by decide +kernel) (by decide) (by decide) hn

theorem place_descbase {n : Nat} (hn : n < 4096) : RegPlace (Reg.ctxDescbase n) (Reg.ctxDescbase 0) Reg.ctxViolcnt n 0 64 47 16 :=
  place_ctx (by decide +kernel) (by decide) (by decide) hn

theorem place_cocoon {n : Nat} (hn : n < 4096) : RegPlace (Reg.ctxCocoon n) (Reg.ctxCocoon 0) Reg.ctxViolcnt n 0 64 38 21 :=
  place_ctx (by decide +kernel) (by decide) (by decide) hn

theorem place_base {q : Nat} (hq : q < 32768) : RegPlace (Reg.queBase q) (Reg.queBase 0) Reg.queViolcnt q 0 64 47 12 :=
  place_que (by decide +kernel) (by decide) (by decide) hq

theorem place_cplbase {q : Nat} (hq : q < 32768) : RegPlace (Reg.queCplbase q) (Reg.queCplbase 0) Reg.queViolcnt q 0 64 47 12 :=
  place_que (by decide +kernel) (by decide) (by decide) hq

/-- A gated register of the windows of contexts: the model's conditions for the three of block CTX. -/
theorem State.writeOwn_ctxBase (s : State) (o : Origin) (n mask v : Nat) :
    s.writeOwn o (Reg.ctxPtbase 0) n 0 (Reg.ctxPtbase n) mask v =
      some (s.writeWhen (s.cstate n == stFree) Reg.ctxViolcnt o (Reg.ctxPtbase n) 51 12 mask v) ∧
    s.writeOwn o (Reg.ctxDescbase 0) n 0 (Reg.ctxDescbase n) mask v =
      some (s.writeWhen (s.cstate n == stFree || s.cstate n == stBound) Reg.ctxViolcnt o (Reg.ctxDescbase n) 47 16 mask v) ∧
    s.writeOwn o (Reg.ctxCocoon 0) n 0 (Reg.ctxCocoon n) mask v =
      some (s.writeWhen (s.cstate n == stFree || s.cstate n == stBound) Reg.ctxViolcnt o (Reg.ctxCocoon n) 38 21 mask v) := by
  have hown : ∀ b ∈ [Reg.ctxPtbase 0, Reg.ctxDescbase 0, Reg.ctxCocoon 0], ∀ off,
      s.writeOwn o b n 0 off mask v = some (s.writeCtxBase o n off mask v) := by
    simp only [List.forall_mem_cons, List.not_mem_nil, false_imp_iff, implies_true, and_true]
    exact ⟨fun _ => rfl, fun _ => rfl, fun _ => rfl⟩
  rw [hown _ (by simp), hown _ (by simp), hown _ (by simp)]
  simp [State.writeCtxBase, Reg.ctxPtbase, Reg.ctxDescbase, Reg.ctxCocoon]

/-- A gated register `d` bytes into the window of each pool. -/
theorem GateWrite.of_pool {s : State} {d k hi lo : Nat} (ha : isArray (0x800000 + d) [(12, 0x10000), (128, 0x40)] 64 hi lo = true)
    (hd : d < 0x40 ∧ d % 8 = 0) (hk : k < 1536) (hf : lo ≤ hi ∧ hi < 64)
    (hw : ∀ o i j off mask v, s.writeOwn o (0x800000 + d) i j off mask v =
      some (s.writeWhen (!bit (s.pctl (128 * i + j)) 63) (Reg.ldgViolcnt i) o off hi lo mask v)) :
    GateWrite s (0x800000 + d + 0x10000 * (k / 128) + 0x40 * (k % 128)) hi lo (!bit (s.pctl k) 63) (Reg.ldgViolcnt (poolStack k))
      (0x800000 + d) (Reg.ldgViolcnt (k / 128)) (k / 128) (k % 128) := by
  refine ⟨place_pool ha hd.1 hk, by omega, hf, fun o mask v => ?_⟩
  rw [hw, Nat.div_add_mod]
  rfl

/-- Each gated register lies in the map, and is written while it is open. -/
theorem gatedRegs_write {s : State} {n q k : Nat} (hn : n < 4096) (hq : q < 32768) (hk : k < 1536) :
    ∀ x ∈ gatedRegs s n q k, ∃ base own i j, GateWrite s x.off x.hi x.lo x.isOpen x.viol base own i j := by
  have hctx := fun o => s.writeOwn_ctxBase o n
  have halign : ∀ b c, b % 8 = 0 → c % 8 = 0 → (b + c * n) % 8 = 0 ∧ (b + c * q) % 8 = 0 := fun b c hb hc => by
    simp [Nat.add_mod, Nat.mul_mod, hb, hc]
  simp only [gatedRegs, List.forall_mem_cons, List.not_mem_nil, false_imp_iff, implies_true, and_true]
  refine ⟨⟨_, _, _, _, place_ptbase hn, (halign _ _ rfl rfl).1, by decide, fun o mask v => (hctx o mask v).1⟩,
    ⟨_, _, _, _, place_descbase hn, (halign _ _ rfl rfl).1, by decide, fun o mask v => (hctx o mask v).2.1⟩,
    ⟨_, _, _, _, place_cocoon hn, (halign _ _ rfl rfl).1, by decide, fun o mask v => (hctx o mask v).2.2⟩,
    ⟨_, _, _, _, place_plantab hn, (halign _ _ rfl rfl).1, by decide, fun _ _ _ => rfl⟩,
    ⟨_, _, _, _, place_base hq, (halign _ _ rfl rfl).2, by decide, fun _ _ _ => rfl⟩,
    ⟨_, _, _, _, place_cplbase hq, (halign _ _ rfl rfl).2, by decide, fun _ _ _ => rfl⟩,
    ⟨_, _, _, _, .of_pool (d := 0x08) (by decide +kernel) (by decide) hk (by decide) fun _ _ _ _ _ _ => rfl⟩,
    ⟨_, _, _, _, .of_pool (d := 0x10) (by decide +kernel) (by decide) hk (by decide) fun _ _ _ _ _ _ => rfl⟩,
    ⟨_, _, _, _, .of_pool (d := 0x18) (by decide +kernel) (by decide) hk (by decide) fun _ _ _ _ _ _ => rfl⟩,
    ⟨_, _, _, _, .of_pool (d := 0x20) (by decide +kernel) (by decide) hk (by decide) fun _ _ _ _ _ _ => rfl⟩,
    ⟨_, _, _, _, .of_pool (d := 0x28) (by decide +kernel) (by decide) hk (by decide) fun _ _ _ _ _ _ => rfl⟩,
    ⟨_, _, _, _, .of_pool (d := 0x30) (by decide +kernel) (by decide) hk (by decide) fun _ _ _ _ _ _ => rfl⟩⟩

/-- A gated register takes a write while it is open, and counts it otherwise. -/
theorem GateWrite.exec_write {s : State} {off hi lo viol base own i j : Nat} {isOpen : Bool} (g : GateWrite s off hi lo isOpen viol base own i j)
    (h : s.Up) {o : Origin} (hom : o ≠ .mgmt) (hm : s.mayAccess o true off = true) {v : Nat} (hlo : v % 2 ^ lo = 0)
    (hhi : v < 2 ^ (hi + 1)) :
    (isOpen = true → ∃ t, exec (.registerWrite o off 8 (some v)) s = .next t ∧ t.get off hi lo = fld v hi lo ∧
      s.OnlyRegs (· == off) t) ∧
    (isOpen = false → exec (.registerWrite o off 8 (some v)) s = .next (s.violate viol o)) := by
  obtain ⟨hp, ha, ⟨hord, h64⟩, hw⟩ := g
  have hmask : fld (2 ^ 64 - 1) hi lo ≠ 0 := fld_ones_ne_zero hord (by omega)
  have hexec := h.exec_write8 hp ha hom hm hord h64 hlo hhi (hw o _ v)
  refine ⟨?_, ?_⟩
  · rintro rfl
    rw [s.writeWhen_open hmask] at hexec
    refine ⟨_, hexec, s.get_writeFieldOf_same off _ v ⟨hi, lo, .rw, 0⟩ hord h64 fun b (hb : b ≤ hi) => ?_,
      (RegsOnly.writeFieldOf s off _ v _).onlyRegs fun x hx => s.reg_writeFieldOf_ne _ v _ (by simpa using hx)⟩
    rw [Nat.testBit_two_pow_sub_one, decide_eq_true_eq]
    omega
  · rintro rfl
    rwa [s.writeWhen_closed hmask] at hexec

end Machine

end Sys2Proof
end

section
/-! The registers of which some values, or some states of the device, are refused (R31, R161, R370, R372, R398, R405, R422, R446). -/

namespace Sys2Proof

namespace Machine

/-! ### Ranged fields -/

/-- A ranged register of the map, whose write is one of its lowest field, under the RWL lock or not. -/
structure RangeWrite (s : State) (off hi : Nat) (ok : Nat → Bool) (viol : Nat) (lock : Bool) (base own i : Nat) : Prop where
  place : RegPlace off base own i 0 32 hi 0
  aligned : off % 4 = 0
  high : hi < 32
  write : ∀ mask v, s.writeOwn .host base i 0 off mask v =
    some (if lock && s.locked then s else s.writeRange .host viol off hi 0 mask v ok)

theorem rangedRegs_write {s : State} {g : Nat} (hg : g < 64) :
    ∀ x ∈ rangedRegs g, ∃ base own i, RangeWrite s x.1 x.2.1 x.2.2.1 x.2.2.2.1 x.2.2.2.2 base own i := by
  have hlock : ∀ t : State, s.unlessLocked t = if true && s.locked then s else t := fun t => by simp [State.unlessLocked]
  simp only [rangedRegs, List.forall_mem_cons, List.not_mem_nil, false_imp_iff, implies_true, and_true]
  refine ⟨⟨_, _, _, place_storecfg, rfl, by decide, fun _ _ => rfl⟩,
    ⟨_, _, _, place_watch, rfl, by decide, fun _ _ => congrArg some (hlock _)⟩,
    ⟨_, _, _, place_droopcfg, rfl, by decide, fun _ _ => congrArg some (hlock _)⟩,
    ⟨_, _, _, place_chkctl hg, ?_, by decide, fun _ _ => congrArg some (hlock _)⟩⟩
  simp only [Reg.mxeChkctl]
  omega

/-- A ranged field takes a value that is accepted, and a write of another counts; a locked one takes and counts none. -/
theorem RangeWrite.exec_write {s : State} {off hi viol base own i : Nat} {ok : Nat → Bool} {lock : Bool}
    (g : RangeWrite s off hi ok viol lock base own i) (h : s.Up) {v : Nat} (hhi : v < 2 ^ (hi + 1)) :
    (lock = true → s.locked = true → exec (.registerWrite .host off 4 (some v)) s = .next s) ∧
    (lock = false ∨ s.locked = false →
      (ok v = true → ∃ t, exec (.registerWrite .host off 4 (some v)) s = .next t ∧ t.get off hi 0 = v ∧ s.OnlyRegs (· == off) t) ∧
      (ok v = false → exec (.registerWrite .host off 4 (some v)) s = .next (s.violate viol .host))) := by
  obtain ⟨hp, ha, h32, hw⟩ := g
  have hmask : fld (2 ^ 32 - 1) hi 0 ≠ 0 := fld_ones_ne_zero (Nat.zero_le _) (by decide)
  have hexec := h.exec_write4 hp ha h32 hhi (hw _ v)
  refine ⟨fun hlock hlocked => ?_, fun hopen => ?_⟩
  · simpa [hlock, hlocked] using hexec
  · have hunlocked : (lock && s.locked) = false := by rcases hopen with h | h <;> simp [h]
    rw [if_neg (by simp [hunlocked]), State.writeRange, badField_eq hmask, fld_eq_self hhi] at hexec
    refine ⟨fun hok => ?_, fun hok => ?_⟩
    · simp only [hok, Bool.not_true, State.violateIf, Bool.false_eq_true, if_false] at hexec
      refine ⟨_, hexec, ?_, (RegsOnly.writeField ..).onlyRegs fun x hx => s.reg_writeField_ne _ _ _ _ _ (by simpa using hx)⟩
      rw [s.get_writeField_same hmask (Nat.zero_le _) (by omega), fld_eq_self hhi, if_pos hok]
    · rw [s.writeField_eq hmask, fld_eq_self hhi] at hexec
      simpa [hok, State.violateIf] using hexec

/-! ### A partition that is held (R161, R398) -/

/-- An entry that a filter drops may be written before or after it. -/
theorem Tab.filter_put {α : Type} (t : Tab α) {k : Nat} (v : α) {p : Nat × α → Bool} (hk : ∀ w, p (k, w) = false) :
    (Tab.put t k v).filter p = t.filter p := by
  induction t with
  | nil => simp [Tab.put, hk]
  | cons x rest ih =>
    obtain ⟨a, w⟩ := x
    unfold Tab.put
    split
    · rw [List.filter_cons_of_neg (by simp [hk])]
    · split
      · next h => subst h; rw [List.filter_cons_of_neg (by simp [hk]), List.filter_cons_of_neg (by simp [hk])]
      · rw [List.filter_cons, List.filter_cons, ih]

/-- The contexts that can be bound are those of the contexts' windows. -/
theorem State.knownCtxs_lt {s : State} {n : Nat} (h : n ∈ s.knownCtxs) : n < 4096 := by
  simp only [State.knownCtxs, List.mem_filter, List.mem_map, Bool.and_eq_true, decide_eq_true_eq] at h
  obtain ⟨⟨r, ⟨_, ⟨h0, h1⟩, _⟩, rfl⟩, _⟩ := h
  omega

/-- The write of a register outside the windows of contexts leaves a partition held or free. -/
theorem State.partHeld_setReg (s : State) {off : Nat} (v p : Nat) (h : 0x200000 ≤ off) :
    (s.setReg off v).partHeld p = s.partHeld p := by
  have hknown : (s.setReg off v).knownCtxs = s.knownCtxs := by
    unfold State.knownCtxs State.setReg
    rw [Tab.filter_put s.regs _ fun w => by simp; omega]
  have hctl : ∀ n < 4096, (s.setReg off v).partOf n = s.partOf n := fun n hn => by
    rw [State.partOf, State.get, s.reg_setReg_ne _ (by simp only [Reg.ctxCtl]; omega)]
    rfl
  have hstat : ∀ n < 4096, (s.setReg off v).cstate n = s.cstate n := fun n hn => by
    rw [State.cstate, State.get, s.reg_setReg_ne _ (by simp only [Reg.ctxStat]; omega)]
    rfl
  have hctxs : (s.setReg off v).ctxsOf p = s.ctxsOf p := by
    unfold State.ctxsOf
    rw [hknown]
    exact List.filter_congr fun n hn => by
      simp only [State.boundTo, hctl n (State.knownCtxs_lt hn), hstat n (State.knownCtxs_lt hn)]
  unfold State.partHeld
  rw [hctxs, Bool.eq_iff_iff]
  simp only [List.any_eq_true]
  refine exists_congr fun n => and_congr_right fun hn => ?_
  rw [hstat n (State.knownCtxs_lt (List.mem_of_mem_filter hn))]

/-- PARTEMU takes a write while no context of the partition runs or is cocooned. -/
theorem exec_write_partemu {s : State} (h : s.Up) {p v : Nat} (hp : p < 64) (hv : v < 2) :
    (s.partHeld p = true → exec (.registerWrite .host (Reg.cfgPartemu p) 4 (some v)) s = .next (s.violate Reg.cfgViolcnt .host)) ∧
    (s.partHeld p = false → ∃ t, exec (.registerWrite .host (Reg.cfgPartemu p) 4 (some v)) s = .next t ∧
      t.get (Reg.cfgPartemu p) 0 0 = v ∧ s.OnlyRegs (· == Reg.cfgPartemu p) t) := by
  have hexec := h.exec_write4 (place_partemu hp) (by simp only [Reg.cfgPartemu]; omega) (by decide) hv
    (t := s.writePartemu .host p v) rfl
  unfold State.writePartemu at hexec
  refine ⟨fun hheld => by rwa [if_pos hheld] at hexec, fun hfree => ?_⟩
  rw [if_neg (by simp [hfree])] at hexec
  refine ⟨_, hexec, ?_, (RegsOnly.set ..).onlyRegs fun x hx => s.reg_set_ne _ _ _ (by simpa using hx)⟩
  rw [s.get_set_same _ _ _ _ (by decide) (by decide)]
  exact Nat.mod_eq_of_lt hv

/-- The two registers that a write to CHK.LEVEL may change. -/
theorem levelFrame {s u : State} {p : Nat} (h : RegsOnly s u)
    (hr : ∀ x, x ≠ Reg.chkLevel p → x ≠ Reg.chkViolcnt → u.reg x = s.reg x) (f : Chk → Chk) :
    s.OnlyRegs (fun o => o == Reg.chkLevel p || o == Reg.chkViolcnt) { u.modChk f with chk := s.chk } := by
  obtain ⟨rs, rfl⟩ := h
  refine ⟨rfl, fun x hx => ?_⟩
  simp only [Bool.or_eq_false_iff, beq_eq_false_iff_ne] at hx
  exact hr x hx.1 hx.2

/-- A write to CHK.LEVEL, with `t` what it makes of the level: ROT stays as it is, is refused, or changes. -/
theorem State.writeLevel_eq (s : State) (o : Origin) {p v : Nat} (hp : p < 64) (hv : v < 8) :
    let t := s.set (Reg.chkLevel p) 1 0 (v % 4)
    s.writeLevel o p v = if v / 4 = s.get (Reg.chkLevel p) 2 2 then t
      else if s.partHeld p then t.violate Reg.chkViolcnt o
      else (t.set (Reg.chkLevel p) 2 2 (v / 4)).modChk fun x =>
        { x with spares := Tab.erase x.spares p, removed := Tab.erase x.removed p } := by
  intro t
  have hlevel : fld v 1 0 = v % 4 := by simp [fld]
  have hrot : fld v 2 2 = v / 4 := by
    simp only [fld, Nat.shiftRight_eq_div_pow]
    omega
  have hkeep : t.get (Reg.chkLevel p) 2 2 = s.get (Reg.chkLevel p) 2 2 :=
    s.get_set_ne _ _ _ _ _ _ (by decide) (by decide) (by decide)
  have hheld : t.partHeld p = s.partHeld p := s.partHeld_setReg _ p (by simp only [Reg.chkLevel]; omega)
  rw [← hkeep, ← hheld, ← hrot, State.writeLevel, hlevel]

/-- The level of CHK.LEVEL is always written, ROT only while no context of the partition runs or is cocooned. -/
theorem exec_write_level {s : State} (h : s.Up) {p v : Nat} (hp : p < 64) (hv : v < 8) :
    ∃ t, exec (.registerWrite .host (Reg.chkLevel p) 4 (some v)) s = .next t ∧ t.get (Reg.chkLevel p) 1 0 = v % 4 ∧
      s.OnlyRegs (fun o => o == Reg.chkLevel p || o == Reg.chkViolcnt) { t with chk := s.chk } ∧
      let refused := v / 4 ≠ s.get (Reg.chkLevel p) 2 2 ∧ s.partHeld p = true
      (refused → t.get (Reg.chkLevel p) 2 2 = s.get (Reg.chkLevel p) 2 2 ∧ t.chk = s.chk ∧
        t.get Reg.chkViolcnt 15 0 = min 65535 (s.get Reg.chkViolcnt 15 0 + 1)) ∧
      (¬ refused → t.get (Reg.chkLevel p) 2 2 = v / 4 ∧ t.reg Reg.chkViolcnt = s.reg Reg.chkViolcnt) := by
  have hne : Reg.chkLevel p ≠ Reg.chkViolcnt := by
    simp only [Reg.chkViolcnt, Reg.chkLevel]
    omega
  let t := s.set (Reg.chkLevel p) 1 0 (v % 4)
  have hget : t.get (Reg.chkLevel p) 1 0 = v % 4 := by
    rw [s.get_set_same _ _ _ _ (by decide) (by decide)]
    exact Nat.mod_mod v 4
  have hkeep : t.get (Reg.chkLevel p) 2 2 = s.get (Reg.chkLevel p) 2 2 :=
    s.get_set_ne _ _ _ _ _ _ (by decide) (by decide) (by decide)
  have hregs : ∀ x, x ≠ Reg.chkLevel p → t.reg x = s.reg x := fun x hx => s.reg_set_ne _ _ _ hx
  refine ⟨_, h.exec_write4 (place_level hp) (by simp only [Reg.chkLevel]; omega) (by decide) hv rfl, ?_⟩
  change (s.writeLevel .host p v).get _ _ _ = _ ∧ s.OnlyRegs _ { s.writeLevel .host p v with chk := s.chk } ∧ _
  rw [s.writeLevel_eq .host hp hv]
  by_cases hsame : v / 4 = s.get (Reg.chkLevel p) 2 2
  · rw [if_pos hsame]
    exact ⟨hget, levelFrame (.set ..) (fun x hx _ => hregs x hx) id, fun hr => absurd hsame hr.1,
      fun _ => ⟨hkeep.trans hsame.symm, hregs _ hne.symm⟩⟩
  · rw [if_neg hsame]
    by_cases hheld : s.partHeld p = true
    · have hviol : ∀ x, x ≠ Reg.chkViolcnt → (t.violate Reg.chkViolcnt .host).reg x = t.reg x := fun x hx => t.reg_violate_ne _ hx
      have hcount : t.get Reg.chkViolcnt 15 0 = s.get Reg.chkViolcnt 15 0 := congrArg (fld · 15 0) (hregs _ hne.symm)
      rw [if_pos hheld]
      refine ⟨(congrArg (fld · 1 0) (hviol _ hne)).trans hget,
        levelFrame ((RegsOnly.set ..).trans (.violate ..)) (fun x hx hv => (hviol x hv).trans (hregs x hx)) id,
        fun _ => ⟨(congrArg (fld · 2 2) (hviol _ hne)).trans hkeep, rfl, ?_⟩, fun hr => absurd ⟨hsame, hheld⟩ hr⟩
      exact hcount ▸ t.get_violate_host _
    · have hrot : (t.set (Reg.chkLevel p) 2 2 (v / 4)).get (Reg.chkLevel p) 2 2 = v / 4 := by
        rw [t.get_set_same _ _ _ _ (by decide) (by decide)]
        exact Nat.mod_eq_of_lt (by omega)
      have hlow : (t.set (Reg.chkLevel p) 2 2 (v / 4)).get (Reg.chkLevel p) 1 0 = v % 4 :=
        (t.get_set_ne _ _ _ _ _ _ (by decide) (by decide) (by decide)).trans hget
      have hrest : ∀ x, x ≠ Reg.chkLevel p → (t.set (Reg.chkLevel p) 2 2 (v / 4)).reg x = s.reg x := fun x hx =>
        (t.reg_set_ne _ _ _ hx).trans (hregs x hx)
      rw [if_neg hheld]
      exact ⟨hlow, levelFrame ((RegsOnly.set ..).trans (.set ..)) (fun x hx _ => hrest x hx) _, fun hr => absurd hr.2 hheld,
        fun _ => ⟨hrot, hrest _ hne.symm⟩⟩

end Machine

end Sys2Proof
end

section
/-! Governor entries, buffer grants, snapshot areas, the role, the management port's writes, and writes of two registers. -/

namespace Sys2Proof

namespace Machine

/-! ### Governor entries (R422, R446) -/

theorem State.writeOwn_govtab (s : State) {k : Nat} (hk : k < 4) (off mask v : Nat) :
    s.writeOwn .host (Reg.pwrGovtab k) 0 0 off mask v = some (s.unlessLocked (s.writeGovtab .host k mask v)) := by
  have hcases : k = 0 ∨ k = 1 ∨ k = 2 ∨ k = 3 := by omega
  rcases hcases with rfl | rfl | rfl | rfl <;> rfl

/-- An entry is taken field by field, and a write that leaves one out counts once. -/
theorem exec_write_govtab {s : State} (h : s.Up) {k v : Nat} (hk : k < 4) (hv : v < 2 ^ 48) :
    let off := Reg.pwrGovtab k
    let okB := decide (fld v 31 16 ≤ 50)
    let okV := decide (650 ≤ fld v 15 0) && decide (fld v 15 0 ≤ 850)
    (s.locked = true → exec (.registerWrite .host off 8 (some v)) s = .next s) ∧
    (s.locked = false → ∃ t, exec (.registerWrite .host off 8 (some v)) s = .next t ∧ t.get off 47 32 = fld v 47 32 ∧
      t.get off 31 16 = (if okB then fld v 31 16 else s.get off 31 16) ∧
      t.get off 15 0 = (if okV then fld v 15 0 else s.get off 15 0) ∧
      t.get Reg.pwrViolcnt 15 0 = (if okB && okV then s.get Reg.pwrViolcnt 15 0 else min 65535 (s.get Reg.pwrViolcnt 15 0 + 1)) ∧
      s.OnlyRegs (fun o => o == off || o == Reg.pwrViolcnt) t) := by
  intro off okB okV
  have hne : off ≠ Reg.pwrViolcnt := by
    simp only [off, Reg.pwrGovtab, Reg.pwrViolcnt]
    omega
  have hexec := h.exec_write8 (place_govtab hk) (by simp only [Reg.pwrGovtab]; omega) (o := .host) nofun
    (s.mayAccess_host _ _) (by decide) (by decide) (Nat.mod_one v) (by simpa using hv) (s.writeOwn_govtab hk off (2 ^ 64 - 1) v)
  refine ⟨fun hl => by simpa [State.unlessLocked, hl] using hexec, fun hl => ⟨s.writeGovtab .host k (2 ^ 64 - 1) v, ?_, ?_⟩⟩
  · simpa [State.unlessLocked, hl] using hexec
  let s1 := s.writeField off 47 32 (2 ^ 64 - 1) v fun _ => true
  let s2 := s1.writeField off 31 16 (2 ^ 64 - 1) v fun b => decide (b ≤ 50)
  let s3 := s2.writeField off 15 0 (2 ^ 64 - 1) v fun b => decide (650 ≤ b) && decide (b ≤ 850)
  have hbad : s.writeGovtab .host k (2 ^ 64 - 1) v = s3.violateIf (!okB || !okV) Reg.pwrViolcnt .host := by
    rw [State.writeGovtab, badField_eq (by decide), badField_eq (by decide)]
  have hcount : s3.get Reg.pwrViolcnt 15 0 = s.get Reg.pwrViolcnt 15 0 := congrArg (fld · 15 0) <| by
    rw [s2.reg_writeField_ne _ _ _ _ _ hne.symm, s1.reg_writeField_ne _ _ _ _ _ hne.symm, s.reg_writeField_ne _ _ _ _ _ hne.symm]
  have hfield : ∀ hi lo, (s3.violateIf (!okB || !okV) Reg.pwrViolcnt .host).get off hi lo = s3.get off hi lo := fun hi lo =>
    congrArg (fld · hi lo) (s3.reg_violateIf_ne _ .host hne)
  rw [hbad, hfield, hfield, hfield, s3.get_violateIf_host, hcount]
  refine ⟨?_, ?_, ?_, ?_, ?_⟩
  · rw [s2.get_writeField_ne _ _ _ (by decide) (by decide) (by decide), s1.get_writeField_ne _ _ _ (by decide) (by decide) (by decide),
      s.get_writeField_same (by decide) (by decide) (by decide), if_pos rfl]
  · rw [s2.get_writeField_ne _ _ _ (by decide) (by decide) (by decide), s1.get_writeField_same (by decide) (by decide) (by decide),
      s.get_writeField_ne _ _ _ (by decide) (by decide) (by decide)]
  · rw [s2.get_writeField_same (by decide) (by decide) (by decide), s1.get_writeField_ne _ _ _ (by decide) (by decide) (by decide),
      s.get_writeField_ne _ _ _ (by decide) (by decide) (by decide)]
  · cases okB <;> cases okV <;> rfl
  · refine (((RegsOnly.writeField s ..).trans (.writeField s1 ..)).trans (.writeField s2 ..)).trans (.violateIf s3 ..) |>.onlyRegs
      fun x hx => ?_
    simp only [Bool.or_eq_false_iff, beq_eq_false_iff_ne] at hx
    rw [s3.reg_violateIf_ne _ _ hx.2, s2.reg_writeField_ne _ _ _ _ _ hx.1, s1.reg_writeField_ne _ _ _ _ _ hx.1,
      s.reg_writeField_ne _ _ _ _ _ hx.1]

/-! ### Buffer grants (R370) -/

/-- A register whose reset value fits holds 64 bits. -/
theorem State.reg_lt (s : State) {off : Nat} (h : regReset off < 2 ^ 64) : s.reg off < 2 ^ 64 := by
  unfold State.reg
  split
  · exact BitVec.isLt _
  · exact h

theorem State.writeOwn_pgrant (s : State) (m off mask v : Nat) :
    s.writeOwn .host (Reg.mdlPgrant 0) m 0 off mask v = some (s.writePgrant .host m mask v) := rfl

/-- MDL.PGRANT is written as a whole while the port is DOWN, with a sum that the buffers hold. -/
theorem exec_write_pgrant {s : State} (h : s.Up) {m v : Nat} (hm : m < 32) (hv : v < 2 ^ 56) :
    exec (.registerWrite .host (Reg.mdlPgrant m) 8 (some v)) s =
      .next (if s.linkState m = 0 ∧ (grantsOf v).sum ≤ 16384 then s.setReg (Reg.mdlPgrant m) v else s.violate Reg.mdlViolcnt .host) := by
  have hp := place_pgrant hm
  have hreset : regReset (Reg.mdlPgrant m) < 2 ^ 64 := by
    rw [regReset, hp.row]
    decide +kernel
  have hnew : (s.reg (Reg.mdlPgrant m) - (s.reg (Reg.mdlPgrant m) &&& (2 ^ 64 - 1)) + (v &&& (2 ^ 64 - 1))) % 2 ^ 56 = v := by
    have hold := s.reg_lt hreset
    rw [Nat.and_two_pow_sub_one_eq_mod, Nat.and_two_pow_sub_one_eq_mod, Nat.mod_eq_of_lt hold]
    omega
  rw [h.exec_write8 hp (by simp only [Reg.mdlPgrant]; omega) (o := .host) nofun (s.mayAccess_host _ _) (by decide)
    (by decide) (Nat.mod_one v) (by simpa using hv) (s.writeOwn_pgrant m _ _ v), State.writePgrant]
  rw [hnew]
  by_cases hdown : s.linkState m = 0 <;> by_cases hsum : (grantsOf v).sum ≤ 16384 <;> simp [hdown, hsum]

end Machine

end Sys2Proof
end

section
/-! Snapshot areas and the role of the device (R31, R372, R405). -/

namespace Sys2Proof

namespace Machine

/-! ### Snapshot areas (R405) -/

/-- Emptying the slots writes registers and forgets the slots, the takes and the drains. -/
theorem State.emptySlots_regsOnly (s : State) :
    RegsOnly (s.modSnp fun x => { x with slots := [], takes := [], drains := [] }) s.emptySlots :=
  .foldl (fun _ _ => (RegsOnly.setReg ..).trans (.setReg ..)) _ _

/-- The slots' own registers lie beyond the areas'. -/
theorem State.reg_emptySlots_area (s : State) {c : Nat} (hc : c < 12) : s.emptySlots.reg (Reg.snpArea c) = s.reg (Reg.snpArea c) := by
  have hne : ∀ k, Reg.snpArea c ≠ Reg.snpSlot0 k ∧ Reg.snpArea c ≠ Reg.snpSlot1 k := fun k => by
    simp only [Reg.snpArea, Reg.snpSlot0, Reg.snpSlot1]
    omega
  simp only [State.emptySlots, List.foldl, State.reg_setReg_ne _ _ (hne 0).1, State.reg_setReg_ne _ _ (hne 0).2,
    State.reg_setReg_ne _ _ (hne 1).1, State.reg_setReg_ne _ _ (hne 1).2]
  rfl

theorem State.slotState_emptySlots (s : State) {k : Nat} (hk : k < 2) : s.emptySlots.slotState k = slEmpty := by
  have hcases : k = 0 ∨ k = 1 := by omega
  have hzero : s.emptySlots.reg (Reg.snpSlot0 k) = 0 := by
    rcases hcases with rfl | rfl <;>
      simp (disch := decide) only [State.emptySlots, List.foldl, State.reg_setReg_ne, State.reg_setReg_same, Nat.zero_mod]
  simp [State.slotState, State.get, hzero, fld, slEmpty]

theorem State.writeOwn_area (s : State) (c off mask v : Nat) :
    s.writeOwn .host (Reg.snpArea 0) c 0 off mask v = some (s.unlessLocked (s.writeArea c mask v)) := rfl

/-- An area takes a write while the registers are not locked; one that changes it empties both slots. -/
theorem exec_write_area {s : State} (h : s.Up) {c v : Nat} (hc : c < 12) (hv : v < 2 ^ 52) :
    (s.locked = true → exec (.registerWrite .host (Reg.snpArea c) 8 (some v)) s = .next s) ∧
    (s.locked = false → ∃ t, exec (.registerWrite .host (Reg.snpArea c) 8 (some v)) s = .next t ∧
      t.get (Reg.snpArea c) 51 0 = v ∧ t.mem = s.mem ∧
      (t.reg (Reg.snpArea c) ≠ s.reg (Reg.snpArea c) → t.snp.slots = [] ∧ t.snp.takes = [] ∧ t.snp.drains = [] ∧
        ∀ k, k < 2 → t.slotState k = slEmpty) ∧
      (t.reg (Reg.snpArea c) = s.reg (Reg.snpArea c) → t.snp = s.snp ∧ ∀ k, k < 2 → t.slotState k = s.slotState k)) := by
  have hexec := h.exec_write8 (place_area hc) (by simp only [Reg.snpArea]; omega) (o := .host) nofun (s.mayAccess_host _ _) (by decide)
    (by decide) (Nat.mod_one v) (by simpa using hv) (s.writeOwn_area c _ _ v)
  refine ⟨fun hl => by simpa [State.unlessLocked, hl] using hexec, fun hl => ⟨s.writeArea c (2 ^ 64 - 1) v, ?_, ?_⟩⟩
  · simpa [State.unlessLocked, hl] using hexec
  let t := s.writeFieldOf (Reg.snpArea c) (2 ^ 64 - 1) v ⟨51, 0, .rw, 0⟩
  have hregs : RegsOnly s t := .writeFieldOf ..
  have hget : t.get (Reg.snpArea c) 51 0 = v := by
    refine (s.get_writeFieldOf_same _ _ v ⟨51, 0, .rw, 0⟩ (by decide) (by decide) fun b (hb : b ≤ 51) => ?_).trans
      (fld_eq_self (by simpa using hv))
    rw [Nat.testBit_two_pow_sub_one, decide_eq_true_eq]
    omega
  have hslot : ∀ k, t.slotState k = s.slotState k := fun k => congrArg (fld · 63 61) <|
    s.reg_writeFieldOf_ne _ v _ (by simp only [Reg.snpArea, Reg.snpSlot0]; omega)
  have harea : s.writeArea c (2 ^ 64 - 1) v = if t.reg (Reg.snpArea c) = s.reg (Reg.snpArea c) then t else t.emptySlots := by
    rw [State.writeArea, s.writeWhen_open (fld_ones_ne_zero (by decide) (by decide))]
  rw [harea]
  by_cases hsame : t.reg (Reg.snpArea c) = s.reg (Reg.snpArea c)
  · rw [if_pos hsame]
    obtain ⟨rs, ht⟩ := hregs
    exact ⟨hget, congrArg (·.mem) ht, fun hne => absurd hsame hne, fun _ => ⟨congrArg (·.snp) ht, fun k _ => hslot k⟩⟩
  · rw [if_neg hsame]
    have hkept := t.reg_emptySlots_area hc
    obtain ⟨rs, ht⟩ := hregs
    obtain ⟨rs', ht'⟩ := t.emptySlots_regsOnly
    refine ⟨(congrArg (fld · 51 0) hkept).trans hget, (congrArg (·.mem) ht').trans (congrArg (·.mem) ht), fun _ => ?_,
      fun heq => absurd (hkept.symm.trans heq) hsame⟩
    exact ⟨congrArg (·.snp.slots) ht', congrArg (·.snp.takes) ht', congrArg (·.snp.drains) ht', fun k hk => t.slotState_emptySlots hk⟩

/-! ### The role (R31, R372) -/

theorem State.writeOwn_role (s : State) (off mask v : Nat) :
    s.writeOwn .host Reg.stpRole 0 0 off mask v = some (s.unlessLocked (s.writeRole .host mask v)) := rfl

/-- STP.ROLE takes a write while the registers are not locked, but for the reserved role 11b; no role counts then. -/
theorem exec_write_role {s : State} (h : s.Up) {v : Nat} (hv : v < 2 ^ 64) (hlow : v % 2 ^ 26 = 0) :
    (s.locked = true → exec (.registerWrite .host Reg.stpRole 8 (some v)) s = .next s) ∧
    (s.locked = false → ∃ t, exec (.registerWrite .host Reg.stpRole 8 (some v)) s = .next t ∧
      t.get Reg.stpRole 63 40 = fld v 63 40 ∧ t.get Reg.stpRole 37 26 = fld v 37 26 ∧
      t.get Reg.stpRole 39 38 = (if fld v 39 38 = 3 then s.get Reg.stpRole 39 38 else fld v 39 38) ∧ t.role = 0 ∧
      t.get Reg.stpViolcnt 15 0 = (if fld v 39 38 = 3 then min 65535 (s.get Reg.stpViolcnt 15 0 + 1) else s.get Reg.stpViolcnt 15 0) ∧
      s.OnlyRegs (fun o => o == Reg.stpRole || o == Reg.stpViolcnt) t) := by
  have hexec := h.exec_write8 place_role (by decide) (o := .host) nofun (s.mayAccess_host _ _) (by decide) (by decide) hlow
    (by simpa using hv) (s.writeOwn_role _ _ v)
  refine ⟨fun hl => by simpa [State.unlessLocked, hl] using hexec, fun hl => ⟨s.writeRole .host (2 ^ 64 - 1) v, ?_, ?_⟩⟩
  · simpa [State.unlessLocked, hl] using hexec
  let m := 2 ^ 64 - 1
  let s1 := s.writeFieldOf Reg.stpRole m v ⟨63, 52, .rw, 0⟩
  let s2 := s1.writeFieldOf Reg.stpRole m v ⟨51, 40, .rw, 0⟩
  let s3 := s2.writeField Reg.stpRole 39 38 m v (· != 3)
  let s4 := s3.writeFieldOf Reg.stpRole m v ⟨37, 26, .rw, 0⟩
  let bad := !(fld v 39 38 != 3)
  have hones : ∀ i, i < 64 → m.testBit i = true := fun i hi => by rw [Nat.testBit_two_pow_sub_one, decide_eq_true_eq]; exact hi
  have hwrite : s.writeRole .host m v = s4.violateIf bad Reg.stpViolcnt .host := by
    simp only [State.writeRole]
    rw [badField_eq (by decide), s.writeWhen_open (by decide), State.writeWhen_open _ (by decide), State.writeWhen_open _ (by decide)]
  have hregs : RegsOnly s (s4.violateIf bad Reg.stpViolcnt .host) :=
    ((((RegsOnly.writeFieldOf s ..).trans (.writeFieldOf s1 ..)).trans (.writeField s2 ..)).trans (.writeFieldOf s3 ..)).trans
      (.violateIf s4 ..)
  have hothers : ∀ x, x ≠ Reg.stpRole → s4.reg x = s.reg x := fun x hx => by
    rw [s3.reg_writeFieldOf_ne _ _ _ hx, s2.reg_writeField_ne _ _ _ _ _ hx, s1.reg_writeFieldOf_ne _ _ _ hx, s.reg_writeFieldOf_ne _ _ _ hx]
  have hkept : ∀ x, x ≠ Reg.stpViolcnt → (s4.violateIf bad Reg.stpViolcnt .host).reg x = s4.reg x := fun x hx =>
    s4.reg_violateIf_ne _ .host hx
  have hfield : ∀ hi lo, (s4.violateIf bad Reg.stpViolcnt .host).get Reg.stpRole hi lo = s4.get Reg.stpRole hi lo := fun hi lo =>
    congrArg (fld · hi lo) (hkept _ (by decide))
  rw [hwrite, hfield, hfield, hfield, s4.get_violateIf_host]
  refine ⟨?_, ?_, ?_, ?_, ?_, ?_⟩
  · rw [s3.get_writeFieldOf_ne _ _ _ _ (by decide) (by decide) (by decide) (by decide),
      s2.get_writeField_ne _ _ _ (by decide) (by decide) (by decide)]
    refine fld_congr fun i hlo hhi => ?_
    rw [s1.testBit_writeFieldOf _ _ _ _ _ (by decide) (by decide) (by omega)]
    by_cases hhigh : 52 ≤ i
    · rw [if_neg (by dsimp only; omega), s.testBit_writeFieldOf _ _ _ _ _ (by decide) (by decide) (by omega),
        if_pos ⟨hones i (by omega), hhigh, hhi⟩]
      rfl
    · rw [if_pos ⟨hones i (by omega), hlo, by dsimp only; omega⟩]
      rfl
  · exact s3.get_writeFieldOf_same _ _ v ⟨37, 26, .rw, 0⟩ (by decide) (by decide) fun i (hi : i ≤ 37) => hones i (by omega)
  · rw [s3.get_writeFieldOf_ne _ _ _ _ (by decide) (by decide) (by decide) (by decide),
      s2.get_writeField_same (by decide) (by decide) (by decide), s1.get_writeFieldOf_ne _ _ _ _ (by decide) (by decide) (by decide) (by decide),
      s.get_writeFieldOf_ne _ _ _ _ (by decide) (by decide) (by decide) (by decide)]
    by_cases hres : fld v 39 38 = 3 <;> simp [hres]
  · have hlocked : (s4.violateIf bad Reg.stpViolcnt .host).locked = s.locked :=
      State.locked_congr ((hkept _ (by decide)).trans (hothers _ (by decide)))
    simp [State.role, hlocked, hl]
  · have hcount : s4.get Reg.stpViolcnt 15 0 = s.get Reg.stpViolcnt 15 0 := congrArg (fld · 15 0) (hothers _ (by decide))
    rw [hcount]
    by_cases hres : fld v 39 38 = 3 <;> simp [bad, hres]
  · refine hregs.onlyRegs fun x hx => ?_
    simp only [Bool.or_eq_false_iff, beq_eq_false_iff_ne] at hx
    exact (hkept x hx.2).trans (hothers x hx.1)

end Machine

end Sys2Proof
end

section
/-! Writes of the management port, writes of two registers, and the registers with conditions together (R12, R473). -/

namespace Sys2Proof

namespace Machine

/-! ### The management port (R436, R473) -/

/-- A write by the management port of 4 bytes at the start of a register that it may write. -/
theorem State.Up.mgmtWrite4 {s : State} (h : s.Up) {off v : Nat} {r : RegRow} (hr : regAt off = some r) (ha : off % 4 = 0)
    (hw : mgmtWrites off = true) : s.regWrite .mgmt off 4 v = s.writeReg .mgmt r off (2 ^ 32 - 1) (v % 2 ^ 32) := by
  have hup : s.mgmtUp = true := by
    have := h.boot
    simp only [State.mgmtUp, decide_eq_true_eq]
    omega
  have hok : s.mgmtOk true off 4 = true := by simp [State.mgmtOk, ha, regPart_of_regAt hr, hw, h.boot]
  simp [State.regWrite, State.mgmtWrite, hup, hok, isWide, State.writePart, regPart_of_regAt hr, State.mayAccess]

/-- A write to a register whose own write does not depend on the origin has the same effect from the port as from the host. -/
theorem exec_write_mgmt {s : State} (h : s.Up) {off viol width hi lo v : Nat} (p : RegPlace off off viol 0 0 width hi lo)
    (ha : off % 4 = 0) (hport : mgmtWrites off = true)
    (own : Nat → Nat → Option State) (hown : ∀ o x mask w, s.writeOwn o off 0 0 x mask w = own mask w)
    (hv : ∀ r, regAt off = some r → v % 2 ^ 32 = v % 2 ^ 32 &&& r.usedMask) :
    exec (.registerWrite .mgmt off 4 (some v)) s = exec (.registerWrite .host off 4 (some v)) s := by
  have hclean : v % 2 ^ 32 &&& (2 ^ 32 - 1) &&& (rowOf off).usedMask = v % 2 ^ 32 &&& (2 ^ 32 - 1) := by
    rw [Nat.and_two_pow_sub_one_eq_mod, Nat.mod_mod, ← hv _ p.row]
  rw [exec_registerWrite_some s .mgmt 4 v p.below, exec_registerWrite_some s .host 4 v p.below, h.mgmtWrite4 p.row ha hport,
    h.write4 p.row ha (by rw [p.owner]; rfl), s.writeReg_clean .mgmt p hclean, s.writeReg_clean .host p hclean, hown, hown]

theorem place_senCtl : RegPlace Reg.senCtl Reg.senCtl Reg.senViolcnt 0 0 32 31 31 :=
  .of_single (by decide +kernel) (by decide +kernel) (by decide +kernel) (by decide)

theorem place_senTrip : RegPlace Reg.senTrip Reg.senTrip Reg.senViolcnt 0 0 32 0 0 :=
  .of_single (by decide +kernel) (by decide +kernel) (by decide +kernel) (by decide)

theorem place_mgtCtl : RegPlace Reg.mgtCtl Reg.mgtCtl Reg.mgtViolcnt 0 0 32 31 30 :=
  .of_single (by decide +kernel) (by decide +kernel) (by decide +kernel) (by decide)

/-- The registers that both reach without a condition on the origin. -/
theorem exec_write_mgmt_host {s : State} (h : s.Up) {off v : Nat} (hoff : off ∈ [Reg.senCtl, Reg.senTrip, Reg.mgtCtl])
    (hv : ∀ r, regAt off = some r → v % 2 ^ 32 = v % 2 ^ 32 &&& r.usedMask) :
    exec (.registerWrite .mgmt off 4 (some v)) s = exec (.registerWrite .host off 4 (some v)) s := by
  simp only [List.mem_cons, List.not_mem_nil, or_false] at hoff
  rcases hoff with rfl | rfl | rfl
  · exact exec_write_mgmt h place_senCtl (by decide) (by decide +kernel) (fun mask v => some (s.writeSenCtl mask v))
      (fun _ _ _ _ => rfl) hv
  · exact exec_write_mgmt h place_senTrip (by decide) (by decide +kernel) (fun _ _ => none) (fun _ _ _ _ => rfl) hv
  · exact exec_write_mgmt h place_mgtCtl (by decide) (by decide +kernel) (fun _ v => some (s.writeMgtCtl v)) (fun _ _ _ _ => rfl) hv

/-! ### Writes of two registers (R12, R17) -/

theorem lowWord_eq (v : Nat) : lowWord v = v % 2 ^ 32 := rfl

theorem highWord_eq (v : Nat) : highWord v = v / 2 ^ 32 % 2 ^ 32 := by
  simp [highWord, fld, Nat.shiftRight_eq_div_pow]

/-- The host's aligned write of 4 bytes within a block. -/
theorem State.Up.regWrite_word {s : State} (h : s.Up) {off v : Nat} (ha : off % 4 = 0) (ho : (ownerViol off).isSome = true) :
    s.regWrite .host off 4 v = s.writePart .host off 4 v := by
  simp [State.regWrite, State.barWrite, h.hostUp, State.accessViol, h.accessBad (.inl rfl) ha ho, isWide]

theorem State.partViol_host {s : State} {off : Nat} (hr : (regPart off).isSome = true) : s.partViol .host true off = none := by
  obtain ⟨⟨r, base, sh⟩, hx⟩ := Option.isSome_iff_exists.mp hr
  simp [State.partViol, hx, State.mayAccess]

/-- The host's write of 8 bytes over two registers is a write of each, low half first. -/
theorem State.Up.regWrite_halves {s : State} (h : s.Up) {off v : Nat} (ha : off % 8 = 0) (hw : isWide off 8 = false)
    (hlo : (regPart off).isSome = true) (ho : (ownerViol off).isSome = true) :
    s.regWrite .host off 8 v = (s.writePart .host off 4 (v % 2 ^ 32)).writePart .host (off + 4) 4 (v / 2 ^ 32 % 2 ^ 32) := by
  simp [State.regWrite, State.barWrite, h.hostUp, State.accessViol, h.accessBad (.inr rfl) ha ho, hw, State.wholeViol,
    State.partViol_host hlo, lowWord_eq, highWord_eq]

theorem exec_write_halves {s u : State} {off v : Nat} (h : s.Up) (hu : u.Up) (ha : off % 8 = 0) (hb : off + 4 < bar4)
    (hw : isWide off 8 = false) (hlo : (regPart off).isSome = true)
    (ho : (ownerViol off).isSome = true) (ho' : (ownerViol (off + 4)).isSome = true)
    (hfirst : exec (.registerWrite .host off 4 (some (v % 2 ^ 32))) s = .next u) :
    exec (.registerWrite .host off 8 (some v)) s = exec (.registerWrite .host (off + 4) 4 (some (v / 2 ^ 32 % 2 ^ 32))) u := by
  rw [exec_registerWrite_some _ _ _ _ (by omega), h.regWrite_word (by omega) ho] at hfirst
  injection hfirst with hfirst
  rw [exec_registerWrite_some _ _ _ _ (by omega), exec_registerWrite_some _ _ _ _ hb, h.regWrite_halves ha hw hlo ho, hfirst,
    hu.regWrite_word (by omega) ho']

end Machine

/-- Settles O10: every register with a condition is placed in the map once (`RegPlace`), so a write reaches the write of its own
(`State.writeOwn`), and the condition is that write's. -/
theorem conditionalRegisters : Obligations.ConditionalRegisters := by
  unfold Obligations.ConditionalRegisters
  refine ⟨fun s n q k x h hn hq hk hx o v hom hm hlo hhi => ?_, fun s g v off hi viol ok lock h hg hx hhi => ?_,
    fun s p v h hp => ⟨Machine.exec_write_partemu h hp, Machine.exec_write_level h hp⟩,
    fun s k v h hk hv => Machine.exec_write_govtab h hk hv, fun s m v h hm hv => Machine.exec_write_pgrant h hm hv,
    fun s c v h hc hv => Machine.exec_write_area h hc hv, fun s v h hv hlow => Machine.exec_write_role h hv hlow,
    fun s off v h hoff hv => ?_, fun s u off v h hu ha hb hw hlo _ ho ho' hfirst => Machine.exec_write_halves h hu ha hb hw hlo ho ho' hfirst⟩
  · obtain ⟨base, own, i, j, g⟩ := Machine.gatedRegs_write hn hq hk x hx
    exact g.exec_write h hom hm hlo hhi
  · obtain ⟨base, own, i, w⟩ := Machine.rangedRegs_write hg _ hx
    exact w.exec_write h hhi
  · exact Machine.exec_write_mgmt_host h hoff hv

end Sys2Proof
end
